-- ==== Sys2Proof/Word.lean ====
section
/-! DEFINITION. The word types of the part: bytes, 32-bit words, 24-bit bus addresses, port numbers. -/

namespace Sys2Proof

/-- One byte of the accessory memory or of a lane frame. -/
abbrev Byte := BitVec 8

/-- A word of 32 bits (00_scope.md section 5.2). -/
abbrev Word := BitVec 32

/-- A byte address of the 16 MiB accessory memory, as the controller bus carries it. -/
abbrev Addr := BitVec 24

/-- A port number, A0 to A11. -/
abbrev Port := Fin 12

end Sys2Proof
end

