-- ==== Sys2Proof/Syntax.lean ====
section
/-! DEFINITION. The commands of the part: one constructor per row of the opcode table, with the operands its event carries. -/

namespace Sys2Proof

/-- The levels at the strap pins when they are latched (R178). -/
structure Straps where
  cab : Fin 8
  rte : Bool
  auto : Bool
  deriving DecidableEq, Repr

/-- A request word: the device command word or the request word of a port (R146, R161). -/
inductive ReqWord where
  | device
  | port (n : Port)
  deriving DecidableEq, Repr

/-- The kind of an accessory (R1, R177). -/
inductive KindCode where
  | lens | viewfinder | monitor | transmitter | intercom | light | motor | recorder | other
  deriving DecidableEq, Repr

/-- What a HELLO says of its accessory (R1, R92). -/
structure Identity where
  maker : BitVec 16
  kind : KindCode
  serial : Word
  requested : BitVec 12
  standbyCapable : Bool
  deriving DecidableEq, Repr

/-- One constructor per row of spec/opcode_table.json. The table gives the rows no operands; each has the
operands of its event: the port, the value converted, the frame's fields, the bus access. -/
inductive Instr where
  | powerOnReset
  | powerOnResetEnd (straps : Straps)
  | resetnAssert
  | resetnDeassert (straps : Straps)
  /-- A full-word write of code 0x0F to the device command word; `high` is bytes 1 to 3 as written. -/
  | softReset (high : BitVec 24)
  | softResetTake
  | converterWarmupEnd
  | presenceAssert (n : Port)
  | arrival (n : Port)
  | presenceLoss (n : Port)
  | helloTimerExpiry (n : Port)
  | rampTimerExpiry (n : Port)
  | settleTimerExpiry (n : Port)
  | onTimeLimit (n : Port)
  | graceTimerExpiry (n : Port)
  | shedOrderTaken (n : Port)
  /-- The current the comparator of the port's switch senses, in cu. -/
  | hardLimitTrip (n : Port) (sensed : Nat)
  | restartTimerExpiry (n : Port)
  /-- A full-word write of the request word of the port; `high` is bytes 1 to 3 as written. -/
  | apply (n : Port) (high : BitVec 24)
  | clear (n : Port) (high : BitVec 24)
  | restart (n : Port) (high : BitVec 24)
  | applyDevice (high : BitVec 24)
  | loadWheel (high : BitVec 24)
  | loadSequence (high : BitVec 24)
  | seqRun (high : BitVec 24)
  | seqOnce (high : BitVec 24)
  | seqStop (high : BitVec 24)
  | calibrate (high : BitVec 24)
  | undefinedRequestCode (w : ReqWord) (value : Word)
  /-- The conversion of the port's current completes with this reading, in cu, before the offset correction. -/
  | portISample (n : Port) (reading : Nat)
  | sourceVSample (millivolts : Nat)
  | tempSample (celsius : Int)
  | offsetSample (reading : Nat)
  | noneSlot
  | calibrationConversion (reading : Nat)
  | helloFrame (n : Port) (identity : Identity)
  | putFrame (n : Port) (tag : Fin 4) (cls : Fin 4) (offset : BitVec 24) (data : List Byte)
  | getFrame (n : Port) (tag : Fin 4) (cls : Fin 4) (offset : BitVec 24) (length : BitVec 16)
  | keepFrame (n : Port)
  | leaveFrame (n : Port)
  /-- The bytes received between two flags, still escaped (R177). -/
  | badFrame (n : Port) (bytes : List Byte)
  | openSent (n : Port)
  | answerSent (n : Port)
  | frameSent (n : Port)
  | keepTimerExpiry (n : Port)
  | silenceTimerExpiry (n : Port)
  /-- `fault`: the memory reports a fault; `left`: then the bytes it is left holding where a write burst
  addressed it, from the first on (bytes beyond the list keep their value). -/
  | memoryBurstComplete (fault : Bool) (left : List Byte)
  | copyReadComplete (fault : Bool)
  | plainAccess (write : Bool) (address : Addr) (enables : BitVec 4) (value : Word)
  | cueWordWrite (address : Addr) (value : Word)
  /-- Accesses of the Control Area name the byte offset of their word from the area base. -/
  | hostOwnedWrite (offset : BitVec 12) (enables : BitVec 4) (value : Word)
  | partOwnedRead (offset : BitVec 12) (enables : BitVec 4)
  | partOwnedWrite (offset : BitVec 12) (enables : BitVec 4) (value : Word)
  | summaryWordWrite (enables : BitVec 4) (value : Word)
  | errorWordWrite (enables : BitVec 4) (value : Word)
  | partialRequestWrite (w : ReqWord) (enables : BitVec 4) (value : Word)
  | busyRequestWrite (w : ReqWord) (value : Word)
  | holdTimerExpiry
  | standbyEntry
  | standbyExit
  | adoptionTimerExpiry
  | onTimeReport (n : Port)
  deriving DecidableEq, Repr

end Sys2Proof
end

