-- ==== Sys2Proof/Decode.lean ====
section
/-! DEFINITION. decodeTableWord: no row of the opcode table gives bits, so no word spells a command. -/

namespace Sys2Proof

/-- The rows of spec/opcode_table.json carry neither fixed bits nor fields: no word is a command. -/
def decodeTableWord (_nbits _w : Nat) : Option Instr := none

end Sys2Proof
end

