-- ==== Sys2Proof/Config.lean ====
section
/-! DEFINITION. The fixed numbers of the part: times, currents and sizes that the rules state. -/

namespace Sys2Proof.Config

/-- Presence debounce, ms (R7, R8). -/
def debounceMs : Nat := 10
/-- HELLO timer, ms (R7). -/
def helloMs : Nat := 250
/-- Ramp timer, ms (R7). -/
def rampMs : Nat := 50
/-- Restart timer, ms (R7). -/
def restartMs : Nat := 500
/-- The cap of the grace time of a drain with reason SHED, ms (R22, R26). -/
def shedGraceCapMs : Nat := 20
/-- The on-time at which a port has run long enough, ms (R20). -/
def onTimeLimitMs : Nat := 60000
/-- Keep timer, ms (R94, R107). -/
def keepMs : Nat := 20
/-- Silence timer, ms (R94, R108). -/
def silenceMs : Nat := 100
/-- Hold timer, µs (R142, R145). -/
def holdUs : Nat := 32
/-- Adoption timer, ms (R190). -/
def adoptionMs : Nat := 5000
/-- Current of a PROBE grant, cu (R10). -/
def probeCu : Nat := 20
/-- Hard limit of the switch comparators, cu (R28). -/
def hardLimitCu : Nat := 1200
/-- Bytes of the accessory memory (00_scope.md section 5.2). -/
def memoryBytes : Nat := 16777216
/-- Bytes of the Control Area (R160). -/
def areaBytes : Nat := 4096
/-- The step between Control Area bases, 2 MiB (R160). -/
def areaStep : Nat := 2097152
/-- The longest burst and the block it lies in, bytes (R120). -/
def blockBytes : Nat := 64
/-- The last value of the grant stamp counter (R54). -/
def lastStamp : Nat := 65535
/-- The most a counter of a status record holds (00_scope.md section 5.2). -/
def counterMax : Nat := 255
/-- The conversions of one calibration (R81). -/
def calibrationCount : Nat := 16
/-- The greatest offset correction, cu (R82). -/
def offsetMax : Nat := 255
/-- The greatest current result, cu (R70). -/
def currentMax : Nat := 2047
/-- The greatest source voltage result, mV (R70). -/
def voltageMax : Nat := 20000
/-- The greatest ceiling value, cu (R42, R44). -/
def ceilingMax : Nat := 4095
/-- The greatest units of a plan, cu (R2, R34). -/
def unitsMax : Nat := 1000
/-- The largest window, bytes (R34). -/
def windowMax : Nat := 1048576

end Sys2Proof.Config
end

