-- ==== Sys2Proof/Machine/Blocks.lean ====
section
/-! DEFINITION. The state of the eight blocks as plain data (00_scope.md section 2): port records, budget unit, monitor
sequencer, lanes, memory orderer, pass-through port, area engine, mode and reset control. -/

namespace Sys2Proof.Machine

/-- One value for each of the twelve ports. -/
abbrev PerPort (α : Type) := Vector α 12

/-- A timer: stopped, or running from this length (ms, the hold timer µs). -/
abbrev Timer := Option Nat

/-! ### The port table (01) -/

/-- R5. -/
inductive PortState where
  | empty | off | queued | probe | ramp | settle | on | drain | restartWait | fault | orphan | parked
  deriving DecidableEq, Repr

/-- R2. -/
inductive PlanMode where
  | off | auto | fixed
  deriving DecidableEq, Repr

/-- R2; `unused` is the manual's NONE. -/
inductive LaneUse where
  | expected | unused
  deriving DecidableEq, Repr

/-- The plan copy (R2). -/
structure Plan where
  mode : PlanMode
  laneUse : LaneUse
  units : Nat
  priority : Fin 8
  essential : Bool
  keep : Bool
  settle : Fin 8
  grace : Fin 4
  restartLimit : Fin 8
  margin : Fin 4
  tripField : Fin 8
  urgent : BitVec 4
  base : Nat
  size : Nat
  deriving DecidableEq, Repr

/-- R21. -/
inductive DrainReason where
  | withdrawn | shed | asked | standby | unadopted | restartCmd
  deriving DecidableEq, Repr

/-- R21, R22. -/
inductive DrainPhase where
  | flush | grace
  deriving DecidableEq, Repr

/-- The states a drain can end in (R1, R23). -/
inductive DrainDest where
  | off | queued | parked | restartWait
  deriving DecidableEq, Repr

/-- A drain in progress (R1), with the lane use and the grace time in ms it holds from its start (R21). -/
structure Drain where
  reason : DrainReason
  phase : DrainPhase
  dest : DrainDest
  laneUse : LaneUse
  graceMs : Nat
  deriving DecidableEq, Repr

/-- R1, R27, R12. -/
inductive FaultCause where
  | hard | overCurrent | rampTimeout | noHello | laneLost
  deriving DecidableEq, Repr

/-- The seven flags (R3). -/
structure Flags where
  ask : Bool
  short : Bool
  unwatched : Bool
  noPhase : Bool
  left : Bool
  kept : Bool
  rehello : Bool
  deriving DecidableEq, Repr

/-- The port timers (R7). `onTime` is whether the on-time counts. -/
structure PortTimers where
  debouncer : Timer
  hello : Timer
  ramp : Timer
  settle : Timer
  grace : Timer
  restart : Timer
  onTime : Bool
  deriving DecidableEq, Repr

/-- The port record (R1), with the adopted mark (R187). -/
structure PortRecord where
  state : PortState
  plan : Plan
  grant : Nat
  stamp : Nat
  restartCount : Nat
  onTime : Nat
  drain : Option Drain
  identity : Option Identity
  pendingCue : Option Word
  cause : Option FaultCause
  flags : Flags
  trips : Nat
  checkErrors : Nat
  overruns : Nat
  deferred : Option Plan
  adopted : Bool
  timers : PortTimers
  deriving DecidableEq, Repr

/-! ### The budget unit (02) -/

/-- R43. -/
structure DevicePlan where
  sourceLimit : Nat
  reducedCeiling : Nat
  standbyCeiling : Nat
  sag : Nat
  critical : Nat
  recover : Nat
  hot : Int
  deriving DecidableEq, Repr

/-- R50. -/
inductive EntryKind where
  | probe | full
  deriving DecidableEq, Repr

/-- An entry of the grant queue (R50). Its age is its place in the list: the oldest stands first. -/
structure Entry where
  port : Port
  kind : EntryKind
  asked : Nat
  priority : Fin 8
  essential : Bool
  deriving DecidableEq, Repr

/-- The state the BU holds (R43, R46, R47, R48, R50, R54, R60). `orders` are the shed orders sent and not yet taken. -/
structure Budget where
  plan : DevicePlan
  queue : List Entry
  shedList : List Port
  orders : List Port
  isOver : Bool
  shortfall : Bool
  stampCounter : Nat
  deriving DecidableEq, Repr

/-! ### The monitor sequencer (03) -/

/-- R73. -/
inductive SeqMode where
  | warming | running | once | stopped | calibrating
  deriving DecidableEq, Repr

/-- R70. -/
inductive SlotKind where
  | portI (n : Port) | sourceV | temp | offset | none
  deriving DecidableEq, Repr

/-- R70. -/
inductive Pace where
  | fast | filtered
  deriving DecidableEq, Repr

/-- R70. -/
structure Slot where
  kind : SlotKind
  pace : Pace
  deriving DecidableEq, Repr

/-- A sequence: slots 0 to 15 and the range (R70, R71). -/
structure Sequence where
  slots : List Slot
  start : Nat
  stop : Nat
  deriving DecidableEq, Repr

/-- The sequencer commands that can be held or in progress (R74). -/
inductive SeqCommand where
  | run | once | stop | calibrate
  deriving DecidableEq, Repr

/-- R41; worse is later. -/
inductive Step where
  | full | reduced | critical
  deriving DecidableEq, Repr

/-- The calibration conversions made and their sum (R81); `abandoned` by a reset (R91). -/
structure Calibration where
  count : Nat
  sum : Nat
  abandoned : Bool
  deriving DecidableEq, Repr

/-- The margin and trip count of a port view (R84). -/
structure PortView where
  margin : Fin 4
  tripField : Fin 8
  deriving DecidableEq, Repr

/-- The state the MS holds (R73, R74, R76, R79, R81 to R84, R88, R89). `current` is the slot being converted. -/
structure Sequencer where
  mode : SeqMode
  active : Sequence
  pending : Option Sequence
  held : Option SeqCommand
  command : Option SeqCommand
  current : Option Nat
  onceRounds : Nat
  calibration : Option Calibration
  results : List Int
  offset : Nat
  views : PerPort PortView
  overCount : PerPort Nat
  rampCount : PerPort Nat
  voltageStep : Step
  temperatureStep : Step
  belowSag : Nat
  belowCritical : Nat
  recovery : Nat
  deriving DecidableEq, Repr

/-! ### The lane controllers (04) -/

/-- R94. -/
inductive LaneMode where
  | idle | listen | paused | opened
  deriving DecidableEq, Repr

/-- PUT or GET (R92). -/
inductive ReqKind where
  | put | get
  deriving DecidableEq, Repr

/-- R92. -/
inductive Status where
  | ok | outside | closed | memFault
  deriving DecidableEq, Repr

/-- A tag table entry (R94). -/
inductive Tag where
  | free
  | outstanding (kind : ReqKind) (discardReply : Bool)
  | answered (kind : ReqKind)
  deriving DecidableEq, Repr

/-- A DONE or REPLY waiting to be sent (R94, R100); `data` is the payload of a REPLY with status OK. -/
structure Answer where
  kind : ReqKind
  tag : Fin 4
  status : Status
  data : List Byte
  deriving DecidableEq, Repr

/-- A frame the part sends (R92). -/
inductive TxFrame where
  | openLane (units : Nat)
  | answer (a : Answer)
  | cue (value : Word)
  | keep
  | leave
  deriving DecidableEq, Repr

/-- The state of one lane (R94). The transmit list is `answers`, `cue`, `leave` and `keep`; `openDue` holds the
window units read when OPEN due was set (R106); `sendingHolds` is whether the answer being sent still holds its
tag, which the lane's entry to IDLE ends (R97, R101), and whether the OPEN being sent still opens the lane at its end, which
its port's leaving ON ends (R106). -/
structure Lane where
  mode : LaneMode
  receive : Option (List Byte)
  tags : Vector Tag 4
  answers : List Answer
  cue : Option Word
  leave : Bool
  keep : Bool
  openDue : Option Nat
  sending : Option TxFrame
  sendingHolds : Bool
  reopen : Bool
  keepTimer : Timer
  silenceTimer : Timer
  deriving DecidableEq, Repr

/-! ### The memory orderer (05) -/

/-- The fourteen participants (R121). -/
inductive Participant where
  | port (n : Port) | cp | ae
  deriving DecidableEq, Repr

/-- A phase of the wheel; `none` is IDLE (R124). -/
abbrev Phase := Option Participant

/-- R123. -/
inductive HeadClass where
  | urgent | bulk
  deriving DecidableEq, Repr

/-- An accepted access of a port (R98, R121): `windowSize` is the size of the captured window, `bursts` are
the window offset and length of each burst not yet granted, `gathered` the bytes a GET has read, `faulted`
whether a burst faulted (R134) and `markFault` whether one that carried a byte of offsets 4 to 7 did (R139). -/
structure LaneAccess where
  kind : ReqKind
  cls : Fin 4
  base : Nat
  windowSize : Nat
  offset : Nat
  length : Nat
  tag : Fin 4
  data : List Byte
  bursts : List (Nat × Nat)
  gathered : List Byte
  faulted : Bool
  markFault : Bool
  deriving DecidableEq, Repr

/-- What a CP burst is for (R144, R151, R153, R156). -/
inductive CpPurpose where
  | plain
  | cue (n : Port)
  | mergeSummary
  | mergeError
  | taken (w : ReqWord)
  deriving DecidableEq, Repr

/-- A CP access (R121): the word's address, and for a write the bytes enabled and the value. -/
structure CpBurst where
  write : Bool
  address : Nat
  enables : BitVec 4
  value : Word
  purpose : CpPurpose
  deriving DecidableEq, Repr

/-- The 31 targets of the write-back list (R166). -/
inductive Target where
  | header | device | summary | error
  | status (n : Port)
  | wheelCopy | results
  | request (w : ReqWord)
  deriving DecidableEq, Repr

/-- The source records of copy reads (R167). -/
inductive Source where
  | devicePlan | wheelImage | sequencePlan
  | plan (n : Port)
  deriving DecidableEq, Repr

/-- The burst in flight with its participant (R124): `discard` when its completion is to be discarded (R136,
R137, R141), `mark` the change mark a write-back captured (R166), `last` whether a port's burst is its access's last. -/
inductive InFlight where
  | cp (burst : CpBurst) (discard : Bool)
  | writeBack (target : Target) (address : Nat) (bytes : List Byte) (mark : Bool) (discard : Bool)
  | copyRead (source : Source) (address : Nat) (length : Nat) (discard : Bool)
  | port (n : Port) (access : LaneAccess) (offset : Nat) (length : Nat) (last : Bool) (discard : Bool)
  deriving DecidableEq, Repr

/-- The state the MO holds (R121, R123, R124). -/
structure Orderer where
  wheel : List Phase
  pendingWheel : Option (List Phase)
  pointer : Nat
  bulkTurn : Nat
  lists : PerPort (List LaneAccess)
  cp : Option CpBurst
  classMap : PerPort (BitVec 4)
  inFlight : Option InFlight
  deriving DecidableEq, Repr

/-! ### The pass-through port (06) -/

/-- An access on the controller bus (R143): `address` is a byte address of its word. -/
structure BusAccess where
  write : Bool
  address : Addr
  enables : BitVec 4
  value : Word
  deriving DecidableEq, Repr

/-- The stages of the access in progress (R142): waiting for a copy read (R148), waiting for a write-back,
granted or not (R149), or carried. -/
inductive Stage where
  | waitingCopy (source : Source)
  | waitingWriteBack (target : Target) (granted : Bool)
  | carried
  deriving DecidableEq, Repr

/-- The access in progress (R142). -/
structure Access where
  bus : BusAccess
  stage : Stage
  purpose : CpPurpose
  deriving DecidableEq, Repr

/-- The answer on the controller bus: completion or bus error, and the bytes a read returns, one per byte enabled. -/
structure BusAnswer where
  error : Bool
  data : List Byte
  deriving DecidableEq, Repr

/-- A window: base and size (R142). -/
structure Window where
  base : Nat
  size : Nat
  deriving DecidableEq, Repr

/-- The state the PTP holds (R142). -/
structure PassThrough where
  access : Option Access
  holdTimer : Timer
  windows : PerPort Window
  shadows : PerPort (Option Word)
  answer : Option BusAnswer
  presented : Option BusAccess
  deriving DecidableEq, Repr

/-! ### The area engine (07) -/

/-- Result codes (R163). -/
inductive Result where
  | ok | invalid | overlap | windowLocked | shortfall | uncovered | unnamed | powered | state | memFault
  deriving DecidableEq, Repr

/-- The error bits (R165). -/
inductive ErrorBit where
  | cmdBusy | partialWrite | stray | holdExpired | memFaultCp | memFaultAe | laneOverrun
  deriving DecidableEq, Repr

/-- The request state of a request word (R154), the code and argument it was taken with, and the completion
not yet landed. -/
structure Request where
  taken : Bool
  code : Byte
  argument : Byte
  completion : Option Result
  deriving DecidableEq, Repr

/-- The state the AE holds (R164 to R168). `quiet`: it queues and offers nothing (R183). -/
structure AreaEngine where
  summary : Word
  error : Word
  readList : List Source
  writeBacks : List Target
  quiet : Bool
  device : Request
  requests : PerPort Request
  portMarks : PerPort Bool
  deviceMark : Bool
  portCounts : PerPort (BitVec 8)
  deviceCount : BitVec 8
  lastCurrent : PerPort Nat
  deriving DecidableEq, Repr

/-- The burst the AE offers (R122, R167). -/
inductive Offer where
  | writeBack (target : Target)
  | copyRead (source : Source)
  deriving DecidableEq, Repr

/-! ### The mode and reset control (08) -/

/-- Where the part stands in its resets (R179). -/
inductive ResetPhase where
  | powerOn | running | holdRteLow | holdRideThrough
  deriving DecidableEq, Repr

/-- R179. -/
inductive ResetCause where
  | powerOn | external | soft
  deriving DecidableEq, Repr

/-- The state the MRC holds (R178, R179, R185, R190, R191) and the levels of the input pins. -/
structure ModeReset where
  phase : ResetPhase
  powerOnOver : Bool
  straps : Straps
  cause : ResetCause
  resetCount : BitVec 8
  rideThrough : Bool
  standby : Bool
  adoptionTimer : Timer
  softReset : Bool
  resetnLow : Bool
  stby : Bool
  present : PerPort Bool
  deriving DecidableEq, Repr

/-- The part: everything but the memory and the queue of commands. -/
structure Part where
  ports : PerPort PortRecord
  bu : Budget
  ms : Sequencer
  lanes : PerPort Lane
  mo : Orderer
  ptp : PassThrough
  ae : AreaEngine
  mrc : ModeReset
  deriving DecidableEq, Repr

end Sys2Proof.Machine
end

