-- ==== Sys2Proof/Machine/Tables.lean ====
section
/-! DEFINITION. Reading and writing tables with one value per port, and the numbers of the ports. -/

namespace Sys2Proof.Machine

/-- The value of port `n`. -/
def PerPort.at {α : Type} (v : PerPort α) (n : Port) : α := v.get n

/-- The table with the value of port `n` replaced. -/
def PerPort.put {α : Type} (v : PerPort α) (n : Port) (x : α) : PerPort α := v.set n.1 x n.2

/-- The same value for every port. -/
def PerPort.all {α : Type} (x : α) : PerPort α := Vector.replicate 12 x

/-- A0 to A11, in port number order. -/
def allPorts : List Port := [0, 1, 2, 3, 4, 5, 6, 7, 8, 9, 10, 11]

end Sys2Proof.Machine
end

