-- ==== Sys2Proof/Machine/Operands.lean ====
section
/-! DEFINITION. The operands of controller accesses: words of the Control Area and their classes (R146), byte enables
(R143), the records behind the words (R148, R149, R160), and the request codes (R161). -/

namespace Sys2Proof.Machine

/-- The port whose number is `k` (below 12). -/
def portOf (k : Nat) : Port := Fin.ofNat 12 k

/-- The classes of R146, with the record or the request word a word belongs to. -/
inductive WordClass where
  | hostOwned
  | partOwned (record : Target)
  | merge (record : Target)
  | request (w : ReqWord)
  deriving DecidableEq, Repr

/-- The class of the word at a byte offset from the area base (R146). -/
def wordClass (offset : Nat) : WordClass :=
  if offset < 0x040 then .partOwned .header
  else if offset < 0x060 then .hostOwned
  else if offset < 0x064 then .request .device
  else if offset < 0x06C then .partOwned .device
  else if offset < 0x070 then .hostOwned
  else if offset < 0x074 then .merge .summary
  else if offset < 0x078 then .merge .error
  else if offset < 0x080 then .hostOwned
  else if offset < 0x200 then
    if (offset - 0x080) % 32 < 0x1C then .hostOwned
    else .request (.port (portOf ((offset - 0x080) / 32)))
  else if offset < 0x380 then .partOwned (.status (portOf ((offset - 0x200) / 32)))
  else if offset < 0x3C0 then .hostOwned
  else if offset < 0x400 then .partOwned .wheelCopy
  else if offset < 0x440 then .hostOwned
  else if offset < 0x480 then .partOwned .results
  else .hostOwned

/-- The source record a host-owned word belongs to, whose copy read protects it (R148). -/
def sourceOf (offset : Nat) : Option Source :=
  if offset < 0x040 then none
  else if offset < 0x060 then some .devicePlan
  else if offset < 0x080 then none
  else if offset < 0x200 then
    if (offset - 0x080) % 32 < 0x1C then some (.plan (portOf ((offset - 0x080) / 32))) else none
  else if offset < 0x380 then none
  else if offset < 0x3C0 then some .wheelImage
  else if offset < 0x400 then none
  else if offset < 0x424 then some .sequencePlan
  else none

/-- The offset of a request word (R146). -/
def requestOffset : ReqWord → Nat
  | .device => 0x060
  | .port n => 0x09C + 32 * n.1

/-- Where a write-back's target lies in the Control Area (R160). -/
def Target.offset : Target → Nat
  | .header => 0x000
  | .device => 0x064
  | .summary => 0x070
  | .error => 0x074
  | .status n => 0x200 + 32 * n.1
  | .wheelCopy => 0x3C0
  | .results => 0x440
  | .request w => requestOffset w

/-- Where a copy read's source lies in the Control Area, and its bytes (R160). -/
def Source.offset : Source → Nat
  | .devicePlan => 0x040
  | .wheelImage => 0x380
  | .sequencePlan => 0x400
  | .plan n => 0x080 + 32 * n.1

def Source.length : Source → Nat
  | .devicePlan => 32
  | .wheelImage => 64
  | .sequencePlan => 36
  | .plan _ => 28

/-- The request word whose command copies a source record (R167). -/
def Source.word : Source → ReqWord
  | .devicePlan => .device
  | .wheelImage => .device
  | .sequencePlan => .device
  | .plan n => .port n

/-- R143: all four bytes enabled. -/
def fullWord (enables : BitVec 4) : Bool := enables == 15#4

/-- The bytes of a word that are enabled, lowest first. -/
def enabledBytes (enables : BitVec 4) : List Nat := [0, 1, 2, 3].filter (fun i => enables.getLsbD i)

/-- R143: an access of 1, 2 or 4 bytes. -/
def legalEnables (enables : BitVec 4) : Bool := [1, 2, 4].contains (enabledBytes enables).length

/-- Byte `i` of a word (R170). -/
def wordByte (value : Word) (i : Nat) : Byte := (value >>> (8 * i)).setWidth 8

/-- The bits of a word in the bytes enabled. -/
def enabledMask (enables : BitVec 4) : Word :=
  (enabledBytes enables).foldl (fun m i => m ||| (0xFF#32 <<< (8 * i))) 0

/-- The first byte of the word that holds an address. -/
def wordAddress (address : Addr) : Nat := address.toNat / 4 * 4

/-- What a code asks for in a request word (R161); `none` is a code not defined for the word. -/
inductive RequestCode where
  | applyDevice | loadWheel | loadSequence | sequencer (c : SeqCommand) | softReset
  | apply | clear | restart
  deriving DecidableEq, Repr

/-- R161. -/
def requestCode (w : ReqWord) (code : Nat) : Option RequestCode :=
  match w, code with
  | .device, 0x01 => some .applyDevice
  | .device, 0x02 => some .loadWheel
  | .device, 0x03 => some .loadSequence
  | .device, 0x04 => some (.sequencer .run)
  | .device, 0x05 => some (.sequencer .once)
  | .device, 0x06 => some (.sequencer .stop)
  | .device, 0x07 => some (.sequencer .calibrate)
  | .device, 0x0F => some .softReset
  | .port _, 0x11 => some .apply
  | .port _, 0x12 => some .clear
  | .port _, 0x13 => some .restart
  | _, _ => none

/-- The word whose byte 0 is a code and whose bytes 1 to 3 are `high`. -/
def requestValue (code : Byte) (high : BitVec 24) : Word := high ++ code

end Sys2Proof.Machine
end

