-- ==== Sys2Proof/Machine/Defaults.lean ====
section
/-! DEFINITION. The values the blocks take at power-on reset and the default plan, device plan, sequence and wheel. -/

namespace Sys2Proof.Machine

/-- The default plan (R4); its mode is AUTO when the latched AUTO strap is high, OFF otherwise. R4 gives it a window of size 0 and
no base: the base 0 is the model's choice (log entry 50). -/
def defaultPlan (auto : Bool) : Plan where
  mode := if auto then .auto else .off
  laneUse := .expected
  units := 120
  priority := 3
  essential := false
  keep := false
  settle := 3
  grace := 1
  restartLimit := 2
  margin := 1
  tripField := 2
  urgent := 1#4
  base := 0
  size := 0

def clearFlags : Flags where
  ask := false
  short := false
  unwatched := false
  noPhase := false
  left := false
  kept := false
  rehello := false

def stoppedTimers : PortTimers where
  debouncer := none
  hello := none
  ramp := none
  settle := none
  grace := none
  restart := none
  onTime := false

/-- A port record after power-on reset (R4), and after a reset with RTE low (R181), with this plan copy. -/
def resetRecord (plan : Plan) : PortRecord where
  state := .empty
  plan := plan
  grant := 0
  stamp := 0
  restartCount := 0
  onTime := 0
  drain := none
  identity := none
  pendingCue := none
  cause := none
  flags := clearFlags
  trips := 0
  checkErrors := 0
  overruns := 0
  deferred := none
  adopted := false
  timers := stoppedTimers

/-- R43. -/
def defaultDevicePlan : DevicePlan where
  sourceLimit := 800
  reducedCeiling := 600
  standbyCeiling := 300
  sag := 12000
  critical := 11000
  recover := 12600
  hot := 95

/-- R68. -/
def resetBudget : Budget where
  plan := defaultDevicePlan
  queue := []
  shedList := []
  orders := []
  isOver := false
  shortfall := false
  stampCounter := 0

/-- R72. -/
def defaultSequence : Sequence where
  slots := allPorts.map (fun n => ⟨.portI n, .fast⟩) ++
    [⟨.sourceV, .filtered⟩, ⟨.temp, .filtered⟩, ⟨.offset, .filtered⟩, ⟨.none, .fast⟩]
  start := 0
  stop := 13

def noResults : List Int := List.replicate 16 0

/-- The port view of the default plan (R84). -/
def defaultView : PortView := ⟨(defaultPlan false).margin, (defaultPlan false).tripField⟩

/-- The MS after power-on reset (R91). -/
def resetSequencer : Sequencer where
  mode := .warming
  active := defaultSequence
  pending := none
  held := none
  command := none
  current := none
  onceRounds := 0
  calibration := none
  results := noResults
  offset := 0
  views := PerPort.all defaultView
  overCount := PerPort.all 0
  rampCount := PerPort.all 0
  voltageStep := .full
  temperatureStep := .full
  belowSag := 0
  belowCritical := 0
  recovery := 0

def freeTags : Vector Tag 4 := Vector.replicate 4 .free

/-- A lane after power-on reset (R94, R117). -/
def resetLane : Lane where
  mode := .idle
  receive := none
  tags := freeTags
  answers := []
  cue := none
  leave := false
  keep := false
  openDue := none
  sending := none
  sendingHolds := false
  reopen := false
  keepTimer := none
  silenceTimer := none

/-- Eight phases of the default wheel (R125): CP on the even phases, `a`, `b`, `c` and `d` on the odd ones. -/
def wheelGroup (a b c d : Participant) : List Phase :=
  [some .cp, some a, some .cp, some b, some .cp, some c, some .cp, some d]

/-- One half of the default wheel (R125). -/
def wheelHalf : List Phase :=
  wheelGroup .ae (.port 0) (.port 1) (.port 2) ++ wheelGroup .ae (.port 3) (.port 4) (.port 5) ++
  wheelGroup .ae (.port 6) (.port 7) (.port 8) ++ wheelGroup .ae (.port 9) (.port 10) (.port 11)

/-- R125. -/
def defaultWheel : List Phase := wheelHalf ++ wheelHalf

/-- The MO after power-on reset (R140). -/
def resetOrderer : Orderer where
  wheel := defaultWheel
  pendingWheel := none
  pointer := 0
  bulkTurn := 0
  lists := PerPort.all []
  cp := none
  classMap := PerPort.all (defaultPlan false).urgent
  inFlight := none

/-- The PTP after power-on reset (R142, R159). -/
def resetPassThrough : PassThrough where
  access := none
  holdTimer := none
  windows := PerPort.all ⟨0, 0⟩
  shadows := PerPort.all none
  answer := none
  presented := none

/-- An IDLE request word (R154). -/
def idleRequest : Request := ⟨false, 0, 0, none⟩

/-- The AE after power-on reset (R169). -/
def resetAreaEngine : AreaEngine where
  summary := 0
  error := 0
  readList := []
  writeBacks := []
  quiet := true
  device := idleRequest
  requests := PerPort.all idleRequest
  portMarks := PerPort.all false
  deviceMark := false
  portCounts := PerPort.all 0
  deviceCount := 0
  lastCurrent := PerPort.all 0

/-- The MRC at power-on reset (R180), before the straps are latched, with every input pin at rest. -/
def resetModeReset : ModeReset where
  phase := .powerOn
  powerOnOver := false
  straps := ⟨0, false, false⟩
  cause := .powerOn
  resetCount := 0
  rideThrough := false
  standby := false
  adoptionTimer := none
  softReset := false
  resetnLow := false
  stby := false
  present := PerPort.all false

/-- The part as power-on reset leaves it (R180). -/
def powerOnPart : Part where
  ports := PerPort.all (resetRecord (defaultPlan false))
  bu := resetBudget
  ms := resetSequencer
  lanes := PerPort.all resetLane
  mo := resetOrderer
  ptp := resetPassThrough
  ae := resetAreaEngine
  mrc := resetModeReset

end Sys2Proof.Machine
end

