-- ==== Sys2Proof/Machine/Memory.lean ====
section
/-! DEFINITION. The accessory memory: a list of (address, byte) pairs in one canonical form, and reading and writing it. -/

namespace Sys2Proof.Machine

/-- The accessory memory: addresses strictly rising, no entry equal to `Memory.unlisted`. -/
abbrev Memory := List Host.Cell

/-- What a byte that nothing has written reads as (log entry 1, DESIGN CHOICE). -/
def Memory.unlisted : Byte := 0

/-- The canonical form. -/
def Memory.wf : Memory → Bool
  | [] => true
  | [(_, b)] => b != Memory.unlisted
  | (a, b) :: (a', b') :: rest => b != Memory.unlisted && decide (a < a') && Memory.wf ((a', b') :: rest)

/-- The byte at an address. -/
def Memory.read (m : Memory) (address : Nat) : Byte :=
  match m with
  | [] => Memory.unlisted
  | (a, b) :: rest => if a = address then b else Memory.read rest address

/-- The memory with one byte written. -/
def Memory.write (m : Memory) (address : Nat) (byte : Byte) : Memory :=
  match m with
  | [] => if byte = Memory.unlisted then [] else [(address, byte)]
  | (a, b) :: rest =>
    if address < a then
      if byte = Memory.unlisted then (a, b) :: rest else (address, byte) :: (a, b) :: rest
    else if address = a then
      if byte = Memory.unlisted then rest else (address, byte) :: rest
    else (a, b) :: Memory.write rest address byte

/-- The memory with every listed byte written, first to last. -/
def Memory.writeAll (m : Memory) (cells : List Host.Cell) : Memory :=
  cells.foldl (fun m c => m.write c.1 c.2) m

/-- `length` bytes from an address on. -/
def Memory.readBytes (m : Memory) (address length : Nat) : List Byte :=
  (List.range length).map (fun i => m.read (address + i))

/-- Bytes laid from an address on. -/
def layBytes (address : Nat) (bytes : List Byte) : List Host.Cell :=
  bytes.zipIdx.map (fun x => (address + x.2, x.1))

end Sys2Proof.Machine
end

