-- ==== Sys2Proof/Machine/State.lean ====
section
/-! DEFINITION. The state of the machine: the commands waiting, the accessory memory and the part; and its value after reset. -/

namespace Sys2Proof.Machine

/-- Why a step stops with a fault. -/
inductive Fault where
  /-- Raised by MEMORY_BURST_COMPLETE and COPY_READ_COMPLETE when the burst in flight has a byte outside the
  16 MiB memory, which no validated window allows (R34, R118). Safe: the spec gives such a burst no effect. -/
  | outsideMemory
  deriving DecidableEq, Repr

/-- Why a step is refused. -/
inductive Refusal where
  /-- The command has no meaning yet; raised by exec alone. Safe. -/
  | notModelled (mnemonic : String)
  deriving DecidableEq, Repr

/-- The machine. -/
structure State where
  pending : List Instr
  mem : Memory
  part : Part
  deriving DecidableEq, Repr

/-- The machine as power-on reset leaves it (R180), before POWER_ON_RESET_END; no command waits and the memory
lists nothing (log entries 1, 3, 4 and 5). -/
def State.reset : State where
  pending := []
  mem := []
  part := powerOnPart

end Sys2Proof.Machine
end

