-- ==== Sys2Proof/Machine/Formats.lean ====
section
/-! DEFINITION. The layouts of section 7.6: records read from the Control Area (R172, R173, R175, R176) and written to
it (R161, R171, R172, R174 to R176). -/

namespace Sys2Proof.Machine

/-! ### Reading bytes -/

/-- Byte `i` of a record, as a number. -/
def byteAt (bytes : List Byte) (i : Nat) : Nat := (bytes.getD i 0).toNat

/-- The 16 bits at byte `i`, little-endian (R170). -/
def halfAt (bytes : List Byte) (i : Nat) : Nat := byteAt bytes i + 256 * byteAt bytes (i + 1)

/-- The 32 bits at byte `i`, little-endian (R170). -/
def wordAt (bytes : List Byte) (i : Nat) : Nat := halfAt bytes i + 65536 * halfAt bytes (i + 2)

/-- `width` bits of a number from bit `low` on. -/
def bits (value low width : Nat) : Nat := value / 2 ^ low % 2 ^ width

/-- A 16-bit field read in two's complement (R170). -/
def signed16 (value : Nat) : Int := (BitVec.ofNat 16 value).toInt

/-- The list of the values, when every one is present. -/
def allSome {α : Type} : List (Option α) → Option (List α)
  | [] => some []
  | none :: _ => none
  | some x :: rest => (allSome rest).map (x :: ·)

/-! ### Records the controller writes -/

/-- R172. -/
def readDevicePlan (bytes : List Byte) : DevicePlan where
  sourceLimit := halfAt bytes 0
  reducedCeiling := halfAt bytes 2
  standbyCeiling := halfAt bytes 4
  sag := halfAt bytes 8
  critical := halfAt bytes 10
  recover := halfAt bytes 12
  hot := signed16 (halfAt bytes 6)

/-- R173. -/
def planMode : Nat → Option PlanMode
  | 0 => some .off
  | 1 => some .auto
  | 2 => some .fixed
  | _ => none

/-- R173. -/
def planLaneUse : Nat → Option LaneUse
  | 0 => some .expected
  | 1 => some .unused
  | _ => none

/-- R173; absent when the mode or the lane use is not a defined code. -/
def readPlan (bytes : List Byte) : Option Plan :=
  match planMode (byteAt bytes 0), planLaneUse (byteAt bytes 1) with
  | some mode, some laneUse => some
    { mode, laneUse
      units := halfAt bytes 2
      priority := Fin.ofNat 8 (bits (wordAt bytes 4) 0 3)
      essential := bits (wordAt bytes 4) 8 1 == 1
      keep := bits (wordAt bytes 4) 9 1 == 1
      settle := Fin.ofNat 8 (bits (wordAt bytes 4) 16 3)
      grace := Fin.ofNat 4 (bits (wordAt bytes 4) 20 2)
      restartLimit := Fin.ofNat 8 (bits (wordAt bytes 4) 24 3)
      margin := Fin.ofNat 4 (bits (wordAt bytes 4) 28 2)
      tripField := Fin.ofNat 8 (bits (wordAt bytes 8) 0 3)
      urgent := BitVec.ofNat 4 (bits (wordAt bytes 8) 8 4)
      base := wordAt bytes 12
      size := wordAt bytes 16 }
  | _, _ => none

/-- R175; 14 and values above 15 are no phase. -/
def readPhase (value : Nat) : Option Phase :=
  if value < 12 then some (some (.port (portOf value)))
  else if value = 12 then some (some .cp)
  else if value = 13 then some (some .ae)
  else if value = 15 then some none
  else none

/-- R175; absent when a phase holds 14 or a value above 15. -/
def readWheel (bytes : List Byte) : Option (List Phase) :=
  allSome ((List.range 64).map (fun p => readPhase (byteAt bytes p)))

/-- R176. -/
def readSlotKind (value : Nat) : Option SlotKind :=
  if value < 12 then some (.portI (portOf value))
  else if value = 12 then some .sourceV
  else if value = 13 then some .temp
  else if value = 14 then some .offset
  else if value = 15 then some .none
  else none

/-- R176. -/
def readPace : Nat → Option Pace
  | 0 => some .fast
  | 1 => some .filtered
  | _ => none

/-- R176. -/
def readSlot (bytes : List Byte) (s : Nat) : Option Slot :=
  match readSlotKind (byteAt bytes (2 * s)), readPace (byteAt bytes (2 * s + 1)) with
  | some kind, some pace => some ⟨kind, pace⟩
  | _, _ => none

/-- R176; absent when a slot's kind or pace is not a defined code. -/
def readSequence (bytes : List Byte) : Option Sequence :=
  (allSome ((List.range 16).map (readSlot bytes))).map
    (fun slots => ⟨slots, byteAt bytes 32, byteAt bytes 33⟩)

/-! ### Codes of the records the part writes -/

/-- R174. -/
def PortState.code : PortState → Nat
  | .empty => 0
  | .off => 1
  | .queued => 2
  | .probe => 3
  | .ramp => 4
  | .settle => 5
  | .on => 6
  | .drain => 7
  | .restartWait => 8
  | .fault => 9
  | .orphan => 10
  | .parked => 11

/-- R174. -/
def causeCode : Option FaultCause → Nat
  | none => 0
  | some .hard => 1
  | some .overCurrent => 2
  | some .rampTimeout => 3
  | some .noHello => 4
  | some .laneLost => 5

/-- R174. -/
def DrainReason.code : DrainReason → Nat
  | .withdrawn => 1
  | .shed => 2
  | .asked => 3
  | .standby => 4
  | .unadopted => 5
  | .restartCmd => 6

/-- R174: as a state code. -/
def DrainDest.code : DrainDest → Nat
  | .off => PortState.off.code
  | .queued => PortState.queued.code
  | .parked => PortState.parked.code
  | .restartWait => PortState.restartWait.code

/-- R177. -/
def accessoryCode : KindCode → Nat
  | .lens => 1
  | .viewfinder => 2
  | .monitor => 3
  | .transmitter => 4
  | .intercom => 5
  | .light => 6
  | .motor => 7
  | .recorder => 8
  | .other => 9

/-- R172. -/
def Step.code : Step → Nat
  | .full => 0
  | .reduced => 1
  | .critical => 2

/-- R172. -/
def SeqMode.code : SeqMode → Nat
  | .warming => 0
  | .running => 1
  | .once => 2
  | .stopped => 3
  | .calibrating => 4

/-- R163. -/
def Result.code : Result → Nat
  | .ok => 0
  | .invalid => 1
  | .overlap => 2
  | .windowLocked => 3
  | .shortfall => 4
  | .uncovered => 5
  | .unnamed => 6
  | .powered => 7
  | .state => 8
  | .memFault => 9

/-- R175. -/
def phaseCode : Phase → Nat
  | some (.port n) => n.1
  | some .cp => 12
  | some .ae => 13
  | none => 15

/-- R176. -/
def SlotKind.code : SlotKind → Nat
  | .portI n => n.1
  | .sourceV => 12
  | .temp => 13
  | .offset => 14
  | .none => 15

/-- R176. -/
def Pace.code : Pace → Nat
  | .fast => 0
  | .filtered => 1

/-- R171. -/
def ResetCause.code : ResetCause → Nat
  | .powerOn => 1
  | .external => 2
  | .soft => 3

/-! ### Writing words -/

/-- A field of a word: its lowest bit, its width and its value. -/
structure Field where
  low : Nat
  width : Nat
  value : Nat
  deriving DecidableEq, Repr

/-- A word made of fields; bits outside every field are 0 (R170). -/
def packWord (fields : List Field) : Word :=
  BitVec.ofNat 32 ((fields.map (fun f => f.value % 2 ^ f.width * 2 ^ f.low)).sum)

/-- The four bytes of a word, lowest first (R170). -/
def wordBytes (value : Word) : List Byte := [0, 1, 2, 3].map (wordByte value)

/-- R171. -/
def headerBytes (r : ModeReset) : List Byte :=
  wordBytes (packWord [⟨0, 16, 0x7A06⟩, ⟨16, 8, 1⟩]) ++
  wordBytes (packWord [⟨0, 8, 12⟩, ⟨8, 8, 64⟩, ⟨16, 8, 16⟩, ⟨24, 8, 4⟩]) ++
  wordBytes (packWord [⟨0, 3, r.straps.cab.1⟩, ⟨3, 1, r.straps.rte.toNat⟩, ⟨4, 1, r.straps.auto.toNat⟩,
    ⟨8, 8, r.cause.code⟩, ⟨16, 1, r.rideThrough.toNat⟩, ⟨24, 8, r.resetCount.toNat⟩]) ++
  List.replicate 52 0

/-- R161: the request image with this state byte and result. -/
def requestImage (code argument : Byte) (state result : Nat) : List Byte :=
  [code, argument, BitVec.ofNat 8 state, BitVec.ofNat 8 result]

/-- R161: the TAKEN image of a written value. -/
def takenImage (value : Word) : Word := value &&& 0xFFFF#32 ||| 0x10000#32

/-- R161: the completion image. -/
def completionImage (r : Request) : List Byte :=
  match r.completion with
  | some .ok => requestImage r.code r.argument 2 0
  | some result => requestImage r.code r.argument 3 result.code
  | none => requestImage r.code r.argument 1 0

/-- R174, word 3. -/
def flagFields (f : Flags) : List Field :=
  [⟨0, 1, f.ask.toNat⟩, ⟨1, 1, f.short.toNat⟩, ⟨2, 1, f.unwatched.toNat⟩, ⟨3, 1, f.noPhase.toNat⟩,
    ⟨4, 1, f.left.toNat⟩, ⟨5, 1, f.kept.toNat⟩, ⟨6, 1, f.rehello.toNat⟩]

/-- R174, word 0, for a drain. -/
def drainFields : Option Drain → List Field
  | none => []
  | some d => [⟨24, 3, d.reason.code⟩, ⟨27, 1, if d.phase = .grace then 1 else 0⟩]

/-- R174, words 4 to 6, for an identity. -/
def identityBytes (overruns : Nat) (identity : Option Identity) (dest : Nat) : List Byte :=
  match identity with
  | none =>
    wordBytes (packWord [⟨0, 8, overruns⟩]) ++ wordBytes 0 ++ wordBytes (packWord [⟨16, 8, dest⟩])
  | some i =>
    wordBytes (packWord [⟨0, 8, overruns⟩, ⟨8, 8, accessoryCode i.kind⟩, ⟨16, 16, i.maker.toNat⟩]) ++
    wordBytes i.serial ++
    wordBytes (packWord [⟨0, 12, i.requested.toNat⟩, ⟨12, 1, i.standbyCapable.toNat⟩, ⟨16, 8, dest⟩])

/-- R174: the status record of a port with this update count, last current and cue shadow. -/
def statusBytes (r : PortRecord) (count : BitVec 8) (lastCurrent : Nat) (shadow : Option Word) : List Byte :=
  wordBytes (packWord ([⟨0, 8, count.toNat⟩, ⟨8, 8, r.state.code⟩, ⟨16, 8, causeCode r.cause⟩] ++
    drainFields r.drain ++ [⟨30, 1, r.identity.isSome.toNat⟩, ⟨31, 1, shadow.isSome.toNat⟩])) ++
  wordBytes (packWord [⟨0, 16, r.grant⟩, ⟨16, 16, r.stamp⟩]) ++
  wordBytes (packWord [⟨0, 16, r.onTime⟩, ⟨16, 16, lastCurrent⟩]) ++
  wordBytes (packWord (flagFields r.flags ++
    [⟨8, 3, r.restartCount⟩, ⟨16, 8, r.trips⟩, ⟨24, 8, r.checkErrors⟩])) ++
  identityBytes r.overruns r.identity (match r.drain with | some d => d.dest.code | none => 0xFF) ++
  wordBytes (shadow.getD 0)

/-- R175. -/
def wheelBytes (wheel : List Phase) : List Byte := wheel.map (fun p => BitVec.ofNat 8 (phaseCode p))

/-- R176: one word of the sequence results record. -/
def resultBytes (result : Int) (slot : Slot) : List Byte :=
  wordBytes (packWord [⟨0, 16, (BitVec.ofInt 16 result).toNat⟩, ⟨16, 8, slot.kind.code⟩, ⟨24, 8, slot.pace.code⟩])

/-- R176. -/
def resultsBytes (results : List Int) (slots : List Slot) : List Byte :=
  (List.zipWith resultBytes results slots).flatten

end Sys2Proof.Machine
end

