-- ==== Sys2Proof/Machine/Frames.lean ====
section
/-! DEFINITION. Lane frames (R92, R93, R177): the check, the escaping, the layouts, and the tests a received frame passes. -/

namespace Sys2Proof.Machine

/-- One bit into the check register (R177). -/
def crcBit (register : BitVec 16) (bit : Bool) : BitVec 16 :=
  if register.getLsbD 0 != bit then (register >>> 1) ^^^ 0x8408#16 else register >>> 1

/-- One byte into the check register, bit 0 first (R177). -/
def crcByte (register : BitVec 16) (byte : Byte) : BitVec 16 :=
  [0, 1, 2, 3, 4, 5, 6, 7].foldl (fun r i => crcBit r (byte.getLsbD i)) register

/-- The check of header and payload (R177). -/
def crc (bytes : List Byte) : BitVec 16 := bytes.foldl crcByte 0xFFFF#16

/-- The check's two bytes, low byte first (R177). -/
def crcBytes (bytes : List Byte) : List Byte := [(crc bytes).setWidth 8, (crc bytes >>> 8).setWidth 8]

/-- Sending: a byte 0x7E or 0x7D becomes 0x7D and the byte with bit 5 inverted (R177). -/
def escape : List Byte → List Byte
  | [] => []
  | b :: rest =>
    if b = 0x7E#8 ∨ b = 0x7D#8 then 0x7D#8 :: (b ^^^ 0x20#8) :: escape rest else b :: escape rest

/-- Receiving: the escaping undone (R177). Bit 5 of whatever byte follows a 0x7D is inverted, and a flag inside, or a 0x7D with no
byte after it, makes no frame (the model's choice, log entry 25). -/
def unescape : List Byte → Option (List Byte)
  | [] => some []
  | b :: rest =>
    if b = 0x7E#8 then none
    else if b = 0x7D#8 then
      match rest with
      | [] => none
      | c :: rest' => (unescape rest').map ((c ^^^ 0x20#8) :: ·)
    else (unescape rest).map (b :: ·)

/-- The bytes on the lane of a frame's header and payload, with its check and its flags (R177). -/
def wireBytes (frame : List Byte) : List Byte := 0x7E#8 :: escape (frame ++ crcBytes frame) ++ [0x7E#8]

/-- A frame an accessory sends (R92). -/
inductive RxFrame where
  | hello (identity : Identity)
  | put (tag cls : Fin 4) (offset : BitVec 24) (data : List Byte)
  | get (tag cls : Fin 4) (offset : BitVec 24) (length : BitVec 16)
  | keep
  | leave
  deriving DecidableEq, Repr

/-- The length test of R93 for a PUT or GET. -/
def goodLength (length : Nat) : Bool := decide (1 ≤ length ∧ length ≤ 256)

/-- R93, for a frame whose kind and payload length are those it needs. -/
def RxFrame.good : RxFrame → Bool
  | .hello _ => true
  | .put _ _ _ data => goodLength data.length
  | .get _ _ _ length => goodLength length.toNat
  | .keep => true
  | .leave => true

/-- R177. -/
def kindOfCode : Nat → Option KindCode
  | 1 => some .lens
  | 2 => some .viewfinder
  | 3 => some .monitor
  | 4 => some .transmitter
  | 5 => some .intercom
  | 6 => some .light
  | 7 => some .motor
  | 8 => some .recorder
  | 9 => some .other
  | _ => none

/-- The tag in header byte 1 (R177). -/
def frameTag (frame : List Byte) : Fin 4 := Fin.ofNat 4 (bits (byteAt frame 1) 0 2)

/-- The class in header byte 1 (R177). -/
def frameClass (frame : List Byte) : Fin 4 := Fin.ofNat 4 (bits (byteAt frame 1) 4 2)

/-- The offset in header bytes 2 to 4 (R177). -/
def frameOffset (frame : List Byte) : BitVec 24 :=
  BitVec.ofNat 24 (halfAt frame 2 + 65536 * byteAt frame 4)

/-- The HELLO payload (R177); absent when it is not 12 bytes or its kind code is not one of the nine (R93). -/
def readHello (payload : List Byte) : Option RxFrame :=
  if payload.length = 12 then
    (kindOfCode (byteAt payload 2)).map (fun kind => .hello
      { maker := BitVec.ofNat 16 (halfAt payload 0)
        kind
        serial := BitVec.ofNat 32 (wordAt payload 4)
        requested := BitVec.ofNat 12 (halfAt payload 8)
        standbyCapable := bits (byteAt payload 3) 0 1 == 1 })
  else none

/-- The frame that header and payload spell, when it passes the tests of R93 on kind, payload length and length field. -/
def readFrame (frame : List Byte) : Option RxFrame :=
  let payload := frame.drop 8
  match byteAt frame 0 with
  | 1 => readHello payload
  | 3 =>
    if goodLength (halfAt frame 5) && payload.length == halfAt frame 5 then
      some (.put (frameTag frame) (frameClass frame) (frameOffset frame) payload)
    else none
  | 4 =>
    if goodLength (halfAt frame 5) && payload.isEmpty then
      some (.get (frameTag frame) (frameClass frame) (frameOffset frame) (BitVec.ofNat 16 (halfAt frame 5)))
    else none
  | 8 => if payload.isEmpty then some .keep else none
  | 9 => if payload.isEmpty then some .leave else none
  | _ => none

/-- What the bytes between two flags are (R93, R177). -/
inductive Reception where
  | nothing
  | bad
  | good (frame : RxFrame)
  deriving DecidableEq, Repr

/-- The unescaped bytes judged: at least 10 of them, the check right, and a frame (R93, R177). -/
def judge (bytes : List Byte) : Reception :=
  if bytes.length < 10 then .bad
  else
    let frame := bytes.take (bytes.length - 2)
    if bytes.drop (bytes.length - 2) = crcBytes frame then
      match readFrame frame with
      | some f => .good f
      | none => .bad
    else .bad

/-- The bytes received between two flags; two flags with no byte between them mark no frame (R177). -/
def receive (bytes : List Byte) : Reception :=
  if bytes.isEmpty then .nothing
  else
    match unescape bytes with
    | some plain => judge plain
    | none => .bad

/-- The bytes of a 24-bit offset, low byte first. -/
def offsetBytes (offset : BitVec 24) : List Byte :=
  [offset.setWidth 8, (offset >>> 8).setWidth 8, (offset >>> 16).setWidth 8]

/-- The bytes of a 16-bit field, low byte first. -/
def halfBytes (value : BitVec 16) : List Byte := [value.setWidth 8, (value >>> 8).setWidth 8]

/-- A header with this kind code and these bytes 1 to 7 (R177). -/
def header (kind : Byte) (rest : List Byte) : List Byte := kind :: rest ++ List.replicate (7 - rest.length) 0

/-- Header and payload of a frame an accessory sends (R177). -/
def RxFrame.bytes : RxFrame → List Byte
  | .hello i => header 1 [] ++ halfBytes i.maker ++ [BitVec.ofNat 8 (accessoryCode i.kind), if i.standbyCapable then 1 else 0] ++
      wordBytes i.serial ++ halfBytes (i.requested.setWidth 16) ++ [0, 0]
  | .put tag cls offset data =>
      header 3 (BitVec.ofNat 8 (tag.1 + 16 * cls.1) :: offsetBytes offset ++
        halfBytes (BitVec.ofNat 16 data.length)) ++ data
  | .get tag cls offset length =>
      header 4 (BitVec.ofNat 8 (tag.1 + 16 * cls.1) :: offsetBytes offset ++ halfBytes length)
  | .keep => header 8 []
  | .leave => header 9 []

/-- R177. -/
def Status.code : Status → Nat
  | .ok => 0
  | .outside => 1
  | .closed => 2
  | .memFault => 3

/-- Header and payload of a frame the part sends (R177, R92). -/
def TxFrame.bytes : TxFrame → List Byte
  | .openLane units => header 2 (4 :: halfBytes (BitVec.ofNat 16 units))
  | .answer a =>
      header (match a.kind with | .put => 5 | .get => 6) [BitVec.ofNat 8 a.tag.1, BitVec.ofNat 8 a.status.code] ++ a.data
  | .cue value => header 7 [] ++ wordBytes value
  | .keep => header 8 []
  | .leave => header 9 []

end Sys2Proof.Machine
end

