-- ==== Sys2Proof/Machine/Flags.lean ====
section
/-! DEFINITION. What a port record alone decides: its switch, its full request, its flags (R2, R3, R5), what a change of it
reports (R6), and what entering a port state does to it. -/

namespace Sys2Proof.Machine

/-- R5: the switch is closed in this state. -/
def PortState.closed : PortState → Bool
  | .probe => true
  | .ramp => true
  | .settle => true
  | .on => true
  | .drain => true
  | .orphan => true
  | .empty => false
  | .off => false
  | .queued => false
  | .restartWait => false
  | .fault => false
  | .parked => false

/-- R59: a port still starting up. -/
def PortState.starting : PortState → Bool
  | .probe => true
  | .ramp => true
  | .settle => true
  | _ => false

/-- R2, settle times in ms. -/
def settleMs (choice : Fin 8) : Nat := [2, 5, 10, 20, 50, 100, 200, 500].getD choice.1 0

/-- R2, grace times in ms. -/
def graceMs (choice : Fin 4) : Nat := [0, 20, 100, 500].getD choice.1 0

/-- The current the accessory asked for; without an identity no full request of a lane-EXPECTED AUTO port is
computed (R2), and the model takes 0 (log entry 34). -/
def requestedCu : Option Identity → Nat
  | some i => i.requested.toNat
  | none => 0

/-- The full request (R2). -/
def fullRequest (plan : Plan) (identity : Option Identity) : Nat :=
  match plan.laneUse, plan.mode with
  | .expected, .auto => max Config.probeCu (min (requestedCu identity) plan.units)
  | .expected, _ => plan.units
  | .unused, _ => plan.units

/-- The lane use in force: in DRAIN the one the drain holds from its start (R21, R95). -/
def PortRecord.laneUseNow (r : PortRecord) : LaneUse :=
  match r.state, r.drain with
  | .drain, some d => d.laneUse
  | _, _ => r.plan.laneUse

/-- The full request of a port under its plan copy, and in DRAIN under the lane use the drain holds (R2, R21). -/
def PortRecord.fullRequest (r : PortRecord) : Nat :=
  Machine.fullRequest { r.plan with laneUse := r.laneUseNow } r.identity

/-- ASK as a full request being computed sets or clears it (R3). -/
def PortRecord.refreshAsk (r : PortRecord) : PortRecord :=
  match r.identity with
  | none => r
  | some i =>
    if r.fullRequest < i.requested.toNat then
      if r.laneUseNow = .expected then { r with flags := { r.flags with ask := true } } else r
    else { r with flags := { r.flags with ask := false } }

/-- A flag went from clear to set. -/
def flagRaised (f f' : Flags) : Bool :=
  (!f.ask && f'.ask) || (!f.short && f'.short) || (!f.unwatched && f'.unwatched) ||
  (!f.noPhase && f'.noPhase) || (!f.left && f'.left) || (!f.kept && f'.kept) || (!f.rehello && f'.rehello)

/-- The changes that set the port's changed bit (R6): state, fault cause, a flag set. -/
def markedChange (r r' : PortRecord) : Bool :=
  r.state != r'.state || r.cause != r'.cause || flagRaised r.flags r'.flags

/-- The changes reported to the AE (R6, R54, R114). The on-time and a HELLO taken are reported by their own rules. A change of the
drain destination alone is reported too (the model's choice, log entry 54). -/
def reportedChange (r r' : PortRecord) : Bool :=
  markedChange r r' || r.flags != r'.flags || r.grant != r'.grant || r.stamp != r'.stamp ||
  r.restartCount != r'.restartCount || r.trips != r'.trips || r.drain != r'.drain ||
  r.checkErrors != r'.checkErrors || r.overruns != r'.overruns || r.identity != r'.identity

/-- A counter raised by one, saturating (00_scope.md section 5.2). -/
def saturate (count : Nat) : Nat := min Config.counterMax (count + 1)

/-- The flags as a port leaves one state for another (R3): NO_PHASE at leaving SETTLE, KEPT and REHELLO at leaving
ON, SHORT at leaving ORPHAN. -/
def leavingFlags (old : PortState) (f : Flags) : Flags :=
  { f with
    noPhase := false
    kept := false
    rehello := false
    short := if old = .orphan then false else f.short }

/-- The record as its port enters a state: the timers of the state it leaves stop (R7), the grant is 0 with the
switch open (R5), a drain is discarded outside DRAIN (R22), the adopted mark is cleared (R187). -/
def PortRecord.enter (st : PortState) (r : PortRecord) : PortRecord :=
  { r with
    state := st
    grant := if st.closed then r.grant else 0
    drain := if st = .drain then r.drain else none
    flags := leavingFlags r.state r.flags
    adopted := false
    timers := stoppedTimers }

end Sys2Proof.Machine
end

