-- ==== Sys2Proof/Machine/Ops.lean ====
section
/-! DEFINITION. The shared operations: reports to the area engine (R6, R164 to R168), lanes following their ports (R95, R97,
R103, R104), a port changing state, and the budget unit's decisions (R41 to R65). -/

namespace Sys2Proof.Machine

/-! ### Reaching into the part -/

def Part.port (p : Part) (n : Port) : PortRecord := p.ports.at n
def Part.lane (p : Part) (n : Port) : Lane := p.lanes.at n
def Part.mapBu (f : Budget → Budget) (p : Part) : Part := { p with bu := f p.bu }
def Part.mapMs (f : Sequencer → Sequencer) (p : Part) : Part := { p with ms := f p.ms }
def Part.mapMo (f : Orderer → Orderer) (p : Part) : Part := { p with mo := f p.mo }
def Part.mapPtp (f : PassThrough → PassThrough) (p : Part) : Part := { p with ptp := f p.ptp }
def Part.mapAe (f : AreaEngine → AreaEngine) (p : Part) : Part := { p with ae := f p.ae }
def Part.mapMrc (f : ModeReset → ModeReset) (p : Part) : Part := { p with mrc := f p.mrc }
def Part.setPort (n : Port) (r : PortRecord) (p : Part) : Part := { p with ports := p.ports.put n r }
def Part.setLane (n : Port) (l : Lane) (p : Part) : Part := { p with lanes := p.lanes.put n l }

/-! ### Reports to the area engine -/

/-- A target is given a write-back, unless one is pending (R166). In a reset hold none is queued (R183). -/
def queueWriteBack (t : Target) (p : Part) : Part :=
  if p.ae.quiet || p.ae.writeBacks.contains t then p
  else p.mapAe (fun a => { a with writeBacks := a.writeBacks ++ [t] })

/-- Bits set in the summary copy; a change gives the summary word a write-back (R164). -/
def setSummary (mask : Word) (p : Part) : Part :=
  if p.ae.summary ||| mask = p.ae.summary then p
  else queueWriteBack .summary (p.mapAe (fun a => { a with summary := a.summary ||| mask }))

/-- R164, bits 0 to 11. -/
def portChangedMask (n : Port) : Word := 1#32 <<< n.1
/-- R164, bits 12 to 23. -/
def markMask (n : Port) : Word := 1#32 <<< (12 + n.1)
/-- R164, bit 24. -/
def deviceChangedMask : Word := 1#32 <<< 24
/-- R164, bit 25. -/
def errorMask : Word := 1#32 <<< 25

/-- ATTN is asserted (R164): it follows the summary copy. -/
def attn (p : Part) : Bool := p.ae.summary != 0

/-- R165. -/
def ErrorBit.mask : ErrorBit → Word
  | .cmdBusy => 1#32
  | .partialWrite => 2#32
  | .stray => 4#32
  | .holdExpired => 8#32
  | .memFaultCp => 16#32
  | .memFaultAe => 32#32
  | .laneOverrun => 64#32

/-- A report that sets an error bit (R115, R158, R165). -/
def reportError (b : ErrorBit) (p : Part) : Part :=
  if p.ae.error ||| b.mask = p.ae.error then p
  else setSummary errorMask (queueWriteBack .error (p.mapAe (fun a => { a with error := a.error ||| b.mask })))

/-- A report of a port's status (R6, R166), with its change mark. -/
def reportPort (n : Port) (mark : Bool) (p : Part) : Part :=
  queueWriteBack (.status n)
    (if mark then p.mapAe (fun a => { a with portMarks := a.portMarks.put n true }) else p)

/-- A report of a field of the device status (R172), marked for word 1. -/
def reportDevice (mark : Bool) (p : Part) : Part :=
  queueWriteBack .device (if mark then p.mapAe (fun a => { a with deviceMark := true }) else p)

/-- The request state of a request word (R154). -/
def Part.request (p : Part) : ReqWord → Request
  | .device => p.ae.device
  | .port n => p.ae.requests.at n

def Part.setRequest (w : ReqWord) (r : Request) (p : Part) : Part :=
  match w with
  | .device => p.mapAe (fun a => { a with device := r })
  | .port n => p.mapAe (fun a => { a with requests := a.requests.put n r })

/-- A request's completion is handed to the AE (R168). -/
def complete (w : ReqWord) (result : Result) (p : Part) : Part :=
  queueWriteBack (.request w) (p.setRequest w { p.request w with completion := some result })

/-- A change of a port record, reported by R6. -/
def updPort (n : Port) (f : PortRecord → PortRecord) (p : Part) : Part :=
  if reportedChange (p.port n) (f (p.port n)) then
    reportPort n (markedChange (p.port n) (f (p.port n))) (p.setPort n (f (p.port n)))
  else p.setPort n (f (p.port n))

def setFlags (n : Port) (f : Flags → Flags) (p : Part) : Part :=
  updPort n (fun r => { r with flags := f r.flags }) p

/-- A change of a closed port's grant, reported for the port and for device status 2 (R6, R45). -/
def setGrant (n : Port) (grant : Nat) (p : Part) : Part :=
  if (p.port n).grant = grant then p
  else reportDevice false (updPort n (fun r => { r with grant := grant }) p)

/-! ### Lanes -/

/-- The next frame to send (R103), if the lane is not sending: OPEN, answers, the CUE while OPEN, LEAVE, KEEP. -/
def Lane.kick (l : Lane) : Lane :=
  match l.sending with
  | some _ => l
  | none =>
    match l.openDue with
    | some units => { l with sending := some (.openLane units), sendingHolds := true }
    | none =>
      match l.answers with
      | a :: rest => { l with sending := some (.answer a), sendingHolds := true, answers := rest }
      | [] =>
        match l.cue, l.mode with
        | some v, .opened => { l with sending := some (.cue v), sendingHolds := false, cue := none }
        | _, _ =>
          if l.leave then { l with sending := some .leave, sendingHolds := false, leave := false }
          else if l.keep then { l with sending := some .keep, sendingHolds := false, keep := false }
          else l

/-- A change of a lane, after which it begins sending if it can (R103). -/
def updLane (n : Port) (f : Lane → Lane) (p : Part) : Part := p.setLane n (f (p.lane n)).kick

/-- The lane mode the port's state and lane use give (R95); OPEN is reached only by the sending of an OPEN. -/
def laneModeOf (r : PortRecord) (now : LaneMode) : LaneMode :=
  match r.laneUseNow with
  | .unused => .idle
  | .expected =>
    match r.state with
    | .probe => .listen
    | .ramp => .paused
    | .settle => .paused
    | .drain => .paused
    | .orphan => .paused
    | .on => if now = .opened then .opened else .paused
    | .empty => .idle
    | .off => .idle
    | .queued => .idle
    | .restartWait => .idle
    | .fault => .idle
    | .parked => .idle

/-- Entry to IDLE (R97); an unsent LEAVE stays, and a frame being sent runs to its end. -/
def Lane.toIdle (l : Lane) : Lane :=
  { l with
    mode := .idle
    receive := none
    tags := freeTags
    answers := []
    keep := false
    openDue := none
    reopen := false
    sendingHolds := false
    keepTimer := none
    silenceTimer := none }

/-- A lane is sending an OPEN. -/
def Lane.sendsOpen (l : Lane) : Bool :=
  match l.sending with
  | some (.openLane _) => true
  | _ => false

/-- The lane taking the mode its port gives it; outside ON, OPEN due and re-open are cleared, and an OPEN being sent opens
the lane no more (R106, R112). -/
def Lane.follow (mode : LaneMode) (isOn : Bool) (l : Lane) : Lane :=
  if mode = .idle then l.toIdle
  else
    { l with
      mode := mode
      openDue := if isOn then l.openDue else none
      reopen := if isOn then l.reopen else false
      sendingHolds := l.sendingHolds && (isOn || !l.sendsOpen) }

/-- An unsent CUE handed back to the PM as the pending cue (R104). -/
def handBackCue (n : Port) (p : Part) : Part :=
  match (p.lane n).cue with
  | none => p
  | some v =>
    updLane n (fun l => { l with cue := none }) (updPort n (fun r => { r with pendingCue := some v }) p)

/-- The lane follows its port's state and plan (R95, R97, R104). -/
def laneFollow (n : Port) (p : Part) : Part :=
  let isOn := decide ((p.port n).state = .on)
  updLane n (fun l => l.follow (laneModeOf (p.port n) l.mode) isOn) (if isOn then p else handBackCue n p)

/-- The keep and silence timers at the entry of the port to a state (R107, R108). In RAMP the accessory receives no KEEP
(R107): an unsent one leaves the list at the entry (the model's choice, log entry 45). -/
def Lane.enterTimers (st : PortState) (l : Lane) : Lane :=
  if l.mode = .idle then l
  else
    match st with
    | .probe => { l with keepTimer := some Config.keepMs, silenceTimer := none }
    | .ramp => { l with keepTimer := none, silenceTimer := none, keep := false }
    | .settle => { l with keepTimer := some Config.keepMs, silenceTimer := some Config.silenceMs }
    | _ => l

/-- The number of OUTSTANDING tags. -/
def Lane.outstanding (l : Lane) : Nat :=
  l.tags.toList.countP (fun t => match t with | .outstanding _ _ => true | _ => false)

/-! ### A port changes state -/

/-- The MO cancels the port's accesses and marks its burst in flight (R136, R138). -/
def cancelAccesses (n : Port) (p : Part) : Part :=
  p.mapMo (fun o =>
    { o with
      lists := o.lists.put n []
      inFlight :=
        match o.inFlight with
        | some (.port m a off len last discard) => some (.port m a off len last (discard || m == n))
        | f => f })

/-- Both counters of a port's samples cleared (R84). -/
def clearCounts (n : Port) (p : Part) : Part :=
  p.mapMs (fun m => { m with overCount := m.overCount.put n 0, rampCount := m.rampCount.put n 0 })

/-- What a switch opening does outside the port record (R5, R45, R46, R84, R136). -/
def switchOpened (n : Port) (p : Part) : Part :=
  let p := clearCounts n (cancelAccesses n p)
  let p := p.mapBu (fun b => { b with shedList := b.shedList.filter (· != n) })
  if (p.port n).grant = 0 then p else reportDevice false p

/-- The port's entry leaves the queue; SHORT and UNWATCHED are cleared (R3, R53). -/
def dropEntry (n : Port) (p : Part) : Part :=
  if p.bu.queue.any (fun e => e.port == n) then
    setFlags n (fun f => { f with short := false, unwatched := false })
      (p.mapBu (fun b => { b with queue := b.queue.filter (fun e => e.port != n) }))
  else p

/-- A port changes state: the switch opens if the new state's is open (R5), its entry leaves the queue (R53), and
the lane follows, in the same event (R95, R107 to R109, R116). -/
def moveTo (n : Port) (st : PortState) (p : Part) : Part :=
  let p := if (p.port n).state.closed && !st.closed then switchOpened n p else p
  let p := laneFollow n (updPort n (·.enter st) (dropEntry n p))
  updLane n (·.enterTimers st) p

def setTimers (n : Port) (f : PortTimers → PortTimers) (p : Part) : Part :=
  updPort n (fun r => { r with timers := f r.timers }) p

/-- The part is in a reset hold, or in power-on reset. -/
def Part.inHold (p : Part) : Bool := p.mrc.phase != .running

/-- The kind of entry the port's lane use calls for (R8). -/
def entryKind (r : PortRecord) : EntryKind :=
  match r.plan.laneUse with
  | .expected => .probe
  | .unused => .full

/-- A new entry of a kind for a port (R50). -/
def newEntry (n : Port) (kind : EntryKind) (r : PortRecord) : Entry where
  port := n
  kind := kind
  asked := match kind with | .probe => Config.probeCu | .full => r.fullRequest
  priority := r.plan.priority
  essential := r.plan.essential

/-- An entry joins with the next age (R51, R52). A FULL entry computes the full request, and with it ASK (R2, R3). -/
def joinQueue (n : Port) (kind : EntryKind) (p : Part) : Part :=
  let p := match kind with | .probe => p | .full => updPort n PortRecord.refreshAsk p
  p.mapBu (fun b => { b with queue := b.queue ++ [newEntry n kind (p.port n)] })

/-- An event sends a port to QUEUED (R8, R52), redirected in a reset hold (R183) and in standby (R192). -/
def toQueued (n : Port) (p : Part) : Part :=
  if p.inHold then moveTo n .off p
  else if p.mrc.standby then moveTo n .parked p
  else
    let p := moveTo n .queued p
    joinQueue n (entryKind (p.port n)) p

/-- A port goes to RESTART_WAIT and its restart timer starts (R23, R29), redirected in a reset hold (R183). -/
def toRestartWait (n : Port) (p : Part) : Part :=
  if p.inHold then moveTo n .off p
  else setTimers n (fun t => { t with restart := some Config.restartMs }) (moveTo n .restartWait p)

/-- A port goes to PARKED, redirected in a reset hold (R183). -/
def toParked (n : Port) (p : Part) : Part :=
  if p.inHold then moveTo n .off p else moveTo n .parked p

/-! ### The budget -/

/-- The worse of two steps (R41). -/
def worse : Step → Step → Step
  | .critical, _ => .critical
  | _, .critical => .critical
  | .reduced, _ => .reduced
  | _, .reduced => .reduced
  | .full, .full => .full

/-- R41. -/
def ceilingStep (p : Part) : Step := worse p.ms.voltageStep p.ms.temperatureStep

/-- The ceiling (R42). -/
def ceiling (p : Part) : Nat :=
  let limit :=
    match ceilingStep p with
    | .full => p.bu.plan.sourceLimit
    | .reduced => p.bu.plan.reducedCeiling
    | .critical => 0
  if p.mrc.standby then min limit p.bu.plan.standbyCeiling else limit

/-- The grant of a port with a closed switch, else 0. -/
def closedGrant (p : Part) (n : Port) : Nat := if (p.port n).state.closed then (p.port n).grant else 0

/-- The committed total (R45). -/
def committed (p : Part) : Nat := (allPorts.map (closedGrant p)).sum

/-- The shedding total (R46). -/
def shedding (p : Part) : Nat := (p.bu.shedList.map (fun n => (p.port n).grant)).sum

/-- The fit test (R49), which also answers an in-ON raise (R66). -/
def fits (p : Part) (increase : Nat) : Bool :=
  !p.bu.isOver && decide (committed p + increase ≤ ceiling p)

/-- R71: the slots of a sequence's range, in order. -/
def Sequence.range (q : Sequence) : List Nat :=
  if q.start ≤ q.stop then (List.range (q.stop + 1 - q.start)).map (· + q.start) else [q.start]

/-- The range holds a slot of this kind. -/
def Sequence.converts (q : Sequence) (kind : SlotKind) : Bool :=
  q.range.any (fun i => match q.slots[i]? with | some s => s.kind == kind | none => false)

/-- R73: ports can be covered in this mode. -/
def SeqMode.covers : SeqMode → Bool
  | .running => true
  | .calibrating => true
  | .warming => false
  | .once => false
  | .stopped => false

/-- R56, R78. -/
def covered (p : Part) (n : Port) : Bool := p.ms.mode.covers && p.ms.active.converts (.portI n)

/-- An item put into a list before the first that it does not come after. -/
def insertBy {α : Type} (before : α → α → Bool) (x : α) : List α → List α
  | [] => [x]
  | y :: rest => if before x y then x :: y :: rest else y :: insertBy before x rest

/-- A list sorted by an order that is total on its items. -/
def sortBy {α : Type} (before : α → α → Bool) : List α → List α
  | [] => []
  | x :: rest => insertBy before x (sortBy before rest)

/-- Shed order (R59): lower priority, then still starting, then the newer stamp. -/
def shedsBefore (p : Part) (a b : Port) : Bool :=
  let x := p.port a
  let y := p.port b
  if x.plan.priority ≠ y.plan.priority then decide (x.plan.priority < y.plan.priority)
  else if x.state.starting ≠ y.state.starting then x.state.starting
  else decide (y.stamp < x.stamp)

/-- R59. -/
def shedCandidate (p : Part) (n : Port) : Bool :=
  (p.port n).state.closed && (p.port n).state != .drain && !(p.port n).plan.essential &&
  !p.bu.shedList.contains n

/-- The shed candidates that a test keeps, in shed order. -/
def shedCandidates (p : Part) (keep : Port → Bool) : List Port :=
  sortBy (shedsBefore p) (allPorts.filter (fun n => shedCandidate p n && keep n))

/-- A shed order is sent and its port joins the shed list (R46, R60). -/
def sendShedOrder (n : Port) (p : Part) : Part :=
  p.mapBu (fun b => { b with shedList := b.shedList ++ [n], orders := b.orders ++ [n] })

/-- Orders are sent in turn until committed less shedding plus the need is within the ceiling (R62, R64). -/
def shedUntil (need : Nat) : List Port → Part → Part
  | [], p => p
  | n :: rest, p =>
    if committed p + need ≤ ceiling p + shedding p then p else shedUntil need rest (sendShedOrder n p)

/-- The shed step (R64). -/
def shedStep (p : Part) : Part := shedUntil 0 (shedCandidates p (fun _ => true)) p

/-- The current a grant of the entry gives its port (R50, R58). -/
def Entry.current (e : Entry) : Nat :=
  match e.kind with
  | .probe => Config.probeCu
  | .full => e.asked

/-- The delta of an entry (R50). -/
def entryDelta (p : Part) (e : Entry) : Nat := e.current - (p.port e.port).grant

/-- The preemption test for a blocking essential entry (R61, R62). -/
def preempt (e : Entry) (p : Part) : Part :=
  let need := entryDelta p e
  let candidates := shedCandidates p (fun n => decide ((p.port n).plan.priority < e.priority))
  let total := (candidates.map (fun n => (p.port n).grant)).sum
  if committed p + need ≤ ceiling p + shedding p then p
  else if committed p + need ≤ ceiling p + shedding p + total then shedUntil need candidates p
  else setFlags e.port (fun f => { f with short := true }) p

/-- Stamps 1, 2, 3 and so on for these ports (R54). -/
def stampFrom (k : Nat) : List Port → Part → Part
  | [], p => p
  | n :: rest, p => stampFrom (k + 1) rest (updPort n (fun r => { r with stamp := k }) p)

/-- The closed ports, oldest stamp first. -/
def closedByStamp (p : Part) : List Port :=
  sortBy (fun a b => decide ((p.port a).stamp < (p.port b).stamp)) (allPorts.filter (fun n => (p.port n).state.closed))

/-- The renumbering at the end of the stamp counter's range (R54). -/
def renumber (p : Part) : Part :=
  (stampFrom 1 (closedByStamp p) p).mapBu (fun b => { b with stampCounter := (closedByStamp p).length })

/-- A raise gives the port a new stamp (R54). -/
def giveStamp (n : Port) (p : Part) : Part :=
  let p := if Config.lastStamp ≤ p.bu.stampCounter then renumber p else p
  let p := p.mapBu (fun b => { b with stampCounter := b.stampCounter + 1 })
  updPort n (fun r => { r with stamp := p.bu.stampCounter }) p

/-- The port's side of a grant (R10, R13, R58 step 4). -/
def grantPort (e : Entry) (p : Part) : Part :=
  match e.kind with
  | .probe =>
    setTimers e.port (fun t => { t with hello := some Config.helloMs })
      (setGrant e.port Config.probeCu (moveTo e.port .probe p))
  | .full =>
    clearCounts e.port (setTimers e.port (fun t => { t with ramp := some Config.rampMs })
      (setGrant e.port e.asked (moveTo e.port .ramp p)))

/-- A grant (R58). -/
def grant (e : Entry) (p : Part) : Part := grantPort e (giveStamp e.port (dropEntry e.port p))

/-- The walk of a grant decision in NORMAL (R57). -/
def walk : List Entry → Part → Part
  | [], p => p
  | e :: rest, p =>
    if !covered p e.port then walk rest p
    else if fits p (entryDelta p e) then walk rest (grant e p)
    else if e.essential then preempt e p
    else p

/-- Queue order (R51): priority highest first, within one priority oldest first. -/
def queueOrder (queue : List Entry) : List Entry :=
  [7, 6, 5, 4, 3, 2, 1, 0].flatMap (fun k : Nat => queue.filter (fun e => e.priority.1 == k))

/-- UNWATCHED set on uncovered entries and cleared on covered ones (R56). -/
def markCoverage : List Entry → Part → Part
  | [], p => p
  | e :: rest, p =>
    markCoverage rest (setFlags e.port (fun f => { f with unwatched := !covered p e.port }) p)

/-- A grant decision (R55 to R57). -/
def grantDecision (p : Part) : Part :=
  let p := markCoverage (queueOrder p.bu.queue) p
  if p.bu.isOver then p else walk (queueOrder p.bu.queue) p

/-- The budget state test (R47). -/
def budgetTest (p : Part) : Part :=
  if p.bu.isOver = decide (ceiling p < committed p) then p
  else reportDevice true (p.mapBu (fun b => { b with isOver := decide (ceiling p < committed p) }))

/-- SHORTFALL holds (R48). -/
def inShortfall (p : Part) : Bool := p.bu.isOver && decide (ceiling p + shedding p < committed p)

/-- The SHORTFALL test (R48). -/
def shortfallTest (p : Part) : Part :=
  if p.bu.shortfall = inShortfall p then p
  else reportDevice true (p.mapBu (fun b => { b with shortfall := inShortfall p }))

/-- What the BU does after an event: the budget state test, the shed step while OVER, a grant decision at a trigger
(R55) or at the return to NORMAL (R47, R65), and the SHORTFALL test. -/
def budgetAfter (trigger : Bool) (p : Part) : Part :=
  let wasOver := p.bu.isOver
  let p := budgetTest p
  let p := if p.bu.isOver then shedStep p else p
  let p := if trigger || (wasOver && !p.bu.isOver) then grantDecision p else p
  shortfallTest p

/-- R55: the event changed the queue, lowered the committed total or the shedding total, or raised the ceiling. -/
def decisionTrigger (before after : Part) : Bool :=
  before.bu.queue != after.bu.queue || decide (committed after < committed before) ||
  decide (shedding after < shedding before) || decide (ceiling before < ceiling after)

/-- An event of the ports or of the ceiling, with what the BU then does. -/
def event (f : Part → Part) (p : Part) : Part := budgetAfter (decisionTrigger p (f p)) (f p)

end Sys2Proof.Machine
end

