-- ==== Sys2Proof/Machine/PortOps.lean ====
section
/-! DEFINITION. The port manager's shared operations: drains (R21 to R24), failures (R27 to R31), entry to ON (R16 to R18),
plans stored and requests applied (R34 to R40), adoption (R188, R189), cues (R19). -/

namespace Sys2Proof.Machine

/-! ### Drains -/

/-- The drain destination at the start of a drain (R23). -/
def startDest : DrainReason → DrainDest
  | .withdrawn => .off
  | .shed => .queued
  | .asked => .off
  | .standby => .parked
  | .unadopted => .off
  | .restartCmd => .restartWait

/-- The drain destination after a plan stored in DRAIN (R23). -/
def destAfterPlan (standby : Bool) (mode : PlanMode) (reason : DrainReason) : DrainDest :=
  match mode, reason with
  | .off, _ => .off
  | _, .withdrawn => .queued
  | _, .shed => .queued
  | _, .asked => .off
  | _, .standby => if standby then .parked else .queued
  | _, .unadopted => .queued
  | _, .restartCmd => .restartWait

/-- The class map and the port view take the values of the port's plan copy (R84, R123). -/
def handOver (n : Port) (p : Part) : Part :=
  let plan := (p.port n).plan
  (p.mapMo (fun o => { o with classMap := o.classMap.put n plan.urgent })).mapMs
    (fun m => { m with views := m.views.put n ⟨plan.margin, plan.tripField⟩ })

/-- A drain ends: the switch opens, and the port goes to the drain destination (R22, R23). -/
def endDrain (n : Port) (p : Part) : Part :=
  match (p.port n).drain with
  | none => p
  | some d =>
    let p :=
      match d.dest with
      | .queued => toQueued n p
      | .restartWait => toRestartWait n p
      | .parked => toParked n p
      | .off =>
        let p := moveTo n .off p
        if d.reason = .asked then setFlags n (fun f => { f with left := true }) p else p
    handOver n p

/-- A drain enters GRACE (R22, R105). -/
def enterGrace (n : Port) (p : Part) : Part :=
  match (p.port n).drain with
  | none => p
  | some d =>
    let p := updPort n (fun r => { r with drain := some { d with phase := .grace },
                                          timers := { r.timers with grace := some d.graceMs } }) p
    let p := if d.laneUse = .expected then updLane n (fun l => { l with leave := true }) p else p
    if d.graceMs = 0 then endDrain n p else p

/-- The grace time a drain holds (R21, R22). -/
def drainGrace (reason : DrainReason) (plan : Plan) : Nat :=
  if reason = .shed then min Config.shedGraceCapMs (graceMs plan.grace) else graceMs plan.grace

/-- The drain a port starts (R21). -/
def newDrain (reason : DrainReason) (plan : Plan) : Drain where
  reason := reason
  phase := .flush
  dest := startDest reason
  laneUse := plan.laneUse
  graceMs := drainGrace reason plan

/-- A drain starts (R21); FLUSH ends at once when nothing is outstanding or the lane use is NONE. -/
def startDrain (n : Port) (reason : DrainReason) (p : Part) : Part :=
  let d := newDrain reason (p.port n).plan
  let p := moveTo n .drain (updPort n (fun r => { r with drain := some d }) p)
  if d.laneUse = .unused || (p.lane n).outstanding == 0 then enterGrace n p else p

/-! ### Cues -/

/-- A cue value handed to the LC (R104). -/
def cueToLane (n : Port) (value : Word) (p : Part) : Part :=
  if (p.lane n).mode = .idle then p else updLane n (fun l => { l with cue := some value }) p

/-- A landed cue write at the PM (R19) and in the cue shadow (R157). -/
def cueLanded (n : Port) (value : Word) (p : Part) : Part :=
  let p := p.mapPtp (fun t => { t with shadows := t.shadows.put n (some value) })
  let p := reportPort n false p
  if (p.port n).state = .on then cueToLane n value p
  else updPort n (fun r => { r with pendingCue := some value }) p

/-! ### Storing a plan -/

/-- An entry under its port's present plan (R52, R35): its kind follows the lane use while the port is QUEUED, its
priority and essential flag the plan, and a FULL entry asks the full request. -/
def renewEntry (r : PortRecord) (e : Entry) : Entry :=
  newEntry e.port (if r.state = .queued then entryKind r else e.kind) r

/-- The port holds a FULL entry. -/
def holdsFull (n : Port) (p : Part) : Bool := p.bu.queue.any (fun e => e.port == n && e.kind == .full)

/-- The plan copy replaced (R35): the restart count limited (R20), the entry renewed (R52), ASK recomputed where
a full request applies (R2), the window handed to the PTP (R142) and the lane use to the LC (R95). -/
def replacePlan (n : Port) (plan : Plan) (p : Part) : Part :=
  let p := updPort n (fun r => { r with plan := plan, restartCount := min r.restartCount plan.restartLimit.1 }) p
  let p := p.mapBu (fun b =>
    { b with queue := b.queue.map (fun e => if e.port = n then renewEntry (p.port n) e else e) })
  let p := if plan.mode ≠ .off ∧ ((p.port n).state.closed || holdsFull n p) then updPort n PortRecord.refreshAsk p else p
  let p := p.mapPtp (fun t => { t with windows := t.windows.put n ⟨plan.base, plan.size⟩ })
  laneFollow n p

/-- A plan is stored, with its hand-overs (R35, R84, R123, R142). -/
def storePlan (n : Port) (plan : Plan) (p : Part) : Part := handOver n (replacePlan n plan p)

/-! ### Entry to ON -/

/-- The active wheel names the port (R124). -/
def names (wheel : List Phase) (n : Port) : Bool := wheel.contains (some (.port n))

/-- The admission test (R16). -/
def admits (p : Part) (n : Port) : Bool :=
  (p.port n).plan.laneUse == .unused || ((p.port n).plan.size != 0 && names p.mo.wheel n)

/-- An APPLY with mode OFF to a port in ON or ORPHAN (R37, R188): the port drains under the lane use and the grace choice of
the plan copy it held (R21, log entry 19), and the plan is stored in the same event. -/
def withdraw (n : Port) (plan : Plan) (p : Part) : Part := storePlan n plan (startDrain n .withdrawn p)

/-- An APPLY in ON (R37), with its in-ON raise (R66) or lower (R67). -/
def applyInOn (n : Port) (plan : Plan) (p : Part) : Part :=
  let r := p.port n
  let request := fullRequest plan r.identity
  if plan.mode = .off then complete (.port n) .ok (withdraw n plan p)
  else if plan.base ≠ r.plan.base ∨ plan.size ≠ r.plan.size then complete (.port n) .windowLocked p
  else if plan.laneUse ≠ r.plan.laneUse then complete (.port n) .state p
  else if r.grant < request then
    if fits p (request - r.grant) then
      complete (.port n) .ok (storePlan n plan (giveStamp n (setGrant n request p)))
    else complete (.port n) .shortfall p
  else complete (.port n) .ok (storePlan n plan (setGrant n request p))

/-- OPEN due with the window size of the plan copy in 256-byte units (R106). On a free lane its sending begins at once, also when
the port leaves ON in the same event (the model's choice, log entry 46). -/
def setOpenDue (n : Port) (p : Part) : Part :=
  updLane n (fun l => { l with openDue := some ((p.port n).plan.size / 256) }) p

/-- The pending cue goes to the LC at entry to ON of a lane-EXPECTED port (R18 step 4). -/
def handPendingCue (n : Port) (p : Part) : Part :=
  match (p.port n).pendingCue with
  | none => p
  | some v => updPort n (fun r => { r with pendingCue := none }) (cueToLane n v p)

/-- Standby entry for a port in ON (R191, R192). -/
def standbyOn (n : Port) (p : Part) : Part :=
  if (p.port n).plan.keep then setFlags n (fun f => { f with kept := true }) p
  else startDrain n .standby p

/-- A deferred request leaves the record, to be applied. -/
def takeDeferred (n : Port) (p : Part) : Part := updPort n (fun r => { r with deferred := none }) p

/-- The on-time starts (R18, R20). -/
def startOnTime (n : Port) (p : Part) : Part :=
  updPort n (fun r => { r with onTime := 0, timers := { r.timers with onTime := true } }) p

/-- OPEN is ordered and the pending cue handed over for a lane-EXPECTED port (R18). -/
def openLane (n : Port) (p : Part) : Part :=
  if (p.port n).plan.laneUse = .expected then handPendingCue n (setOpenDue n p) else p

/-- A deferred request is applied to the port as it enters ON (R18, R36). -/
def applyEntering (n : Port) (p : Part) : Part :=
  match (p.port n).deferred with
  | none => p
  | some plan => applyInOn n plan (takeDeferred n p)

/-- Entry to ON (R18): the on-time starts, OPEN is ordered, the pending cue handed over, a deferred request applied. -/
def enterOn (n : Port) (p : Part) : Part := applyEntering n (openLane n (startOnTime n (moveTo n .on p)))

/-- An adopted orphan goes to ON (R189); in standby it is treated at once as at standby entry (R192). -/
def admitOrphan (n : Port) (p : Part) : Part :=
  let p := enterOn n p
  if p.mrc.standby && (p.port n).state == .on then standbyOn n p else p

/-- The admission test of a port waiting in SETTLE (R16, R17): to ON, or NO_PHASE. -/
def testAdmission (n : Port) (p : Part) : Part :=
  if admits p n then enterOn n p else setFlags n (fun f => { f with noPhase := true }) p

/-! ### Requests by state -/

/-- An APPLY to a port waiting in SETTLE with NO_PHASE (R38), with its in-ON raise (R66) or lower (R67). -/
def applyWaiting (n : Port) (plan : Plan) (p : Part) : Part :=
  let r := p.port n
  let request := fullRequest plan r.identity
  if plan.mode = .off then complete (.port n) .ok (moveTo n .off (storePlan n plan p))
  else if r.grant < request then
    if fits p (request - r.grant) then
      testAdmission n (complete (.port n) .ok (storePlan n plan (giveStamp n (setGrant n request p))))
    else complete (.port n) .shortfall p
  else testAdmission n (complete (.port n) .ok (storePlan n plan (setGrant n request p)))

/-- A plan stored in DRAIN changes the drain destination (R23, R35). -/
def retarget (n : Port) (p : Part) : Part :=
  updPort n (fun r =>
    { r with drain := r.drain.map (fun d => { d with dest := destAfterPlan p.mrc.standby r.plan.mode d.reason }) }) p

/-- An adoption (R188), with its raise (R66) or lower (R67), and the admission that follows it (R189). -/
def adopt (n : Port) (plan : Plan) (p : Part) : Part :=
  let r := p.port n
  let request := fullRequest plan r.identity
  if plan.mode = .off then complete (.port n) .ok (withdraw n plan p)
  else if plan.base ≠ r.plan.base ∨ plan.size ≠ r.plan.size then complete (.port n) .windowLocked p
  else if plan.laneUse ≠ r.plan.laneUse then complete (.port n) .state p
  else if plan.laneUse = .expected ∧ names p.mo.wheel n = false then complete (.port n) .unnamed p
  else
    let p :=
      if r.grant < request then
        if fits p (request - r.grant) then giveStamp n (setGrant n request p)
        else setFlags n (fun f => { f with short := true }) p
      else setGrant n request p
    let p := updPort n (fun r => { r with adopted := true }) (storePlan n plan p)
    let p := complete (.port n) .ok p
    if plan.laneUse = .unused || (p.lane n).outstanding == 0 then admitOrphan n p else p

/-- A validated APPLY acts by the port's state (R35, R36). -/
def applyByState (n : Port) (plan : Plan) (p : Part) : Part :=
  let r := p.port n
  let done := complete (.port n) .ok
  match r.state with
  | .empty => done (storePlan n plan p)
  | .fault => done (storePlan n plan p)
  | .restartWait =>
    let p := storePlan n plan p
    done (if plan.mode = .off then moveTo n .off p else p)
  | .parked =>
    let p := storePlan n plan p
    done (if plan.mode = .off then moveTo n .off p else p)
  | .drain => done (retarget n (storePlan n plan p))
  | .off =>
    let p := storePlan n plan p
    done (if plan.mode = .off then p else toQueued n (setFlags n (fun f => { f with left := false }) p))
  | .queued =>
    let p := storePlan n plan p
    done (if plan.mode = .off then moveTo n .off p else p)
  | .probe =>
    let p := storePlan n plan p
    done (if plan.mode = .off then moveTo n .off p
      else if plan.laneUse ≠ r.plan.laneUse then toQueued n p
      else p)
  | .ramp => updPort n (fun r => { r with deferred := some plan }) p
  | .settle =>
    if r.flags.noPhase then applyWaiting n plan p else updPort n (fun r => { r with deferred := some plan }) p
  | .on => applyInOn n plan p
  | .orphan => adopt n plan p

/-- A deferred request is applied in the state its port has come to (R36). -/
def applyDeferred (n : Port) (p : Part) : Part :=
  match (p.port n).deferred with
  | none => p
  | some plan => applyByState n plan (takeDeferred n p)

/-! ### Validation of an APPLY (R34) -/

/-- The fields of a plan (R34); the codes are checked as the record is read. -/
def planFieldsValid (plan : Plan) : Bool :=
  decide (plan.units ≤ Config.unitsMax) &&
  (plan.mode == .off || decide (Config.probeCu ≤ plan.units)) &&
  plan.base % 256 == 0 && plan.size % 256 == 0 && decide (plan.size ≤ Config.windowMax) &&
  !(plan.size == 0 && plan.laneUse == .expected) &&
  decide (plan.base + plan.size ≤ Config.memoryBytes)

/-- Two runs of bytes share a byte. -/
def sharesByte (base size base' size' : Nat) : Bool :=
  decide (0 < size ∧ 0 < size' ∧ base < base' + size' ∧ base' < base + size)

/-- The first byte of the Control Area (R160). -/
def areaBase (p : Part) : Nat := Config.areaStep * p.mrc.straps.cab.1

/-- The window shares a byte with the configured window of a port, or with that of its deferred request (R34). -/
def meetsPort (p : Part) (plan : Plan) (n : Port) : Bool :=
  sharesByte plan.base plan.size (p.port n).plan.base (p.port n).plan.size ||
  (match (p.port n).deferred with
   | some d => sharesByte plan.base plan.size d.base d.size
   | none => false)

/-- The window shares a byte with the Control Area or with another port's configured window (R34). -/
def windowOverlaps (p : Part) (n : Port) (plan : Plan) : Bool :=
  sharesByte plan.base plan.size (areaBase p) Config.areaBytes ||
  allPorts.any (fun m => m != n && meetsPort p plan m)

/-- An APPLY is delivered (R33, R34, R35); `plan` is absent when its mode or lane use is not a defined code. -/
def deliverApply (n : Port) (plan : Option Plan) (p : Part) : Part :=
  match plan with
  | none => complete (.port n) .invalid p
  | some plan =>
    if !planFieldsValid plan then complete (.port n) .invalid p
    else if windowOverlaps p n plan then complete (.port n) .overlap p
    else applyByState n plan p

/-- CLEAR in FAULT (R39): the port's side. -/
def clearFault (n : Port) (p : Part) : Part :=
  let p := updPort n (fun r => { r with cause := none, restartCount := 0 }) p
  if (p.port n).plan.mode = .off then moveTo n .off p else toQueued n p

/-- CLEAR (R39). -/
def clearRequest (n : Port) (p : Part) : Part :=
  complete (.port n) .ok (if (p.port n).state = .fault then clearFault n p else p)

/-- RESTART (R40). -/
def restartRequest (n : Port) (p : Part) : Part :=
  match (p.port n).state with
  | .on => complete (.port n) .ok (startDrain n .restartCmd p)
  | .fault => complete (.port n) .ok (clearFault n p)
  | _ => complete (.port n) .state p

/-! ### Failures -/

/-- R27: the states in which an event is a failure. -/
def isFailure (cause : FaultCause) (st : PortState) : Bool :=
  match cause with
  | .hard => st.closed
  | .overCurrent => st.closed && st != .ramp
  | .rampTimeout => st == .ramp
  | .laneLost => st == .settle || st == .on || st == .orphan
  | .noHello => false

/-- The trips counter and the fault cause at a failure (R29, R30). -/
def recordFailure (cause : FaultCause) (r : PortRecord) : PortRecord :=
  { r with
    trips := if cause = .hard ∨ cause = .overCurrent then saturate r.trips else r.trips
    cause := some cause }

/-- A failure (R27): R30 in DRAIN, R29 and R31 elsewhere. -/
def failPort (n : Port) (cause : FaultCause) (p : Part) : Part :=
  if !isFailure cause (p.port n).state then p
  else
    let p := updPort n (recordFailure cause) p
    if (p.port n).state = .drain then endDrain n p
    else if (p.port n).restartCount < (p.port n).plan.restartLimit.1 then
      applyDeferred n (toRestartWait n (updPort n (fun r => { r with restartCount := r.restartCount + 1 }) p))
    else applyDeferred n (moveTo n .fault p)

/-- A lane loss reaches the PM (R24, R27). -/
def laneLost (n : Port) (p : Part) : Part :=
  if (p.port n).state = .drain then endDrain n p else failPort n .laneLost p

/-! ### HELLO, LEAVE and shed orders -/

/-- A new FULL entry, or the one the port holds with new asked units (R11). -/
def askFull (n : Port) (p : Part) : Part :=
  if holdsFull n p then
    p.mapBu (fun b =>
      { b with queue := b.queue.map (fun e => if e.port = n then { e with asked := (p.port n).fullRequest } else e) })
  else joinQueue n .full p

/-- A HELLO taken in PROBE (R11). -/
def helloTaken (n : Port) (identity : Identity) (p : Part) : Part :=
  if (p.port n).state ≠ .probe then p
  else
    let p := updPort n (fun r =>
      { r with identity := some identity, timers := { r.timers with hello := none } }.refreshAsk) p
    askFull n (reportPort n true p)

/-- An accessory LEAVE at the PM (R25). -/
def leaveTaken (n : Port) (p : Part) : Part :=
  match (p.port n).state with
  | .on => startDrain n .asked p
  | .orphan => startDrain n .asked p
  | .probe => applyDeferred n (setFlags n (fun f => { f with left := true }) (moveTo n .off p))
  | .ramp => applyDeferred n (setFlags n (fun f => { f with left := true }) (moveTo n .off p))
  | .settle => applyDeferred n (setFlags n (fun f => { f with left := true }) (moveTo n .off p))
  | _ => p

/-- A shed order at the PM (R26, R60); a discard takes the port off the shed list (R46), also when an earlier order to the same
port has started the drain with reason SHED that it finds (the model's choice, log entry 51). -/
def shedTaken (n : Port) (p : Part) : Part :=
  match (p.port n).state with
  | .probe => applyDeferred n (toQueued n p)
  | .ramp => applyDeferred n (toQueued n p)
  | .settle => applyDeferred n (toQueued n p)
  | .on => startDrain n .shed p
  | .orphan => startDrain n .shed p
  | _ => p.mapBu (fun b => { b with shedList := b.shedList.filter (· != n) })

/-- The LC reports no outstanding requests (R101): FLUSH ends (R21), an adopted orphan is admitted (R189), a
re-open ends (R112). -/
def noOutstanding (n : Port) (p : Part) : Part :=
  match (p.port n).state with
  | .drain =>
    match (p.port n).drain with
    | some d => if d.phase = .flush then enterGrace n p else p
    | none => p
  | .orphan => if (p.port n).adopted then admitOrphan n p else p
  | .on => if (p.lane n).reopen then setOpenDue n p else p
  | _ => p

end Sys2Proof.Machine
end

