-- ==== Sys2Proof/Machine/LaneOps.lean ====
section
/-! DEFINITION. The lane controllers' shared operations: frames taken (R93, R96, R98, R110 to R113), tags and answers (R99 to
R101), and the ends of sendings (R103, R106, R107). -/

namespace Sys2Proof.Machine

/-! ### Bursts of an accessory access -/

/-- Burst `k` of an access: its part of block `k` counted from the block of its first byte (R120). -/
def burstOf (offset length k : Nat) : Nat × Nat :=
  let block := offset / Config.blockBytes + k
  let first := max offset (Config.blockBytes * block)
  (first, min (offset + length) (Config.blockBytes * (block + 1)) - first)

/-- The bursts of an access, in order: window offset and length (R120, R118). -/
def splitBursts (offset length : Nat) : List (Nat × Nat) :=
  (List.range ((offset + length - 1) / Config.blockBytes + 1 - offset / Config.blockBytes)).map (burstOf offset length)

/-! ### Frames taken -/

/-- A good frame restarts the silence timer where it runs (R93, R108). -/
def Lane.heard (l : Lane) : Lane := { l with silenceTimer := l.silenceTimer.map (fun _ => Config.silenceMs) }

/-- A check error (R93, R114). -/
def checkError (n : Port) (p : Part) : Part :=
  updPort n (fun r => { r with checkErrors := saturate r.checkErrors }) p

/-- A tag overrun (R99). -/
def tagOverrun (n : Port) (p : Part) : Part :=
  reportError .laneOverrun (updPort n (fun r => { r with overruns := saturate r.overruns }) p)

/-- A request answered without being carried: its tag is ANSWERED and its answer joins the list (R98 cases 2, 3). -/
def answerNow (n : Port) (kind : ReqKind) (tag : Fin 4) (status : Status) (p : Part) : Part :=
  updLane n (fun l => { l with tags := l.tags.set tag.1 (.answered kind) tag.2
                               answers := l.answers ++ [⟨kind, tag, status, []⟩] }) p

/-- The access an accepted request makes (R98 case 4, R119). -/
def newAccess (plan : Plan) (kind : ReqKind) (tag cls : Fin 4) (offset length : Nat) (data : List Byte) :
    LaneAccess where
  kind := kind
  cls := cls
  base := plan.base
  windowSize := plan.size
  offset := offset
  length := length
  tag := tag
  data := data
  bursts := splitBursts offset length
  gathered := []
  faulted := false
  markFault := false

/-- A request accepted: its tag is OUTSTANDING and its access joins the port's pending list (R98 case 4, R121). -/
def acceptRequest (n : Port) (a : LaneAccess) (p : Part) : Part :=
  (updLane n (fun l => { l with tags := l.tags.set a.tag.1 (.outstanding a.kind false) a.tag.2 }) p).mapMo
    (fun o => { o with lists := o.lists.put n (o.lists.at n ++ [a]) })

/-- A good PUT or GET taken (R98): the first case that applies. -/
def takeRequest (n : Port) (kind : ReqKind) (tag cls : Fin 4) (offset length : Nat) (data : List Byte)
    (p : Part) : Part :=
  if (p.lane n).tags.get tag ≠ .free then tagOverrun n p
  else if (p.lane n).mode ≠ .opened then answerNow n kind tag .closed p
  else if (p.port n).plan.size < offset + length then answerNow n kind tag .outside p
  else acceptRequest n (newAccess (p.port n).plan kind tag cls offset length data) p

/-- An OUTSTANDING tag marked DISCARD_REPLY (R111 step 2). -/
def Tag.discarding : Tag → Tag
  | .outstanding kind _ => .outstanding kind true
  | .answered kind => .answered kind
  | .free => .free

/-- The tags of unsent answers freed (R111 step 3). -/
def freeAnswered (answers : List Answer) (tags : Vector Tag 4) : Vector Tag 4 :=
  answers.foldl (fun t a => t.set a.tag.1 .free a.tag.2) tags

/-- The lane's side of a HELLO taken in ON (R111 steps 1 to 4). -/
def Lane.reopened (l : Lane) : Lane :=
  { l with
    mode := if l.mode = .opened then .paused else l.mode
    reopen := true
    tags := freeAnswered l.answers (l.tags.map Tag.discarding)
    answers := []
    openDue := none }

/-- The port's side of a HELLO taken in ON (R111). -/
def PortRecord.rehello (identity : Identity) (r : PortRecord) : PortRecord :=
  { r with identity := some identity, flags := { r.flags with rehello := true } }.refreshAsk

/-- A HELLO taken in ON (R111); the re-open ends at once when nothing is outstanding (R112). -/
def reopenLane (n : Port) (identity : Identity) (p : Part) : Part :=
  let p := reportPort n true (updPort n (·.rehello identity) (p.setLane n (p.lane n).reopened))
  if (p.lane n).outstanding = 0 then setOpenDue n p else updLane n id p

/-- A good HELLO (R96, R110, R111). -/
def takeHello (n : Port) (identity : Identity) (p : Part) : Part :=
  if (p.lane n).mode = .listen then helloTaken n identity p
  else if (p.port n).state = .on then reopenLane n identity p
  else checkError n p

/-- A good frame taken outside IDLE (R96). -/
def takeGood (n : Port) (f : RxFrame) (p : Part) : Part :=
  match f with
  | .hello identity => takeHello n identity p
  | .put tag cls offset data => takeRequest n .put tag cls offset.toNat data.length data p
  | .get tag cls offset length => takeRequest n .get tag cls offset.toNat length.toNat [] p
  | .keep => p
  | .leave => leaveTaken n p

/-- A frame with a right check, a kind and the payload length of that kind (R93). -/
def takeFrame (n : Port) (f : RxFrame) (p : Part) : Part :=
  if (p.lane n).mode = .idle then p
  else if f.good then takeGood n f (updLane n Lane.heard p)
  else checkError n p

/-- The bytes received between two flags (R93, R177). -/
def takeBytes (n : Port) (bytes : List Byte) (p : Part) : Part :=
  if (p.lane n).mode = .idle then p
  else
    match receive bytes with
    | .nothing => p
    | .bad => checkError n p
    | .good f => takeFrame n f p

/-! ### Sendings and timers -/

/-- The end of a sending: the keep timer restarts where it runs, and an unsent KEEP leaves the list when the frame was of
another kind (R103, R107). One that joined the list while a KEEP was sent stays there and is sent (the model's choice, log
entry 48). -/
def Lane.sendingEnds (l : Lane) : Lane :=
  { l with
    sending := none
    sendingHolds := false
    keep := if l.sending = some .keep then l.keep else false
    keepTimer := l.keepTimer.map (fun _ => Config.keepMs) }

/-- The end of the sending of an OPEN (R106). One whose port left ON during its sending runs to its end and opens nothing,
also where the port has come back to ON: the OPEN due that the new entry set stays due. -/
def Lane.openSent (isOn : Bool) (l : Lane) : Lane :=
  if l.sendingHolds then
    { l.sendingEnds with
      openDue := none
      reopen := false
      mode := if isOn && l.mode != .idle then .opened else l.mode }
  else l.sendingEnds

/-- A lane is sending a CUE, a LEAVE or a KEEP. -/
def Lane.sendsOther (l : Lane) : Bool :=
  match l.sending with
  | some (.cue _) => true
  | some .leave => true
  | some .keep => true
  | _ => false

/-- The answer a lane is sending. -/
def Lane.sentAnswer (l : Lane) : Option Answer :=
  match l.sending with
  | some (.answer a) => some a
  | _ => none

/-- A tag becomes FREE; when no tag is OUTSTANDING any more, the PM is told (R101). -/
def freeTag (n : Port) (tag : Fin 4) (p : Part) : Part :=
  let before := (p.lane n).outstanding
  let p := updLane n (fun l => { l with tags := l.tags.set tag.1 .free tag.2 }) p
  if 0 < before ∧ (p.lane n).outstanding = 0 then noOutstanding n p else p

/-- The sending of an answer ends (R101, R103). -/
def answerSent (n : Port) (a : Answer) (p : Part) : Part :=
  updLane n Lane.sendingEnds (if (p.lane n).sendingHolds then freeTag n a.tag p else p)

/-- The completion of an accepted access at the LC (R100, R102). -/
def accessDone (n : Port) (a : Answer) (p : Part) : Part :=
  match (p.lane n).tags.get a.tag with
  | .outstanding _ true => freeTag n a.tag p
  | .outstanding _ false => updLane n (fun l => { l with answers := l.answers ++ [a] }) p
  | .answered _ => p
  | .free => p

/-- The keep timer expires (R107). -/
def Lane.keepExpired (l : Lane) : Lane := { l with keep := true, keepTimer := some Config.keepMs }

/-- The silence timer expires (R108). -/
def silenceExpired (n : Port) (p : Part) : Part :=
  laneLost n (updLane n (fun l => { l with silenceTimer := none }) p)

end Sys2Proof.Machine
end

