-- ==== Sys2Proof/Machine/SequencerOps.lean ====
section
/-! DEFINITION. The monitor sequencer's shared operations: modes and commands (R73 to R77), sequences loaded (R79, R80),
calibration (R81, R82), samples and verdicts (R83 to R86), steps (R88, R89), device plans delivered (R44). -/

namespace Sys2Proof.Machine

/-! ### Modes and rounds -/

/-- A change of mode, reported to the AE and, where it concerns coverage, to the BU (R73, R55). -/
def setMode (mode : SeqMode) (p : Part) : Part :=
  if p.ms.mode = mode then p
  else
    let q := reportDevice true (p.mapMs (fun m => { m with mode := mode }))
    if p.ms.mode.covers || mode.covers then budgetAfter true q else q

/-- The next round begins with the first slot of the range (R71, R73). -/
def beginRound (p : Part) : Part := p.mapMs (fun m => { m with current := some m.active.start })

/-- The results are reported (R83). -/
def reportResults (p : Part) : Part := queueWriteBack .results p

/-- The sequencer command in progress ends: it is completed in the device command word (R74). -/
def endCommand (p : Part) : Part :=
  complete .device .ok (reportResults (p.mapMs (fun m => { m with command := none })))

/-- Slot `i` of the active sequence. -/
def Sequencer.slot (m : Sequencer) (i : Nat) : Slot := m.active.slots.getD i ⟨.none, .fast⟩

/-- The kind being converted (R71). -/
def Sequencer.converting (m : Sequencer) : Option SlotKind := m.current.map (fun i => (m.slot i).kind)

/-- Some port's switch is closed (R76, R77). -/
def anyClosed (p : Part) : Bool := allPorts.any (fun n => (p.port n).state.closed)

/-! ### Sequences -/

/-- Every port with a closed switch has a PORT_I slot in the range (R79, R80). -/
def coversClosed (p : Part) (q : Sequence) : Bool :=
  allPorts.all (fun n => !(p.port n).state.closed || q.converts (.portI n))

/-- The swap of a validated sequence (R80): results outside the new range become 0, and the counters of ports no
longer covered are cleared. -/
def Sequencer.swap (q : Sequence) (m : Sequencer) : Sequencer :=
  { m with
    active := q
    pending := none
    results := m.results.zipIdx.map (fun x => if q.range.contains x.2 then x.1 else 0)
    overCount := Vector.ofFn (fun n => if q.converts (.portI n) then m.overCount.at n else 0)
    rampCount := Vector.ofFn (fun n => if q.converts (.portI n) then m.rampCount.at n else 0) }

/-- The pending sequence is validated again and swapped in, or discarded (R80). -/
def swapSequence (p : Part) : Part :=
  match p.ms.pending with
  | none => p
  | some q =>
    if coversClosed p q then
      complete .device .ok (budgetAfter true (reportDevice true (p.mapMs (Sequencer.swap q))))
    else complete .device .uncovered (reportDevice true (p.mapMs (fun m => { m with pending := none })))

/-- The tests of R79 that do not depend on the ports; codes are tested as the record is read. -/
def sequenceValid (q : Sequence) : Bool :=
  decide (q.start ≤ 15) && decide (q.stop ≤ 15) && q.converts .sourceV

/-- A LOAD_SEQUENCE is delivered (R79); in STOPPED it is swapped in at once (R80). -/
def deliverSequence (q : Option Sequence) (p : Part) : Part :=
  match q with
  | none => complete .device .invalid p
  | some q =>
    if !sequenceValid q then complete .device .invalid p
    else if !coversClosed p q then complete .device .uncovered p
    else
      let p := reportDevice true (p.mapMs (fun m => { m with pending := some q }))
      if p.ms.mode = .stopped then swapSequence p else p

/-! ### Commands -/

/-- The calibration conversions begin (R81). -/
def beginCalibration (p : Part) : Part :=
  p.mapMs (fun m => { m with current := none, calibration := some ⟨0, 0, false⟩ })

/-- The converter is at work on no slot and no calibration conversion. -/
def Sequencer.atRest (m : Sequencer) : Bool := m.current.isNone && m.calibration.isNone

/-- A round begins if the converter is at rest. -/
def beginIfAtRest (p : Part) : Part := if p.ms.atRest then beginRound p else p

/-- SEQ_RUN outside WARMING (R75). -/
def seqRun (p : Part) : Part :=
  complete .device .ok (if p.ms.mode = .stopped then setMode .running (beginIfAtRest p) else p)

/-- SEQ_ONCE outside WARMING (R76). -/
def seqOnce (p : Part) : Part :=
  if anyClosed p then complete .device .powered p
  else
    let p := p.mapMs (fun m => { m with command := some .once, onceRounds := if m.current.isSome then 2 else 1 })
    setMode .once (beginIfAtRest p)

/-- The conversion in progress: a slot other than NONE, or a calibration conversion (R70, R77). -/
def Sequencer.busy (m : Sequencer) : Bool :=
  m.calibration.isSome ||
  (match m.converting with
   | some k => k != .none
   | none => false)

/-- SEQ_STOP outside WARMING (R77): the conversion in progress runs to its end before the completion. -/
def seqStop (p : Part) : Part :=
  if anyClosed p then complete .device .powered p
  else if p.ms.mode = .stopped then endCommand p
  else
    let p := setMode .stopped (p.mapMs (fun m => { m with command := some .stop }))
    if p.ms.busy then p else endCommand (p.mapMs (fun m => { m with current := none }))

/-- CALIBRATE outside WARMING (R81). -/
def seqCalibrate (p : Part) : Part :=
  let p := p.mapMs (fun m => { m with command := some .calibrate })
  if p.ms.mode = .stopped then beginCalibration p else setMode .calibrating p

/-- A sequencer command acts by the mode (R74 to R77, R81). -/
def runCommand (c : SeqCommand) (p : Part) : Part :=
  match c with
  | .run => seqRun p
  | .once => seqOnce p
  | .stop => seqStop p
  | .calibrate => seqCalibrate p

/-- A sequencer command taken (R74): held in WARMING. -/
def takeCommand (c : SeqCommand) (p : Part) : Part :=
  if p.ms.mode = .warming then p.mapMs (fun m => { m with held := some c }) else runCommand c p

/-- The command held from WARMING acts (R74). -/
def runHeld (p : Part) : Part :=
  match p.ms.held with
  | none => p
  | some c => runCommand c (p.mapMs (fun m => { m with held := none }))

/-- The warm-up ends (R69, R74, R80). -/
def warmupEnd (p : Part) : Part := runHeld (setMode .running (beginRound (swapSequence p)))

/-! ### The ends of slots and rounds -/

/-- The end of a round in ONCE (R76). -/
def onceRoundEnd (p : Part) : Part :=
  if p.ms.onceRounds ≤ 1 then
    endCommand (setMode .stopped (p.mapMs (fun m => { m with onceRounds := 0, current := none })))
  else beginRound (p.mapMs (fun m => { m with onceRounds := m.onceRounds - 1 }))

/-- The end of a round (R71, R80, R81, R83). -/
def roundEnd (p : Part) : Part :=
  let p := reportResults p
  match p.ms.mode with
  | .running => beginRound (swapSequence p)
  | .calibrating => beginCalibration p
  | .once => onceRoundEnd p
  | .stopped => p
  | .warming => p

/-- The last slot of a sequence's range (R71). -/
def Sequence.last (q : Sequence) : Nat := if q.start ≤ q.stop then q.stop else q.start

/-- The slot being converted ends (R71); in STOPPED a SEQ_STOP completes (R77). -/
def slotEnd (p : Part) : Part :=
  match p.ms.current with
  | none => p
  | some i =>
    if p.ms.mode = .stopped then endCommand (p.mapMs (fun m => { m with current := none }))
    else if i = p.ms.active.last then roundEnd p
    else p.mapMs (fun m => { m with current := some (i + 1) })

/-! ### Calibration -/

/-- The conversion of a calibration abandoned by a reset ends (R91), with a command taken meanwhile. -/
def abandonedEnd (p : Part) : Part :=
  let p := p.mapMs (fun m => { m with calibration := none })
  match p.ms.mode with
  | .calibrating =>
    if p.ms.command = some .calibrate then beginCalibration p else setMode .running (beginRound p)
  | .running => beginRound p
  | .once => beginRound p
  | .stopped => endCommand p
  | .warming => p

/-- The sixteenth conversion (R81, R82): the correction is set and CALIBRATE completes, with the correction in the
argument (R161). -/
def calibrated (sum : Nat) (p : Part) : Part :=
  let correction := min Config.offsetMax (sum / Config.calibrationCount)
  let p := p.mapMs (fun m => { m with offset := correction, calibration := none })
  let p := if p.ms.mode = .calibrating then setMode .running (beginRound p) else p
  endCommand (p.setRequest .device { p.request .device with argument := BitVec.ofNat 8 correction })

/-- A calibration conversion completes (R81). -/
def calibrationConverted (reading : Nat) (p : Part) : Part :=
  match p.ms.calibration with
  | none => p
  | some c =>
    if c.abandoned then abandonedEnd p
    else if Config.calibrationCount ≤ c.count + 1 then calibrated (c.sum + min Config.currentMax reading) p
    else p.mapMs (fun m =>
      { m with calibration := some ⟨c.count + 1, c.sum + min Config.currentMax reading, false⟩ })

/-! ### Samples -/

/-- The latest result of the slot being converted (R83). -/
def keepResult (result : Int) (p : Part) : Part :=
  match p.ms.current with
  | none => p
  | some i => p.mapMs (fun m => { m with results := m.results.set i result })

/-- A PORT_I reading after the offset correction (R82). -/
def corrected (p : Part) (reading : Nat) : Nat := min Config.currentMax reading - p.ms.offset

/-- The trip margin as eighths of the grant: the limit is this many eighths (R2, R85). -/
def limitEighths (margin : Fin 4) : Nat := [9, 10, 12, 16].getD margin.1 16

/-- A sample strictly above the grant plus the trip margin (R85). -/
def isOver (margin : Fin 4) (grant sample : Nat) : Bool := decide (grant * limitEighths margin < sample * 8)

/-- The over-sample counter after a sample (R85). -/
def countOver (view : PortView) (grant sample count : Nat) : Nat :=
  if isOver view.margin grant sample then count + 1 else 0

/-- The over test (R85). -/
def overTest (n : Port) (sample : Nat) (p : Part) : Part :=
  let view := p.ms.views.at n
  let count := countOver view (p.port n).grant sample (p.ms.overCount.at n)
  if view.tripField.1 + 1 ≤ count then
    failPort n .overCurrent (p.mapMs (fun m => { m with overCount := m.overCount.put n 0 }))
  else p.mapMs (fun m => { m with overCount := m.overCount.put n count })

/-- Ramp done (R14). -/
def rampDone (n : Port) (p : Part) : Part :=
  if (p.port n).state = .ramp then
    setTimers n (fun t => { t with settle := some (settleMs (p.port n).plan.settle) }) (moveTo n .settle p)
  else p

/-- The ramp test (R86). -/
def rampTest (n : Port) (sample : Nat) (p : Part) : Part :=
  if (p.port n).grant < sample then p.mapMs (fun m => { m with rampCount := m.rampCount.put n 0 })
  else if 2 ≤ p.ms.rampCount.at n + 1 then
    rampDone n (p.mapMs (fun m => { m with rampCount := m.rampCount.put n 0 }))
  else p.mapMs (fun m => { m with rampCount := m.rampCount.put n (m.rampCount.at n + 1) })

/-- A sample judged by the port's state (R85, R86). -/
def judgeSample (n : Port) (sample : Nat) (p : Part) : Part :=
  if (p.port n).state = .ramp then rampTest n sample p
  else if (p.port n).state.closed then overTest n sample p
  else p

/-- A PORT_I sample (R83, R85, R86); the last one of a stopped sequencer is kept as a result alone (R77, R83). -/
def portSample (n : Port) (reading : Nat) (p : Part) : Part :=
  let sample := corrected p reading
  let p := keepResult sample p
  if p.ms.mode = .stopped then p
  else judgeSample n sample (reportPort n false (p.mapAe (fun a => { a with lastCurrent := a.lastCurrent.put n sample })))

/-- A voltage counter (R88). -/
def count3 (raised : Bool) (count : Nat) : Nat := if raised then min 3 (count + 1) else 0

/-- The recovery counter after a sample (R88). -/
def recoveryAfter (plan : DevicePlan) (step : Step) (millivolts count : Nat) : Nat :=
  match step with
  | .full => 0
  | .reduced => if plan.recover ≤ millivolts then count + 1 else 0
  | .critical => if plan.sag ≤ millivolts then count + 1 else 0

/-- The voltage step after a sample's counters (R88). -/
def stepAfter (step : Step) (belowSag belowCritical recovery : Nat) : Step :=
  match step with
  | .full => if belowCritical = 3 then .critical else if belowSag = 3 then .reduced else .full
  | .reduced => if belowCritical = 3 then .critical else if 20 ≤ recovery then .full else .reduced
  | .critical => if 20 ≤ recovery then .reduced else .critical

/-- A SOURCE_V sample judged (R88). -/
def Sequencer.judgeVoltage (plan : DevicePlan) (millivolts : Nat) (m : Sequencer) : Sequencer :=
  let belowSag := count3 (decide (millivolts < plan.sag)) m.belowSag
  let belowCritical := count3 (decide (millivolts < plan.critical)) m.belowCritical
  let recovery := recoveryAfter plan m.voltageStep millivolts m.recovery
  let step := stepAfter m.voltageStep belowSag belowCritical recovery
  { m with
    belowSag := belowSag
    belowCritical := belowCritical
    recovery := if step = m.voltageStep then recovery else 0
    voltageStep := step }

/-- A TEMP sample judged (R89). -/
def Sequencer.judgeTemperature (plan : DevicePlan) (celsius : Int) (m : Sequencer) : Sequencer :=
  { m with
    temperatureStep :=
      if plan.hot ≤ celsius then .reduced else if celsius ≤ plan.hot - 10 then .full else m.temperatureStep }

/-- A change of the MS's steps, reported for device status 1 (R41). -/
def updSteps (f : Sequencer → Sequencer) (p : Part) : Part :=
  if (f p.ms).voltageStep = p.ms.voltageStep ∧ (f p.ms).temperatureStep = p.ms.temperatureStep then p.mapMs f
  else reportDevice true (p.mapMs f)

/-- A SOURCE_V sample (R70, R83, R88). -/
def voltageSample (millivolts : Nat) (p : Part) : Part :=
  let sample := min Config.voltageMax millivolts
  let p := keepResult sample p
  if p.ms.mode = .stopped then p else updSteps (Sequencer.judgeVoltage p.bu.plan sample) p

/-- A TEMP sample (R70, R83, R89). -/
def temperatureSample (celsius : Int) (p : Part) : Part :=
  let sample := max (-40) (min 150 celsius)
  let p := keepResult sample p
  if p.ms.mode = .stopped then p else updSteps (Sequencer.judgeTemperature p.bu.plan sample) p

/-- An OFFSET slot's conversion (R70, R82). -/
def offsetSlot (reading : Nat) (p : Part) : Part := keepResult (min Config.currentMax reading : Nat) p

/-! ### Device plans -/

/-- R44. -/
def devicePlanValid (d : DevicePlan) : Bool :=
  decide (d.sourceLimit ≤ Config.ceilingMax ∧ d.reducedCeiling ≤ d.sourceLimit ∧ d.standbyCeiling ≤ d.sourceLimit) &&
  decide (d.sag ≤ Config.voltageMax ∧ d.critical ≤ Config.voltageMax ∧ d.recover ≤ Config.voltageMax) &&
  decide (d.critical < d.sag ∧ d.sag < d.recover) && decide (-30 ≤ d.hot ∧ d.hot ≤ 150)

/-- The device plan copy replaced (R44): the steps and the voltage counters stay (R90); a new ceiling is reported for
device status 2 (R42). -/
def storeDevicePlan (d : DevicePlan) (p : Part) : Part :=
  let q := p.mapBu (fun b => { b with plan := d })
  if ceiling q = ceiling p then q else reportDevice false q

/-- An APPLY_DEVICE is delivered (R44). -/
def deliverDevicePlan (d : DevicePlan) (p : Part) : Part :=
  if devicePlanValid d then complete .device .ok (storeDevicePlan d p) else complete .device .invalid p

end Sys2Proof.Machine
end

