-- ==== Sys2Proof/Machine/OrdererOps.lean ====
section
/-! DEFINITION. The memory orderer's shared operations: the AE's offer (R154, R167), grant decisions (R126, R127), grants (R121,
R151, R166), wheels (R130 to R132), and completions (R129, R134, R136, R137, R139, R141, R164, R168). -/

namespace Sys2Proof.Machine

/-! ### What is pending -/

/-- The TAKEN image of a request word is on the CP list or in flight (R154). -/
def takenImageOut (p : Part) (w : ReqWord) : Bool :=
  (match p.mo.cp with
   | some c => c.purpose == .taken w
   | none => false) ||
  (match p.mo.inFlight with
   | some (.cp c _) => c.purpose == .taken w
   | _ => false)

/-- The burst of a write-back may be offered (R154, R167). -/
def offerable (p : Part) : Target → Bool
  | .request w => !takenImageOut p w
  | _ => true

/-- The write-back a held read waits for, until it is granted (R149). -/
def heldTarget (p : Part) : Option Target :=
  match p.ptp.access with
  | some ⟨_, .waitingWriteBack t false, _⟩ => if p.ae.writeBacks.contains t then some t else none
  | _ => none

/-- The burst the AE offers (R167). -/
def aeOffer (p : Part) : Option Offer :=
  if p.ae.quiet then none
  else
    match heldTarget p, p.ae.readList with
    | some t, _ => some (.writeBack t)
    | none, s :: _ => some (.copyRead s)
    | none, [] => (p.ae.writeBacks.find? (offerable p)).map .writeBack

/-- The head class of a port's oldest access (R123). -/
def accessClass (classMap : BitVec 4) (a : LaneAccess) : HeadClass :=
  if a.cls = 0 ∨ classMap.getLsbD a.cls.1 = true then .urgent else .bulk

/-- The head class of a participant with a pending burst (R123). -/
def headClass (p : Part) : Participant → Option HeadClass
  | .cp => if p.mo.cp.isSome then some .urgent else none
  | .ae => if (aeOffer p).isSome then some .urgent else none
  | .port n => ((p.mo.lists.at n).head?).map (accessClass (p.mo.classMap.at n))

/-- Some participant has a pending burst. -/
def anyPending (p : Part) : Bool :=
  p.mo.cp.isSome || (aeOffer p).isSome || allPorts.any (fun n => !(p.mo.lists.at n).isEmpty)

/-! ### Grants -/

/-- The device status record (R172). -/
def deviceBytes (p : Part) : List Byte :=
  wordBytes (packWord [⟨0, 8, p.ae.deviceCount.toNat⟩, ⟨8, 1, p.bu.isOver.toNat⟩, ⟨9, 1, p.bu.shortfall.toNat⟩,
    ⟨10, 1, p.mrc.standby.toNat⟩, ⟨11, 1, p.mrc.adoptionTimer.isSome.toNat⟩,
    ⟨12, 1, p.mo.pendingWheel.isSome.toNat⟩, ⟨13, 1, p.ms.pending.isSome.toNat⟩, ⟨16, 2, (ceilingStep p).code⟩,
    ⟨18, 2, p.ms.voltageStep.code⟩, ⟨20, 1, p.ms.temperatureStep.code⟩, ⟨24, 3, p.ms.mode.code⟩]) ++
  wordBytes (packWord [⟨0, 16, committed p⟩, ⟨16, 16, ceiling p⟩])

/-- The content of a write-back's record as the AE holds it (R166). -/
def targetBytes (p : Part) : Target → List Byte
  | .header => headerBytes p.mrc
  | .device => deviceBytes p
  | .summary => wordBytes p.ae.summary
  | .error => wordBytes p.ae.error
  | .status n => statusBytes (p.port n) (p.ae.portCounts.at n) (p.ae.lastCurrent.at n) (p.ptp.shadows.at n)
  | .wheelCopy => wheelBytes p.mo.wheel
  | .results => resultsBytes p.ms.results p.ms.active.slots
  | .request w => completionImage (p.request w)

/-- The update count advanced and the change mark captured at the grant of a write-back (R166). -/
def captureMark (t : Target) (a : AreaEngine) : AreaEngine :=
  match t with
  | .status n => { a with portCounts := a.portCounts.put n (a.portCounts.at n + 1),
                          portMarks := a.portMarks.put n false }
  | .device => { a with deviceCount := a.deviceCount + 1, deviceMark := false }
  | _ => a

/-- The change mark of a record (R166). -/
def markOf (a : AreaEngine) : Target → Bool
  | .status n => a.portMarks.at n
  | .device => a.deviceMark
  | _ => false

/-- A held read's write-back is granted (R149). -/
def PassThrough.granted (t : Target) (x : PassThrough) : PassThrough :=
  match x.access with
  | some ⟨bus, .waitingWriteBack t' false, purpose⟩ =>
    if t' = t then { x with access := some ⟨bus, .waitingWriteBack t' true, purpose⟩ } else x
  | _ => x

def setInFlight (f : InFlight) (p : Part) : Part := p.mapMo (fun o => { o with inFlight := some f })

/-- A write-back is granted (R166): its content, count and mark are captured. -/
def grantWriteBack (t : Target) (p : Part) : Part :=
  let mark := markOf p.ae t
  let p := p.mapAe (fun a => captureMark t { a with writeBacks := a.writeBacks.erase t })
  setInFlight (.writeBack t (areaBase p + t.offset) (targetBytes p t) mark false) (p.mapPtp (PassThrough.granted t))

/-- A copy read is granted (R167). -/
def grantCopyRead (s : Source) (p : Part) : Part :=
  setInFlight (.copyRead s (areaBase p + s.offset) s.length false)
    (p.mapAe (fun a => { a with readList := a.readList.tail }))

/-- The value a CP burst carries from its grant: a merge write takes the AE's copy (R151). -/
def cpAtGrant (a : AreaEngine) (c : CpBurst) : CpBurst :=
  match c.purpose with
  | .mergeSummary => { c with value := a.summary }
  | .mergeError => { c with value := a.error }
  | .plain => c
  | .cue _ => c
  | .taken _ => c

/-- The CP burst is granted (R121). -/
def grantCp (p : Part) : Part :=
  match p.mo.cp with
  | none => p
  | some c => setInFlight (.cp (cpAtGrant p.ae c) false) (p.mapMo (fun o => { o with cp := none }))

/-- The next burst of a port's oldest access is granted; the access leaves the list with its last (R121). -/
def grantPortBurst (n : Port) (p : Part) : Part :=
  match p.mo.lists.at n with
  | [] => p
  | a :: others =>
    match a.bursts with
    | [] => p
    | (offset, length) :: rest =>
      setInFlight (.port n a offset length rest.isEmpty false)
        (p.mapMo (fun o => { o with lists := o.lists.put n
                                      (if rest.isEmpty then others else { a with bursts := rest } :: others) }))

/-- The next burst of a participant goes to memory (R127). -/
def grantBurst (who : Participant) (p : Part) : Part :=
  match who with
  | .cp => grantCp p
  | .ae =>
    match aeOffer p with
    | some (.writeBack t) => grantWriteBack t p
    | some (.copyRead s) => grantCopyRead s p
    | none => p
  | .port n => grantPortBurst n p

/-! ### Wheels -/

/-- A lane-EXPECTED port in ON, DRAIN or ORPHAN (R130). -/
def inService (r : PortRecord) : Bool :=
  (r.state == .on || r.state == .drain || r.state == .orphan) && r.laneUseNow == .expected

/-- Every port in service is named (R130, R132). -/
def namesInService (p : Part) (wheel : List Phase) : Bool :=
  allPorts.all (fun n => !inService (p.port n) || names wheel n)

/-- The phases of a wheel that hold a participant. -/
def phasesOf (wheel : List Phase) (who : Participant) : Nat := wheel.count (some who)

/-- The tests of R130 that do not depend on the ports. -/
def wheelValid (wheel : List Phase) : Bool := decide (4 ≤ phasesOf wheel .cp) && decide (1 ≤ phasesOf wheel .ae)

/-- A port waiting in SETTLE with NO_PHASE is tested again (R17, R132). -/
def retest (n : Port) (p : Part) : Part :=
  if (p.port n).state = .settle ∧ (p.port n).flags.noPhase = true then testAdmission n p else p

/-- The pending wheel is validated again, by the ports in service then (R133), and swapped in, or discarded (R132). -/
def swapWheel (p : Part) : Part :=
  match p.mo.pendingWheel with
  | none => p
  | some wheel =>
    if namesInService p wheel then
      let p := reportDevice true (queueWriteBack .wheelCopy
        (p.mapMo (fun o => { o with wheel := wheel, pendingWheel := none })))
      complete .device .ok (budgetAfter true (allPorts.foldl (fun p n => retest n p) p))
    else complete .device .unnamed (reportDevice true (p.mapMo (fun o => { o with pendingWheel := none })))

/-- A LOAD_WHEEL is delivered (R130); with nothing to grant, it is swapped in at once (R131). -/
def deliverWheel (wheel : Option (List Phase)) (p : Part) : Part :=
  match wheel with
  | none => complete .device .invalid p
  | some wheel =>
    if !wheelValid wheel then complete .device .invalid p
    else if !namesInService p wheel then complete .device .unnamed p
    else
      let q := reportDevice true (p.mapMo (fun o => { o with pendingWheel := some wheel }))
      if anyPending p then q else swapWheel q

/-! ### Grant decisions -/

/-- The first phase, from the pointer on, that names a participant with a pending burst of a class (R127); a
participant no phase names is passed over (R128). -/
def scan (p : Part) (cls : HeadClass) : Option Nat :=
  ((List.range 64).map (fun k => (p.mo.pointer + k) % 64)).find? (fun i =>
    match p.mo.wheel.getD i none with
    | some who => headClass p who == some cls
    | none => false)

/-- The phase at which the decision's passes stop (R127). -/
def stopPhase (p : Part) : Option Nat :=
  if p.mo.bulkTurn = 7 then (scan p .bulk).or (scan p .urgent) else (scan p .urgent).or (scan p .bulk)

/-- The grant at a phase; the pointer and the bulk-turn counter advance (R127). -/
def grantAt (i : Nat) (p : Part) : Part :=
  match p.mo.wheel.getD i none with
  | none => p
  | some who =>
    (grantBurst who p).mapMo (fun o => { o with pointer := (i + 1) % 64, bulkTurn := (o.bulkTurn + 1) % 8 })

/-- A pending wheel is swapped in after the grant at phase `i` when the pointer wraps (R131). -/
def swapAfter (i pointer : Nat) (p : Part) : Part := if i < pointer ∨ i = 63 then swapWheel p else p

/-- A grant decision of the MO, when the memory port is free (R126, R127). -/
def moDecision (p : Part) : Part :=
  match p.mo.inFlight with
  | some _ => p
  | none =>
    match stopPhase p with
    | none => p
    | some i => swapAfter i p.mo.pointer (grantAt i p)

/-- A pending wheel is swapped in when nothing is left to grant (R131): the last pending burst has been granted, or removed
(R134, R136, R137). What the swap gives the AE to write is then offered, and with the memory port free it starts a grant
decision (R126). -/
def idleSwap (p : Part) : Part := if anyPending p then p else moDecision (swapWheel p)

/-! ### Completions -/

/-- The bytes a CP burst enables: all four for a merge write (R151). -/
def carriedEnables (b : BusAccess) : CpPurpose → BitVec 4
  | .mergeSummary => 15#4
  | .mergeError => 15#4
  | .plain => b.enables
  | .cue _ => b.enables
  | .taken _ => b.enables

/-- The value a CP burst is given: the TAKEN image for a request taken (R153). -/
def carriedValue (b : BusAccess) : CpPurpose → Word
  | .taken _ => takenImage b.value
  | .plain => b.value
  | .cue _ => b.value
  | .mergeSummary => b.value
  | .mergeError => b.value

/-- The CP burst of an access (R121). -/
def cpBurstOf (a : Access) : CpBurst where
  write := a.bus.write
  address := wordAddress a.bus.address
  enables := carriedEnables a.bus a.purpose
  value := carriedValue a.bus a.purpose
  purpose := a.purpose

/-- The access in progress goes to the CP list (R144, R148, R149). -/
def carry (p : Part) : Part :=
  match p.ptp.access with
  | none => p
  | some a =>
    (p.mapPtp (fun t => { t with access := some { a with stage := .carried } })).mapMo
      (fun o => { o with cp := some (cpBurstOf a) })

/-- The controller access is answered (R144, R145): the access in progress becomes absent, the hold timer stops. -/
def answerBus (answer : BusAnswer) (p : Part) : Part :=
  p.mapPtp (fun t => { t with access := none, holdTimer := none, answer := some answer })

/-- The answer of a CP burst (R144). -/
def cpAnswer (c : CpBurst) (fault : Bool) (word : List Byte) : BusAnswer where
  error := fault
  data :=
    if c.write then []
    else (enabledBytes c.enables).map (fun i => if fault then 0xFF else word.getD i 0)

/-- A CP burst completes (R129, R134, R156); `word` is what a read returned. -/
def cpDone (c : CpBurst) (fault : Bool) (word : List Byte) (p : Part) : Part :=
  let p := answerBus (cpAnswer c fault word) p
  if fault then reportError .memFaultCp p
  else
    match c.purpose with
    | .cue n => cueLanded n c.value p
    | _ => p

/-- The summary bits a landed write-back sets (R164, R168). -/
def landedBits (t : Target) (mark : Bool) (p : Part) : Part :=
  match t with
  | .status n => if mark then setSummary (portChangedMask n) p else p
  | .device => if mark then setSummary deviceChangedMask p else p
  | .request .device => setSummary deviceChangedMask (p.setRequest .device { p.request .device with taken := false, completion := none })
  | .request (.port n) => setSummary (portChangedMask n) (p.setRequest (.port n) { p.request (.port n) with taken := false, completion := none })
  | _ => p

/-- A held read goes to memory at the completion of the write-back it waited for (R149). -/
def releaseRead (p : Part) : Part :=
  match p.ptp.access with
  | some ⟨_, .waitingWriteBack _ true, _⟩ => carry p
  | _ => p

/-- A write-back completes (R129, R134, R135, R164). -/
def writeBackDone (t : Target) (mark fault : Bool) (p : Part) : Part :=
  let p := if fault then reportError .memFaultAe p else p
  releaseRead (landedBits t mark p)

/-- A held write goes to memory at the completion of the copy read that protected its word (R148). -/
def releaseWrite (s : Source) (p : Part) : Part :=
  match p.ptp.access with
  | some ⟨_, .waitingCopy s', _⟩ => if s' = s then carry p else p
  | _ => p

/-- The copied record goes to the block that takes the request (R33, R44, R79, R130, R162, R167). -/
def deliver (s : Source) (bytes : List Byte) (p : Part) : Part :=
  match s with
  | .devicePlan => event (deliverDevicePlan (readDevicePlan bytes)) p
  | .wheelImage => deliverWheel (readWheel bytes) p
  | .sequencePlan => deliverSequence (readSequence bytes) p
  | .plan n => event (deliverApply n (readPlan bytes)) p

/-- A copy read completes (R134, R148, R167). The held write joins the CP list before the MO takes the copy, so behind it a
pending wheel is not swapped in at once (the model's choice, log entry 49). -/
def copyReadDone (s : Source) (fault : Bool) (bytes : List Byte) (p : Part) : Part :=
  let p := releaseWrite s p
  if fault then complete s.word .memFault p else deliver s bytes p

/-- A run of window offsets holds one of the bytes 4 to 7 (R139). -/
def coversMark (offset length : Nat) : Bool := decide (offset ≤ 7 ∧ 4 < offset + length)

/-- The MARK test at the completion of a PUT's last burst (R139). -/
def markTest (n : Port) (a : LaneAccess) (faulted : Bool) (p : Part) : Part :=
  if coversMark a.offset a.length && !faulted then setSummary (markMask n) p else p

/-- A burst of a port's access that is not its last has completed: what the list's oldest access keeps of it (R129,
R134). -/
def LaneAccess.after (offset length : Nat) (fault : Bool) (data : List Byte) (a : LaneAccess) : LaneAccess :=
  { a with
    gathered := if a.kind = .get then a.gathered ++ data else a.gathered
    faulted := a.faulted || fault
    markFault := a.markFault || (fault && coversMark offset length) }

/-- The answer of an accepted access (R100). -/
def accessAnswer (a : LaneAccess) : Answer where
  kind := a.kind
  tag := a.tag
  status := if a.faulted then .memFault else .ok
  data := if a.kind = .get ∧ a.faulted = false then a.gathered else []

/-- A port's burst completes (R129, R134, R136, R139); `data` is what it read or carried. -/
def portBurstDone (n : Port) (a : LaneAccess) (offset length : Nat) (last discard fault : Bool) (data : List Byte)
    (p : Part) : Part :=
  let a' := a.after offset length fault data
  let p := if last && a.kind == .put then markTest n a a'.markFault p else p
  if discard then p
  else if last then event (accessDone n (accessAnswer a')) p
  else
    match p.mo.lists.at n with
    | [] => p
    | head :: others =>
      if fault && a.kind == .get then
        event (accessDone n (accessAnswer a')) (p.mapMo (fun o => { o with lists := o.lists.put n others }))
      else p.mapMo (fun o => { o with lists := o.lists.put n (head.after offset length fault data :: others) })

/-- The result of the burst in flight goes to its owner (R129, R137, R141); `data` is what it read or carried. -/
def burstDone (f : InFlight) (fault : Bool) (data : List Byte) (p : Part) : Part :=
  match f with
  | .cp c discard => if discard then p else cpDone c fault data p
  | .writeBack t _ _ mark discard => if discard then p else writeBackDone t mark fault p
  | .copyRead s _ _ discard => if discard then p else copyReadDone s fault data p
  | .port n a offset length last discard => portBurstDone n a offset length last discard fault data p

/-! ### After every command -/

/-- The adoption timer stops when no orphan is left with its adopted mark clear (R190). -/
def adoptSweep (p : Part) : Part :=
  if p.mrc.adoptionTimer.isSome && !allPorts.any (fun n => (p.port n).state == .orphan && !(p.port n).adopted) then
    reportDevice true (p.mapMrc (fun m => { m with adoptionTimer := none }))
  else p

/-- The end of every command: the adoption timer, a grant decision if the memory port is free, and the swap of a wheel that
waits with nothing to grant, which can start a grant decision of its own (R126, R131, R190). -/
def settle (p : Part) : Part := idleSwap (moDecision (adoptSweep p))

end Sys2Proof.Machine
end

