-- ==== Sys2Proof/Machine/PassOps.lean ====
section
/-! DEFINITION. The pass-through port's shared operations: accesses arriving and their classes (R142 to R144, R146, R147), holds
(R148, R149), dropped writes (R150, R153), merge writes (R151), requests taken (R153, R155), the hold limit (R145). -/

namespace Sys2Proof.Machine

/-! ### Classes of accesses -/

/-- The byte offset from the area base of an access inside the Control Area (R143 case 1). -/
def areaOffset (p : Part) (address : Addr) : Option Nat :=
  if areaBase p ≤ wordAddress address ∧ wordAddress address < areaBase p + Config.areaBytes then
    some (wordAddress address - areaBase p)
  else none

/-- The port whose cue word a word is (R143 case 2). -/
def cuePort (p : Part) (address : Addr) : Option Port :=
  allPorts.find? (fun n => (p.ptp.windows.at n).size != 0 && (p.ptp.windows.at n).base == wordAddress address)

/-- The address of the word at an offset of the Control Area. -/
def areaAddress (p : Part) (offset : Nat) : Addr := BitVec.ofNat 24 (areaBase p + offset)

/-! ### Accesses -/

/-- The access in progress is created and the hold timer starts (R142, R143). -/
def startAccess (b : BusAccess) (stage : Stage) (purpose : CpPurpose) (p : Part) : Part :=
  p.mapPtp (fun t => { t with access := some ⟨b, stage, purpose⟩, holdTimer := some Config.holdUs, answer := none })

/-- An access carried at its arrival (R144). -/
def carryAccess (b : BusAccess) (purpose : CpPurpose) (p : Part) : Part := carry (startAccess b .carried purpose p)

/-- An access answered with completion at its arrival, carried nowhere (R150, R153). -/
def answerAtOnce (p : Part) : Part := answerBus ⟨false, []⟩ p

/-- A copy read holds this record protected (R148). -/
def protectedNow (p : Part) (s : Source) : Bool :=
  p.ae.readList.contains s ||
  (match p.mo.inFlight with
   | some (.copyRead s' _ _ false) => s' == s
   | _ => false)

/-- A write of a host-owned word: carried, or held while the word is protected (R147, R148). -/
def hostWrite (b : BusAccess) (offset : Nat) (p : Part) : Part :=
  match sourceOf offset with
  | none => carryAccess b .plain p
  | some s => if protectedNow p s then startAccess b (.waitingCopy s) .plain p else carryAccess b .plain p

/-- A pending write-back moved to the front of its list (R149). -/
def moveToFront (t : Target) (p : Part) : Part :=
  p.mapAe (fun a => { a with writeBacks := t :: a.writeBacks.erase t })

/-- A read of a part-owned or merge word: carried, or held while its record's write-back is pending (R149). -/
def statusRead (b : BusAccess) (record : Target) (p : Part) : Part :=
  if p.ae.writeBacks.contains record then
    startAccess b (.waitingWriteBack record false) .plain (moveToFront record p)
  else carryAccess b .plain p

/-- A write of a part-owned word (R150). -/
def strayWrite (p : Part) : Part := reportError .stray (answerAtOnce p)

/-! ### Merge words -/

/-- A copy with the bits written as 1 in the bytes enabled cleared (R151). -/
def cleared (copy : Word) (b : BusAccess) : Word := copy &&& ~~~(b.value &&& enabledMask b.enables)

/-- The merge clear of the summary copy (R151, R164). -/
def clearSummary (b : BusAccess) (p : Part) : Part :=
  p.mapAe (fun a => { a with summary := cleared a.summary b })

/-- Bit 25 of the summary copy cleared as the error copy becomes zero (R164). -/
def dropErrorBit (p : Part) : Part :=
  if p.ae.error = 0 ∧ p.ae.summary &&& errorMask ≠ 0 then
    queueWriteBack .summary (p.mapAe (fun a => { a with summary := a.summary &&& ~~~errorMask }))
  else p

/-- The merge clear of the error copy (R151, R164). -/
def clearError (b : BusAccess) (p : Part) : Part :=
  dropErrorBit (p.mapAe (fun a => { a with error := cleared a.error b }))

/-- A write of a merge word (R151). -/
def mergeWrite (b : BusAccess) (record : Target) (p : Part) : Part :=
  match record with
  | .error => carryAccess b .mergeError (clearError b p)
  | _ => carryAccess b .mergeSummary (clearSummary b p)

/-! ### Request words -/

/-- A copy read joins the read list (R155, R167). -/
def startCopy (s : Source) (p : Part) : Part := p.mapAe (fun a => { a with readList := a.readList ++ [s] })

/-- The port a request word belongs to; the device command word's is never asked. -/
def wordPort : ReqWord → Port
  | .device => 0
  | .port n => n

/-- The work of a taken request (R155, R162). -/
def startWork (w : ReqWord) (code : Byte) (p : Part) : Part :=
  match requestCode w code.toNat with
  | some .applyDevice => startCopy .devicePlan p
  | some .loadWheel => startCopy .wheelImage p
  | some .loadSequence => startCopy .sequencePlan p
  | some (.sequencer c) => takeCommand c p
  | some .softReset => p.mapMrc (fun m => { m with softReset := true })
  | some .apply => startCopy (.plan (wordPort w)) p
  | some .clear => event (clearRequest (wordPort w)) p
  | some .restart => event (restartRequest (wordPort w)) p
  | none => complete w .invalid p

/-- The request state at a take (R154). -/
def takenState (value : Word) : Request := ⟨true, wordByte value 0, wordByte value 1, none⟩

/-- The write of a taken request: answered at once for SOFT_RESET, carried as the TAKEN image otherwise (R153). -/
def takenWrite (b : BusAccess) (w : ReqWord) (p : Part) : Part :=
  if requestCode w (wordByte b.value 0).toNat = some .softReset then answerAtOnce p else carryAccess b (.taken w) p

/-- A write of a request word (R153): dropped as PARTIAL or CMD_BUSY, or taken. -/
def requestWrite (b : BusAccess) (w : ReqWord) (p : Part) : Part :=
  if !fullWord b.enables then reportError .partialWrite (answerAtOnce p)
  else if (p.request w).taken then reportError .cmdBusy (answerAtOnce p)
  else startWork w (wordByte b.value 0) (takenWrite b w (p.setRequest w (takenState b.value)))

/-! ### Arrival -/

/-- An access inside the Control Area, by the class of its word (R146). -/
def arriveInArea (b : BusAccess) (offset : Nat) (p : Part) : Part :=
  match wordClass offset, b.write with
  | .hostOwned, false => carryAccess b .plain p
  | .hostOwned, true => hostWrite b offset p
  | .partOwned record, false => statusRead b record p
  | .partOwned _, true => strayWrite p
  | .merge record, false => statusRead b record p
  | .merge record, true => mergeWrite b record p
  | .request _, false => carryAccess b .plain p
  | .request w, true => requestWrite b w p

/-- An access outside the Control Area: a cue write or plain (R143, R156). -/
def arriveOutside (b : BusAccess) (p : Part) : Part :=
  if b.write && fullWord b.enables then
    match cuePort p b.address with
    | some n => carryAccess b (.cue n) p
    | none => carryAccess b .plain p
  else carryAccess b .plain p

/-- An access arrives and is classified (R143). -/
def arrive (b : BusAccess) (p : Part) : Part :=
  match areaOffset p b.address with
  | some offset => arriveInArea b offset p
  | none => arriveOutside b p

/-- The controller puts an access on the bus: it arrives, or in a reset hold it is presented (R181, R183). -/
def present (b : BusAccess) (p : Part) : Part :=
  if p.inHold then p.mapPtp (fun t => { t with presented := some b }) else arrive b p

/-- The bus can take the access: 1, 2 or 4 bytes, and none is in progress or presented (R143). -/
def busFree (b : BusAccess) (p : Part) : Bool :=
  legalEnables b.enables && p.ptp.access.isNone && p.ptp.presented.isNone

/-- An access presented during a reset hold arrives at its end (R181, R183). -/
def arrivePresented (p : Part) : Part :=
  match p.ptp.presented with
  | none => p
  | some b => arrive b (p.mapPtp (fun t => { t with presented := none }))

/-! ### The hold limit -/

/-- The CP access withdrawn: off the CP list, or its completion to be discarded (R137, R138). -/
def withdrawCp (p : Part) : Part :=
  p.mapMo (fun o =>
    { o with
      cp := none
      inFlight :=
        match o.inFlight with
        | some (.cp c _) => some (.cp c true)
        | f => f })

/-- The bytes of an access ended with bus error: a read returns all ones (R145). -/
def errorAnswer (b : BusAccess) : BusAnswer where
  error := true
  data := if b.write then [] else (enabledBytes b.enables).map (fun _ => 0xFF#8)

/-- The hold timer expires (R145). -/
def holdExpired (p : Part) : Part :=
  match p.ptp.access with
  | none => p
  | some a =>
    let q := reportError .holdExpired (answerBus (errorAnswer a.bus) p)
    match a.stage with
    | .carried => withdrawCp q
    | .waitingCopy _ => q
    | .waitingWriteBack _ _ => q

end Sys2Proof.Machine
end

