-- ==== Sys2Proof/Machine/Completion.lean ====
section
/-! DEFINITION. A command on the part, and the completion of the burst in flight at the memory (R120, R129, R134). -/

namespace Sys2Proof.Machine

/-- What a command answers. -/
abbrev Answered := Host.Outcome State Fault Refusal

/-- A command whose event takes place when `can` holds of the part; an event that cannot take place leaves the state
as it is (log entry 7). -/
def onPart (can : Part → Bool) (f : Part → Part) (s : State) : Answered :=
  if can s.part then .next { s with part := settle (f s.part) } else .next s

/-- The cells a CP write burst addresses, with the bytes it carries. -/
def CpBurst.cells (c : CpBurst) : List Host.Cell :=
  if c.write then (enabledBytes c.enables).map (fun i => (c.address + i, wordByte c.value i)) else []

/-- A PUT burst's share of the PUT's data (R120). -/
def putShare (a : LaneAccess) (offset length : Nat) : List Byte := (a.data.drop (offset - a.offset)).take length

/-- The first byte a burst addresses (R119, R160). -/
def InFlight.address : InFlight → Nat
  | .cp c _ => c.address
  | .writeBack _ address _ _ _ => address
  | .copyRead _ address _ _ => address
  | .port _ a offset _ _ _ => a.base + offset

/-- The number of bytes of a burst. -/
def InFlight.length : InFlight → Nat
  | .cp _ _ => 4
  | .writeBack _ _ bytes _ _ => bytes.length
  | .copyRead _ _ length _ => length
  | .port _ _ _ length _ _ => length

/-- The cells a burst writes; none for a read. -/
def InFlight.cells : InFlight → List Host.Cell
  | .cp c _ => c.cells
  | .writeBack _ address bytes _ _ => layBytes address bytes
  | .copyRead _ _ _ _ => []
  | .port _ a offset length _ _ =>
    match a.kind with
    | .put => layBytes (a.base + offset) (putShare a offset length)
    | .get => []

/-- The cells as a completed burst leaves them: a fault leaves the bytes the memory is left with (R134); a byte
that `left` does not reach keeps its value. -/
def cellsLeft (fault : Bool) (left : List Byte) (cells : List Host.Cell) : List Host.Cell :=
  if fault then List.zipWith (fun c b => (c.1, b)) cells left else cells

/-- The memory when the burst in flight has completed. -/
def memoryAfter (f : InFlight) (fault : Bool) (left : List Byte) (m : Memory) : Memory :=
  m.writeAll (cellsLeft fault left f.cells)

/-- The burst has a byte outside the memory. -/
def InFlight.outside (f : InFlight) : Bool := decide (Config.memoryBytes < f.address + f.length)

/-- The memory port is free again and the burst's result goes to its owner (R126, R129). -/
def afterBurst (f : InFlight) (fault : Bool) (data : List Byte) (p : Part) : Part :=
  settle (burstDone f fault data (p.mapMo (fun o => { o with inFlight := none })))

/-- The burst in flight completes (R129). -/
def completeBurst (f : InFlight) (fault : Bool) (left : List Byte) (s : State) : Answered :=
  if f.outside then .fault .outsideMemory
  else .next { s with
    mem := memoryAfter f fault left s.mem
    part := afterBurst f fault (s.mem.readBytes f.address f.length) s.part }

end Sys2Proof.Machine
end

