-- ==== Sys2Proof/Machine/Accesses.lean ====
section
/-! DEFINITION. Meanings: accesses on the controller bus (R143 to R156), and the hold limit (R145). Every access is classified by its
address and direction (R143, R146), whatever row names it (log entry 8). -/

namespace Sys2Proof.Machine

/-- A controller access put on the bus (R143). -/
def access (b : BusAccess) (s : State) : Answered := onPart (busFree b) (present b) s

/-- A read or write of the word at an offset of the Control Area. -/
def areaAccess (write : Bool) (offset : Nat) (enables : BitVec 4) (value : Word) (s : State) : Answered :=
  access ⟨write, areaAddress s.part offset, enables, value⟩ s

/-- A full-word write of a request word. -/
def requestAccess (w : ReqWord) (value : Word) (s : State) : Answered :=
  areaAccess true (requestOffset w) 15#4 value s

/-- PLAIN_ACCESS (R144, R147). -/
def execPlainAccess (write : Bool) (address : Addr) (enables : BitVec 4) (value : Word) (s : State) : Answered :=
  access ⟨write, address, enables, value⟩ s

/-- CUE_WORD_WRITE (R143, R156): a full word. -/
def execCueWordWrite (address : Addr) (value : Word) (s : State) : Answered :=
  access ⟨true, address, 15#4, value⟩ s

/-- HOST_OWNED_WRITE (R147, R148). -/
def execHostOwnedWrite (offset : BitVec 12) (enables : BitVec 4) (value : Word) (s : State) : Answered :=
  areaAccess true offset.toNat enables value s

/-- PART_OWNED_READ (R149). -/
def execPartOwnedRead (offset : BitVec 12) (enables : BitVec 4) (s : State) : Answered :=
  areaAccess false offset.toNat enables 0 s

/-- PART_OWNED_WRITE (R150). -/
def execPartOwnedWrite (offset : BitVec 12) (enables : BitVec 4) (value : Word) (s : State) : Answered :=
  areaAccess true offset.toNat enables value s

/-- SUMMARY_WORD_WRITE (R151). -/
def execSummaryWordWrite (enables : BitVec 4) (value : Word) (s : State) : Answered :=
  areaAccess true Target.summary.offset enables value s

/-- ERROR_WORD_WRITE (R151, R164). -/
def execErrorWordWrite (enables : BitVec 4) (value : Word) (s : State) : Answered :=
  areaAccess true Target.error.offset enables value s

/-- PARTIAL_REQUEST_WRITE (R153 case 1). -/
def execPartialRequestWrite (w : ReqWord) (enables : BitVec 4) (value : Word) (s : State) : Answered :=
  areaAccess true (requestOffset w) enables value s

/-- BUSY_REQUEST_WRITE (R153 case 2). -/
def execBusyRequestWrite (w : ReqWord) (value : Word) (s : State) : Answered := requestAccess w value s

/-- HOLD_TIMER_EXPIRY (R145). -/
def execHoldTimerExpiry (s : State) : Answered := onPart (fun p => p.ptp.holdTimer.isSome) holdExpired s

end Sys2Proof.Machine
end

