-- ==== Sys2Proof/Machine/Bursts.lean ====
section
/-! DEFINITION. Meanings: MEMORY_BURST_COMPLETE and COPY_READ_COMPLETE (R129, R134, R167). -/

namespace Sys2Proof.Machine

/-- MEMORY_BURST_COMPLETE (R129, R134): the burst in flight, whatever its kind, completes. -/
def execMemoryBurstComplete (fault : Bool) (left : List Byte) (s : State) : Answered :=
  match s.part.mo.inFlight with
  | none => .next s
  | some f => completeBurst f fault left s

/-- COPY_READ_COMPLETE (R129, R167): the burst in flight, a copy read, completes. -/
def execCopyReadComplete (fault : Bool) (s : State) : Answered :=
  match s.part.mo.inFlight with
  | some (.copyRead source address length discard) =>
    completeBurst (.copyRead source address length discard) fault [] s
  | _ => .next s

end Sys2Proof.Machine
end

