-- ==== Sys2Proof/Machine/Conversions.lean ====
section
/-! DEFINITION. Meanings: the conversions of the monitor sequencer (R70, R71, R81 to R89). -/

namespace Sys2Proof.Machine

/-- The converter is at a slot of this kind (R71). -/
def converts (kind : SlotKind) (p : Part) : Bool := p.ms.converting == some kind

/-- PORT_I_SAMPLE (R82, R83, R85, R86). -/
def execPortISample (n : Port) (reading : Nat) (s : State) : Answered :=
  onPart (converts (.portI n)) (fun p => slotEnd (event (portSample n reading) p)) s

/-- SOURCE_V_SAMPLE (R70, R88). -/
def execSourceVSample (millivolts : Nat) (s : State) : Answered :=
  onPart (converts .sourceV) (fun p => slotEnd (event (voltageSample millivolts) p)) s

/-- TEMP_SAMPLE (R70, R89). -/
def execTempSample (celsius : Int) (s : State) : Answered :=
  onPart (converts .temp) (fun p => slotEnd (event (temperatureSample celsius) p)) s

/-- OFFSET_SAMPLE (R70, R82). -/
def execOffsetSample (reading : Nat) (s : State) : Answered :=
  onPart (converts .offset) (fun p => slotEnd (offsetSlot reading p)) s

/-- NONE_SLOT (R70, R83). -/
def execNoneSlot (s : State) : Answered := onPart (converts .none) (fun p => slotEnd (keepResult 0 p)) s

/-- A calibration conversion is in progress (R81). -/
def calibrates (p : Part) : Bool := p.ms.calibration.isSome

/-- CALIBRATION_CONVERSION (R81, R82). -/
def execCalibrationConversion (reading : Nat) (s : State) : Answered :=
  onPart calibrates (calibrationConverted reading) s

end Sys2Proof.Machine
end

