-- ==== Sys2Proof/Machine/LaneFrames.lean ====
section
/-! DEFINITION. Meanings: frames received on a lane (R93, R96, R98, R110, R113), the ends of sendings (R101, R103, R106) and the
lane timers (R107, R108). -/

namespace Sys2Proof.Machine

/-- The lane takes frames: it is not IDLE (R93). -/
def laneHears (n : Port) (p : Part) : Bool := (p.lane n).mode != .idle

/-- HELLO_FRAME (R96, R110, R111). -/
def execHelloFrame (n : Port) (identity : Identity) (s : State) : Answered :=
  onPart (laneHears n) (event (takeFrame n (.hello identity))) s

/-- PUT_FRAME (R98). -/
def execPutFrame (n : Port) (tag cls : Fin 4) (offset : BitVec 24) (data : List Byte) (s : State) : Answered :=
  onPart (laneHears n) (takeFrame n (.put tag cls offset data)) s

/-- GET_FRAME (R98). -/
def execGetFrame (n : Port) (tag cls : Fin 4) (offset : BitVec 24) (length : BitVec 16) (s : State) : Answered :=
  onPart (laneHears n) (takeFrame n (.get tag cls offset length)) s

/-- KEEP_FRAME (R96). -/
def execKeepFrame (n : Port) (s : State) : Answered := onPart (laneHears n) (takeFrame n .keep) s

/-- LEAVE_FRAME (R25, R113). -/
def execLeaveFrame (n : Port) (s : State) : Answered := onPart (laneHears n) (event (takeFrame n .leave)) s

/-- BAD_FRAME (R93, R177): the bytes are judged; those of a good frame are that frame. -/
def execBadFrame (n : Port) (bytes : List Byte) (s : State) : Answered :=
  onPart (laneHears n) (event (takeBytes n bytes)) s

/-- OPEN_SENT (R106). -/
def execOpenSent (n : Port) (s : State) : Answered :=
  onPart (fun p => (p.lane n).sendsOpen)
    (fun p => updLane n (Lane.openSent (decide ((p.port n).state = .on))) p) s

/-- The answer sent ends its sending (R101). -/
def answerEnds (n : Port) (p : Part) : Part :=
  match (p.lane n).sentAnswer with
  | none => p
  | some a => event (answerSent n a) p

/-- ANSWER_SENT (R101, R103). -/
def execAnswerSent (n : Port) (s : State) : Answered :=
  onPart (fun p => (p.lane n).sentAnswer.isSome) (answerEnds n) s

/-- FRAME_SENT (R103, R107). -/
def execFrameSent (n : Port) (s : State) : Answered :=
  onPart (fun p => (p.lane n).sendsOther) (updLane n Lane.sendingEnds) s

/-- KEEP_TIMER_EXPIRY (R107). -/
def execKeepTimerExpiry (n : Port) (s : State) : Answered :=
  onPart (fun p => (p.lane n).keepTimer.isSome) (updLane n Lane.keepExpired) s

/-- SILENCE_TIMER_EXPIRY (R24, R108). -/
def execSilenceTimerExpiry (n : Port) (s : State) : Answered :=
  onPart (fun p => (p.lane n).silenceTimer.isSome) (event (silenceExpired n)) s

end Sys2Proof.Machine
end

