-- ==== Sys2Proof/Machine/ResetOps.lean ====
section
/-! DEFINITION. Resets (R178 to R186), standby (R191 to R194), presence loss (R9) and adoption expiry (R190). -/

namespace Sys2Proof.Machine

/-- An operation made for every port, A0 first. -/
def forPorts (f : Port → Part → Part) (p : Part) : Part := allPorts.foldl (fun p n => f n p) p

/-! ### Standby -/

/-- A port starting up goes to PARKED; its deferred request is applied there (R36, R191). -/
def parkStarting (n : Port) (p : Part) : Part := applyDeferred n (moveTo n .parked p)

/-- Standby entry at one port (R191). -/
def standbyPort (n : Port) (p : Part) : Part :=
  match (p.port n).state with
  | .on => standbyOn n p
  | .queued => moveTo n .parked p
  | .probe => parkStarting n p
  | .ramp => parkStarting n p
  | .settle => parkStarting n p
  | .restartWait => moveTo n .parked p
  | _ => p

def setStandby (on : Bool) (p : Part) : Part := reportDevice true (p.mapMrc (fun m => { m with standby := on }))

/-- Standby entry (R191); the ports in number order, with one budget step at the end (deduced, log entry 20). -/
def standbyEntered (p : Part) : Part := event (fun p => forPorts standbyPort (setStandby true p)) p

/-- Standby exit at one port that is not parked: KEPT is cleared, and a drain for standby is retargeted (R193). -/
def unkeepPort (n : Port) (p : Part) : Part :=
  updPort n (fun r =>
    { r with
      flags := { r.flags with kept := false }
      drain := r.drain.map (fun d =>
        if d.reason = .standby then { d with dest := if r.plan.mode = .off then .off else .queued } else d) }) p

/-- The parked ports by priority, highest first, and within one priority by number (R193). -/
def parkedPorts (p : Part) : List Port :=
  sortBy (fun a b => decide ((p.port b).plan.priority ≤ (p.port a).plan.priority))
    (allPorts.filter (fun n => (p.port n).state == .parked))

/-- Standby exit (R193): each parked port queued is followed by a grant decision. KEPT and the drains come first (deduced, log
entry 20). -/
def standbyExited (p : Part) : Part :=
  event (fun p =>
    let p := forPorts unkeepPort (setStandby false p)
    (parkedPorts p).foldl (fun p n => event (toQueued n) p) p) p

/-- The MRC takes STBY: it runs, or is in a ride-through hold (R181, R183, R194). -/
def takesStby (p : Part) : Bool := p.mrc.phase == .running || p.mrc.phase == .holdRideThrough

/-- STBY sampled at the end of a reset (R194). -/
def sampleStby (p : Part) : Part := if p.mrc.stby then standbyEntered p else p

/-! ### Presence -/

/-- Presence loss outside EMPTY, at the port record (R9 steps 4 and 5). -/
def PortRecord.unplug (r : PortRecord) : PortRecord :=
  { r with identity := none, pendingCue := none, cause := none, restartCount := 0, flags := clearFlags }

/-- A deferred request at presence loss (R9 step 6, R36): stored, and completed DONE. -/
def storeDeferred (n : Port) (p : Part) : Part :=
  match (p.port n).deferred with
  | none => p
  | some plan => complete (.port n) .ok (storePlan n plan (takeDeferred n p))

/-- Presence loss outside EMPTY (R9). -/
def unplugPort (n : Port) (p : Part) : Part :=
  storeDeferred n (handOver n (updPort n PortRecord.unplug (moveTo n .empty p)))

/-- Presence loss (R9). -/
def presenceLost (n : Port) (p : Part) : Part :=
  let p := p.mapMrc (fun m => { m with present := m.present.put n false })
  if (p.port n).state = .empty then setTimers n (fun t => { t with debouncer := none }) p
  else event (unplugPort n) p

/-- The debouncer starts (R8). -/
def startDebouncer (n : Port) (p : Part) : Part :=
  setTimers n (fun t => { t with debouncer := some Config.debounceMs }) p

/-- The debouncers run (R181, R183). -/
def debouncing (p : Part) : Bool := p.mrc.phase == .running || p.mrc.phase == .holdRideThrough

/-- A presence input asserts (R8). -/
def presenceAsserted (n : Port) (p : Part) : Part :=
  let p := p.mapMrc (fun m => { m with present := m.present.put n true })
  if debouncing p && (p.port n).state == .empty then startDebouncer n p else p

/-- An arrival (R8). -/
def arrived (n : Port) (p : Part) : Part :=
  if (p.port n).plan.mode = .off then moveTo n .off p
  else toQueued n (setFlags n (fun f => { f with left := false }) p)

/-- The debouncers start at the end of a reset, for the accessories already plugged in (R4, R181). -/
def startDebouncers (p : Part) : Part :=
  forPorts (fun n p => if p.mrc.present.at n then startDebouncer n p else p) p

/-! ### The end of a reset -/

/-- The first writes (R169). -/
def firstWriteList : List Target :=
  [.header, .device, .summary, .error] ++ allPorts.map .status ++ [.wheelCopy, .results]

/-- The AE at the end of a reset (R164, R169): the device changed bit is set and the first writes are placed. -/
def firstWrites (p : Part) : Part :=
  p.mapAe (fun a =>
    { a with quiet := false, summary := a.summary ||| deviceChangedMask, writeBacks := firstWriteList })

/-- The straps latched (R178). -/
def latch (straps : Straps) (p : Part) : Part := p.mapMrc (fun m => { m with straps := straps })

def setPhase (phase : ResetPhase) (p : Part) : Part := p.mapMrc (fun m => { m with phase := phase })

/-- The plan copy stored at the end of a reset in every port record (R4, R181): every port is in EMPTY then. -/
def placeDefault (n : Port) (p : Part) : Part :=
  if (p.port n).state = .empty then p.setPort n { p.port n with plan := defaultPlan p.mrc.straps.auto } else p

/-- The end of power-on reset and of a reset with RTE low (R180, R181, R194). -/
def endPlainReset (p : Part) : Part :=
  arrivePresented (sampleStby (firstWrites (startDebouncers (setPhase .running (forPorts placeDefault p)))))

/-! ### A reset with RTE low -/

/-- The MRC at the take of a reset (R179, R181, R182, R190). -/
def ModeReset.taken (cause : ResetCause) (rideThrough : Bool) (m : ModeReset) : ModeReset :=
  { m with
    phase := if rideThrough then .holdRideThrough else .holdRteLow
    cause := cause
    resetCount := m.resetCount + 1
    rideThrough := rideThrough
    standby := if rideThrough then m.standby else false
    adoptionTimer := none
    softReset := false }

/-- The MS after a reset with RTE low (R69, R91). -/
def Sequencer.resetLow (m : Sequencer) : Sequencer :=
  if m.mode = .warming then resetSequencer
  else { resetSequencer with mode := .running, current := some defaultSequence.start }

/-- The completion of the burst in flight will be discarded (R141). -/
def InFlight.discarded : InFlight → InFlight
  | .cp c _ => .cp c true
  | .writeBack t address bytes mark _ => .writeBack t address bytes mark true
  | .copyRead s address length _ => .copyRead s address length true
  | .port n a offset length last _ => .port n a offset length last true

/-- The completion of a CP or AE burst in flight will be discarded; a port's goes on (R141). -/
def InFlight.withdrawn : InFlight → InFlight
  | .port n a offset length last discard => .port n a offset length last discard
  | f => f.discarded

/-- The AE at the take of a reset (R169). -/
def AreaEngine.taken (a : AreaEngine) : AreaEngine :=
  { resetAreaEngine with
    portCounts := a.portCounts, deviceCount := a.deviceCount, lastCurrent := a.lastCurrent }

/-- The take of a reset with RTE low (R181). It sets no change mark, also where it changes the sequencer's mode (the model's
choice, log entry 47). -/
def takeLowReset (cause : ResetCause) (p : Part) : Part where
  ports := p.ports.map (fun r => resetRecord r.plan)
  bu := resetBudget
  ms := p.ms.resetLow
  lanes := PerPort.all resetLane
  mo := { resetOrderer with inFlight := p.mo.inFlight.map InFlight.discarded }
  ptp := resetPassThrough
  ae := { p.ae.taken with lastCurrent := PerPort.all 0 }
  mrc := p.mrc.taken cause false

/-! ### A ride-through reset -/

/-- An external reset or SOFT_RESET discards a deferred request without a completion (R36, R182). -/
def dropDeferred (n : Port) (p : Part) : Part := takeDeferred n p

/-- The take of a ride-through reset at one port (R182). -/
def ridePort (n : Port) (p : Part) : Part :=
  match (p.port n).state with
  | .on => moveTo n .orphan p
  | .orphan => updPort n (fun r => { r with adopted := false }) p
  | .drain => p
  | .probe => moveTo n .off (dropDeferred n p)
  | .ramp => moveTo n .off (dropDeferred n p)
  | .settle => moveTo n .off (dropDeferred n p)
  | .queued => moveTo n .off p
  | .restartWait => moveTo n .off p
  | .fault => moveTo n .off p
  | .parked => moveTo n .off p
  | .off => p
  | .empty => p

/-- A calibration given up by a reset (R91). -/
def Calibration.abandon (c : Calibration) : Calibration := { c with abandoned := true }

/-- The MS at a ride-through reset (R69, R91; log entry 22): rounds go on, a command in progress is abandoned. A slot conversion
that still ran for a SEQ_STOP is dropped (the model's choice, log entry 44). In CALIBRATING with the round before the
conversions in progress the mode is RUNNING at once (the model's choice, log entry 52). -/
def Sequencer.ride (m : Sequencer) : Sequencer :=
  let m := { m with pending := none, held := none, command := none, onceRounds := 0,
                    calibration := m.calibration.map Calibration.abandon }
  match m.mode with
  | .warming => m
  | .running => m
  | .once => { m with mode := .running }
  | .stopped =>
    { m with mode := .running, current := if m.calibration.isSome then none else some m.active.start }
  | .calibrating => if m.calibration.isSome then m else { m with mode := .running }

/-- The MO at a ride-through reset (R140, R141). -/
def Orderer.ride (closed : Port → Bool) (o : Orderer) : Orderer :=
  { resetOrderer with
    lists := o.lists
    classMap := Vector.ofFn (fun n => if closed n then o.classMap.at n else (defaultPlan false).urgent)
    inFlight := o.inFlight.map InFlight.withdrawn }

/-- The PTP at a ride-through reset (R159). -/
def PassThrough.ride (t : PassThrough) : PassThrough :=
  { t with access := none, holdTimer := none, answer := none, presented := none }

/-- The blocks other than the port table at the take of a ride-through reset (R91, R140, R159). -/
def rideBlocks (p : Part) : Part :=
  ((p.mapMs Sequencer.ride).mapMo (Orderer.ride (fun n => (p.port n).state.closed))).mapPtp PassThrough.ride

/-- The MS's mode reported after a ride-through reset, where it changed (R91, R73). -/
def reportMode (before : SeqMode) (p : Part) : Part := if p.ms.mode = before then p else reportDevice true p

/-- The take of a ride-through reset (R182). The change of the sequencer's mode is marked after the clearing of the AE's marks
(R91, R169; log entry 40). No other change of the device status that the take itself makes, such as the going of a pending
sequence or wheel, is marked (the model's choice, log entry 53). -/
def takeRide (cause : ResetCause) (p : Part) : Part :=
  let q := forPorts ridePort (p.mapMrc (ModeReset.taken cause true))
  reportMode p.ms.mode ((budgetAfter true (rideBlocks q)).mapAe AreaEngine.taken)

/-- The windows captured by the port's accepted accesses, with that of its burst in flight (R184). -/
def capturedWindows (p : Part) (n : Port) : List (Nat × Nat) :=
  (p.mo.lists.at n).map (fun a => (a.base, a.windowSize)) ++
  (match p.mo.inFlight with
   | some (.port m a _ _ _ false) => if m = n then [(a.base, a.windowSize)] else []
   | _ => [])

/-- The port's window, or one captured by its accesses, shares a byte with the Control Area (R184). -/
def meetsArea (p : Part) (n : Port) : Bool :=
  (((p.port n).plan.base, (p.port n).plan.size) :: capturedWindows p n).any
    (fun w => sharesByte w.1 w.2 (areaBase p) Config.areaBytes)

/-- A port in ORPHAN or DRAIN stopped because the Control Area has moved onto its window (R184). -/
def stopIfMet (n : Port) (p : Part) : Part :=
  if ((p.port n).state = .orphan ∨ (p.port n).state = .drain) ∧ meetsArea p n = true then moveTo n .off p else p

/-- The straps latched at the end of a ride-through reset, and the ports stopped if the Control Area has moved. -/
def latchRide (straps : Straps) (p : Part) : Part :=
  let q := latch straps p
  if areaBase q = areaBase p then q else forPorts stopIfMet q

/-- The default plan stored at the end of a ride-through reset, by the port's state (R184 steps 1, 2 and 5); no port is in
ON then (R182, R183). -/
def rideDefault (n : Port) (p : Part) : Part :=
  match (p.port n).state with
  | .orphan => p
  | .on => p
  | .drain => retarget n (replacePlan n (defaultPlan p.mrc.straps.auto) p)
  | _ => storePlan n (defaultPlan p.mrc.straps.auto) p

/-- A port in OFF cleaned at the end of a ride-through reset (R184 step 3). -/
def rideClean (n : Port) (p : Part) : Part :=
  if (p.port n).state = .off then
    updPort n (fun r => { r with cause := none, restartCount := 0, flags := { r.flags with left := false } }) p
  else p

/-- A port in OFF queued at the end of a ride-through reset under AUTO (R184 step 4). -/
def rideQueue (n : Port) (p : Part) : Part :=
  if p.mrc.straps.auto && (p.port n).state == .off then event (toQueued n) p else p

/-- The adoption timer starts if a port is in ORPHAN (R184 step 6, R190). -/
def startAdoption (p : Part) : Part :=
  if allPorts.any (fun n => (p.port n).state == .orphan) then
    reportDevice true (p.mapMrc (fun m => { m with adoptionTimer := some Config.adoptionMs }))
  else p

/-- The port table at the end of a ride-through reset (R184 steps 1 to 5). -/
def ridePlans (p : Part) : Part :=
  forPorts rideQueue (forPorts rideClean (forPorts rideDefault (setPhase .running p)))

/-- The end of a ride-through reset, after the latch (R184). -/
def endRide (p : Part) : Part :=
  arrivePresented (firstWrites (startAdoption (event ridePlans p)))

/-! ### Resets taken and ended -/

/-- RESETN asserts while the part runs (R178, R181, R182). -/
def externalReset (p : Part) : Part := if p.mrc.straps.rte then takeRide .external p else takeLowReset .external p

/-- A SOFT_RESET taken by the MRC: the whole reset in one event (R181, R185). -/
def softReset (p : Part) : Part :=
  if p.mrc.straps.rte then endRide (takeRide .soft p) else endPlainReset (takeLowReset .soft p)

/-- RESETN deasserts (R178, R179, R181, R184). Before the end of power-on reset the straps are latched, and the reset goes
on. -/
def endExternalReset (straps : Straps) (p : Part) : Part :=
  match p.mrc.phase with
  | .powerOn => if p.mrc.powerOnOver then endPlainReset (latch straps p) else latch straps p
  | .holdRteLow => endPlainReset (latch straps p)
  | .holdRideThrough => endRide (event (latchRide straps) p)
  | .running => p

/-- The end of power-on reset; a RESETN still low extends it (R179, R180). -/
def endPowerOn (straps : Straps) (p : Part) : Part :=
  let p := p.mapMrc (fun m => { m with powerOnOver := true })
  if p.mrc.resetnLow then p else endPlainReset (latch straps p)

/-- The part as power is applied, with the levels of its input pins (R180). -/
def poweredUp (pins : ModeReset) : Part :=
  powerOnPart.mapMrc (fun m => { m with resetnLow := pins.resetnLow, stby := pins.stby, present := pins.present })

/-! ### Adoption -/

/-- The expiry of the adoption timer at one port (R190). -/
def unadopted (n : Port) (p : Part) : Part :=
  if (p.port n).state = .orphan ∧ (p.port n).adopted = false then startDrain n .unadopted p else p

/-- The adoption timer expires (R190). -/
def adoptionExpired (p : Part) : Part :=
  event (forPorts unadopted) (reportDevice true (p.mapMrc (fun m => { m with adoptionTimer := none })))

end Sys2Proof.Machine
end

