-- ==== Sys2Proof/Machine/Ports.lean ====
section
/-! DEFINITION. Meanings: presence (R8, R9), the port timers (R7, R12, R15, R16, R20, R22, R32), shed orders (R26), the hard limit
(R28) and the on-time's report (R6). -/

namespace Sys2Proof.Machine

/-- PRESENCE_ASSERT (R8). -/
def execPresenceAssert (n : Port) (s : State) : Answered :=
  onPart (fun p => !p.mrc.present.at n) (presenceAsserted n) s

/-- The debouncer runs (R7). -/
def debouncerRuns (n : Port) (p : Part) : Bool := (p.port n).timers.debouncer.isSome

/-- ARRIVAL (R8, R183, R192). -/
def execArrival (n : Port) (s : State) : Answered := onPart (debouncerRuns n) (event (arrived n)) s

/-- PRESENCE_LOSS (R9). -/
def execPresenceLoss (n : Port) (s : State) : Answered :=
  onPart (fun p => p.mrc.present.at n) (presenceLost n) s

def helloRuns (n : Port) (p : Part) : Bool := (p.port n).timers.hello.isSome

/-- No HELLO came (R12). -/
def noHello (n : Port) (p : Part) : Part :=
  updPort n (fun r => { r with cause := some .noHello }) (moveTo n .fault p)

/-- HELLO_TIMER_EXPIRY (R12). -/
def execHelloTimerExpiry (n : Port) (s : State) : Answered := onPart (helloRuns n) (event (noHello n)) s

def rampRuns (n : Port) (p : Part) : Bool := (p.port n).timers.ramp.isSome

/-- RAMP_TIMER_EXPIRY (R15). -/
def execRampTimerExpiry (n : Port) (s : State) : Answered :=
  onPart (rampRuns n) (event (failPort n .rampTimeout)) s

/-- The settle timer runs, in SETTLE (R7). -/
def settleRuns (n : Port) (p : Part) : Bool := (p.port n).state == .settle && (p.port n).timers.settle.isSome

/-- The settle timer expires (R16): the admission test, then a deferred request of a port that waits on. -/
def settleExpired (n : Port) (p : Part) : Part :=
  let p := testAdmission n (setTimers n (fun t => { t with settle := none }) p)
  if (p.port n).state = .settle then applyDeferred n p else p

/-- SETTLE_TIMER_EXPIRY (R16, R18). -/
def execSettleTimerExpiry (n : Port) (s : State) : Answered := onPart (settleRuns n) (event (settleExpired n)) s

def onTimeRuns (n : Port) (p : Part) : Bool := (p.port n).timers.onTime

/-- The on-time reaches its limit (R20). -/
def PortRecord.ranLong (r : PortRecord) : PortRecord :=
  { r with onTime := Config.onTimeLimitMs, restartCount := 0, cause := none,
           timers := { r.timers with onTime := false } }

/-- ON_TIME_LIMIT (R20, R6). -/
def execOnTimeLimit (n : Port) (s : State) : Answered :=
  onPart (onTimeRuns n) (fun p => reportPort n false (updPort n PortRecord.ranLong p)) s

/-- The on-time at its next whole second (R6, log entry 11); its last one is reached by ON_TIME_LIMIT alone (R20). -/
def nextSecond (onTime : Nat) : Nat := min (Config.onTimeLimitMs - 1000) ((onTime / 1000 + 1) * 1000)

/-- ON_TIME_REPORT (R6): in ON, the on-time is reported; it grows while it counts (R20). -/
def execOnTimeReport (n : Port) (s : State) : Answered :=
  onPart (fun p => (p.port n).state == .on)
    (fun p => reportPort n false (updPort n (fun r =>
      { r with onTime := if r.timers.onTime then nextSecond r.onTime else r.onTime }) p)) s

def graceRuns (n : Port) (p : Part) : Bool := (p.port n).timers.grace.isSome

/-- GRACE_TIMER_EXPIRY (R22, R23). -/
def execGraceTimerExpiry (n : Port) (s : State) : Answered := onPart (graceRuns n) (event (endDrain n)) s

def restartRuns (n : Port) (p : Part) : Bool := (p.port n).timers.restart.isSome

/-- The restart timer expires (R32). -/
def restartExpired (n : Port) (p : Part) : Part :=
  if (p.port n).plan.mode = .off then moveTo n .off p else toQueued n p

/-- RESTART_TIMER_EXPIRY (R32). -/
def execRestartTimerExpiry (n : Port) (s : State) : Answered :=
  onPart (restartRuns n) (event (restartExpired n)) s

/-- An order to the port is on its way (R60). -/
def orderDue (n : Port) (p : Part) : Bool := p.bu.orders.contains n

/-- A shed order leaves the way and is taken (R26, R60). An order whose port was opened and granted again meanwhile is carried
out on the port as it is now (the model's choice, log entry 43). -/
def orderTaken (n : Port) (p : Part) : Part :=
  shedTaken n (p.mapBu (fun b => { b with orders := b.orders.erase n }))

/-- SHED_ORDER_TAKEN (R26). -/
def execShedOrderTaken (n : Port) (s : State) : Answered := onPart (orderDue n) (event (orderTaken n)) s

/-- The comparator of a closed switch senses more than the limit (R28). -/
def trips (n : Port) (sensed : Nat) (p : Part) : Bool :=
  (p.port n).state.closed && decide (Config.hardLimitCu < sensed)

/-- HARD_LIMIT_TRIP (R28). -/
def execHardLimitTrip (n : Port) (sensed : Nat) (s : State) : Answered :=
  onPart (trips n sensed) (event (failPort n .hard)) s

end Sys2Proof.Machine
end

