-- ==== Sys2Proof/Machine/Requests.lean ====
section
/-! DEFINITION. Meanings: the request words' commands, each a full-word write of its code (R153, R155, R161). -/

namespace Sys2Proof.Machine

/-- APPLY (R33, R155). -/
def execApply (n : Port) (high : BitVec 24) (s : State) : Answered :=
  requestAccess (.port n) (requestValue 0x11 high) s

/-- CLEAR (R33, R39, R155). -/
def execClear (n : Port) (high : BitVec 24) (s : State) : Answered :=
  requestAccess (.port n) (requestValue 0x12 high) s

/-- RESTART (R33, R40, R155). -/
def execRestart (n : Port) (high : BitVec 24) (s : State) : Answered :=
  requestAccess (.port n) (requestValue 0x13 high) s

/-- APPLY_DEVICE (R44, R155). -/
def execApplyDevice (high : BitVec 24) (s : State) : Answered := requestAccess .device (requestValue 0x01 high) s

/-- LOAD_WHEEL (R130, R155). -/
def execLoadWheel (high : BitVec 24) (s : State) : Answered := requestAccess .device (requestValue 0x02 high) s

/-- LOAD_SEQUENCE (R79, R155). -/
def execLoadSequence (high : BitVec 24) (s : State) : Answered := requestAccess .device (requestValue 0x03 high) s

/-- SEQ_RUN (R74, R75, R155). -/
def execSeqRun (high : BitVec 24) (s : State) : Answered := requestAccess .device (requestValue 0x04 high) s

/-- SEQ_ONCE (R74, R76, R155). -/
def execSeqOnce (high : BitVec 24) (s : State) : Answered := requestAccess .device (requestValue 0x05 high) s

/-- SEQ_STOP (R74, R77, R155). -/
def execSeqStop (high : BitVec 24) (s : State) : Answered := requestAccess .device (requestValue 0x06 high) s

/-- CALIBRATE (R74, R81, R155). -/
def execCalibrate (high : BitVec 24) (s : State) : Answered := requestAccess .device (requestValue 0x07 high) s

/-- SOFT_RESET (R153, R185). -/
def execSoftReset (high : BitVec 24) (s : State) : Answered := requestAccess .device (requestValue 0x0F high) s

/-- UNDEFINED_REQUEST_CODE (R153, R155): a full-word write of any other code. -/
def execUndefinedRequestCode (w : ReqWord) (value : Word) (s : State) : Answered := requestAccess w value s

end Sys2Proof.Machine
end

