-- ==== Sys2Proof/Machine/Resets.lean ====
section
/-! DEFINITION. Meanings: POWER_ON_RESET to SOFT_RESET_TAKE, the end of the converter's warm-up, standby and adoption. -/

namespace Sys2Proof.Machine

/-- POWER_ON_RESET (R180): memory and the levels of the pins stay (log entry 2); the access on the bus is gone. -/
def execPowerOnReset (s : State) : Answered := .next { s with part := poweredUp s.part.mrc }

/-- Power-on reset runs and its end has not come (R179). -/
def powerOnRuns (p : Part) : Bool := p.mrc.phase == .powerOn && !p.mrc.powerOnOver

/-- POWER_ON_RESET_END (R179, R180). -/
def execPowerOnResetEnd (straps : Straps) (s : State) : Answered := onPart powerOnRuns (endPowerOn straps) s

def resetnHigh (p : Part) : Bool := !p.mrc.resetnLow

def lowerResetn (p : Part) : Part := p.mapMrc (fun m => { m with resetnLow := true })

/-- RESETN asserts (R181, R182); during power-on reset it is a level alone (R179). -/
def resetnAsserted (p : Part) : Part :=
  if p.mrc.phase = .running then externalReset (lowerResetn p) else lowerResetn p

/-- RESETN_ASSERT (R179, R181, R182). -/
def execResetnAssert (s : State) : Answered := onPart resetnHigh resetnAsserted s

def resetnIsLow (p : Part) : Bool := p.mrc.resetnLow

def raiseResetn (p : Part) : Part := p.mapMrc (fun m => { m with resetnLow := false })

def resetnDeasserted (straps : Straps) (p : Part) : Part := endExternalReset straps (raiseResetn p)

/-- RESETN_DEASSERT (R178, R179, R181, R184). -/
def execResetnDeassert (straps : Straps) (s : State) : Answered := onPart resetnIsLow (resetnDeasserted straps) s

/-- A SOFT_RESET has been handed to the MRC and not yet taken (R185). -/
def softResetDue (p : Part) : Bool := p.mrc.softReset && p.mrc.phase == .running

/-- SOFT_RESET_TAKE (R185). -/
def execSoftResetTake (s : State) : Answered := onPart softResetDue softReset s

/-- The converter warms up, and power-on reset has ended (R69). -/
def warmingUp (p : Part) : Bool := p.ms.mode == .warming && p.mrc.phase != .powerOn

/-- CONVERTER_WARMUP_END (R69, R74, R80). -/
def execConverterWarmupEnd (s : State) : Answered := onPart warmingUp warmupEnd s

def stbyLow (p : Part) : Bool := !p.mrc.stby

def setStby (level : Bool) (p : Part) : Part := p.mapMrc (fun m => { m with stby := level })

/-- STBY asserts (R191); where the MRC does not take it, it is a level alone (R181, R194). -/
def stbyAsserted (p : Part) : Part :=
  if takesStby p then standbyEntered (setStby true p) else setStby true p

/-- STANDBY_ENTRY (R191, R192, R194). -/
def execStandbyEntry (s : State) : Answered := onPart stbyLow stbyAsserted s

def stbyHigh (p : Part) : Bool := p.mrc.stby

/-- STBY deasserts (R193). -/
def stbyDeasserted (p : Part) : Part :=
  if takesStby p then standbyExited (setStby false p) else setStby false p

/-- STANDBY_EXIT (R193, R194). -/
def execStandbyExit (s : State) : Answered := onPart stbyHigh stbyDeasserted s

/-- The adoption timer runs (R190). -/
def adoptionRuns (p : Part) : Bool := p.mrc.adoptionTimer.isSome

/-- ADOPTION_TIMER_EXPIRY (R190). -/
def execAdoptionTimerExpiry (s : State) : Answered := onPart adoptionRuns adoptionExpired s

end Sys2Proof.Machine
end

