-- ==== Sys2Proof/Machine/Dispatch.lean ====
section
/-! DEFINITION. exec: one arm per command. -/

namespace Sys2Proof.Machine

def exec (i : Instr) (s : State) : Host.Outcome State Fault Refusal :=
  match i with
  | .powerOnReset => Sys2Proof.Machine.execPowerOnReset s
  | .powerOnResetEnd straps => Sys2Proof.Machine.execPowerOnResetEnd straps s
  | .resetnAssert => Sys2Proof.Machine.execResetnAssert s
  | .resetnDeassert straps => Sys2Proof.Machine.execResetnDeassert straps s
  | .softReset high => Sys2Proof.Machine.execSoftReset high s
  | .softResetTake => Sys2Proof.Machine.execSoftResetTake s
  | .converterWarmupEnd => Sys2Proof.Machine.execConverterWarmupEnd s
  | .presenceAssert n => Sys2Proof.Machine.execPresenceAssert n s
  | .arrival n => Sys2Proof.Machine.execArrival n s
  | .presenceLoss n => Sys2Proof.Machine.execPresenceLoss n s
  | .helloTimerExpiry n => Sys2Proof.Machine.execHelloTimerExpiry n s
  | .rampTimerExpiry n => Sys2Proof.Machine.execRampTimerExpiry n s
  | .settleTimerExpiry n => Sys2Proof.Machine.execSettleTimerExpiry n s
  | .onTimeLimit n => Sys2Proof.Machine.execOnTimeLimit n s
  | .graceTimerExpiry n => Sys2Proof.Machine.execGraceTimerExpiry n s
  | .shedOrderTaken n => Sys2Proof.Machine.execShedOrderTaken n s
  | .hardLimitTrip n sensed => Sys2Proof.Machine.execHardLimitTrip n sensed s
  | .restartTimerExpiry n => Sys2Proof.Machine.execRestartTimerExpiry n s
  | .apply n high => Sys2Proof.Machine.execApply n high s
  | .clear n high => Sys2Proof.Machine.execClear n high s
  | .restart n high => Sys2Proof.Machine.execRestart n high s
  | .applyDevice high => Sys2Proof.Machine.execApplyDevice high s
  | .loadWheel high => Sys2Proof.Machine.execLoadWheel high s
  | .loadSequence high => Sys2Proof.Machine.execLoadSequence high s
  | .seqRun high => Sys2Proof.Machine.execSeqRun high s
  | .seqOnce high => Sys2Proof.Machine.execSeqOnce high s
  | .seqStop high => Sys2Proof.Machine.execSeqStop high s
  | .calibrate high => Sys2Proof.Machine.execCalibrate high s
  | .undefinedRequestCode w value => Sys2Proof.Machine.execUndefinedRequestCode w value s
  | .portISample n reading => Sys2Proof.Machine.execPortISample n reading s
  | .sourceVSample millivolts => Sys2Proof.Machine.execSourceVSample millivolts s
  | .tempSample celsius => Sys2Proof.Machine.execTempSample celsius s
  | .offsetSample reading => Sys2Proof.Machine.execOffsetSample reading s
  | .noneSlot => Sys2Proof.Machine.execNoneSlot s
  | .calibrationConversion reading => Sys2Proof.Machine.execCalibrationConversion reading s
  | .helloFrame n identity => Sys2Proof.Machine.execHelloFrame n identity s
  | .putFrame n tag cls offset data => Sys2Proof.Machine.execPutFrame n tag cls offset data s
  | .getFrame n tag cls offset length => Sys2Proof.Machine.execGetFrame n tag cls offset length s
  | .keepFrame n => Sys2Proof.Machine.execKeepFrame n s
  | .leaveFrame n => Sys2Proof.Machine.execLeaveFrame n s
  | .badFrame n bytes => Sys2Proof.Machine.execBadFrame n bytes s
  | .openSent n => Sys2Proof.Machine.execOpenSent n s
  | .answerSent n => Sys2Proof.Machine.execAnswerSent n s
  | .frameSent n => Sys2Proof.Machine.execFrameSent n s
  | .keepTimerExpiry n => Sys2Proof.Machine.execKeepTimerExpiry n s
  | .silenceTimerExpiry n => Sys2Proof.Machine.execSilenceTimerExpiry n s
  | .memoryBurstComplete fault left => Sys2Proof.Machine.execMemoryBurstComplete fault left s
  | .copyReadComplete fault => Sys2Proof.Machine.execCopyReadComplete fault s
  | .plainAccess write address enables value => Sys2Proof.Machine.execPlainAccess write address enables value s
  | .cueWordWrite address value => Sys2Proof.Machine.execCueWordWrite address value s
  | .hostOwnedWrite offset enables value => Sys2Proof.Machine.execHostOwnedWrite offset enables value s
  | .partOwnedRead offset enables => Sys2Proof.Machine.execPartOwnedRead offset enables s
  | .partOwnedWrite offset enables value => Sys2Proof.Machine.execPartOwnedWrite offset enables value s
  | .summaryWordWrite enables value => Sys2Proof.Machine.execSummaryWordWrite enables value s
  | .errorWordWrite enables value => Sys2Proof.Machine.execErrorWordWrite enables value s
  | .partialRequestWrite w enables value => Sys2Proof.Machine.execPartialRequestWrite w enables value s
  | .busyRequestWrite w value => Sys2Proof.Machine.execBusyRequestWrite w value s
  | .holdTimerExpiry => Sys2Proof.Machine.execHoldTimerExpiry s
  | .standbyEntry => Sys2Proof.Machine.execStandbyEntry s
  | .standbyExit => Sys2Proof.Machine.execStandbyExit s
  | .adoptionTimerExpiry => Sys2Proof.Machine.execAdoptionTimerExpiry s
  | .onTimeReport n => Sys2Proof.Machine.execOnTimeReport n s

end Sys2Proof.Machine
end

