-- ==== Sys2Proof/Machine/Step.lean ====
section
/-! DEFINITION. step: the command at the front of the queue (log entry 6), and withFetchWord. -/

namespace Sys2Proof.Machine

/-- The command at the front of the queue runs on the rest; with no command waiting the part idles. -/
def step (s : State) : Host.Outcome State Fault Refusal :=
  match s.pending with
  | [] => .next s
  | i :: rest => exec i { s with pending := rest }

/-- The command a word spells put at the front of the queue; no row gives bits, so the state is unchanged. -/
def State.withFetchWord (s : State) (nbits w : Nat) : State :=
  match decodeTableWord nbits w with
  | none => s
  | some i => { s with pending := i :: s.pending }

end Sys2Proof.Machine
end

