-- ==== Sys2Proof/WellFormed.lean ====
section
/-! DEFINITION. Well-formed commands: the operands a row's event can carry. An ill-formed command is judged by its real
operands all the same (log entries 8, 23 and 35). -/

namespace Sys2Proof

open Machine

/-- A word of the Control Area at this offset, and an access of 1, 2 or 4 bytes (R143). -/
def wordAccess (offset : BitVec 12) (enables : BitVec 4) : Bool := offset.toNat % 4 == 0 && legalEnables enables

/-- The class of a word is host-owned (R146). -/
def isHostOwned (offset : BitVec 12) : Bool := wordClass offset.toNat == .hostOwned

/-- The class of a word is part-owned (R146). -/
def isPartOwned (offset : BitVec 12) : Bool :=
  match wordClass offset.toNat with
  | .partOwned _ => true
  | _ => false

/-- The class of a word is merge (R146). -/
def isMerge (offset : BitVec 12) : Bool :=
  match wordClass offset.toNat with
  | .merge _ => true
  | _ => false

/-- The operands are those the row's event can carry. -/
def Instr.wf : Instr → Bool
  | .hardLimitTrip _ sensed => decide (Config.hardLimitCu < sensed)
  | .portISample _ reading | .offsetSample reading | .calibrationConversion reading => decide (reading ≤ Config.currentMax)
  | .sourceVSample millivolts => decide (millivolts ≤ Config.voltageMax)
  | .tempSample celsius => decide (-40 ≤ celsius ∧ celsius ≤ 150)
  | .undefinedRequestCode w value => requestCode w (wordByte value 0).toNat == none
  | .putFrame _ _ _ _ data => goodLength data.length
  | .getFrame _ _ _ _ length => goodLength length.toNat
  | .badFrame _ bytes => receive bytes == .bad
  | .memoryBurstComplete fault left => decide (left.length ≤ Config.blockBytes) && (fault || left.isEmpty)
  | .plainAccess _ _ enables _ => legalEnables enables
  | .cueWordWrite address _ => address.toNat % 256 == 0
  | .hostOwnedWrite offset enables _ => wordAccess offset enables && isHostOwned offset
  | .partOwnedRead offset enables => wordAccess offset enables && (isPartOwned offset || isMerge offset)
  | .partOwnedWrite offset enables _ => wordAccess offset enables && isPartOwned offset
  | .summaryWordWrite enables _ => legalEnables enables
  | .errorWordWrite enables _ => legalEnables enables
  | .partialRequestWrite _ enables _ => legalEnables enables && !fullWord enables
  | .powerOnReset | .powerOnResetEnd _ | .resetnAssert | .resetnDeassert _ | .softReset _ | .softResetTake => true
  | .converterWarmupEnd | .presenceAssert _ | .arrival _ | .presenceLoss _ | .helloTimerExpiry _ => true
  | .rampTimerExpiry _ | .settleTimerExpiry _ | .onTimeLimit _ | .graceTimerExpiry _ | .shedOrderTaken _ => true
  | .restartTimerExpiry _ | .apply _ _ | .clear _ _ | .restart _ _ | .applyDevice _ | .loadWheel _ => true
  | .loadSequence _ | .seqRun _ | .seqOnce _ | .seqStop _ | .calibrate _ => true
  | .noneSlot | .helloFrame _ _ | .keepFrame _ => true
  | .leaveFrame _ | .openSent _ | .answerSent _ | .frameSent _ | .keepTimerExpiry _ | .silenceTimerExpiry _ => true
  | .copyReadComplete _ | .busyRequestWrite _ _ | .holdTimerExpiry | .standbyEntry | .standbyExit => true
  | .adoptionTimerExpiry | .onTimeReport _ => true

end Sys2Proof
end

