-- ==== Sys2Proof/Safety.lean ====
section
/-! DEFINITION. The words of the statements: what it is for a command to complete, the ports no event of another port
reaches, grants and admissions that an event brings a waiting port (R10, R13, R17, R58), how a drain begins and ends (R21 to R23,
R101), what a HELLO leaves of a lane in ON (R111), what a delivered APPLY, wheel and sequence bring about (R34 to R38, R79, R80,
R130 to R132, R188, R189), what a ride-through reset leaves (R182, R184), the order of a standby exit (R193), preemption and stamps
(R54, R61, R62), the phase a grant decision of the memory stops at (R127), the records the area engine writes (R161, R166, R170 to
R176), the changes it writes back and the first writes of a reset (R6, R166, R168, R169, R172), and the laws the manual gives the
part (R7, R36, R45, R50, R78, R95, R98, R103, R107, R108, R118, R124, R180 to R183). -/

namespace Sys2Proof.Machine

/-- The command answers a next state with this property. -/
def Completes (c : Instr) (s : State) (post : State → Prop) : Prop := ∃ t, exec c s = .next t ∧ post t

/-! ### Ports that an event leaves alone -/

/-- The port holds no entry of the grant queue. -/
def noEntry (n : Port) (p : Part) : Prop := ∀ e ∈ p.bu.queue, e.port ≠ n

/-- The port holds no entry and does not wait in SETTLE with NO_PHASE: no grant and no swap of the wheel reaches it. -/
def quiet (n : Port) (p : Part) : Prop :=
  noEntry n p ∧ ((p.port n).state = .settle → (p.port n).flags.noPhase = false)

/-- The same record but for the stamp, which a renumbering may change (R54). -/
def sameButStamp (r r' : PortRecord) : Prop := r' = { r with stamp := r'.stamp }

/-- The port was sent to QUEUED with an entry of the kind its lane use calls for (R8), and it waits there or was granted
in the same event (R58). -/
def queuedOrGranted (n : Port) (p : Part) : Prop :=
  match (p.port n).plan.laneUse with
  | .expected =>
    ((p.port n).state = .queued ∧ ∃ e ∈ p.bu.queue, e.port = n ∧ e.kind = .probe ∧ e.asked = 20) ∨
    ((p.port n).state = .probe ∧ (p.port n).grant = 20)
  | .unused =>
    ((p.port n).state = .queued ∧ ∃ e ∈ p.bu.queue, e.port = n ∧ e.kind = .full ∧ e.asked = (p.port n).plan.units) ∨
    ((p.port n).state = .ramp ∧ (p.port n).grant = (p.port n).plan.units)

/-- The port's entry, if it holds one, is the youngest of the queue (R51). -/
def youngest (n : Port) (p : Part) : Prop := noEntry n p ∨ ∃ older e, p.bu.queue = older ++ [e] ∧ e.port = n

/-- A failure's outcome in this reset phase (R29): while the restart count was below the limit it is raised, and the port goes to
RESTART_WAIT with the restart timer started, in a ride-through hold to OFF (R183); otherwise it goes to FAULT. The grant is 0 and
the cause recorded. -/
def failedInto (cause : FaultCause) (phase : ResetPhase) (r r' : PortRecord) : Prop :=
  r'.cause = some cause ∧ r'.grant = 0 ∧ r'.plan = r.plan ∧ r'.identity = r.identity ∧
  (r.restartCount < r.plan.restartLimit.1 → r'.restartCount = r.restartCount + 1 ∧
    (phase = .running → r'.state = .restartWait ∧ r'.timers.restart = some 500) ∧
    (phase = .holdRideThrough → r'.state = .off ∧ r'.timers.restart = none)) ∧
  (r.plan.restartLimit.1 ≤ r.restartCount → r'.state = .fault ∧ r'.restartCount = r.restartCount)

/-- The port's switch has opened: its accepted accesses are cancelled (R9 step 2, R136), so that none is left on its list and the
completion of its burst in flight will be discarded, its tags are FREE without an answer (R97, R102), and it has left the shed list
(R46). -/
def clearedAtOpening (n : Port) (p q : Part) : Prop :=
  n ∉ q.bu.shedList ∧ q.mo.lists.at n = [] ∧
  (∀ a offset length last discard, p.mo.inFlight = some (.port n a offset length last discard) →
    q.mo.inFlight = some (.port n a offset length last true)) ∧
  (∀ tag, (q.lane n).tags.get tag = .free) ∧ (q.lane n).answers = []

/-! ### Grants and admissions that another event brings a port -/

/-- The grant queue (R50): at most one entry per port, every entry of a port in QUEUED or a FULL entry of a port in
PROBE, and an entry for every port in QUEUED. -/
def queueLaw (p : Part) : Prop :=
  (p.bu.queue.map Entry.port).Nodup ∧
  (∀ e ∈ p.bu.queue, (p.port e.port).state = .queued ∨ ((p.port e.port).state = .probe ∧ e.kind = .full)) ∧
  (∀ n, (p.port n).state = .queued → ∃ e ∈ p.bu.queue, e.port = n)

/-- A deferred request is held in RAMP, and in SETTLE before the settle timer expires, and nowhere else (R1, R36); a port that waits in
SETTLE with NO_PHASE is lane-EXPECTED (R16). -/
def waitLaw (p : Part) : Prop :=
  ∀ n, ((p.port n).deferred ≠ none →
      (p.port n).state = .ramp ∨ ((p.port n).state = .settle ∧ (p.port n).flags.noPhase = false)) ∧
    ((p.port n).state = .settle → (p.port n).flags.noPhase = true → (p.port n).plan.laneUse = .expected)

/-- The port of a granted entry, whose record was `r` (R10, R13, R58): the entry has left the queue, SHORT and UNWATCHED are
cleared. A PROBE entry leaves the port in PROBE at 20 cu with the HELLO timer of 250 ms running, its lane in LISTEN with the keep timer
running; a FULL entry leaves it in RAMP at the current asked with the ramp timer of 50 ms running and both sample counters at 0
(R84), its lane PAUSED with both timers stopped (R95, R107, R108). A lane-NONE port's lane is IDLE. The rest of the record stays. -/
def grantedAs (e : Entry) (r : PortRecord) (q : Part) : Prop :=
  let r' := q.port e.port
  let l := q.lane e.port
  noEntry e.port q ∧ r'.flags.short = false ∧ r'.flags.unwatched = false ∧ r'.flags.ask = r.flags.ask ∧
  r'.flags.left = r.flags.left ∧ r'.plan = r.plan ∧ r'.identity = r.identity ∧ r'.cause = r.cause ∧
  r'.restartCount = r.restartCount ∧ r'.onTime = r.onTime ∧ r'.trips = r.trips ∧ r'.checkErrors = r.checkErrors ∧
  r'.overruns = r.overruns ∧ r'.deferred = r.deferred ∧
  (e.kind = .probe → r'.state = .probe ∧ r'.grant = 20 ∧ r'.timers = { stoppedTimers with hello := some 250 }) ∧
  (e.kind = .full → r'.state = .ramp ∧ r'.grant = e.asked ∧ r'.timers = { stoppedTimers with ramp := some 50 } ∧
    q.ms.overCount.at e.port = 0 ∧ q.ms.rampCount.at e.port = 0) ∧
  l.silenceTimer = none ∧
  (r.plan.laneUse = .expected →
    (e.kind = .probe → l.mode = .listen ∧ l.keepTimer = some 20) ∧ (e.kind = .full → l.mode = .paused ∧ l.keepTimer = none)) ∧
  (r.plan.laneUse = .unused → l.mode = .idle ∧ l.keepTimer = none)

/-- The record of a port in SETTLE as the entry actions of R18 leave it, a deferred plan about to be applied. -/
def enteredOn (r : PortRecord) : PortRecord :=
  { r with
    state := .on
    drain := none
    flags := { r.flags with noPhase := false, kept := false, rehello := false }
    adopted := false
    onTime := 0
    timers := { stoppedTimers with onTime := true }
    pendingCue := if r.plan.laneUse = .expected then none else r.pendingCue
    deferred := none }

/-- A port that waited with NO_PHASE, whose record was `r`, has been admitted by the swap of a wheel (R17, R18, R132). -/
def admittedBySwap (n : Port) (r : PortRecord) (q : Part) : Prop :=
  sameButStamp (enteredOn r) (q.port n) ∧
  (r.plan.laneUse = .expected → (q.lane n).openDue = some (r.plan.size / 256) ∧
    ∀ v, r.pendingCue = some v → (q.lane n).cue = some v)

/-- A port whose record the command itself leaves as `r`, at the end of the command. It is as it was, but for its stamp (R54) and,
where it holds an entry, SHORT and UNWATCHED (R3); or its entry was granted in the same event (R58); or, waiting with NO_PHASE, it
was admitted by the swap of a wheel (R17). -/
def goesOn (n : Port) (r : PortRecord) (p q : Part) : Prop :=
  let r' := q.port n
  (sameButStamp { r with flags := { r.flags with short := r'.flags.short, unwatched := r'.flags.unwatched } } r' ∧
    (noEntry n p → r'.flags = r.flags)) ∨
  (∃ e ∈ p.bu.queue, e.port = n ∧ grantedAs e r q) ∨
  (r.state = .settle ∧ r.flags.noPhase = true ∧ p.mo.pendingWheel ≠ none ∧ admittedBySwap n r q)

/-- No port, nor the budget, the sequencer or a lane, is touched; while a wheel waits, a port may be granted or admitted by its swap at
the end of the event (R17, R132). -/
def untouched (p q : Part) : Prop :=
  (p.mo.pendingWheel = none → q.ports = p.ports ∧ q.bu = p.bu ∧ q.ms = p.ms ∧ q.lanes = p.lanes) ∧
  (queueLaw p → waitLaw p → ∀ m, goesOn m (p.port m) p q)

/-! ### Drains -/

/-- A drain of a port of this record begins in FLUSH (R21): requests are outstanding on a lane-EXPECTED port. -/
def flushes (outstanding : Nat) (r : PortRecord) : Bool := decide (0 < outstanding) && r.plan.laneUse == .expected

/-- A port of this record starts a drain with this grace time (R21, R22): it is in FLUSH while there is something to flush, else in
GRACE with the grace timer running, REHELLO and KEPT are cleared and the on-time stops. With nothing to flush and a grace time of 0
the drain is over in the same event, and `ended` says what holds then. -/
def drainsWithin (grace : Nat) (reason : DrainReason) (dest : DrainDest) (outstanding : Nat) (r r' : PortRecord)
    (ended : Prop) : Prop :=
  ((flushes outstanding r = true ∨ grace ≠ 0) → r'.state = .drain ∧ r'.grant = r.grant ∧
    r'.drain = some ⟨reason, if flushes outstanding r then .flush else .grace, dest, r.plan.laneUse, grace⟩ ∧
    (flushes outstanding r = false → r'.timers.grace = some grace) ∧
    r'.flags.rehello = false ∧ r'.flags.kept = false ∧ r'.timers.onTime = false) ∧
  ((flushes outstanding r = false ∧ grace = 0) → ended)

/-- The same with the grace time of the port's plan, and the state the port is in when the drain is over at once. -/
def drains (reason : DrainReason) (dest : DrainDest) (after : PortState) (outstanding : Nat) (r r' : PortRecord) : Prop :=
  drainsWithin (graceMs r.plan.grace) reason dest outstanding r r' (r'.state = after ∧ r'.grant = 0 ∧ r'.drain = none)

/-- The destination after a plan stored in DRAIN (R23). -/
def planDest (standby : Bool) (mode : PlanMode) (reason : DrainReason) : DrainDest :=
  match mode, reason with
  | .off, _ => .off
  | _, .withdrawn => .queued
  | _, .shed => .queued
  | _, .asked => .off
  | _, .standby => if standby then .parked else .queued
  | _, .unadopted => .queued
  | _, .restartCmd => .restartWait

/-- The drain is over, and the port is in the drain's destination (R22, R23), redirected in standby (R192), and in a ride-through
hold to OFF (R183). -/
def drainEnded (n : Port) (d : Drain) (p q : Part) : Prop :=
  let r := q.port n
  let stopped := r.grant = 0 ∧ (q.lane n).mode = .idle
  r.drain = none ∧
  (d.dest = .off → r.state = .off ∧ stopped ∧ (d.reason = .asked → r.flags.left = true)) ∧
  (p.mrc.phase = .holdRideThrough → r.state = .off ∧ stopped) ∧
  (p.mrc.phase = .running →
    (d.dest = .parked → r.state = .parked ∧ stopped) ∧
    (d.dest = .restartWait → r.state = .restartWait ∧ stopped ∧ r.timers.restart = some 500) ∧
    (d.dest = .queued → p.mrc.standby = true → r.state = .parked ∧ stopped) ∧
    (d.dest = .queued → p.mrc.standby = false → queuedOrGranted n q))

/-! ### No outstanding requests -/

/-- The port has entered ON (R18) with its grant, SHORT cleared (R3); a lane-EXPECTED port has its OPEN due and its pending cue in
the lane; in standby KEPT is set (R192). -/
def admitted (n : Port) (p q : Part) : Prop :=
  let r := p.port n
  let r' := q.port n
  r'.state = .on ∧ r'.grant = r.grant ∧ r'.onTime = 0 ∧ r'.timers.onTime = true ∧ r'.flags.short = false ∧
  r'.flags.kept = p.mrc.standby ∧
  (r.plan.laneUse = .expected → (q.lane n).openDue = some (r.plan.size / 256) ∧ r'.pendingCue = none ∧
    ∀ v, r.pendingCue = some v → (q.lane n).cue = some v)

/-- What the report "no outstanding requests" brings about (R101): a drain in FLUSH enters GRACE, or is over with a grace time of 0
(R21, R22); an adopted orphan enters ON (R189), in standby without keep to drain at once (R192), and another waits on; a lane that
re-opens in ON has its OPEN due (R112). -/
def noneOutstanding (n : Port) (p q : Part) : Prop :=
  let r := p.port n
  let r' := q.port n
  (∀ d, r.drain = some d → r.state = .drain → d.phase = .flush →
    (d.graceMs ≠ 0 → r'.state = .drain ∧ r'.grant = r.grant ∧ r'.drain = some { d with phase := .grace } ∧
      r'.timers.grace = some d.graceMs) ∧
    (d.graceMs = 0 → drainEnded n d p q)) ∧
  (r.state = .orphan → r.adopted = true → r.deferred = none →
    (p.mrc.standby = false ∨ r.plan.keep = true → admitted n p q) ∧
    (p.mrc.standby = true → r.plan.keep = false → p.mrc.phase = .running → drains .standby .parked .parked 0 r r')) ∧
  (r.state = .orphan → r.adopted = false → sameButStamp r r') ∧
  (r.state = .on → sameButStamp r r' ∧ ((p.lane n).reopen = true → (q.lane n).openDue = some (r.plan.size / 256)))

/-- The lane of a port in ON as a HELLO leaves it (R111 steps 1 to 3): it re-opens, PAUSED if it was OPEN, the tags of unsent
answers are FREE, every other OUTSTANDING tag is marked DISCARD_REPLY, the answers are removed, and a frame being sent runs on. -/
def reopens (l l' : Lane) : Prop :=
  l'.reopen = true ∧ l'.mode = (if l.mode = .opened then .paused else l.mode) ∧ l'.answers = [] ∧ l'.cue = l.cue ∧
  (l.sending ≠ none → l'.sending = l.sending ∧ l'.sendingHolds = l.sendingHolds) ∧
  (∀ a ∈ l.answers, l'.tags.get a.tag = .free) ∧
  (∀ tag, (∀ a ∈ l.answers, a.tag ≠ tag) →
    (∀ kind discard, l.tags.get tag = .outstanding kind discard → l'.tags.get tag = .outstanding kind true) ∧
    ((∀ kind discard, l.tags.get tag ≠ .outstanding kind discard) → l'.tags.get tag = l.tags.get tag))

/-! ### What an APPLY does -/

/-- The request word of the port completes with this result. -/
def answers (n : Port) (result : Result) (q : Part) : Prop := (q.request (.port n)).completion = some result

/-- What the other blocks keep of a plan copy is this plan's: the window in the window table (R142), the urgent-class set in the class
map (R123), and the trip margin and trip count in the port view (R84). -/
def handedOver (n : Port) (plan : Plan) (q : Part) : Prop :=
  q.ptp.windows.at n = ⟨plan.base, plan.size⟩ ∧ q.mo.classMap.at n = plan.urgent ∧
  q.ms.views.at n = ⟨plan.margin, plan.tripField⟩

/-- The plan is stored and handed over, and the request is DONE with OK (R35, R84, R123, R142). -/
def stored (n : Port) (plan : Plan) (q : Part) : Prop :=
  answers n .ok q ∧ (q.port n).plan = plan ∧ handedOver n plan q

/-- The request is REFUSED with this result, and the port is not changed (R34, R37); while a wheel waits, the port may be granted or
admitted by its swap at the end of the event (R17, R132). -/
def refusedApply (n : Port) (result : Result) (p q : Part) : Prop :=
  answers n result q ∧ goesOn n (p.port n) p q ∧ (p.mo.pendingWheel = none → sameButStamp (p.port n) (q.port n))

/-- The port waits in SETTLE with NO_PHASE (R16), or was admitted in the same event by the swap of a wheel that names it (R17,
R132). -/
def waitsOrAdmitted (n : Port) (p q : Part) : Prop :=
  let r' := q.port n
  (r'.state = .settle ∧ r'.flags.noPhase = true) ∨
  (∃ w, p.mo.pendingWheel = some w ∧ names w n = true ∧ r'.plan.size ≠ 0 ∧ r'.state = .on ∧ r'.flags.noPhase = false)

/-- An APPLY to a port with its switch open (R35): the plan is stored; under a plan with mode OFF a port in QUEUED, RESTART_WAIT or
PARKED goes to OFF; under another a port in OFF is queued, or parked in standby (R192), with LEFT cleared. -/
def applyOpen (n : Port) (plan : Plan) (p q : Part) : Prop :=
  let r := p.port n
  let r' := q.port n
  (r.state ∈ [PortState.empty, .fault, .restartWait, .parked] → stored n plan q ∧
    r'.state = if plan.mode = .off ∧ (r.state = .restartWait ∨ r.state = .parked) then .off else r.state) ∧
  (r.state = .queued → stored n plan q ∧ (plan.mode = .off → r'.state = .off) ∧
    (plan.mode ≠ .off → queuedOrGranted n q)) ∧
  (r.state = .off → stored n plan q ∧ (plan.mode = .off → r'.state = .off) ∧
    (plan.mode ≠ .off → r'.flags.left = false ∧ (p.mrc.standby = true → r'.state = .parked) ∧
      (p.mrc.standby = false → queuedOrGranted n q)))

/-- An APPLY to a port starting up (R35, R36): in PROBE the plan is stored, and a new lane use queues the port again; in RAMP and in
SETTLE without NO_PHASE the request is deferred and the port goes on under its old plan. -/
def applyStarting (n : Port) (plan : Plan) (p q : Part) : Prop :=
  let r := p.port n
  let r' := q.port n
  (r.state = .probe → stored n plan q ∧ (plan.mode = .off → r'.state = .off ∧ r'.grant = 0) ∧
    (plan.mode ≠ .off → plan.laneUse ≠ r.plan.laneUse → p.mrc.standby = false → queuedOrGranted n q) ∧
    (plan.mode ≠ .off → plan.laneUse = r.plan.laneUse →
      (r'.state = .probe ∧ r'.grant = r.grant) ∨ (r'.state = .ramp ∧ r'.grant = fullRequest plan r.identity))) ∧
  (r.state = .ramp ∨ (r.state = .settle ∧ r.flags.noPhase = false) →
    sameButStamp { r with deferred := some plan } r' ∧
    (q.request (.port n)).completion = (p.request (.port n)).completion)

/-- An APPLY to a port waiting in SETTLE with NO_PHASE (R38): mode OFF sends it to OFF, a raise that does not fit is REFUSED with
SHORTFALL (R66), and otherwise its grant follows the plan (R66, R67) and the admission test is made again (R16). A port that
fails it waits on, and may be admitted by a wheel swapped in at the end of the event (R17). -/
def applyUnnamed (n : Port) (plan : Plan) (p q : Part) : Prop :=
  let r := p.port n
  let r' := q.port n
  let request := fullRequest plan r.identity
  r.state = .settle → r.flags.noPhase = true → r.deferred = none →
    (plan.mode = .off → stored n plan q ∧ r'.state = .off ∧ r'.grant = 0) ∧
    (plan.mode ≠ .off → r.grant < request → fits p (request - r.grant) = false → refusedApply n .shortfall p q) ∧
    (plan.mode ≠ .off → (r.grant < request → fits p (request - r.grant) = true) →
      stored n plan q ∧ r'.grant = request ∧
      ((plan.laneUse = .unused ∨ names p.mo.wheel n = true) → r'.state = .on ∧ r'.flags.noPhase = false) ∧
      (plan.laneUse = .expected → names p.mo.wheel n = false → waitsOrAdmitted n p q))

/-- An APPLY in ON (R37): mode OFF withdraws the port under the plan copy it held (R21, log entry 19); a new window or lane use is
REFUSED with WINDOW_LOCKED or STATE, a raise that does not fit with SHORTFALL (R66); otherwise the grant follows (R66, R67). -/
def applyOn (n : Port) (plan : Plan) (p q : Part) : Prop :=
  let r := p.port n
  let r' := q.port n
  let request := fullRequest plan r.identity
  let sameWindow := plan.base = r.plan.base ∧ plan.size = r.plan.size
  r.state = .on →
    (plan.mode = .off → stored n plan q ∧ drains .withdrawn .off .off (p.lane n).outstanding r r') ∧
    (plan.mode ≠ .off → ¬sameWindow → refusedApply n .windowLocked p q) ∧
    (plan.mode ≠ .off → sameWindow → plan.laneUse ≠ r.plan.laneUse → refusedApply n .state p q) ∧
    (plan.mode ≠ .off → sameWindow → plan.laneUse = r.plan.laneUse →
      (r.grant < request → fits p (request - r.grant) = false → refusedApply n .shortfall p q) ∧
      ((r.grant < request → fits p (request - r.grant) = true) →
        stored n plan q ∧ r'.state = .on ∧ r'.grant = request))

/-- An APPLY in DRAIN (R23, R35): the plan is stored, and the drain goes on with the destination the table gives. -/
def applyDraining (n : Port) (plan : Plan) (p q : Part) : Prop :=
  let r := p.port n
  let r' := q.port n
  r.state = .drain → stored n plan q ∧ r'.state = .drain ∧ r'.grant = r.grant ∧
    r'.drain = r.drain.map (fun d => { d with dest := planDest p.mrc.standby plan.mode d.reason })

/-- An adoption (R188, R189): mode OFF withdraws the orphan (R21, log entry 19); a new window or lane use is REFUSED, and so is a
lane-EXPECTED port that the active wheel does not name; otherwise the plan is stored and the grant follows, but for a raise that
does not fit. The orphan enters ON once nothing is outstanding, and in standby without keep it drains at once (R192). -/
def applyOrphan (n : Port) (plan : Plan) (p q : Part) : Prop :=
  let r := p.port n
  let r' := q.port n
  let request := fullRequest plan r.identity
  let unfit := r.grant < request ∧ fits p (request - r.grant) = false
  let grant := if r.grant < request ∧ fits p (request - r.grant) = false then r.grant else request
  let sameWindow := plan.base = r.plan.base ∧ plan.size = r.plan.size
  let idle := plan.laneUse = .unused ∨ (p.lane n).outstanding = 0
  r.state = .orphan → r.deferred = none →
    (plan.mode = .off → stored n plan q ∧ drains .withdrawn .off .off (p.lane n).outstanding r r') ∧
    (plan.mode ≠ .off → ¬sameWindow → refusedApply n .windowLocked p q) ∧
    (plan.mode ≠ .off → sameWindow → plan.laneUse ≠ r.plan.laneUse → refusedApply n .state p q) ∧
    (plan.mode ≠ .off → sameWindow → plan.laneUse = r.plan.laneUse →
      (plan.laneUse = .expected → names p.mo.wheel n = false → refusedApply n .unnamed p q) ∧
      ((plan.laneUse = .expected → names p.mo.wheel n = true) → stored n plan q ∧
        (¬idle → r'.state = .orphan ∧ r'.adopted = true ∧ r'.grant = grant ∧ (unfit → r'.flags.short = true)) ∧
        (idle → p.mrc.standby = false ∨ plan.keep = true → r'.state = .on ∧ r'.grant = grant) ∧
        (idle → p.mrc.standby = true → plan.keep = false →
          drains .standby .parked .parked (p.lane n).outstanding { r with plan := plan, grant := grant } r')))

/-- An APPLY is delivered (R34): a record that is no valid plan is REFUSED with INVALID, one whose window meets another with
OVERLAP, and a valid plan acts by the state of its port. -/
def applyOutcome (n : Port) (record : Option Plan) (p q : Part) : Prop :=
  ((∀ plan, record = some plan → planFieldsValid plan = false) → refusedApply n .invalid p q) ∧
  (∀ plan, record = some plan → planFieldsValid plan = true →
    (windowOverlaps p n plan = true → refusedApply n .overlap p q) ∧
    (windowOverlaps p n plan = false →
      applyOpen n plan p q ∧ applyStarting n plan p q ∧ applyUnnamed n plan p q ∧ applyOn n plan p q ∧
      applyDraining n plan p q ∧ applyOrphan n plan p q))

/-! ### A deferred request applied (R36) -/

/-- A port in OFF after a LEAVE, or in QUEUED after a shed order, to which the deferred plan is applied there (R35, R36): the plan is
stored and the request DONE; under mode OFF the port is in OFF, else it is queued, or parked in standby (R192). -/
def deferredQueued (n : Port) (plan : Plan) (standby : Bool) (q : Part) : Prop :=
  stored n plan q ∧ (q.port n).deferred = none ∧ (plan.mode = .off → (q.port n).state = .off) ∧
  (plan.mode ≠ .off → standby = true → (q.port n).state = .parked) ∧
  (plan.mode ≠ .off → standby = false → queuedOrGranted n q)

/-- A failure's outcome at a port that holds a deferred plan (R29, R35, R36): it goes to RESTART_WAIT or FAULT under the plan copy it
held, and there the deferred plan is stored and the request DONE; mode OFF takes a port from RESTART_WAIT to OFF, and a new
restart limit cuts the restart count (R20). -/
def failedApplied (cause : FaultCause) (n : Port) (plan : Plan) (p q : Part) : Prop :=
  let r := p.port n
  let r' := q.port n
  stored n plan q ∧ r'.deferred = none ∧ r'.cause = some cause ∧ r'.grant = 0 ∧ r'.identity = r.identity ∧
  (r.restartCount < r.plan.restartLimit.1 →
    r'.restartCount = min (r.restartCount + 1) plan.restartLimit.1 ∧ (plan.mode = .off → r'.state = .off) ∧
    (plan.mode ≠ .off → r'.state = .restartWait ∧ r'.timers.restart = some 500)) ∧
  (r.plan.restartLimit.1 ≤ r.restartCount → r'.state = .fault ∧
    r'.restartCount = min r.restartCount plan.restartLimit.1)

/-- The record of a port that its settle expiry leaves in SETTLE with NO_PHASE (R16), its deferred plan about to be applied. -/
def leftWaiting (r : PortRecord) : PortRecord :=
  { r with
    flags := { r.flags with noPhase := true }
    timers := { r.timers with settle := none }
    deferred := none }

/-! ### Words of the requests and the accesses -/

/-- The bytes of a request image: code, argument, state and result (R161). -/
def imageBytes (code argument state result : Byte) : List Byte := [code, argument, state, result]

/-- The TAKEN image of a request word is on its way to the word in the Control Area (R153, R160). -/
def takenImageCarried (w : ReqWord) (code argument : Byte) (p : Part) : Prop :=
  ∃ b : CpBurst, (p.mo.cp = some b ∨ p.mo.inFlight = some (.cp b false)) ∧ b.purpose = .taken w ∧ b.write = true ∧
    b.address = areaBase p + (Target.request w).offset ∧ b.enables = 15#4 ∧ wordBytes b.value = imageBytes code argument 1 0

/-- The burst of a controller access is on the CP list or in flight (R144): its word, its bytes enabled (all four for a
merge write, R151), and but for a merge write, whose value is taken at its grant, its value. -/
def carriedAs (b : BusAccess) (purpose : CpPurpose) (p : Part) : Prop :=
  p.ptp.access = some ⟨b, .carried, purpose⟩ ∧
  ∃ c : CpBurst, (p.mo.cp = some c ∨ p.mo.inFlight = some (.cp c false)) ∧ c.purpose = purpose ∧ c.write = b.write ∧
    c.address = wordAddress b.address ∧ c.enables = carriedEnables b purpose ∧
    (purpose ≠ .mergeSummary → purpose ≠ .mergeError → c.value = carriedValue b purpose)

/-- The budget state is what the totals make it (R47). -/
def budgetLaw (p : Part) : Prop := p.bu.isOver = decide (ceiling p < committed p)

/-- SHORTFALL is what the totals make it (R48), and an OVER part has sent every order it can or needs (R64). -/
def shedLaw (p : Part) : Prop :=
  p.bu.shortfall = inShortfall p ∧
  (p.bu.isOver = true → committed p ≤ ceiling p + shedding p ∨ ∀ n, shedCandidate p n = false)

/-- The controller bus is free for an access: none is in progress, none waits for the end of a reset hold, and the
part is in no hold (R143, R183). -/
def busReady (p : Part) : Prop := p.mrc.phase = .running ∧ p.ptp.access = none ∧ p.ptp.presented = none

/-- The controller access that waited in a reset hold arrives at the end of the reset (R181, R183), and its hold timer of 32 µs starts
then. It is classified against the Control Area and the windows in force then (R143, R146): carried, or held for the first
write of its record (R149) or for a copy read (R148); a dropped write (R150, R153) and a SOFT_RESET (R153) are answered at once; a
request is taken with its TAKEN image (R153, R160); and a merge write clears its bits in the copy (R151), the device changed bit
of the end of the reset among them (R169). -/
def arrivesAtEnd (b : BusAccess) (p q : Part) : Prop :=
  let carried := fun purpose => carriedAs b purpose q ∧ q.ptp.holdTimer = some 32
  let held := fun stage => q.ptp.access = some ⟨b, stage, .plain⟩ ∧ q.ptp.holdTimer = some 32
  let answered := q.ptp.access = none ∧ q.ptp.holdTimer = none ∧ q.ptp.answer = some { error := false, data := [] }
  let dropped := fun bit : Word => answered ∧ q.ae.error = p.ae.error ||| bit
  let kept := ~~~(b.value &&& enabledMask b.enables)
  let code := wordByte b.value 0
  q.ptp.presented = none ∧
  (areaOffset q b.address = none →
    (∀ n, b.write = true → fullWord b.enables = true → cuePort q b.address = some n → carried (.cue n)) ∧
    ((b.write = true → fullWord b.enables = true → cuePort q b.address = none) → carried .plain)) ∧
  (∀ offset, areaOffset q b.address = some offset →
    (b.write = false →
      (wordClass offset = .hostOwned ∨ (∃ w, wordClass offset = .request w) → carried .plain) ∧
      (∀ record, wordClass offset = .partOwned record ∨ wordClass offset = .merge record →
        ∃ granted, held (.waitingWriteBack record granted))) ∧
    (b.write = true →
      (wordClass offset = .hostOwned →
        (∀ source, sourceOf offset = some source → protectedNow p source = true → held (.waitingCopy source)) ∧
        ((∀ source, sourceOf offset = some source → protectedNow p source = false) → carried .plain)) ∧
      (∀ record, wordClass offset = .partOwned record → dropped 4#32) ∧
      (wordClass offset = .merge .summary → carried .mergeSummary ∧
        q.ae.summary = (p.ae.summary ||| deviceChangedMask) &&& kept) ∧
      (wordClass offset = .merge .error → carried .mergeError ∧ q.ae.error = p.ae.error &&& kept) ∧
      (∀ w, wordClass offset = .request w →
        (fullWord b.enables = false → dropped 2#32) ∧
        (fullWord b.enables = true → (p.request w).taken = true → dropped 1#32) ∧
        (fullWord b.enables = true → (p.request w).taken = false →
          (q.request w).taken = true ∧ (q.request w).code = code ∧
          (requestCode w code.toNat = some .softReset → answered ∧ q.mrc.softReset = true) ∧
          (requestCode w code.toNat ≠ some .softReset →
            q.ptp.access = some ⟨b, .carried, .taken w⟩ ∧ q.ptp.holdTimer = some 32 ∧
            takenImageCarried w code (wordByte b.value 1) q)))))

/-- The access writes the interrupt summary. -/
def writesSummary (b : BusAccess) (q : Part) : Prop := b.write = true ∧ areaOffset q b.address = some 0x070

/-! ### Ride-through resets -/

/-- A port in ON has ridden through as an orphan (R182, R187): it keeps its grant, plan, identity, window, restart count, fault
cause and accepted accesses, its on-time holds, REHELLO and KEPT are cleared, its lane is PAUSED, and an unsent CUE is its pending
cue. -/
def rodeThrough (n : Port) (p q : Part) : Prop :=
  let r := p.port n
  let r' := q.port n
  r'.state = .orphan ∧ r'.adopted = false ∧ r'.grant = r.grant ∧ r'.plan = r.plan ∧ r'.identity = r.identity ∧
  q.ptp.windows.at n = p.ptp.windows.at n ∧ r'.restartCount = r.restartCount ∧ r'.cause = r.cause ∧
  (p.mo.inFlight ≠ none → q.mo.lists.at n = p.mo.lists.at n) ∧
  r'.onTime = r.onTime ∧ r'.timers.onTime = false ∧ r'.flags.rehello = false ∧ r'.flags.kept = false ∧
  (r.plan.laneUse = .expected → (q.lane n).mode = .paused) ∧
  r'.pendingCue = (p.lane n).cue.or r.pendingCue ∧ (q.lane n).cue = none

/-- A drain goes on past the end of a ride-through reset (R184 step 2): the default plan is stored and gives the destination (R23),
and the drain keeps its reason, phase, grace time and lane use, its class map and its port view. -/
def drainRetargeted (n : Port) (auto : Bool) (p q : Part) : Prop :=
  let r := p.port n
  let r' := q.port n
  r'.plan = defaultPlan auto ∧ r'.state = .drain ∧ r'.grant = r.grant ∧
  r'.drain = r.drain.map (fun d => { d with dest := planDest p.mrc.standby (defaultPlan auto).mode d.reason }) ∧
  q.ms.views.at n = p.ms.views.at n ∧ q.mo.classMap.at n = p.mo.classMap.at n ∧ (q.ptp.windows.at n).size = 0

/-- A port in EMPTY past the end of a ride-through reset (R184): it takes the default plan and keeps its running debouncer. -/
def emptyDefaulted (n : Port) (auto : Bool) (p q : Part) : Prop :=
  (q.port n).plan = defaultPlan auto ∧ (q.port n).state = .empty ∧
  (q.port n).timers.debouncer = (p.port n).timers.debouncer ∧ (q.ptp.windows.at n).size = 0

/-- The entries of a queue stand in the order of the port numbers (R184 step 4). -/
def byNumber (queue : List Entry) : Prop := (queue.map (fun e => e.port.1)).Pairwise (· < ·)

/-- The grant queue at the end of a ride-through reset: the entries in the order of the port numbers (R184 step 4), and behind them
that of a port in FAULT that a presented CLEAR or RESTART has queued (R39, R183). -/
def queuedByNumber (p q : Part) : Prop :=
  ∃ ordered cleared, q.bu.queue = ordered ++ cleared ∧ byNumber ordered ∧
    (∀ e ∈ cleared, (p.port e.port).state = .fault) ∧ (p.ptp.presented = none → cleared = [])

/-- The Control Area moves with these straps, and onto the port's window or one captured by its accepted accesses (R184). -/
def movedOnto (straps : Straps) (n : Port) (p : Part) : Bool :=
  decide (straps.cab ≠ p.mrc.straps.cab) &&
  (((p.port n).plan.base, (p.port n).plan.size) :: capturedWindows p n).any
    (fun w => sharesByte w.1 w.2 (Config.areaStep * straps.cab.1) Config.areaBytes)

/-- A port in OFF as the end of a ride-through reset leaves it (R184 steps 1, 3, 4 and 5): under the default plan, cleaned, and under
AUTO queued, or parked in standby. -/
def cleanedAndQueued (n : Port) (auto standby : Bool) (q : Part) : Prop :=
  let r := q.port n
  r.plan = defaultPlan auto ∧ r.cause = none ∧ r.restartCount = 0 ∧ r.flags.left = false ∧ (q.ptp.windows.at n).size = 0 ∧
  (auto = false → r.state = .off) ∧ (auto = true → standby = true → r.state = .parked) ∧
  (auto = true → standby = false → queuedOrGranted n q)

/-! ### Standby -/

/-- The order in which a standby exit takes the parked ports: priority, highest first, then port number (R193). -/
def restoredBefore (p : Part) (a b : Port) : Prop :=
  (p.port b).plan.priority < (p.port a).plan.priority ∨
  ((p.port a).plan.priority = (p.port b).plan.priority ∧ a < b)

/-- The queue after a standby exit, but for what was granted in it: entries that joined before, then those of the ports that were
parked, their ages in the order of R193. -/
def restoredInOrder (p q : Part) : Prop :=
  ∃ older restored, q.bu.queue = older ++ restored ∧ older.Sublist p.bu.queue ∧
    (∀ e ∈ restored, (p.port e.port).state = .parked) ∧
    (restored.map Entry.port).Pairwise (restoredBefore p)

/-! ### Grants, preemption and stamps -/

/-- The port holds an entry of the grant queue. -/
def holdsEntry (n : Port) (p : Part) : Bool := p.bu.queue.any (fun e => e.port == n)

/-- A preemption candidate of a blocking entry (R61). -/
def preemptable (e : Entry) (p : Part) (n : Port) : Bool :=
  shedCandidate p n && decide ((p.port n).plan.priority < e.priority)

/-- With this much more shed, the blocking entry's delta would fit (R61, R62). -/
def enoughShed (e : Entry) (p : Part) (more : Nat) : Bool :=
  decide (committed p + entryDelta p e ≤ ceiling p + shedding p + more)

/-- The sum of the grants of these ports. -/
def grants (p : Part) (ports : List Port) : Nat := (ports.map (fun n => (p.port n).grant)).sum

/-- The preemption test cannot free enough (R61 case 3). -/
def cannotShed (e : Entry) (p : Part) : Bool := !enoughShed e p (grants p (allPorts.filter (preemptable e p)))

/-- These candidates were ordered shed (R62): the first ones in shed order (R59), and no more than needed. -/
def shedsFor (e : Entry) (p q : Part) (sent spare : List Port) : Prop :=
  q.bu.shedList = p.bu.shedList ++ sent ∧ q.bu.orders = p.bu.orders ++ sent ∧
  (sent ++ spare).Nodup ∧ (∀ n, n ∈ sent ++ spare ↔ preemptable e p n = true) ∧
  (sent ++ spare).Pairwise (fun a b => shedsBefore p b a = false) ∧
  enoughShed e p (grants p sent) = true ∧ ∀ k < sent.length, enoughShed e p (grants p (sent.take k)) = false

/-- The preemption test of a blocking essential entry (R61): nothing is shed where enough is being shed or too little could be. -/
def preempts (e : Entry) (p q : Part) : Prop :=
  (enoughShed e p 0 = true ∨ cannotShed e p = true → q.bu.shedList = p.bu.shedList ∧ q.bu.orders = p.bu.orders) ∧
  (enoughShed e p 0 = false → cannotShed e p = false → ∃ sent spare, shedsFor e p q sent spare)

/-- The renumbering of R54, and the stamp given after it: the closed ports have the stamps 1, 2, 3 and so on in the order of their
old ones, and this port the next. -/
def renumbered (n : Port) (p q : Part) : Prop :=
  let closed := allPorts.filter (fun m => (p.port m).state.closed)
  (∀ a ∈ closed, ∀ b ∈ closed, (p.port a).stamp = (p.port b).stamp → a = b) →
    (q.port n).stamp = closed.length + 1 ∧
    ∀ m ∈ closed, m ≠ n →
      (q.port m).stamp = 1 + (closed.filter (fun k => decide ((p.port k).stamp < (p.port m).stamp))).length

/-! ### Conversions and bursts -/

/-- The command converts a slot of this kind, with this result (R70, R82, R83). -/
def convertsTo (offset : Nat) (kind : SlotKind) (result : Int) : Instr → Prop
  | .portISample n reading => kind = .portI n ∧ result = ((min 2047 reading - offset : Nat) : Int)
  | .sourceVSample millivolts => kind = .sourceV ∧ result = ((min 20000 millivolts : Nat) : Int)
  | .tempSample celsius => kind = .temp ∧ result = max (-40) (min 150 celsius)
  | .offsetSample reading => kind = .offset ∧ result = ((min 2047 reading : Nat) : Int)
  | .noneSlot => kind = .none ∧ result = 0
  | _ => False

/-- With its last burst, at this offset and of this length, the access sets MARK (R139): a PUT that covered one of the window bytes 4
to 7, without a fault on a burst that held one of them. -/
def marksWindow (a : LaneAccess) (offset length : Nat) (fault : Bool) : Bool :=
  decide (a.kind = .put ∧ a.offset ≤ 7 ∧ 4 < a.offset + a.length ∧ a.markFault = false ∧
    ¬(fault = true ∧ offset ≤ 7 ∧ 4 < offset + length))

/-- The access is the oldest of its port's list, before these others, or its next burst is in flight (R121). -/
def accessGoesOn (n : Port) (a : LaneAccess) (others : List LaneAccess) (q : Part) : Prop :=
  q.mo.lists.at n = a :: others ∨
  ∃ offset length more, a.bursts = (offset, length) :: more ∧
    q.mo.inFlight = some (.port n a offset length more.isEmpty false)

/-! ### The records the area engine writes -/

/-- The bytes hold words of these fields, little-endian: every field reads as its value, and every bit outside them as 0 (R170). -/
def readsAs (layout : List (List Field)) (bytes : List Byte) : Prop :=
  bytes.length = 4 * layout.length ∧
  ∀ (w : Nat) (fields : List Field), layout[w]? = some fields →
    (∀ f ∈ fields, bits (wordAt bytes (4 * w)) f.low f.width = f.value % 2 ^ f.width) ∧
    ∀ k < 32, (∀ f ∈ fields, k < f.low ∨ f.low + f.width ≤ k) → bits (wordAt bytes (4 * w)) k 1 = 0

/-- The area header (R171). -/
def headerLayout (r : ModeReset) : List (List Field) :=
  [[⟨0, 16, 0x7A06⟩, ⟨16, 8, 1⟩],
   [⟨0, 8, 12⟩, ⟨8, 8, 64⟩, ⟨16, 8, 16⟩, ⟨24, 8, 4⟩],
   [⟨0, 3, r.straps.cab.1⟩, ⟨3, 1, r.straps.rte.toNat⟩, ⟨4, 1, r.straps.auto.toNat⟩,
    ⟨8, 8, 1 + [ResetCause.powerOn, .external, .soft].idxOf r.cause⟩, ⟨16, 1, r.rideThrough.toNat⟩,
    ⟨24, 8, r.resetCount.toNat⟩]] ++ List.replicate 13 []

/-- The device status, words 1 and 2 of its record, with the update count advanced (R166, R172). -/
def deviceLayout (p : Part) : List (List Field) :=
  [[⟨0, 8, (p.ae.deviceCount + 1).toNat⟩, ⟨8, 1, p.bu.isOver.toNat⟩, ⟨9, 1, p.bu.shortfall.toNat⟩,
    ⟨10, 1, p.mrc.standby.toNat⟩, ⟨11, 1, p.mrc.adoptionTimer.isSome.toNat⟩, ⟨12, 1, p.mo.pendingWheel.isSome.toNat⟩,
    ⟨13, 1, p.ms.pending.isSome.toNat⟩, ⟨16, 2, [Step.full, .reduced, .critical].idxOf (ceilingStep p)⟩,
    ⟨18, 2, [Step.full, .reduced, .critical].idxOf p.ms.voltageStep⟩,
    ⟨20, 1, [Step.full, .reduced, .critical].idxOf p.ms.temperatureStep⟩,
    ⟨24, 3, [SeqMode.warming, .running, .once, .stopped, .calibrating].idxOf p.ms.mode⟩],
   [⟨0, 16, committed p⟩, ⟨16, 16, ceiling p⟩]]

/-- The state codes of R174. -/
def stateCode (state : PortState) : Nat :=
  [PortState.empty, .off, .queued, .probe, .ramp, .settle, .on, .drain, .restartWait, .fault, .orphan, .parked].idxOf state

/-- A drain destination as a state code (R174). -/
def destCode : DrainDest → Nat
  | .off => stateCode .off
  | .queued => stateCode .queued
  | .parked => stateCode .parked
  | .restartWait => stateCode .restartWait

/-- The status record of a port, with the update count advanced (R166, R174). -/
def statusLayout (n : Port) (p : Part) : List (List Field) :=
  let r := p.port n
  [[⟨0, 8, (p.ae.portCounts.at n + 1).toNat⟩, ⟨8, 8, stateCode r.state⟩,
    ⟨16, 8, [none, some FaultCause.hard, some .overCurrent, some .rampTimeout, some .noHello, some .laneLost].idxOf r.cause⟩,
    ⟨24, 3, r.drain.elim 0 (fun d =>
      1 + [DrainReason.withdrawn, .shed, .asked, .standby, .unadopted, .restartCmd].idxOf d.reason)⟩,
    ⟨27, 1, r.drain.elim 0 (fun d => [DrainPhase.flush, .grace].idxOf d.phase)⟩,
    ⟨30, 1, r.identity.isSome.toNat⟩, ⟨31, 1, (p.ptp.shadows.at n).isSome.toNat⟩],
   [⟨0, 16, r.grant⟩, ⟨16, 16, r.stamp⟩],
   [⟨0, 16, r.onTime⟩, ⟨16, 16, p.ae.lastCurrent.at n⟩],
   [⟨0, 1, r.flags.ask.toNat⟩, ⟨1, 1, r.flags.short.toNat⟩, ⟨2, 1, r.flags.unwatched.toNat⟩, ⟨3, 1, r.flags.noPhase.toNat⟩,
    ⟨4, 1, r.flags.left.toNat⟩, ⟨5, 1, r.flags.kept.toNat⟩, ⟨6, 1, r.flags.rehello.toNat⟩, ⟨8, 3, r.restartCount⟩,
    ⟨16, 8, r.trips⟩, ⟨24, 8, r.checkErrors⟩],
   [⟨0, 8, r.overruns⟩,
    ⟨8, 8, r.identity.elim 0 (fun i => 1 + [KindCode.lens, .viewfinder, .monitor, .transmitter, .intercom, .light, .motor,
      .recorder, .other].idxOf i.kind)⟩, ⟨16, 16, r.identity.elim 0 (fun i => i.maker.toNat)⟩],
   [⟨0, 32, r.identity.elim 0 (fun i => i.serial.toNat)⟩],
   [⟨0, 12, r.identity.elim 0 (fun i => i.requested.toNat)⟩, ⟨12, 1, r.identity.elim 0 (fun i => i.standbyCapable.toNat)⟩,
    ⟨16, 8, r.drain.elim 0xFF (fun d => destCode d.dest)⟩],
   [⟨0, 32, (p.ptp.shadows.at n).elim 0 BitVec.toNat⟩]]

/-- A word of the sequence results: the result, and the kind and pace of its slot (R176). -/
def resultLayout (result : Int) (slot : Slot) : List Field :=
  [⟨0, 16, (result % 65536).toNat⟩,
   ⟨16, 8, match slot.kind with
     | .portI n => n.1
     | .sourceV => 12
     | .temp => 13
     | .offset => 14
     | .none => 15⟩,
   ⟨24, 8, [Pace.fast, .filtered].idxOf slot.pace⟩]

/-- A write-back granted now carries its record as the area engine holds it (R166), in the layout of section 7.6: the wheel copy
reads back as the active wheel (R175), and a request word holds the completion image (R161, R163). -/
def carriesRecord (p : Part) (bytes : List Byte) : Target → Prop
  | .header => readsAs (headerLayout p.mrc) bytes
  | .device => readsAs (deviceLayout p) bytes
  | .summary => readsAs [[⟨0, 32, p.ae.summary.toNat⟩]] bytes
  | .error => readsAs [[⟨0, 32, p.ae.error.toNat⟩]] bytes
  | .status n => readsAs (statusLayout n p) bytes
  | .wheelCopy => bytes.length = 64 ∧ readWheel bytes = some p.mo.wheel
  | .results => readsAs (List.zipWith resultLayout p.ms.results p.ms.active.slots) bytes
  | .request w => ∀ result, (p.request w).completion = some result → bytes =
    imageBytes (p.request w).code (p.request w).argument (if result = .ok then 2 else 3)
      (BitVec.ofNat 8 ([Result.ok, .invalid, .overlap, .windowLocked, .shortfall, .uncovered, .unnamed, .powered, .state,
        .memFault].idxOf result))

/-- A grant to the area engine takes the burst it offers (R122, R167), to or from the record's place in the Control Area (R160). A
write-back carries its record and the change mark gathered for it; the record's update count is advanced and its mark cleared,
it is no longer pending (R166), and a read held for it waits for its completion (R149). A copy read leaves the read list. -/
def offerGranted (p q : Part) : Prop :=
  (∃ offer, aeOffer p = some offer) ∧
  (∀ record, aeOffer p = some (.writeBack record) →
    q.mo.inFlight = some (.writeBack record (areaBase p + record.offset)
      (targetBytes (p.mapAe (captureMark record)) record) (markOf p.ae record) false) ∧
    carriesRecord p (targetBytes (p.mapAe (captureMark record)) record) record ∧
    q.ae.writeBacks = p.ae.writeBacks.erase record ∧ q.ae.readList = p.ae.readList ∧
    (∀ n, q.ae.portCounts.at n = (if record = .status n then p.ae.portCounts.at n + 1 else p.ae.portCounts.at n) ∧
      q.ae.portMarks.at n = (if record = .status n then false else p.ae.portMarks.at n)) ∧
    q.ae.deviceCount = (if record = .device then p.ae.deviceCount + 1 else p.ae.deviceCount) ∧
    q.ae.deviceMark = (if record = .device then false else p.ae.deviceMark) ∧
    (∀ b purpose, p.ptp.access = some ⟨b, .waitingWriteBack record false, purpose⟩ →
      q.ptp.access = some ⟨b, .waitingWriteBack record true, purpose⟩)) ∧
  (∀ source, aeOffer p = some (.copyRead source) →
    q.mo.inFlight = some (.copyRead source (areaBase p + source.offset) source.length false) ∧
    q.ae.readList = p.ae.readList.tail ∧ q.ae.writeBacks = p.ae.writeBacks)

/-! ### What is written back -/

/-- The content of the record is on its way to memory (R166): its write-back is pending, or, where the event could grant one
(`free`), in flight with the content as it is now. -/
def writtenSoon (record : Target) (free : Prop) (q : Part) : Prop :=
  record ∈ q.ae.writeBacks ∨
  (free ∧ ∃ address mark, q.mo.inFlight = some (.writeBack record address (targetBytes q record) mark false))

/-- A change mark of the record is on its way (R166): gathered for the pending write-back, or captured by one granted in the event. -/
def markedSoon (record : Target) (free : Prop) (q : Part) : Prop :=
  (record ∈ q.ae.writeBacks ∧ markOf q.ae record = true) ∨
  (free ∧ ∃ address bytes, q.mo.inFlight = some (.writeBack record address bytes true false))

/-- The changes of a port record that set the port's changed bit (R6): the state, a fault cause, a flag set, an identity. -/
def changesMarked (r r' : PortRecord) : Prop :=
  r'.state ≠ r.state ∨ r'.cause ≠ r.cause ∨ r'.identity ≠ r.identity ∨
  (r.flags.ask = false ∧ r'.flags.ask = true) ∨ (r.flags.short = false ∧ r'.flags.short = true) ∨
  (r.flags.unwatched = false ∧ r'.flags.unwatched = true) ∨ (r.flags.noPhase = false ∧ r'.flags.noPhase = true) ∨
  (r.flags.left = false ∧ r'.flags.left = true) ∨ (r.flags.kept = false ∧ r'.flags.kept = true) ∨
  (r.flags.rehello = false ∧ r'.flags.rehello = true)

/-- A change that the PM, the LC, the MS or the PTP reports for the port's status record (R6, R54, R83, R114, R157). The on-time is
reported by its own rule (R6). -/
def changesReported (n : Port) (p q : Part) : Prop :=
  let r := p.port n
  let r' := q.port n
  changesMarked r r' ∨ r'.flags ≠ r.flags ∨ r'.grant ≠ r.grant ∨ r'.stamp ≠ r.stamp ∨ r'.restartCount ≠ r.restartCount ∨
  r'.trips ≠ r.trips ∨ r'.drain.map Drain.reason ≠ r.drain.map Drain.reason ∨
  r'.drain.map Drain.phase ≠ r.drain.map Drain.phase ∨ r'.checkErrors ≠ r.checkErrors ∨ r'.overruns ≠ r.overruns ∨
  q.ae.lastCurrent.at n ≠ p.ae.lastCurrent.at n ∨ q.ptp.shadows.at n ≠ p.ptp.shadows.at n

/-- A field of device status 1 other than its update count has changed (R172). -/
def changesDevice1 (p q : Part) : Prop :=
  q.bu.isOver ≠ p.bu.isOver ∨ q.bu.shortfall ≠ p.bu.shortfall ∨ q.mrc.standby ≠ p.mrc.standby ∨
  q.mrc.adoptionTimer.isSome ≠ p.mrc.adoptionTimer.isSome ∨ q.mo.pendingWheel.isSome ≠ p.mo.pendingWheel.isSome ∨
  q.ms.pending.isSome ≠ p.ms.pending.isSome ∨ ceilingStep q ≠ ceilingStep p ∨ q.ms.voltageStep ≠ p.ms.voltageStep ∨
  q.ms.temperatureStep ≠ p.ms.temperatureStep ∨ q.ms.mode ≠ p.ms.mode

/-- A field of device status 2 has changed (R172). -/
def changesDevice2 (p q : Part) : Prop := committed q ≠ committed p ∨ ceiling q ≠ ceiling p

/-- A completion handed over has the write-back of its request word pending or in flight (R168). -/
def completionsWritten (p : Part) : Prop :=
  ∀ (w : ReqWord) (result : Result), (p.request w).completion = some result →
    .request w ∈ p.ae.writeBacks ∨
    ∃ address bytes mark, p.mo.inFlight = some (.writeBack (.request w) address bytes mark false)

/-- The first writes of a reset, in their order (R169). -/
def firstTargets : List Target :=
  [.header, .device, .summary, .error, .status 0, .status 1, .status 2, .status 3, .status 4, .status 5, .status 6, .status 7,
    .status 8, .status 9, .status 10, .status 11, .wheelCopy, .results]

/-- The first writes are placed (R169): they head the write-back list in their order, or the first of them, the area header, has been
granted in the same event. -/
def firstWritesPlaced (q : Part) : Prop :=
  ∃ more, q.ae.writeBacks = firstTargets ++ more ∨
    (q.ae.writeBacks = firstTargets.tail ++ more ∧ ∃ bytes,
      q.mo.inFlight = some (.writeBack .header (areaBase q) bytes false false) ∧ readsAs (headerLayout q.mrc) bytes)

/-- Every first write is pending or in flight (R169), in whatever order a held read has them (R149). -/
def firstWritesKept (q : Part) : Prop :=
  ∀ record ∈ firstTargets, record ∈ q.ae.writeBacks ∨
    ∃ address bytes mark, q.mo.inFlight = some (.writeBack record address bytes mark false)

/-- What the controller sees of the end of a reset (R164, R169, R181, R183): the first writes are placed and ATTN is asserted; an access
that was presented arrives then, and ATTN is asserted but where that access writes the summary. -/
def resetEnded (p q : Part) : Prop :=
  (p.ptp.presented = none → p.ptp.access = none → firstWritesPlaced q) ∧ firstWritesKept q ∧
  (∀ b, p.ptp.presented = some b → arrivesAtEnd b p q) ∧
  ((∀ b, p.ptp.presented = some b → ¬writesSummary b q) → attn q = true)

/-! ### The orderer -/

/-- A phase of the active wheel names a participant with a pending burst of this class (R122, R127). -/
def phaseAsks (p : Part) (cls : HeadClass) (i : Nat) : Bool :=
  match p.mo.wheel[i]? with
  | some (some who) => headClass p who == some cls
  | some none => false
  | none => false

/-- The first phase of a class from the wheel pointer on, passing from phase 63 to phase 0 (R127). -/
def firstPhase (p : Part) (cls : HeadClass) (i : Nat) : Prop :=
  ∃ k < 64, i = (p.mo.pointer + k) % 64 ∧ phaseAsks p cls i = true ∧
    ∀ j < k, phaseAsks p cls ((p.mo.pointer + j) % 64) = false

/-- No phase asks for this class (R127, R128). -/
def noPhaseAsks (p : Part) (cls : HeadClass) : Prop := ∀ i < 64, phaseAsks p cls i = false

/-- The phase a grant decision stops at (R127): urgent first, in every eighth decision bulk first. -/
def decidedPhase (p : Part) (i : Nat) : Prop :=
  if p.mo.bulkTurn = 7 then firstPhase p .bulk i ∨ (noPhaseAsks p .bulk ∧ firstPhase p .urgent i)
  else firstPhase p .urgent i ∨ (noPhaseAsks p .urgent ∧ firstPhase p .bulk i)

/-- A pending wheel has been swapped in, or discarded because it does not name a port in service (R132, R133). -/
def wheelSwapped (w : List Phase) (p q : Part) : Prop :=
  q.mo.pendingWheel = none ∧
  (namesInService p w = true → q.mo.wheel = w ∧ (q.request .device).completion = some .ok) ∧
  (namesInService p w = false → q.mo.wheel = p.mo.wheel ∧ (q.request .device).completion = some .unnamed)

/-- The wheel waits (R131). -/
def wheelWaits (w : List Phase) (p q : Part) : Prop :=
  q.mo.pendingWheel = some w ∧ q.mo.wheel = p.mo.wheel ∧ (q.request .device).completion = (p.request .device).completion

/-- A LOAD_WHEEL is delivered (R130): a record that is no valid wheel is REFUSED with INVALID, one that leaves out a port in
service with UNNAMED; a valid wheel is swapped in or waits, and with nothing to grant it is swapped in at once (R131). -/
def wheelOutcome (record : Option (List Phase)) (p q : Part) : Prop :=
  ((∀ w, record = some w → wheelValid w = false) →
    (q.request .device).completion = some .invalid ∧ q.mo.wheel = p.mo.wheel ∧ q.mo.pendingWheel = none) ∧
  (∀ w, record = some w → wheelValid w = true →
    (namesInService p w = false →
      (q.request .device).completion = some .unnamed ∧ q.mo.wheel = p.mo.wheel ∧ q.mo.pendingWheel = none) ∧
    (namesInService p w = true → (wheelSwapped w p q ∨ wheelWaits w p q) ∧
      (anyPending p = false → p.ptp.access = none → wheelSwapped w p q)))

/-- The swap of a sequence has taken place (R80): it is the active one, the results outside its range are 0, the counters of the
ports it does not convert are cleared, and the command is DONE with OK. -/
def sequenceSwapped (x : Sequence) (p q : Part) : Prop :=
  (q.request .device).completion = some .ok ∧ q.ms.active = x ∧ q.ms.pending = none ∧
  (∀ i result, p.ms.results[i]? = some result → q.ms.results[i]? = some (if i ∈ x.range then result else 0)) ∧
  (∀ n, x.converts (.portI n) = false → q.ms.overCount.at n = 0 ∧ q.ms.rampCount.at n = 0)

/-- A LOAD_SEQUENCE is delivered (R79): a record that is no valid sequence is REFUSED with INVALID, one that leaves out a port with
a closed switch with UNCOVERED; a valid sequence waits, and in STOPPED it is swapped in at once (R80). -/
def sequenceOutcome (record : Option Sequence) (p q : Part) : Prop :=
  ((∀ x, record = some x → sequenceValid x = false) →
    (q.request .device).completion = some .invalid ∧ q.ms = p.ms) ∧
  (∀ x, record = some x → sequenceValid x = true →
    (coversClosed p x = false → (q.request .device).completion = some .uncovered ∧ q.ms = p.ms) ∧
    (coversClosed p x = true → p.ms.mode ≠ .stopped →
      q.ms = { p.ms with pending := some x } ∧
      (q.request .device).completion = (p.request .device).completion) ∧
    (coversClosed p x = true → p.ms.mode = .stopped → sequenceSwapped x p q))

/-! ### Commands -/

/-- The port a command of one port names: presence, port timers, orders and trips, its conversions, its lane. -/
def portOfCommand : Instr → Option Port
  | .arrival n | .helloTimerExpiry n | .rampTimerExpiry n | .settleTimerExpiry n | .onTimeLimit n => some n
  | .onTimeReport n | .graceTimerExpiry n | .shedOrderTaken n | .hardLimitTrip n _ | .restartTimerExpiry n => some n
  | .helloFrame n _ | .putFrame n _ _ _ _ | .getFrame n _ _ _ _ | .keepFrame n | .leaveFrame n => some n
  | .badFrame n _ | .openSent n | .answerSent n | .frameSent n | .keepTimerExpiry n | .silenceTimerExpiry n => some n
  | .presenceAssert n | .presenceLoss n | .portISample n _ => some n
  | _ => none

/-- The commands that are a reset or the end of one. -/
def isReset : Instr → Bool
  | .powerOnReset | .powerOnResetEnd _ | .resetnAssert | .resetnDeassert _ | .softResetTake => true
  | _ => false

/-- The completions of bursts. -/
def isCompletion : Instr → Bool
  | .memoryBurstComplete _ _ | .copyReadComplete _ => true
  | _ => false

/-! ### The laws of the part -/

/-- A port with its switch open holds no grant (R5, R45). -/
def openLaw (p : Part) : Prop := ∀ n, (p.port n).state.closed = false → (p.port n).grant = 0

/-- Every port with a closed switch is covered (R78). -/
def coverageLaw (p : Part) : Prop := ∀ n, (p.port n).state.closed = true → covered p n = true

/-- A wheel of 64 phases with at least 4 CP phases and at least 1 AE phase (R124). -/
def wheelShape (wheel : List Phase) : Prop :=
  wheel.length = 64 ∧ 4 ≤ phasesOf wheel .cp ∧ 1 ≤ phasesOf wheel .ae

/-- The active wheel must name the port (R124): it is lane-EXPECTED in ON, ORPHAN or DRAIN. -/
def mustName (r : PortRecord) : Bool :=
  match r.state, r.drain with
  | .on, _ => r.plan.laneUse == .expected
  | .orphan, _ => r.plan.laneUse == .expected
  | .drain, some d => d.laneUse == .expected
  | _, _ => false

/-- The wheels (R124): the active and the pending one have their shape, the active one names every port it must, and a
draining port holds its drain. -/
def wheelLaw (p : Part) : Prop :=
  wheelShape p.mo.wheel ∧ (∀ w, p.mo.pendingWheel = some w → wheelShape w) ∧
  (∀ n, mustName (p.port n) = true → names p.mo.wheel n = true) ∧
  (∀ n, (p.port n).state = .drain → (p.port n).drain.isSome = true)

/-- The lane mode the port state and the lane use give (R95): in ON the lane is OPEN after the OPEN has been sent and outside a re-open,
and PAUSED before and during one. -/
def laneModeGiven (r : PortRecord) (l : Lane) : LaneMode :=
  match r.laneUseNow, r.state with
  | .expected, .probe => .listen
  | .expected, .ramp => .paused
  | .expected, .settle => .paused
  | .expected, .drain => .paused
  | .expected, .orphan => .paused
  | .expected, .on => if l.openDue = none ∧ l.reopen = false then .opened else .paused
  | _, _ => .idle

/-- A lane that sends nothing holds nothing that it may send (R103): no OPEN due, no answer, no CUE while it is OPEN, no LEAVE and no
KEEP. -/
def sendLaw (l : Lane) : Prop :=
  l.sending = none → l.openDue = none ∧ l.answers = [] ∧ (l.mode = .opened → l.cue = none) ∧ l.leave = false ∧ l.keep = false

/-- The lanes follow their ports: the mode is the one R95 gives; the keep timer of 20 ms runs in PROBE, SETTLE, ON, DRAIN and ORPHAN
of a lane-EXPECTED port (R107), the silence timer of 100 ms in SETTLE, ON, DRAIN and ORPHAN (R108), and neither elsewhere; OPEN due,
a re-open and an OPEN that will open the lane are there in ON alone (R106, R112); an IDLE lane holds no tag, answer or KEEP
(R97), and a lane that sends nothing has nothing to send (R103). -/
def laneLaw (p : Part) : Prop :=
  ∀ n, let r := p.port n
    let l := p.lane n
    l.mode = laneModeGiven r l ∧
    l.keepTimer = (if r.laneUseNow = .expected ∧ r.state ∈ [PortState.probe, .settle, .on, .drain, .orphan] then some 20
      else none) ∧
    l.silenceTimer = (if r.laneUseNow = .expected ∧ r.state ∈ [PortState.settle, .on, .drain, .orphan] then some 100
      else none) ∧
    (l.openDue ≠ none ∨ l.reopen = true ∨ (l.sendsOpen = true ∧ l.sendingHolds = true) → r.state = .on) ∧
    (l.mode = .idle → (∀ tag, l.tags.get tag = .free) ∧ l.answers = [] ∧ l.keep = false) ∧ sendLaw l

/-- The port timers run in their states (R7): the debouncer in EMPTY, the HELLO timer in PROBE, the ramp timer of 50 ms in RAMP, the
settle timer in SETTLE until the port waits with NO_PHASE, the grace timer in DRAIN once in GRACE, the restart timer of 500 ms in
RESTART_WAIT; the on-time counts in ON alone (R20). -/
def timerLaw (p : Part) : Prop :=
  ∀ n, let r := p.port n
    (r.timers.debouncer ≠ none → r.state = .empty) ∧ (r.timers.hello ≠ none → r.state = .probe) ∧
    r.timers.ramp = (if r.state = .ramp then some 50 else none) ∧
    (r.timers.settle.isSome = true ↔ r.state = .settle ∧ r.flags.noPhase = false) ∧
    (r.timers.grace.isSome = true ↔ r.state = .drain ∧ r.drain.map Drain.phase = some .grace) ∧
    r.timers.restart = (if r.state = .restartWait then some 500 else none) ∧ (r.timers.onTime = true → r.state = .on)

/-- The holds. In every one the area engine is still, without a copy read whose record would be delivered (R141, R183; log entry 16).
In power-on reset and in a hold with RTE low every port is in EMPTY and no debouncer runs (R180, R181). In a ride-through hold (R182,
R183) no port is queued, starting, in ON, parked or waiting for a restart, and no orphan is adopted. -/
def holdLaw (p : Part) : Prop :=
  (p.mrc.phase ≠ .running →
    p.ae.quiet = true ∧ ∀ source address length, p.mo.inFlight ≠ some (.copyRead source address length false)) ∧
  (p.mrc.phase = .powerOn ∨ p.mrc.phase = .holdRteLow → ∀ n, (p.port n).state = .empty ∧
    (p.port n).timers.debouncer = none) ∧
  (p.mrc.phase = .holdRideThrough → ∀ n, (p.port n).state ∈ [PortState.empty, .off, .fault, .drain, .orphan] ∧
    ((p.port n).state = .orphan → (p.port n).adopted = false))

/-- The window table, the class map and the port view are those of the plan copy (R84, R123, R142), but that a port in DRAIN may keep
the class map and the port view its drain began with (R140, R184). In a ride-through hold the class map follows for the orphans
(R123, R140), and in power-on reset and a hold with RTE low all three are the default plan's (R91, R140, R159). -/
def handLaw (p : Part) : Prop :=
  ∀ n, let r := p.port n
    (p.mrc.phase = .running → p.ptp.windows.at n = ⟨r.plan.base, r.plan.size⟩ ∧ (r.state ≠ .drain → handedOver n r.plan p)) ∧
    (p.mrc.phase = .holdRideThrough → p.ptp.windows.at n = ⟨r.plan.base, r.plan.size⟩ ∧
      (r.state ≠ .drain → p.ms.views.at n = ⟨r.plan.margin, r.plan.tripField⟩) ∧
      (r.state = .orphan → handedOver n r.plan p)) ∧
    (p.mrc.phase = .powerOn ∨ p.mrc.phase = .holdRteLow → handedOver n (defaultPlan false) p)

/-- A port is in ORPHAN with its adopted mark clear. -/
def unadoptedLeft (p : Part) : Bool := allPorts.any (fun n => (p.port n).state == .orphan && !(p.port n).adopted)

/-- The adoption timer runs only while a port is in ORPHAN with its adopted mark clear (R190). -/
def adoptionLaw (p : Part) : Prop := p.mrc.adoptionTimer.isSome = true → unadoptedLeft p = true

/-- The shed list (R46): no port twice, and no port with an open switch; every port on it has its order on the way, or drains with
reason SHED (R26, R60). -/
def shedListLaw (p : Part) : Prop :=
  p.bu.shedList.Nodup ∧
  ∀ n ∈ p.bu.shedList, (p.port n).state.closed = true ∧
    (n ∈ p.bu.orders ∨ ((p.port n).state = .drain ∧ (p.port n).drain.map Drain.reason = some .shed))

/-- The bursts left of an accepted access lie in the access, and the access in the window captured for it (R98, R119). -/
def accessInside (a : LaneAccess) : Prop :=
  a.offset + a.length ≤ a.windowSize ∧ ∀ b ∈ a.bursts, a.offset ≤ b.1 ∧ b.1 + b.2 ≤ a.offset + a.length

/-- Every accepted access, waiting or with a burst in flight, keeps to the window captured for it (R98, R119). -/
def windowLaw (p : Part) : Prop :=
  (∀ n, ∀ a ∈ p.mo.lists.at n, accessInside a) ∧
  (∀ n a offset length last discard, p.mo.inFlight = some (.port n a offset length last discard) →
    accessInside a ∧ a.offset ≤ offset ∧ offset + length ≤ a.offset + a.length)

end Sys2Proof.Machine
end

