-- ==== Sys2Proof/Certificates/Slice0/Obligations.lean ====
section
/-! DEFINITION. The statements for the provers. -/

open Sys2Proof Sys2Proof.Machine

/-! ### The step, reset, memory -/

/-- A step runs the command at the front of the queue on the queue's rest; with no command waiting the part idles (the model's
choice, log entry 6). -/
def Obligations.StepRunsTheFrontCommandOrIdles : Prop :=
  (∀ (c : Instr) (rest : List Instr) (s : State), s.pending = c :: rest → step s = exec c { s with pending := rest }) ∧
  (∀ s : State, s.pending = [] → step s = .next s)

/-- The values after power-on reset (R4, R43, R68, R72, R82, R84, R91, R94, R117, R125, R140, R142, R154, R169, R180), block by
block. The memory, the pins at rest and the part in power-on reset, the straps before the first latch with the plan copies' mode
OFF, the last currents, the presented access, the area engine still, the bus answer and the window base 0 are the model's choice or
reading (log entries 1, 3, 4, 5, 10, 16, 27 and 50). -/
def Obligations.ResetHoldsThePowerOnValues : Prop :=
  let p := State.reset.part
  (State.reset.pending = [] ∧ State.reset.mem = []) ∧
  (∀ n : Port, p.port n = resetRecord (defaultPlan false) ∧ p.lane n = resetLane ∧ p.mo.lists.at n = [] ∧
    p.mo.classMap.at n = 1#4 ∧ p.ptp.windows.at n = ⟨0, 0⟩ ∧ p.ptp.shadows.at n = none ∧
    p.request (.port n) = idleRequest ∧ p.ae.portCounts.at n = 0 ∧ p.ae.portMarks.at n = false ∧
    p.ae.lastCurrent.at n = 0 ∧ p.ms.views.at n = ⟨1, 2⟩ ∧ p.ms.overCount.at n = 0 ∧ p.ms.rampCount.at n = 0 ∧
    p.mrc.present.at n = false) ∧
  (p.bu.plan = ⟨800, 600, 300, 12000, 11000, 12600, 95⟩ ∧ p.bu.queue = [] ∧ p.bu.shedList = [] ∧ p.bu.orders = [] ∧
    p.bu.stampCounter = 0 ∧ p.bu.isOver = false ∧ p.bu.shortfall = false ∧ committed p = 0 ∧ shedding p = 0 ∧
    ceilingStep p = .full ∧ ceiling p = 800) ∧
  (p.ms.mode = .warming ∧ p.ms.active = defaultSequence ∧ p.ms.pending = none ∧ p.ms.held = none ∧ p.ms.command = none ∧
    p.ms.current = none ∧ p.ms.onceRounds = 0 ∧ p.ms.calibration = none ∧ p.ms.results = List.replicate 16 0 ∧
    p.ms.offset = 0 ∧ p.ms.voltageStep = .full ∧ p.ms.temperatureStep = .full ∧ p.ms.belowSag = 0 ∧
    p.ms.belowCritical = 0 ∧ p.ms.recovery = 0) ∧
  (p.mo.wheel = defaultWheel ∧ p.mo.pendingWheel = none ∧ p.mo.pointer = 0 ∧ p.mo.bulkTurn = 0 ∧ p.mo.cp = none ∧
    p.mo.inFlight = none) ∧
  (p.ptp.access = none ∧ p.ptp.holdTimer = none ∧ p.ptp.answer = none ∧ p.ptp.presented = none) ∧
  (p.request .device = idleRequest ∧ p.ae.readList = [] ∧ p.ae.writeBacks = [] ∧ p.ae.summary = 0 ∧ p.ae.error = 0 ∧
    p.ae.deviceMark = false ∧ p.ae.deviceCount = 0 ∧ p.ae.quiet = true ∧ attn p = false) ∧
  (p.mrc.phase = .powerOn ∧ p.mrc.powerOnOver = false ∧ p.mrc.straps = ⟨0, false, false⟩ ∧ p.mrc.cause = .powerOn ∧
    p.mrc.resetCount = 0 ∧ p.mrc.rideThrough = false ∧ p.mrc.standby = false ∧ p.mrc.adoptionTimer = none ∧
    p.mrc.softReset = false ∧ p.mrc.resetnLow = false ∧ p.mrc.stby = false)

/-- Every command but the completions of bursts answers a next state, and changes neither the accessory memory nor the commands
that wait: memory is reached through bursts alone (R129). That a command whose event cannot take place, an access on a bus that is
not free and an access with other byte enables answer one too is the model's choice (log entries 7, 9 and 35). -/
def Obligations.OrdinaryCommandsKeepMemoryAndQueue : Prop :=
  ∀ (c : Instr) (s : State), (∀ fault left, c ≠ .memoryBurstComplete fault left) →
    (∀ fault, c ≠ .copyReadComplete fault) → ∃ q : Part, exec c s = .next { s with part := q }

/-- A completing burst writes its cells and no other byte (R129), and leaves the bytes a fault left (R134); a burst of an
accessory's access changes no byte outside the window captured at its acceptance (R98, R119). A burst outside the 16 MiB memory
stops the part (the model's choice, log entry 28). -/
def Obligations.BurstCompletionWritesItsCells : Prop :=
  ∀ (f : InFlight) (fault : Bool) (left : List Byte) (s : State), s.part.mo.inFlight = some f →
    (f.outside = true → exec (.memoryBurstComplete fault left) s = .fault .outsideMemory) ∧
    (f.outside = false → Memory.wf s.mem = true → Completes (.memoryBurstComplete fault left) s (fun t =>
      t.pending = s.pending ∧
      (∀ a, (∀ c ∈ f.cells, c.1 ≠ a) → t.mem.read a = s.mem.read a) ∧
      (fault = false → ∀ c ∈ f.cells, t.mem.read c.1 = c.2) ∧
      (fault = true → ∀ (i : Nat) (c : Host.Cell) (b : Byte), f.cells[i]? = some c → left[i]? = some b →
        t.mem.read c.1 = b) ∧
      (windowLaw s.part → ∀ n a offset length last discard, f = .port n a offset length last discard →
        ∀ address, (address < a.base ∨ a.base + a.windowSize ≤ address) →
          t.mem.read address = s.mem.read address)))

/-- A CP burst that completes answers the controller (R129, R144): the access in progress becomes absent and the hold timer stops;
a fault is answered with bus error, all ones and MEMFAULT_CP. A cue write that lands sets the cue shadow (R156, R157); outside ON
it becomes the port's pending cue, and in ON it waits at the OPEN lane for its sending (R19, R104). -/
def Obligations.CpCompletionAnswersTheController : Prop :=
  ∀ (c : CpBurst) (fault : Bool) (left : List Byte) (s : State), s.part.mo.inFlight = some (.cp c false) →
    c.address + 4 ≤ Config.memoryBytes →
    Completes (.memoryBurstComplete fault left) s (fun t =>
      t.part.ptp.access = none ∧ t.part.ptp.holdTimer = none ∧
      t.part.ptp.answer = some
        { error := fault
          data := if c.write then [] else (enabledBytes c.enables).map (fun i =>
            if fault then 0xFF else s.mem.read (c.address + i)) } ∧
      (fault = true → t.part.ae.error &&& 16#32 = 16#32 ∧ t.part.ptp.shadows = s.part.ptp.shadows) ∧
      (fault = false → t.part.ae.error = s.part.ae.error) ∧
      (∀ n, fault = false → c.purpose = .cue n → s.part.mo.pendingWheel = none →
        t.part.ptp.shadows.at n = some c.value ∧
        ((s.part.port n).state ≠ .on → (t.part.port n).pendingCue = some c.value) ∧
        ((s.part.port n).state = .on → (s.part.lane n).mode = .opened → (s.part.lane n).sending ≠ none →
          (t.part.lane n).cue = some c.value) ∧
        (∀ m, m ≠ n → t.part.port m = s.part.port m ∧ t.part.lane m = s.part.lane m)))

/-- The landing of a write-back, faulted or not: a port's status record sets the port's changed bit, and the device status record
the device changed bit, exactly when the mark captured at its grant calls for it (R164, R166); the completion write of a request
word makes the word IDLE and sets the summary bit of its port or of the device (R154, R164, R168). A faulted one sets MEMFAULT_AE,
and with it the error bit of the summary if MEMFAULT_AE was clear, and is not written again (R134, R135). -/
def Obligations.LandedWriteBacksSetTheSummaryBits : Prop :=
  ∀ (address : Nat) (bytes : List Byte) (mark fault : Bool) (left : List Byte) (s : State),
    address + bytes.length ≤ Config.memoryBytes →
    (∀ (record : Target) (bit : Word), ((∃ n, record = .status n ∧ bit = portChangedMask n) ∨
        (record = .device ∧ bit = deviceChangedMask)) →
      s.part.mo.inFlight = some (.writeBack record address bytes mark false) →
      Completes (.memoryBurstComplete fault left) s (fun t =>
        t.part.ae.summary = s.part.ae.summary ||| (if mark then bit else 0) |||
          (if fault = true ∧ s.part.ae.error &&& 32#32 = 0 then errorMask else 0) ∧
        t.part.ae.error = s.part.ae.error ||| (if fault then 32#32 else 0) ∧
        (s.part.mo.pendingWheel = none → s.part.mrc.adoptionTimer = none → record ∉ s.part.ae.writeBacks →
          record ∉ t.part.ae.writeBacks))) ∧
    (∀ w : ReqWord, s.part.mo.inFlight = some (.writeBack (.request w) address bytes mark false) →
      s.part.mo.pendingWheel = none →
      Completes (.memoryBurstComplete fault left) s (fun t =>
        (t.part.request w).taken = false ∧
        (∀ n, w = .port n → t.part.ae.summary &&& portChangedMask n = portChangedMask n) ∧
        (w = .device → t.part.ae.summary &&& deviceChangedMask = deviceChangedMask) ∧ attn t.part = true ∧
        (fault = true → t.part.ae.error &&& 32#32 = 32#32) ∧
        t.part.ports = s.part.ports ∧ t.part.bu = s.part.bu ∧ t.part.lanes = s.part.lanes))

/-- A burst of an accepted access completes. With the last one, or with a fault of a GET, which takes the rest of the GET off the
list, the access is over (R100, R129, R134): its answer joins the transmit list with status OK, or MEMFAULT after a fault; a tag
marked DISCARD_REPLY becomes FREE instead, and the last one ends a flush, an orphan's wait or a re-open (R101, R112, R189). The
MARK bit is set by the end of a PUT that covered one of the bytes 4 to 7 without a fault there, and by nothing else (R139). Any
other burst changes nothing outside the orderer, but for a GET's gathered data and the fault that is kept, and the access goes on
(R129, R134). A burst whose completion is to be discarded, an accessory's, the controller's or the area engine's, completes in
memory alone (R136, R137, R138, R141): nothing is answered or reported, no port, lane, request or block changes, and the last burst
of a cancelled PUT still makes the MARK test (R136, R139). -/
def Obligations.LastBurstOfAnAccessIsAnswered : Prop :=
  (∀ (n : Port) (a : LaneAccess) (offset length : Nat) (last fault : Bool) (left : List Byte) (s : State),
    s.part.mo.inFlight = some (.port n a offset length last false) → a.base + offset + length ≤ Config.memoryBytes →
    quiet n s.part →
    ((last = true ∨ (fault = true ∧ a.kind = .get ∧ s.part.mo.lists.at n ≠ [])) →
      Completes (.memoryBurstComplete fault left) s (fun t =>
        t.part.ae.summary =
          (if marksWindow a offset length fault then s.part.ae.summary ||| markMask n else s.part.ae.summary) ∧
        (∀ kind, (s.part.lane n).tags.get a.tag = .outstanding kind false →
          t.part.lane n = Lane.kick { s.part.lane n with answers := (s.part.lane n).answers ++
            [{ kind := a.kind
               tag := a.tag
               status := if a.faulted || fault then .memFault else .ok
               data := if a.kind = .get ∧ (a.faulted || fault) = false then
                 a.gathered ++ s.mem.readBytes (a.base + offset) length else [] }] } ∧
          sameButStamp (s.part.port n) (t.part.port n) ∧
          (last = false → ∀ x others, s.part.mo.lists.at n = x :: others →
            (others = [] → t.part.mo.lists.at n = []) ∧
            (∀ y more, others = y :: more → accessGoesOn n y more t.part))) ∧
        (∀ kind, (s.part.lane n).tags.get a.tag = .outstanding kind true →
          (t.part.lane n).tags.get a.tag = .free ∧ (∀ x ∈ (t.part.lane n).answers, x ∈ (s.part.lane n).answers) ∧
          (1 < (s.part.lane n).outstanding → sameButStamp (s.part.port n) (t.part.port n) ∧
            t.part.lane n = Lane.kick { s.part.lane n with
              tags := (s.part.lane n).tags.set a.tag.1 .free a.tag.2 }) ∧
          ((s.part.lane n).outstanding = 1 → noneOutstanding n s.part t.part)))) ∧
    (last = false → (fault = false ∨ a.kind = .put) → s.part.mo.pendingWheel = none →
      Completes (.memoryBurstComplete fault left) s (fun t =>
        (∀ x others, s.part.mo.lists.at n = x :: others →
          accessGoesOn n { x with
            gathered := if x.kind = .get then x.gathered ++ s.mem.readBytes (a.base + offset) length else x.gathered
            faulted := x.faulted || fault
            markFault := x.markFault || decide (fault = true ∧ offset ≤ 7 ∧ 4 < offset + length) } others t.part) ∧
        t.part.ports = s.part.ports ∧ t.part.bu = s.part.bu ∧ t.part.ms = s.part.ms ∧ t.part.lanes = s.part.lanes ∧
        t.part.ae.summary = s.part.ae.summary))) ∧
  (∀ (f : InFlight) (fault : Bool) (left : List Byte) (s : State), s.part.mo.inFlight = some f → f.discarded = f →
    f.outside = false →
    ∀ c, (c = .memoryBurstComplete fault left ∨
        (c = .copyReadComplete fault ∧ ∃ source address length, f = .copyRead source address length true)) →
      Completes c s (fun t =>
        (∀ n a offset length, f = .port n a offset length true true → t.part.ae.summary =
          (if marksWindow a offset length fault then s.part.ae.summary ||| markMask n else s.part.ae.summary)) ∧
        ((∀ n a offset length, f ≠ .port n a offset length true true) → t.part.ae.summary = s.part.ae.summary) ∧
        t.part.ae.error = s.part.ae.error ∧ t.part.ptp.answer = s.part.ptp.answer ∧
        t.part.ptp.holdTimer = s.part.ptp.holdTimer ∧ t.part.ptp.shadows = s.part.ptp.shadows ∧
        (∀ n, ∀ x ∈ (t.part.lane n).answers, x ∈ (s.part.lane n).answers) ∧
        (s.part.mo.pendingWheel = none → t.part.ports = s.part.ports ∧ t.part.bu = s.part.bu ∧ t.part.ms = s.part.ms ∧
          t.part.lanes = s.part.lanes ∧ ∀ w, t.part.request w = s.part.request w)))

/-- A copy read completes (R134, R148, R155, R167): a fault refuses its request with MEMFAULT; a device plan is stored if valid and
refused with INVALID otherwise (R44). A port's plan that is no valid plan is refused with INVALID, one whose window meets another
with OVERLAP (R34), and a valid one acts by the state of its port (R23, R35 to R38, R66, R67), in ORPHAN as an adoption (R188,
R189); that an APPLY with mode OFF in ON or ORPHAN drains under the lane use and the grace time of the plan held before it is the
model's reading (log entry 19). A stored plan is handed over: its window to the window table (R142), its urgent-class set to the
class map (R123), its trip margin and trip count to the port view (R84). A port request may be delivered while a wheel waits
(R154), whose swap at the end of the event may grant or admit the port (R17, R132). A wheel image or a sequence plan is refused
with INVALID if it is none, and with UNNAMED or UNCOVERED if a port in service or with a closed switch is left out (R79, R130); a
valid wheel waits, or is swapped in at once with nothing to grant (R131, R132); a valid sequence waits, or is swapped in at once in
STOPPED (R80). -/
def Obligations.CopyReadCompletionDeliversTheRecord : Prop :=
  ∀ (source : Source) (address length : Nat) (fault : Bool) (s : State),
    s.part.mo.inFlight = some (.copyRead source address length false) → address + length ≤ Config.memoryBytes →
    (source.word = .device → s.part.mo.pendingWheel = none) →
    Completes (.copyReadComplete fault) s (fun t =>
      (fault = true → (t.part.request source.word).completion = some .memFault ∧
        (queueLaw s.part → waitLaw s.part → ∀ m, goesOn m (s.part.port m) s.part t.part) ∧
        (s.part.mo.pendingWheel = none → t.part.ports = s.part.ports ∧ t.part.bu = s.part.bu ∧ t.part.ms = s.part.ms ∧
          t.part.mo.wheel = s.part.mo.wheel)) ∧
      (fault = false → source = .devicePlan →
        let plan := readDevicePlan (s.mem.readBytes address length)
        (devicePlanValid plan = true → t.part.bu.plan = plan ∧ (t.part.request .device).completion = some .ok) ∧
        (devicePlanValid plan = false → t.part.bu.plan = s.part.bu.plan ∧
          (t.part.request .device).completion = some .invalid)) ∧
      (fault = false → ∀ n plan, source = .plan n → readPlan (s.mem.readBytes address length) = some plan →
        planFieldsValid plan = true → windowOverlaps s.part n plan = false →
        ((s.part.port n).state = .empty ∨ (s.part.port n).state = .fault) → noEntry n s.part →
        stored n plan t.part ∧ (t.part.port n).state = (s.part.port n).state) ∧
      (fault = false → ∀ n, source = .plan n → s.part.mrc.phase = .running → queueLaw s.part → waitLaw s.part →
        budgetLaw s.part →
        applyOutcome n (readPlan (s.mem.readBytes address length)) s.part t.part) ∧
      (fault = false → source = .wheelImage →
        wheelOutcome (readWheel (s.mem.readBytes address length)) s.part t.part) ∧
      (fault = false → source = .sequencePlan →
        sequenceOutcome (readSequence (s.mem.readBytes address length)) s.part t.part))

/-! ### Resets -/

/-- POWER_ON_RESET gives every block its power-on values (R180), whatever went before; the memory, the levels of the pins and the
commands that wait stay (log entry 2). POWER_ON_RESET_END latches the straps and starts the part (R178, R179, R180, R194): the
default plan takes its mode from AUTO, the debouncers of the plugged ports start, STBY is sampled, the first writes are placed
(R169), ATTN is asserted. With RESETN still low the reset goes on. These are the model's choice or reading: the plan copies' mode
OFF before the straps are latched (log entry 4), the last currents 0 (log entry 5), the area engine still in power-on reset (log
entry 16), the bus answer absent (log entry 27), the default plan's window base 0 (log entry 50), and that an access put on the bus
in power-on reset waits there, gone with POWER_ON_RESET itself, and arrives at its end after everything else of that event (log
entry 10). -/
def Obligations.PowerOnResetTakesAndEnds : Prop :=
  (∀ s : State, Completes .powerOnReset s (fun t =>
    t.mem = s.mem ∧ t.pending = s.pending ∧ t.part.mrc.resetnLow = s.part.mrc.resetnLow ∧
    t.part.mrc.stby = s.part.mrc.stby ∧ t.part.mrc.present = s.part.mrc.present ∧
    t.part.ports = PerPort.all (resetRecord (defaultPlan false)) ∧
    t.part.lanes = PerPort.all resetLane ∧ t.part.bu = resetBudget ∧ t.part.ms = resetSequencer ∧
    t.part.mo = resetOrderer ∧ t.part.ptp = resetPassThrough ∧ t.part.ae = resetAreaEngine ∧
    t.part.mrc.cause = .powerOn ∧ t.part.mrc.resetCount = 0 ∧ t.part.mrc.standby = false ∧
    t.part.mrc.rideThrough = false ∧ t.part.mrc.adoptionTimer = none ∧ t.part.mrc.phase = .powerOn)) ∧
  (∀ (straps : Straps) (s : State), s.part.mrc.phase = .powerOn → s.part.mrc.powerOnOver = false →
    Completes (.powerOnResetEnd straps) s (fun t =>
      (s.part.mrc.resetnLow = true → t.part.mrc.phase = .powerOn ∧ t.part.mrc.powerOnOver = true ∧
        t.part.mrc.straps = s.part.mrc.straps ∧ t.part.ptp.presented = s.part.ptp.presented) ∧
      (s.part.mrc.resetnLow = false → t.part.mrc.phase = .running ∧ t.part.mrc.straps = straps ∧
        t.part.ae.quiet = false ∧ resetEnded s.part t.part ∧
        t.part.mrc.standby = (s.part.mrc.stby || s.part.mrc.standby) ∧
        (∀ n, (s.part.port n).state = .empty → noEntry n s.part →
          (t.part.port n).plan = defaultPlan straps.auto ∧ (t.part.port n).state = .empty ∧
          (s.part.mrc.present.at n = true → (t.part.port n).timers.debouncer = some 10)))))

/-- An external reset with RTE low (R178, R179, R181): every switch opens, every port is EMPTY, the queue and the shed list are
empty, the requests are IDLE, and the reset counts as the next one, with cause 2. That the records keep their plan copies until
the end of the reset is the model's reading (log entry 42). -/
def Obligations.ResetWithRteLowEmptiesEveryPort : Prop :=
  ∀ s : State, s.part.mrc.phase = .running → s.part.mrc.resetnLow = false → s.part.mrc.straps.rte = false →
    Completes .resetnAssert s (fun t =>
      (∀ n, t.part.port n = resetRecord (s.part.port n).plan ∧ t.part.lane n = resetLane ∧
        t.part.request (.port n) = idleRequest ∧ t.part.ptp.shadows.at n = none ∧ t.part.mo.lists.at n = []) ∧
      t.part.bu = resetBudget ∧ committed t.part = 0 ∧ t.part.mo.wheel = defaultWheel ∧
      t.part.ptp.access = none ∧ t.part.request .device = idleRequest ∧ t.part.ae.summary = 0 ∧ t.part.ae.error = 0 ∧
      t.part.mrc.phase = .holdRteLow ∧ t.part.mrc.cause = .external ∧ t.part.mrc.rideThrough = false ∧
      t.part.mrc.resetCount = s.part.mrc.resetCount + 1 ∧ t.part.mrc.standby = false ∧
      t.part.ms.active = defaultSequence ∧
      t.part.ms.mode = (if s.part.ms.mode = .warming then .warming else .running))

/-- A ride-through reset (R182): a port in ON rides through as an orphan with its grant, stamp, plan, identity, fault cause and
accepted accesses, its on-time stopped, its lane PAUSED and an unsent CUE handed back as the pending cue; an orphan stays one with
its adopted mark cleared; a drain goes on; every other port with something to lose goes to OFF with its switch open, its
accepted accesses cancelled (R136) and a deferred request discarded (R36). -/
def Obligations.RideThroughResetKeepsAdmittedPorts : Prop :=
  ∀ s : State, s.part.mrc.phase = .running → s.part.mrc.resetnLow = false → s.part.mrc.straps.rte = true →
    queueLaw s.part →
    Completes .resetnAssert s (fun t =>
      (∀ n, (s.part.port n).state = .on →
        rodeThrough n s.part t.part ∧ (t.part.port n).stamp = (s.part.port n).stamp) ∧
      (∀ n, (s.part.port n).state = .orphan → t.part.port n = { s.part.port n with adopted := false }) ∧
      (∀ n, (s.part.port n).state ∈ [PortState.probe, .ramp, .settle, .queued, .restartWait, .fault, .parked] →
        (t.part.port n).state = .off ∧ (t.part.port n).grant = 0 ∧ (t.part.port n).flags.noPhase = false ∧
        (t.part.port n).plan = (s.part.port n).plan ∧ (t.part.port n).identity = (s.part.port n).identity) ∧
      (∀ n, (s.part.port n).state ∈ [PortState.probe, .ramp, .settle] →
        (t.part.port n).deferred = none ∧ clearedAtOpening n s.part t.part) ∧
      (∀ n, (s.part.port n).state = .drain ∨ (s.part.port n).state = .off ∨ (s.part.port n).state = .empty →
        t.part.port n = s.part.port n) ∧
      t.part.mrc.phase = .holdRideThrough ∧ t.part.mrc.cause = .external ∧ t.part.mrc.rideThrough = true ∧
      t.part.mrc.resetCount = s.part.mrc.resetCount + 1 ∧ t.part.mrc.standby = s.part.mrc.standby ∧
      t.part.mo.wheel = defaultWheel ∧ t.part.mo.pendingWheel = none ∧ t.part.ptp.access = none ∧
      t.part.ms.active = s.part.ms.active ∧ t.part.ms.offset = s.part.ms.offset ∧ t.part.bu.plan = s.part.bu.plan)

/-- RESETN deasserts (R178, R179, R181, R184): the straps are latched and the part runs. After a ride-through reset an orphan keeps
its plan and grant, and the adoption timer starts; a drain goes on with the destination that the default plan gives (R23), under
the class map and the port view it had; a port in EMPTY takes the default plan; a port in OFF takes it, is cleaned, and under AUTO
is queued, in the order of the port numbers, or parked in standby; an orphan or a drain whose window the moved Control Area meets
is stopped, its accepted accesses cancelled (R136), and becomes such a port in OFF. After a reset with RTE low every EMPTY port
takes the default plan, the debouncers of the plugged ports start, and STBY is sampled (R181, R194). The first writes are placed
(R169). An access presented in the hold arrives then, and its hold timer starts (R181, R183); that it arrives after everything else
of the event is the model's reading (log entry 10). A RESETN that deasserts before the end of power-on reset latches the straps,
and the reset goes on. The default plan's window base 0 is the model's choice (log entry 50). -/
def Obligations.ResetnDeassertLatchesTheStrapsAndRuns : Prop :=
  (∀ (straps : Straps) (s : State), s.part.mrc.resetnLow = true → s.part.mrc.phase ≠ .running →
    (s.part.mrc.phase = .powerOn → s.part.mrc.powerOnOver = true) →
    Completes (.resetnDeassert straps) s (fun t =>
      t.part.mrc.phase = .running ∧ t.part.mrc.straps = straps ∧ t.part.mrc.resetnLow = false ∧ resetEnded s.part t.part ∧
      (s.part.mrc.phase ≠ .holdRideThrough → t.part.mrc.standby = (s.part.mrc.stby || s.part.mrc.standby) ∧
        ∀ n, (s.part.port n).state = .empty → noEntry n s.part →
          (t.part.port n).plan = defaultPlan straps.auto ∧ (t.part.port n).state = .empty ∧
          (t.part.port n).timers.debouncer =
            if s.part.mrc.present.at n = true then some 10 else (s.part.port n).timers.debouncer) ∧
      (s.part.mrc.phase = .holdRideThrough → t.part.mrc.standby = s.part.mrc.standby ∧
        (∀ n, (s.part.port n).state = .orphan → noEntry n s.part → movedOnto straps n s.part = false →
          sameButStamp (s.part.port n) (t.part.port n) ∧ t.part.ptp.windows.at n = s.part.ptp.windows.at n ∧
          ((s.part.port n).adopted = false → t.part.mrc.adoptionTimer = some 5000)) ∧
        (∀ n, (s.part.port n).state = .drain → noEntry n s.part → movedOnto straps n s.part = false →
          drainRetargeted n straps.auto s.part t.part) ∧
        (∀ n, (s.part.port n).state = .empty → noEntry n s.part → emptyDefaulted n straps.auto s.part t.part) ∧
        (∀ n, (s.part.port n).state = .off → noEntry n s.part →
          cleanedAndQueued n straps.auto s.part.mrc.standby t.part) ∧
        (∀ n, (s.part.port n).state ∈ [PortState.orphan, .drain] → noEntry n s.part → movedOnto straps n s.part = true →
          cleanedAndQueued n straps.auto s.part.mrc.standby t.part ∧ (t.part.port n).drain = none ∧
          (straps.auto = false → (t.part.port n).grant = 0) ∧ clearedAtOpening n s.part t.part) ∧
        (s.part.bu.queue = [] → queuedByNumber s.part t.part)))) ∧
  (∀ (straps : Straps) (s : State), s.part.mrc.resetnLow = true → s.part.mrc.phase = .powerOn →
    s.part.mrc.powerOnOver = false →
    Completes (.resetnDeassert straps) s (fun t =>
      t.part.mrc.phase = .powerOn ∧ t.part.mrc.straps = straps ∧ t.part.mrc.resetnLow = false ∧
      t.part.ptp.presented = s.part.ptp.presented))

/-- A full-word write of SOFT_RESET to the IDLE device command word is taken and answered at once, writes no TAKEN image, and is
handed to the mode and reset control (R153, R155, R185). -/
def Obligations.SoftResetWriteIsAnsweredAtOnce : Prop :=
  ∀ (high : BitVec 24) (s : State), busReady s.part → (s.part.request .device).taken = false →
    s.part.mo.pendingWheel = none →
    Completes (.softReset high) s (fun t =>
      t.part.mrc.softReset = true ∧ (t.part.request .device).taken = true ∧ (t.part.request .device).code = 0x0F ∧
      t.part.ptp.access = none ∧ t.part.ptp.answer = some { error := false, data := [] } ∧
      (s.part.mo.cp = none → t.part.mo.cp = none) ∧
      t.part.ports = s.part.ports ∧ t.part.bu = s.part.bu ∧ t.part.ms = s.part.ms ∧ t.part.lanes = s.part.lanes)

/-- SOFT_RESET_TAKE is the whole reset in one event (R179, R185, R186): cause 3, the reset count advanced, the straps not latched
again, every request IDLE, no access in progress or presented, the first writes placed (R169). With the latched RTE low every block
takes the values of such a reset and every port the default plan, the debouncers of the plugged ports start, and STBY is sampled
(R181, R194). With it high the take and the end of a ride-through reset act on each port in turn (R182, R184): a port in ON is an
orphan, an orphan stays one with its adopted mark cleared, and with either the adoption timer starts (R190); a drain goes on with
the destination that the default plan gives; a port in PROBE, RAMP or SETTLE has its switch opened and a deferred request discarded
(R36), and with every other present port goes to OFF, takes the default plan, is cleaned, and under AUTO is queued, in the order of
the port numbers, or parked in standby; a port in EMPTY takes the default plan. The default plan's window base 0 is the model's
choice (log entry 50). -/
def Obligations.SoftResetTakeIsOneEvent : Prop :=
  ∀ s : State, s.part.mrc.softReset = true → s.part.mrc.phase = .running →
    let auto := s.part.mrc.straps.auto
    Completes .softResetTake s (fun t =>
      t.part.mrc.phase = .running ∧ t.part.mrc.cause = .soft ∧
      t.part.mrc.resetCount = s.part.mrc.resetCount + 1 ∧ t.part.mrc.rideThrough = s.part.mrc.straps.rte ∧
      t.part.mrc.straps = s.part.mrc.straps ∧ t.part.mrc.softReset = false ∧ t.part.ptp.access = none ∧
      t.part.ptp.presented = none ∧ t.part.mo.wheel = defaultWheel ∧ t.part.mo.pendingWheel = none ∧
      (t.part.request .device).taken = false ∧
      (∀ n, (t.part.request (.port n)).taken = false) ∧ attn t.part = true ∧ firstWritesPlaced t.part ∧
      (s.part.mrc.straps.rte = false →
        t.part.bu = resetBudget ∧ t.part.ms.active = defaultSequence ∧
        t.part.ms.mode = (if s.part.ms.mode = .warming then .warming else .running) ∧
        t.part.mrc.standby = s.part.mrc.stby ∧ t.part.mrc.adoptionTimer = none ∧
        ∀ n, t.part.port n = { resetRecord (defaultPlan auto) with
            timers := { stoppedTimers with debouncer := if s.part.mrc.present.at n then some 10 else none } } ∧
          t.part.lane n = resetLane ∧ t.part.mo.lists.at n = [] ∧ t.part.ptp.shadows.at n = none) ∧
      (s.part.mrc.straps.rte = true → queueLaw s.part →
        t.part.bu.plan = s.part.bu.plan ∧ t.part.ms.active = s.part.ms.active ∧ t.part.ms.offset = s.part.ms.offset ∧
        t.part.mrc.standby = s.part.mrc.standby ∧
        (∀ n, (s.part.port n).state = .on → rodeThrough n s.part t.part) ∧
        (∀ n, (s.part.port n).state = .orphan →
          sameButStamp { s.part.port n with adopted := false } (t.part.port n) ∧
          t.part.ptp.windows.at n = s.part.ptp.windows.at n) ∧
        (∀ n, (s.part.port n).state ∈ [PortState.on, .orphan] → t.part.mrc.adoptionTimer = some 5000) ∧
        ((∀ n, (s.part.port n).state ∉ [PortState.on, .orphan]) → t.part.mrc.adoptionTimer = none) ∧
        (∀ n, (s.part.port n).state = .drain → drainRetargeted n auto s.part t.part) ∧
        (∀ n, (s.part.port n).state ∈ [PortState.probe, .ramp, .settle] →
          (t.part.port n).deferred = none ∧ clearedAtOpening n s.part t.part) ∧
        (∀ n, (s.part.port n).state ∈ [PortState.probe, .ramp, .settle, .queued, .restartWait, .fault, .parked, .off] →
          cleanedAndQueued n auto s.part.mrc.standby t.part ∧ (t.part.port n).identity = (s.part.port n).identity) ∧
        (∀ n, (s.part.port n).state ∈ [PortState.probe, .ramp, .settle, .queued, .restartWait, .fault, .parked] →
          (t.part.port n).flags.noPhase = false ∧ (auto = false → (t.part.port n).grant = 0)) ∧
        (∀ n, (s.part.port n).state = .empty → emptyDefaulted n auto s.part t.part) ∧
        byNumber t.part.bu.queue))

/-! ### Standby and adoption -/

/-- Standby entry (R191): the state is in standby; a port in ON with keep-in-standby stays and is marked KEPT, one without drains
with reason STANDBY (R21), which with nothing to flush and a grace time of 0 is over at once in PARKED (R22, R23), in a reset hold
in OFF (R183); outside a reset hold a port in QUEUED, PROBE, RAMP, SETTLE or RESTART_WAIT is parked, and a deferred request
is applied to it in PARKED (R35, R36); the others are not touched. -/
def Obligations.StandbyEntryParksThePorts : Prop :=
  ∀ s : State, s.part.mrc.stby = false → (s.part.mrc.phase = .running ∨ s.part.mrc.phase = .holdRideThrough) →
    Completes .standbyEntry s (fun t =>
      t.part.mrc.stby = true ∧ t.part.mrc.standby = true ∧
      (∀ n, (s.part.port n).state = .on → noEntry n s.part → (s.part.port n).plan.keep = true →
        (t.part.port n).state = .on ∧ (t.part.port n).flags.kept = true ∧
        (t.part.port n).grant = (s.part.port n).grant) ∧
      (∀ n, (s.part.port n).state = .on → noEntry n s.part → (s.part.port n).plan.keep = false →
        drains .standby .parked (if s.part.mrc.phase = .running then .parked else .off) (s.part.lane n).outstanding
          (s.part.port n) (t.part.port n)) ∧
      (s.part.mrc.phase = .running → ∀ n,
        (s.part.port n).state ∈ [PortState.queued, .probe, .ramp, .settle, .restartWait] →
        (s.part.port n).deferred = none →
        (t.part.port n).state = .parked ∧ (t.part.port n).grant = 0 ∧ noEntry n t.part) ∧
      (s.part.mrc.phase = .running → ∀ n plan, (s.part.port n).deferred = some plan →
        (s.part.port n).state ∈ [PortState.probe, .ramp, .settle] →
        stored n plan t.part ∧ (t.part.port n).deferred = none ∧ (t.part.port n).grant = 0 ∧ noEntry n t.part ∧
        (t.part.port n).state = if plan.mode = .off then .off else .parked) ∧
      (∀ n, (s.part.port n).state ∈ [PortState.empty, .off, .fault, .drain, .orphan] → noEntry n s.part →
        sameButStamp (s.part.port n) (t.part.port n)))

/-- Standby exit (R193): the state is not in standby, KEPT is cleared, a drain for standby ends in QUEUED or, with mode OFF, in
OFF, and a parked port is queued, or granted in the same event. The entries of the parked ports take their ages by priority, highest
first, and within one priority by port number, behind the entries that joined before. In a ride-through hold it is taken too, and a
parked port goes to OFF (R183). -/
def Obligations.StandbyExitQueuesTheParkedPorts : Prop :=
  ∀ s : State, s.part.mrc.stby = true → (s.part.mrc.phase = .running ∨ s.part.mrc.phase = .holdRideThrough) →
    Completes .standbyExit s (fun t =>
      t.part.mrc.stby = false ∧ t.part.mrc.standby = false ∧
      (∀ n, (s.part.port n).state ≠ .parked → quiet n s.part → (t.part.port n).flags.kept = false ∧
        (t.part.port n).state = (s.part.port n).state ∧ (t.part.port n).grant = (s.part.port n).grant) ∧
      (∀ n d, (s.part.port n).state = .drain → noEntry n s.part → (s.part.port n).drain = some d →
        d.reason = .standby →
        (t.part.port n).drain = some
          { d with dest := if (s.part.port n).plan.mode = .off then .off else .queued }) ∧
      (s.part.mrc.phase = .running →
        (∀ n, (s.part.port n).state = .parked → noEntry n s.part → queuedOrGranted n t.part) ∧
        (queueLaw s.part → restoredInOrder s.part t.part)) ∧
      (s.part.mrc.phase = .holdRideThrough →
        ∀ n, (s.part.port n).state = .parked → noEntry n s.part →
          (t.part.port n).state = .off ∧ (t.part.port n).grant = 0 ∧ noEntry n t.part))

/-- The adoption timer expires (R190): the adoption window closes, an orphan not adopted drains with reason UNADOPTED under the
grace time of its kept plan (R21), which with nothing to flush and a grace time of 0 is over at once in OFF (R22, R23), and an
adopted one waits on. Any other command but the resets leaves the timer running while a port is in ORPHAN with its adopted mark
clear, and stops it in the event that leaves no such port: an adoption, a drain's start, a failure or a presence loss. -/
def Obligations.AdoptionTimerExpiresOrStops : Prop :=
  (∀ s : State, s.part.mrc.adoptionTimer.isSome = true →
    Completes .adoptionTimerExpiry s (fun t =>
      t.part.mrc.adoptionTimer = none ∧
      (∀ n, (s.part.port n).state = .orphan → (s.part.port n).adopted = false →
        drains .unadopted .off .off (s.part.lane n).outstanding (s.part.port n) (t.part.port n)) ∧
      (∀ n, (s.part.port n).state = .orphan → (s.part.port n).adopted = true → noEntry n s.part →
        sameButStamp (s.part.port n) (t.part.port n)))) ∧
  (∀ (c : Instr) (s t : State), exec c s = .next t → isReset c = false → c ≠ .adoptionTimerExpiry → queueLaw s.part →
    adoptionLaw s.part →
    t.part.mrc.adoptionTimer = if unadoptedLeft t.part = true then s.part.mrc.adoptionTimer else none)

/-! ### Presence and the port timers -/

/-- A presence input asserts and the port arrives (R8): the debouncer starts in EMPTY; after its 10 ms the port goes to OFF under
a plan with mode OFF and to the queue otherwise, to PARKED in standby (R192) and to OFF in a reset hold (R183). -/
def Obligations.ArrivalFollowsTheDebouncedPresence : Prop :=
  (∀ (n : Port) (s : State), s.part.mrc.present.at n = false → quiet n s.part →
    Completes (.presenceAssert n) s (fun t =>
      t.part.mrc.present.at n = true ∧
      ((s.part.port n).state = .empty → (s.part.mrc.phase = .running ∨ s.part.mrc.phase = .holdRideThrough) →
        (t.part.port n).timers.debouncer = some 10 ∧ (t.part.port n).state = .empty) ∧
      ((s.part.port n).state ≠ .empty → sameButStamp (s.part.port n) (t.part.port n)))) ∧
  (∀ (n : Port) (s : State), (s.part.port n).timers.debouncer.isSome = true →
    Completes (.arrival n) s (fun t =>
      ((s.part.port n).plan.mode = .off → (t.part.port n).state = .off) ∧
      ((s.part.port n).plan.mode ≠ .off → s.part.mrc.phase ≠ .running → (t.part.port n).state = .off) ∧
      ((s.part.port n).plan.mode ≠ .off → s.part.mrc.phase = .running → s.part.mrc.standby = true →
        (t.part.port n).state = .parked) ∧
      ((s.part.port n).plan.mode ≠ .off → s.part.mrc.phase = .running → s.part.mrc.standby = false →
        queuedOrGranted n t.part ∧ (t.part.port n).flags.left = false)))

/-- Presence loss (R9): in EMPTY it stops the debouncer; in every other state the port goes to EMPTY with its switch open, its
identity, pending cue, fault cause and flags gone and its restart count 0, its lane is IDLE, and a deferred plan is stored and its
request DONE. With the opening of a closed switch its accepted accesses are cancelled and its tags freed (R136), and it leaves the
shed list (R46). -/
def Obligations.PresenceLossEmptiesThePort : Prop :=
  ∀ (n : Port) (s : State), s.part.mrc.present.at n = true →
    Completes (.presenceLoss n) s (fun t =>
      t.part.mrc.present.at n = false ∧
      ((s.part.port n).state = .empty → noEntry n s.part →
        (t.part.port n).timers.debouncer = none ∧ (t.part.port n).state = .empty) ∧
      ((s.part.port n).state ≠ .empty →
        (t.part.port n).state = .empty ∧ (t.part.port n).grant = 0 ∧ (t.part.port n).identity = none ∧
        (t.part.port n).pendingCue = none ∧ (t.part.port n).cause = none ∧ (t.part.port n).restartCount = 0 ∧
        (t.part.port n).flags = clearFlags ∧ (t.part.port n).drain = none ∧
        (t.part.port n).timers = stoppedTimers ∧ (t.part.port n).deferred = none ∧
        (t.part.port n).plan = (s.part.port n).deferred.getD (s.part.port n).plan ∧
        (∀ plan, (s.part.port n).deferred = some plan → stored n plan t.part) ∧
        (t.part.port n).trips = (s.part.port n).trips ∧
        (t.part.port n).checkErrors = (s.part.port n).checkErrors ∧
        (t.part.port n).overruns = (s.part.port n).overruns ∧ noEntry n t.part ∧ (t.part.lane n).mode = .idle ∧
        ((s.part.port n).state.closed = true → clearedAtOpening n s.part t.part)))

/-- R12: the HELLO timer's expiry opens the switch and faults the port with cause NO_HELLO; it is no restart. -/
def Obligations.HelloTimerExpiryFaultsThePort : Prop :=
  ∀ (n : Port) (s : State), (s.part.port n).timers.hello.isSome = true →
    Completes (.helloTimerExpiry n) s (fun t =>
      (t.part.port n).state = .fault ∧ (t.part.port n).cause = some .noHello ∧ (t.part.port n).grant = 0 ∧
      (t.part.port n).state.closed = false ∧ noEntry n t.part ∧
      (t.part.port n).restartCount = (s.part.port n).restartCount ∧
      (t.part.port n).trips = (s.part.port n).trips)

/-- The settle timer's expiry is the admission test (R16, R18): a lane-NONE port, or one with a window and a phase of the active
wheel, goes to ON with its on-time at 0 and an OPEN due; another waits with NO_PHASE, or is admitted by a wheel swapped in at the
end of the event (R17, R132). A deferred request is applied then (R36): after the entry actions as in ON (R37), or as to a port
that waits with NO_PHASE (R38). That a deferred plan with mode OFF drains under the plan held before it is the model's reading (log
entry 19). -/
def Obligations.SettleTimerExpiryTestsAdmission : Prop :=
  ∀ (n : Port) (s : State), (s.part.port n).timers.settle.isSome = true → (s.part.port n).state = .settle →
    noEntry n s.part →
    Completes (.settleTimerExpiry n) s (fun t =>
      (((s.part.port n).plan.laneUse = .unused ∨
          ((s.part.port n).plan.size ≠ 0 ∧ some (Participant.port n) ∈ s.part.mo.wheel)) →
        ((s.part.port n).deferred = none →
          (t.part.port n).state = .on ∧ (t.part.port n).onTime = 0 ∧ (t.part.port n).timers.onTime = true ∧
          (t.part.port n).flags.noPhase = false ∧ (t.part.port n).grant = (s.part.port n).grant ∧
          ((s.part.port n).plan.laneUse = .expected →
            (t.part.lane n).openDue = some ((s.part.port n).plan.size / 256))) ∧
        (∀ plan, (s.part.port n).deferred = some plan → s.part.mrc.phase = .running →
          (t.part.port n).deferred = none ∧ (t.part.port n).onTime = 0 ∧
          applyOn n plan (s.part.setPort n (enteredOn (s.part.port n))) t.part)) ∧
      ((s.part.port n).plan.laneUse = .expected →
        ((s.part.port n).plan.size = 0 ∨ some (Participant.port n) ∉ s.part.mo.wheel) →
        ((s.part.port n).deferred = none →
          waitsOrAdmitted n s.part t.part ∧ (t.part.port n).grant = (s.part.port n).grant) ∧
        (∀ plan, (s.part.port n).deferred = some plan → planFieldsValid plan = true →
          (t.part.port n).deferred = none ∧
          applyUnnamed n plan (s.part.setPort n (leftWaiting (s.part.port n))) t.part)))

/-- The on-time (R6, R20): at 60 s the restart count is cleared, the cause discarded, and the on-time stops and holds; the report
of a whole second gives the port's status a write-back (its granularity is the model's choice, log entry 11). -/
def Obligations.OnTimeIsReportedAndLimited : Prop :=
  (∀ (n : Port) (s : State), (s.part.port n).timers.onTime = true → quiet n s.part →
    Completes (.onTimeLimit n) s (fun t =>
      (t.part.port n).onTime = 60000 ∧ (t.part.port n).restartCount = 0 ∧ (t.part.port n).cause = none ∧
      (t.part.port n).timers.onTime = false ∧ (t.part.port n).state = (s.part.port n).state ∧
      (t.part.port n).grant = (s.part.port n).grant ∧ (t.part.port n).plan = (s.part.port n).plan)) ∧
  (∀ (n : Port) (s : State), (s.part.port n).state = .on → s.part.ae.quiet = false → s.part.mo.inFlight ≠ none →
    Completes (.onTimeReport n) s (fun t =>
      Target.status n ∈ t.part.ae.writeBacks ∧ (t.part.port n).state = .on ∧
      ((s.part.port n).timers.onTime = false → (t.part.port n).onTime = (s.part.port n).onTime) ∧
      ((s.part.port n).timers.onTime = true → (s.part.port n).onTime < 59000 →
        (t.part.port n).onTime = ((s.part.port n).onTime / 1000 + 1) * 1000)))

/-- The grace timer's expiry ends the drain in its destination (R22, R23), redirected in standby (R192), and in a ride-through hold
to OFF (R183), with the restart count as it was; as its switch opens, the port's accepted accesses are cancelled (R136) and it
leaves the shed list (R46). The restart timer's expiry (R32): the port is queued again with its restart count and identity, or goes
to OFF under a plan with mode OFF; in standby it is parked (R192). -/
def Obligations.GraceAndRestartTimersMoveThePort : Prop :=
  (∀ (n : Port) (d : Drain) (s : State), (s.part.port n).timers.grace.isSome = true →
    (s.part.port n).drain = some d →
    Completes (.graceTimerExpiry n) s (fun t =>
      drainEnded n d s.part t.part ∧
      ((s.part.port n).state = .drain → clearedAtOpening n s.part t.part) ∧
      (t.part.port n).restartCount = (s.part.port n).restartCount)) ∧
  (∀ (n : Port) (s : State), (s.part.port n).timers.restart.isSome = true → s.part.mrc.phase = .running →
    Completes (.restartTimerExpiry n) s (fun t =>
      (t.part.port n).restartCount = (s.part.port n).restartCount ∧
      (t.part.port n).identity = (s.part.port n).identity ∧
      ((s.part.port n).plan.mode = .off → (t.part.port n).state = .off) ∧
      ((s.part.port n).plan.mode ≠ .off → s.part.mrc.standby = true → (t.part.port n).state = .parked) ∧
      ((s.part.port n).plan.mode ≠ .off → s.part.mrc.standby = false → queuedOrGranted n t.part)))

/-- A shed order taken (R26): a port starting up goes back to the queue, an admitted one drains with reason SHED and its grace
capped at 20 ms (R21, R22), which with nothing to flush and a grace time of 0 is over at once with the port queued again (R23), or
parked in standby (R192), in a ride-through hold in OFF (R183), any other discards the order and goes on, or is granted in the same
event (R58). The port leaves the shed list at the opening of its switch and at the discard, and a port that drains stays on it
(R46, R60). A deferred request is applied in QUEUED (R35, R36). A shed is no failure. -/
def Obligations.ShedOrderIsCarriedOutByState : Prop :=
  ∀ (n : Port) (s : State), n ∈ s.part.bu.orders →
    Completes (.shedOrderTaken n) s (fun t =>
      ((s.part.port n).state ∈ [PortState.probe, .ramp, .settle] → (s.part.port n).deferred = none →
        s.part.mrc.phase = .running →
        (t.part.port n).restartCount = (s.part.port n).restartCount ∧
        (t.part.port n).cause = (s.part.port n).cause ∧ clearedAtOpening n s.part t.part ∧
        (s.part.mrc.standby = true → (t.part.port n).state = .parked) ∧
        (s.part.mrc.standby = false → queuedOrGranted n t.part)) ∧
      (∀ plan, (s.part.port n).deferred = some plan → (s.part.port n).state ∈ [PortState.probe, .ramp, .settle] →
        s.part.mrc.phase = .running →
        (t.part.port n).cause = (s.part.port n).cause ∧ clearedAtOpening n s.part t.part ∧
        deferredQueued n plan s.part.mrc.standby t.part) ∧
      ((s.part.port n).state ∈ [PortState.on, .orphan] →
        (n ∈ s.part.bu.shedList → (t.part.port n).state = .drain → n ∈ t.part.bu.shedList) ∧
        ((t.part.port n).state ≠ .drain → clearedAtOpening n s.part t.part) ∧
        (t.part.port n).restartCount = (s.part.port n).restartCount ∧ (t.part.port n).cause = (s.part.port n).cause ∧
        drainsWithin (min 20 (graceMs (s.part.port n).plan.grace)) .shed .queued (s.part.lane n).outstanding
          (s.part.port n) (t.part.port n)
          ((s.part.mrc.phase = .holdRideThrough → (t.part.port n).state = .off ∧ (t.part.port n).grant = 0) ∧
            (s.part.mrc.phase = .running → s.part.mrc.standby = true → (t.part.port n).state = .parked) ∧
            (s.part.mrc.phase = .running → s.part.mrc.standby = false → queuedOrGranted n t.part))) ∧
      ((s.part.port n).state ∉ [PortState.probe, .ramp, .settle, .on, .orphan] → queueLaw s.part → waitLaw s.part →
        goesOn n (s.part.port n) s.part t.part ∧ n ∉ t.part.bu.shedList))

/-- The ramp timer's expiry is a failure with cause RAMP_TIMEOUT that counts no trip (R15). The hard limit is a failure with cause
HARD in every state with the switch closed (R28). They are handled by R29 and R31: a port that would restart goes to OFF in a
ride-through hold (R183); a deferred request is applied in the state they lead to (R35, R36); in DRAIN the hard limit ends the
drain in its destination without a restart (R23, R30); each hard trip counts. As the switch opens, the port's accepted accesses are
cancelled and its tags freed (R29 step 3, R136), and it leaves the shed list (R46). -/
def Obligations.SwitchFailuresFollowTheRestartLimit : Prop :=
  (∀ (n : Port) (s : State), (s.part.port n).timers.ramp.isSome = true → (s.part.port n).state = .ramp →
    Completes (.rampTimerExpiry n) s (fun t =>
      ((s.part.port n).deferred = none → failedInto .rampTimeout s.part.mrc.phase (s.part.port n) (t.part.port n)) ∧
      (∀ plan, (s.part.port n).deferred = some plan → s.part.mrc.phase = .running →
        failedApplied .rampTimeout n plan s.part t.part) ∧
      clearedAtOpening n s.part t.part ∧
      (t.part.port n).trips = (s.part.port n).trips)) ∧
  (∀ (n : Port) (sensed : Nat) (s : State), (s.part.port n).state.closed = true → 1200 < sensed →
    Completes (.hardLimitTrip n sensed) s (fun t =>
      ((s.part.port n).state ≠ .drain →
        ((s.part.port n).deferred = none → failedInto .hard s.part.mrc.phase (s.part.port n) (t.part.port n)) ∧
        (∀ plan, (s.part.port n).deferred = some plan → s.part.mrc.phase = .running →
          failedApplied .hard n plan s.part t.part) ∧
        clearedAtOpening n s.part t.part ∧
        (t.part.port n).trips = min 255 ((s.part.port n).trips + 1)) ∧
      (∀ d, (s.part.port n).drain = some d → (s.part.port n).state = .drain →
        drainEnded n d s.part t.part ∧ clearedAtOpening n s.part t.part ∧ (t.part.port n).cause = some .hard ∧
        (t.part.port n).restartCount = (s.part.port n).restartCount ∧
        (t.part.port n).trips = min 255 ((s.part.port n).trips + 1))))

/-! ### Requests -/

/-- A full-word write of a code to an IDLE request word is taken and its TAKEN image goes to the word's place in the Control Area
(R153, R160, R161). The four requests that copy a record start its copy read, and no port is touched before the copy is delivered
(R148, R155); a code that is not defined for the word is completed REFUSED with INVALID in the event of the take (R155, R161).
While a wheel waits, the device command word is TAKEN and port requests are taken all the same (R154): every port goes on, or is
granted or admitted by the swap of that wheel at the end of the event (R17, R132). -/
def Obligations.RequestsAreTakenWithTheirImages : Prop :=
  (∀ (high : BitVec 24) (n : Port) (s : State), busReady s.part →
    ∀ c w code source,
      (c, w, code, source) ∈ [(Instr.apply n high, ReqWord.port n, (0x11 : Byte), Source.plan n),
        (.applyDevice high, .device, 0x01, .devicePlan), (.loadWheel high, .device, 0x02, .wheelImage),
        (.loadSequence high, .device, 0x03, .sequencePlan)] →
      (s.part.request w).taken = false → (w = .device → s.part.mo.pendingWheel = none) →
      Completes c s (fun t =>
        (t.part.request w).taken = true ∧ (t.part.request w).code = code ∧ (t.part.request w).completion = none ∧
        takenImageCarried w code (high.setWidth 8) t.part ∧ protectedNow t.part source = true ∧
        t.part.ptp.holdTimer = some 32 ∧ untouched s.part t.part)) ∧
  (∀ (w : ReqWord) (value : Word) (s : State), (Instr.undefinedRequestCode w value).wf = true → busReady s.part →
    (s.part.request w).taken = false → (w = .device → s.part.mo.pendingWheel = none) →
    Completes (.undefinedRequestCode w value) s (fun t =>
      (t.part.request w).taken = true ∧ (t.part.request w).completion = some .invalid ∧
      takenImageCarried w (wordByte value 0) (wordByte value 1) t.part ∧ untouched s.part t.part))

/-- CLEAR (R39) and RESTART (R40): the request is taken, and its TAKEN image goes to its word (R153, R160). CLEAR completes DONE
with OK. In FAULT both discard the cause and clear the restart count, and the port goes to OFF under a plan with mode OFF, is
parked in standby (R192), and otherwise is queued with the next age, or granted in the same event (R52, R57, R58). In ON a RESTART
starts a drain with reason RESTART_CMD, which with nothing to flush and a grace time of 0 is over at once in RESTART_WAIT (R22,
R23), and the request is DONE. In any other state, and a CLEAR in ON too, no port is changed, and a RESTART is REFUSED with STATE.
While a wheel waits they are taken all the same (R154). Every port that the request leaves alone goes on, or is granted by what it
frees, or granted or admitted by the swap of that wheel at the end of the event (R17, R58, R132). -/
def Obligations.ClearAndRestartActByState : Prop :=
  ∀ (n : Port) (high : BitVec 24) (s : State), busReady s.part → (s.part.request (.port n)).taken = false →
    budgetLaw s.part → queueLaw s.part → waitLaw s.part →
    let restored := fun (q : Part) => (q.port n).cause = none ∧ (q.port n).restartCount = 0 ∧
      ((s.part.port n).plan.mode = .off → (q.port n).state = .off) ∧
      ((s.part.port n).plan.mode ≠ .off → s.part.mrc.standby = true → (q.port n).state = .parked) ∧
      ((s.part.port n).plan.mode ≠ .off → s.part.mrc.standby = false → queuedOrGranted n q ∧ youngest n q)
    Completes (.clear n high) s (fun t =>
      (t.part.request (.port n)).taken = true ∧ (t.part.request (.port n)).completion = some .ok ∧
      takenImageCarried (.port n) 0x12 (high.setWidth 8) t.part ∧
      (∀ m, m ≠ n ∨ (s.part.port n).state ≠ .fault → goesOn m (s.part.port m) s.part t.part) ∧
      ((s.part.port n).state ≠ .fault → s.part.mo.pendingWheel = none → t.part.ports = s.part.ports) ∧
      ((s.part.port n).state = .fault → restored t.part)) ∧
    Completes (.restart n high) s (fun t =>
      (t.part.request (.port n)).taken = true ∧ takenImageCarried (.port n) 0x13 (high.setWidth 8) t.part ∧
      (∀ m, m ≠ n ∨ (s.part.port n).state ∉ [PortState.on, .fault] → goesOn m (s.part.port m) s.part t.part) ∧
      ((s.part.port n).state = .on →
        (t.part.request (.port n)).completion = some .ok ∧
        (t.part.port n).restartCount = (s.part.port n).restartCount ∧
        drains .restartCmd .restartWait .restartWait (s.part.lane n).outstanding (s.part.port n) (t.part.port n) ∧
        ((t.part.port n).state = .restartWait → (t.part.port n).timers.restart = some 500)) ∧
      ((s.part.port n).state = .fault →
        (t.part.request (.port n)).completion = some .ok ∧ restored t.part) ∧
      ((s.part.port n).state ≠ .on → (s.part.port n).state ≠ .fault →
        (t.part.request (.port n)).completion = some .state ∧
        (s.part.mo.pendingWheel = none → t.part.ports = s.part.ports)))

/-- The sequencer commands at their take (R74 to R77, R81): each is taken and its TAKEN image goes to the device command word (R153,
R160, R161); held in WARMING; SEQ_RUN runs the rounds; SEQ_ONCE and SEQ_STOP are REFUSED with POWERED while a switch is closed;
SEQ_ONCE makes one round in STOPPED, from the first slot of the range, and in RUNNING the round in progress and one more; CALIBRATE
begins at once in STOPPED and otherwise waits for the end of the round. -/
def Obligations.SequencerCommandsActByTheMode : Prop :=
  ∀ (high : BitVec 24) (s : State), busReady s.part → (s.part.request .device).taken = false →
    s.part.mo.pendingWheel = none →
    (∀ c k code, (c, k, code) ∈ [(Instr.seqRun high, SeqCommand.run, (0x04 : Byte)), (.seqOnce high, .once, 0x05),
        (.seqStop high, .stop, 0x06), (.calibrate high, .calibrate, 0x07)] →
      Completes c s (fun t =>
        (t.part.request .device).taken = true ∧ (t.part.request .device).code = code ∧
        takenImageCarried .device code (high.setWidth 8) t.part ∧
        (s.part.ms.mode = .warming → t.part.ms = { s.part.ms with held := some k } ∧
          (t.part.request .device).completion = none))) ∧
    (s.part.ms.mode ≠ .warming →
      Completes (.seqRun high) s (fun t =>
        (t.part.request .device).completion = some .ok ∧
        (s.part.ms.mode = .stopped → t.part.ms.mode = .running) ∧
        (s.part.ms.mode = .stopped → s.part.ms.atRest = true → t.part.ms.current = some s.part.ms.active.start) ∧
        (s.part.ms.mode ≠ .stopped → t.part.ms = s.part.ms)) ∧
      Completes (.seqOnce high) s (fun t =>
        (anyClosed s.part = true → (t.part.request .device).completion = some .powered ∧ t.part.ms = s.part.ms) ∧
        (anyClosed s.part = false →
          t.part.ms.mode = .once ∧ t.part.ms.command = some .once ∧ (t.part.request .device).completion = none ∧
          (s.part.ms.mode = .stopped → s.part.ms.atRest = true →
            t.part.ms.onceRounds = 1 ∧ t.part.ms.current = some s.part.ms.active.start) ∧
          (s.part.ms.mode = .running → ∀ i, s.part.ms.current = some i →
            t.part.ms.onceRounds = 2 ∧ t.part.ms.current = some i))) ∧
      Completes (.seqStop high) s (fun t =>
        (anyClosed s.part = true → (t.part.request .device).completion = some .powered ∧ t.part.ms = s.part.ms) ∧
        (anyClosed s.part = false → t.part.ms.mode = .stopped ∧
          (s.part.ms.busy = false → (t.part.request .device).completion = some .ok ∧ t.part.ms.command = none) ∧
          (s.part.ms.mode ≠ .stopped → s.part.ms.busy = true →
            (t.part.request .device).completion = none ∧ t.part.ms.command = some .stop))) ∧
      Completes (.calibrate high) s (fun t =>
        t.part.ms.command = some .calibrate ∧ (t.part.request .device).completion = none ∧
        (s.part.ms.mode = .stopped → t.part.ms.mode = .stopped ∧ t.part.ms.calibration = some ⟨0, 0, false⟩) ∧
        (s.part.ms.mode ≠ .stopped → t.part.ms.mode = .calibrating ∧ t.part.ms.current = s.part.ms.current)))

/-! ### Accesses on the controller bus -/

/-- R150 and its table: a write to a part-owned word, a partial write to a request word, and a full-word write to a request word
whose request is TAKEN are dropped: answered with completion at once, carried nowhere, and told by an error bit. A write held
until the hold limit is answered with bus error instead. -/
def Obligations.DroppedWritesAreAnsweredWithCompletion : Prop :=
  (∀ (c : Instr) (bit : Word) (s : State), busReady s.part →
    ((∃ offset enables value, c = .partOwnedWrite offset enables value ∧ c.wf = true ∧ bit = 4#32) ∨
      (∃ w enables value, c = .partialRequestWrite w enables value ∧ c.wf = true ∧ bit = 2#32) ∨
      (∃ w value, c = .busyRequestWrite w value ∧ (s.part.request w).taken = true ∧ bit = 1#32)) →
    Completes c s (fun t =>
      t.mem = s.mem ∧ t.part.ptp.access = none ∧ t.part.ptp.answer = some { error := false, data := [] } ∧
      t.part.ae.error = s.part.ae.error ||| bit ∧ (s.part.mo.cp = none → t.part.mo.cp = none) ∧
      (∀ w, (t.part.request w).taken = (s.part.request w).taken ∧
        (t.part.request w).code = (s.part.request w).code) ∧
      (s.part.mo.pendingWheel = none → t.part.ports = s.part.ports ∧ t.part.bu = s.part.bu ∧
        t.part.ms = s.part.ms ∧ t.part.lanes = s.part.lanes))) ∧
  (∀ (a : Access) (source : Source) (s : State), s.part.ptp.holdTimer.isSome = true → s.part.ptp.access = some a →
    a.bus.write = true → a.stage = .waitingCopy source →
    Completes .holdTimerExpiry s (fun t => t.part.ptp.access = none ∧
      t.part.ptp.answer = some { error := true, data := [] }))

/-- The two holds: a read of a part-owned or merge word waits for the pending write-back of its record and is carried at once
without one (R149); a write of a host-owned word waits while a copy read protects it and is carried otherwise (R147, R148). At the
completion of that write-back, and of that copy read, faulted or not, the held access is carried with its hold timer still
running, and the protection ends (R144, R148, R149). -/
def Obligations.HoldsWaitForTheAreaEngine : Prop :=
  (∀ (offset : BitVec 12) (enables : BitVec 4) (record : Target) (s : State),
    (Instr.partOwnedRead offset enables).wf = true → busReady s.part →
    (wordClass offset.toNat = .partOwned record ∨ wordClass offset.toNat = .merge record) →
    Completes (.partOwnedRead offset enables) s (fun t =>
      t.part.ptp.holdTimer = some 32 ∧
      (record ∈ s.part.ae.writeBacks →
        ∃ granted, t.part.ptp.access = some
          ⟨⟨false, areaAddress s.part offset.toNat, enables, 0⟩, .waitingWriteBack record granted, .plain⟩) ∧
      (record ∉ s.part.ae.writeBacks →
        carriedAs ⟨false, areaAddress s.part offset.toNat, enables, 0⟩ .plain t.part))) ∧
  (∀ (offset : BitVec 12) (enables : BitVec 4) (value : Word) (s : State),
    (Instr.hostOwnedWrite offset enables value).wf = true → busReady s.part →
    Completes (.hostOwnedWrite offset enables value) s (fun t =>
      t.part.ptp.holdTimer = some 32 ∧
      (∀ source, sourceOf offset.toNat = some source → protectedNow s.part source = true →
        t.part.ptp.access = some
          ⟨⟨true, areaAddress s.part offset.toNat, enables, value⟩, .waitingCopy source, .plain⟩) ∧
      ((∀ source, sourceOf offset.toNat = some source → protectedNow s.part source = false) →
        carriedAs ⟨true, areaAddress s.part offset.toNat, enables, value⟩ .plain t.part))) ∧
  (∀ (b : BusAccess) (record : Target) (address : Nat) (bytes : List Byte) (mark fault : Bool) (left : List Byte)
    (s : State), s.part.mo.inFlight = some (.writeBack record address bytes mark false) →
    address + bytes.length ≤ Config.memoryBytes →
    s.part.ptp.access = some ⟨b, .waitingWriteBack record true, .plain⟩ →
    Completes (.memoryBurstComplete fault left) s (fun t =>
      carriedAs b .plain t.part ∧ t.part.ptp.holdTimer = s.part.ptp.holdTimer)) ∧
  (∀ (b : BusAccess) (source : Source) (address length : Nat) (fault : Bool) (s : State),
    s.part.mo.inFlight = some (.copyRead source address length false) → address + length ≤ Config.memoryBytes →
    s.part.ptp.access = some ⟨b, .waitingCopy source, .plain⟩ →
    Completes (.copyReadComplete fault) s (fun t =>
      carriedAs b .plain t.part ∧ t.part.ptp.holdTimer = s.part.ptp.holdTimer ∧
      (source ∉ s.part.ae.readList → protectedNow t.part source = false)))

/-- Merge writes (R151, R164): the bits written as 1 in the bytes enabled are cleared in the area engine's copy at the arrival,
the write goes to memory with all four bytes enabled, ATTN follows the summary copy, and an error copy cleared to zero takes the
error bit off the summary. -/
def Obligations.MergeWritesClearTheCopies : Prop :=
  (∀ (enables : BitVec 4) (value : Word) (s : State), legalEnables enables = true → busReady s.part →
    Completes (.summaryWordWrite enables value) s (fun t =>
      t.part.ae.summary = s.part.ae.summary &&& ~~~(value &&& enabledMask enables) ∧
      t.part.ae.error = s.part.ae.error ∧
      (attn t.part = true ↔ s.part.ae.summary &&& ~~~(value &&& enabledMask enables) ≠ 0) ∧
      carriedAs ⟨true, areaAddress s.part 0x070, enables, value⟩ .mergeSummary t.part)) ∧
  (∀ (enables : BitVec 4) (value : Word) (s : State), legalEnables enables = true → busReady s.part →
    Completes (.errorWordWrite enables value) s (fun t =>
      t.part.ae.error = s.part.ae.error &&& ~~~(value &&& enabledMask enables) ∧
      t.part.ae.summary =
        (if s.part.ae.error &&& ~~~(value &&& enabledMask enables) = 0 then s.part.ae.summary &&& ~~~errorMask
          else s.part.ae.summary) ∧
      carriedAs ⟨true, areaAddress s.part 0x074, enables, value⟩ .mergeError t.part))

/-- Plain accesses, reads of host-owned and request words, and cue writes are carried to memory with the hold timer running (R143,
R144, R147, R156); in a reset hold an access is not taken and waits for its end (R181, R183), and so it does in power-on reset
(the model's reading, log entry 10). -/
def Obligations.AccessesAreCarriedOrPresented : Prop :=
  (∀ (write : Bool) (address : Addr) (enables : BitVec 4) (value : Word) (s : State),
    legalEnables enables = true → busReady s.part → areaOffset s.part address = none →
    (write = true → fullWord enables = true → cuePort s.part address = none) →
    Completes (.plainAccess write address enables value) s (fun t =>
      carriedAs ⟨write, address, enables, value⟩ .plain t.part ∧ t.part.ptp.holdTimer = some 32)) ∧
  (∀ (address : Addr) (enables : BitVec 4) (value : Word) (offset : Nat) (s : State),
    legalEnables enables = true → busReady s.part → areaOffset s.part address = some offset →
    (wordClass offset = .hostOwned ∨ ∃ w, wordClass offset = .request w) →
    Completes (.plainAccess false address enables value) s (fun t =>
      carriedAs ⟨false, address, enables, value⟩ .plain t.part ∧ t.part.ptp.holdTimer = some 32)) ∧
  (∀ (n : Port) (address : Addr) (value : Word) (s : State), busReady s.part → areaOffset s.part address = none →
    cuePort s.part address = some n →
    Completes (.cueWordWrite address value) s (fun t =>
      carriedAs ⟨true, address, 15#4, value⟩ (.cue n) t.part ∧ t.part.ptp.holdTimer = some 32)) ∧
  (∀ (write : Bool) (address : Addr) (enables : BitVec 4) (value : Word) (s : State),
    legalEnables enables = true → s.part.mrc.phase ≠ .running → s.part.ptp.access = none →
    s.part.ptp.presented = none →
    Completes (.plainAccess write address enables value) s (fun t =>
      t.part.ptp.access = none ∧ t.part.ptp.presented = some ⟨write, address, enables, value⟩ ∧
      t.part.ptp.holdTimer = s.part.ptp.holdTimer))

/-- The hold limit (R145, R137): the access ends with bus error, a read returning all ones, HOLD_EXPIRED is reported, and an
access in the orderer is withdrawn: off the CP list, or its completion to be discarded. -/
def Obligations.HoldTimerExpiryEndsTheAccess : Prop :=
  ∀ (a : Access) (s : State), s.part.ptp.holdTimer.isSome = true → s.part.ptp.access = some a →
    Completes .holdTimerExpiry s (fun t =>
      t.part.ptp.access = none ∧ t.part.ptp.holdTimer = none ∧
      t.part.ptp.answer = some { error := true, data := if a.bus.write then [] else
        (enabledBytes a.bus.enables).map (fun _ => 0xFF#8) } ∧
      t.part.ae.error = s.part.ae.error ||| 8#32 ∧
      (a.stage = .carried → t.part.mo.cp = none ∧
        ∀ c d, s.part.mo.inFlight = some (.cp c d) → t.part.mo.inFlight = some (.cp c true)) ∧
      (a.stage ≠ .carried → s.part.mo.cp = none → t.part.mo.cp = none))

/-! ### Conversions -/

/-- A PORT_I conversion (R82, R83, R85, R86): the corrected sample is the slot's result and the port's last current; an open
switch is not judged. Outside RAMP a sample over the limit raises the over-sample counter and any other clears it; at the trip
count the counter is cleared and the verdict OVER is a failure (R29, R31), which in DRAIN ends the drain without a restart (R30). In
RAMP a sample at or below the grant raises the ramp counter and one above it clears it; the second in a row settles the port. A
deferred request is applied after the failure and stays deferred in SETTLE (R36); in a ride-through hold a port that would restart or
whose drain ends goes to OFF (R183). The port's accepted accesses are cancelled as its switch opens (R29 step 3, R136). A port that
waits in QUEUED, in PROBE with a FULL entry or in SETTLE with NO_PHASE is judged as any other, and may be granted (R58, which clears
its counters, R84) or admitted (R17) at the end of the same event. -/
def Obligations.PortSampleIsKeptAndJudged : Prop :=
  ∀ (n : Port) (reading i : Nat) (s : State), s.part.ms.current = some i → (s.part.ms.slot i).kind = .portI n →
    s.part.ms.mode ≠ .stopped → queueLaw s.part → waitLaw s.part →
    Completes (.portISample n reading) s (fun t =>
      (s.part.ms.pending = none ∨ i ≠ s.part.ms.active.last →
        t.part.ms.results = s.part.ms.results.set i (min 2047 reading - s.part.ms.offset : Nat)) ∧
      t.part.ae.lastCurrent.at n = min 2047 reading - s.part.ms.offset ∧
      ((s.part.port n).state.closed = false → goesOn n (s.part.port n) s.part t.part ∧
        (noEntry n s.part → t.part.port n = s.part.port n)) ∧
      ((s.part.port n).state.closed = true → (s.part.port n).state ≠ .ramp →
        isOver (s.part.ms.views.at n).margin (s.part.port n).grant (min 2047 reading - s.part.ms.offset) = false →
        goesOn n (s.part.port n) s.part t.part ∧ t.part.ms.overCount.at n = 0) ∧
      ((s.part.port n).state.closed = true → (s.part.port n).state ≠ .ramp →
        isOver (s.part.ms.views.at n).margin (s.part.port n).grant (min 2047 reading - s.part.ms.offset) = true →
        (s.part.ms.overCount.at n < (s.part.ms.views.at n).tripField.1 →
          goesOn n (s.part.port n) s.part t.part ∧ t.part.ms.overCount.at n =
            if (t.part.port n).state = .ramp then 0 else s.part.ms.overCount.at n + 1) ∧
        ((s.part.ms.views.at n).tripField.1 ≤ s.part.ms.overCount.at n →
          t.part.ms.overCount.at n = 0 ∧ (t.part.port n).trips = min 255 ((s.part.port n).trips + 1) ∧
          ((s.part.port n).state ≠ .drain → clearedAtOpening n s.part t.part ∧
            ((s.part.port n).deferred = none →
              failedInto .overCurrent s.part.mrc.phase (s.part.port n) (t.part.port n)) ∧
            (∀ plan, (s.part.port n).deferred = some plan → s.part.mrc.phase = .running →
              failedApplied .overCurrent n plan s.part t.part)) ∧
          (∀ d, (s.part.port n).drain = some d → (s.part.port n).state = .drain →
            clearedAtOpening n s.part t.part ∧ drainEnded n d s.part t.part ∧ (t.part.port n).cause = some .overCurrent ∧
            (t.part.port n).restartCount = (s.part.port n).restartCount))) ∧
      ((s.part.port n).state = .ramp → min 2047 reading - s.part.ms.offset ≤ (s.part.port n).grant →
        (s.part.ms.rampCount.at n = 0 →
          sameButStamp (s.part.port n) (t.part.port n) ∧ t.part.ms.rampCount.at n = 1) ∧
        (1 ≤ s.part.ms.rampCount.at n →
          (t.part.port n).state = .settle ∧ (t.part.port n).grant = (s.part.port n).grant ∧
          (t.part.port n).timers.settle = some (settleMs (s.part.port n).plan.settle) ∧
          (t.part.port n).timers.ramp = none ∧ (t.part.port n).deferred = (s.part.port n).deferred ∧
          t.part.ms.rampCount.at n = 0)) ∧
      ((s.part.port n).state = .ramp → (s.part.port n).grant < min 2047 reading - s.part.ms.offset →
        sameButStamp (s.part.port n) (t.part.port n) ∧ t.part.ms.rampCount.at n = 0))

/-- A SOURCE_V conversion (R88): the two below counters, the recovery counter, and at most one change of the voltage step. -/
def Obligations.VoltageSampleMovesTheStep : Prop :=
  ∀ (mv i : Nat) (s : State), s.part.ms.current = some i → (s.part.ms.slot i).kind = .sourceV → mv ≤ 20000 →
    s.part.ms.mode ≠ .stopped →
    Completes (.sourceVSample mv) s (fun t =>
      let sag := if mv < s.part.bu.plan.sag then min 3 (s.part.ms.belowSag + 1) else 0
      let critical := if mv < s.part.bu.plan.critical then min 3 (s.part.ms.belowCritical + 1) else 0
      (s.part.ms.pending = none ∨ i ≠ s.part.ms.active.last → t.part.ms.results = s.part.ms.results.set i mv) ∧
      t.part.ms.belowSag = sag ∧ t.part.ms.belowCritical = critical ∧
      (s.part.ms.voltageStep = .full → t.part.ms.recovery = 0 ∧
        t.part.ms.voltageStep = if critical = 3 then .critical else if sag = 3 then .reduced else .full) ∧
      (s.part.ms.voltageStep = .reduced →
        let recovery := if s.part.bu.plan.recover ≤ mv then s.part.ms.recovery + 1 else 0
        t.part.ms.voltageStep = (if critical = 3 then .critical else if 20 ≤ recovery then .full else .reduced) ∧
        t.part.ms.recovery = if critical = 3 ∨ 20 ≤ recovery then 0 else recovery) ∧
      (s.part.ms.voltageStep = .critical →
        let recovery := if s.part.bu.plan.sag ≤ mv then s.part.ms.recovery + 1 else 0
        t.part.ms.voltageStep = (if 20 ≤ recovery then .reduced else .critical) ∧
        t.part.ms.recovery = if 20 ≤ recovery then 0 else recovery) ∧
      t.part.ms.temperatureStep = s.part.ms.temperatureStep)

/-- R89: a single TEMP sample decides the temperature step, and the ceiling step follows in the same event. (In STOPPED the steps
stay, R77.) -/
def Obligations.TemperatureSampleDecidesTheStep : Prop :=
  ∀ (celsius : Int) (i : Nat) (s : State), s.part.ms.current = some i → (s.part.ms.slot i).kind = .temp →
    -40 ≤ celsius → celsius ≤ 150 → s.part.ms.mode ≠ .stopped →
    Completes (.tempSample celsius) s (fun t =>
      (s.part.bu.plan.hot ≤ celsius → t.part.ms.temperatureStep = .reduced) ∧
      (celsius ≤ s.part.bu.plan.hot - 10 → t.part.ms.temperatureStep = .full) ∧
      (s.part.bu.plan.hot - 10 < celsius → celsius < s.part.bu.plan.hot →
        t.part.ms.temperatureStep = s.part.ms.temperatureStep) ∧
      t.part.ms.voltageStep = s.part.ms.voltageStep ∧
      ceilingStep t.part = worse s.part.ms.voltageStep t.part.ms.temperatureStep ∧
      (s.part.ms.pending = none ∨ i ≠ s.part.ms.active.last → t.part.ms.results = s.part.ms.results.set i celsius))

/-- The order of the rounds. At the end of the warm-up the sequencer runs its rounds from the first slot of the range; a command
held from WARMING acts by R75 to R77 and R81 (R69, R74), and a pending sequence is swapped in before the first round, or discarded
with UNCOVERED when it leaves out a closed port (R80). An OFFSET slot's result is uncorrected and a NONE slot's 0, no step moves,
and the round goes on to the next slot, or in RUNNING from the last slot of the range to its first (R70, R71, R82, R83). There a
pending sequence is swapped in, or discarded, in the same way (R80). Whatever the slot converted, the last slot of the range ends a
round: the once round of SEQ_ONCE stops the sequencer and completes the command, the round before it is followed by it (R76), and
the round before a CALIBRATE by the calibration conversions (R81); the last conversion after a SEQ_STOP keeps its result and
completes the command (R77). Two clauses are the model's reading: that this last conversion is kept as a result alone, with the steps
and the last currents as they were (log entry 21), and that the results get a write-back at every one of these ends, changed or not
(log entry 38). -/
def Obligations.UnjudgedSlotsAndTheOrderOfRounds : Prop :=
  (∀ (q : Sequence) (s : State), s.part.ms.mode = .warming → s.part.mrc.phase ≠ .powerOn → s.part.ms.pending = some q →
    s.part.ms.held = none → s.part.mo.pendingWheel = none →
    Completes .converterWarmupEnd s (fun t =>
      t.part.ms.mode = .running ∧ t.part.ms.pending = none ∧
      (coversClosed s.part q = true → sequenceSwapped q s.part t.part ∧ t.part.ms.current = some q.start) ∧
      (coversClosed s.part q = false → t.part.ms.active = s.part.ms.active ∧
        t.part.ms.current = some s.part.ms.active.start ∧ (t.part.request .device).completion = some .uncovered))) ∧
  (∀ s : State, s.part.ms.mode = .warming → s.part.mrc.phase ≠ .powerOn → s.part.ms.active = defaultSequence →
    s.part.ms.pending = none → s.part.mo.pendingWheel = none →
    Completes .converterWarmupEnd s (fun t =>
      t.part.ms.current = some s.part.ms.active.start ∧ t.part.ms.active = s.part.ms.active ∧
      (s.part.ms.held = none → t.part.ms.mode = .running) ∧
      (s.part.ms.held = some .run → t.part.ms.mode = .running ∧ (t.part.request .device).completion = some .ok) ∧
      (s.part.ms.held = some .calibrate → t.part.ms.mode = .calibrating ∧ t.part.ms.command = some .calibrate) ∧
      (∀ c mode, (c, mode) ∈ [(SeqCommand.once, SeqMode.once), (.stop, .stopped)] → s.part.ms.held = some c →
        (anyClosed t.part = true → t.part.ms.mode = .running ∧ (t.part.request .device).completion = some .powered) ∧
        (anyClosed t.part = false → t.part.ms.mode = mode ∧ t.part.ms.command = some c)))) ∧
  (∀ (reading i : Nat) (s : State), s.part.ms.current = some i → s.part.ms.mode = .running →
    s.part.mo.pendingWheel = none →
    ∀ c result, ((c = Instr.offsetSample reading ∧ (s.part.ms.slot i).kind = .offset ∧
        result = ((min 2047 reading : Nat) : Int)) ∨
        (c = .noneSlot ∧ (s.part.ms.slot i).kind = .none ∧ result = 0)) →
      Completes c s (fun t =>
        t.part.ae.lastCurrent = s.part.ae.lastCurrent ∧
        (s.part.ms.pending = none ∨ i ≠ s.part.ms.active.last → t.part.ms = { s.part.ms with
          results := s.part.ms.results.set i result
          current := some (if i = s.part.ms.active.last then s.part.ms.active.start else i + 1) }) ∧
        (∀ q, s.part.ms.pending = some q → i = s.part.ms.active.last →
          t.part.ms.mode = .running ∧ t.part.ms.pending = none ∧
          (coversClosed s.part q = true → t.part.ms.active = q ∧ t.part.ms.current = some q.start ∧
            (t.part.request .device).completion = some .ok) ∧
          (coversClosed s.part q = false → t.part.ms.active = s.part.ms.active ∧
            t.part.ms.current = some s.part.ms.active.start ∧
            (t.part.request .device).completion = some .uncovered)))) ∧
  (∀ (c : Instr) (result : Int) (i : Nat) (s : State), s.part.ms.current = some i →
    convertsTo s.part.ms.offset (s.part.ms.slot i).kind result c → s.part.mo.pendingWheel = none →
    Completes c s (fun t =>
      (s.part.ms.mode ≠ .running ∨ s.part.ms.pending = none ∨ i ≠ s.part.ms.active.last →
        t.part.ms.results = s.part.ms.results.set i result) ∧
      (s.part.ms.mode ∈ [SeqMode.running, .once, .calibrating] → i ≠ s.part.ms.active.last →
        t.part.ms.mode = s.part.ms.mode ∧ t.part.ms.current = some (i + 1)) ∧
      (s.part.ms.mode = .once → i = s.part.ms.active.last →
        (s.part.ms.onceRounds ≤ 1 → t.part.ms.mode = .stopped ∧ t.part.ms.current = none ∧
          t.part.ms.command = none ∧ (t.part.request .device).completion = some .ok) ∧
        (1 < s.part.ms.onceRounds → t.part.ms.mode = .once ∧ t.part.ms.current = some s.part.ms.active.start ∧
          t.part.ms.onceRounds = s.part.ms.onceRounds - 1 ∧ t.part.ms.command = s.part.ms.command ∧
          (t.part.request .device).completion = (s.part.request .device).completion)) ∧
      (s.part.ms.mode = .calibrating → i = s.part.ms.active.last →
        t.part.ms.mode = .calibrating ∧ t.part.ms.current = none ∧ t.part.ms.calibration = some ⟨0, 0, false⟩ ∧
        t.part.ms.command = s.part.ms.command) ∧
      (s.part.ms.mode = .stopped →
        t.part.ms.mode = .stopped ∧ t.part.ms.current = none ∧ t.part.ms.command = none ∧
        t.part.ms.voltageStep = s.part.ms.voltageStep ∧ t.part.ms.temperatureStep = s.part.ms.temperatureStep ∧
        t.part.ae.lastCurrent = s.part.ae.lastCurrent ∧ (t.part.request .device).completion = some .ok) ∧
      (s.part.ms.mode = .stopped ∨ (s.part.ms.mode ∈ [SeqMode.running, .once, .calibrating] ∧ i = s.part.ms.active.last) →
        s.part.ae.quiet = false → s.part.mo.inFlight ≠ none → .results ∈ t.part.ae.writeBacks)))

/-- A calibration conversion (R81, R82): the sixteenth sets the correction to the mean rounded down, at most 255, completes
CALIBRATE with it as argument, and in CALIBRATING the rounds begin again; the others are added up. -/
def Obligations.SixteenConversionsSetTheCorrection : Prop :=
  ∀ (reading count sum : Nat) (s : State), s.part.ms.calibration = some ⟨count, sum, false⟩ →
    s.part.mo.pendingWheel = none →
    Completes (.calibrationConversion reading) s (fun t =>
      (count < 15 → t.part.ms = { s.part.ms with
        calibration := some ⟨count + 1, sum + min 2047 reading, false⟩ }) ∧
      (15 ≤ count →
        t.part.ms.offset = min 255 ((sum + min 2047 reading) / 16) ∧ t.part.ms.calibration = none ∧
        t.part.ms.command = none ∧ (t.part.request .device).completion = some .ok ∧
        (t.part.request .device).argument = BitVec.ofNat 8 (min 255 ((sum + min 2047 reading) / 16)) ∧
        (s.part.ms.mode = .calibrating → t.part.ms.mode = .running ∧
          t.part.ms.current = some s.part.ms.active.start) ∧
        (s.part.ms.mode ≠ .calibrating → t.part.ms.mode = s.part.ms.mode)))

/-! ### Lanes -/

/-- A HELLO (R11, R96, R110, R111): in PROBE its identity is stored, the HELLO timer stops, ASK is recomputed (R3) and a FULL
entry asks the full request; in ON the lane re-opens: the tags OUTSTANDING are marked DISCARD_REPLY, the unsent answers are removed
and their tags FREE, OPEN due is cleared, or set at once with nothing OUTSTANDING (R112), and ASK is recomputed. Both are reported
with the port's change mark (R6). On a lane that is PAUSED in another state it is a check error, the port goes on, and may be
admitted (R17) at the end of the same event. -/
def Obligations.HelloIsTakenByTheLaneMode : Prop :=
  ∀ (n : Port) (i : Identity) (s : State), (s.part.lane n).mode ≠ .idle → queueLaw s.part → waitLaw s.part →
    let asks := decide (fullRequest (s.part.port n).plan (some i) < i.requested.toNat)
    let reported := fun (q : Part) => s.part.ae.quiet = false → markedSoon (.status n) (s.part.mo.inFlight = none) q
    Completes (.helloFrame n i) s (fun t =>
      ((s.part.lane n).mode = .listen → (s.part.port n).state = .probe →
        (t.part.port n).identity = some i ∧ (t.part.port n).timers.hello = none ∧
        ((s.part.port n).plan.laneUse = .expected → (t.part.port n).flags.ask = asks) ∧ reported t.part ∧
        (((t.part.port n).state = .probe ∧
            ∃ e ∈ t.part.bu.queue, e.port = n ∧ e.kind = .full ∧ e.asked = (t.part.port n).fullRequest) ∨
          ((t.part.port n).state = .ramp ∧ (t.part.port n).grant = (t.part.port n).fullRequest))) ∧
      ((s.part.lane n).mode ≠ .listen → (s.part.port n).state = .on →
        (t.part.port n).state = .on ∧ (t.part.port n).identity = some i ∧ (t.part.port n).flags.rehello = true ∧
        ((s.part.port n).plan.laneUse = .expected → (t.part.port n).flags.ask = asks) ∧ reported t.part ∧
        (t.part.port n).grant = (s.part.port n).grant ∧
        (sendLaw (s.part.lane n) → reopens (s.part.lane n) (t.part.lane n)) ∧
        (t.part.lane n).openDue =
          if (t.part.lane n).outstanding = 0 then some ((s.part.port n).plan.size / 256) else none) ∧
      ((s.part.lane n).mode ≠ .listen → (s.part.port n).state ≠ .on →
        goesOn n { s.part.port n with checkErrors := min 255 ((s.part.port n).checkErrors + 1) } s.part t.part ∧
        ((t.part.lane n).mode ≠ .idle → (t.part.lane n).tags = (s.part.lane n).tags) ∧
        ((t.part.port n).state = (s.part.port n).state → (t.part.lane n).silenceTimer =
          (s.part.lane n).silenceTimer.map (fun _ => 100))))

/-- A PUT or GET (R98, R99): the first of its four cases. A held tag is an overrun; a lane that is not OPEN answers CLOSED; a
request past the window is answered OUTSIDE; any other is accepted with the window base of the plan copy. The port goes on, and one
that waits in PROBE with a FULL entry or in SETTLE with NO_PHASE may be granted or admitted by a wheel swapped in at the end of the
event (R17, R132). -/
def Obligations.RequestFramesAreDealtWithInOrder : Prop :=
  ∀ (n : Port) (tag cls : Fin 4) (offset : BitVec 24) (length : BitVec 16) (data : List Byte) (s : State),
    (s.part.lane n).mode ≠ .idle → queueLaw s.part → waitLaw s.part →
    ∀ c kind len, ((c = Instr.putFrame n tag cls offset data ∧ kind = ReqKind.put ∧ len = data.length) ∨
        (c = .getFrame n tag cls offset length ∧ kind = .get ∧ len = length.toNat ∧ data = [])) →
      1 ≤ len → len ≤ 256 →
      Completes c s (fun t =>
        let hears := (t.part.lane n).mode ≠ .idle
        let answered := fun (status : Status) => (t.part.lane n).tags.get tag = .answered kind ∧
          ((⟨kind, tag, status, []⟩ : Answer) ∈ (t.part.lane n).answers ∨
            (t.part.lane n).sending = some (.answer ⟨kind, tag, status, []⟩))
        ((s.part.lane n).tags.get tag ≠ .free →
          goesOn n { s.part.port n with overruns := min 255 ((s.part.port n).overruns + 1) } s.part t.part ∧
          t.part.ae.error = s.part.ae.error ||| 64#32 ∧ (hears → (t.part.lane n).tags = (s.part.lane n).tags) ∧
          (s.part.mo.inFlight ≠ none → t.part.mo.lists.at n = s.part.mo.lists.at n)) ∧
        ((s.part.lane n).tags.get tag = .free → goesOn n (s.part.port n) s.part t.part) ∧
        ((s.part.lane n).tags.get tag = .free → (s.part.lane n).mode ≠ .opened → (hears → answered .closed) ∧
          (s.part.mo.inFlight ≠ none → t.part.mo.lists.at n = s.part.mo.lists.at n)) ∧
        ((s.part.lane n).tags.get tag = .free → (s.part.lane n).mode = .opened →
          (s.part.port n).plan.size < offset.toNat + len → (hears → answered .outside) ∧
          (s.part.mo.inFlight ≠ none → t.part.mo.lists.at n = s.part.mo.lists.at n)) ∧
        ((s.part.lane n).tags.get tag = .free → (s.part.lane n).mode = .opened →
          offset.toNat + len ≤ (s.part.port n).plan.size →
          (hears → (t.part.lane n).tags.get tag = .outstanding kind false) ∧
          (s.part.mo.inFlight ≠ none → t.part.mo.lists.at n = s.part.mo.lists.at n ++
            [{ kind, cls, base := (s.part.port n).plan.base, windowSize := (s.part.port n).plan.size
               offset := offset.toNat, length := len, tag, data, bursts := splitBursts offset.toNat len
               gathered := [], faulted := false, markFault := false }])))

/-- The accessory's LEAVE, KEEP and frames that fail a test (R25, R93, R96, R113): a LEAVE drains an admitted port with reason
ASKED (R21), which with nothing to flush and a grace time of 0 is over at once in OFF with LEFT set (R22, R23), and stops a
starting one in OFF with LEFT set, where a deferred request is applied (R35, R36); a KEEP restarts the silence timer; a bad frame
counts a check error. After a KEEP and a bad frame the port goes on, and one that waits in PROBE with a FULL entry or in SETTLE with
NO_PHASE may be granted or admitted at the end of the event (R17, R58, R132). Which bytes make a bad frame is the model's choice
(log entry 25, unsafe) where an escape byte stands last, or before a byte that R177 does not escape, and where a flag byte stands
among them: the model counts a check error for the last escape byte and for the flag byte, though by R177 a flag byte ends the
frame. -/
def Obligations.LeaveKeepAndBadFrames : Prop :=
  ∀ (n : Port) (s : State), (s.part.lane n).mode ≠ .idle →
    Completes (.leaveFrame n) s (fun t =>
      ((s.part.port n).state ∈ [PortState.on, .orphan] →
        drainsWithin (graceMs (s.part.port n).plan.grace) .asked .off (s.part.lane n).outstanding
          (s.part.port n) (t.part.port n)
          ((t.part.port n).state = .off ∧ (t.part.port n).grant = 0 ∧ (t.part.port n).drain = none ∧
            (t.part.port n).flags.left = true)) ∧
      ((s.part.port n).state ∈ [PortState.probe, .ramp, .settle] → (s.part.port n).deferred = none →
        (t.part.port n).state = .off ∧ (t.part.port n).grant = 0 ∧ (t.part.port n).flags.left = true ∧
        (t.part.port n).flags.noPhase = false ∧ noEntry n t.part) ∧
      (∀ plan, (s.part.port n).deferred = some plan → (s.part.port n).state ∈ [PortState.probe, .ramp, .settle] →
        s.part.mrc.phase = .running → deferredQueued n plan s.part.mrc.standby t.part ∧
        (t.part.port n).flags.left = decide (plan.mode = .off)) ∧
      ((s.part.port n).state = .drain → noEntry n s.part → sameButStamp (s.part.port n) (t.part.port n))) ∧
    (queueLaw s.part → waitLaw s.part → Completes (.keepFrame n) s (fun t =>
      goesOn n (s.part.port n) s.part t.part ∧
      ((t.part.lane n).mode ≠ .idle → (t.part.lane n).tags = (s.part.lane n).tags) ∧
      ((t.part.port n).state = (s.part.port n).state → (t.part.lane n).silenceTimer =
        (s.part.lane n).silenceTimer.map (fun _ => 100)))) ∧
    (queueLaw s.part → waitLaw s.part → ∀ bytes, (Instr.badFrame n bytes).wf = true →
      Completes (.badFrame n bytes) s (fun t =>
        goesOn n { s.part.port n with checkErrors := min 255 ((s.part.port n).checkErrors + 1) } s.part t.part ∧
        ((t.part.port n).state = (s.part.port n).state → t.part.lane n = s.part.lane n)))

/-- The ends of sendings (R101, R103, R106, R107): an OPEN opens the lane of a port still in ON, and opens nothing when its port
left ON during the sending, also where it is in ON again; an answer frees its tag, OUTSTANDING or ANSWERED, or none where its lane
entered IDLE during the sending (R97), and the last OUTSTANDING one ends the flush of a drain (R21, R22), admits an adopted orphan
(R189, R192) and makes the OPEN of a re-opening lane due (R112); every end restarts the keep timer where it runs. The port goes on but
for that, and one that waits for a grant or with NO_PHASE may be granted or admitted at the end of the event (R17, R58, R132). That
an OPEN whose sending a HELLO did not stop ends the re-open at its end, and opens the lane, is the model's reading of R106, R111 and
R112 (log entry 36, unsafe). -/
def Obligations.SendingsEndAndFreeTheirTags : Prop :=
  ∀ (n : Port) (s : State), queueLaw s.part → waitLaw s.part →
    let l := s.part.lane n
    (∀ units, l.sending = some (.openLane units) →
      Completes (.openSent n) s (fun t => goesOn n (s.part.port n) s.part t.part ∧
        ((t.part.lane n).mode ≠ .idle → (t.part.lane n).tags = l.tags) ∧
        ((t.part.port n).state = (s.part.port n).state →
          (l.sendingHolds = true →
            (t.part.lane n).openDue = none ∧ (t.part.lane n).reopen = false ∧
            ((s.part.port n).state = .on → l.mode ≠ .idle → (t.part.lane n).mode = .opened) ∧
            ((s.part.port n).state ≠ .on → (t.part.lane n).mode = l.mode)) ∧
          (l.sendingHolds = false →
            (t.part.lane n).mode = l.mode ∧ (t.part.lane n).reopen = l.reopen ∧ (t.part.lane n).openDue = l.openDue ∧
            (∀ due, l.openDue = some due → (t.part.lane n).sending = some (.openLane due))) ∧
          (t.part.lane n).keepTimer = l.keepTimer.map (fun _ => 20)))) ∧
    (∀ a : Answer, l.sending = some (.answer a) →
      Completes (.answerSent n) s (fun t =>
        (l.sendingHolds = false ∨ l.outstanding = 0 ∨
            (∃ other kind discard, other ≠ a.tag ∧ l.tags.get other = .outstanding kind discard) →
          goesOn n (s.part.port n) s.part t.part ∧
          ((t.part.lane n).mode ≠ .idle →
            (t.part.lane n).tags = if l.sendingHolds = true then l.tags.set a.tag.1 .free a.tag.2 else l.tags) ∧
          ((t.part.port n).state = (s.part.port n).state → (t.part.lane n).keepTimer = l.keepTimer.map (fun _ => 20))) ∧
        (l.sendingHolds = true → l.outstanding = 1 → (∃ kind discard, l.tags.get a.tag = .outstanding kind discard) →
          (t.part.lane n).tags.get a.tag = .free ∧ noneOutstanding n s.part t.part ∧
          (∀ d, (s.part.port n).drain = some d → (s.part.port n).state = .drain → d.phase = .flush → d.graceMs ≠ 0 →
            (t.part.lane n).keepTimer = l.keepTimer.map (fun _ => 20))))) ∧
    (((∃ v, l.sending = some (.cue v)) ∨ l.sending = some .leave ∨ l.sending = some .keep) →
      Completes (.frameSent n) s (fun t => goesOn n (s.part.port n) s.part t.part ∧
        ((t.part.lane n).mode ≠ .idle → (t.part.lane n).tags = l.tags) ∧
        ((t.part.port n).state = (s.part.port n).state → (t.part.lane n).mode = l.mode ∧
          (t.part.lane n).keepTimer = l.keepTimer.map (fun _ => 20) ∧
          (l.openDue = none → l.answers = [] → l.cue = none → l.leave = false → l.keep = false →
            (t.part.lane n).sending = none) ∧
          (∀ a rest, l.openDue = none → l.answers = a :: rest →
            (t.part.lane n).sending = some (.answer a) ∧ (t.part.lane n).answers = rest))))

/-- The lane timers (R24, R27, R107, R108): the keep timer's expiry asks for a KEEP and starts it again, and the port goes on, granted
or admitted where a wheel is swapped in at the end of the event (R17, R132); the silence timer's
expiry is a failure with cause LANE_LOST in SETTLE, ON and ORPHAN, after which a deferred request is applied (R36), and in DRAIN
the end of the drain in its destination (R23) without one; in a ride-through hold a port that would restart or whose drain ends goes
to OFF (R183). The port's accepted accesses are cancelled as its switch opens (R24, R29 step 3, R136). -/
def Obligations.LaneTimersKeepAndLoseTheLane : Prop :=
  (∀ (n : Port) (s : State), (s.part.lane n).keepTimer.isSome = true → queueLaw s.part → waitLaw s.part →
    Completes (.keepTimerExpiry n) s (fun t => goesOn n (s.part.port n) s.part t.part ∧
      ((t.part.port n).state = (s.part.port n).state →
        (t.part.lane n).keepTimer = some 20 ∧ (t.part.lane n).tags = (s.part.lane n).tags ∧
        ((t.part.lane n).keep = true ∨ (t.part.lane n).sending = some .keep)))) ∧
  (∀ (n : Port) (s : State), (s.part.lane n).silenceTimer.isSome = true →
    Completes (.silenceTimerExpiry n) s (fun t =>
      ((s.part.port n).state ∈ [PortState.settle, .on, .orphan] →
        clearedAtOpening n s.part t.part ∧ (t.part.port n).trips = (s.part.port n).trips ∧
        ((s.part.port n).deferred = none →
          failedInto .laneLost s.part.mrc.phase (s.part.port n) (t.part.port n)) ∧
        (∀ plan, (s.part.port n).deferred = some plan → s.part.mrc.phase = .running →
          failedApplied .laneLost n plan s.part t.part)) ∧
      (∀ d, (s.part.port n).drain = some d → (s.part.port n).state = .drain →
        clearedAtOpening n s.part t.part ∧ drainEnded n d s.part t.part ∧
        (t.part.port n).cause = (s.part.port n).cause ∧ (t.part.port n).trips = (s.part.port n).trips ∧
        (t.part.port n).restartCount = (s.part.port n).restartCount)))

/-! ### Frames -/

/-- A command of one port leaves every other port alone that no grant and no swap of the wheel can reach: its record, but for a
stamp given again by a renumbering (R54), and its lane. -/
def Obligations.PortCommandsLeaveTheOtherPorts : Prop :=
  ∀ (c : Instr) (n m : Port) (s t : State), portOfCommand c = some n → m ≠ n → quiet m s.part →
    (∀ k reading, c = .portISample k reading → s.part.ms.pending = none) → exec c s = .next t →
    sameButStamp (s.part.port m) (t.part.port m) ∧ t.part.lane m = s.part.lane m ∧
    ((s.part.port m).state.closed = false → t.part.port m = s.part.port m)

/-- The registers that only their own commands change, besides the resets: the device plan, the cue shadows and the memory at the
completions of bursts (R44, R129, R157), the correction at a calibration conversion (R81), the steps at their samples (R88, R89),
the last currents at PORT_I samples (R83), the standby state at its entry and exit (R191, R193), the presence levels, and the
straps, the reset count and cause by resets alone (R178, R179). -/
def Obligations.RegistersChangeOnlyByTheirCommands : Prop :=
  ∀ (c : Instr) (s t : State), exec c s = .next t → isReset c = false →
    (isCompletion c = false → t.part.bu.plan = s.part.bu.plan ∧ t.part.ptp.shadows = s.part.ptp.shadows ∧
      t.mem = s.mem) ∧
    ((∀ reading, c ≠ .calibrationConversion reading) → t.part.ms.offset = s.part.ms.offset) ∧
    ((∀ v, c ≠ .sourceVSample v) → t.part.ms.voltageStep = s.part.ms.voltageStep ∧
      t.part.ms.belowSag = s.part.ms.belowSag ∧ t.part.ms.belowCritical = s.part.ms.belowCritical ∧
      t.part.ms.recovery = s.part.ms.recovery) ∧
    ((∀ v, c ≠ .tempSample v) → t.part.ms.temperatureStep = s.part.ms.temperatureStep) ∧
    ((∀ n reading, c ≠ .portISample n reading) → t.part.ae.lastCurrent = s.part.ae.lastCurrent) ∧
    (c ≠ .standbyEntry → c ≠ .standbyExit → t.part.mrc.standby = s.part.mrc.standby ∧
      t.part.mrc.stby = s.part.mrc.stby) ∧
    ((∀ n, c ≠ .presenceAssert n ∧ c ≠ .presenceLoss n) → t.part.mrc.present = s.part.mrc.present) ∧
    t.part.mrc.straps = s.part.mrc.straps ∧ t.part.mrc.phase = s.part.mrc.phase ∧
    t.part.mrc.cause = s.part.mrc.cause ∧ t.part.mrc.resetCount = s.part.mrc.resetCount ∧
    t.part.mrc.rideThrough = s.part.mrc.rideThrough

/-- A change that is reported reaches memory (R166), whatever command made it, while the area engine is not still: the record's
write-back is pending, or granted in the event with the content as it is now. So it is for a reported change of a port record, with
the port's change mark where R6 sets the changed bit, for a change of device status 1, with the device's mark, or 2 (R172), for the
active wheel (R132, R175), for a summary or an error bit that rises (R164, R165), and for a completion handed over, whose
write-back stays pending or in flight until it has landed (R168). That the discard of a fault cause, as at ON_TIME_LIMIT, is a
change of the cause and sets the mark is the model's reading (log entry 18, unsafe). -/
def Obligations.ReportedChangesAreWrittenBack : Prop :=
  ∀ (c : Instr) (s t : State), exec c s = .next t → isReset c = false → s.part.ae.quiet = false → openLaw s.part →
    let free := s.part.mo.inFlight = none ∨ isCompletion c = true
    (∀ n, changesReported n s.part t.part → writtenSoon (.status n) free t.part) ∧
    (∀ n, changesMarked (s.part.port n) (t.part.port n) → markedSoon (.status n) free t.part) ∧
    (changesDevice1 s.part t.part → writtenSoon .device free t.part ∧ markedSoon .device free t.part) ∧
    (changesDevice2 s.part t.part → writtenSoon .device free t.part) ∧
    (t.part.mo.wheel ≠ s.part.mo.wheel → writtenSoon .wheelCopy free t.part) ∧
    (t.part.ae.summary &&& ~~~s.part.ae.summary ≠ 0 → writtenSoon .summary free t.part) ∧
    (t.part.ae.error &&& ~~~s.part.ae.error ≠ 0 → writtenSoon .error free t.part) ∧
    (∀ w, (s.part.request w).completion = none → (t.part.request w).completion ≠ none →
      writtenSoon (.request w) free t.part) ∧
    (completionsWritten s.part → completionsWritten t.part)

/-! ### Laws that every step keeps -/

/-- The laws hold after reset: canonical memory, the grants, the queue, the coverage, the wheels, the windows, the budget, the
lanes, the port timers, the deferred requests, the holds, the completions handed over, the plans handed over, the adoption timer
and the shed list. That the area engine is still in power-on reset is the model's reading (log entry 16), and the default plan's
window base 0 its choice (log entry 50). -/
def Obligations.LawsHoldAtReset : Prop :=
  Memory.wf State.reset.mem = true ∧ openLaw State.reset.part ∧ queueLaw State.reset.part ∧
  coverageLaw State.reset.part ∧ wheelLaw State.reset.part ∧ windowLaw State.reset.part ∧
  budgetLaw State.reset.part ∧ shedLaw State.reset.part ∧ laneLaw State.reset.part ∧ timerLaw State.reset.part ∧
  waitLaw State.reset.part ∧ holdLaw State.reset.part ∧ completionsWritten State.reset.part ∧ handLaw State.reset.part ∧
  adoptionLaw State.reset.part ∧ shedListLaw State.reset.part

/-- Every step keeps the memory in its canonical form: addresses rising, and no cell that holds what an unlisted byte reads as.
The form is the model's own way of holding the memory of R118, and that an unlisted byte reads 0 is its choice (log entry 1). -/
def Obligations.StepKeepsTheMemoryCanonical : Prop :=
  ∀ s t : State, Memory.wf s.mem = true → step s = .next t → Memory.wf t.mem = true

/-- Every step keeps the grant of a port with its switch open at 0 (R5, R45). -/
def Obligations.StepKeepsOpenSwitchesWithoutGrant : Prop :=
  ∀ s t : State, openLaw s.part → step s = .next t → openLaw t.part

/-- Every step keeps the grant queue's law (R50). -/
def Obligations.StepKeepsTheQueueLaw : Prop :=
  ∀ s t : State, queueLaw s.part → step s = .next t → queueLaw t.part

/-- Every step keeps the budget's laws: the budget state is OVER exactly while the committed total is above the ceiling (R47),
SHORTFALL is shown exactly while it holds (R48), and an OVER part has ordered sheds until the rest is within the ceiling or no
candidate is left (R64). The shed list holds no port twice and none with an open switch, and every port on it has its order on the
way or drains with reason SHED (R46, R60). -/
def Obligations.StepKeepsTheBudgetLaws : Prop :=
  (∀ s t : State, openLaw s.part → queueLaw s.part → budgetLaw s.part → shedLaw s.part → step s = .next t →
    budgetLaw t.part ∧ shedLaw t.part) ∧
  (∀ s t : State, queueLaw s.part → shedListLaw s.part → step s = .next t → shedListLaw t.part)

/-- Every step keeps every port with a closed switch covered by the running sequence (R78). -/
def Obligations.StepKeepsClosedPortsCovered : Prop :=
  ∀ s t : State, coverageLaw s.part → step s = .next t → coverageLaw t.part

/-- Every step keeps the wheel's law (R124): at least 4 CP phases and 1 AE phase, and a phase for every port in ON, ORPHAN or
DRAIN that is lane-EXPECTED, in DRAIN by the lane use held at the drain start (R21). -/
def Obligations.StepKeepsTheWheelLaw : Prop :=
  ∀ s t : State, wheelLaw s.part → step s = .next t → wheelLaw t.part

/-- Every step keeps every accepted access inside the window captured for it (R98, R118, R119). -/
def Obligations.StepKeepsAccessesInTheirWindows : Prop :=
  ∀ s t : State, windowLaw s.part → step s = .next t → windowLaw t.part

/-- Every step keeps the ports in order: the port timers run in their states (R7, R20), a deferred request is held in RAMP and,
before its settle timer expires, in SETTLE (R36), a port that waits with NO_PHASE is lane-EXPECTED (R16), and in a reset hold the
ports are in the states that R180 to R183 leave them in and the area engine is still (in power-on reset and with RTE low by log
entry 16, the model's reading). So it keeps the window table, the class map and the port views at the plan copies (R84, R123, R142;
that the class map of a drain that a ride-through reset met follows the plan copy from the drain's end on is the model's reading,
log entry 32), and the adoption timer stopped where no port in ORPHAN is left unadopted (R190). -/
def Obligations.StepKeepsThePortLaws : Prop :=
  ∀ s t : State, queueLaw s.part → wheelLaw s.part → timerLaw s.part → waitLaw s.part → holdLaw s.part →
    step s = .next t →
    timerLaw t.part ∧ waitLaw t.part ∧ holdLaw t.part ∧ (handLaw s.part → handLaw t.part) ∧
      (adoptionLaw s.part → adoptionLaw t.part)

/-- Every step keeps the lanes at their ports: the lane mode is the one that the port state, its lane use and the sending of OPEN
give it (R95, R106, R111), the keep and silence timers run where R107 and R108 have them run, an IDLE lane is empty (R97), and a lane
that sends nothing has nothing to send (R103). -/
def Obligations.StepKeepsTheLaneLaw : Prop :=
  ∀ s t : State, queueLaw s.part → wheelLaw s.part → timerLaw s.part → waitLaw s.part → holdLaw s.part → laneLaw s.part →
    step s = .next t → laneLaw t.part

/-- Every good frame of an accessory is received as itself from its bytes on the lane (R92, R93, R177): header, payload, check and
escaping. -/
def Obligations.LaneFramesSurviveTheWire : Prop :=
  ∀ f : RxFrame, f.good = true → receive (escape (f.bytes ++ crcBytes f.bytes)) = .good f

/-! ### Rules of one operation -/

/-- A grant decision (R54 to R58, R61 to R63). It marks UNWATCHED on the ports of uncovered entries and clears it on those of covered
ones, changes no port without an entry, and grants nothing where no entry is covered. The first covered entry in queue order is
granted if it fits: its port is in PROBE at 20 cu with the HELLO timer of 250 ms running and its lane in LISTEN with the keep timer
(R10, R95, R107, R108), or in RAMP at the current asked with the ramp timer of 50 ms running, both sample counters cleared (R13, R84)
and its lane PAUSED without timers; it is out of the queue, SHORT and UNWATCHED cleared, the rest of its record as it was, and its
stamp is the next, given after a renumbering at the end of the counter's range. Where that entry blocks, or in OVER, no other field
of any port changes but SHORT, which is set on a blocking essential port when too little can be shed. A blocking essential entry
orders shed, in shed order (R59), as many of the candidates below its priority as it needs, and none where enough is being shed or
too little could be; no other decision that blocks, and none in OVER, orders any. -/
def Obligations.GrantDecisionFollowsTheQueueOrder : Prop :=
  (∀ p : Part, queueLaw p →
    (∀ x ∈ p.bu.queue, ((grantDecision p).port x.port).flags.unwatched = !covered p x.port) ∧
    (∀ n, noEntry n p → sameButStamp (p.port n) ((grantDecision p).port n)) ∧
    ((∀ x ∈ p.bu.queue, covered p x.port = false) → (grantDecision p).bu = p.bu)) ∧
  (∀ (older rest : List Entry) (e : Entry) (p : Part), openLaw p → queueLaw p →
    queueOrder p.bu.queue = older ++ e :: rest → (∀ x ∈ older, covered p x.port = false) →
    covered p e.port = true →
    (p.bu.isOver = false → fits p (entryDelta p e) = true → grantedAs e (p.port e.port) (grantDecision p) ∧
      (p.bu.stampCounter + p.bu.queue.length ≤ 65535 →
        ((grantDecision p).port e.port).stamp = p.bu.stampCounter + 1) ∧
      (p.bu.stampCounter = 65535 → p.bu.queue = [e] → renumbered e.port p (grantDecision p))) ∧
    ((p.bu.isOver = true ∨ fits p (entryDelta p e) = false) →
      (grantDecision p).bu.queue = p.bu.queue ∧
      ∀ n, (grantDecision p).port n = { p.port n with flags := { (p.port n).flags with
        unwatched := if holdsEntry n p then !covered p n else (p.port n).flags.unwatched
        short := (p.port n).flags.short ||
          (n == e.port && !p.bu.isOver && e.essential && cannotShed e p) } }) ∧
    (p.bu.isOver = false → fits p (entryDelta p e) = false → e.essential = true → preempts e p (grantDecision p)) ∧
    (p.bu.isOver = true ∨ (fits p (entryDelta p e) = false ∧ e.essential = false) →
      (grantDecision p).bu.shedList = p.bu.shedList ∧ (grantDecision p).bu.orders = p.bu.orders))

/-- A grant decision of the memory orderer (R126 to R128): with a burst in flight, or with no phase asking, it does nothing; else
it stops at the first phase of the preferred class from the pointer on, bulk first in every eighth decision, the next burst of the
participant named there is in flight, the pointer goes to the next phase and the bulk-turn counter on by one. The CP's burst
carries the copy of a merge word as it stands then (R151); the area engine's is the one it offers (R122, R167), at the record's
place in the Control Area (R160), a write-back with the record, its advanced update count and its mark as they stand then (R166,
R171, R172, R174 to R176). At the end of a command a pending wheel is swapped in, or discarded with UNNAMED, when the decision
wrapped or when nothing is left to grant, and waits otherwise (R131 to R133); a port waiting with NO_PHASE that the new wheel
names enters ON (R17, R132), and with the memory port free what the idle swap gives the area engine to write is granted (R126). -/
def Obligations.MemoryGrantsFollowTheWheel : Prop :=
  ∀ p : Part, wheelLaw p → queueLaw p → p.mo.pointer < 64 → p.mo.bulkTurn < 8 →
    (p.mo.inFlight ≠ none → moDecision p = p) ∧
    (noPhaseAsks p .urgent → noPhaseAsks p .bulk → moDecision p = p) ∧
    (∀ i, p.mo.inFlight = none → decidedPhase p i →
      (p.mo.pendingWheel = none →
        (moDecision p).mo.pointer = (i + 1) % 64 ∧ (moDecision p).mo.bulkTurn = (p.mo.bulkTurn + 1) % 8 ∧
        (moDecision p).mo.wheel = p.mo.wheel ∧ (moDecision p).ports = p.ports ∧ (moDecision p).bu = p.bu ∧
        (p.mo.wheel[i]? = some (some .cp) → (moDecision p).mo.cp = none ∧
          ∃ c, p.mo.cp = some c ∧ (moDecision p).mo.inFlight = some (.cp { c with
            value := if c.purpose = .mergeSummary then p.ae.summary
              else if c.purpose = .mergeError then p.ae.error else c.value } false)) ∧
        (p.mo.wheel[i]? = some (some .ae) → offerGranted p (moDecision p)) ∧
        (∀ n a others offset length more, p.mo.wheel[i]? = some (some (.port n)) → p.mo.lists.at n = a :: others →
          a.bursts = (offset, length) :: more →
          (moDecision p).mo.inFlight = some (.port n a offset length more.isEmpty false))) ∧
      (∀ w, p.mo.pendingWheel = some w → p.mrc.adoptionTimer = none →
        ((i < p.mo.pointer ∨ i = 63 ∨ anyPending (grantAt i p) = false) → wheelSwapped w p (settle p)) ∧
        (p.mo.pointer ≤ i → i ≠ 63 → anyPending (grantAt i p) = true → wheelWaits w p (settle p)))) ∧
    (∀ w, p.mo.pendingWheel = some w → p.mrc.adoptionTimer = none → anyPending p = false →
      wheelSwapped w p (settle p) ∧
      (p.mo.inFlight = none → p.ae.quiet = false → offerGranted (swapWheel p) (settle p)) ∧
      ∀ n, namesInService p w = true → (p.port n).state = .settle → (p.port n).flags.noPhase = true →
        (p.port n).deferred = none → (p.port n).plan.laneUse = .expected → (p.port n).plan.size ≠ 0 →
        ((names w n = true → ((settle p).port n).state = .on ∧
            ((settle p).lane n).openDue = some ((p.port n).plan.size / 256)) ∧
          (names w n = false → ((settle p).port n).state = .settle ∧
            ((settle p).port n).flags.noPhase = true)))

/-- R120: an access is split into bursts of at most 64 bytes, each within one 64-byte block; the first begins at the first byte of
the access, every other at the start of its block, and together, in order, they are the bytes of the access. -/
def Obligations.BurstsCoverTheAccessBlockByBlock : Prop :=
  ∀ offset length : Nat, 1 ≤ length →
    (∀ b ∈ splitBursts offset length, 1 ≤ b.2 ∧ b.2 ≤ 64 ∧ b.1 / 64 = (b.1 + b.2 - 1) / 64) ∧
    (∀ b ∈ (splitBursts offset length).tail, b.1 % 64 = 0) ∧
    (splitBursts offset length).flatMap (fun b => List.range' b.1 b.2) = List.range' offset length
end

