-- ==== Sys2Proof/Laws/State.lean ====
section
/-! SUPPORT. One lemma per block per update of the part, and the tables with one value per port: no later proof unfolds
a record update. -/

namespace Sys2Proof.Machine

/-! ### Tables -/

@[simp] theorem PerPort.at_put_self {α : Type} (v : PerPort α) (n : Port) (x : α) : (v.put n x).at n = x :=
  Vector.getElem_set_self n.2

@[simp] theorem PerPort.at_put_ne {α : Type} {v : PerPort α} {n m : Port} {x : α} (h : n ≠ m) :
    (v.put n x).at m = v.at m := by
  have h' : n.1 ≠ m.1 := fun e => h (Fin.ext e)
  exact Vector.getElem_set_ne n.2 m.2 h'

theorem PerPort.at_put {α : Type} (v : PerPort α) (n m : Port) (x : α) :
    (v.put n x).at m = if n = m then x else v.at m := by
  split
  · next h => subst h; simp
  · next h => simp [h]

@[simp] theorem PerPort.at_all {α : Type} (x : α) (n : Port) : (PerPort.all x).at n = x := by
  simp [PerPort.at, PerPort.all, Vector.get]

theorem PerPort.ext {α : Type} {v w : PerPort α} (h : ∀ n, v.at n = w.at n) : v = w := by
  apply Vector.ext
  intro i hi
  have := h ⟨i, hi⟩
  simpa [PerPort.at, Vector.get] using this

@[simp] theorem PerPort.put_at {α : Type} (v : PerPort α) (n : Port) : v.put n (v.at n) = v := by
  apply PerPort.ext
  intro m
  rw [PerPort.at_put]
  split
  · next h => subst h; rfl
  · rfl

theorem mem_allPorts (n : Port) : n ∈ allPorts := by revert n; decide

/-! ### Updates of the part -/

@[simp] theorem Part.mapBu_bu (f : Budget → Budget) (p : Part) : (p.mapBu f).bu = f p.bu := rfl
@[simp] theorem Part.mapBu_ports (f : Budget → Budget) (p : Part) : (p.mapBu f).ports = p.ports := rfl
@[simp] theorem Part.mapBu_ms (f : Budget → Budget) (p : Part) : (p.mapBu f).ms = p.ms := rfl
@[simp] theorem Part.mapBu_lanes (f : Budget → Budget) (p : Part) : (p.mapBu f).lanes = p.lanes := rfl
@[simp] theorem Part.mapBu_mo (f : Budget → Budget) (p : Part) : (p.mapBu f).mo = p.mo := rfl
@[simp] theorem Part.mapBu_ptp (f : Budget → Budget) (p : Part) : (p.mapBu f).ptp = p.ptp := rfl
@[simp] theorem Part.mapBu_ae (f : Budget → Budget) (p : Part) : (p.mapBu f).ae = p.ae := rfl
@[simp] theorem Part.mapBu_mrc (f : Budget → Budget) (p : Part) : (p.mapBu f).mrc = p.mrc := rfl
@[simp] theorem Part.mapBu_port (f : Budget → Budget) (p : Part) (n : Port) : (p.mapBu f).port n = p.port n := rfl
@[simp] theorem Part.mapBu_lane (f : Budget → Budget) (p : Part) (n : Port) : (p.mapBu f).lane n = p.lane n := rfl

@[simp] theorem Part.mapMs_ms (f : Sequencer → Sequencer) (p : Part) : (p.mapMs f).ms = f p.ms := rfl
@[simp] theorem Part.mapMs_ports (f : Sequencer → Sequencer) (p : Part) : (p.mapMs f).ports = p.ports := rfl
@[simp] theorem Part.mapMs_bu (f : Sequencer → Sequencer) (p : Part) : (p.mapMs f).bu = p.bu := rfl
@[simp] theorem Part.mapMs_lanes (f : Sequencer → Sequencer) (p : Part) : (p.mapMs f).lanes = p.lanes := rfl
@[simp] theorem Part.mapMs_mo (f : Sequencer → Sequencer) (p : Part) : (p.mapMs f).mo = p.mo := rfl
@[simp] theorem Part.mapMs_ptp (f : Sequencer → Sequencer) (p : Part) : (p.mapMs f).ptp = p.ptp := rfl
@[simp] theorem Part.mapMs_ae (f : Sequencer → Sequencer) (p : Part) : (p.mapMs f).ae = p.ae := rfl
@[simp] theorem Part.mapMs_mrc (f : Sequencer → Sequencer) (p : Part) : (p.mapMs f).mrc = p.mrc := rfl
@[simp] theorem Part.mapMs_port (f : Sequencer → Sequencer) (p : Part) (n : Port) : (p.mapMs f).port n = p.port n := rfl
@[simp] theorem Part.mapMs_lane (f : Sequencer → Sequencer) (p : Part) (n : Port) : (p.mapMs f).lane n = p.lane n := rfl

@[simp] theorem Part.mapMo_mo (f : Orderer → Orderer) (p : Part) : (p.mapMo f).mo = f p.mo := rfl
@[simp] theorem Part.mapMo_ports (f : Orderer → Orderer) (p : Part) : (p.mapMo f).ports = p.ports := rfl
@[simp] theorem Part.mapMo_bu (f : Orderer → Orderer) (p : Part) : (p.mapMo f).bu = p.bu := rfl
@[simp] theorem Part.mapMo_ms (f : Orderer → Orderer) (p : Part) : (p.mapMo f).ms = p.ms := rfl
@[simp] theorem Part.mapMo_lanes (f : Orderer → Orderer) (p : Part) : (p.mapMo f).lanes = p.lanes := rfl
@[simp] theorem Part.mapMo_ptp (f : Orderer → Orderer) (p : Part) : (p.mapMo f).ptp = p.ptp := rfl
@[simp] theorem Part.mapMo_ae (f : Orderer → Orderer) (p : Part) : (p.mapMo f).ae = p.ae := rfl
@[simp] theorem Part.mapMo_mrc (f : Orderer → Orderer) (p : Part) : (p.mapMo f).mrc = p.mrc := rfl
@[simp] theorem Part.mapMo_port (f : Orderer → Orderer) (p : Part) (n : Port) : (p.mapMo f).port n = p.port n := rfl
@[simp] theorem Part.mapMo_lane (f : Orderer → Orderer) (p : Part) (n : Port) : (p.mapMo f).lane n = p.lane n := rfl

@[simp] theorem Part.mapPtp_ptp (f : PassThrough → PassThrough) (p : Part) : (p.mapPtp f).ptp = f p.ptp := rfl
@[simp] theorem Part.mapPtp_ports (f : PassThrough → PassThrough) (p : Part) : (p.mapPtp f).ports = p.ports := rfl
@[simp] theorem Part.mapPtp_bu (f : PassThrough → PassThrough) (p : Part) : (p.mapPtp f).bu = p.bu := rfl
@[simp] theorem Part.mapPtp_ms (f : PassThrough → PassThrough) (p : Part) : (p.mapPtp f).ms = p.ms := rfl
@[simp] theorem Part.mapPtp_lanes (f : PassThrough → PassThrough) (p : Part) : (p.mapPtp f).lanes = p.lanes := rfl
@[simp] theorem Part.mapPtp_mo (f : PassThrough → PassThrough) (p : Part) : (p.mapPtp f).mo = p.mo := rfl
@[simp] theorem Part.mapPtp_ae (f : PassThrough → PassThrough) (p : Part) : (p.mapPtp f).ae = p.ae := rfl
@[simp] theorem Part.mapPtp_mrc (f : PassThrough → PassThrough) (p : Part) : (p.mapPtp f).mrc = p.mrc := rfl
@[simp] theorem Part.mapPtp_port (f : PassThrough → PassThrough) (p : Part) (n : Port) : (p.mapPtp f).port n = p.port n := rfl
@[simp] theorem Part.mapPtp_lane (f : PassThrough → PassThrough) (p : Part) (n : Port) : (p.mapPtp f).lane n = p.lane n := rfl

@[simp] theorem Part.mapAe_ae (f : AreaEngine → AreaEngine) (p : Part) : (p.mapAe f).ae = f p.ae := rfl
@[simp] theorem Part.mapAe_ports (f : AreaEngine → AreaEngine) (p : Part) : (p.mapAe f).ports = p.ports := rfl
@[simp] theorem Part.mapAe_bu (f : AreaEngine → AreaEngine) (p : Part) : (p.mapAe f).bu = p.bu := rfl
@[simp] theorem Part.mapAe_ms (f : AreaEngine → AreaEngine) (p : Part) : (p.mapAe f).ms = p.ms := rfl
@[simp] theorem Part.mapAe_lanes (f : AreaEngine → AreaEngine) (p : Part) : (p.mapAe f).lanes = p.lanes := rfl
@[simp] theorem Part.mapAe_mo (f : AreaEngine → AreaEngine) (p : Part) : (p.mapAe f).mo = p.mo := rfl
@[simp] theorem Part.mapAe_ptp (f : AreaEngine → AreaEngine) (p : Part) : (p.mapAe f).ptp = p.ptp := rfl
@[simp] theorem Part.mapAe_mrc (f : AreaEngine → AreaEngine) (p : Part) : (p.mapAe f).mrc = p.mrc := rfl
@[simp] theorem Part.mapAe_port (f : AreaEngine → AreaEngine) (p : Part) (n : Port) : (p.mapAe f).port n = p.port n := rfl
@[simp] theorem Part.mapAe_lane (f : AreaEngine → AreaEngine) (p : Part) (n : Port) : (p.mapAe f).lane n = p.lane n := rfl

@[simp] theorem Part.mapMrc_mrc (f : ModeReset → ModeReset) (p : Part) : (p.mapMrc f).mrc = f p.mrc := rfl
@[simp] theorem Part.mapMrc_ports (f : ModeReset → ModeReset) (p : Part) : (p.mapMrc f).ports = p.ports := rfl
@[simp] theorem Part.mapMrc_bu (f : ModeReset → ModeReset) (p : Part) : (p.mapMrc f).bu = p.bu := rfl
@[simp] theorem Part.mapMrc_ms (f : ModeReset → ModeReset) (p : Part) : (p.mapMrc f).ms = p.ms := rfl
@[simp] theorem Part.mapMrc_lanes (f : ModeReset → ModeReset) (p : Part) : (p.mapMrc f).lanes = p.lanes := rfl
@[simp] theorem Part.mapMrc_mo (f : ModeReset → ModeReset) (p : Part) : (p.mapMrc f).mo = p.mo := rfl
@[simp] theorem Part.mapMrc_ptp (f : ModeReset → ModeReset) (p : Part) : (p.mapMrc f).ptp = p.ptp := rfl
@[simp] theorem Part.mapMrc_ae (f : ModeReset → ModeReset) (p : Part) : (p.mapMrc f).ae = p.ae := rfl
@[simp] theorem Part.mapMrc_port (f : ModeReset → ModeReset) (p : Part) (n : Port) : (p.mapMrc f).port n = p.port n := rfl
@[simp] theorem Part.mapMrc_lane (f : ModeReset → ModeReset) (p : Part) (n : Port) : (p.mapMrc f).lane n = p.lane n := rfl

@[simp] theorem Part.setPort_ports (n : Port) (r : PortRecord) (p : Part) : (p.setPort n r).ports = p.ports.put n r := rfl
@[simp] theorem Part.setPort_bu (n : Port) (r : PortRecord) (p : Part) : (p.setPort n r).bu = p.bu := rfl
@[simp] theorem Part.setPort_ms (n : Port) (r : PortRecord) (p : Part) : (p.setPort n r).ms = p.ms := rfl
@[simp] theorem Part.setPort_lanes (n : Port) (r : PortRecord) (p : Part) : (p.setPort n r).lanes = p.lanes := rfl
@[simp] theorem Part.setPort_mo (n : Port) (r : PortRecord) (p : Part) : (p.setPort n r).mo = p.mo := rfl
@[simp] theorem Part.setPort_ptp (n : Port) (r : PortRecord) (p : Part) : (p.setPort n r).ptp = p.ptp := rfl
@[simp] theorem Part.setPort_ae (n : Port) (r : PortRecord) (p : Part) : (p.setPort n r).ae = p.ae := rfl
@[simp] theorem Part.setPort_mrc (n : Port) (r : PortRecord) (p : Part) : (p.setPort n r).mrc = p.mrc := rfl
@[simp] theorem Part.setPort_port_self (n : Port) (r : PortRecord) (p : Part) : (p.setPort n r).port n = r :=
  PerPort.at_put_self _ _ _
@[simp] theorem Part.setPort_port_ne {n m : Port} {r : PortRecord} {p : Part} (h : n ≠ m) : (p.setPort n r).port m = p.port m :=
  PerPort.at_put_ne h
@[simp] theorem Part.setPort_lane (n m : Port) (r : PortRecord) (p : Part) : (p.setPort n r).lane m = p.lane m := rfl

@[simp] theorem Part.setLane_lanes (n : Port) (r : Lane) (p : Part) : (p.setLane n r).lanes = p.lanes.put n r := rfl
@[simp] theorem Part.setLane_ports (n : Port) (r : Lane) (p : Part) : (p.setLane n r).ports = p.ports := rfl
@[simp] theorem Part.setLane_bu (n : Port) (r : Lane) (p : Part) : (p.setLane n r).bu = p.bu := rfl
@[simp] theorem Part.setLane_ms (n : Port) (r : Lane) (p : Part) : (p.setLane n r).ms = p.ms := rfl
@[simp] theorem Part.setLane_mo (n : Port) (r : Lane) (p : Part) : (p.setLane n r).mo = p.mo := rfl
@[simp] theorem Part.setLane_ptp (n : Port) (r : Lane) (p : Part) : (p.setLane n r).ptp = p.ptp := rfl
@[simp] theorem Part.setLane_ae (n : Port) (r : Lane) (p : Part) : (p.setLane n r).ae = p.ae := rfl
@[simp] theorem Part.setLane_mrc (n : Port) (r : Lane) (p : Part) : (p.setLane n r).mrc = p.mrc := rfl
@[simp] theorem Part.setLane_lane_self (n : Port) (r : Lane) (p : Part) : (p.setLane n r).lane n = r :=
  PerPort.at_put_self _ _ _
@[simp] theorem Part.setLane_lane_ne {n m : Port} {r : Lane} {p : Part} (h : n ≠ m) : (p.setLane n r).lane m = p.lane m :=
  PerPort.at_put_ne h
@[simp] theorem Part.setLane_port (n m : Port) (r : Lane) (p : Part) : (p.setLane n r).port m = p.port m := rfl

theorem Part.port_ext {p q : Part} (h : ∀ n, p.port n = q.port n) : p.ports = q.ports := PerPort.ext h
theorem Part.lane_ext {p q : Part} (h : ∀ n, p.lane n = q.lane n) : p.lanes = q.lanes := PerPort.ext h

end Sys2Proof.Machine
end

