-- ==== Sys2Proof/Laws/Reports.lean ====
section
/-! SUPPORT. What a report to the area engine can change: nothing outside the area engine, and there its lists and marks. Two
projections of the part say what the ports' operations leave alone: `fixed` (every port operation) and `aside n` (the
operations of the other ports). -/

namespace Sys2Proof.Machine

/-- What no operation of the ports and the budget changes; the parts of a block they do change are blanked. -/
structure Fixed where
  plan : DevicePlan
  ms : Sequencer
  mo : Orderer
  busy : Bool
  ptp : PassThrough
  ae : AreaEngine
  mrc : ModeReset

/-- See `Fixed`. -/
def Part.fixed (p : Part) : Fixed where
  plan := p.bu.plan
  ms := { p.ms with views := PerPort.all ⟨0, 0⟩, overCount := PerPort.all 0, rampCount := PerPort.all 0 }
  mo := { p.mo with lists := PerPort.all [], classMap := PerPort.all 0, inFlight := none }
  busy := p.mo.inFlight.isSome
  ptp := { p.ptp with windows := PerPort.all ⟨0, 0⟩, shadows := PerPort.all none }
  ae := { p.ae with writeBacks := [], device := idleRequest, requests := PerPort.all idleRequest,
                    portMarks := PerPort.all false, deviceMark := false }
  mrc := p.mrc

/-- A port record, its stamp blanked while its switch is closed: a renumbering (R54) changes nothing else. -/
def PortRecord.steady (r : PortRecord) : PortRecord := { r with stamp := if r.state.closed then 0 else r.stamp }

/-- What the operations of the other ports leave alone of a port: its record, its lane and its queue entries. -/
structure Aside where
  record : PortRecord
  lane : Lane
  entries : List Entry

/-- See `Aside`. -/
def Part.aside (n : Port) (p : Part) : Aside where
  record := (p.port n).steady
  lane := p.lane n
  entries := p.bu.queue.filter (fun e => e.port == n)

/-- The blocks other than the area engine are those of `p`. -/
def AeOnly (q p : Part) : Prop :=
  q.ports = p.ports ∧ q.bu = p.bu ∧ q.ms = p.ms ∧ q.lanes = p.lanes ∧ q.mo = p.mo ∧ q.ptp = p.ptp ∧ q.mrc = p.mrc

theorem AeOnly.refl (p : Part) : AeOnly p p := ⟨rfl, rfl, rfl, rfl, rfl, rfl, rfl⟩

theorem AeOnly.trans {p q r : Part} (h : AeOnly r q) (g : AeOnly q p) : AeOnly r p := by
  simp only [AeOnly] at *
  simp [h, g]

theorem AeOnly.port {p q : Part} (h : AeOnly q p) (n : Port) : q.port n = p.port n := by
  simp only [Part.port, h.1]

theorem AeOnly.lane {p q : Part} (h : AeOnly q p) (n : Port) : q.lane n = p.lane n := by
  simp only [Part.lane, h.2.2.2.1]

theorem AeOnly.aside {p q : Part} (h : AeOnly q p) (n : Port) : q.aside n = p.aside n := by
  simp only [Part.aside, h.port, h.lane, h.2.1]

theorem AeOnly.mapAe (f : AreaEngine → AreaEngine) (p : Part) : AeOnly (p.mapAe f) p := AeOnly.refl p

theorem AeOnly.queueWriteBack (t : Target) (p : Part) : AeOnly (queueWriteBack t p) p := by
  unfold Machine.queueWriteBack
  split
  · exact AeOnly.refl p
  · exact AeOnly.mapAe _ p

theorem AeOnly.setSummary (m : Word) (p : Part) : AeOnly (setSummary m p) p := by
  unfold Machine.setSummary
  split
  · exact AeOnly.refl p
  · exact AeOnly.queueWriteBack _ _

theorem AeOnly.reportError (b : ErrorBit) (p : Part) : AeOnly (reportError b p) p := by
  unfold Machine.reportError
  split
  · exact AeOnly.refl p
  · exact (AeOnly.setSummary _ _).trans (AeOnly.queueWriteBack _ _)

theorem AeOnly.reportPort (n : Port) (m : Bool) (p : Part) : AeOnly (reportPort n m p) p := by
  unfold Machine.reportPort
  cases m <;> exact AeOnly.queueWriteBack _ _

theorem AeOnly.reportDevice (m : Bool) (p : Part) : AeOnly (reportDevice m p) p := by
  unfold Machine.reportDevice
  cases m <;> exact AeOnly.queueWriteBack _ _

theorem AeOnly.setRequest (w : ReqWord) (r : Request) (p : Part) : AeOnly (p.setRequest w r) p := by
  cases w <;> exact AeOnly.mapAe _ p

theorem AeOnly.complete (w : ReqWord) (r : Result) (p : Part) : AeOnly (complete w r p) p :=
  (AeOnly.queueWriteBack _ _).trans (AeOnly.setRequest _ _ _)

@[simp] theorem queueWriteBack_ports (t : Target) (p : Part) : (queueWriteBack t p).ports = p.ports := (AeOnly.queueWriteBack t p).1
@[simp] theorem queueWriteBack_bu (t : Target) (p : Part) : (queueWriteBack t p).bu = p.bu := (AeOnly.queueWriteBack t p).2.1
@[simp] theorem queueWriteBack_ms (t : Target) (p : Part) : (queueWriteBack t p).ms = p.ms := (AeOnly.queueWriteBack t p).2.2.1
@[simp] theorem queueWriteBack_lanes (t : Target) (p : Part) : (queueWriteBack t p).lanes = p.lanes := (AeOnly.queueWriteBack t p).2.2.2.1
@[simp] theorem queueWriteBack_mo (t : Target) (p : Part) : (queueWriteBack t p).mo = p.mo := (AeOnly.queueWriteBack t p).2.2.2.2.1
@[simp] theorem queueWriteBack_ptp (t : Target) (p : Part) : (queueWriteBack t p).ptp = p.ptp := (AeOnly.queueWriteBack t p).2.2.2.2.2.1
@[simp] theorem queueWriteBack_mrc (t : Target) (p : Part) : (queueWriteBack t p).mrc = p.mrc := (AeOnly.queueWriteBack t p).2.2.2.2.2.2
@[simp] theorem queueWriteBack_port (t : Target) (p : Part) (n : Port) : (queueWriteBack t p).port n = p.port n := (AeOnly.queueWriteBack t p).port n
@[simp] theorem queueWriteBack_lane (t : Target) (p : Part) (n : Port) : (queueWriteBack t p).lane n = p.lane n := (AeOnly.queueWriteBack t p).lane n
@[simp] theorem queueWriteBack_aside (t : Target) (p : Part) (n : Port) : (queueWriteBack t p).aside n = p.aside n := (AeOnly.queueWriteBack t p).aside n

@[simp] theorem setSummary_ports (m : Word) (p : Part) : (setSummary m p).ports = p.ports := (AeOnly.setSummary m p).1
@[simp] theorem setSummary_bu (m : Word) (p : Part) : (setSummary m p).bu = p.bu := (AeOnly.setSummary m p).2.1
@[simp] theorem setSummary_ms (m : Word) (p : Part) : (setSummary m p).ms = p.ms := (AeOnly.setSummary m p).2.2.1
@[simp] theorem setSummary_lanes (m : Word) (p : Part) : (setSummary m p).lanes = p.lanes := (AeOnly.setSummary m p).2.2.2.1
@[simp] theorem setSummary_mo (m : Word) (p : Part) : (setSummary m p).mo = p.mo := (AeOnly.setSummary m p).2.2.2.2.1
@[simp] theorem setSummary_ptp (m : Word) (p : Part) : (setSummary m p).ptp = p.ptp := (AeOnly.setSummary m p).2.2.2.2.2.1
@[simp] theorem setSummary_mrc (m : Word) (p : Part) : (setSummary m p).mrc = p.mrc := (AeOnly.setSummary m p).2.2.2.2.2.2
@[simp] theorem setSummary_port (m : Word) (p : Part) (n : Port) : (setSummary m p).port n = p.port n := (AeOnly.setSummary m p).port n
@[simp] theorem setSummary_lane (m : Word) (p : Part) (n : Port) : (setSummary m p).lane n = p.lane n := (AeOnly.setSummary m p).lane n
@[simp] theorem setSummary_aside (m : Word) (p : Part) (n : Port) : (setSummary m p).aside n = p.aside n := (AeOnly.setSummary m p).aside n

@[simp] theorem reportError_ports (b : ErrorBit) (p : Part) : (reportError b p).ports = p.ports := (AeOnly.reportError b p).1
@[simp] theorem reportError_bu (b : ErrorBit) (p : Part) : (reportError b p).bu = p.bu := (AeOnly.reportError b p).2.1
@[simp] theorem reportError_ms (b : ErrorBit) (p : Part) : (reportError b p).ms = p.ms := (AeOnly.reportError b p).2.2.1
@[simp] theorem reportError_lanes (b : ErrorBit) (p : Part) : (reportError b p).lanes = p.lanes := (AeOnly.reportError b p).2.2.2.1
@[simp] theorem reportError_mo (b : ErrorBit) (p : Part) : (reportError b p).mo = p.mo := (AeOnly.reportError b p).2.2.2.2.1
@[simp] theorem reportError_ptp (b : ErrorBit) (p : Part) : (reportError b p).ptp = p.ptp := (AeOnly.reportError b p).2.2.2.2.2.1
@[simp] theorem reportError_mrc (b : ErrorBit) (p : Part) : (reportError b p).mrc = p.mrc := (AeOnly.reportError b p).2.2.2.2.2.2
@[simp] theorem reportError_port (b : ErrorBit) (p : Part) (n : Port) : (reportError b p).port n = p.port n := (AeOnly.reportError b p).port n
@[simp] theorem reportError_lane (b : ErrorBit) (p : Part) (n : Port) : (reportError b p).lane n = p.lane n := (AeOnly.reportError b p).lane n
@[simp] theorem reportError_aside (b : ErrorBit) (p : Part) (n : Port) : (reportError b p).aside n = p.aside n := (AeOnly.reportError b p).aside n

@[simp] theorem reportPort_ports (k : Port) (m : Bool) (p : Part) : (reportPort k m p).ports = p.ports := (AeOnly.reportPort k m p).1
@[simp] theorem reportPort_bu (k : Port) (m : Bool) (p : Part) : (reportPort k m p).bu = p.bu := (AeOnly.reportPort k m p).2.1
@[simp] theorem reportPort_ms (k : Port) (m : Bool) (p : Part) : (reportPort k m p).ms = p.ms := (AeOnly.reportPort k m p).2.2.1
@[simp] theorem reportPort_lanes (k : Port) (m : Bool) (p : Part) : (reportPort k m p).lanes = p.lanes := (AeOnly.reportPort k m p).2.2.2.1
@[simp] theorem reportPort_mo (k : Port) (m : Bool) (p : Part) : (reportPort k m p).mo = p.mo := (AeOnly.reportPort k m p).2.2.2.2.1
@[simp] theorem reportPort_ptp (k : Port) (m : Bool) (p : Part) : (reportPort k m p).ptp = p.ptp := (AeOnly.reportPort k m p).2.2.2.2.2.1
@[simp] theorem reportPort_mrc (k : Port) (m : Bool) (p : Part) : (reportPort k m p).mrc = p.mrc := (AeOnly.reportPort k m p).2.2.2.2.2.2
@[simp] theorem reportPort_port (k : Port) (m : Bool) (p : Part) (n : Port) : (reportPort k m p).port n = p.port n := (AeOnly.reportPort k m p).port n
@[simp] theorem reportPort_lane (k : Port) (m : Bool) (p : Part) (n : Port) : (reportPort k m p).lane n = p.lane n := (AeOnly.reportPort k m p).lane n
@[simp] theorem reportPort_aside (k : Port) (m : Bool) (p : Part) (n : Port) : (reportPort k m p).aside n = p.aside n := (AeOnly.reportPort k m p).aside n

@[simp] theorem reportDevice_ports (m : Bool) (p : Part) : (reportDevice m p).ports = p.ports := (AeOnly.reportDevice m p).1
@[simp] theorem reportDevice_bu (m : Bool) (p : Part) : (reportDevice m p).bu = p.bu := (AeOnly.reportDevice m p).2.1
@[simp] theorem reportDevice_ms (m : Bool) (p : Part) : (reportDevice m p).ms = p.ms := (AeOnly.reportDevice m p).2.2.1
@[simp] theorem reportDevice_lanes (m : Bool) (p : Part) : (reportDevice m p).lanes = p.lanes := (AeOnly.reportDevice m p).2.2.2.1
@[simp] theorem reportDevice_mo (m : Bool) (p : Part) : (reportDevice m p).mo = p.mo := (AeOnly.reportDevice m p).2.2.2.2.1
@[simp] theorem reportDevice_ptp (m : Bool) (p : Part) : (reportDevice m p).ptp = p.ptp := (AeOnly.reportDevice m p).2.2.2.2.2.1
@[simp] theorem reportDevice_mrc (m : Bool) (p : Part) : (reportDevice m p).mrc = p.mrc := (AeOnly.reportDevice m p).2.2.2.2.2.2
@[simp] theorem reportDevice_port (m : Bool) (p : Part) (n : Port) : (reportDevice m p).port n = p.port n := (AeOnly.reportDevice m p).port n
@[simp] theorem reportDevice_lane (m : Bool) (p : Part) (n : Port) : (reportDevice m p).lane n = p.lane n := (AeOnly.reportDevice m p).lane n
@[simp] theorem reportDevice_aside (m : Bool) (p : Part) (n : Port) : (reportDevice m p).aside n = p.aside n := (AeOnly.reportDevice m p).aside n

@[simp] theorem setRequest_ports (w : ReqWord) (r : Request) (p : Part) : (Part.setRequest w r p).ports = p.ports := (AeOnly.setRequest w r p).1
@[simp] theorem setRequest_bu (w : ReqWord) (r : Request) (p : Part) : (Part.setRequest w r p).bu = p.bu := (AeOnly.setRequest w r p).2.1
@[simp] theorem setRequest_ms (w : ReqWord) (r : Request) (p : Part) : (Part.setRequest w r p).ms = p.ms := (AeOnly.setRequest w r p).2.2.1
@[simp] theorem setRequest_lanes (w : ReqWord) (r : Request) (p : Part) : (Part.setRequest w r p).lanes = p.lanes := (AeOnly.setRequest w r p).2.2.2.1
@[simp] theorem setRequest_mo (w : ReqWord) (r : Request) (p : Part) : (Part.setRequest w r p).mo = p.mo := (AeOnly.setRequest w r p).2.2.2.2.1
@[simp] theorem setRequest_ptp (w : ReqWord) (r : Request) (p : Part) : (Part.setRequest w r p).ptp = p.ptp := (AeOnly.setRequest w r p).2.2.2.2.2.1
@[simp] theorem setRequest_mrc (w : ReqWord) (r : Request) (p : Part) : (Part.setRequest w r p).mrc = p.mrc := (AeOnly.setRequest w r p).2.2.2.2.2.2
@[simp] theorem setRequest_port (w : ReqWord) (r : Request) (p : Part) (n : Port) : (Part.setRequest w r p).port n = p.port n := (AeOnly.setRequest w r p).port n
@[simp] theorem setRequest_lane (w : ReqWord) (r : Request) (p : Part) (n : Port) : (Part.setRequest w r p).lane n = p.lane n := (AeOnly.setRequest w r p).lane n
@[simp] theorem setRequest_aside (w : ReqWord) (r : Request) (p : Part) (n : Port) : (Part.setRequest w r p).aside n = p.aside n := (AeOnly.setRequest w r p).aside n

@[simp] theorem complete_ports (w : ReqWord) (r : Result) (p : Part) : (complete w r p).ports = p.ports := (AeOnly.complete w r p).1
@[simp] theorem complete_bu (w : ReqWord) (r : Result) (p : Part) : (complete w r p).bu = p.bu := (AeOnly.complete w r p).2.1
@[simp] theorem complete_ms (w : ReqWord) (r : Result) (p : Part) : (complete w r p).ms = p.ms := (AeOnly.complete w r p).2.2.1
@[simp] theorem complete_lanes (w : ReqWord) (r : Result) (p : Part) : (complete w r p).lanes = p.lanes := (AeOnly.complete w r p).2.2.2.1
@[simp] theorem complete_mo (w : ReqWord) (r : Result) (p : Part) : (complete w r p).mo = p.mo := (AeOnly.complete w r p).2.2.2.2.1
@[simp] theorem complete_ptp (w : ReqWord) (r : Result) (p : Part) : (complete w r p).ptp = p.ptp := (AeOnly.complete w r p).2.2.2.2.2.1
@[simp] theorem complete_mrc (w : ReqWord) (r : Result) (p : Part) : (complete w r p).mrc = p.mrc := (AeOnly.complete w r p).2.2.2.2.2.2
@[simp] theorem complete_port (w : ReqWord) (r : Result) (p : Part) (n : Port) : (complete w r p).port n = p.port n := (AeOnly.complete w r p).port n
@[simp] theorem complete_lane (w : ReqWord) (r : Result) (p : Part) (n : Port) : (complete w r p).lane n = p.lane n := (AeOnly.complete w r p).lane n
@[simp] theorem complete_aside (w : ReqWord) (r : Result) (p : Part) (n : Port) : (complete w r p).aside n = p.aside n := (AeOnly.complete w r p).aside n

/-! ### What the fixed projection says, field by field -/

theorem Part.mrc_of_fixed {p q : Part} (h : q.fixed = p.fixed) : q.mrc = p.mrc := congrArg Fixed.mrc h
theorem Part.plan_of_fixed {p q : Part} (h : q.fixed = p.fixed) : q.bu.plan = p.bu.plan := congrArg Fixed.plan h
theorem Part.mode_of_fixed {p q : Part} (h : q.fixed = p.fixed) : q.ms.mode = p.ms.mode :=
  congrArg (fun x : Fixed => x.ms.mode) h
theorem Part.active_of_fixed {p q : Part} (h : q.fixed = p.fixed) : q.ms.active = p.ms.active :=
  congrArg (fun x : Fixed => x.ms.active) h
theorem Part.pending_of_fixed {p q : Part} (h : q.fixed = p.fixed) : q.ms.pending = p.ms.pending :=
  congrArg (fun x : Fixed => x.ms.pending) h
theorem Part.held_of_fixed {p q : Part} (h : q.fixed = p.fixed) : q.ms.held = p.ms.held :=
  congrArg (fun x : Fixed => x.ms.held) h
theorem Part.command_of_fixed {p q : Part} (h : q.fixed = p.fixed) : q.ms.command = p.ms.command :=
  congrArg (fun x : Fixed => x.ms.command) h
theorem Part.current_of_fixed {p q : Part} (h : q.fixed = p.fixed) : q.ms.current = p.ms.current :=
  congrArg (fun x : Fixed => x.ms.current) h
theorem Part.onceRounds_of_fixed {p q : Part} (h : q.fixed = p.fixed) : q.ms.onceRounds = p.ms.onceRounds :=
  congrArg (fun x : Fixed => x.ms.onceRounds) h
theorem Part.calibration_of_fixed {p q : Part} (h : q.fixed = p.fixed) : q.ms.calibration = p.ms.calibration :=
  congrArg (fun x : Fixed => x.ms.calibration) h
theorem Part.results_of_fixed {p q : Part} (h : q.fixed = p.fixed) : q.ms.results = p.ms.results :=
  congrArg (fun x : Fixed => x.ms.results) h
theorem Part.offset_of_fixed {p q : Part} (h : q.fixed = p.fixed) : q.ms.offset = p.ms.offset :=
  congrArg (fun x : Fixed => x.ms.offset) h
theorem Part.voltageStep_of_fixed {p q : Part} (h : q.fixed = p.fixed) : q.ms.voltageStep = p.ms.voltageStep :=
  congrArg (fun x : Fixed => x.ms.voltageStep) h
theorem Part.temperatureStep_of_fixed {p q : Part} (h : q.fixed = p.fixed) : q.ms.temperatureStep = p.ms.temperatureStep :=
  congrArg (fun x : Fixed => x.ms.temperatureStep) h
theorem Part.belowSag_of_fixed {p q : Part} (h : q.fixed = p.fixed) : q.ms.belowSag = p.ms.belowSag :=
  congrArg (fun x : Fixed => x.ms.belowSag) h
theorem Part.belowCritical_of_fixed {p q : Part} (h : q.fixed = p.fixed) : q.ms.belowCritical = p.ms.belowCritical :=
  congrArg (fun x : Fixed => x.ms.belowCritical) h
theorem Part.recovery_of_fixed {p q : Part} (h : q.fixed = p.fixed) : q.ms.recovery = p.ms.recovery :=
  congrArg (fun x : Fixed => x.ms.recovery) h
theorem Part.wheel_of_fixed {p q : Part} (h : q.fixed = p.fixed) : q.mo.wheel = p.mo.wheel :=
  congrArg (fun x : Fixed => x.mo.wheel) h
theorem Part.pendingWheel_of_fixed {p q : Part} (h : q.fixed = p.fixed) : q.mo.pendingWheel = p.mo.pendingWheel :=
  congrArg (fun x : Fixed => x.mo.pendingWheel) h
theorem Part.pointer_of_fixed {p q : Part} (h : q.fixed = p.fixed) : q.mo.pointer = p.mo.pointer :=
  congrArg (fun x : Fixed => x.mo.pointer) h
theorem Part.bulkTurn_of_fixed {p q : Part} (h : q.fixed = p.fixed) : q.mo.bulkTurn = p.mo.bulkTurn :=
  congrArg (fun x : Fixed => x.mo.bulkTurn) h
theorem Part.cp_of_fixed {p q : Part} (h : q.fixed = p.fixed) : q.mo.cp = p.mo.cp :=
  congrArg (fun x : Fixed => x.mo.cp) h
theorem Part.busy_of_fixed {p q : Part} (h : q.fixed = p.fixed) : q.mo.inFlight.isSome = p.mo.inFlight.isSome :=
  congrArg Fixed.busy h
theorem Part.access_of_fixed {p q : Part} (h : q.fixed = p.fixed) : q.ptp.access = p.ptp.access :=
  congrArg (fun x : Fixed => x.ptp.access) h
theorem Part.holdTimer_of_fixed {p q : Part} (h : q.fixed = p.fixed) : q.ptp.holdTimer = p.ptp.holdTimer :=
  congrArg (fun x : Fixed => x.ptp.holdTimer) h
theorem Part.answer_of_fixed {p q : Part} (h : q.fixed = p.fixed) : q.ptp.answer = p.ptp.answer :=
  congrArg (fun x : Fixed => x.ptp.answer) h
theorem Part.presented_of_fixed {p q : Part} (h : q.fixed = p.fixed) : q.ptp.presented = p.ptp.presented :=
  congrArg (fun x : Fixed => x.ptp.presented) h
theorem Part.summary_of_fixed {p q : Part} (h : q.fixed = p.fixed) : q.ae.summary = p.ae.summary :=
  congrArg (fun x : Fixed => x.ae.summary) h
theorem Part.error_of_fixed {p q : Part} (h : q.fixed = p.fixed) : q.ae.error = p.ae.error :=
  congrArg (fun x : Fixed => x.ae.error) h
theorem Part.readList_of_fixed {p q : Part} (h : q.fixed = p.fixed) : q.ae.readList = p.ae.readList :=
  congrArg (fun x : Fixed => x.ae.readList) h
theorem Part.quiet_of_fixed {p q : Part} (h : q.fixed = p.fixed) : q.ae.quiet = p.ae.quiet :=
  congrArg (fun x : Fixed => x.ae.quiet) h
theorem Part.portCounts_of_fixed {p q : Part} (h : q.fixed = p.fixed) : q.ae.portCounts = p.ae.portCounts :=
  congrArg (fun x : Fixed => x.ae.portCounts) h
theorem Part.deviceCount_of_fixed {p q : Part} (h : q.fixed = p.fixed) : q.ae.deviceCount = p.ae.deviceCount :=
  congrArg (fun x : Fixed => x.ae.deviceCount) h
theorem Part.lastCurrent_of_fixed {p q : Part} (h : q.fixed = p.fixed) : q.ae.lastCurrent = p.ae.lastCurrent :=
  congrArg (fun x : Fixed => x.ae.lastCurrent) h

/-! ### Reports and the fixed projection -/

@[simp] theorem queueWriteBack_fixed (t : Target) (p : Part) : (queueWriteBack t p).fixed = p.fixed := by
  unfold queueWriteBack
  split <;> rfl

@[simp] theorem reportPort_fixed (n : Port) (m : Bool) (p : Part) : (reportPort n m p).fixed = p.fixed := by
  unfold reportPort
  rw [queueWriteBack_fixed]
  cases m <;> rfl

@[simp] theorem reportDevice_fixed (m : Bool) (p : Part) : (reportDevice m p).fixed = p.fixed := by
  unfold reportDevice
  rw [queueWriteBack_fixed]
  cases m <;> rfl

@[simp] theorem setRequest_fixed (w : ReqWord) (r : Request) (p : Part) : (Part.setRequest w r p).fixed = p.fixed := by
  cases w <;> rfl

@[simp] theorem complete_fixed (w : ReqWord) (r : Result) (p : Part) : (complete w r p).fixed = p.fixed := by
  simp [complete]

end Sys2Proof.Machine
end

