-- ==== Sys2Proof/Laws/Moves.lean ====
section
/-! SUPPORT. What a change of a port record, of a lane, and of a port's state can change. -/

namespace Sys2Proof.Machine

@[simp] theorem setPort_fixed (n : Port) (r : PortRecord) (p : Part) : (p.setPort n r).fixed = p.fixed := rfl
@[simp] theorem setLane_fixed (n : Port) (l : Lane) (p : Part) : (p.setLane n l).fixed = p.fixed := rfl

@[simp] theorem setPort_aside {n m : Port} (h : n ≠ m) (r : PortRecord) (p : Part) : (p.setPort n r).aside m = p.aside m := by
  simp [Part.aside, h]

@[simp] theorem setLane_aside {n m : Port} (h : n ≠ m) (l : Lane) (p : Part) : (p.setLane n l).aside m = p.aside m := by
  simp [Part.aside, h]

/-! ### A change of a port record -/

theorem updPort_cases (n : Port) (f : PortRecord → PortRecord) (p : Part) :
    AeOnly (updPort n f p) (p.setPort n (f (p.port n))) := by
  unfold updPort
  split
  · exact AeOnly.reportPort _ _ _
  · exact AeOnly.refl _

@[simp] theorem updPort_ports (n : Port) (f : PortRecord → PortRecord) (p : Part) :
    (updPort n f p).ports = p.ports.put n (f (p.port n)) := (updPort_cases n f p).1
@[simp] theorem updPort_bu (n : Port) (f : PortRecord → PortRecord) (p : Part) : (updPort n f p).bu = p.bu :=
  (updPort_cases n f p).2.1
@[simp] theorem updPort_ms (n : Port) (f : PortRecord → PortRecord) (p : Part) : (updPort n f p).ms = p.ms :=
  (updPort_cases n f p).2.2.1
@[simp] theorem updPort_lanes (n : Port) (f : PortRecord → PortRecord) (p : Part) : (updPort n f p).lanes = p.lanes :=
  (updPort_cases n f p).2.2.2.1
@[simp] theorem updPort_mo (n : Port) (f : PortRecord → PortRecord) (p : Part) : (updPort n f p).mo = p.mo :=
  (updPort_cases n f p).2.2.2.2.1
@[simp] theorem updPort_ptp (n : Port) (f : PortRecord → PortRecord) (p : Part) : (updPort n f p).ptp = p.ptp :=
  (updPort_cases n f p).2.2.2.2.2.1
@[simp] theorem updPort_mrc (n : Port) (f : PortRecord → PortRecord) (p : Part) : (updPort n f p).mrc = p.mrc :=
  (updPort_cases n f p).2.2.2.2.2.2
@[simp] theorem updPort_lane (n m : Port) (f : PortRecord → PortRecord) (p : Part) :
    (updPort n f p).lane m = p.lane m := (updPort_cases n f p).lane m
@[simp] theorem updPort_port_self (n : Port) (f : PortRecord → PortRecord) (p : Part) :
    (updPort n f p).port n = f (p.port n) := by
  rw [(updPort_cases n f p).port n]; simp
@[simp] theorem updPort_port_ne {n m : Port} (h : n ≠ m) (f : PortRecord → PortRecord) (p : Part) :
    (updPort n f p).port m = p.port m := by
  rw [(updPort_cases n f p).port m]; simp [h]
@[simp] theorem updPort_fixed (n : Port) (f : PortRecord → PortRecord) (p : Part) : (updPort n f p).fixed = p.fixed := by
  unfold updPort
  split <;> simp
@[simp] theorem updPort_aside {n m : Port} (h : n ≠ m) (f : PortRecord → PortRecord) (p : Part) :
    (updPort n f p).aside m = p.aside m := by
  rw [(updPort_cases n f p).aside m]; exact setPort_aside h _ p

/-! ### A change of a grant -/

theorem setGrant_cases (n : Port) (g : Nat) (p : Part) :
    AeOnly (setGrant n g p) (p.setPort n { p.port n with grant := g }) := by
  unfold setGrant
  split
  · next h => rw [← h]; exact ⟨(PerPort.put_at p.ports n).symm, rfl, rfl, rfl, rfl, rfl, rfl⟩
  · exact (AeOnly.reportDevice _ _).trans (updPort_cases n _ p)

@[simp] theorem setGrant_port_self (n : Port) (g : Nat) (p : Part) :
    (setGrant n g p).port n = { p.port n with grant := g } := by
  rw [(setGrant_cases n g p).port n]; simp
@[simp] theorem setGrant_port_ne {n m : Port} (h : n ≠ m) (g : Nat) (p : Part) :
    (setGrant n g p).port m = p.port m := by
  rw [(setGrant_cases n g p).port m]; simp [h]
@[simp] theorem setGrant_bu (n : Port) (g : Nat) (p : Part) : (setGrant n g p).bu = p.bu := (setGrant_cases n g p).2.1
@[simp] theorem setGrant_ms (n : Port) (g : Nat) (p : Part) : (setGrant n g p).ms = p.ms := (setGrant_cases n g p).2.2.1
@[simp] theorem setGrant_lane (n m : Port) (g : Nat) (p : Part) : (setGrant n g p).lane m = p.lane m :=
  (setGrant_cases n g p).lane m
@[simp] theorem setGrant_mo (n : Port) (g : Nat) (p : Part) : (setGrant n g p).mo = p.mo :=
  (setGrant_cases n g p).2.2.2.2.1
@[simp] theorem setGrant_ptp (n : Port) (g : Nat) (p : Part) : (setGrant n g p).ptp = p.ptp :=
  (setGrant_cases n g p).2.2.2.2.2.1
@[simp] theorem setGrant_mrc (n : Port) (g : Nat) (p : Part) : (setGrant n g p).mrc = p.mrc :=
  (setGrant_cases n g p).2.2.2.2.2.2
@[simp] theorem setGrant_fixed (n : Port) (g : Nat) (p : Part) : (setGrant n g p).fixed = p.fixed := by
  unfold setGrant
  split <;> simp
@[simp] theorem setGrant_aside {n m : Port} (h : n ≠ m) (g : Nat) (p : Part) : (setGrant n g p).aside m = p.aside m := by
  rw [(setGrant_cases n g p).aside m]; exact setPort_aside h _ p

/-! ### A change of a lane -/

@[simp] theorem updLane_lane_self (n : Port) (f : Lane → Lane) (p : Part) : (updLane n f p).lane n = (f (p.lane n)).kick := by
  simp [updLane]
@[simp] theorem updLane_lane_ne {n m : Port} (h : n ≠ m) (f : Lane → Lane) (p : Part) :
    (updLane n f p).lane m = p.lane m := by
  simp [updLane, h]
@[simp] theorem updLane_ports (n : Port) (f : Lane → Lane) (p : Part) : (updLane n f p).ports = p.ports := rfl
@[simp] theorem updLane_port (n m : Port) (f : Lane → Lane) (p : Part) : (updLane n f p).port m = p.port m := rfl
@[simp] theorem updLane_bu (n : Port) (f : Lane → Lane) (p : Part) : (updLane n f p).bu = p.bu := rfl
@[simp] theorem updLane_ms (n : Port) (f : Lane → Lane) (p : Part) : (updLane n f p).ms = p.ms := rfl
@[simp] theorem updLane_mo (n : Port) (f : Lane → Lane) (p : Part) : (updLane n f p).mo = p.mo := rfl
@[simp] theorem updLane_ptp (n : Port) (f : Lane → Lane) (p : Part) : (updLane n f p).ptp = p.ptp := rfl
@[simp] theorem updLane_ae (n : Port) (f : Lane → Lane) (p : Part) : (updLane n f p).ae = p.ae := rfl
@[simp] theorem updLane_mrc (n : Port) (f : Lane → Lane) (p : Part) : (updLane n f p).mrc = p.mrc := rfl
@[simp] theorem updLane_fixed (n : Port) (f : Lane → Lane) (p : Part) : (updLane n f p).fixed = p.fixed := rfl
@[simp] theorem updLane_aside {n m : Port} (h : n ≠ m) (f : Lane → Lane) (p : Part) : (updLane n f p).aside m = p.aside m :=
  setLane_aside h _ p

/-- Beginning to send changes neither the mode, the tags, the re-open nor the timers of a lane. -/
theorem Lane.kick_keeps (l : Lane) :
    l.kick.mode = l.mode ∧ l.kick.tags = l.tags ∧ l.kick.reopen = l.reopen ∧ l.kick.receive = l.receive ∧
    l.kick.openDue = l.openDue ∧ l.kick.keepTimer = l.keepTimer ∧ l.kick.silenceTimer = l.silenceTimer := by
  unfold Lane.kick
  repeat' split
  all_goals simp

@[simp] theorem Lane.kick_mode (l : Lane) : l.kick.mode = l.mode := l.kick_keeps.1
@[simp] theorem Lane.kick_tags (l : Lane) : l.kick.tags = l.tags := l.kick_keeps.2.1
@[simp] theorem Lane.kick_reopen (l : Lane) : l.kick.reopen = l.reopen := l.kick_keeps.2.2.1
@[simp] theorem Lane.kick_openDue (l : Lane) : l.kick.openDue = l.openDue := l.kick_keeps.2.2.2.2.1
@[simp] theorem Lane.kick_keepTimer (l : Lane) : l.kick.keepTimer = l.keepTimer := l.kick_keeps.2.2.2.2.2.1
@[simp] theorem Lane.kick_silenceTimer (l : Lane) : l.kick.silenceTimer = l.silenceTimer := l.kick_keeps.2.2.2.2.2.2
@[simp] theorem Lane.kick_outstanding (l : Lane) : l.kick.outstanding = l.outstanding := by
  simp [Lane.outstanding]

/-! ### A lane following its port -/

@[simp] theorem handBackCue_fixed (n : Port) (p : Part) : (handBackCue n p).fixed = p.fixed := by
  unfold handBackCue
  split <;> simp
@[simp] theorem handBackCue_aside {n m : Port} (h : n ≠ m) (p : Part) : (handBackCue n p).aside m = p.aside m := by
  unfold handBackCue
  split
  · rfl
  · rw [updLane_aside h, updPort_aside h]

/-- A record whose pending cue may differ. -/
def SameButCue (r r' : PortRecord) : Prop := r' = { r with pendingCue := r'.pendingCue }

theorem handBackCue_port (n : Port) (p : Part) : SameButCue (p.port n) ((handBackCue n p).port n) := by
  unfold handBackCue
  split <;> simp [SameButCue]

theorem handBackCue_keeps (n : Port) (p : Part) :
    (handBackCue n p).bu = p.bu ∧ (handBackCue n p).ms = p.ms ∧ (handBackCue n p).mo = p.mo ∧
    (handBackCue n p).ptp = p.ptp ∧ (handBackCue n p).mrc = p.mrc := by
  unfold handBackCue
  split <;> simp

@[simp] theorem laneFollow_fixed (n : Port) (p : Part) : (laneFollow n p).fixed = p.fixed := by
  unfold laneFollow
  simp only [updLane_fixed]
  split <;> simp
@[simp] theorem laneFollow_aside {n m : Port} (h : n ≠ m) (p : Part) : (laneFollow n p).aside m = p.aside m := by
  unfold laneFollow
  rw [updLane_aside h]
  split
  · rfl
  · exact handBackCue_aside h p

theorem laneFollow_port (n : Port) (p : Part) : SameButCue (p.port n) ((laneFollow n p).port n) := by
  unfold laneFollow
  rw [updLane_port]
  split
  · rfl
  · exact handBackCue_port n p

theorem laneFollow_keeps (n : Port) (p : Part) :
    (laneFollow n p).bu = p.bu ∧ (laneFollow n p).ms = p.ms ∧ (laneFollow n p).mo = p.mo ∧
    (laneFollow n p).ptp = p.ptp ∧ (laneFollow n p).mrc = p.mrc := by
  unfold laneFollow
  simp only [updLane_bu, updLane_ms, updLane_mo, updLane_ptp, updLane_mrc]
  split
  · simp
  · exact handBackCue_keeps n p

@[simp] theorem laneFollow_bu (n : Port) (p : Part) : (laneFollow n p).bu = p.bu := (laneFollow_keeps n p).1
@[simp] theorem laneFollow_ms (n : Port) (p : Part) : (laneFollow n p).ms = p.ms := (laneFollow_keeps n p).2.1
@[simp] theorem laneFollow_mo (n : Port) (p : Part) : (laneFollow n p).mo = p.mo := (laneFollow_keeps n p).2.2.1
@[simp] theorem laneFollow_ptp (n : Port) (p : Part) : (laneFollow n p).ptp = p.ptp := (laneFollow_keeps n p).2.2.2.1
@[simp] theorem laneFollow_mrc (n : Port) (p : Part) : (laneFollow n p).mrc = p.mrc := (laneFollow_keeps n p).2.2.2.2
theorem laneFollow_port_ne {n m : Port} (h : n ≠ m) (p : Part) : (laneFollow n p).port m = p.port m := by
  unfold laneFollow handBackCue
  simp only [updLane_port]
  repeat' split
  all_goals simp [h]

/-! ### A switch opening, an entry leaving the queue -/

@[simp] theorem cancelAccesses_fixed (n : Port) (p : Part) : (cancelAccesses n p).fixed = p.fixed := by
  unfold cancelAccesses
  simp only [Part.fixed, Part.mapMo_mo, Part.mapMo_bu, Part.mapMo_ms, Part.mapMo_ptp, Part.mapMo_ae, Part.mapMo_mrc]
  congr 1
  split <;> simp_all
@[simp] theorem cancelAccesses_aside (n m : Port) (p : Part) : (cancelAccesses n p).aside m = p.aside m := rfl

@[simp] theorem clearCounts_fixed (n : Port) (p : Part) : (clearCounts n p).fixed = p.fixed := rfl
@[simp] theorem clearCounts_aside (n m : Port) (p : Part) : (clearCounts n p).aside m = p.aside m := rfl

@[simp] theorem switchOpened_fixed (n : Port) (p : Part) : (switchOpened n p).fixed = p.fixed := by
  unfold switchOpened
  dsimp only
  split
  · exact (clearCounts_fixed n _).trans (cancelAccesses_fixed n p)
  · rw [reportDevice_fixed]; exact (clearCounts_fixed n _).trans (cancelAccesses_fixed n p)
@[simp] theorem switchOpened_aside (n m : Port) (p : Part) : (switchOpened n p).aside m = p.aside m := by
  unfold switchOpened
  dsimp only
  split
  · rfl
  · rw [reportDevice_aside]; rfl
@[simp] theorem switchOpened_port (n m : Port) (p : Part) : (switchOpened n p).port m = p.port m := by
  unfold switchOpened
  dsimp only
  split
  · rfl
  · rw [reportDevice_port]; rfl
@[simp] theorem switchOpened_lane (n m : Port) (p : Part) : (switchOpened n p).lane m = p.lane m := by
  unfold switchOpened
  dsimp only
  split
  · rfl
  · rw [reportDevice_lane]; rfl
theorem switchOpened_bu (n : Port) (p : Part) :
    (switchOpened n p).bu = { p.bu with shedList := p.bu.shedList.filter (· != n) } := by
  unfold switchOpened
  dsimp only
  split
  · rfl
  · rw [reportDevice_bu]; rfl
@[simp] theorem switchOpened_queue (n : Port) (p : Part) : (switchOpened n p).bu.queue = p.bu.queue := by
  rw [switchOpened_bu]
@[simp] theorem switchOpened_mrc (n : Port) (p : Part) : (switchOpened n p).mrc = p.mrc :=
  Part.mrc_of_fixed (switchOpened_fixed n p)

@[simp] theorem setFlags_fixed (n : Port) (f : Flags → Flags) (p : Part) : (setFlags n f p).fixed = p.fixed :=
  updPort_fixed _ _ _
@[simp] theorem setFlags_aside {n m : Port} (h : n ≠ m) (f : Flags → Flags) (p : Part) : (setFlags n f p).aside m = p.aside m :=
  updPort_aside h _ _
@[simp] theorem setFlags_port_self (n : Port) (f : Flags → Flags) (p : Part) :
    (setFlags n f p).port n = { p.port n with flags := f (p.port n).flags } := updPort_port_self _ _ _
@[simp] theorem setFlags_port_ne {n m : Port} (h : n ≠ m) (f : Flags → Flags) (p : Part) :
    (setFlags n f p).port m = p.port m := updPort_port_ne h _ _
@[simp] theorem setFlags_lane (n m : Port) (f : Flags → Flags) (p : Part) : (setFlags n f p).lane m = p.lane m :=
  updPort_lane _ _ _ _
@[simp] theorem setFlags_bu (n : Port) (f : Flags → Flags) (p : Part) : (setFlags n f p).bu = p.bu := updPort_bu _ _ _
@[simp] theorem setFlags_ms (n : Port) (f : Flags → Flags) (p : Part) : (setFlags n f p).ms = p.ms := updPort_ms _ _ _
@[simp] theorem setFlags_mo (n : Port) (f : Flags → Flags) (p : Part) : (setFlags n f p).mo = p.mo := updPort_mo _ _ _
@[simp] theorem setFlags_ptp (n : Port) (f : Flags → Flags) (p : Part) : (setFlags n f p).ptp = p.ptp := updPort_ptp _ _ _
@[simp] theorem setFlags_mrc (n : Port) (f : Flags → Flags) (p : Part) : (setFlags n f p).mrc = p.mrc := updPort_mrc _ _ _

@[simp] theorem setTimers_fixed (n : Port) (f : PortTimers → PortTimers) (p : Part) : (setTimers n f p).fixed = p.fixed :=
  updPort_fixed _ _ _
@[simp] theorem setTimers_aside {n m : Port} (h : n ≠ m) (f : PortTimers → PortTimers) (p : Part) :
    (setTimers n f p).aside m = p.aside m := updPort_aside h _ _
@[simp] theorem setTimers_port_self (n : Port) (f : PortTimers → PortTimers) (p : Part) :
    (setTimers n f p).port n = { p.port n with timers := f (p.port n).timers } := updPort_port_self _ _ _
@[simp] theorem setTimers_port_ne {n m : Port} (h : n ≠ m) (f : PortTimers → PortTimers) (p : Part) :
    (setTimers n f p).port m = p.port m := updPort_port_ne h _ _
@[simp] theorem setTimers_lane (n m : Port) (f : PortTimers → PortTimers) (p : Part) :
    (setTimers n f p).lane m = p.lane m := updPort_lane _ _ _ _
@[simp] theorem setTimers_bu (n : Port) (f : PortTimers → PortTimers) (p : Part) : (setTimers n f p).bu = p.bu :=
  updPort_bu _ _ _
@[simp] theorem setTimers_ms (n : Port) (f : PortTimers → PortTimers) (p : Part) : (setTimers n f p).ms = p.ms :=
  updPort_ms _ _ _
@[simp] theorem setTimers_mo (n : Port) (f : PortTimers → PortTimers) (p : Part) : (setTimers n f p).mo = p.mo :=
  updPort_mo _ _ _
@[simp] theorem setTimers_ptp (n : Port) (f : PortTimers → PortTimers) (p : Part) : (setTimers n f p).ptp = p.ptp :=
  updPort_ptp _ _ _
@[simp] theorem setTimers_mrc (n : Port) (f : PortTimers → PortTimers) (p : Part) : (setTimers n f p).mrc = p.mrc :=
  updPort_mrc _ _ _

theorem filter_ne_other {n m : Port} (h : n ≠ m) (q : List Entry) :
    (q.filter (fun e => e.port != n)).filter (fun e => e.port == m) = q.filter (fun e => e.port == m) := by
  rw [List.filter_filter]
  apply List.filter_congr
  intro e _
  by_cases g : e.port = m
  · subst g; simp [Ne.symm h]
  · simp [g]

@[simp] theorem dropEntry_fixed (n : Port) (p : Part) : (dropEntry n p).fixed = p.fixed := by
  unfold dropEntry
  split
  · rw [setFlags_fixed]; rfl
  · rfl
@[simp] theorem dropEntry_aside {n m : Port} (h : n ≠ m) (p : Part) : (dropEntry n p).aside m = p.aside m := by
  unfold dropEntry
  split
  · rw [setFlags_aside h]
    simp only [Part.aside, Part.mapBu_port, Part.mapBu_lane, Part.mapBu_bu, filter_ne_other h]
  · rfl
theorem dropEntry_bu (n : Port) (p : Part) :
    (dropEntry n p).bu = { p.bu with queue := p.bu.queue.filter (fun e => e.port != n) } := by
  unfold dropEntry
  split
  · rw [setFlags_bu]; rfl
  · next h =>
    have : p.bu.queue.filter (fun e => e.port != n) = p.bu.queue := by
      apply List.filter_eq_self.mpr
      intro e he
      simp only [List.any_eq_true, not_exists, not_and] at h
      have := h e he
      simpa using this
    rw [this]
@[simp] theorem dropEntry_lane (n m : Port) (p : Part) : (dropEntry n p).lane m = p.lane m := by
  unfold dropEntry
  split
  · rw [setFlags_lane]; rfl
  · rfl
@[simp] theorem dropEntry_port_ne {n m : Port} (h : n ≠ m) (p : Part) : (dropEntry n p).port m = p.port m := by
  unfold dropEntry
  split
  · rw [setFlags_port_ne h]; rfl
  · rfl
@[simp] theorem dropEntry_mrc (n : Port) (p : Part) : (dropEntry n p).mrc = p.mrc :=
  Part.mrc_of_fixed (dropEntry_fixed n p)
@[simp] theorem dropEntry_mo (n : Port) (p : Part) : (dropEntry n p).mo = p.mo := by
  unfold dropEntry
  split
  · rw [setFlags_mo]; rfl
  · rfl
@[simp] theorem dropEntry_ms (n : Port) (p : Part) : (dropEntry n p).ms = p.ms := by
  unfold dropEntry
  split
  · rw [setFlags_ms]; rfl
  · rfl
@[simp] theorem dropEntry_ptp (n : Port) (p : Part) : (dropEntry n p).ptp = p.ptp := by
  unfold dropEntry
  split
  · rw [setFlags_ptp]; rfl
  · rfl
/-- The port's record with SHORT and UNWATCHED cleared, if it held an entry. -/
theorem dropEntry_port_self (n : Port) (p : Part) :
    ∃ f : Flags, (dropEntry n p).port n = { p.port n with flags := f } ∧ f.ask = (p.port n).flags.ask ∧
      f.left = (p.port n).flags.left ∧ f.noPhase = (p.port n).flags.noPhase ∧ f.kept = (p.port n).flags.kept ∧
      f.rehello = (p.port n).flags.rehello := by
  unfold dropEntry
  split
  · exact ⟨_, setFlags_port_self _ _ _, rfl, rfl, rfl, rfl, rfl⟩
  · exact ⟨(p.port n).flags, rfl, rfl, rfl, rfl, rfl, rfl⟩

/-! ### A port changes state -/

@[simp] theorem moveTo_fixed (n : Port) (st : PortState) (p : Part) : (moveTo n st p).fixed = p.fixed := by
  unfold moveTo
  simp only [updLane_fixed, laneFollow_fixed, updPort_fixed, dropEntry_fixed]
  split <;> simp
@[simp] theorem moveTo_aside {n m : Port} (h : n ≠ m) (st : PortState) (p : Part) : (moveTo n st p).aside m = p.aside m := by
  unfold moveTo
  rw [updLane_aside h, laneFollow_aside h, updPort_aside h, dropEntry_aside h]
  split <;> simp
@[simp] theorem moveTo_port_ne {n m : Port} (h : n ≠ m) (st : PortState) (p : Part) :
    (moveTo n st p).port m = p.port m := by
  unfold moveTo
  dsimp only
  rw [updLane_port, laneFollow_port_ne h, updPort_port_ne h, dropEntry_port_ne h]
  split <;> simp
theorem moveTo_bu (n : Port) (st : PortState) (p : Part) :
    (moveTo n st p).bu = { p.bu with
      queue := p.bu.queue.filter (fun e => e.port != n)
      shedList := if (p.port n).state.closed && !st.closed then p.bu.shedList.filter (· != n) else p.bu.shedList } := by
  unfold moveTo
  dsimp only
  rw [updLane_bu, laneFollow_bu, updPort_bu, dropEntry_bu]
  split <;> simp_all [switchOpened_bu]
@[simp] theorem moveTo_mrc (n : Port) (st : PortState) (p : Part) : (moveTo n st p).mrc = p.mrc :=
  Part.mrc_of_fixed (moveTo_fixed n st p)
@[simp] theorem moveTo_queue (n : Port) (st : PortState) (p : Part) :
    (moveTo n st p).bu.queue = p.bu.queue.filter (fun e => e.port != n) := by rw [moveTo_bu]

/-- What a port's record keeps and takes when it enters a state: all but the flags SHORT and UNWATCHED and the pending
cue is said exactly. -/
structure Entered (st : PortState) (r r' : PortRecord) : Prop where
  state : r'.state = st
  plan : r'.plan = r.plan
  grant : r'.grant = if st.closed then r.grant else 0
  stamp : r'.stamp = r.stamp
  restartCount : r'.restartCount = r.restartCount
  onTime : r'.onTime = r.onTime
  drain : r'.drain = if st = .drain then r.drain else none
  identity : r'.identity = r.identity
  cause : r'.cause = r.cause
  ask : r'.flags.ask = r.flags.ask
  noPhase : r'.flags.noPhase = false
  left : r'.flags.left = r.flags.left
  kept : r'.flags.kept = false
  rehello : r'.flags.rehello = false
  trips : r'.trips = r.trips
  checkErrors : r'.checkErrors = r.checkErrors
  overruns : r'.overruns = r.overruns
  deferred : r'.deferred = r.deferred
  adopted : r'.adopted = false
  timers : r'.timers = stoppedTimers

theorem entered_enter (st : PortState) (r : PortRecord) (f : Flags) (c : Option Word) (ask : f.ask = r.flags.ask)
    (left : f.left = r.flags.left) :
    Entered st r { PortRecord.enter st { r with flags := f } with pendingCue := c } :=
  ⟨rfl, rfl, rfl, rfl, rfl, rfl, rfl, rfl, rfl, ask, rfl, left, rfl, rfl, rfl, rfl, rfl, rfl, rfl, rfl⟩

theorem moveTo_port_self (n : Port) (st : PortState) (p : Part) :
    Entered st (p.port n) ((moveTo n st p).port n) := by
  have key : ∀ q : Part, q.port n = p.port n →
      Entered st (p.port n) ((laneFollow n (updPort n (PortRecord.enter st) (dropEntry n q))).port n) := by
    intro q hport
    obtain ⟨f, hf, h1, h2, -⟩ := dropEntry_port_self n q
    have hc := laneFollow_port n (updPort n (PortRecord.enter st) (dropEntry n q))
    rw [updPort_port_self, hf, hport] at hc
    rw [hport] at h1 h2
    rw [SameButCue] at hc
    rw [hc]
    exact entered_enter st _ f _ h1 h2
  by_cases h : ((p.port n).state.closed && !st.closed) = true
  · have e : moveTo n st p = updLane n (·.enterTimers st)
        (laneFollow n (updPort n (PortRecord.enter st) (dropEntry n (switchOpened n p)))) := by
      unfold moveTo; rw [if_pos h]
    rw [e, updLane_port]
    exact key _ (switchOpened_port n n p)
  · have e : moveTo n st p = updLane n (·.enterTimers st)
        (laneFollow n (updPort n (PortRecord.enter st) (dropEntry n p))) := by
      unfold moveTo; rw [if_neg h]
    rw [e, updLane_port]
    exact key _ rfl

end Sys2Proof.Machine
end

