-- ==== Sys2Proof/Laws/Budget.lean ====
section
/-! SUPPORT. What the queue, the grants, the shed orders and the budget's tests can change. -/

namespace Sys2Proof.Machine

/-! ### A port sent on -/

@[simp] theorem mapBu_queue_fixed (f : List Entry → List Entry) (p : Part) :
    (p.mapBu (fun b => { b with queue := f b.queue })).fixed = p.fixed := rfl

theorem joinQueue_eq (n : Port) (kind : EntryKind) (p : Part) :
    ∃ q : Part, (q = p ∨ q = updPort n PortRecord.refreshAsk p) ∧
      joinQueue n kind p = q.mapBu (fun b => { b with queue := b.queue ++ [newEntry n kind (q.port n)] }) := by
  cases kind
  · exact ⟨p, Or.inl rfl, rfl⟩
  · exact ⟨updPort n PortRecord.refreshAsk p, Or.inr rfl, rfl⟩

@[simp] theorem joinQueue_fixed (n : Port) (kind : EntryKind) (p : Part) : (joinQueue n kind p).fixed = p.fixed := by
  obtain ⟨q, hq, e⟩ := joinQueue_eq n kind p
  rw [e]
  rcases hq with rfl | rfl
  · rfl
  · exact updPort_fixed _ _ _

@[simp] theorem joinQueue_aside {n m : Port} (h : n ≠ m) (kind : EntryKind) (p : Part) :
    (joinQueue n kind p).aside m = p.aside m := by
  obtain ⟨q, hq, e⟩ := joinQueue_eq n kind p
  rw [e]
  have hm : (newEntry n kind (q.port n)).port ≠ m := h
  have : (q.mapBu (fun b => { b with queue := b.queue ++ [newEntry n kind (q.port n)] })).aside m = q.aside m := by
    simp [Part.aside, List.filter_append, hm]
  rw [this]
  rcases hq with rfl | rfl
  · rfl
  · exact updPort_aside h _ _

@[simp] theorem toQueued_fixed (n : Port) (p : Part) : (toQueued n p).fixed = p.fixed := by
  unfold toQueued
  repeat' split
  all_goals simp

@[simp] theorem toQueued_aside {n m : Port} (h : n ≠ m) (p : Part) : (toQueued n p).aside m = p.aside m := by
  unfold toQueued
  dsimp only
  repeat' split
  · exact moveTo_aside h _ _
  · exact moveTo_aside h _ _
  · rw [joinQueue_aside h, moveTo_aside h]

@[simp] theorem toRestartWait_fixed (n : Port) (p : Part) : (toRestartWait n p).fixed = p.fixed := by
  unfold toRestartWait
  split <;> simp

@[simp] theorem toRestartWait_aside {n m : Port} (h : n ≠ m) (p : Part) : (toRestartWait n p).aside m = p.aside m := by
  unfold toRestartWait
  split
  · exact moveTo_aside h _ _
  · rw [setTimers_aside h, moveTo_aside h]

@[simp] theorem toParked_fixed (n : Port) (p : Part) : (toParked n p).fixed = p.fixed := by
  unfold toParked
  split <;> simp

@[simp] theorem toParked_aside {n m : Port} (h : n ≠ m) (p : Part) : (toParked n p).aside m = p.aside m := by
  unfold toParked
  split <;> exact moveTo_aside h _ _

/-! ### Shed orders and preemption -/

/-- The shed orders sent change the shed list and the orders on their way, nothing else. -/
def ShedsOnly (q p : Part) : Prop :=
  ∃ shedList orders : List Port, q = p.mapBu (fun b => { b with shedList := shedList, orders := orders })

theorem ShedsOnly.refl (p : Part) : ShedsOnly p p := ⟨p.bu.shedList, p.bu.orders, rfl⟩

theorem ShedsOnly.fixed {p q : Part} (h : ShedsOnly q p) : q.fixed = p.fixed := by
  obtain ⟨a, b, rfl⟩ := h; rfl

theorem ShedsOnly.aside {p q : Part} (h : ShedsOnly q p) (n : Port) : q.aside n = p.aside n := by
  obtain ⟨a, b, rfl⟩ := h; rfl

theorem ShedsOnly.port {p q : Part} (h : ShedsOnly q p) (n : Port) : q.port n = p.port n := by
  obtain ⟨a, b, rfl⟩ := h; rfl

theorem shedUntil_only (need : Nat) (l : List Port) (p : Part) : ShedsOnly (shedUntil need l p) p := by
  induction l generalizing p with
  | nil => exact ShedsOnly.refl p
  | cons n rest ih =>
    unfold shedUntil
    split
    · exact ShedsOnly.refl p
    · obtain ⟨a, b, e⟩ := ih (sendShedOrder n p)
      exact ⟨a, b, e⟩

theorem shedStep_only (p : Part) : ShedsOnly (shedStep p) p := shedUntil_only _ _ _

theorem preempt_cases (e : Entry) (p : Part) :
    ShedsOnly (preempt e p) p ∨ preempt e p = setFlags e.port (fun f => { f with short := true }) p := by
  unfold preempt
  dsimp only
  repeat' split
  · exact Or.inl (ShedsOnly.refl p)
  · exact Or.inl (shedUntil_only _ _ _)
  · exact Or.inr rfl

@[simp] theorem preempt_fixed (e : Entry) (p : Part) : (preempt e p).fixed = p.fixed := by
  rcases preempt_cases e p with h | h
  · exact h.fixed
  · rw [h]; simp

@[simp] theorem preempt_aside {e : Entry} {m : Port} (h : e.port ≠ m) (p : Part) : (preempt e p).aside m = p.aside m := by
  rcases preempt_cases e p with g | g
  · exact g.aside m
  · rw [g]; exact setFlags_aside h _ _

/-! ### Stamps -/

theorem steady_of_stamp (r : PortRecord) (k : Nat) (h : r.state.closed = true) :
    ({ r with stamp := k } : PortRecord).steady = r.steady := by
  simp [PortRecord.steady, h]

/-- A new stamp of a closed port is no change of `aside`. -/
theorem stamp_aside {n : Port} (k : Nat) (p : Part) (h : (p.port n).state.closed = true) (m : Port) :
    (updPort n (fun r => { r with stamp := k }) p).aside m = p.aside m := by
  by_cases e : n = m
  · subst e
    simp only [Part.aside, updPort_port_self, updPort_lane, updPort_bu, steady_of_stamp _ _ h]
  · exact updPort_aside e _ _

@[simp] theorem stampFrom_fixed (k : Nat) (l : List Port) (p : Part) : (stampFrom k l p).fixed = p.fixed := by
  induction l generalizing k p with
  | nil => rfl
  | cons n rest ih => simp [stampFrom, ih]

theorem stampFrom_aside (k : Nat) (l : List Port) (p : Part) (h : ∀ n ∈ l, (p.port n).state.closed = true) (m : Port) :
    (stampFrom k l p).aside m = p.aside m := by
  induction l generalizing k p with
  | nil => rfl
  | cons n rest ih =>
    unfold stampFrom
    rw [ih, stamp_aside _ _ (h n (by simp))]
    intro x hx
    by_cases e : n = x
    · subst e; simpa using h n (by simp)
    · rw [updPort_port_ne e]; exact h x (by simp [hx])

theorem mem_insertBy {α : Type} (before : α → α → Bool) (x y : α) (l : List α) :
    y ∈ insertBy before x l ↔ y = x ∨ y ∈ l := by
  induction l with
  | nil => simp [insertBy]
  | cons z rest ih =>
    unfold insertBy
    split
    · simp
    · simp [ih]; tauto

theorem mem_sortBy {α : Type} (before : α → α → Bool) (y : α) (l : List α) : y ∈ sortBy before l ↔ y ∈ l := by
  induction l with
  | nil => simp [sortBy]
  | cons z rest ih => simp [sortBy, mem_insertBy, ih]

theorem mem_closedByStamp (p : Part) (n : Port) : n ∈ closedByStamp p ↔ (p.port n).state.closed = true := by
  simp [closedByStamp, mem_sortBy, mem_allPorts]

@[simp] theorem renumber_fixed (p : Part) : (renumber p).fixed = p.fixed := stampFrom_fixed 1 _ p

@[simp] theorem renumber_aside (p : Part) (m : Port) : (renumber p).aside m = p.aside m :=
  stampFrom_aside 1 _ p (fun n h => (mem_closedByStamp p n).mp h) m

@[simp] theorem giveStamp_fixed (n : Port) (p : Part) : (giveStamp n p).fixed = p.fixed := by
  unfold giveStamp
  simp only [updPort_fixed]
  split
  · exact renumber_fixed p
  · rfl

@[simp] theorem giveStamp_aside {n m : Port} (h : n ≠ m) (p : Part) : (giveStamp n p).aside m = p.aside m := by
  unfold giveStamp
  rw [updPort_aside h]
  split
  · exact renumber_aside p m
  · rfl

/-! ### Grants and grant decisions -/

@[simp] theorem grantPort_fixed (e : Entry) (p : Part) : (grantPort e p).fixed = p.fixed := by
  unfold grantPort
  split <;> simp

@[simp] theorem grantPort_aside {e : Entry} {m : Port} (h : e.port ≠ m) (p : Part) : (grantPort e p).aside m = p.aside m := by
  unfold grantPort
  split
  · rw [setTimers_aside h, setGrant_aside h, moveTo_aside h]
  · rw [clearCounts_aside, setTimers_aside h, setGrant_aside h, moveTo_aside h]

@[simp] theorem grant_fixed (e : Entry) (p : Part) : (grant e p).fixed = p.fixed := by simp [grant]

@[simp] theorem grant_aside {e : Entry} {m : Port} (h : e.port ≠ m) (p : Part) : (grant e p).aside m = p.aside m := by
  rw [grant, grantPort_aside h, giveStamp_aside h, dropEntry_aside h]

@[simp] theorem walk_fixed (l : List Entry) (p : Part) : (walk l p).fixed = p.fixed := by
  induction l generalizing p with
  | nil => rfl
  | cons e rest ih =>
    unfold walk
    repeat' split
    all_goals simp [ih]

theorem walk_aside (l : List Entry) (p : Part) (m : Port) (h : ∀ e ∈ l, e.port ≠ m) :
    (walk l p).aside m = p.aside m := by
  induction l generalizing p with
  | nil => rfl
  | cons e rest ih =>
    have he := h e (by simp)
    have hr : ∀ x ∈ rest, x.port ≠ m := fun x hx => h x (by simp [hx])
    unfold walk
    repeat' split
    · exact ih _ hr
    · rw [ih _ hr, grant_aside he]
    · exact preempt_aside he p
    · rfl

@[simp] theorem markCoverage_fixed (l : List Entry) (p : Part) : (markCoverage l p).fixed = p.fixed := by
  induction l generalizing p with
  | nil => rfl
  | cons e rest ih => simp [markCoverage, ih]

theorem markCoverage_aside (l : List Entry) (p : Part) (m : Port) (h : ∀ e ∈ l, e.port ≠ m) :
    (markCoverage l p).aside m = p.aside m := by
  induction l generalizing p with
  | nil => rfl
  | cons e rest ih =>
    unfold markCoverage
    rw [ih _ (fun x hx => h x (by simp [hx])), setFlags_aside (h e (by simp))]

@[simp] theorem markCoverage_bu (l : List Entry) (p : Part) : (markCoverage l p).bu = p.bu := by
  induction l generalizing p with
  | nil => rfl
  | cons e rest ih => simp [markCoverage, ih]

theorem mem_queueOrder (queue : List Entry) (e : Entry) : e ∈ queueOrder queue ↔ e ∈ queue := by
  have h : ∀ k : Fin 8, k.1 ∈ [7, 6, 5, 4, 3, 2, 1, 0] := by decide
  simp only [queueOrder, List.mem_flatMap, List.mem_filter, beq_iff_eq]
  constructor
  · rintro ⟨k, -, he, -⟩; exact he
  · intro he; exact ⟨e.priority.1, h e.priority, he, rfl⟩

@[simp] theorem grantDecision_fixed (p : Part) : (grantDecision p).fixed = p.fixed := by
  unfold grantDecision
  dsimp only
  split <;> simp

theorem noEntry_iff (n : Port) (p : Part) : noEntry n p ↔ (p.aside n).entries = [] := by
  simp [noEntry, Part.aside, List.filter_eq_nil_iff]

theorem noEntry_of_aside {n : Port} {p q : Part} (h : q.aside n = p.aside n) (g : noEntry n p) : noEntry n q := by
  rw [noEntry_iff, h, ← noEntry_iff]; exact g

theorem grantDecision_aside {m : Port} (p : Part) (h : noEntry m p) : (grantDecision p).aside m = p.aside m := by
  have h' : ∀ e ∈ queueOrder p.bu.queue, e.port ≠ m := fun e he => h e ((mem_queueOrder _ e).mp he)
  unfold grantDecision
  dsimp only
  split
  · exact markCoverage_aside _ _ _ h'
  · rw [walk_aside, markCoverage_aside _ _ _ h']
    rw [markCoverage_bu]; exact h'

/-! ### The budget's tests -/

theorem mapBu_aside {f : Budget → Budget} {p : Part} (h : (f p.bu).queue = p.bu.queue) (n : Port) :
    (p.mapBu f).aside n = p.aside n := by
  simp only [Part.aside, Part.mapBu_port, Part.mapBu_lane, Part.mapBu_bu, h]

theorem mapBu_fixed {f : Budget → Budget} {p : Part} (h : (f p.bu).plan = p.bu.plan) : (p.mapBu f).fixed = p.fixed := by
  simp only [Part.fixed, Part.mapBu_bu, h]
  rfl

theorem budgetTest_keeps (p : Part) : (budgetTest p).fixed = p.fixed ∧ (∀ n, (budgetTest p).aside n = p.aside n) ∧
    (∀ n, (budgetTest p).port n = p.port n) := by
  unfold budgetTest
  split
  · exact ⟨rfl, fun _ => rfl, fun _ => rfl⟩
  · refine ⟨?_, fun n => ?_, fun n => ?_⟩
    · rw [reportDevice_fixed, mapBu_fixed rfl]
    · rw [reportDevice_aside, mapBu_aside rfl]
    · rw [reportDevice_port, Part.mapBu_port]

theorem shortfallTest_keeps (p : Part) : (shortfallTest p).fixed = p.fixed ∧ (∀ n, (shortfallTest p).aside n = p.aside n) ∧
    (∀ n, (shortfallTest p).port n = p.port n) := by
  unfold shortfallTest
  split
  · exact ⟨rfl, fun _ => rfl, fun _ => rfl⟩
  · refine ⟨?_, fun n => ?_, fun n => ?_⟩
    · rw [reportDevice_fixed, mapBu_fixed rfl]
    · rw [reportDevice_aside, mapBu_aside rfl]
    · rw [reportDevice_port, Part.mapBu_port]

/-- The part before the grant decision of `budgetAfter`: the budget state tested and the shed step made. -/
def beforeDecision (p : Part) : Part := if (budgetTest p).bu.isOver then shedStep (budgetTest p) else budgetTest p

theorem beforeDecision_keeps (p : Part) : (beforeDecision p).fixed = p.fixed ∧
    (∀ n, (beforeDecision p).aside n = p.aside n) ∧ (∀ n, (beforeDecision p).port n = p.port n) := by
  unfold beforeDecision
  have h := budgetTest_keeps p
  split
  · have g := shedStep_only (budgetTest p)
    exact ⟨g.fixed.trans h.1, fun n => (g.aside n).trans (h.2.1 n), fun n => (g.port n).trans (h.2.2 n)⟩
  · exact h

theorem budgetAfter_eq (trigger : Bool) (p : Part) :
    budgetAfter trigger p = shortfallTest (beforeDecision p) ∨
    budgetAfter trigger p = shortfallTest (grantDecision (beforeDecision p)) := by
  have e : budgetAfter trigger p = shortfallTest
      (if trigger || (p.bu.isOver && !(beforeDecision p).bu.isOver) then grantDecision (beforeDecision p)
        else beforeDecision p) := rfl
  rw [e]
  split
  · exact Or.inr rfl
  · exact Or.inl rfl

@[simp] theorem budgetAfter_fixed (trigger : Bool) (p : Part) : (budgetAfter trigger p).fixed = p.fixed := by
  rcases budgetAfter_eq trigger p with h | h <;> rw [h, (shortfallTest_keeps _).1]
  · exact (beforeDecision_keeps p).1
  · rw [grantDecision_fixed]; exact (beforeDecision_keeps p).1

/-- The budget unit's work after an event leaves alone every port that holds no entry. -/
theorem budgetAfter_aside {m : Port} (trigger : Bool) (p : Part) (h : noEntry m p) :
    (budgetAfter trigger p).aside m = p.aside m := by
  have b := (beforeDecision_keeps p).2.1 m
  rcases budgetAfter_eq trigger p with g | g <;> rw [g, (shortfallTest_keeps _).2.1]
  · exact b
  · rw [grantDecision_aside _ (noEntry_of_aside b h), b]

theorem event_fixed {f : Part → Part} (p : Part) (h : (f p).fixed = p.fixed) : (event f p).fixed = p.fixed := by
  rw [event, budgetAfter_fixed, h]

theorem event_aside {m : Port} {f : Part → Part} (p : Part) (h : noEntry m (f p)) :
    (event f p).aside m = (f p).aside m := by
  rw [event, budgetAfter_aside _ _ h]

end Sys2Proof.Machine
end

