-- ==== Sys2Proof/Laws/PortFrames.lean ====
section
/-! SUPPORT. What the port manager's operations can change: none changes `fixed`, and those of one port leave the other
ports `aside`. -/

namespace Sys2Proof.Machine

@[simp] theorem mapPtp_windows_fixed (f : PerPort Window → PerPort Window) (p : Part) :
    (p.mapPtp (fun t => { t with windows := f t.windows })).fixed = p.fixed := rfl

@[simp] theorem mapPtp_aside (f : PassThrough → PassThrough) (p : Part) (n : Port) : (p.mapPtp f).aside n = p.aside n := rfl
@[simp] theorem mapMo_aside (f : Orderer → Orderer) (p : Part) (n : Port) : (p.mapMo f).aside n = p.aside n := rfl
@[simp] theorem mapMs_aside (f : Sequencer → Sequencer) (p : Part) (n : Port) : (p.mapMs f).aside n = p.aside n := rfl
@[simp] theorem mapAe_aside (f : AreaEngine → AreaEngine) (p : Part) (n : Port) : (p.mapAe f).aside n = p.aside n := rfl
@[simp] theorem mapMrc_aside (f : ModeReset → ModeReset) (p : Part) (n : Port) : (p.mapMrc f).aside n = p.aside n := rfl

/-- Entries of one port changed in place, still of that port: the other ports' entries stay. -/
theorem mapEntries_aside {n m : Port} (h : n ≠ m) (f : Entry → Entry) (hf : ∀ e, e.port = n → (f e).port = n) (p : Part) :
    (p.mapBu (fun b => { b with queue := b.queue.map (fun e => if e.port = n then f e else e) })).aside m = p.aside m := by
  simp only [Part.aside, Part.mapBu_port, Part.mapBu_lane, Part.mapBu_bu, Aside.mk.injEq, true_and]
  induction p.bu.queue with
  | nil => rfl
  | cons e rest ih =>
    simp only [List.map_cons, List.filter_cons, ih]
    by_cases g : e.port = n
    · have : ¬ n = m := h
      simp [g, hf e g, this]
    · simp [g]

@[simp] theorem handOver_fixed (n : Port) (p : Part) : (handOver n p).fixed = p.fixed := rfl

@[simp] theorem handOver_aside (n m : Port) (p : Part) : (handOver n p).aside m = p.aside m := rfl

@[simp] theorem endDrain_fixed (n : Port) (p : Part) : (endDrain n p).fixed = p.fixed := by
  unfold endDrain
  try dsimp only
  repeat' split
  all_goals simp

@[simp] theorem endDrain_aside {n m : Port} (h : n ≠ m) (p : Part) :
    (endDrain n p).aside m = p.aside m := by
  unfold endDrain
  try dsimp only
  repeat' split
  all_goals simp [h]

@[simp] theorem enterGrace_fixed (n : Port) (p : Part) : (enterGrace n p).fixed = p.fixed := by
  unfold enterGrace
  try dsimp only
  repeat' split
  all_goals simp

@[simp] theorem enterGrace_aside {n m : Port} (h : n ≠ m) (p : Part) :
    (enterGrace n p).aside m = p.aside m := by
  unfold enterGrace
  try dsimp only
  repeat' split
  all_goals simp [h]

@[simp] theorem startDrain_fixed (n : Port) (r : DrainReason) (p : Part) : (startDrain n r p).fixed = p.fixed := by
  unfold startDrain
  try dsimp only
  repeat' split
  all_goals simp

@[simp] theorem startDrain_aside {n m : Port} (h : n ≠ m) (r : DrainReason) (p : Part) :
    (startDrain n r p).aside m = p.aside m := by
  unfold startDrain
  try dsimp only
  repeat' split
  all_goals simp [h]

@[simp] theorem cueToLane_fixed (n : Port) (v : Word) (p : Part) : (cueToLane n v p).fixed = p.fixed := by
  unfold cueToLane
  try dsimp only
  repeat' split
  all_goals simp

@[simp] theorem cueToLane_aside {n m : Port} (h : n ≠ m) (v : Word) (p : Part) :
    (cueToLane n v p).aside m = p.aside m := by
  unfold cueToLane
  try dsimp only
  repeat' split
  all_goals simp [h]

@[simp] theorem replacePlan_fixed (n : Port) (pl : Plan) (p : Part) : (replacePlan n pl p).fixed = p.fixed := by
  unfold replacePlan
  dsimp only
  rw [laneFollow_fixed, mapPtp_windows_fixed (fun w => w.put n _)]
  split
  · rw [updPort_fixed, mapBu_fixed rfl, updPort_fixed]
  · rw [mapBu_fixed rfl, updPort_fixed]

@[simp] theorem replacePlan_aside {n m : Port} (h : n ≠ m) (pl : Plan) (p : Part) :
    (replacePlan n pl p).aside m = p.aside m := by
  unfold replacePlan
  dsimp only
  rw [laneFollow_aside h, mapPtp_aside]
  split
  · rw [updPort_aside h, mapEntries_aside h, updPort_aside h]
    intro e he; exact he
  · rw [mapEntries_aside h, updPort_aside h]
    intro e he; exact he

@[simp] theorem storePlan_fixed (n : Port) (pl : Plan) (p : Part) : (storePlan n pl p).fixed = p.fixed := by
  unfold storePlan
  try dsimp only
  simp

@[simp] theorem storePlan_aside {n m : Port} (h : n ≠ m) (pl : Plan) (p : Part) :
    (storePlan n pl p).aside m = p.aside m := by
  unfold storePlan
  try dsimp only
  simp [h]

@[simp] theorem withdraw_fixed (n : Port) (pl : Plan) (p : Part) : (withdraw n pl p).fixed = p.fixed := by
  simp [withdraw]

@[simp] theorem withdraw_aside {n m : Port} (h : n ≠ m) (pl : Plan) (p : Part) : (withdraw n pl p).aside m = p.aside m := by
  simp [withdraw, h]

@[simp] theorem setOpenDue_fixed (n : Port) (p : Part) : (setOpenDue n p).fixed = p.fixed := by
  unfold setOpenDue
  try dsimp only
  simp

@[simp] theorem setOpenDue_aside {n m : Port} (h : n ≠ m) (p : Part) :
    (setOpenDue n p).aside m = p.aside m := by
  unfold setOpenDue
  try dsimp only
  simp [h]

@[simp] theorem handPendingCue_fixed (n : Port) (p : Part) : (handPendingCue n p).fixed = p.fixed := by
  unfold handPendingCue
  try dsimp only
  repeat' split
  all_goals simp

@[simp] theorem handPendingCue_aside {n m : Port} (h : n ≠ m) (p : Part) :
    (handPendingCue n p).aside m = p.aside m := by
  unfold handPendingCue
  try dsimp only
  repeat' split
  all_goals simp [h]

@[simp] theorem takeDeferred_fixed (n : Port) (p : Part) : (takeDeferred n p).fixed = p.fixed := by
  unfold takeDeferred
  try dsimp only
  simp

@[simp] theorem takeDeferred_aside {n m : Port} (h : n ≠ m) (p : Part) :
    (takeDeferred n p).aside m = p.aside m := by
  unfold takeDeferred
  try dsimp only
  simp [h]

@[simp] theorem standbyOn_fixed (n : Port) (p : Part) : (standbyOn n p).fixed = p.fixed := by
  unfold standbyOn
  try dsimp only
  repeat' split
  all_goals simp

@[simp] theorem standbyOn_aside {n m : Port} (h : n ≠ m) (p : Part) :
    (standbyOn n p).aside m = p.aside m := by
  unfold standbyOn
  try dsimp only
  repeat' split
  all_goals simp [h]

@[simp] theorem applyInOn_fixed (n : Port) (pl : Plan) (p : Part) : (applyInOn n pl p).fixed = p.fixed := by
  unfold applyInOn
  try dsimp only
  repeat' split
  all_goals simp

@[simp] theorem applyInOn_aside {n m : Port} (h : n ≠ m) (pl : Plan) (p : Part) :
    (applyInOn n pl p).aside m = p.aside m := by
  unfold applyInOn
  try dsimp only
  repeat' split
  all_goals simp [h]

@[simp] theorem startOnTime_fixed (n : Port) (p : Part) : (startOnTime n p).fixed = p.fixed := updPort_fixed _ _ _

@[simp] theorem startOnTime_aside {n m : Port} (h : n ≠ m) (p : Part) : (startOnTime n p).aside m = p.aside m :=
  updPort_aside h _ _

@[simp] theorem openLane_fixed (n : Port) (p : Part) : (openLane n p).fixed = p.fixed := by
  unfold openLane
  split <;> simp

@[simp] theorem openLane_aside {n m : Port} (h : n ≠ m) (p : Part) : (openLane n p).aside m = p.aside m := by
  unfold openLane
  split <;> simp [h]

@[simp] theorem applyEntering_fixed (n : Port) (p : Part) : (applyEntering n p).fixed = p.fixed := by
  unfold applyEntering
  split <;> simp

@[simp] theorem applyEntering_aside {n m : Port} (h : n ≠ m) (p : Part) : (applyEntering n p).aside m = p.aside m := by
  unfold applyEntering
  split <;> simp [h]

@[simp] theorem enterOn_fixed (n : Port) (p : Part) : (enterOn n p).fixed = p.fixed := by simp [enterOn]

@[simp] theorem enterOn_aside {n m : Port} (h : n ≠ m) (p : Part) :
    (enterOn n p).aside m = p.aside m := by simp [enterOn, h]

@[simp] theorem admitOrphan_fixed (n : Port) (p : Part) : (admitOrphan n p).fixed = p.fixed := by
  unfold admitOrphan
  try dsimp only
  repeat' split
  all_goals simp

@[simp] theorem admitOrphan_aside {n m : Port} (h : n ≠ m) (p : Part) :
    (admitOrphan n p).aside m = p.aside m := by
  unfold admitOrphan
  try dsimp only
  repeat' split
  all_goals simp [h]

@[simp] theorem testAdmission_fixed (n : Port) (p : Part) : (testAdmission n p).fixed = p.fixed := by
  unfold testAdmission
  try dsimp only
  repeat' split
  all_goals simp

@[simp] theorem testAdmission_aside {n m : Port} (h : n ≠ m) (p : Part) :
    (testAdmission n p).aside m = p.aside m := by
  unfold testAdmission
  try dsimp only
  repeat' split
  all_goals simp [h]

@[simp] theorem applyWaiting_fixed (n : Port) (pl : Plan) (p : Part) : (applyWaiting n pl p).fixed = p.fixed := by
  unfold applyWaiting
  try dsimp only
  repeat' split
  all_goals simp

@[simp] theorem applyWaiting_aside {n m : Port} (h : n ≠ m) (pl : Plan) (p : Part) :
    (applyWaiting n pl p).aside m = p.aside m := by
  unfold applyWaiting
  try dsimp only
  repeat' split
  all_goals simp [h]

@[simp] theorem retarget_fixed (n : Port) (p : Part) : (retarget n p).fixed = p.fixed := by
  unfold retarget
  try dsimp only
  simp

@[simp] theorem retarget_aside {n m : Port} (h : n ≠ m) (p : Part) :
    (retarget n p).aside m = p.aside m := by
  unfold retarget
  try dsimp only
  simp [h]

@[simp] theorem adopt_fixed (n : Port) (pl : Plan) (p : Part) : (adopt n pl p).fixed = p.fixed := by
  unfold adopt
  try dsimp only
  repeat' split
  all_goals simp

@[simp] theorem adopt_aside {n m : Port} (h : n ≠ m) (pl : Plan) (p : Part) :
    (adopt n pl p).aside m = p.aside m := by
  unfold adopt
  try dsimp only
  repeat' split
  all_goals simp [h]

@[simp] theorem applyByState_fixed (n : Port) (pl : Plan) (p : Part) : (applyByState n pl p).fixed = p.fixed := by
  unfold applyByState
  try dsimp only
  repeat' split
  all_goals simp

@[simp] theorem applyByState_aside {n m : Port} (h : n ≠ m) (pl : Plan) (p : Part) :
    (applyByState n pl p).aside m = p.aside m := by
  unfold applyByState
  try dsimp only
  repeat' split
  all_goals simp [h]

@[simp] theorem applyDeferred_fixed (n : Port) (p : Part) : (applyDeferred n p).fixed = p.fixed := by
  unfold applyDeferred
  try dsimp only
  repeat' split
  all_goals simp

@[simp] theorem applyDeferred_aside {n m : Port} (h : n ≠ m) (p : Part) :
    (applyDeferred n p).aside m = p.aside m := by
  unfold applyDeferred
  try dsimp only
  repeat' split
  all_goals simp [h]

@[simp] theorem deliverApply_fixed (n : Port) (pl : Option Plan) (p : Part) : (deliverApply n pl p).fixed = p.fixed := by
  unfold deliverApply
  try dsimp only
  repeat' split
  all_goals simp

@[simp] theorem deliverApply_aside {n m : Port} (h : n ≠ m) (pl : Option Plan) (p : Part) :
    (deliverApply n pl p).aside m = p.aside m := by
  unfold deliverApply
  try dsimp only
  repeat' split
  all_goals simp [h]

@[simp] theorem clearFault_fixed (n : Port) (p : Part) : (clearFault n p).fixed = p.fixed := by
  unfold clearFault
  try dsimp only
  repeat' split
  all_goals simp

@[simp] theorem clearFault_aside {n m : Port} (h : n ≠ m) (p : Part) :
    (clearFault n p).aside m = p.aside m := by
  unfold clearFault
  try dsimp only
  repeat' split
  all_goals simp [h]

@[simp] theorem clearRequest_fixed (n : Port) (p : Part) : (clearRequest n p).fixed = p.fixed := by
  unfold clearRequest
  try dsimp only
  repeat' split
  all_goals simp

@[simp] theorem clearRequest_aside {n m : Port} (h : n ≠ m) (p : Part) :
    (clearRequest n p).aside m = p.aside m := by
  unfold clearRequest
  try dsimp only
  repeat' split
  all_goals simp [h]

@[simp] theorem restartRequest_fixed (n : Port) (p : Part) : (restartRequest n p).fixed = p.fixed := by
  unfold restartRequest
  try dsimp only
  repeat' split
  all_goals simp

@[simp] theorem restartRequest_aside {n m : Port} (h : n ≠ m) (p : Part) :
    (restartRequest n p).aside m = p.aside m := by
  unfold restartRequest
  try dsimp only
  repeat' split
  all_goals simp [h]

@[simp] theorem failPort_fixed (n : Port) (c : FaultCause) (p : Part) : (failPort n c p).fixed = p.fixed := by
  unfold failPort
  try dsimp only
  repeat' split
  all_goals simp

@[simp] theorem failPort_aside {n m : Port} (h : n ≠ m) (c : FaultCause) (p : Part) :
    (failPort n c p).aside m = p.aside m := by
  unfold failPort
  try dsimp only
  repeat' split
  all_goals simp [h]

@[simp] theorem laneLost_fixed (n : Port) (p : Part) : (laneLost n p).fixed = p.fixed := by
  unfold laneLost
  try dsimp only
  repeat' split
  all_goals simp

@[simp] theorem laneLost_aside {n m : Port} (h : n ≠ m) (p : Part) :
    (laneLost n p).aside m = p.aside m := by
  unfold laneLost
  try dsimp only
  repeat' split
  all_goals simp [h]

@[simp] theorem askFull_fixed (n : Port) (p : Part) : (askFull n p).fixed = p.fixed := by
  unfold askFull
  split
  · rfl
  · exact joinQueue_fixed n _ p

@[simp] theorem askFull_aside {n m : Port} (h : n ≠ m) (p : Part) :
    (askFull n p).aside m = p.aside m := by
  unfold askFull
  split
  · exact mapEntries_aside h (fun e => { e with asked := (p.port n).fullRequest }) (fun _ he => he) p
  · exact joinQueue_aside h _ p

@[simp] theorem helloTaken_fixed (n : Port) (i : Identity) (p : Part) : (helloTaken n i p).fixed = p.fixed := by
  unfold helloTaken
  try dsimp only
  repeat' split
  all_goals simp

@[simp] theorem helloTaken_aside {n m : Port} (h : n ≠ m) (i : Identity) (p : Part) :
    (helloTaken n i p).aside m = p.aside m := by
  unfold helloTaken
  try dsimp only
  repeat' split
  all_goals simp [h]

@[simp] theorem leaveTaken_fixed (n : Port) (p : Part) : (leaveTaken n p).fixed = p.fixed := by
  unfold leaveTaken
  try dsimp only
  repeat' split
  all_goals simp

@[simp] theorem leaveTaken_aside {n m : Port} (h : n ≠ m) (p : Part) :
    (leaveTaken n p).aside m = p.aside m := by
  unfold leaveTaken
  try dsimp only
  repeat' split
  all_goals simp [h]

@[simp] theorem shedTaken_fixed (n : Port) (p : Part) : (shedTaken n p).fixed = p.fixed := by
  unfold shedTaken
  split
  all_goals first | simp | rfl

@[simp] theorem shedTaken_aside {n m : Port} (h : n ≠ m) (p : Part) :
    (shedTaken n p).aside m = p.aside m := by
  unfold shedTaken
  split
  all_goals first | simp [h] | rfl

@[simp] theorem noOutstanding_fixed (n : Port) (p : Part) : (noOutstanding n p).fixed = p.fixed := by
  unfold noOutstanding
  try dsimp only
  repeat' split
  all_goals simp

@[simp] theorem noOutstanding_aside {n m : Port} (h : n ≠ m) (p : Part) :
    (noOutstanding n p).aside m = p.aside m := by
  unfold noOutstanding
  try dsimp only
  repeat' split
  all_goals simp [h]

end Sys2Proof.Machine
end

