-- ==== Sys2Proof/Laws/LaneOps.lean ====
section
/-! SUPPORT. What the lane controllers' operations can change: those of one lane leave the other ports `aside`, and but for a tag
overrun, which sets an error bit, none changes `fixed`. -/

namespace Sys2Proof.Machine

/-! ### Frames taken -/

@[simp] theorem checkError_fixed (n : Port) (p : Part) : (checkError n p).fixed = p.fixed := updPort_fixed _ _ _

@[simp] theorem checkError_aside {n m : Port} (h : n ≠ m) (p : Part) : (checkError n p).aside m = p.aside m :=
  updPort_aside h _ _

@[simp] theorem tagOverrun_aside {n m : Port} (h : n ≠ m) (p : Part) : (tagOverrun n p).aside m = p.aside m := by
  simp [tagOverrun, h]

@[simp] theorem answerNow_fixed (n : Port) (kind : ReqKind) (tag : Fin 4) (status : Status) (p : Part) :
    (answerNow n kind tag status p).fixed = p.fixed := rfl

@[simp] theorem answerNow_aside {n m : Port} (h : n ≠ m) (kind : ReqKind) (tag : Fin 4) (status : Status) (p : Part) :
    (answerNow n kind tag status p).aside m = p.aside m := updLane_aside h _ _

@[simp] theorem acceptRequest_fixed (n : Port) (a : LaneAccess) (p : Part) : (acceptRequest n a p).fixed = p.fixed := rfl

@[simp] theorem acceptRequest_aside {n m : Port} (h : n ≠ m) (a : LaneAccess) (p : Part) :
    (acceptRequest n a p).aside m = p.aside m := by simp [acceptRequest, h]

@[simp] theorem takeRequest_aside {n m : Port} (h : n ≠ m) (kind : ReqKind) (tag cls : Fin 4) (offset length : Nat)
    (data : List Byte) (p : Part) : (takeRequest n kind tag cls offset length data p).aside m = p.aside m := by
  unfold takeRequest
  repeat' split
  all_goals simp [h]

@[simp] theorem reopenLane_fixed (n : Port) (i : Identity) (p : Part) : (reopenLane n i p).fixed = p.fixed := by
  unfold reopenLane
  dsimp only
  split
  all_goals simp

@[simp] theorem reopenLane_aside {n m : Port} (h : n ≠ m) (i : Identity) (p : Part) :
    (reopenLane n i p).aside m = p.aside m := by
  unfold reopenLane
  dsimp only
  split
  all_goals simp [h]

@[simp] theorem takeHello_fixed (n : Port) (i : Identity) (p : Part) : (takeHello n i p).fixed = p.fixed := by
  unfold takeHello
  repeat' split
  all_goals simp

@[simp] theorem takeHello_aside {n m : Port} (h : n ≠ m) (i : Identity) (p : Part) :
    (takeHello n i p).aside m = p.aside m := by
  unfold takeHello
  repeat' split
  all_goals simp [h]

@[simp] theorem takeGood_aside {n m : Port} (h : n ≠ m) (f : RxFrame) (p : Part) :
    (takeGood n f p).aside m = p.aside m := by
  cases f <;> simp [takeGood, h]

@[simp] theorem takeFrame_aside {n m : Port} (h : n ≠ m) (f : RxFrame) (p : Part) :
    (takeFrame n f p).aside m = p.aside m := by
  unfold takeFrame
  repeat' split
  all_goals simp [h]

@[simp] theorem takeBytes_aside {n m : Port} (h : n ≠ m) (bytes : List Byte) (p : Part) :
    (takeBytes n bytes p).aside m = p.aside m := by
  unfold takeBytes
  repeat' split
  all_goals simp [h]

/-! ### Sendings and timers -/

@[simp] theorem freeTag_fixed (n : Port) (tag : Fin 4) (p : Part) : (freeTag n tag p).fixed = p.fixed := by
  unfold freeTag
  dsimp only
  split
  all_goals simp

@[simp] theorem freeTag_aside {n m : Port} (h : n ≠ m) (tag : Fin 4) (p : Part) :
    (freeTag n tag p).aside m = p.aside m := by
  unfold freeTag
  dsimp only
  split
  all_goals simp [h]

@[simp] theorem answerSent_fixed (n : Port) (a : Answer) (p : Part) : (answerSent n a p).fixed = p.fixed := by
  unfold answerSent
  rw [updLane_fixed]
  split
  all_goals simp

@[simp] theorem answerSent_aside {n m : Port} (h : n ≠ m) (a : Answer) (p : Part) :
    (answerSent n a p).aside m = p.aside m := by
  unfold answerSent
  rw [updLane_aside h]
  split
  all_goals simp [h]

@[simp] theorem accessDone_fixed (n : Port) (a : Answer) (p : Part) : (accessDone n a p).fixed = p.fixed := by
  unfold accessDone
  split
  all_goals simp

@[simp] theorem accessDone_aside {n m : Port} (h : n ≠ m) (a : Answer) (p : Part) :
    (accessDone n a p).aside m = p.aside m := by
  unfold accessDone
  split
  all_goals simp [h]

@[simp] theorem silenceExpired_fixed (n : Port) (p : Part) : (silenceExpired n p).fixed = p.fixed := by
  simp [silenceExpired]

@[simp] theorem silenceExpired_aside {n m : Port} (h : n ≠ m) (p : Part) : (silenceExpired n p).aside m = p.aside m := by
  simp [silenceExpired, h]

end Sys2Proof.Machine
end

