-- ==== Sys2Proof/Laws/Memory.lean ====
section
/-! SUPPORT. The accessory memory: reading after a write, and the canonical form kept by every operation. -/

namespace Sys2Proof.Machine

/-! ### The canonical form -/

/-- Every listed address is above `a`. -/
def Memory.above (a : Nat) (m : Memory) : Prop := ∀ c ∈ m, a < c.1

theorem Memory.wf_cons (a : Nat) (b : Byte) (m : Memory) :
    Memory.wf ((a, b) :: m) = true ↔ b ≠ Memory.unlisted ∧ Memory.above a m ∧ Memory.wf m = true := by
  induction m generalizing a b with
  | nil => simp [Memory.wf, Memory.above]
  | cons c rest ih =>
    obtain ⟨a', b'⟩ := c
    have step : Memory.wf ((a, b) :: (a', b') :: rest) = true ↔
        b ≠ Memory.unlisted ∧ a < a' ∧ Memory.wf ((a', b') :: rest) = true := by
      simp [Memory.wf, and_assoc]
    rw [step]
    constructor
    · rintro ⟨h, h', h''⟩
      refine ⟨h, ?_, h''⟩
      intro c hc
      rcases List.mem_cons.1 hc with rfl | hc
      · exact h'
      · exact Nat.lt_trans h' (((ih a' b').1 h'').2.1 c hc)
    · rintro ⟨h, h', h''⟩
      exact ⟨h, h' _ (List.mem_cons_self ..), h''⟩

theorem Memory.read_above {a : Nat} {m : Memory} (h : Memory.above a m) {a' : Nat} (h' : a' ≤ a) :
    Memory.read m a' = Memory.unlisted := by
  induction m with
  | nil => rfl
  | cons c rest ih =>
    obtain ⟨x, b⟩ := c
    have hx : a < x := h _ (List.mem_cons_self ..)
    have hne : ¬ x = a' := by omega
    rw [Memory.read, if_neg hne]
    exact ih (fun c hc => h c (List.mem_cons_of_mem _ hc))

theorem Memory.above_write {a : Nat} {m : Memory} (h : Memory.above a m) {a' : Nat} (h' : a < a') (b : Byte) :
    Memory.above a (Memory.write m a' b) := by
  induction m with
  | nil =>
    unfold Memory.write
    split
    · intro c hc; simp at hc
    · intro c hc; simp only [List.mem_singleton] at hc; subst hc; exact h'
  | cons c rest ih =>
    obtain ⟨x, y⟩ := c
    have hrest : Memory.above a rest := fun c hc => h c (List.mem_cons_of_mem _ hc)
    have hx : a < x := h _ (List.mem_cons_self ..)
    unfold Memory.write
    repeat' split
    · exact h
    · intro c hc
      rcases List.mem_cons.1 hc with rfl | hc
      · exact h'
      · exact h c hc
    · exact hrest
    · intro c hc
      rcases List.mem_cons.1 hc with rfl | hc
      · exact h'
      · exact hrest c hc
    · intro c hc
      rcases List.mem_cons.1 hc with rfl | hc
      · exact hx
      · exact ih hrest c hc

/-- Writing a byte keeps the canonical form. -/
theorem Memory.wf_write {m : Memory} (h : Memory.wf m = true) (a : Nat) (b : Byte) :
    Memory.wf (Memory.write m a b) = true := by
  induction m with
  | nil =>
    unfold Memory.write
    split
    · rfl
    · rename_i hb; simpa [Memory.wf] using hb
  | cons c rest ih =>
    obtain ⟨x, y⟩ := c
    obtain ⟨hy, hab, hr⟩ := (Memory.wf_cons x y rest).1 h
    unfold Memory.write
    repeat' split
    · exact h
    · rename_i hlt hb
      refine (Memory.wf_cons _ _ _).2 ⟨hb, ?_, h⟩
      intro c hc
      rcases List.mem_cons.1 hc with rfl | hc
      · exact hlt
      · exact Nat.lt_trans hlt (hab c hc)
    · exact hr
    · rename_i heq hb
      exact (Memory.wf_cons _ _ _).2 ⟨hb, heq ▸ hab, hr⟩
    · rename_i hlt hne
      exact (Memory.wf_cons _ _ _).2 ⟨hy, Memory.above_write hab (by omega) b, ih hr⟩

/-- Writing bytes keeps the canonical form. -/
theorem Memory.wf_writeAll {m : Memory} (h : Memory.wf m = true) (cells : List Host.Cell) :
    Memory.wf (Memory.writeAll m cells) = true := by
  induction cells generalizing m with
  | nil => exact h
  | cons c rest ih => exact ih (Memory.wf_write h c.1 c.2)

/-- The completion of a burst keeps the canonical form. -/
theorem memoryAfter_wf {m : Memory} (h : Memory.wf m = true) (f : InFlight) (fault : Bool) (left : List Byte) :
    Memory.wf (memoryAfter f fault left m) = true := Memory.wf_writeAll h _

theorem reset_memory_wf : Memory.wf State.reset.mem = true := rfl

/-! ### Reading after writing -/

/-- A byte reads as it was last written; every other byte as before. -/
theorem Memory.read_write {m : Memory} (h : Memory.wf m = true) (a : Nat) (b : Byte) (a' : Nat) :
    Memory.read (Memory.write m a b) a' = if a' = a then b else Memory.read m a' := by
  induction m with
  | nil =>
    unfold Memory.write
    split
    · rename_i hb; subst hb; simp [Memory.read]
    · simp only [Memory.read]
      by_cases g : a' = a
      · subst g; simp
      · rw [if_neg (fun e => g e.symm), if_neg g]
  | cons c rest ih =>
    obtain ⟨x, y⟩ := c
    obtain ⟨hy, hab, hr⟩ := (Memory.wf_cons x y rest).1 h
    unfold Memory.write
    by_cases hlt : a < x
    · rw [if_pos hlt]
      have hall : Memory.above a ((x, y) :: rest) := by
        intro c hc
        rcases List.mem_cons.1 hc with rfl | hc
        · exact hlt
        · exact Nat.lt_trans hlt (hab c hc)
      by_cases hb : b = Memory.unlisted
      · rw [if_pos hb]
        by_cases g : a' = a
        · rw [if_pos g, g, Memory.read_above hall (Nat.le_refl a), hb]
        · rw [if_neg g]
      · rw [if_neg hb, Memory.read]
        by_cases g : a' = a
        · rw [if_pos g, if_pos g.symm]
        · rw [if_neg g, if_neg (fun e => g e.symm)]
    · rw [if_neg hlt]
      by_cases heq : a = x
      · rw [if_pos heq]
        by_cases hb : b = Memory.unlisted
        · rw [if_pos hb]
          by_cases g : a' = a
          · rw [if_pos g, Memory.read_above hab (by omega), hb]
          · have g' : ¬ x = a' := by omega
            rw [if_neg g, Memory.read, if_neg g']
        · rw [if_neg hb]
          by_cases g : a' = a
          · rw [if_pos g, Memory.read, if_pos g.symm]
          · have g' : ¬ x = a' := by omega
            rw [if_neg g, Memory.read, if_neg (fun e => g e.symm), Memory.read, if_neg g']
      · rw [if_neg heq]
        simp only [Memory.read]
        by_cases gx : x = a'
        · have g : ¬ a' = a := by omega
          rw [if_pos gx, if_neg g, if_pos gx]
        · rw [if_neg gx, if_neg gx]
          exact ih hr

/-- Bytes outside the cells written read as before. -/
theorem Memory.read_writeAll_other {m : Memory} (h : Memory.wf m = true) (cells : List Host.Cell) (a : Nat)
    (ha : ∀ c ∈ cells, c.1 ≠ a) : Memory.read (Memory.writeAll m cells) a = Memory.read m a := by
  induction cells generalizing m with
  | nil => rfl
  | cons c rest ih =>
    have hc : ¬ a = c.1 := fun e => ha c (List.mem_cons_self ..) e.symm
    calc Memory.read (Memory.writeAll (Memory.write m c.1 c.2) rest) a
        = Memory.read (Memory.write m c.1 c.2) a :=
          ih (Memory.wf_write h c.1 c.2) (fun c' hc' => ha c' (List.mem_cons_of_mem _ hc'))
      _ = Memory.read m a := by rw [Memory.read_write h, if_neg hc]

/-- With no address twice, every cell written reads as its byte. -/
theorem Memory.read_writeAll {m : Memory} (h : Memory.wf m = true) (cells : List Host.Cell)
    (hn : (cells.map (fun c : Host.Cell => c.1)).Nodup) (c : Host.Cell) (hc : c ∈ cells) :
    Memory.read (Memory.writeAll m cells) c.1 = c.2 := by
  induction cells generalizing m with
  | nil => simp at hc
  | cons d rest ih =>
    rw [List.map_cons, List.nodup_cons] at hn
    rcases List.mem_cons.1 hc with rfl | hc
    · have ho : ∀ c' ∈ rest, c'.1 ≠ c.1 := fun c' hc' e => hn.1 (List.mem_map.2 ⟨c', hc', e⟩)
      calc Memory.read (Memory.writeAll (Memory.write m c.1 c.2) rest) c.1
          = Memory.read (Memory.write m c.1 c.2) c.1 :=
            Memory.read_writeAll_other (Memory.wf_write h c.1 c.2) rest c.1 ho
        _ = c.2 := by rw [Memory.read_write h, if_pos rfl]
    · exact ih (Memory.wf_write h d.1 d.2) hn.2 hc

/-! ### The cells of a burst -/

theorem layBytes_addresses (address : Nat) (bytes : List Byte) :
    (layBytes address bytes).map (fun c : Host.Cell => c.1) = (List.range bytes.length).map (address + ·) := by
  apply List.ext_getElem
  · simp [layBytes]
  · intro i h h'
    simp [layBytes]

theorem layBytes_nodup (address : Nat) (bytes : List Byte) :
    ((layBytes address bytes).map (fun c : Host.Cell => c.1)).Nodup := by
  rw [layBytes_addresses]
  exact List.Nodup.map (fun x y h => by simpa using h) List.nodup_range

theorem mem_layBytes {address : Nat} {bytes : List Byte} {c : Host.Cell} (h : c ∈ layBytes address bytes) :
    address ≤ c.1 ∧ c.1 < address + bytes.length := by
  have : c.1 ∈ (layBytes address bytes).map (fun c : Host.Cell => c.1) := List.mem_map_of_mem h
  rw [layBytes_addresses, List.mem_map] at this
  obtain ⟨i, hi, e⟩ := this
  rw [List.mem_range] at hi
  omega

theorem enabledBytes_nodup (enables : BitVec 4) : (enabledBytes enables).Nodup :=
  List.Nodup.filter _ (by decide)

/-- No burst addresses a byte twice. -/
theorem InFlight.cells_nodup (f : InFlight) : (f.cells.map (fun c : Host.Cell => c.1)).Nodup := by
  cases f with
  | cp c discard =>
    show (List.map _ (if c.write = true then _ else _)).Nodup
    split
    · rw [List.map_map]
      exact List.Nodup.map (fun x y h => by simpa using h) (enabledBytes_nodup c.enables)
    · exact List.nodup_nil
  | writeBack t address bytes mark discard => exact layBytes_nodup address bytes
  | copyRead s address length discard => exact List.nodup_nil
  | port n a offset length last discard =>
    show (List.map _ (match a.kind with | .put => _ | .get => _)).Nodup
    split
    · exact layBytes_nodup _ _
    · exact List.nodup_nil

/-- The cells of a burst as a fault leaves them are among those it addresses. -/
theorem cellsLeft_address {fault : Bool} {left : List Byte} {cells : List Host.Cell} {c : Host.Cell}
    (h : c ∈ cellsLeft fault left cells) : ∃ d ∈ cells, d.1 = c.1 := by
  unfold cellsLeft at h
  split at h
  · rw [List.mem_iff_getElem] at h
    obtain ⟨i, hi, e⟩ := h
    rw [List.getElem_zipWith] at e
    have hi' : i < cells.length := by rw [List.length_zipWith] at hi; omega
    exact ⟨cells[i], List.getElem_mem hi', by rw [← e]⟩
  · exact ⟨c, h, rfl⟩

/-- A completed burst changes no byte it does not address. -/
theorem memoryAfter_other {m : Memory} (h : Memory.wf m = true) (f : InFlight) (fault : Bool) (left : List Byte)
    (a : Nat) (ha : ∀ c ∈ f.cells, c.1 ≠ a) : Memory.read (memoryAfter f fault left m) a = Memory.read m a := by
  refine Memory.read_writeAll_other h _ a (fun c hc => ?_)
  obtain ⟨d, hd, e⟩ := cellsLeft_address hc
  exact fun hca => ha d hd (e.trans hca)

/-- A burst completed without a fault has written its bytes. -/
theorem memoryAfter_written {m : Memory} (h : Memory.wf m = true) (f : InFlight) (left : List Byte) (c : Host.Cell)
    (hc : c ∈ f.cells) : Memory.read (memoryAfter f false left m) c.1 = c.2 :=
  Memory.read_writeAll h f.cells f.cells_nodup c hc

end Sys2Proof.Machine
end

