-- ==== Sys2Proof/Laws/Settle.lean ====
section
/-! SUPPORT. What the end of every command can change: the adoption sweep, a grant decision of the memory orderer, and the swap of
a pending wheel after it, with the grant decision it can start. -/

namespace Sys2Proof.Machine

theorem PortRecord.steady_keeps {r r' : PortRecord} (h : r'.steady = r.steady) :
    r'.state = r.state ∧ r' = { r with stamp := r'.stamp } ∧ (r.state.closed = false → r' = r) := by
  have e : r'.state = r.state := by
    have e0 := congrArg (fun x : PortRecord => x.state) h
    exact e0
  refine ⟨e, ?_, fun hc => ?_⟩
  · have : ({ r'.steady with stamp := r'.stamp } : PortRecord) = { r.steady with stamp := r'.stamp } := by rw [h]
    exact this
  · have : r'.state.closed = false := by rw [e]; exact hc
    have e1 : r'.steady = r' := by simp only [PortRecord.steady, this]; rfl
    have e2 : r.steady = r := by simp only [PortRecord.steady, hc]; rfl
    rw [← e1, h, e2]

theorem Aside.record_of {n : Port} {p q : Part} (h : q.aside n = p.aside n) : (q.port n).steady = (p.port n).steady :=
  congrArg Aside.record h

theorem Aside.lane_of {n : Port} {p q : Part} (h : q.aside n = p.aside n) : q.lane n = p.lane n := congrArg Aside.lane h

theorem Aside.entries_of {n : Port} {p q : Part} (h : q.aside n = p.aside n) :
    q.bu.queue.filter (fun e => e.port == n) = p.bu.queue.filter (fun e => e.port == n) := congrArg Aside.entries h

/-- A port left aside has its record but for a new stamp. -/
theorem port_of_aside {n : Port} {p q : Part} (h : q.aside n = p.aside n) :
    q.port n = { p.port n with stamp := (q.port n).stamp } := (PortRecord.steady_keeps (Aside.record_of h)).2.1

/-- A port left aside with its switch open has its record. -/
theorem port_of_aside_open {n : Port} {p q : Part} (h : q.aside n = p.aside n) (g : (p.port n).state.closed = false) :
    q.port n = p.port n := (PortRecord.steady_keeps (Aside.record_of h)).2.2 g

theorem quiet_of_aside {n : Port} {p q : Part} (h : q.aside n = p.aside n) (g : quiet n p) : quiet n q := by
  refine ⟨noEntry_of_aside h g.1, ?_⟩
  rw [port_of_aside h]
  exact g.2

/-! ### Grants of bursts -/

/-- The port table, the budget, the sequencer, the lanes and the mode and reset control are those of `p`. -/
def PortsStay (q p : Part) : Prop :=
  q.ports = p.ports ∧ q.bu = p.bu ∧ q.ms = p.ms ∧ q.lanes = p.lanes ∧ q.mrc = p.mrc

theorem PortsStay.refl (p : Part) : PortsStay p p := ⟨rfl, rfl, rfl, rfl, rfl⟩

theorem PortsStay.trans {p q r : Part} (h : PortsStay r q) (g : PortsStay q p) : PortsStay r p :=
  ⟨h.1.trans g.1, h.2.1.trans g.2.1, h.2.2.1.trans g.2.2.1, h.2.2.2.1.trans g.2.2.2.1, h.2.2.2.2.trans g.2.2.2.2⟩

theorem PortsStay.of_aeOnly {p q : Part} (h : AeOnly q p) : PortsStay q p :=
  ⟨h.1, h.2.1, h.2.2.1, h.2.2.2.1, h.2.2.2.2.2.2⟩

theorem PortsStay.port {p q : Part} (h : PortsStay q p) (n : Port) : q.port n = p.port n := by
  simp only [Part.port, h.1]

theorem PortsStay.lane {p q : Part} (h : PortsStay q p) (n : Port) : q.lane n = p.lane n := by
  simp only [Part.lane, h.2.2.2.1]

theorem PortsStay.aside {p q : Part} (h : PortsStay q p) (n : Port) : q.aside n = p.aside n := by
  simp only [Part.aside, h.port, h.lane, h.2.1]

theorem grantBurst_stay (who : Participant) (p : Part) : PortsStay (grantBurst who p) p := by
  cases who with
  | port n =>
    unfold grantBurst grantPortBurst
    dsimp only
    repeat' split
    all_goals exact PortsStay.refl p
  | cp =>
    unfold grantBurst grantCp
    dsimp only
    split <;> exact PortsStay.refl p
  | ae =>
    unfold grantBurst
    dsimp only
    split <;> exact PortsStay.refl p

theorem grantAt_stay (i : Nat) (p : Part) : PortsStay (grantAt i p) p := by
  unfold grantAt
  split
  · exact PortsStay.refl p
  · next who _ => exact grantBurst_stay who p

/-- What the bus and the area engine's words are: grants change neither. -/
def BusStays (q p : Part) : Prop :=
  q.ptp.answer = p.ptp.answer ∧ q.ptp.holdTimer = p.ptp.holdTimer ∧ q.ptp.presented = p.ptp.presented ∧
  q.ptp.access.isSome = p.ptp.access.isSome ∧
  q.ae.summary = p.ae.summary ∧ q.ae.error = p.ae.error ∧ q.ae.quiet = p.ae.quiet ∧ q.ae.lastCurrent = p.ae.lastCurrent

theorem BusStays.refl (p : Part) : BusStays p p := ⟨rfl, rfl, rfl, rfl, rfl, rfl, rfl, rfl⟩

theorem BusStays.trans {p q r : Part} (h : BusStays r q) (g : BusStays q p) : BusStays r p := by
  simp only [BusStays] at *
  simp [h, g]

theorem granted_keeps (t : Target) (x : PassThrough) :
    (x.granted t).answer = x.answer ∧ (x.granted t).holdTimer = x.holdTimer ∧ (x.granted t).presented = x.presented ∧
    (x.granted t).windows = x.windows ∧ (x.granted t).shadows = x.shadows ∧
    (x.granted t).access.isSome = x.access.isSome := by
  unfold PassThrough.granted
  repeat' split
  all_goals simp_all

theorem grantWriteBack_bus (t : Target) (p : Part) : BusStays (grantWriteBack t p) p := by
  obtain ⟨h1, h2, h3, -, -, h6⟩ := granted_keeps t p.ptp
  refine ⟨h1, h2, h3, h6, ?_, ?_, ?_, ?_⟩ <;>
  · unfold grantWriteBack setInFlight captureMark
    cases t <;> rfl

theorem grantBurst_bus (who : Participant) (p : Part) : BusStays (grantBurst who p) p := by
  cases who with
  | port n =>
    unfold grantBurst grantPortBurst
    dsimp only
    repeat' split
    all_goals exact BusStays.refl p
  | cp =>
    unfold grantBurst grantCp
    dsimp only
    split <;> exact BusStays.refl p
  | ae =>
    unfold grantBurst
    dsimp only
    split
    · exact grantWriteBack_bus _ p
    · exact BusStays.refl p
    · exact BusStays.refl p

theorem grantAt_bus (i : Nat) (p : Part) : BusStays (grantAt i p) p := by
  unfold grantAt
  split
  · exact BusStays.refl p
  · next who _ => exact grantBurst_bus who p

/-- A grant leaves what no port operation changes, but for the orderer and the area engine's lists. -/
theorem grantAt_wheels (i : Nat) (p : Part) :
    (grantAt i p).mo.wheel = p.mo.wheel ∧ (grantAt i p).mo.pendingWheel = p.mo.pendingWheel := by
  unfold grantAt
  split
  · exact ⟨rfl, rfl⟩
  · next who _ =>
    cases who <;> simp only [Part.mapMo_mo, grantBurst]
    · unfold grantPortBurst
      repeat' split
      all_goals exact ⟨rfl, rfl⟩
    · unfold grantCp
      split <;> exact ⟨rfl, rfl⟩
    · split <;> exact ⟨rfl, rfl⟩

/-! ### The swap of a wheel -/

theorem retest_fixed (n : Port) (p : Part) : (retest n p).fixed = p.fixed := by
  unfold retest
  split <;> simp

theorem retest_aside {n m : Port} (h : n ≠ m) (p : Part) : (retest n p).aside m = p.aside m := by
  unfold retest
  split <;> simp [h]

theorem retest_quiet {m : Port} (n : Port) (p : Part) (h : quiet m p) : (retest n p).aside m = p.aside m := by
  by_cases e : n = m
  · subst e
    unfold retest
    split
    · next g => have := h.2 g.1; simp [this] at g
    · rfl
  · exact retest_aside e p

theorem foldl_retest_fixed (l : List Port) (p : Part) : (l.foldl (fun p n => retest n p) p).fixed = p.fixed := by
  induction l generalizing p with
  | nil => rfl
  | cons n rest ih => rw [List.foldl_cons, ih, retest_fixed]

theorem foldl_retest_quiet {m : Port} (l : List Port) (p : Part) (h : quiet m p) :
    (l.foldl (fun p n => retest n p) p).aside m = p.aside m := by
  induction l generalizing p with
  | nil => rfl
  | cons n rest ih =>
    have g := retest_quiet n p h
    rw [List.foldl_cons, ih _ (quiet_of_aside g h), g]

/-- The part after the swap's hand-overs, before the ports are tested again. -/
def wheelIn (wheel : List Phase) (p : Part) : Part :=
  reportDevice true (queueWriteBack .wheelCopy (p.mapMo (fun o => { o with wheel := wheel, pendingWheel := none })))

theorem swapWheel_cases (p : Part) :
    (p.mo.pendingWheel = none ∧ swapWheel p = p) ∨
    (∃ w, p.mo.pendingWheel = some w ∧ namesInService p w = true ∧
      swapWheel p = complete .device .ok (budgetAfter true (allPorts.foldl (fun p n => retest n p) (wheelIn w p)))) ∨
    (∃ w, p.mo.pendingWheel = some w ∧ namesInService p w = false ∧
      swapWheel p = complete .device .unnamed
        (reportDevice true (p.mapMo (fun o => { o with pendingWheel := none })))) := by
  unfold swapWheel
  split
  · next h => exact Or.inl ⟨h, rfl⟩
  · next w h =>
    split
    · next g => exact Or.inr (Or.inl ⟨w, h, g, rfl⟩)
    · next g => exact Or.inr (Or.inr ⟨w, h, by simpa using g, rfl⟩)

theorem wheelIn_aside (w : List Phase) (p : Part) (n : Port) : (wheelIn w p).aside n = p.aside n := by
  simp [wheelIn]

theorem swapWheel_aside {n : Port} (p : Part) (h : quiet n p) : (swapWheel p).aside n = p.aside n := by
  rcases swapWheel_cases p with ⟨-, e⟩ | ⟨w, -, -, e⟩ | ⟨w, -, -, e⟩ <;> rw [e]
  · have a := wheelIn_aside w p n
    have f := foldl_retest_quiet allPorts (wheelIn w p) (quiet_of_aside a h)
    rw [complete_aside, budgetAfter_aside _ _ (noEntry_of_aside (f.trans a) h.1), f, a]
  · simp

/-- A swap changes the orderer's wheels and nothing else that no port operation changes. -/
theorem swapWheel_fixed (p : Part) :
    (swapWheel p).fixed.ms = p.fixed.ms ∧ (swapWheel p).fixed.plan = p.fixed.plan ∧ (swapWheel p).mrc = p.mrc ∧
    (swapWheel p).fixed.ptp = p.fixed.ptp ∧ (swapWheel p).fixed.ae = p.fixed.ae ∧
    (swapWheel p).fixed.busy = p.fixed.busy := by
  rcases swapWheel_cases p with ⟨-, e⟩ | ⟨w, -, -, e⟩ | ⟨w, -, -, e⟩ <;> rw [e]
  · simp
  · have f : (complete .device .ok (budgetAfter true (allPorts.foldl (fun p n => retest n p) (wheelIn w p)))).fixed =
        (p.mapMo (fun o => { o with wheel := w, pendingWheel := none })).fixed := by
      rw [complete_fixed, budgetAfter_fixed, foldl_retest_fixed, wheelIn, reportDevice_fixed, queueWriteBack_fixed]
    exact ⟨by rw [f]; rfl, by rw [f]; rfl, (Part.mrc_of_fixed f).trans rfl, by rw [f]; rfl, by rw [f]; rfl, by rw [f]; rfl⟩
  · have f : (complete .device .unnamed (reportDevice true (p.mapMo (fun o => { o with pendingWheel := none })))).fixed =
        (p.mapMo (fun o => { o with pendingWheel := none })).fixed := by
      rw [complete_fixed, reportDevice_fixed]
    exact ⟨by rw [f]; rfl, by rw [f]; rfl, (Part.mrc_of_fixed f).trans rfl, by rw [f]; rfl, by rw [f]; rfl, by rw [f]; rfl⟩

theorem swapAfter_cases (i pointer : Nat) (p : Part) : swapAfter i pointer p = swapWheel p ∨ swapAfter i pointer p = p := by
  unfold swapAfter
  split
  · exact Or.inl rfl
  · exact Or.inr rfl

/-! ### The end of a command -/

theorem moDecision_cases (p : Part) :
    moDecision p = p ∨ ∃ i, p.mo.inFlight = none ∧ stopPhase p = some i ∧
      moDecision p = swapAfter i p.mo.pointer (grantAt i p) := by
  unfold moDecision
  split
  · exact Or.inl rfl
  · next h =>
    split
    · exact Or.inl rfl
    · next i g => exact Or.inr ⟨i, h, g, rfl⟩

theorem moDecision_aside {n : Port} (p : Part) (h : quiet n p) : (moDecision p).aside n = p.aside n := by
  rcases moDecision_cases p with e | ⟨i, -, -, e⟩ <;> rw [e]
  have a := (grantAt_stay i p).aside n
  rcases swapAfter_cases i p.mo.pointer (grantAt i p) with g | g <;> rw [g]
  · rw [swapWheel_aside _ (quiet_of_aside a h), a]
  · exact a

theorem swapWheel_none {p : Part} (h : p.mo.pendingWheel = none) : swapWheel p = p := by
  rcases swapWheel_cases p with ⟨-, e⟩ | ⟨w, g, -⟩ | ⟨w, g, -⟩
  · exact e
  · rw [h] at g; cases g
  · rw [h] at g; cases g

/-- With no wheel pending, a grant decision is the grant alone. -/
theorem swapAfter_none {i pointer : Nat} {p : Part} (h : p.mo.pendingWheel = none) : swapAfter i pointer p = p := by
  rcases swapAfter_cases i pointer p with g | g
  · rw [g, swapWheel_none h]
  · exact g

theorem moDecision_pending {p : Part} (h : p.mo.pendingWheel = none) : (moDecision p).mo.pendingWheel = none := by
  rcases moDecision_cases p with e | ⟨i, -, -, e⟩ <;> rw [e]
  · exact h
  · have w : (grantAt i p).mo.pendingWheel = none := by rw [(grantAt_wheels i p).2, h]
    rw [swapAfter_none w, w]

/-- With no burst pending no participant has a head class (R123). -/
theorem headClass_idle {p : Part} (h : anyPending p = false) (who : Participant) : headClass p who = none := by
  simp only [anyPending, Bool.or_eq_false_iff] at h
  obtain ⟨⟨hc, ha⟩, hl⟩ := h
  cases who with
  | cp => simp only [headClass, hc]; rfl
  | ae => simp only [headClass, ha]; rfl
  | port n =>
    have g := List.any_eq_false.1 hl n (List.mem_finRange n)
    simp only [Bool.not_eq_true, Bool.not_eq_false', List.isEmpty_iff] at g
    simp only [headClass, g]; rfl

theorem scan_idle {p : Part} (h : anyPending p = false) (cls : HeadClass) : scan p cls = none := by
  unfold scan
  rw [List.find?_eq_none]
  intro i _
  split
  · simp only [headClass_idle h]
    exact fun e => nomatch e
  · exact Bool.false_ne_true

/-- With no burst pending no grant decision is made (R126). -/
theorem moDecision_idle {p : Part} (h : anyPending p = false) : moDecision p = p := by
  rcases moDecision_cases p with e | ⟨i, -, g, -⟩
  · exact e
  · unfold stopPhase at g
    rw [scan_idle h, scan_idle h] at g
    split at g <;> cases g

theorem idleSwap_cases (p : Part) :
    (anyPending p = false ∧ idleSwap p = moDecision (swapWheel p)) ∨ (anyPending p = true ∧ idleSwap p = p) := by
  unfold idleSwap
  cases anyPending p
  · exact Or.inl ⟨rfl, rfl⟩
  · exact Or.inr ⟨rfl, rfl⟩

theorem idleSwap_none {p : Part} (h : p.mo.pendingWheel = none) : idleSwap p = p := by
  rcases idleSwap_cases p with ⟨g, e⟩ | ⟨-, e⟩ <;> rw [e]
  rw [swapWheel_none h, moDecision_idle g]

theorem idleSwap_aside {n : Port} (p : Part) (h : quiet n p) : (idleSwap p).aside n = p.aside n := by
  rcases idleSwap_cases p with ⟨-, e⟩ | ⟨-, e⟩ <;> rw [e]
  have w := swapWheel_aside p h
  rw [moDecision_aside _ (quiet_of_aside w h), w]

/-- With no wheel pending, a grant decision leaves the ports and what steers them. -/
theorem moDecision_stay (p : Part) (h : p.mo.pendingWheel = none) : PortsStay (moDecision p) p := by
  rcases moDecision_cases p with e | ⟨i, -, -, e⟩ <;> rw [e]
  · exact PortsStay.refl p
  · have a := grantAt_stay i p
    rw [swapAfter_none (by rw [(grantAt_wheels i p).2, h])]
    exact a

theorem adoptSweep_cases (p : Part) :
    adoptSweep p = p ∨
    adoptSweep p = reportDevice true (p.mapMrc (fun m => { m with adoptionTimer := none })) := by
  unfold adoptSweep
  split
  · exact Or.inr rfl
  · exact Or.inl rfl

@[simp] theorem adoptSweep_aside (p : Part) (n : Port) : (adoptSweep p).aside n = p.aside n := by
  rcases adoptSweep_cases p with e | e <;> rw [e]
  simp

theorem adoptSweep_keeps (p : Part) :
    (adoptSweep p).ports = p.ports ∧ (adoptSweep p).bu = p.bu ∧ (adoptSweep p).ms = p.ms ∧
    (adoptSweep p).lanes = p.lanes ∧ (adoptSweep p).mo = p.mo ∧ (adoptSweep p).ptp = p.ptp := by
  rcases adoptSweep_cases p with e | e <;> rw [e] <;> simp

/-- The end of a command leaves alone every port that no swap of the wheel can admit and no grant can reach. -/
theorem settle_aside {n : Port} (p : Part) (h : quiet n p) : (settle p).aside n = p.aside n := by
  have k := adoptSweep_aside p n
  have m := moDecision_aside _ (quiet_of_aside k h)
  rw [settle, idleSwap_aside _ (quiet_of_aside (m.trans k) h), m, k]

theorem settle_port {n : Port} (p : Part) (h : quiet n p) :
    (settle p).port n = { p.port n with stamp := ((settle p).port n).stamp } := port_of_aside (settle_aside p h)

theorem settle_port_open {n : Port} (p : Part) (h : quiet n p) (g : (p.port n).state.closed = false) :
    (settle p).port n = p.port n := port_of_aside_open (settle_aside p h) g

/-- With no wheel pending, the end of a command is the adoption sweep and a grant decision. -/
theorem settle_none {p : Part} (h : p.mo.pendingWheel = none) : settle p = moDecision (adoptSweep p) := by
  have k : (adoptSweep p).mo.pendingWheel = none := by rw [(adoptSweep_keeps p).2.2.2.2.1, h]
  rw [settle, idleSwap_none (moDecision_pending k)]

/-- With no wheel pending, the end of a command changes no port, no lane, and neither the budget nor the sequencer. -/
theorem settle_stay (p : Part) (h : p.mo.pendingWheel = none) :
    (settle p).ports = p.ports ∧ (settle p).bu = p.bu ∧ (settle p).ms = p.ms ∧ (settle p).lanes = p.lanes := by
  have k := adoptSweep_keeps p
  have g := moDecision_stay (adoptSweep p) (by rw [k.2.2.2.2.1, h])
  rw [settle_none h]
  exact ⟨g.1.trans k.1, g.2.1.trans k.2.1, g.2.2.1.trans k.2.2.1, g.2.2.2.1.trans k.2.2.2.1⟩

end Sys2Proof.Machine
end

