-- ==== Sys2Proof/Laws/Step.lean ====
section
/-! SUPPORT. A command on the part: what it answers, and a quiet port after its event and the end of the command. -/

namespace Sys2Proof.Machine

/-! ### What a command answers -/

theorem onPart_can {can : Part → Bool} {f : Part → Part} {s : State} (h : can s.part = true) :
    onPart can f s = .next { s with part := settle (f s.part) } := by simp [onPart, h]

theorem onPart_cannot {can : Part → Bool} {f : Part → Part} {s : State} (h : can s.part = false) :
    onPart can f s = .next s := by simp [onPart, h]

/-- A command on the part answers a next state with the same memory and the same commands waiting. -/
theorem onPart_next (can : Part → Bool) (f : Part → Part) (s : State) : ∃ q : Part, onPart can f s = .next { s with part := q } := by
  unfold onPart
  split
  · exact ⟨_, rfl⟩
  · exact ⟨s.part, rfl⟩

/-- A property of the part after a command on it holds if it holds where the command takes place and where it cannot. -/
theorem onPart_part {can : Part → Bool} {f : Part → Part} {s t : State} (h : onPart can f s = .next t) :
    (can s.part = true ∧ t = { s with part := settle (f s.part) }) ∨ (can s.part = false ∧ t = s) := by
  unfold onPart at h
  split at h
  · rename_i g; cases h; exact .inl ⟨g, rfl⟩
  · rename_i g; cases h; exact .inr ⟨by simpa using g, rfl⟩

theorem completeBurst_inside {f : InFlight} {fault : Bool} {left : List Byte} {s : State} (h : f.outside = false) :
    completeBurst f fault left s = .next { s with
      mem := memoryAfter f fault left s.mem
      part := afterBurst f fault (s.mem.readBytes f.address f.length) s.part } := by simp [completeBurst, h]

theorem completeBurst_outside {f : InFlight} {fault : Bool} {left : List Byte} {s : State} (h : f.outside = true) :
    completeBurst f fault left s = .fault .outsideMemory := by simp [completeBurst, h]

theorem step_front {s : State} {i : Instr} {rest : List Instr} (h : s.pending = i :: rest) :
    step s = exec i { s with pending := rest } := by simp [step, h]

theorem step_idle {s : State} (h : s.pending = []) : step s = .next s := by simp [step, h]

/-! ### A quiet port after an event and the end of its command -/

/-- What an event leaves of a port that is quiet when the port's part of it is done stands to the end of the command. -/
theorem settle_event_aside {n : Port} {f : Part → Part} (p : Part) (h : quiet n (f p)) :
    (settle (event f p)).aside n = (f p).aside n := by
  have e : (event f p).aside n = (f p).aside n := event_aside p h.1
  rw [settle_aside _ (quiet_of_aside e h), e]

theorem settle_event_port {n : Port} {f : Part → Part} (p : Part) (h : quiet n (f p)) :
    (settle (event f p)).port n = { (f p).port n with stamp := ((settle (event f p)).port n).stamp } :=
  port_of_aside (settle_event_aside p h)

theorem settle_event_port_open {n : Port} {f : Part → Part} (p : Part) (h : quiet n (f p))
    (g : ((f p).port n).state.closed = false) : (settle (event f p)).port n = (f p).port n :=
  port_of_aside_open (settle_event_aside p h) g

theorem settle_event_lane {n : Port} {f : Part → Part} (p : Part) (h : quiet n (f p)) :
    (settle (event f p)).lane n = (f p).lane n := Aside.lane_of (settle_event_aside p h)

/-- An event of another port leaves a quiet port aside to the end of the command. -/
theorem settle_event_other {m : Port} {f : Part → Part} (p : Part) (h : quiet m p) (hf : (f p).aside m = p.aside m) :
    (settle (event f p)).aside m = p.aside m :=
  (settle_event_aside p (quiet_of_aside hf h)).trans hf

theorem settle_other {m : Port} {f : Part → Part} (p : Part) (h : quiet m p) (hf : (f p).aside m = p.aside m) :
    (settle (f p)).aside m = p.aside m := (settle_aside _ (quiet_of_aside hf h)).trans hf

end Sys2Proof.Machine
end

