-- ==== Sys2Proof/Laws/OwnEntry.lean ====
section
/-! SUPPORT. A port that waits in the grant queue with one entry: what the budget unit and the end of the command do with it. It waits on,
or it is granted; its plan, identity, counts and cause stay. -/

namespace Sys2Proof.Machine

/-- What a grant leaves of a port's record. -/
structure Held (r r' : PortRecord) : Prop where
  plan : r'.plan = r.plan
  identity : r'.identity = r.identity
  cause : r'.cause = r.cause
  restartCount : r'.restartCount = r.restartCount
  onTime : r'.onTime = r.onTime
  left : r'.flags.left = r.flags.left
  trips : r'.trips = r.trips
  checkErrors : r'.checkErrors = r.checkErrors
  overruns : r'.overruns = r.overruns
  deferred : r'.deferred = r.deferred

theorem Held.refl (r : PortRecord) : Held r r := ⟨rfl, rfl, rfl, rfl, rfl, rfl, rfl, rfl, rfl, rfl⟩

theorem Held.trans {r r' r'' : PortRecord} (h : Held r r') (g : Held r' r'') : Held r r'' :=
  ⟨g.plan.trans h.plan, g.identity.trans h.identity, g.cause.trans h.cause, g.restartCount.trans h.restartCount,
    g.onTime.trans h.onTime, g.left.trans h.left, g.trips.trans h.trips, g.checkErrors.trans h.checkErrors,
    g.overruns.trans h.overruns, g.deferred.trans h.deferred⟩

theorem Held.of_stamp {r r' : PortRecord} (h : r' = { r with stamp := r'.stamp }) : Held r r' := by
  rw [h]; exact ⟨rfl, rfl, rfl, rfl, rfl, rfl, rfl, rfl, rfl, rfl⟩

theorem Held.of_aside {n : Port} {p q : Part} (h : q.aside n = p.aside n) : Held (p.port n) (q.port n) :=
  Held.of_stamp (port_of_aside h)

theorem Held.of_entered {st : PortState} {r r' : PortRecord} (h : Entered st r r') : Held r r' :=
  ⟨h.plan, h.identity, h.cause, h.restartCount, h.onTime, h.left, h.trips, h.checkErrors, h.overruns, h.deferred⟩

/-- The port waits in QUEUED with this entry alone. -/
def Waits (n : Port) (e : Entry) (p : Part) : Prop :=
  (p.port n).state = .queued ∧ p.bu.queue.filter (fun x => x.port == n) = [e]

/-- The entry was granted: the port's state and grant are the kind's (R58), and it holds no entry. -/
def Granted (n : Port) (e : Entry) (p : Part) : Prop :=
  (p.port n).state = (match e.kind with | .probe => .probe | .full => .ramp) ∧
  (p.port n).grant = (match e.kind with | .probe => Config.probeCu | .full => e.asked) ∧ noEntry n p

theorem Waits.of_aside {n : Port} {e : Entry} {p q : Part} (h : q.aside n = p.aside n) (g : Waits n e p) :
    Waits n e q := by
  refine ⟨?_, ?_⟩
  · rw [port_of_aside h]; exact g.1
  · rw [Aside.entries_of h]; exact g.2

theorem Granted.of_aside {n : Port} {e : Entry} {p q : Part} (h : q.aside n = p.aside n) (g : Granted n e p) :
    Granted n e q := by
  refine ⟨?_, ?_, noEntry_of_aside h g.2.2⟩
  · rw [port_of_aside h]; exact g.1
  · rw [port_of_aside h]; exact g.2.1

theorem Granted.quiet {n : Port} {e : Entry} {p : Part} (g : Granted n e p) : quiet n p := by
  refine ⟨g.2.2, fun h => ?_⟩
  rw [g.1] at h
  revert h
  cases e.kind <;> simp

/-- Waiting on or granted, with the rest of the record as it was. -/
def WaitsOrGranted (n : Port) (e : Entry) (r : PortRecord) (p : Part) : Prop :=
  (Waits n e p ∨ Granted n e p) ∧ Held r (p.port n)

theorem WaitsOrGranted.of_aside {n : Port} {e : Entry} {r : PortRecord} {p q : Part} (h : q.aside n = p.aside n)
    (g : WaitsOrGranted n e r p) : WaitsOrGranted n e r q :=
  ⟨g.1.imp (Waits.of_aside h) (Granted.of_aside h), g.2.trans (Held.of_aside h)⟩

/-! ### One grant -/

theorem setFlags_waits {n : Port} {e : Entry} {p : Part} (f : Flags → Flags) (hf : ∀ x, (f x).left = x.left)
    (h : Waits n e p) : Waits n e (setFlags n f p) ∧ Held (p.port n) ((setFlags n f p).port n) := by
  refine ⟨⟨?_, ?_⟩, ?_⟩
  · rw [setFlags_port_self]; exact h.1
  · rw [setFlags_bu]; exact h.2
  · rw [setFlags_port_self]
    exact ⟨rfl, rfl, rfl, rfl, rfl, hf _, rfl, rfl, rfl, rfl⟩

theorem preempt_waits {n : Port} {e : Entry} {p : Part} (x : Entry) (h : Waits n e p) :
    WaitsOrGranted n e (p.port n) (preempt x p) := by
  rcases preempt_cases x p with g | g
  · exact WaitsOrGranted.of_aside (g.aside n) ⟨.inl h, Held.refl _⟩
  · rw [g]
    by_cases hx : x.port = n
    · rw [hx]
      have k := setFlags_waits (fun f => { f with short := true }) (fun _ => rfl) h
      exact ⟨.inl k.1, k.2⟩
    · exact WaitsOrGranted.of_aside (setFlags_aside hx _ p) ⟨.inl h, Held.refl _⟩

theorem dropEntry_held (n : Port) (p : Part) : Held (p.port n) ((dropEntry n p).port n) := by
  unfold dropEntry
  split
  · rw [setFlags_port_self]; exact ⟨rfl, rfl, rfl, rfl, rfl, rfl, rfl, rfl, rfl, rfl⟩
  · exact Held.refl _

theorem stampFrom_held (n : Port) (k : Nat) (l : List Port) (p : Part) : Held (p.port n) ((stampFrom k l p).port n) := by
  induction l generalizing k p with
  | nil => exact Held.refl _
  | cons m rest ih =>
    refine Held.trans ?_ (ih _ _)
    by_cases h : m = n
    · subst h; rw [updPort_port_self]; exact ⟨rfl, rfl, rfl, rfl, rfl, rfl, rfl, rfl, rfl, rfl⟩
    · rw [updPort_port_ne h]; exact Held.refl _

theorem stamp_held (n m : Port) (k : Nat) (p q : Part) (h : q.port n = p.port n) :
    Held (p.port n) ((updPort m (fun r => { r with stamp := k }) q).port n) := by
  by_cases e : m = n
  · subst e; rw [updPort_port_self, h]; exact ⟨rfl, rfl, rfl, rfl, rfl, rfl, rfl, rfl, rfl, rfl⟩
  · rw [updPort_port_ne e, h]; exact Held.refl _

theorem giveStamp_held (n m : Port) (p : Part) : Held (p.port n) ((giveStamp m p).port n) := by
  unfold giveStamp
  dsimp only
  split
  · have a : Held (p.port n) ((renumber p).port n) := by
      rw [renumber, Part.mapBu_port]; exact stampFrom_held n 1 _ p
    exact a.trans (stamp_held n m _ (renumber p) _ (Part.mapBu_port _ _ n))
  · exact stamp_held n m _ p _ (Part.mapBu_port _ _ n)

theorem moveTo_noEntry (n : Port) (st : PortState) (p : Part) : noEntry n (moveTo n st p) := by
  intro e he
  rw [moveTo_queue] at he
  simpa using (List.mem_filter.1 he).2

theorem retime_held (r : PortRecord) (g : Nat) (t : PortTimers) : Held r { r with grant := g, timers := t } :=
  ⟨rfl, rfl, rfl, rfl, rfl, rfl, rfl, rfl, rfl, rfl⟩

/-- The port's side of a grant (R10, R13). -/
theorem grantPort_own (e : Entry) (q : Part) :
    Granted e.port e (grantPort e q) ∧ Held (q.port e.port) ((grantPort e q).port e.port) := by
  unfold grantPort Granted
  cases hk : e.kind with
  | probe =>
    dsimp only
    have m := moveTo_port_self e.port .probe q
    have port : (setTimers e.port (fun t => { t with hello := some Config.helloMs })
        (setGrant e.port Config.probeCu (moveTo e.port .probe q))).port e.port =
        { (moveTo e.port .probe q).port e.port with
          grant := Config.probeCu, timers := { stoppedTimers with hello := some Config.helloMs } } := by
      rw [setTimers, updPort_port_self, setGrant_port_self, m.timers]
    rw [port]
    generalize (moveTo e.port .probe q).port e.port = r at m
    refine ⟨⟨m.state, rfl, ?_⟩, (Held.of_entered m).trans (retime_held r _ _)⟩
    intro x hx; rw [setTimers, updPort_bu, setGrant_bu] at hx; exact moveTo_noEntry e.port .probe q x hx
  | full =>
    dsimp only
    have m := moveTo_port_self e.port .ramp q
    have port : (clearCounts e.port (setTimers e.port (fun t => { t with ramp := some Config.rampMs })
        (setGrant e.port e.asked (moveTo e.port .ramp q)))).port e.port =
        { (moveTo e.port .ramp q).port e.port with
          grant := e.asked, timers := { stoppedTimers with ramp := some Config.rampMs } } := by
      rw [clearCounts, Part.mapMs_port, setTimers, updPort_port_self, setGrant_port_self, m.timers]
    rw [port]
    generalize (moveTo e.port .ramp q).port e.port = r at m
    refine ⟨⟨m.state, rfl, ?_⟩, (Held.of_entered m).trans (retime_held r _ _)⟩
    intro x hx
    rw [clearCounts, Part.mapMs_bu, setTimers, updPort_bu, setGrant_bu] at hx
    exact moveTo_noEntry e.port .ramp q x hx

/-- The granted port (R58). -/
theorem grant_own {n : Port} {e : Entry} (p : Part) (h : e.port = n) :
    Granted n e (grant e p) ∧ Held (p.port n) ((grant e p).port n) := by
  subst h
  have g := grantPort_own e (giveStamp e.port (dropEntry e.port p))
  exact ⟨g.1, ((dropEntry_held e.port p).trans (giveStamp_held e.port e.port _)).trans g.2⟩

/-! ### A grant decision -/

theorem walk_own {n : Port} {e : Entry} (l : List Entry) (p : Part)
    (hl : l.filter (fun x => x.port == n) = [e] ∨ l.filter (fun x => x.port == n) = []) (h : Waits n e p) :
    WaitsOrGranted n e (p.port n) (walk l p) := by
  induction l generalizing p with
  | nil => exact ⟨.inl h, Held.refl _⟩
  | cons x rest ih =>
    have tail : ∀ k, (x :: rest).filter (fun y => y.port == n) = k → x.port ≠ n →
        rest.filter (fun y => y.port == n) = k := by
      intro k hk hx; rwa [List.filter_cons_of_neg (by simpa using hx)] at hk
    by_cases hx : x.port = n
    · have hx' : (x.port == n) = true := by simpa using hx
      have hcase : x = e ∧ rest.filter (fun y => y.port == n) = [] := by
        rcases hl with hl | hl
        · rw [List.filter_cons_of_pos (p := fun y : Entry => y.port == n) hx'] at hl
          simpa using hl
        · rw [List.filter_cons_of_pos (p := fun y : Entry => y.port == n) hx'] at hl
          simp at hl
      obtain ⟨rfl, hrest⟩ := hcase
      have hno : ∀ y ∈ rest, y.port ≠ n := by
        simpa [List.filter_eq_nil_iff] using hrest
      unfold walk
      repeat' split
      · exact ih p (.inr hrest) h
      · have g := grant_own p hx
        exact WaitsOrGranted.of_aside (walk_aside rest _ n hno) ⟨.inr g.1, g.2⟩
      · exact preempt_waits x h
      · exact ⟨.inl h, Held.refl _⟩
    · have hl' : rest.filter (fun y => y.port == n) = [e] ∨ rest.filter (fun y => y.port == n) = [] :=
        hl.imp (fun k => tail _ k hx) (fun k => tail _ k hx)
      unfold walk
      repeat' split
      · exact ih p hl' h
      · have a := grant_aside hx p
        have w := ih (grant x p) hl' (Waits.of_aside a h)
        exact ⟨w.1, (Held.of_aside a).trans w.2⟩
      · exact preempt_waits x h
      · exact ⟨.inl h, Held.refl _⟩

theorem markCoverage_own {n : Port} {e : Entry} (l : List Entry) (p : Part) (h : Waits n e p) :
    Waits n e (markCoverage l p) ∧ Held (p.port n) ((markCoverage l p).port n) := by
  induction l generalizing p with
  | nil => exact ⟨h, Held.refl _⟩
  | cons x rest ih =>
    unfold markCoverage
    have step : Waits n e (setFlags x.port (fun f => { f with unwatched := !covered p x.port }) p) ∧
        Held (p.port n) ((setFlags x.port (fun f => { f with unwatched := !covered p x.port }) p).port n) := by
      by_cases hx : x.port = n
      · rw [hx]; exact setFlags_waits (fun f => { f with unwatched := !covered p n }) (fun _ => rfl) h
      · have a := setFlags_aside hx (fun f => { f with unwatched := !covered p x.port }) p
        exact ⟨Waits.of_aside a h, Held.of_aside a⟩
    exact ⟨(ih _ step.1).1, step.2.trans (ih _ step.1).2⟩

/-- Queue order holds a port's only entry once. -/
theorem queueOrder_own {n : Port} {e : Entry} {queue : List Entry} (h : queue.filter (fun x => x.port == n) = [e]) :
    (queueOrder queue).filter (fun x => x.port == n) = [e] := by
  have one : ∀ k : Nat, (queue.filter (fun x => x.priority.1 == k)).filter (fun x => x.port == n) =
      [e].filter (fun x => x.priority.1 == k) := by
    intro k; rw [List.filter_filter, ← h, List.filter_filter]
    congr 1
    funext x
    rw [Bool.and_comm]
  unfold queueOrder
  rw [List.filter_flatMap]
  simp only [one]
  have hp : e.priority.1 < 8 := e.priority.2
  generalize e.priority.1 = k at hp
  simp only [List.flatMap_cons, List.flatMap_nil, List.filter_cons, List.filter_nil]
  have : ∀ k : Fin 8, e.priority = k → ([7, 6, 5, 4, 3, 2, 1, 0].flatMap
      (fun j : Nat => if (e.priority.1 == j) = true then [e] else [])) = [e] := by
    intro k hk
    rw [hk]
    fin_cases k <;> rfl
  simpa using this e.priority rfl

theorem grantDecision_own {n : Port} {e : Entry} (p : Part) (h : Waits n e p) :
    WaitsOrGranted n e (p.port n) (grantDecision p) := by
  unfold grantDecision
  dsimp only
  have m := markCoverage_own (queueOrder p.bu.queue) p h
  split
  · exact ⟨.inl m.1, m.2⟩
  · have w := walk_own (queueOrder (markCoverage (queueOrder p.bu.queue) p).bu.queue) _ (.inl (queueOrder_own m.1.2)) m.1
    exact ⟨w.1, m.2.trans w.2⟩

theorem budgetAfter_own {n : Port} {e : Entry} (trigger : Bool) (p : Part) (h : Waits n e p) :
    WaitsOrGranted n e (p.port n) (budgetAfter trigger p) := by
  have b := (beforeDecision_keeps p).2.1 n
  have hb := Waits.of_aside b h
  rcases budgetAfter_eq trigger p with g | g <;> rw [g]
  · exact WaitsOrGranted.of_aside ((shortfallTest_keeps _).2.1 n) ⟨.inl hb, Held.of_aside b⟩
  · have d := grantDecision_own _ hb
    exact WaitsOrGranted.of_aside ((shortfallTest_keeps _).2.1 n) ⟨d.1, (Held.of_aside b).trans d.2⟩

/-! ### The end of the command -/

theorem foldl_retest_waits {n : Port} {e : Entry} (l : List Port) (p : Part) (h : Waits n e p) :
    (l.foldl (fun p n => retest n p) p).aside n = p.aside n := by
  induction l generalizing p with
  | nil => rfl
  | cons m rest ih =>
    have a : (retest m p).aside n = p.aside n := by
      by_cases hm : m = n
      · subst hm
        unfold retest
        rw [if_neg (by rw [h.1]; simp)]
      · exact retest_aside hm p
    rw [List.foldl_cons, ih _ (Waits.of_aside a h), a]

theorem swapWheel_own {n : Port} {e : Entry} (p : Part) (h : Waits n e p) :
    WaitsOrGranted n e (p.port n) (swapWheel p) := by
  rcases swapWheel_cases p with ⟨-, g⟩ | ⟨w, -, -, g⟩ | ⟨w, -, -, g⟩ <;> rw [g]
  · exact ⟨.inl h, Held.refl _⟩
  · have a : (allPorts.foldl (fun p n => retest n p) (wheelIn w p)).aside n = p.aside n :=
      (foldl_retest_waits allPorts _ (Waits.of_aside (wheelIn_aside w p n) h)).trans (wheelIn_aside w p n)
    have b := budgetAfter_own true _ (Waits.of_aside a h)
    exact WaitsOrGranted.of_aside (complete_aside ..) ⟨b.1, (Held.of_aside a).trans b.2⟩
  · exact WaitsOrGranted.of_aside (p := p) (by simp) ⟨.inl h, Held.refl _⟩

theorem WaitsOrGranted.swapWheel {n : Port} {e : Entry} {r : PortRecord} {p : Part} (h : WaitsOrGranted n e r p) :
    WaitsOrGranted n e r (swapWheel p) := by
  rcases h.1 with w | g
  · have o := swapWheel_own p w
    exact ⟨o.1, h.2.trans o.2⟩
  · exact WaitsOrGranted.of_aside (swapWheel_aside p g.quiet) h

theorem WaitsOrGranted.moDecision {n : Port} {e : Entry} {r : PortRecord} {p : Part} (h : WaitsOrGranted n e r p) :
    WaitsOrGranted n e r (moDecision p) := by
  rcases moDecision_cases p with k | ⟨i, -, -, k⟩ <;> rw [k]
  · exact h
  · have b := WaitsOrGranted.of_aside ((grantAt_stay i p).aside n) h
    rcases swapAfter_cases i p.mo.pointer (grantAt i p) with s | s <;> rw [s]
    · exact b.swapWheel
    · exact b

theorem settle_own {n : Port} {e : Entry} {r : PortRecord} (p : Part) (h : WaitsOrGranted n e r p) :
    WaitsOrGranted n e r (settle p) := by
  have d := (WaitsOrGranted.of_aside (adoptSweep_aside p n) h).moDecision
  rw [settle]
  rcases idleSwap_cases (Machine.moDecision (adoptSweep p)) with ⟨-, k⟩ | ⟨-, k⟩ <;> rw [k]
  · exact d.swapWheel.moDecision
  · exact d

/-- A port waiting with one entry after its event waits on or has been granted at the end of the command. -/
theorem settle_event_own {n : Port} {e : Entry} {f : Part → Part} (p : Part) (h : Waits n e (f p)) :
    WaitsOrGranted n e ((f p).port n) (settle (event f p)) := settle_own _ (budgetAfter_own _ _ h)

/-! ### A port sent to the queue -/

theorem refreshAsk_held (r : PortRecord) : Held r r.refreshAsk := by
  unfold PortRecord.refreshAsk
  repeat' split
  all_goals exact ⟨rfl, rfl, rfl, rfl, rfl, rfl, rfl, rfl, rfl, rfl⟩

theorem refreshAsk_state (r : PortRecord) : r.refreshAsk.state = r.state := by
  unfold PortRecord.refreshAsk
  repeat' split
  all_goals rfl

/-- Outside DRAIN the entry a port gets in QUEUED is the entry of its own plan (R2, R21). -/
theorem newEntry_queued (n : Port) (k : EntryKind) {r : PortRecord} (h : r.state ≠ .drain) :
    newEntry n k { r with state := .queued } = newEntry n k r := by
  have l : r.laneUseNow = r.plan.laneUse := by
    unfold PortRecord.laneUseNow
    split
    · next s _ => exact absurd s h
    · rfl
  have f : PortRecord.fullRequest { r with state := .queued } = r.fullRequest := by
    unfold PortRecord.fullRequest; rw [l]; rfl
  unfold newEntry; rw [f]

/-- A port outside a reset hold and outside standby waits in QUEUED with the entry of its plan (R8, R52). -/
theorem toQueued_waits (n : Port) (p : Part) (h : p.mrc.phase = .running) (g : p.mrc.standby = false) :
    Waits n (newEntry n (entryKind (p.port n)) { p.port n with state := .queued }) (toQueued n p) ∧
    Held (p.port n) ((toQueued n p).port n) := by
  have hh : p.inHold = false := by simp [Part.inHold, h]
  have m := moveTo_port_self n .queued p
  have hm := Held.of_entered m
  have q0 : (moveTo n .queued p).bu.queue.filter (fun x => x.port == n) = [] := by
    rw [List.filter_eq_nil_iff]
    intro x hx; simpa using moveTo_noEntry n .queued p x hx
  have hkind : entryKind ((moveTo n .queued p).port n) = entryKind (p.port n) := by simp only [entryKind, m.plan]
  unfold toQueued
  rw [hh, g]
  simp only [Bool.false_eq_true, if_false]
  rw [hkind]
  unfold joinQueue
  cases hk : entryKind (p.port n) with
  | probe =>
    refine ⟨⟨by simp [m.state], ?_⟩, by simpa using hm⟩
    simp only [Part.mapBu_bu, List.filter_append, q0, List.nil_append]
    simp [newEntry, m.plan]
  | full =>
    refine ⟨⟨by simp [m.state, refreshAsk_state], ?_⟩, by simpa using hm.trans (refreshAsk_held _)⟩
    have hr := refreshAsk_held ((moveTo n .queued p).port n)
    simp only [Part.mapBu_bu, updPort_bu, List.filter_append, q0, List.nil_append, updPort_port_self]
    simp [newEntry, PortRecord.fullRequest, PortRecord.laneUseNow, refreshAsk_state, hr.plan, hr.identity, m.state, m.plan, m.identity]

/-- In standby the port is parked instead (R192), in a reset hold it goes to OFF (R183). -/
theorem toQueued_elsewhere (n : Port) (p : Part) :
    (p.mrc.phase ≠ .running → toQueued n p = moveTo n .off p) ∧
    (p.mrc.phase = .running → p.mrc.standby = true → toQueued n p = moveTo n .parked p) := by
  refine ⟨fun h => ?_, fun h g => ?_⟩
  · have hh : p.inHold = true := by simp [Part.inHold, h]
    simp [toQueued, hh]
  · have hh : p.inHold = false := by simp [Part.inHold, h]
    simp [toQueued, hh, g]

end Sys2Proof.Machine
end

