-- ==== Sys2Proof/Laws/SequencerOps.lean ====
section
/-! SUPPORT. What the sequencer's operations can change: they leave aside every port that holds no entry of the grant queue and is not the
port of the sample. -/

namespace Sys2Proof.Machine

/-! ### Modes and rounds -/

theorem setMode_aside {n : Port} (mode : SeqMode) (p : Part) (h : noEntry n p) : (setMode mode p).aside n = p.aside n := by
  unfold setMode
  dsimp only
  have a : (reportDevice true (p.mapMs (fun m => { m with mode := mode }))).aside n = p.aside n := by simp
  repeat' split
  · rfl
  · rw [budgetAfter_aside _ _ (noEntry_of_aside a h), a]
  · exact a

@[simp] theorem beginRound_aside (n : Port) (p : Part) : (beginRound p).aside n = p.aside n := rfl

@[simp] theorem reportResults_aside (n : Port) (p : Part) : (reportResults p).aside n = p.aside n := queueWriteBack_aside _ _ _

@[simp] theorem endCommand_aside (n : Port) (p : Part) : (endCommand p).aside n = p.aside n := by simp [endCommand]

@[simp] theorem beginCalibration_aside (n : Port) (p : Part) : (beginCalibration p).aside n = p.aside n := rfl

theorem swapSequence_aside {n : Port} (p : Part) (h : noEntry n p) : (swapSequence p).aside n = p.aside n := by
  unfold swapSequence
  split
  · rfl
  · split
    · next q _ _ =>
      have a : (reportDevice true (p.mapMs (Sequencer.swap q))).aside n = p.aside n := by simp
      rw [complete_aside, budgetAfter_aside _ _ (noEntry_of_aside a h), a]
    · simp

theorem onceRoundEnd_aside {n : Port} (p : Part) (h : noEntry n p) : (onceRoundEnd p).aside n = p.aside n := by
  unfold onceRoundEnd
  split
  · rw [endCommand_aside]
    have a : (p.mapMs (fun m => { m with onceRounds := 0, current := none })).aside n = p.aside n := rfl
    rw [setMode_aside _ _ (noEntry_of_aside a h), a]
  · rfl

theorem roundEnd_aside {n : Port} (p : Part) (h : noEntry n p) : (roundEnd p).aside n = p.aside n := by
  have a : (reportResults p).aside n = p.aside n := by simp
  have g := noEntry_of_aside a h
  unfold roundEnd
  dsimp only
  split
  · rw [beginRound_aside, swapSequence_aside _ g, a]
  · rw [beginCalibration_aside, a]
  · rw [onceRoundEnd_aside _ g, a]
  · exact a
  · exact a

/-- The end of a slot leaves aside every port without an entry. -/
theorem slotEnd_aside {n : Port} (p : Part) (h : noEntry n p) : (slotEnd p).aside n = p.aside n := by
  unfold slotEnd
  repeat' split
  · rfl
  · rw [endCommand_aside]; rfl
  · exact roundEnd_aside p h
  · rfl

theorem abandonedEnd_aside {n : Port} (p : Part) (h : noEntry n p) : (abandonedEnd p).aside n = p.aside n := by
  have a : (p.mapMs (fun m => { m with calibration := none })).aside n = p.aside n := rfl
  unfold abandonedEnd
  dsimp only
  repeat' split
  · rfl
  · rw [setMode_aside, beginRound_aside, a]
    exact noEntry_of_aside (beginRound_aside n _ |>.trans a) h
  · rfl
  · rfl
  · rw [endCommand_aside, a]
  · exact a

theorem calibrated_aside {n : Port} (sum : Nat) (p : Part) (h : noEntry n p) : (calibrated sum p).aside n = p.aside n := by
  unfold calibrated
  dsimp only
  rw [endCommand_aside, setRequest_aside]
  split
  · exact setMode_aside _ _ (show noEntry n _ from h)
  · rfl

theorem calibrationConverted_aside {n : Port} (reading : Nat) (p : Part) (h : noEntry n p) :
    (calibrationConverted reading p).aside n = p.aside n := by
  unfold calibrationConverted
  repeat' split
  · rfl
  · exact abandonedEnd_aside p h
  · exact calibrated_aside _ p h
  · rfl

/-! ### Samples -/

@[simp] theorem keepResult_aside (n : Port) (result : Int) (p : Part) : (keepResult result p).aside n = p.aside n := by
  unfold keepResult
  split <;> rfl

@[simp] theorem overTest_aside {n m : Port} (h : n ≠ m) (sample : Nat) (p : Part) :
    (overTest n sample p).aside m = p.aside m := by
  unfold overTest
  dsimp only
  split
  · rw [failPort_aside h, mapMs_aside]
  · rfl

@[simp] theorem rampDone_aside {n m : Port} (h : n ≠ m) (p : Part) : (rampDone n p).aside m = p.aside m := by
  unfold rampDone
  split
  · rw [setTimers_aside h, moveTo_aside h]
  · rfl

@[simp] theorem rampTest_aside {n m : Port} (h : n ≠ m) (sample : Nat) (p : Part) :
    (rampTest n sample p).aside m = p.aside m := by
  unfold rampTest
  repeat' split
  · rfl
  · rw [rampDone_aside h, mapMs_aside]
  · rfl

@[simp] theorem judgeSample_aside {n m : Port} (h : n ≠ m) (sample : Nat) (p : Part) :
    (judgeSample n sample p).aside m = p.aside m := by
  unfold judgeSample
  repeat' split
  · exact rampTest_aside h sample p
  · exact overTest_aside h sample p
  · rfl

/-- A PORT_I sample leaves the other ports aside. -/
@[simp] theorem portSample_aside {n m : Port} (h : n ≠ m) (reading : Nat) (p : Part) :
    (portSample n reading p).aside m = p.aside m := by
  unfold portSample
  dsimp only
  split
  · exact keepResult_aside m _ p
  · rw [judgeSample_aside h, reportPort_aside, mapAe_aside, keepResult_aside]

@[simp] theorem updSteps_aside (n : Port) (f : Sequencer → Sequencer) (p : Part) : (updSteps f p).aside n = p.aside n := by
  unfold updSteps
  split
  · rfl
  · rw [reportDevice_aside, mapMs_aside]

@[simp] theorem voltageSample_aside (n : Port) (millivolts : Nat) (p : Part) :
    (voltageSample millivolts p).aside n = p.aside n := by
  unfold voltageSample
  dsimp only
  split <;> simp

@[simp] theorem temperatureSample_aside (n : Port) (celsius : Int) (p : Part) :
    (temperatureSample celsius p).aside n = p.aside n := by
  unfold temperatureSample
  dsimp only
  split <;> simp

@[simp] theorem offsetSlot_aside (n : Port) (reading : Nat) (p : Part) : (offsetSlot reading p).aside n = p.aside n :=
  keepResult_aside n _ p

end Sys2Proof.Machine
end

