-- ==== Sys2Proof/Laws/PortLaws.lean ====
section
/-! SUPPORT. The laws of the port table and the grant queue, port by port: which operations keep them, and which bring them
about. One predicate of one port covers `openLaw`, `queueLaw`, `coverageLaw` and the ports' share of `wheelLaw`; `Terms` says
which of them are asked for. -/

namespace Sys2Proof.Machine

/-- Which laws are asked for, and what covers and names a port. -/
structure Terms where
  openZero : Prop
  queued : Prop
  drainHeld : Prop
  covered : Port → Prop
  named : Port → Prop

/-- The entries a port of a state may hold in the grant queue (R50). -/
def entriesFit (st : PortState) (es : List Entry) : Prop :=
  match st with
  | .queued => ∃ e, es = [e]
  | .probe => es = [] ∨ ∃ e, es = [e] ∧ e.kind = .full
  | _ => es = []

/-- The laws at one port's record and entries. -/
structure RecordOk (t : Terms) (n : Port) (r : PortRecord) (es : List Entry) : Prop where
  grant : t.openZero → r.state.closed = false → r.grant = 0
  cover : r.state.closed = true → t.covered n
  name : mustName r = true → t.named n
  drain : t.drainHeld → r.state = .drain → r.drain.isSome = true
  entries : t.queued → entriesFit r.state es

/-- The port's entries in the grant queue. -/
def Part.entriesOf (n : Port) (p : Part) : List Entry := p.bu.queue.filter (fun e => e.port == n)

/-- The laws at one port. -/
def okAt (t : Terms) (n : Port) (p : Part) : Prop := RecordOk t n (p.port n) (p.entriesOf n)

/-- The laws at every port. -/
def allOk (t : Terms) (p : Part) : Prop := ∀ n, okAt t n p

/-- What the running sequence covers and the active wheel names is within the terms. -/
structure Within (t : Terms) (p : Part) : Prop where
  covered : ∀ n, covered p n = true → t.covered n
  named : ∀ n, names p.mo.wheel n = true → t.named n

theorem covered_of_fixed {p q : Part} (h : q.fixed = p.fixed) (n : Port) : covered q n = covered p n := by
  simp only [Machine.covered, Part.mode_of_fixed h, Part.active_of_fixed h]

theorem Within.of_fixed {t : Terms} {p q : Part} (h : q.fixed = p.fixed) (g : Within t p) : Within t q :=
  ⟨fun n c => g.covered n (by rw [← covered_of_fixed h]; exact c),
   fun n c => g.named n (by rw [← Part.wheel_of_fixed h]; exact c)⟩

theorem mustName_iff (r : PortRecord) : mustName r = true ↔
    ((r.state = .on ∨ r.state = .orphan) ∧ r.plan.laneUse = .expected) ∨
    (r.state = .drain ∧ ∃ d, r.drain = some d ∧ d.laneUse = .expected) := by
  unfold mustName
  cases hs : r.state <;> cases hd : r.drain <;> simp

theorem mustName_congr {r r' : PortRecord} (s : r'.state = r.state) (d : r'.drain = r.drain)
    (l : r'.plan.laneUse = r.plan.laneUse) : mustName r' = mustName r := by
  unfold mustName; rw [s, d, l]

/-- The laws at a port look at its state, grant, lane use, drain and entries alone. -/
theorem RecordOk.congr {t : Terms} {n : Port} {r r' : PortRecord} {es : List Entry} (h : RecordOk t n r es)
    (s : r'.state = r.state) (g : r'.grant = r.grant) (d : r'.drain = r.drain)
    (l : r'.plan.laneUse = r.plan.laneUse) : RecordOk t n r' es :=
  ⟨by rw [s, g]; exact h.grant, by rw [s]; exact h.cover, by rw [mustName_congr s d l]; exact h.name,
   by rw [s, d]; exact h.drain, by rw [s]; exact h.entries⟩

theorem okAt_of_aside {t : Terms} {n : Port} {p q : Part} (h : q.aside n = p.aside n) (g : okAt t n p) : okAt t n q := by
  have e : q.entriesOf n = p.entriesOf n := Aside.entries_of h
  have r := port_of_aside h
  unfold okAt
  rw [e, r]
  exact g.congr rfl rfl rfl rfl

/-- An operation of one port keeps the laws at every port if it keeps them at its own. -/
theorem allOk_of_own {t : Terms} {n : Port} {p q : Part} (h : allOk t p) (a : ∀ m, n ≠ m → q.aside m = p.aside m)
    (o : okAt t n q) : allOk t q := by
  intro m
  by_cases e : n = m
  · subst e; exact o
  · exact okAt_of_aside (a m e) (h m)

theorem allOk_of_aside {t : Terms} {p q : Part} (h : allOk t p) (a : ∀ m, q.aside m = p.aside m) : allOk t q :=
  fun m => okAt_of_aside (a m) (h m)

theorem allOk_of_stay {t : Terms} {p q : Part} (h : allOk t p) (a : PortsStay q p) : allOk t q :=
  allOk_of_aside h a.aside

/-! ### Changes of one port -/

@[simp] theorem updPort_entriesOf (n m : Port) (f : PortRecord → PortRecord) (p : Part) :
    (updPort n f p).entriesOf m = p.entriesOf m := by simp [Part.entriesOf]

theorem okAt_updPort {t : Terms} {n : Port} {f : PortRecord → PortRecord} {p : Part}
    (h : RecordOk t n (f (p.port n)) (p.entriesOf n)) : okAt t n (updPort n f p) := by
  unfold okAt; rw [updPort_port_self, updPort_entriesOf]; exact h

/-- A change of a record that keeps its state, grant, drain and lane use. -/
theorem okAt_updPort_kept {t : Terms} {n : Port} {f : PortRecord → PortRecord} {p : Part} (h : okAt t n p)
    (s : (f (p.port n)).state = (p.port n).state) (g : (f (p.port n)).grant = (p.port n).grant)
    (d : (f (p.port n)).drain = (p.port n).drain) (l : (f (p.port n)).plan.laneUse = (p.port n).plan.laneUse) :
    okAt t n (updPort n f p) := okAt_updPort (h.congr s g d l)

theorem okAt_of_port {t : Terms} {n : Port} {p q : Part} (h : okAt t n p) (r : q.port n = p.port n)
    (e : q.bu.queue = p.bu.queue) : okAt t n q := by
  unfold okAt Part.entriesOf; rw [r, e]; exact h

@[simp] theorem okAt_mapMs {t : Terms} {n : Port} {f : Sequencer → Sequencer} {p : Part} (h : okAt t n p) : okAt t n (p.mapMs f) := h
@[simp] theorem okAt_mapMo {t : Terms} {n : Port} {f : Orderer → Orderer} {p : Part} (h : okAt t n p) : okAt t n (p.mapMo f) := h
@[simp] theorem okAt_mapPtp {t : Terms} {n : Port} {f : PassThrough → PassThrough} {p : Part} (h : okAt t n p) : okAt t n (p.mapPtp f) := h
@[simp] theorem okAt_mapAe {t : Terms} {n : Port} {f : AreaEngine → AreaEngine} {p : Part} (h : okAt t n p) : okAt t n (p.mapAe f) := h
@[simp] theorem okAt_mapMrc {t : Terms} {n : Port} {f : ModeReset → ModeReset} {p : Part} (h : okAt t n p) : okAt t n (p.mapMrc f) := h
@[simp] theorem okAt_updLane {t : Terms} {n m : Port} {f : Lane → Lane} {p : Part} (h : okAt t n p) : okAt t n (updLane m f p) := h
@[simp] theorem okAt_reportError {t : Terms} {n : Port} {b : ErrorBit} {p : Part} (h : okAt t n p) : okAt t n (reportError b p) :=
  okAt_of_port h (by simp) (by simp)
@[simp] theorem okAt_reportPort {t : Terms} {n m : Port} {b : Bool} {p : Part} (h : okAt t n p) : okAt t n (reportPort m b p) :=
  okAt_of_port h (by simp) (by simp)
@[simp] theorem okAt_reportDevice {t : Terms} {n : Port} {b : Bool} {p : Part} (h : okAt t n p) : okAt t n (reportDevice b p) :=
  okAt_of_port h (by simp) (by simp)
@[simp] theorem okAt_setSummary {t : Terms} {n : Port} {m : Word} {p : Part} (h : okAt t n p) : okAt t n (setSummary m p) :=
  okAt_of_port h (by simp) (by simp)
@[simp] theorem okAt_complete {t : Terms} {n : Port} {w : ReqWord} {r : Result} {p : Part} (h : okAt t n p) :
    okAt t n (complete w r p) := okAt_of_port h (by simp) (by simp)
@[simp] theorem okAt_setFlags {t : Terms} {n : Port} {f : Flags → Flags} {p : Part} (h : okAt t n p) : okAt t n (setFlags n f p) :=
  okAt_updPort_kept h rfl rfl rfl rfl
@[simp] theorem okAt_setTimers {t : Terms} {n : Port} {f : PortTimers → PortTimers} {p : Part} (h : okAt t n p) :
    okAt t n (setTimers n f p) := okAt_updPort_kept h rfl rfl rfl rfl

theorem okAt_setGrant {t : Terms} {n : Port} {g : Nat} {p : Part} (h : okAt t n p) (c : (p.port n).state.closed = true) :
    okAt t n (setGrant n g p) := by
  unfold okAt Part.entriesOf
  rw [setGrant_port_self, setGrant_bu]
  exact ⟨fun _ o => (by rw [c] at o; cases o), h.cover, h.name, h.drain, h.entries⟩

theorem laneFollow_record (n m : Port) (p : Part) : SameButCue (p.port m) ((laneFollow n p).port m) := by
  by_cases e : n = m
  · subst e; exact laneFollow_port n p
  · rw [laneFollow_port_ne e]; rfl

@[simp] theorem okAt_laneFollow {t : Terms} {n m : Port} {p : Part} (h : okAt t n p) : okAt t n (laneFollow m p) := by
  unfold okAt Part.entriesOf
  rw [laneFollow_bu, laneFollow_record m n p]
  exact h.congr rfl rfl rfl rfl

@[simp] theorem okAt_handOver {t : Terms} {n m : Port} {p : Part} (h : okAt t n p) : okAt t n (handOver m p) := h

/-! ### A port changes state -/

@[simp] theorem moveTo_state (n : Port) (st : PortState) (p : Part) : ((moveTo n st p).port n).state = st :=
  (moveTo_port_self n st p).state

theorem moveTo_entriesOf (n : Port) (st : PortState) (p : Part) : (moveTo n st p).entriesOf n = [] := by
  rw [Part.entriesOf, moveTo_queue, List.filter_filter]
  apply List.filter_eq_nil_iff.mpr
  intro e _
  by_cases g : e.port = n <;> simp [g]

theorem mustName_open {r : PortRecord} (h : r.state.closed = false) : mustName r = false := by
  unfold mustName
  revert h
  cases r.state <;> simp [PortState.closed]

/-- A port that opens its switch obeys the laws, if it does not go to QUEUED. -/
@[simp] theorem okAt_moveTo_open {t : Terms} {n : Port} {st : PortState} {p : Part} (o : st.closed = false) (q : st ≠ .queued) :
    okAt t n (moveTo n st p) := by
  have e := moveTo_port_self n st p
  unfold okAt
  rw [moveTo_entriesOf]
  refine ⟨fun _ _ => (by rw [e.grant, o]; rfl), fun c => (by rw [e.state, o] at c; cases c), fun c => ?_, fun _ c => ?_, fun _ => ?_⟩
  · rw [mustName_open (by rw [e.state]; exact o)] at c; cases c
  · rw [e.state] at c; rw [c] at o; cases o
  · rw [e.state]; unfold entriesFit; cases st <;> simp_all [PortState.closed]

/-- A port that keeps or closes its switch obeys the laws if it is covered, and named where it must be. -/
theorem okAt_moveTo_closed {t : Terms} {n : Port} {st : PortState} {p : Part} (o : st.closed = true) (c : t.covered n)
    (w : st = .on ∨ st = .orphan → (p.port n).plan.laneUse = .expected → t.named n)
    (d : st = .drain → ∃ x, (p.port n).drain = some x ∧ (x.laneUse = .expected → t.named n)) :
    okAt t n (moveTo n st p) := by
  have e := moveTo_port_self n st p
  unfold okAt
  rw [moveTo_entriesOf]
  refine ⟨fun _ x => (by rw [e.state, o] at x; cases x), fun _ => c, fun m => ?_, fun _ x => ?_, fun _ => ?_⟩
  · unfold mustName at m
    rw [e.state, e.drain, e.plan] at m
    cases st <;> simp_all [PortState.closed]
    · obtain ⟨x, hx, hw⟩ := d
      simp [hx] at m
      exact hw m
  · rw [e.state] at x
    obtain ⟨y, hy, -⟩ := d x
    rw [e.drain, x, hy]; rfl
  · rw [e.state]; unfold entriesFit; cases st <;> simp_all [PortState.closed]

theorem refreshAsk_steady (r : PortRecord) : ∃ f : Flags, r.refreshAsk = { r with flags := f } := by
  unfold PortRecord.refreshAsk
  repeat' split
  all_goals exact ⟨_, rfl⟩

/-- An update that refreshes ASK keeps the laws at a port. -/
theorem okAt_refreshAsk {t : Terms} {n : Port} {p : Part} (h : okAt t n p) : okAt t n (updPort n PortRecord.refreshAsk p) := by
  obtain ⟨f, hf⟩ := refreshAsk_steady (p.port n)
  exact okAt_updPort_kept h (by rw [hf]) (by rw [hf]) (by rw [hf]) (by rw [hf])

/-- The laws but for the one of the queue. -/
def Terms.apart (t : Terms) : Terms := { t with queued := False }

theorem okAt_joinQueue {t : Terms} {n : Port} {k : EntryKind} {p : Part} (h : okAt t.apart n p) (e : p.entriesOf n = [])
    (s : (p.port n).state = .queued ∨ ((p.port n).state = .probe ∧ k = .full)) : okAt t n (joinQueue n k p) := by
  have key : ∀ q : Part, okAt t.apart n q → q.entriesOf n = [] → (q.port n).state = (p.port n).state →
      okAt t n (q.mapBu (fun b => { b with queue := b.queue ++ [newEntry n k (q.port n)] })) := by
    intro q hq eq sq
    have e1 : (q.mapBu (fun b => { b with queue := b.queue ++ [newEntry n k (q.port n)] })).entriesOf n =
        [newEntry n k (q.port n)] := by
      have e2 : q.bu.queue.filter (fun e => e.port == n) = [] := eq
      simp [Part.entriesOf, e2, newEntry]
    unfold okAt
    rw [e1, Part.mapBu_port]
    refine ⟨hq.grant, hq.cover, hq.name, hq.drain, fun _ => ?_⟩
    rw [sq]
    rcases s with s | ⟨s, hk⟩
    · rw [s]; exact ⟨_, rfl⟩
    · rw [s]; exact .inr ⟨_, rfl, hk⟩
  unfold joinQueue
  cases k
  · exact key p h e rfl
  · refine key _ (okAt_refreshAsk h) (by rw [updPort_entriesOf]; exact e) ?_
    rw [updPort_port_self]; exact refreshAsk_state _

@[simp] theorem okAt_toQueued {t : Terms} {n : Port} {p : Part} : okAt t n (toQueued n p) := by
  unfold toQueued
  split
  · exact okAt_moveTo_open rfl (by decide)
  · split
    · exact okAt_moveTo_open rfl (by decide)
    · have e := moveTo_port_self n .queued p
      refine okAt_joinQueue ?_ (moveTo_entriesOf n .queued p) (.inl e.state)
      unfold okAt
      refine ⟨fun _ _ => (by rw [e.grant]; rfl), fun c => (by rw [e.state] at c; cases c), fun c => ?_, fun _ c => ?_, fun c => c.elim⟩
      · rw [mustName_open (by rw [e.state]; rfl)] at c; cases c
      · rw [e.state] at c; cases c

@[simp] theorem okAt_toRestartWait {t : Terms} {n : Port} {p : Part} : okAt t n (toRestartWait n p) := by
  unfold toRestartWait
  split
  · exact okAt_moveTo_open rfl (by decide)
  · exact okAt_setTimers (okAt_moveTo_open rfl (by decide))

@[simp] theorem okAt_toParked {t : Terms} {n : Port} {p : Part} : okAt t n (toParked n p) := by
  unfold toParked
  split <;> exact okAt_moveTo_open rfl (by decide)

/-! ### The port manager at its own port -/

@[simp] theorem okAt_endDrain {t : Terms} {n : Port} {p : Part} (h : okAt t n p) : okAt t n (endDrain n p) := by
  unfold endDrain
  split
  · exact h
  · apply okAt_handOver
    dsimp only
    split
    · simp
    · simp
    · simp
    · split
      · exact okAt_setFlags (okAt_moveTo_open rfl (by decide))
      · exact okAt_moveTo_open rfl (by decide)

@[simp] theorem okAt_enterGrace {t : Terms} {n : Port} {p : Part} (h : okAt t n p) : okAt t n (enterGrace n p) := by
  unfold enterGrace
  split
  · exact h
  · rename_i d hd
    have key : okAt t n (updPort n (fun r => { r with drain := some { d with phase := .grace }
                                                      timers := { r.timers with grace := some d.graceMs } }) p) := by
      refine okAt_updPort ⟨h.grant, h.cover, fun m => h.name ?_, fun _ _ => rfl, h.entries⟩
      rw [mustName_iff] at m ⊢
      rcases m with m | ⟨s, d', e, m⟩
      · exact .inl m
      · cases e; exact .inr ⟨s, d, hd, m⟩
    dsimp only
    repeat' split
    all_goals simp [key]

/-- A port with a covered switch starts a drain, where a lane-EXPECTED port is named. -/
theorem okAt_startDrain {t : Terms} {n : Port} {r : DrainReason} {p : Part} (c : t.covered n)
    (w : (p.port n).plan.laneUse = .expected → t.named n) : okAt t n (startDrain n r p) := by
  have key : okAt t n (moveTo n .drain (updPort n (fun x => { x with drain := some (newDrain r (p.port n).plan) }) p)) := by
    refine okAt_moveTo_closed rfl c (fun x => (by rcases x with x | x <;> cases x)) (fun _ => ?_)
    rw [updPort_port_self]
    exact ⟨_, rfl, w⟩
  unfold startDrain
  dsimp only
  split
  · exact okAt_enterGrace key
  · exact key

theorem mustName_service {r : PortRecord} (s : r.state = .on ∨ r.state = .orphan) :
    mustName r = (r.plan.laneUse == .expected) := by
  unfold mustName
  rcases s with s | s <;> rw [s]

/-- A drain of a port in ON or ORPHAN. -/
theorem okAt_startDrain_service {t : Terms} {n : Port} {r : DrainReason} {p : Part} (h : okAt t n p)
    (s : (p.port n).state = .on ∨ (p.port n).state = .orphan) : okAt t n (startDrain n r p) := by
  refine okAt_startDrain (h.cover ?_) (fun e => h.name ?_)
  · rcases s with s | s <;> rw [s] <;> rfl
  · rw [mustName_service s, e]; rfl

/-- The port is neither in ON nor in ORPHAN. -/
def outOfService (n : Port) (p : Part) : Prop := (p.port n).state ≠ .on ∧ (p.port n).state ≠ .orphan

theorem outOfService_congr {n : Port} {p q : Part} (h : outOfService n p) (s : (q.port n).state = (p.port n).state) :
    outOfService n q := by unfold outOfService; rw [s]; exact h

theorem outOfService_moveTo {n : Port} {st : PortState} {p : Part} (s : st ≠ .on ∧ st ≠ .orphan) :
    outOfService n (moveTo n st p) := by unfold outOfService; rw [moveTo_state]; exact s

theorem joinQueue_state (n : Port) (k : EntryKind) (p : Part) :
    ((joinQueue n k p).port n).state = (p.port n).state := by
  unfold joinQueue
  cases k
  · rfl
  · show ((updPort n PortRecord.refreshAsk p).port n).state = _
    rw [updPort_port_self]; exact refreshAsk_state _

theorem outOfService_toQueued {n : Port} {p : Part} : outOfService n (toQueued n p) := by
  unfold toQueued
  split
  · exact outOfService_moveTo (by decide)
  · split
    · exact outOfService_moveTo (by decide)
    · exact outOfService_congr (outOfService_moveTo (by decide)) (joinQueue_state _ _ _)

theorem outOfService_handOver {n m : Port} {p : Part} (h : outOfService n p) : outOfService n (handOver m p) := h

theorem outOfService_setFlags {n : Port} {f : Flags → Flags} {p : Part} (h : outOfService n p) :
    outOfService n (setFlags n f p) := outOfService_congr h (by rw [setFlags_port_self])

theorem outOfService_setTimers {n : Port} {f : PortTimers → PortTimers} {p : Part} (h : outOfService n p) :
    outOfService n (setTimers n f p) := outOfService_congr h (by rw [setTimers_port_self])

theorem outOfService_toRestartWait {n : Port} {p : Part} : outOfService n (toRestartWait n p) := by
  unfold toRestartWait
  split
  · exact outOfService_moveTo (by decide)
  · exact outOfService_setTimers (outOfService_moveTo (by decide))

theorem outOfService_toParked {n : Port} {p : Part} : outOfService n (toParked n p) := by
  unfold toParked
  split <;> exact outOfService_moveTo (by decide)

theorem outOfService_endDrain {n : Port} {p : Part} (h : outOfService n p) : outOfService n (endDrain n p) := by
  unfold endDrain
  split
  · exact h
  · apply outOfService_handOver
    dsimp only
    split
    · exact outOfService_toQueued
    · exact outOfService_toRestartWait
    · exact outOfService_toParked
    · split
      · exact outOfService_setFlags (outOfService_moveTo (by decide))
      · exact outOfService_moveTo (by decide)

theorem outOfService_enterGrace {n : Port} {p : Part} (h : outOfService n p) : outOfService n (enterGrace n p) := by
  unfold enterGrace
  split
  · exact h
  · rename_i d _
    have k : outOfService n (updPort n (fun r => { r with drain := some { d with phase := .grace }
                                                          timers := { r.timers with grace := some d.graceMs } }) p) :=
      outOfService_congr h (by rw [updPort_port_self])
    dsimp only
    split
    · split
      · exact outOfService_endDrain (outOfService_congr k rfl)
      · exact outOfService_endDrain k
    · split
      · exact outOfService_congr k rfl
      · exact k

/-- A port that starts a drain is neither in ON nor in ORPHAN any more. -/
theorem outOfService_startDrain {n : Port} {r : DrainReason} {p : Part} : outOfService n (startDrain n r p) := by
  unfold startDrain
  dsimp only
  split
  · exact outOfService_enterGrace (outOfService_moveTo (by decide))
  · exact outOfService_moveTo (by decide)

@[simp] theorem okAt_cueToLane {t : Terms} {n m : Port} {v : Word} {p : Part} (h : okAt t n p) : okAt t n (cueToLane m v p) := by
  unfold cueToLane
  split
  · exact h
  · exact okAt_updLane h

theorem entriesFit_map {st : PortState} {es : List Entry} {f : Entry → Entry} (h : entriesFit st es)
    (k : st = .probe → ∀ e, (f e).kind = e.kind) : entriesFit st (es.map f) := by
  unfold entriesFit at *
  cases st
  case queued => obtain ⟨e, rfl⟩ := h; exact ⟨f e, rfl⟩
  case probe =>
    rcases h with rfl | ⟨e, rfl, g⟩
    · exact .inl rfl
    · exact .inr ⟨f e, rfl, by rw [k rfl, g]⟩
  all_goals (dsimp only at h ⊢; subst h; rfl)

theorem entriesOf_map {n : Port} {f : Entry → Entry} (hf : ∀ e, e.port = n → (f e).port = n) (q : List Entry) :
    (q.map (fun e => if e.port = n then f e else e)).filter (fun e => e.port == n) =
      (q.filter (fun e => e.port == n)).map f := by
  induction q with
  | nil => rfl
  | cons e rest ih =>
    by_cases g : e.port = n
    · simp [g, hf e g, ih]
    · simp [g, ih]

theorem okAt_mapEntries {t : Terms} {n : Port} {f : Entry → Entry} {p : Part} (h : okAt t n p)
    (hf : ∀ e, e.port = n → (f e).port = n) (k : (p.port n).state = .probe → ∀ e, (f e).kind = e.kind) :
    okAt t n (p.mapBu (fun b => { b with queue := b.queue.map (fun e => if e.port = n then f e else e) })) := by
  unfold okAt Part.entriesOf
  rw [Part.mapBu_bu, Part.mapBu_port]
  dsimp only
  rw [entriesOf_map hf]
  exact ⟨h.grant, h.cover, h.name, h.drain, fun q => entriesFit_map (h.entries q) k⟩

theorem okAt_replacePlan_core {t : Terms} {n : Port} {pl : Plan} {p : Part}
    (h : RecordOk t n { p.port n with plan := pl } (p.entriesOf n)) : okAt t n (replacePlan n pl p) := by
  have h1 : okAt t n (updPort n (fun r => { r with plan := pl, restartCount := min r.restartCount pl.restartLimit.1 }) p) :=
    okAt_updPort (h.congr rfl rfl rfl rfl)
  unfold replacePlan
  apply okAt_laneFollow
  apply okAt_mapPtp
  have h2 := okAt_mapEntries (f := renewEntry ((updPort n (fun r => { r with
      plan := pl, restartCount := min r.restartCount pl.restartLimit.1 }) p).port n)) h1 (fun e he => he)
    (fun s e => by unfold renewEntry newEntry; rw [s]; simp)
  split
  · exact okAt_refreshAsk h2
  · exact h2

/-- A plan stored outside ON and ORPHAN. -/
theorem okAt_replacePlan {t : Terms} {n : Port} {pl : Plan} {p : Part} (h : okAt t n p)
    (s : (p.port n).state ≠ .on ∧ (p.port n).state ≠ .orphan) : okAt t n (replacePlan n pl p) := by
  refine okAt_replacePlan_core ⟨h.grant, h.cover, fun m => h.name ?_, h.drain, h.entries⟩
  rw [mustName_iff] at m ⊢
  rcases m with ⟨m | m, -⟩ | m
  · exact absurd m s.1
  · exact absurd m s.2
  · exact .inr m

/-- A plan stored that keeps the lane use. -/
theorem okAt_replacePlan_kept {t : Terms} {n : Port} {pl : Plan} {p : Part} (h : okAt t n p)
    (l : pl.laneUse = (p.port n).plan.laneUse) : okAt t n (replacePlan n pl p) :=
  okAt_replacePlan_core (h.congr rfl rfl rfl l)

theorem okAt_storePlan {t : Terms} {n : Port} {pl : Plan} {p : Part} (h : okAt t n p)
    (s : (p.port n).state ≠ .on ∧ (p.port n).state ≠ .orphan) : okAt t n (storePlan n pl p) := by
  unfold storePlan; exact okAt_handOver (okAt_replacePlan h s)

theorem okAt_storePlan_kept {t : Terms} {n : Port} {pl : Plan} {p : Part} (h : okAt t n p)
    (l : pl.laneUse = (p.port n).plan.laneUse) : okAt t n (storePlan n pl p) := by
  unfold storePlan; exact okAt_handOver (okAt_replacePlan_kept h l)

@[simp] theorem okAt_takeDeferred {t : Terms} {n : Port} {p : Part} (h : okAt t n p) : okAt t n (takeDeferred n p) :=
  okAt_updPort_kept h rfl rfl rfl rfl

theorem stampFrom_record (k : Nat) (l : List Port) (p : Part) (m : Port) :
    ∃ x, (stampFrom k l p).port m = { p.port m with stamp := x } := by
  induction l generalizing k p with
  | nil => exact ⟨_, rfl⟩
  | cons a rest ih =>
    obtain ⟨x, hx⟩ := ih (k + 1) (updPort a (fun r => { r with stamp := k }) p)
    refine ⟨x, ?_⟩
    simp only [stampFrom]
    rw [hx]
    by_cases e : a = m
    · subst e; rw [updPort_port_self]
    · rw [updPort_port_ne e]

theorem stampFrom_bu (k : Nat) (l : List Port) (p : Part) : (stampFrom k l p).bu = p.bu := by
  induction l generalizing k p with
  | nil => rfl
  | cons a rest ih => simp only [stampFrom]; rw [ih, updPort_bu]

theorem stamped_record (n m : Port) (k : Nat) (f : Budget → Budget) (hf : ∀ b, (f b).queue = b.queue) {p q : Part}
    (h : ∃ x, q.port m = { p.port m with stamp := x }) (e : q.bu.queue = p.bu.queue) :
    (∃ x, (updPort n (fun r => { r with stamp := k }) (q.mapBu f)).port m = { p.port m with stamp := x }) ∧
    (updPort n (fun r => { r with stamp := k }) (q.mapBu f)).bu.queue = p.bu.queue := by
  obtain ⟨x, hx⟩ := h
  rw [updPort_bu, Part.mapBu_bu, hf, e]
  refine ⟨?_, rfl⟩
  by_cases g : n = m
  · subst g; rw [updPort_port_self, Part.mapBu_port, hx]; exact ⟨k, rfl⟩
  · rw [updPort_port_ne g, Part.mapBu_port, hx]; exact ⟨x, rfl⟩

theorem renumber_record (m : Port) (p : Part) :
    (∃ x, (renumber p).port m = { p.port m with stamp := x }) ∧ (renumber p).bu.queue = p.bu.queue := by
  unfold renumber
  rw [Part.mapBu_port, Part.mapBu_bu]
  exact ⟨stampFrom_record 1 _ p m, (congrArg Budget.queue (stampFrom_bu 1 (closedByStamp p) p) :)⟩

theorem giveStamp_record (n m : Port) (p : Part) :
    (∃ x, (giveStamp n p).port m = { p.port m with stamp := x }) ∧ (giveStamp n p).bu.queue = p.bu.queue := by
  unfold giveStamp
  by_cases g : Config.lastStamp ≤ p.bu.stampCounter
  · rw [if_pos g]
    exact stamped_record n m _ (fun b => { b with stampCounter := b.stampCounter + 1 }) (fun _ => rfl)
      (renumber_record m p).1 (renumber_record m p).2
  · rw [if_neg g]
    exact stamped_record n m _ (fun b => { b with stampCounter := b.stampCounter + 1 }) (fun _ => rfl) ⟨_, rfl⟩ rfl

@[simp] theorem okAt_giveStamp {t : Terms} {n m : Port} {p : Part} (h : okAt t n p) : okAt t n (giveStamp m p) := by
  obtain ⟨⟨x, hx⟩, hq⟩ := giveStamp_record m n p
  unfold okAt Part.entriesOf
  rw [hx, hq]
  exact h.congr rfl rfl rfl rfl

/-- The state of the port stays. -/
def stateStays (n : Port) (p q : Part) : Prop := (q.port n).state = (p.port n).state ∧ (q.port n).plan = (p.port n).plan

theorem setGrant_stays (n : Port) (g : Nat) (p : Part) : stateStays n p (setGrant n g p) := by
  unfold stateStays; rw [setGrant_port_self]; exact ⟨rfl, rfl⟩

theorem giveStamp_stays (n m : Port) (p : Part) : stateStays n p (giveStamp m p) := by
  obtain ⟨⟨x, hx⟩, -⟩ := giveStamp_record m n p
  unfold stateStays; rw [hx]; exact ⟨rfl, rfl⟩

theorem replacePlan_state (n : Port) (pl : Plan) (p : Part) :
    ((replacePlan n pl p).port n).state = (p.port n).state ∧ ((replacePlan n pl p).port n).plan = pl := by
  unfold replacePlan
  dsimp only
  rw [laneFollow_record n n _, Part.mapPtp_port]
  split
  · rw [updPort_port_self, Part.mapBu_port, updPort_port_self]
    obtain ⟨f, hf⟩ := refreshAsk_steady { p.port n with plan := pl, restartCount := min (p.port n).restartCount pl.restartLimit.1 }
    rw [hf]; exact ⟨rfl, rfl⟩
  · rw [Part.mapBu_port, updPort_port_self]; exact ⟨rfl, rfl⟩

@[simp] theorem storePlan_state (n : Port) (pl : Plan) (p : Part) :
    ((storePlan n pl p).port n).state = (p.port n).state := (replacePlan_state n pl p).1

@[simp] theorem storePlan_plan (n : Port) (pl : Plan) (p : Part) : ((storePlan n pl p).port n).plan = pl :=
  (replacePlan_state n pl p).2

theorem okAt_withdraw {t : Terms} {n : Port} {pl : Plan} {p : Part} (h : okAt t n p)
    (s : (p.port n).state = .on ∨ (p.port n).state = .orphan) : okAt t n (withdraw n pl p) :=
  okAt_storePlan (okAt_startDrain_service h s) outOfService_startDrain

/-- An APPLY in ON, with the lane use kept by every case but WITHDRAWN. -/
theorem okAt_applyInOn {t : Terms} {n : Port} {pl : Plan} {p : Part} (h : okAt t n p) (s : (p.port n).state = .on) :
    okAt t n (applyInOn n pl p) := by
  have c : (p.port n).state.closed = true := by rw [s]; rfl
  unfold applyInOn
  dsimp only
  split
  · exact okAt_complete (okAt_withdraw h (.inl s))
  split
  · exact okAt_complete h
  split
  · exact okAt_complete h
  rename_i l
  have l' : pl.laneUse = (p.port n).plan.laneUse := by simpa using l
  split
  · split
    · refine okAt_complete (okAt_storePlan_kept (okAt_giveStamp (okAt_setGrant h c)) ?_)
      rw [(giveStamp_stays n n _).2, (setGrant_stays n _ p).2, l']
    · exact okAt_complete h
  · refine okAt_complete (okAt_storePlan_kept (okAt_setGrant h c) ?_)
    rw [(setGrant_stays n _ p).2, l']

@[simp] theorem okAt_setOpenDue {t : Terms} {n m : Port} {p : Part} (h : okAt t n p) : okAt t n (setOpenDue m p) := h

@[simp] theorem okAt_handPendingCue {t : Terms} {n : Port} {p : Part} (h : okAt t n p) : okAt t n (handPendingCue n p) := by
  unfold handPendingCue
  split
  · exact h
  · exact okAt_updPort_kept (okAt_cueToLane h) rfl rfl rfl rfl

theorem cueToLane_port (n m : Port) (v : Word) (p : Part) : (cueToLane n v p).port m = p.port m := by
  unfold cueToLane; split
  · rfl
  · rfl

theorem handPendingCue_state (n : Port) (p : Part) : ((handPendingCue n p).port n).state = (p.port n).state := by
  unfold handPendingCue
  split
  · rfl
  · rw [updPort_port_self, cueToLane_port]

theorem okAt_standbyOn {t : Terms} {n : Port} {p : Part} (h : okAt t n p) (s : (p.port n).state = .on) :
    okAt t n (standbyOn n p) := by
  unfold standbyOn
  split
  · exact okAt_setFlags h
  · exact okAt_startDrain_service h (.inl s)

theorem openLane_ok {t : Terms} {n : Port} {p : Part} (h : okAt t n p) (s : (p.port n).state = .on) :
    okAt t n (openLane n p) ∧ ((openLane n p).port n).state = .on := by
  unfold openLane
  by_cases g : (p.port n).plan.laneUse = .expected
  · rw [if_pos g]; exact ⟨okAt_handPendingCue (okAt_setOpenDue h), by rw [handPendingCue_state]; exact s⟩
  · rw [if_neg g]; exact ⟨h, s⟩

theorem okAt_applyEntering {t : Terms} {n : Port} {p : Part} (h : okAt t n p) (s : (p.port n).state = .on) :
    okAt t n (applyEntering n p) := by
  unfold applyEntering
  split
  · exact h
  · exact okAt_applyInOn (okAt_takeDeferred h) (by unfold takeDeferred; rw [updPort_port_self]; exact s)

theorem startOnTime_ok {t : Terms} {n : Port} {p : Part} (h : okAt t n p) (s : (p.port n).state = .on) :
    okAt t n (startOnTime n p) ∧ ((startOnTime n p).port n).state = .on := by
  unfold startOnTime
  exact ⟨okAt_updPort_kept h rfl rfl rfl rfl, by rw [updPort_port_self]; exact s⟩

/-- Entry to ON of a covered port, named where it is lane-EXPECTED. -/
theorem okAt_enterOn {t : Terms} {n : Port} {p : Part} (c : t.covered n)
    (w : (p.port n).plan.laneUse = .expected → t.named n) : okAt t n (enterOn n p) := by
  have h1 : okAt t n (moveTo n .on p) := okAt_moveTo_closed rfl c (fun _ => w) (fun x => (nomatch x))
  have h2 := startOnTime_ok h1 (moveTo_state n .on p)
  have h3 := openLane_ok h2.1 h2.2
  exact okAt_applyEntering h3.1 h3.2

theorem okAt_admitOrphan {t : Terms} {n : Port} {p : Part} (h : okAt t n p) (s : (p.port n).state = .orphan) :
    okAt t n (admitOrphan n p) := by
  have key : okAt t n (enterOn n p) := by
    refine okAt_enterOn (h.cover (by rw [s]; rfl)) (fun e => h.name ?_)
    rw [mustName_service (.inr s), e]; rfl
  unfold admitOrphan
  dsimp only
  split
  · rename_i g
    simp only [Bool.and_eq_true, beq_iff_eq] at g
    exact okAt_standbyOn key g.2
  · exact key

theorem okAt_testAdmission {t : Terms} {n : Port} {p : Part} (h : okAt t n p) (i : Within t p)
    (c : (p.port n).state.closed = true) : okAt t n (testAdmission n p) := by
  unfold testAdmission
  split
  · rename_i g
    refine okAt_enterOn (h.cover c) (fun e => i.named n ?_)
    unfold admits at g
    rw [e] at g
    simpa using (by simpa using g : _ ∧ _).2
  · exact okAt_setFlags h

theorem okAt_applyWaiting {t : Terms} {n : Port} {pl : Plan} {p : Part} (h : okAt t n p) (i : Within t p)
    (s : (p.port n).state = .settle) : okAt t n (applyWaiting n pl p) := by
  have c : (p.port n).state.closed = true := by rw [s]; rfl
  have o : ∀ q : Part, (q.port n).state = (p.port n).state → (q.port n).state ≠ .on ∧ (q.port n).state ≠ .orphan := by
    intro q e; rw [e, s]; exact ⟨by decide, by decide⟩
  have test : ∀ q : Part, okAt t n q → q.fixed = p.fixed → (q.port n).state = (p.port n).state →
      okAt t n (testAdmission n (complete (.port n) .ok (storePlan n pl q))) := by
    intro q hq fq sq
    refine okAt_testAdmission (okAt_complete (okAt_storePlan hq (o q sq))) (i.of_fixed (by simp [fq])) ?_
    rw [complete_port, storePlan_state, sq]; exact c
  unfold applyWaiting
  dsimp only
  split
  · exact okAt_complete (okAt_moveTo_open rfl (by decide))
  split
  · split
    · refine test _ (okAt_giveStamp (okAt_setGrant h c)) (by simp) ?_
      rw [(giveStamp_stays n n _).1, (setGrant_stays n _ p).1]
    · exact okAt_complete h
  · exact test _ (okAt_setGrant h c) (by simp) (setGrant_stays n _ p).1

theorem okAt_retarget {t : Terms} {n : Port} {p : Part} (h : okAt t n p) : okAt t n (retarget n p) := by
  unfold retarget
  refine okAt_updPort ⟨h.grant, h.cover, fun m => h.name ?_, fun a b => ?_, h.entries⟩
  · rw [mustName_iff] at m ⊢
    rcases m with m | ⟨s, d', e, m⟩
    · exact .inl m
    · cases hd : (p.port n).drain with
      | none => rw [hd] at e; cases e
      | some d => rw [hd] at e; cases e; exact .inr ⟨s, d, rfl, m⟩
  · have := h.drain a b
    simpa using this

theorem okAt_adopt {t : Terms} {n : Port} {pl : Plan} {p : Part} (h : okAt t n p) (s : (p.port n).state = .orphan) :
    okAt t n (adopt n pl p) := by
  have c : (p.port n).state.closed = true := by rw [s]; rfl
  unfold adopt
  dsimp only
  split
  · exact okAt_complete (okAt_withdraw h (.inr s))
  split
  · exact okAt_complete h
  split
  · exact okAt_complete h
  rename_i l
  have l' : pl.laneUse = (p.port n).plan.laneUse := by simpa using l
  split
  · exact okAt_complete h
  have fin : ∀ q : Part, okAt t n q → stateStays n p q →
      okAt t n (if pl.laneUse = .unused ||
          ((complete (.port n) .ok (updPort n (fun r => { r with adopted := true }) (storePlan n pl q))).lane n).outstanding == 0 then
        admitOrphan n (complete (.port n) .ok (updPort n (fun r => { r with adopted := true }) (storePlan n pl q)))
      else complete (.port n) .ok (updPort n (fun r => { r with adopted := true }) (storePlan n pl q))) := by
    intro q hq sq
    have k : okAt t n (complete (.port n) .ok (updPort n (fun r => { r with adopted := true }) (storePlan n pl q))) :=
      okAt_complete (okAt_updPort_kept (okAt_storePlan_kept hq (by rw [sq.2, l'])) rfl rfl rfl rfl)
    split
    · refine okAt_admitOrphan k ?_
      rw [complete_port, updPort_port_self]
      show ((storePlan n pl q).port n).state = _
      rw [storePlan_state, sq.1, s]
    · exact k
  split
  · split
    · refine fin _ (okAt_giveStamp (okAt_setGrant h c)) ⟨?_, ?_⟩
      · rw [(giveStamp_stays n n _).1, (setGrant_stays n _ p).1]
      · rw [(giveStamp_stays n n _).2, (setGrant_stays n _ p).2]
    · exact fin _ (okAt_setFlags h) ⟨by rw [setFlags_port_self], by rw [setFlags_port_self]⟩
  · exact fin _ (okAt_setGrant h c) (setGrant_stays n _ p)

theorem okAt_applyByState {t : Terms} {n : Port} {pl : Plan} {p : Part} (h : okAt t n p) (i : Within t p) :
    okAt t n (applyByState n pl p) := by
  unfold applyByState
  dsimp only
  split
  all_goals rename_i e
  · exact okAt_complete (okAt_storePlan h (by rw [e]; decide))
  · exact okAt_complete (okAt_storePlan h (by rw [e]; decide))
  · apply okAt_complete; split
    · exact okAt_moveTo_open rfl (by decide)
    · exact okAt_storePlan h (by rw [e]; decide)
  · apply okAt_complete; split
    · exact okAt_moveTo_open rfl (by decide)
    · exact okAt_storePlan h (by rw [e]; decide)
  · exact okAt_complete (okAt_retarget (okAt_storePlan h (by rw [e]; decide)))
  · apply okAt_complete; split
    · exact okAt_storePlan h (by rw [e]; decide)
    · exact okAt_toQueued
  · apply okAt_complete; split
    · exact okAt_moveTo_open rfl (by decide)
    · exact okAt_storePlan h (by rw [e]; decide)
  · apply okAt_complete; split
    · exact okAt_moveTo_open rfl (by decide)
    · split
      · exact okAt_toQueued
      · exact okAt_storePlan h (by rw [e]; decide)
  · exact okAt_updPort_kept h rfl rfl rfl rfl
  · split
    · exact okAt_applyWaiting h i e
    · exact okAt_updPort_kept h rfl rfl rfl rfl
  · exact okAt_applyInOn h e
  · exact okAt_adopt h e

theorem okAt_applyDeferred {t : Terms} {n : Port} {p : Part} (h : okAt t n p) (i : Within t p) :
    okAt t n (applyDeferred n p) := by
  unfold applyDeferred
  split
  · exact h
  · exact okAt_applyByState (okAt_takeDeferred h) (i.of_fixed (takeDeferred_fixed n p))

theorem okAt_deliverApply {t : Terms} {n : Port} {pl : Option Plan} {p : Part} (h : okAt t n p) (i : Within t p) :
    okAt t n (deliverApply n pl p) := by
  unfold deliverApply
  split
  · exact okAt_complete h
  · split
    · exact okAt_complete h
    · split
      · exact okAt_complete h
      · exact okAt_applyByState h i

@[simp] theorem okAt_clearFault {t : Terms} {n : Port} {p : Part} : okAt t n (clearFault n p) := by
  unfold clearFault
  dsimp only
  split
  · exact okAt_moveTo_open rfl (by decide)
  · exact okAt_toQueued

theorem okAt_clearRequest {t : Terms} {n : Port} {p : Part} (h : okAt t n p) : okAt t n (clearRequest n p) := by
  unfold clearRequest
  apply okAt_complete
  split
  · exact okAt_clearFault
  · exact h

theorem okAt_restartRequest {t : Terms} {n : Port} {p : Part} (h : okAt t n p) : okAt t n (restartRequest n p) := by
  unfold restartRequest
  split
  · rename_i e; exact okAt_complete (okAt_startDrain_service h (.inl e))
  · exact okAt_complete okAt_clearFault
  · exact okAt_complete h

theorem okAt_failPort {t : Terms} {n : Port} {c : FaultCause} {p : Part} (h : okAt t n p) (i : Within t p) :
    okAt t n (failPort n c p) := by
  have k : okAt t n (updPort n (recordFailure c) p) := okAt_updPort_kept h rfl rfl rfl rfl
  unfold failPort
  split
  · exact h
  · dsimp only
    split
    · exact okAt_endDrain k
    · split
      · exact okAt_applyDeferred okAt_toRestartWait (i.of_fixed (by simp))
      · exact okAt_applyDeferred (okAt_moveTo_open rfl (by decide)) (i.of_fixed (by simp))

theorem okAt_laneLost {t : Terms} {n : Port} {p : Part} (h : okAt t n p) (i : Within t p) : okAt t n (laneLost n p) := by
  unfold laneLost
  split
  · exact okAt_endDrain h
  · exact okAt_failPort h i

theorem okAt_askFull {t : Terms} {n : Port} {p : Part} (h : okAt t n p) (s : (p.port n).state = .probe) :
    okAt t n (askFull n p) := by
  unfold askFull
  split
  · exact okAt_mapEntries h (fun _ he => he) (fun _ _ => rfl)
  · rename_i g
    have a : okAt t.apart n p := ⟨h.grant, h.cover, h.name, h.drain, fun x => x.elim⟩
    by_cases q : t.queued
    · refine okAt_joinQueue a ?_ (.inr ⟨s, rfl⟩)
      have f := h.entries q
      rw [s] at f
      rcases f with f | ⟨e, f, k⟩
      · exact f
      · exfalso
        apply g
        have m : e ∈ p.entriesOf n := by rw [f]; simp
        simp only [Part.entriesOf, List.mem_filter] at m
        simp only [holdsFull, List.any_eq_true]
        exact ⟨e, m.1, by simp [k, m.2]⟩
    · unfold joinQueue
      have r := okAt_refreshAsk h
      exact ⟨r.grant, r.cover, r.name, r.drain, fun x => absurd x q⟩

theorem okAt_helloTaken {t : Terms} {n : Port} {i : Identity} {p : Part} (h : okAt t n p) : okAt t n (helloTaken n i p) := by
  unfold helloTaken
  split
  · exact h
  · rename_i s
    have s' : (p.port n).state = .probe := by simpa using s
    dsimp only
    have k : okAt t n (updPort n (fun r =>
        { r with identity := some i, timers := { r.timers with hello := none } }.refreshAsk) p) := by
      obtain ⟨f, hf⟩ := refreshAsk_steady { p.port n with identity := some i, timers := { (p.port n).timers with hello := none } }
      exact okAt_updPort_kept h (by rw [hf]) (by rw [hf]) (by rw [hf]) (by rw [hf])
    refine okAt_askFull (okAt_reportPort k) ?_
    rw [reportPort_port, updPort_port_self]
    obtain ⟨f, hf⟩ := refreshAsk_steady { p.port n with identity := some i, timers := { (p.port n).timers with hello := none } }
    rw [hf]; exact s'

theorem okAt_leaveTaken {t : Terms} {n : Port} {p : Part} (h : okAt t n p) (i : Within t p) : okAt t n (leaveTaken n p) := by
  unfold leaveTaken
  split
  · rename_i e; exact okAt_startDrain_service h (.inl e)
  · rename_i e; exact okAt_startDrain_service h (.inr e)
  · exact okAt_applyDeferred (okAt_setFlags (okAt_moveTo_open rfl (by decide))) (i.of_fixed (by simp))
  · exact okAt_applyDeferred (okAt_setFlags (okAt_moveTo_open rfl (by decide))) (i.of_fixed (by simp))
  · exact okAt_applyDeferred (okAt_setFlags (okAt_moveTo_open rfl (by decide))) (i.of_fixed (by simp))
  · exact h

theorem okAt_shedTaken {t : Terms} {n : Port} {p : Part} (h : okAt t n p) (i : Within t p) : okAt t n (shedTaken n p) := by
  unfold shedTaken
  split
  · exact okAt_applyDeferred okAt_toQueued (i.of_fixed (by simp))
  · exact okAt_applyDeferred okAt_toQueued (i.of_fixed (by simp))
  · exact okAt_applyDeferred okAt_toQueued (i.of_fixed (by simp))
  · rename_i e; exact okAt_startDrain_service h (.inl e)
  · rename_i e; exact okAt_startDrain_service h (.inr e)
  · exact h

theorem okAt_noOutstanding {t : Terms} {n : Port} {p : Part} (h : okAt t n p) : okAt t n (noOutstanding n p) := by
  unfold noOutstanding
  split
  · split
    · split
      · exact okAt_enterGrace h
      · exact h
    · exact h
  · rename_i e
    split
    · exact okAt_admitOrphan h e
    · exact h
  · split
    · exact h
    · exact h
  · exact h

end Sys2Proof.Machine
end

