-- ==== Sys2Proof/Laws/BudgetLaws.lean ====
section
/-! SUPPORT. The laws of the port table and the grant queue under the lanes, the budget unit and the sequencer's samples. -/

namespace Sys2Proof.Machine

/-! ### Lanes at their own port -/

theorem okAt_checkError {t : Terms} {n : Port} {p : Part} (h : okAt t n p) : okAt t n (checkError n p) :=
  okAt_updPort_kept h rfl rfl rfl rfl

theorem okAt_tagOverrun {t : Terms} {n : Port} {p : Part} (h : okAt t n p) : okAt t n (tagOverrun n p) :=
  okAt_reportError (okAt_updPort_kept h rfl rfl rfl rfl)

theorem okAt_answerNow {t : Terms} {n : Port} {k : ReqKind} {tag : Fin 4} {st : Status} {p : Part} (h : okAt t n p) :
    okAt t n (answerNow n k tag st p) := h

theorem okAt_acceptRequest {t : Terms} {n : Port} {a : LaneAccess} {p : Part} (h : okAt t n p) :
    okAt t n (acceptRequest n a p) := h

theorem okAt_takeRequest {t : Terms} {n : Port} {k : ReqKind} {tag cls : Fin 4} {o l : Nat} {d : List Byte} {p : Part}
    (h : okAt t n p) : okAt t n (takeRequest n k tag cls o l d p) := by
  unfold takeRequest
  split
  · exact okAt_tagOverrun h
  · split
    · exact h
    · split
      · exact h
      · exact h

theorem okAt_reopenLane {t : Terms} {n : Port} {i : Identity} {p : Part} (h : okAt t n p) : okAt t n (reopenLane n i p) := by
  have k : okAt t n (reportPort n true (updPort n (PortRecord.rehello i) (p.setLane n (p.lane n).reopened))) := by
    refine okAt_reportPort (okAt_updPort (p := p.setLane n (p.lane n).reopened) ?_)
    rw [Part.setLane_port]
    obtain ⟨f, hf⟩ := refreshAsk_steady
      { p.port n with identity := some i, flags := { (p.port n).flags with rehello := true } }
    unfold PortRecord.rehello
    rw [hf]
    exact h.congr rfl rfl rfl rfl
  unfold reopenLane
  dsimp only
  split
  · exact okAt_setOpenDue k
  · exact okAt_updLane k

theorem okAt_takeHello {t : Terms} {n : Port} {i : Identity} {p : Part} (h : okAt t n p) : okAt t n (takeHello n i p) := by
  unfold takeHello
  split
  · exact okAt_helloTaken h
  · split
    · exact okAt_reopenLane h
    · exact okAt_checkError h

theorem okAt_takeGood {t : Terms} {n : Port} {f : RxFrame} {p : Part} (h : okAt t n p) (w : Within t p) :
    okAt t n (takeGood n f p) := by
  unfold takeGood
  split
  · exact okAt_takeHello h
  · exact okAt_takeRequest h
  · exact okAt_takeRequest h
  · exact h
  · exact okAt_leaveTaken h w

theorem okAt_takeFrame {t : Terms} {n : Port} {f : RxFrame} {p : Part} (h : okAt t n p) (w : Within t p) :
    okAt t n (takeFrame n f p) := by
  unfold takeFrame
  split
  · exact h
  · split
    · exact okAt_takeGood (okAt_updLane h) (w.of_fixed (updLane_fixed _ _ _))
    · exact okAt_checkError h

theorem okAt_takeBytes {t : Terms} {n : Port} {bytes : List Byte} {p : Part} (h : okAt t n p) (w : Within t p) :
    okAt t n (takeBytes n bytes p) := by
  unfold takeBytes
  split
  · exact h
  · split
    · exact h
    · exact okAt_checkError h
    · exact okAt_takeFrame h w

theorem okAt_freeTag {t : Terms} {n : Port} {tag : Fin 4} {p : Part} (h : okAt t n p) : okAt t n (freeTag n tag p) := by
  unfold freeTag
  dsimp only
  split
  · exact okAt_noOutstanding (okAt_updLane h)
  · exact okAt_updLane h

theorem okAt_answerSent {t : Terms} {n : Port} {a : Answer} {p : Part} (h : okAt t n p) : okAt t n (answerSent n a p) := by
  unfold answerSent
  apply okAt_updLane
  split
  · exact okAt_freeTag h
  · exact h

theorem okAt_accessDone {t : Terms} {n : Port} {a : Answer} {p : Part} (h : okAt t n p) : okAt t n (accessDone n a p) := by
  unfold accessDone
  split
  · exact okAt_freeTag h
  · exact okAt_updLane h
  · exact h
  · exact h

theorem okAt_silenceExpired {t : Terms} {n : Port} {p : Part} (h : okAt t n p) (w : Within t p) :
    okAt t n (silenceExpired n p) :=
  okAt_laneLost (okAt_updLane h) (w.of_fixed (updLane_fixed _ _ _))

/-! ### Samples at their own port -/

theorem mapMs_counts_fixed (o r : PerPort Nat) (p : Part) :
    (p.mapMs (fun m => { m with overCount := o, rampCount := r })).fixed = p.fixed := rfl

theorem okAt_overTest {t : Terms} {n : Port} {sample : Nat} {p : Part} (h : okAt t n p) (w : Within t p) :
    okAt t n (overTest n sample p) := by
  unfold overTest
  dsimp only
  split
  · exact okAt_failPort (okAt_mapMs h) (w.of_fixed (mapMs_counts_fixed _ _ p))
  · exact okAt_mapMs h

theorem okAt_rampDone {t : Terms} {n : Port} {p : Part} (h : okAt t n p) : okAt t n (rampDone n p) := by
  unfold rampDone
  split
  · rename_i s
    exact okAt_setTimers (okAt_moveTo_closed rfl (h.cover (by rw [s]; rfl)) (fun x => (by rcases x with x | x <;> cases x))
      (fun x => (nomatch x)))
  · exact h

theorem okAt_rampTest {t : Terms} {n : Port} {sample : Nat} {p : Part} (h : okAt t n p) : okAt t n (rampTest n sample p) := by
  unfold rampTest
  split
  · exact okAt_mapMs h
  · split
    · exact okAt_rampDone (okAt_mapMs h)
    · exact okAt_mapMs h

theorem okAt_judgeSample {t : Terms} {n : Port} {sample : Nat} {p : Part} (h : okAt t n p) (w : Within t p) :
    okAt t n (judgeSample n sample p) := by
  unfold judgeSample
  split
  · exact okAt_rampTest h
  · split
    · exact okAt_overTest h w
    · exact h

theorem okAt_keepResult {t : Terms} {n : Port} {result : Int} {p : Part} (h : okAt t n p) : okAt t n (keepResult result p) := by
  unfold keepResult
  split
  · exact h
  · exact h

theorem Within.keepResult {t : Terms} {result : Int} {p : Part} (w : Within t p) : Within t (keepResult result p) := by
  unfold Machine.keepResult
  split
  · exact w
  · exact ⟨w.covered, w.named⟩

theorem okAt_portSample {t : Terms} {n : Port} {reading : Nat} {p : Part} (h : okAt t n p) (w : Within t p) :
    okAt t n (portSample n reading p) := by
  have h1 := okAt_keepResult (result := (corrected p reading : Int)) h
  have w1 := Within.keepResult (result := (corrected p reading : Int)) w
  unfold portSample
  dsimp only
  split
  · exact h1
  · refine okAt_judgeSample (okAt_reportPort (okAt_mapAe h1)) ?_
    exact Within.of_fixed (reportPort_fixed _ _ _) ⟨w1.covered, w1.named⟩

/-! ### The budget unit -/

theorem allOk_setFlags {t : Terms} {n : Port} {f : Flags → Flags} {p : Part} (h : allOk t p) : allOk t (setFlags n f p) :=
  allOk_of_own h (fun _ e => setFlags_aside e f p) (okAt_setFlags (h n))

theorem allOk_sheds {t : Terms} {p q : Part} (h : allOk t p) (s : ShedsOnly q p) : allOk t q := allOk_of_aside h s.aside

theorem allOk_preempt {t : Terms} {e : Entry} {p : Part} (h : allOk t p) : allOk t (preempt e p) := by
  unfold preempt
  dsimp only
  split
  · exact h
  · split
    · exact allOk_sheds h (shedUntil_only _ _ _)
    · exact allOk_setFlags h

/-- A covered entry's port obeys the laws when it is granted, whatever it was before. -/
theorem okAt_grant {t : Terms} {e : Entry} {p : Part} (c : t.covered e.port) : okAt t e.port (grant e p) := by
  have core : ∀ (st : PortState) (q : Part), st.closed = true → st ≠ .on → st ≠ .orphan → st ≠ .drain →
      okAt t e.port (moveTo e.port st q) := fun st q o a b d =>
    okAt_moveTo_closed o c (fun x => (by rcases x with x | x <;> contradiction)) (fun x => absurd x d)
  unfold grant grantPort
  split
  · refine okAt_setTimers (okAt_setGrant (core .probe _ rfl (by decide) (by decide) (by decide)) ?_)
    rw [moveTo_state]; rfl
  · refine okAt_mapMs (okAt_setTimers (okAt_setGrant (core .ramp _ rfl (by decide) (by decide) (by decide)) ?_))
    rw [moveTo_state]; rfl

theorem allOk_grant {t : Terms} {e : Entry} {p : Part} (h : allOk t p) (c : t.covered e.port) : allOk t (grant e p) :=
  allOk_of_own h (fun _ g => grant_aside g p) (okAt_grant c)

theorem allOk_walk {t : Terms} {l : List Entry} {p : Part} (h : allOk t p) (w : Within t p) : allOk t (walk l p) := by
  induction l generalizing p with
  | nil => exact h
  | cons e rest ih =>
    unfold walk
    split
    · exact ih h w
    · rename_i g
      have c : t.covered e.port := w.covered e.port (by simpa using g)
      split
      · exact ih (allOk_grant h c) (w.of_fixed (grant_fixed e p))
      · split
        · exact allOk_preempt h
        · exact h

theorem allOk_markCoverage {t : Terms} {l : List Entry} {p : Part} (h : allOk t p) : allOk t (markCoverage l p) := by
  induction l generalizing p with
  | nil => exact h
  | cons e rest ih => exact ih (allOk_setFlags h)

theorem allOk_grantDecision {t : Terms} {p : Part} (h : allOk t p) (w : Within t p) : allOk t (grantDecision p) := by
  unfold grantDecision
  dsimp only
  split
  · exact allOk_markCoverage h
  · exact allOk_walk (allOk_markCoverage h) (w.of_fixed (markCoverage_fixed _ _))

theorem allOk_budgetAfter {t : Terms} {b : Bool} {p : Part} (h : allOk t p) (w : Within t p) : allOk t (budgetAfter b p) := by
  have k := beforeDecision_keeps p
  have h1 : allOk t (beforeDecision p) := allOk_of_aside h k.2.1
  have w1 : Within t (beforeDecision p) := w.of_fixed k.1
  rcases budgetAfter_eq b p with e | e
  · rw [e]; exact allOk_of_aside h1 (shortfallTest_keeps _).2.1
  · rw [e]; exact allOk_of_aside (allOk_grantDecision h1 w1) (shortfallTest_keeps _).2.1

theorem allOk_event {t : Terms} {f : Part → Part} {p : Part} (h : allOk t (f p)) (w : Within t (f p)) : allOk t (event f p) :=
  allOk_budgetAfter h w

end Sys2Proof.Machine
end

