-- ==== Sys2Proof/Laws/PassOps.lean ====
section
/-! SUPPORT. The bus and the completions of CP and AE bursts: what they do leaves the ports, the budget, the sequencer, the lanes and the
mode and reset control (`PortsStay`), but for a cue write that lands and a request that is taken. -/

namespace Sys2Proof.Machine

/-! ### Accesses -/

theorem answerBus_stay (a : BusAnswer) (p : Part) : PortsStay (answerBus a p) p := PortsStay.refl p

theorem answerAtOnce_stay (p : Part) : PortsStay (answerAtOnce p) p := PortsStay.refl p

theorem startAccess_stay (b : BusAccess) (stage : Stage) (purpose : CpPurpose) (p : Part) :
    PortsStay (startAccess b stage purpose p) p := PortsStay.refl p

theorem carry_stay (p : Part) : PortsStay (carry p) p := by
  unfold carry
  split <;> exact PortsStay.refl p

theorem carryAccess_stay (b : BusAccess) (purpose : CpPurpose) (p : Part) : PortsStay (carryAccess b purpose p) p :=
  carry_stay _

/-- A carried access: in progress, carried, with its burst on the CP list and the hold timer running. -/
theorem carryAccess_carries (b : BusAccess) (purpose : CpPurpose) (p : Part) :
    (carryAccess b purpose p).ptp.access = some ⟨b, .carried, purpose⟩ ∧
    (carryAccess b purpose p).mo.cp = some (cpBurstOf ⟨b, .carried, purpose⟩) ∧
    (carryAccess b purpose p).ptp.holdTimer = some Config.holdUs ∧
    (carryAccess b purpose p).mo.inFlight = p.mo.inFlight ∧ (carryAccess b purpose p).ae = p.ae := ⟨rfl, rfl, rfl, rfl, rfl⟩

theorem reportError_stay (b : ErrorBit) (p : Part) : PortsStay (reportError b p) p :=
  PortsStay.of_aeOnly (AeOnly.reportError b p)

theorem setSummary_stay (m : Word) (p : Part) : PortsStay (setSummary m p) p := PortsStay.of_aeOnly (AeOnly.setSummary m p)

theorem complete_stay (w : ReqWord) (r : Result) (p : Part) : PortsStay (complete w r p) p :=
  PortsStay.of_aeOnly (AeOnly.complete w r p)

theorem setRequest_stay (w : ReqWord) (r : Request) (p : Part) : PortsStay (p.setRequest w r) p :=
  PortsStay.of_aeOnly (AeOnly.setRequest w r p)

theorem hostWrite_stay (b : BusAccess) (offset : Nat) (p : Part) : PortsStay (hostWrite b offset p) p := by
  unfold hostWrite
  repeat' split
  · exact carryAccess_stay _ _ _
  · exact startAccess_stay _ _ _ _
  · exact carryAccess_stay _ _ _

theorem statusRead_stay (b : BusAccess) (record : Target) (p : Part) : PortsStay (statusRead b record p) p := by
  unfold statusRead
  split
  · exact (startAccess_stay _ _ _ _).trans (PortsStay.refl p)
  · exact carryAccess_stay _ _ _

theorem strayWrite_stay (p : Part) : PortsStay (strayWrite p) p := reportError_stay _ _

theorem dropErrorBit_stay (p : Part) : PortsStay (dropErrorBit p) p := by
  unfold dropErrorBit
  split
  · exact PortsStay.of_aeOnly ((AeOnly.queueWriteBack _ _).trans (AeOnly.mapAe _ p))
  · exact PortsStay.refl p

theorem mergeWrite_stay (b : BusAccess) (record : Target) (p : Part) : PortsStay (mergeWrite b record p) p := by
  unfold mergeWrite
  split
  · exact (carryAccess_stay _ _ _).trans (dropErrorBit_stay _)
  · exact (carryAccess_stay _ _ _).trans (PortsStay.refl p)

theorem takenWrite_stay (b : BusAccess) (w : ReqWord) (p : Part) : PortsStay (takenWrite b w p) p := by
  unfold takenWrite
  split
  · exact answerAtOnce_stay p
  · exact carryAccess_stay _ _ _

theorem startCopy_stay (s : Source) (p : Part) : PortsStay (startCopy s p) p := PortsStay.refl p

/-- A request write that is dropped leaves the ports. -/
theorem requestWrite_dropped (b : BusAccess) (w : ReqWord) (p : Part)
    (h : fullWord b.enables = false ∨ (p.request w).taken = true) : PortsStay (requestWrite b w p) p := by
  unfold requestWrite
  by_cases f : fullWord b.enables = true
  · have t : (p.request w).taken = true := by simpa [f] using h
    rw [f, t]
    exact reportError_stay _ _
  · have f' : fullWord b.enables = false := by simpa using f
    rw [f']
    exact reportError_stay _ _

/-- A request write that is taken: the request's work, on the part with its word TAKEN and its write answered or carried. -/
theorem requestWrite_taken (b : BusAccess) (w : ReqWord) (p : Part) (h : fullWord b.enables = true)
    (g : (p.request w).taken = false) :
    requestWrite b w p =
      startWork w (wordByte b.value 0) (takenWrite b w (p.setRequest w (takenState b.value))) := by
  simp [requestWrite, h, g]

theorem arriveOutside_stay (b : BusAccess) (p : Part) : PortsStay (arriveOutside b p) p := by
  unfold arriveOutside
  repeat' split
  all_goals exact carryAccess_stay _ _ _

/-- An arrival in the area that is no write of a request word leaves the ports. -/
theorem arriveInArea_stay (b : BusAccess) (offset : Nat) (p : Part)
    (h : b.write = false ∨ ∀ w, wordClass offset ≠ .request w) : PortsStay (arriveInArea b offset p) p := by
  unfold arriveInArea
  split
  · exact carryAccess_stay _ _ _
  · exact hostWrite_stay _ _ _
  · exact statusRead_stay _ _ _
  · exact strayWrite_stay _
  · exact statusRead_stay _ _ _
  · exact mergeWrite_stay _ _ _
  · exact carryAccess_stay _ _ _
  · next w hc hw =>
    rcases h with h | h
    · rw [h] at hw; simp at hw
    · exact absurd hc (h w)

theorem withdrawCp_stay (p : Part) : PortsStay (withdrawCp p) p := PortsStay.refl p

theorem holdExpired_stay (p : Part) : PortsStay (holdExpired p) p := by
  unfold holdExpired
  split
  · exact PortsStay.refl p
  · dsimp only
    split
    · exact (withdrawCp_stay _).trans (reportError_stay _ _)
    · exact reportError_stay _ _
    · exact reportError_stay _ _

/-! ### Completions -/

theorem landedBits_stay (t : Target) (mark : Bool) (p : Part) : PortsStay (landedBits t mark p) p := by
  unfold landedBits
  split
  · split
    · exact setSummary_stay _ p
    · exact PortsStay.refl p
  · split
    · exact setSummary_stay _ p
    · exact PortsStay.refl p
  · exact (setSummary_stay _ _).trans (setRequest_stay _ _ p)
  · exact (setSummary_stay _ _).trans (setRequest_stay _ _ p)
  · exact PortsStay.refl p

theorem releaseRead_stay (p : Part) : PortsStay (releaseRead p) p := by
  unfold releaseRead
  split
  · exact carry_stay p
  · exact PortsStay.refl p

theorem releaseWrite_stay (s : Source) (p : Part) : PortsStay (releaseWrite s p) p := by
  unfold releaseWrite
  split
  · split
    · exact carry_stay p
    · exact PortsStay.refl p
  · exact PortsStay.refl p

theorem writeBackDone_stay (t : Target) (mark fault : Bool) (p : Part) : PortsStay (writeBackDone t mark fault p) p := by
  unfold writeBackDone
  dsimp only
  refine (releaseRead_stay _).trans ((landedBits_stay t mark _).trans ?_)
  split
  · exact reportError_stay _ p
  · exact PortsStay.refl p

/-- A CP burst that completes with a fault, or is no cue write, leaves the ports. -/
theorem cpDone_stay (c : CpBurst) (fault : Bool) (word : List Byte) (p : Part)
    (h : fault = true ∨ ∀ n, c.purpose ≠ .cue n) : PortsStay (cpDone c fault word p) p := by
  unfold cpDone
  dsimp only
  split
  · exact (reportError_stay _ _).trans (answerBus_stay _ p)
  · next f =>
    split
    · next n hc =>
      rcases h with h | h
      · exact absurd h f
      · exact absurd hc (h n)
    · exact answerBus_stay _ p

end Sys2Proof.Machine
end

