-- ==== Sys2Proof/Laws/PartLaws.lean ====
section
/-! SUPPORT. The laws of the port table and the grant queue as predicates of one port (`partOk`), and what keeps them: the bus, the
area engine, cue writes, modes, sequences, samples and the device plan. -/

namespace Sys2Proof.Machine

/-- Which laws of the ports are asked for. -/
structure Asked where
  openZero : Prop
  queued : Prop
  drainHeld : Prop
  covers : Prop
  names : Prop

/-- What the part covers and names, as far as it is asked for. -/
def termsOf (a : Asked) (p : Part) : Terms where
  openZero := a.openZero
  queued := a.queued
  drainHeld := a.drainHeld
  covered n := a.covers → covered p n = true
  named n := a.names → names p.mo.wheel n = true

/-- The laws asked for hold of the part. -/
def partOk (a : Asked) (p : Part) : Prop := allOk (termsOf a p) p

theorem within_termsOf (a : Asked) (p : Part) : Within (termsOf a p) p := ⟨fun _ h _ => h, fun _ h _ => h⟩

/-- What covers and names the ports is unchanged. -/
def sameTerms (q p : Part) : Prop := (∀ n, covered q n = covered p n) ∧ q.mo.wheel = p.mo.wheel

theorem sameTerms.trans {p q r : Part} (h : sameTerms r q) (g : sameTerms q p) : sameTerms r p :=
  ⟨fun n => (h.1 n).trans (g.1 n), h.2.trans g.2⟩

theorem termsOf_congr {a : Asked} {p q : Part} (h : sameTerms q p) : termsOf a q = termsOf a p := by
  unfold termsOf
  rw [h.2]
  simp only [h.1]

theorem sameTerms_of_fixed {p q : Part} (h : q.fixed = p.fixed) : sameTerms q p :=
  ⟨fun n => covered_of_fixed h n, Part.wheel_of_fixed h⟩

theorem partOk_of_terms {a : Asked} {p q : Part} (h : sameTerms q p) (g : allOk (termsOf a p) q) : partOk a q := by
  unfold partOk; rw [termsOf_congr h]; exact g

/-- An operation of one port keeps the laws if it keeps them at its port. -/
theorem partOk_own {a : Asked} {n : Port} {p q : Part} (h : partOk a p) (f : sameTerms q p)
    (s : ∀ m, n ≠ m → q.aside m = p.aside m) (o : okAt (termsOf a p) n q) : partOk a q :=
  partOk_of_terms f (allOk_of_own h s o)

theorem partOk_event {a : Asked} {f : Part → Part} {p : Part} (h : partOk a (f p)) : partOk a (event f p) := by
  refine partOk_of_terms (p := f p) (sameTerms_of_fixed ?_) (allOk_event h (within_termsOf a _))
  rw [event, budgetAfter_fixed]

theorem partOk_budgetAfter {a : Asked} {b : Bool} {p : Part} (h : partOk a p) : partOk a (budgetAfter b p) :=
  partOk_of_terms (sameTerms_of_fixed (budgetAfter_fixed b p)) (allOk_budgetAfter h (within_termsOf a _))

/-! ### What leaves the ports, the sequence and the wheels -/

/-- The ports and what steers them are those of `p`, the wheels too. -/
def Steady (q p : Part) : Prop :=
  PortsStay q p ∧ q.mo.wheel = p.mo.wheel ∧ q.mo.pendingWheel = p.mo.pendingWheel

theorem Steady.refl (p : Part) : Steady p p := ⟨.refl p, rfl, rfl⟩

theorem Steady.trans {p q r : Part} (h : Steady r q) (g : Steady q p) : Steady r p :=
  ⟨h.1.trans g.1, h.2.1.trans g.2.1, h.2.2.trans g.2.2⟩

theorem Steady.of_aeOnly {p q : Part} (h : AeOnly q p) : Steady q p :=
  ⟨.of_aeOnly h, by rw [h.2.2.2.2.1], by rw [h.2.2.2.2.1]⟩

theorem Steady.terms {p q : Part} (h : Steady q p) : sameTerms q p :=
  ⟨fun n => by simp only [covered, h.1.2.2.1], h.2.1⟩

theorem partOk_of_steady {a : Asked} {p q : Part} (h : partOk a p) (s : Steady q p) : partOk a q :=
  partOk_of_terms s.terms (allOk_of_stay h s.1)

theorem mapAe_steady (f : AreaEngine → AreaEngine) (p : Part) : Steady (p.mapAe f) p := .refl p
theorem mapPtp_steady (f : PassThrough → PassThrough) (p : Part) : Steady (p.mapPtp f) p := .refl p
theorem complete_steady (w : ReqWord) (r : Result) (p : Part) : Steady (complete w r p) p := .of_aeOnly (AeOnly.complete w r p)
theorem reportError_steady (b : ErrorBit) (p : Part) : Steady (reportError b p) p := .of_aeOnly (AeOnly.reportError b p)
theorem reportDevice_steady (m : Bool) (p : Part) : Steady (reportDevice m p) p := .of_aeOnly (AeOnly.reportDevice m p)
theorem reportPort_steady (n : Port) (m : Bool) (p : Part) : Steady (reportPort n m p) p := .of_aeOnly (AeOnly.reportPort n m p)
theorem setSummary_steady (m : Word) (p : Part) : Steady (setSummary m p) p := .of_aeOnly (AeOnly.setSummary m p)
theorem queueWriteBack_steady (t : Target) (p : Part) : Steady (queueWriteBack t p) p := .of_aeOnly (AeOnly.queueWriteBack t p)
theorem setRequest_steady (w : ReqWord) (r : Request) (p : Part) : Steady (p.setRequest w r) p := .of_aeOnly (AeOnly.setRequest w r p)

theorem carry_steady (p : Part) : Steady (carry p) p := by
  refine ⟨carry_stay p, ?_, ?_⟩ <;> (unfold carry; split <;> rfl)

theorem carryAccess_steady (b : BusAccess) (purpose : CpPurpose) (p : Part) : Steady (carryAccess b purpose p) p :=
  (carry_steady _).trans (mapPtp_steady _ p)

theorem answerAtOnce_steady (p : Part) : Steady (answerAtOnce p) p := .refl p

theorem hostWrite_steady (b : BusAccess) (offset : Nat) (p : Part) : Steady (hostWrite b offset p) p := by
  unfold hostWrite
  split
  · exact carryAccess_steady _ _ p
  · split
    · exact .refl p
    · exact carryAccess_steady _ _ p

theorem statusRead_steady (b : BusAccess) (record : Target) (p : Part) : Steady (statusRead b record p) p := by
  unfold statusRead
  split
  · exact .refl p
  · exact carryAccess_steady _ _ p

theorem strayWrite_steady (p : Part) : Steady (strayWrite p) p := (reportError_steady _ _).trans (.refl p)

theorem dropErrorBit_steady (p : Part) : Steady (dropErrorBit p) p := by
  unfold dropErrorBit
  split
  · exact (queueWriteBack_steady _ _).trans (.refl p)
  · exact .refl p

theorem mergeWrite_steady (b : BusAccess) (record : Target) (p : Part) : Steady (mergeWrite b record p) p := by
  unfold mergeWrite
  split
  · exact (carryAccess_steady _ _ _).trans ((dropErrorBit_steady _).trans (.refl p))
  · exact (carryAccess_steady _ _ _).trans (.refl p)

theorem takenWrite_steady (b : BusAccess) (w : ReqWord) (p : Part) : Steady (takenWrite b w p) p := by
  unfold takenWrite
  split
  · exact .refl p
  · exact carryAccess_steady _ _ p

theorem arriveOutside_steady (b : BusAccess) (p : Part) : Steady (arriveOutside b p) p := by
  unfold arriveOutside
  repeat' split
  all_goals exact carryAccess_steady _ _ _

theorem holdExpired_steady (p : Part) : Steady (holdExpired p) p := by
  unfold holdExpired
  split
  · exact .refl p
  · have k := fun a => (reportError_steady .holdExpired (answerBus a p)).trans (.refl p)
    dsimp only
    split
    · exact ⟨(withdrawCp_stay _).trans (k _).1, (k _).2.1, (k _).2.2⟩
    · exact k _
    · exact k _

theorem landedBits_steady (t : Target) (mark : Bool) (p : Part) : Steady (landedBits t mark p) p := by
  unfold landedBits
  split
  · split
    · exact setSummary_steady _ p
    · exact .refl p
  · split
    · exact setSummary_steady _ p
    · exact .refl p
  · exact (setSummary_steady _ _).trans (setRequest_steady _ _ p)
  · exact (setSummary_steady _ _).trans (setRequest_steady _ _ p)
  · exact .refl p

theorem releaseRead_steady (p : Part) : Steady (releaseRead p) p := by
  unfold releaseRead
  split
  · exact carry_steady p
  · exact .refl p

theorem releaseWrite_steady (s : Source) (p : Part) : Steady (releaseWrite s p) p := by
  unfold releaseWrite
  split
  · split
    · exact carry_steady p
    · exact .refl p
  · exact .refl p

theorem writeBackDone_steady (t : Target) (mark fault : Bool) (p : Part) : Steady (writeBackDone t mark fault p) p := by
  unfold writeBackDone
  dsimp only
  refine (releaseRead_steady _).trans ((landedBits_steady t mark _).trans ?_)
  split
  · exact reportError_steady _ p
  · exact .refl p

theorem grantAt_steady (i : Nat) (p : Part) : Steady (grantAt i p) p :=
  ⟨grantAt_stay i p, (grantAt_wheels i p).1, (grantAt_wheels i p).2⟩

theorem adoptSweep_steady (a : Asked) {p : Part} (h : partOk a p) : partOk a (adoptSweep p) := by
  have k := adoptSweep_keeps p
  refine partOk_of_terms ⟨fun n => by simp only [covered, k.2.2.1], by rw [k.2.2.2.2.1]⟩ (allOk_of_aside h (fun n => ?_))
  simp

/-! ### Cue writes -/

theorem okAt_cueLanded {t : Terms} {n : Port} {v : Word} {p : Part} (h : okAt t n p) : okAt t n (cueLanded n v p) := by
  unfold cueLanded
  dsimp only
  split
  · exact okAt_cueToLane (okAt_reportPort (okAt_mapPtp h))
  · exact okAt_updPort_kept (okAt_reportPort (okAt_mapPtp h)) rfl rfl rfl rfl

theorem cueLanded_fixed (n : Port) (v : Word) (p : Part) : (cueLanded n v p).fixed = p.fixed := by
  unfold cueLanded
  dsimp only
  split
  · rw [cueToLane_fixed, reportPort_fixed]; rfl
  · rw [updPort_fixed, reportPort_fixed]; rfl

theorem cueLanded_aside {n m : Port} (h : n ≠ m) (v : Word) (p : Part) : (cueLanded n v p).aside m = p.aside m := by
  unfold cueLanded
  dsimp only
  split <;> simp [h]

theorem partOk_cueLanded {a : Asked} {n : Port} {v : Word} {p : Part} (h : partOk a p) : partOk a (cueLanded n v p) :=
  partOk_own h (sameTerms_of_fixed (cueLanded_fixed n v p)) (fun _ e => cueLanded_aside e v p) (okAt_cueLanded (h n))

theorem partOk_cpDone {a : Asked} {c : CpBurst} {fault : Bool} {word : List Byte} {p : Part} (h : partOk a p) :
    partOk a (cpDone c fault word p) := by
  unfold cpDone
  dsimp only
  split
  · exact partOk_of_steady h ((reportError_steady _ _).trans (.refl p))
  · split
    · exact partOk_cueLanded (p := answerBus _ p) (partOk_of_steady h (.refl p))
    · exact partOk_of_steady h (.refl p)

/-! ### The sequencer -/

/-- What leaves the ports, the wheel, the mode and the running sequence. -/
theorem partOk_mapMs {a : Asked} {f : Sequencer → Sequencer} {p : Part} (h : partOk a p) (m : (f p.ms).mode = p.ms.mode)
    (s : (f p.ms).active = p.ms.active) : partOk a (p.mapMs f) := by
  refine partOk_of_terms (p := p) ⟨fun n => ?_, rfl⟩ h
  simp only [covered, Part.mapMs_ms, m, s]

theorem open_of_anyClosed {p : Part} (h : anyClosed p = false) (n : Port) : (p.port n).state.closed = false := by
  unfold anyClosed at h
  rw [List.any_eq_false] at h
  simpa using h n (mem_allPorts n)

/-- With coverage asked for, a mode that covers nothing leaves every switch open. -/
theorem anyClosed_of_mode {a : Asked} {p : Part} (h : partOk a p) (c : a.covers) (m : p.ms.mode.covers = false) :
    anyClosed p = false := by
  unfold anyClosed
  rw [List.any_eq_false]
  intro n _ g
  have := (h n).cover g c
  simp [covered, m] at this

theorem partOk_setMode {a : Asked} {mode : SeqMode} {p : Part} (h : partOk a p)
    (g : a.covers → mode.covers = true ∨ anyClosed p = false) : partOk a (setMode mode p) := by
  unfold setMode
  split
  · exact h
  · have q : partOk a (reportDevice true (p.mapMs (fun m => { m with mode := mode }))) := by
      refine partOk_of_steady ?_ (reportDevice_steady _ _)
      intro n
      have o := h n
      refine ⟨o.grant, fun c ac => ?_, o.name, o.drain, o.entries⟩
      rcases g ac with g | g
      · have := o.cover c ac
        simp only [covered, Bool.and_eq_true] at this
        simp only [covered, Part.mapMs_ms, g, Bool.true_and]
        exact this.2
      · have := open_of_anyClosed g n
        rw [Part.mapMs_port] at c
        rw [this] at c; cases c
    dsimp only
    split
    · exact partOk_budgetAfter q
    · exact q

theorem partOk_beginRound {a : Asked} {p : Part} (h : partOk a p) : partOk a (beginRound p) := partOk_mapMs h rfl rfl
theorem partOk_beginCalibration {a : Asked} {p : Part} (h : partOk a p) : partOk a (beginCalibration p) := partOk_mapMs h rfl rfl
theorem partOk_reportResults {a : Asked} {p : Part} (h : partOk a p) : partOk a (reportResults p) :=
  partOk_of_steady h (queueWriteBack_steady _ _)
theorem partOk_complete {a : Asked} {w : ReqWord} {r : Result} {p : Part} (h : partOk a p) : partOk a (complete w r p) :=
  partOk_of_steady h (complete_steady _ _ _)
theorem partOk_reportDevice {a : Asked} {m : Bool} {p : Part} (h : partOk a p) : partOk a (reportDevice m p) :=
  partOk_of_steady h (reportDevice_steady _ _)
theorem partOk_endCommand {a : Asked} {p : Part} (h : partOk a p) : partOk a (endCommand p) :=
  partOk_complete (partOk_reportResults (partOk_mapMs h rfl rfl))
theorem partOk_beginIfAtRest {a : Asked} {p : Part} (h : partOk a p) : partOk a (beginIfAtRest p) := by
  unfold beginIfAtRest
  split
  · exact partOk_beginRound h
  · exact h

theorem partOk_swapSequence {a : Asked} {p : Part} (h : partOk a p) : partOk a (swapSequence p) := by
  unfold swapSequence
  split
  · exact h
  · rename_i q hq
    split
    · rename_i g
      refine partOk_complete (partOk_budgetAfter (partOk_reportDevice ?_))
      intro n
      have o := h n
      refine ⟨o.grant, fun c ac => ?_, o.name, o.drain, o.entries⟩
      have k := o.cover c ac
      simp only [covered, Bool.and_eq_true] at k
      unfold coversClosed at g
      rw [List.all_eq_true] at g
      have g' := g n (mem_allPorts n)
      rw [Part.mapMs_port] at c
      simp only [c, Bool.not_true, Bool.false_or] at g'
      simp only [covered, Part.mapMs_ms, Sequencer.swap, k.1, g', Bool.and_self]
    · exact partOk_complete (partOk_reportDevice (partOk_mapMs h rfl rfl))

theorem partOk_deliverSequence {a : Asked} {q : Option Sequence} {p : Part} (h : partOk a p) :
    partOk a (deliverSequence q p) := by
  unfold deliverSequence
  split
  · exact partOk_complete h
  · split
    · exact partOk_complete h
    · split
      · exact partOk_complete h
      · have k : ∀ q', partOk a (reportDevice true (p.mapMs (fun m => { m with pending := some q' }))) :=
          fun q' => partOk_reportDevice (partOk_mapMs h rfl rfl)
        dsimp only
        split
        · exact partOk_swapSequence (k _)
        · exact k _

theorem anyClosed_congr {p q : Part} (h : q.ports = p.ports) : anyClosed q = anyClosed p := by
  simp only [anyClosed, Part.port, h]

theorem anyClosed_mapMs (f : Sequencer → Sequencer) (p : Part) : anyClosed (p.mapMs f) = anyClosed p := rfl

theorem beginIfAtRest_ports (p : Part) : (beginIfAtRest p).ports = p.ports := by
  unfold beginIfAtRest
  split <;> rfl

theorem partOk_runCommand {a : Asked} {c : SeqCommand} {p : Part} (h : partOk a p) : partOk a (runCommand c p) := by
  unfold runCommand
  split
  · unfold seqRun
    apply partOk_complete
    split
    · exact partOk_setMode (partOk_beginIfAtRest h) (fun _ => .inl rfl)
    · exact h
  · unfold seqOnce
    split
    · exact partOk_complete h
    · rename_i g
      refine partOk_setMode (partOk_beginIfAtRest (partOk_mapMs h rfl rfl)) (fun _ => .inr ?_)
      rw [anyClosed_congr (beginIfAtRest_ports _), anyClosed_mapMs]
      simpa using g
  · unfold seqStop
    split
    · exact partOk_complete h
    · rename_i g
      split
      · exact partOk_endCommand h
      · have k : partOk a (setMode .stopped (p.mapMs (fun m => { m with command := some .stop }))) :=
          partOk_setMode (partOk_mapMs h rfl rfl) (fun _ => .inr (by rw [anyClosed_mapMs]; simpa using g))
        dsimp only
        split
        · exact k
        · exact partOk_endCommand (partOk_mapMs k rfl rfl)
  · unfold seqCalibrate
    dsimp only
    split
    · exact partOk_beginCalibration (partOk_mapMs h rfl rfl)
    · exact partOk_setMode (partOk_mapMs h rfl rfl) (fun _ => .inl rfl)

theorem partOk_takeCommand {a : Asked} {c : SeqCommand} {p : Part} (h : partOk a p) : partOk a (takeCommand c p) := by
  unfold takeCommand
  split
  · exact partOk_mapMs h rfl rfl
  · exact partOk_runCommand h

theorem partOk_warmupEnd {a : Asked} {p : Part} (h : partOk a p) : partOk a (warmupEnd p) := by
  have k : partOk a (setMode .running (beginRound (swapSequence p))) :=
    partOk_setMode (partOk_beginRound (partOk_swapSequence h)) (fun _ => .inl rfl)
  unfold warmupEnd runHeld
  split
  · exact k
  · exact partOk_runCommand (partOk_mapMs k rfl rfl)

theorem partOk_onceRoundEnd {a : Asked} {p : Part} (h : partOk a p) (m : p.ms.mode = .once) : partOk a (onceRoundEnd p) := by
  unfold onceRoundEnd
  split
  · refine partOk_endCommand (partOk_setMode (partOk_mapMs h rfl rfl) (fun c => .inr ?_))
    exact anyClosed_of_mode (p := p) h c (by rw [m]; rfl)
  · exact partOk_beginRound (partOk_mapMs h rfl rfl)

theorem partOk_roundEnd {a : Asked} {p : Part} (h : partOk a p) : partOk a (roundEnd p) := by
  have k := partOk_reportResults h
  unfold roundEnd
  dsimp only
  split
  · exact partOk_beginRound (partOk_swapSequence k)
  · exact partOk_beginCalibration k
  · rename_i m; exact partOk_onceRoundEnd k m
  · exact k
  · exact k

theorem partOk_slotEnd {a : Asked} {p : Part} (h : partOk a p) : partOk a (slotEnd p) := by
  unfold slotEnd
  split
  · exact h
  · split
    · exact partOk_endCommand (partOk_mapMs h rfl rfl)
    · split
      · exact partOk_roundEnd h
      · exact partOk_mapMs h rfl rfl

theorem partOk_abandonedEnd {a : Asked} {p : Part} (h : partOk a p) : partOk a (abandonedEnd p) := by
  have k : partOk a (p.mapMs (fun m => { m with calibration := none })) := partOk_mapMs h rfl rfl
  unfold abandonedEnd
  dsimp only
  split
  · split
    · exact partOk_beginCalibration k
    · exact partOk_setMode (partOk_beginRound k) (fun _ => .inl rfl)
  · exact partOk_beginRound k
  · exact partOk_beginRound k
  · exact partOk_endCommand k
  · exact k

theorem partOk_calibrated {a : Asked} {sum : Nat} {p : Part} (h : partOk a p) : partOk a (calibrated sum p) := by
  have k : partOk a (p.mapMs (fun m => { m with
    offset := min Config.offsetMax (sum / Config.calibrationCount), calibration := none })) := partOk_mapMs h rfl rfl
  unfold calibrated
  dsimp only
  refine partOk_endCommand (partOk_of_steady ?_ (setRequest_steady _ _ _))
  split
  · exact partOk_setMode (partOk_beginRound k) (fun _ => .inl rfl)
  · exact k

theorem partOk_calibrationConverted {a : Asked} {reading : Nat} {p : Part} (h : partOk a p) :
    partOk a (calibrationConverted reading p) := by
  unfold calibrationConverted
  split
  · exact h
  · split
    · exact partOk_abandonedEnd h
    · split
      · exact partOk_calibrated h
      · exact partOk_mapMs h rfl rfl

theorem partOk_keepResult {a : Asked} {result : Int} {p : Part} (h : partOk a p) : partOk a (keepResult result p) := by
  unfold keepResult
  split
  · exact h
  · exact partOk_mapMs h rfl rfl

theorem overTest_fixed (n : Port) (sample : Nat) (p : Part) : (overTest n sample p).fixed = p.fixed := by
  unfold overTest
  dsimp only
  split
  · rw [failPort_fixed]; rfl
  · rfl

theorem rampTest_fixed (n : Port) (sample : Nat) (p : Part) : (rampTest n sample p).fixed = p.fixed := by
  unfold rampTest
  split
  · rfl
  · split
    · unfold rampDone
      split
      · rw [setTimers_fixed, moveTo_fixed]; rfl
      · rfl
    · rfl

theorem judgeSample_fixed (n : Port) (sample : Nat) (p : Part) : (judgeSample n sample p).fixed = p.fixed := by
  unfold judgeSample
  split
  · exact rampTest_fixed n sample p
  · split
    · exact overTest_fixed n sample p
    · rfl

theorem portSample_terms (n : Port) (reading : Nat) (p : Part) : sameTerms (portSample n reading p) p := by
  have k : sameTerms (keepResult (corrected p reading : Int) p) p := by
    unfold keepResult
    split
    · exact ⟨fun _ => rfl, rfl⟩
    · exact ⟨fun _ => rfl, rfl⟩
  unfold portSample
  dsimp only
  split
  · exact k
  · refine sameTerms.trans (sameTerms_of_fixed (judgeSample_fixed n _ _)) ?_
    exact (reportPort_steady _ _ _).terms.trans k

theorem partOk_portSample {a : Asked} {n : Port} {reading : Nat} {p : Part} (h : partOk a p) :
    partOk a (portSample n reading p) :=
  partOk_own h (portSample_terms n reading p) (fun _ e => portSample_aside e reading p)
    (okAt_portSample (h n) (within_termsOf a p))

theorem partOk_updSteps {a : Asked} {f : Sequencer → Sequencer} {p : Part} (h : partOk a p)
    (m : (f p.ms).mode = p.ms.mode) (s : (f p.ms).active = p.ms.active) : partOk a (updSteps f p) := by
  unfold updSteps
  split
  · exact partOk_mapMs h m s
  · exact partOk_reportDevice (partOk_mapMs h m s)

theorem partOk_voltageSample {a : Asked} {mv : Nat} {p : Part} (h : partOk a p) : partOk a (voltageSample mv p) := by
  have k := partOk_keepResult (result := (min Config.voltageMax mv : Nat)) h
  unfold voltageSample
  dsimp only
  split
  · exact k
  · exact partOk_updSteps k rfl rfl

theorem partOk_temperatureSample {a : Asked} {c : Int} {p : Part} (h : partOk a p) : partOk a (temperatureSample c p) := by
  have k := partOk_keepResult (result := max (-40) (min 150 c)) h
  unfold temperatureSample
  dsimp only
  split
  · exact k
  · exact partOk_updSteps k rfl rfl

theorem partOk_deliverDevicePlan {a : Asked} {d : DevicePlan} {p : Part} (h : partOk a p) : partOk a (deliverDevicePlan d p) := by
  have k : partOk a (p.mapBu (fun b => { b with plan := d })) :=
    partOk_of_terms ⟨fun _ => rfl, rfl⟩ (allOk_of_aside h (fun n => mapBu_aside rfl n))
  unfold deliverDevicePlan storeDevicePlan
  split
  · apply partOk_complete
    dsimp only
    split
    · exact k
    · exact partOk_reportDevice k
  · exact partOk_complete h

/-! ### The laws of the part, port by port -/

/-- Nothing asked for. -/
def Asked.nothing : Asked := ⟨False, False, False, False, False⟩

theorem openLaw_iff (p : Part) : openLaw p ↔ partOk { Asked.nothing with openZero := True } p :=
  ⟨fun h n => ⟨fun _ => h n, fun _ x => x.elim, fun _ x => x.elim, fun x => x.elim, fun x => x.elim⟩,
   fun h n => (h n).grant trivial⟩

theorem coverageLaw_iff (p : Part) : coverageLaw p ↔ partOk { Asked.nothing with covers := True } p :=
  ⟨fun h n => ⟨fun x => x.elim, fun c _ => h n c, fun _ x => x.elim, fun x => x.elim, fun x => x.elim⟩,
   fun h n c => (h n).cover c trivial⟩

theorem wheelLaw_iff (p : Part) : wheelLaw p ↔
    wheelShape p.mo.wheel ∧ (∀ w, p.mo.pendingWheel = some w → wheelShape w) ∧
    partOk { Asked.nothing with names := True, drainHeld := True } p :=
  ⟨fun h => ⟨h.1, h.2.1, fun n =>
      ⟨fun x => x.elim, fun _ x => x.elim, fun m _ => h.2.2.1 n m, fun _ => h.2.2.2 n, fun x => x.elim⟩⟩,
   fun h => ⟨h.1, h.2.1, fun n m => (h.2.2 n).name m trivial, fun n => (h.2.2 n).drain trivial⟩⟩

theorem mem_entriesOf {n : Port} {e : Entry} {p : Part} : e ∈ p.entriesOf n ↔ e ∈ p.bu.queue ∧ e.port = n := by
  simp [Part.entriesOf]

theorem filter_port_of_nodup {q : List Entry} (h : (q.map Entry.port).Nodup) (n : Port) :
    q.filter (fun e => e.port == n) = [] ∨ ∃ e, q.filter (fun e => e.port == n) = [e] := by
  induction q with
  | nil => exact .inl rfl
  | cons x rest ih =>
    rw [List.map_cons, List.nodup_cons] at h
    by_cases g : x.port = n
    · refine .inr ⟨x, ?_⟩
      rw [List.filter_cons_of_pos (by simp [g]), List.filter_eq_nil_iff.mpr]
      intro e he k
      exact h.1 (List.mem_map.mpr ⟨e, he, by rw [g]; simpa using k⟩)
    · rw [List.filter_cons_of_neg (by simp [g])]
      exact ih h.2

theorem nodup_of_filter_port {q : List Entry}
    (h : ∀ n, q.filter (fun e => e.port == n) = [] ∨ ∃ e, q.filter (fun e => e.port == n) = [e]) :
    (q.map Entry.port).Nodup := by
  induction q with
  | nil => exact List.nodup_nil
  | cons x rest ih =>
    rw [List.map_cons, List.nodup_cons]
    have k : rest.filter (fun e => e.port == x.port) = [] := by
      rcases h x.port with g | ⟨e, g⟩ <;> rw [List.filter_cons_of_pos (by simp)] at g
      · cases g
      · exact (List.cons.inj g).2
    constructor
    · rw [List.mem_map]
      rintro ⟨e, he, hp⟩
      have := List.filter_eq_nil_iff.mp k e he
      simp [hp] at this
    · refine ih (fun n => ?_)
      by_cases g : x.port = n
      · exact .inl (by rw [← g]; exact k)
      · have := h n
        rwa [List.filter_cons_of_neg (by simp [g])] at this

theorem queueLaw_iff (p : Part) : queueLaw p ↔ partOk { Asked.nothing with queued := True } p := by
  constructor
  · rintro ⟨d, f, w⟩ n
    refine ⟨fun x => x.elim, fun _ x => x.elim, fun _ x => x.elim, fun x => x.elim, fun _ => ?_⟩
    rcases filter_port_of_nodup d n with g | ⟨e, g⟩
    · have g' : p.entriesOf n = [] := g
      rw [g']
      unfold entriesFit
      split
      · rename_i s
        obtain ⟨e, he, hp⟩ := w n s
        have := mem_entriesOf.mpr ⟨he, hp⟩
        rw [g'] at this; cases this
      · exact .inl rfl
      · rfl
    · have g' : p.entriesOf n = [e] := g
      have m := mem_entriesOf.mp (show e ∈ p.entriesOf n by rw [g']; exact List.mem_singleton.mpr rfl)
      have k := f e m.1
      rw [m.2] at k
      rw [g']
      rcases k with s | ⟨s, full⟩ <;> rw [s]
      · exact ⟨e, rfl⟩
      · exact .inr ⟨e, rfl, full⟩
  · intro h
    have fit : ∀ n, entriesFit (p.port n).state (p.entriesOf n) := fun n => (h n).entries trivial
    have one : ∀ n, p.entriesOf n = [] ∨ ∃ e, p.entriesOf n = [e] := by
      intro n
      have k := fit n
      unfold entriesFit at k
      split at k
      · exact .inr k
      · rcases k with k | ⟨e, k, -⟩
        · exact .inl k
        · exact .inr ⟨e, k⟩
      · exact .inl k
    refine ⟨nodup_of_filter_port one, fun e he => ?_, fun n s => ?_⟩
    · have m := mem_entriesOf.mpr ⟨he, rfl⟩
      have k := fit e.port
      unfold entriesFit at k
      split at k
      · rename_i s; exact .inl s
      · rename_i s
        rcases k with k | ⟨x, k, full⟩
        · rw [k] at m; cases m
        · rw [k, List.mem_singleton] at m
          exact .inr ⟨s, by rw [m]; exact full⟩
      · rw [k] at m; cases m
    · have k := fit n
      rw [s] at k
      obtain ⟨e, k⟩ := k
      have m := mem_entriesOf.mp (show e ∈ p.entriesOf n by rw [k]; exact List.mem_singleton.mpr rfl)
      exact ⟨e, m.1, m.2⟩

end Sys2Proof.Machine
end

