-- ==== Sys2Proof/Laws/BudgetTotals.lean ====
section
/-! SUPPORT. The budget's totals: what leaves them alone, what a grant adds, and that the budget unit's work after an event brings
about the budget's laws (R47, R48, R57, R64). -/

namespace Sys2Proof.Machine

/-! ### What the totals look at -/

theorem committed_congr {p q : Part} (h : ∀ n, closedGrant q n = closedGrant p n) : committed q = committed p := by
  unfold committed
  rw [show closedGrant q = closedGrant p from funext h]

theorem closedGrant_of_aside {n : Port} {p q : Part} (h : q.aside n = p.aside n) : closedGrant q n = closedGrant p n := by
  unfold closedGrant
  rw [port_of_aside h]

theorem committed_of_aside {p q : Part} (h : ∀ n, q.aside n = p.aside n) : committed q = committed p :=
  committed_congr (fun n => closedGrant_of_aside (h n))

theorem ceiling_of_fixed {p q : Part} (h : q.fixed = p.fixed) : ceiling q = ceiling p := by
  unfold ceiling ceilingStep
  rw [Part.voltageStep_of_fixed h, Part.temperatureStep_of_fixed h, Part.plan_of_fixed h, Part.mrc_of_fixed h]

theorem shedding_congr {p q : Part} (l : q.bu.shedList = p.bu.shedList) (h : ∀ n, (q.port n).grant = (p.port n).grant) :
    shedding q = shedding p := by
  unfold shedding
  rw [l, show (fun n => (q.port n).grant) = (fun n => (p.port n).grant) from funext h]

theorem shedCandidate_congr {p q : Part} (l : q.bu.shedList = p.bu.shedList) (n : Port)
    (s : (q.port n).state = (p.port n).state) (e : (q.port n).plan = (p.port n).plan) :
    shedCandidate q n = shedCandidate p n := by
  unfold shedCandidate; rw [l, s, e]

/-- A total over the ports, one of which changes. -/
theorem sum_change {f g : Port → Nat} {n : Port} (h : ∀ m, n ≠ m → f m = g m) :
    (allPorts.map f).sum + g n = (allPorts.map g).sum + f n := by
  have h0 := h 0; have h1 := h 1; have h2 := h 2; have h3 := h 3; have h4 := h 4; have h5 := h 5
  have h6 := h 6; have h7 := h 7; have h8 := h 8; have h9 := h 9; have h10 := h 10; have h11 := h 11
  unfold allPorts
  simp only [List.map_cons, List.map_nil, List.sum_cons, List.sum_nil]
  fin_cases n <;> simp at * <;> omega

/-! ### A grant -/

theorem grant_isOver (e : Entry) (p : Part) : (grant e p).bu.isOver = p.bu.isOver := by
  have drop : ∀ q : Part, (dropEntry e.port q).bu.isOver = q.bu.isOver := fun q => by rw [dropEntry_bu]
  have stamp : ∀ q : Part, (giveStamp e.port q).bu.isOver = q.bu.isOver := by
    intro q
    unfold giveStamp
    dsimp only
    rw [updPort_bu, Part.mapBu_bu]
    split
    · unfold renumber
      rw [Part.mapBu_bu, stampFrom_bu]
    · rfl
  have move : ∀ (st : PortState) (q : Part), (moveTo e.port st q).bu.isOver = q.bu.isOver := fun st q => by rw [moveTo_bu]
  unfold grant grantPort
  split
  · rw [setTimers, updPort_bu, setGrant_bu, move, stamp, drop]
  · rw [clearCounts, Part.mapMs_bu, setTimers, updPort_bu, setGrant_bu, move, stamp, drop]

/-- A grant adds at most the entry's delta to the committed total (R58). -/
theorem committed_grant_le {e : Entry} {p : Part} (h : (p.port e.port).state.closed = false → (p.port e.port).grant = 0) :
    committed (grant e p) ≤ committed p + entryDelta p e := by
  have s := sum_change (f := closedGrant (grant e p)) (g := closedGrant p) (n := e.port)
    (fun m g => closedGrant_of_aside (grant_aside g p))
  have o : closedGrant (grant e p) e.port ≤ e.current := by
    have k := (grant_own p (n := e.port) rfl).1
    unfold Granted at k
    unfold closedGrant Entry.current
    cases hk : e.kind <;> simp only [hk] at k ⊢ <;> split <;> simp_all
  have d : e.current ≤ closedGrant p e.port + entryDelta p e := by
    unfold entryDelta closedGrant
    split
    · omega
    · rename_i c; rw [h (by simpa using c)]; omega
  unfold committed
  omega

/-! ### The walk -/

/-- Only the law that an open switch holds no grant. -/
def grantsOnly : Terms := ⟨True, False, False, fun _ => True, fun _ => True⟩

theorem grantsOnly_within (p : Part) : Within grantsOnly p := ⟨fun _ _ => trivial, fun _ _ => trivial⟩

theorem allOk_of_openLaw {p : Part} (h : openLaw p) : allOk grantsOnly p :=
  fun n => ⟨fun _ => h n, fun _ => trivial, fun _ => trivial, fun x => x.elim, fun x => x.elim⟩

theorem openLaw_of_allOk {p : Part} (h : allOk grantsOnly p) : openLaw p := fun n => (h n).grant trivial

/-- NORMAL and within the ceiling. -/
def withinCeiling (p : Part) : Prop := p.bu.isOver = false ∧ committed p ≤ ceiling p

theorem ShedsOnly.keeps {p q : Part} (h : ShedsOnly q p) :
    committed q = committed p ∧ ceiling q = ceiling p ∧ q.bu.isOver = p.bu.isOver := by
  obtain ⟨a, b, rfl⟩ := h
  exact ⟨rfl, rfl, rfl⟩

theorem setFlags_totals (n : Port) (f : Flags → Flags) (p : Part) :
    committed (setFlags n f p) = committed p ∧ ceiling (setFlags n f p) = ceiling p ∧ (setFlags n f p).bu = p.bu := by
  refine ⟨committed_congr (fun m => ?_), ceiling_of_fixed (setFlags_fixed n f p), setFlags_bu n f p⟩
  unfold closedGrant
  by_cases e : n = m
  · subst e; rw [setFlags_port_self]
  · rw [setFlags_port_ne e]

theorem preempt_within {e : Entry} {p : Part} (h : withinCeiling p) : withinCeiling (preempt e p) := by
  rcases preempt_cases e p with g | g
  · have k := g.keeps
    exact ⟨k.2.2.trans h.1, by rw [k.1, k.2.1]; exact h.2⟩
  · have k := setFlags_totals e.port (fun f => { f with short := true }) p
    rw [g]
    exact ⟨by rw [k.2.2]; exact h.1, by rw [k.1, k.2.1]; exact h.2⟩

theorem walk_within {l : List Entry} {p : Part} (o : allOk grantsOnly p) (h : withinCeiling p) : withinCeiling (walk l p) := by
  induction l generalizing p with
  | nil => exact h
  | cons e rest ih =>
    unfold walk
    split
    · exact ih o h
    · split
      · rename_i g
        refine ih (allOk_grant o trivial) ⟨(grant_isOver e p).trans h.1, ?_⟩
        have k := committed_grant_le (e := e) (openLaw_of_allOk o e.port)
        unfold fits at g
        simp only [Bool.and_eq_true, decide_eq_true_eq] at g
        rw [ceiling_of_fixed (grant_fixed e p)]
        omega
      · split
        · exact preempt_within h
        · exact h

theorem markCoverage_port (l : List Entry) (p : Part) (n : Port) :
    ∃ f : Flags, (markCoverage l p).port n = { p.port n with flags := f } := by
  induction l generalizing p with
  | nil => exact ⟨(p.port n).flags, rfl⟩
  | cons e rest ih =>
    obtain ⟨f, hf⟩ := ih (setFlags e.port (fun f => { f with unwatched := !covered p e.port }) p)
    refine ⟨f, hf.trans ?_⟩
    by_cases g : e.port = n
    · subst g; rw [setFlags_port_self]
    · rw [setFlags_port_ne g]

theorem markCoverage_totals (l : List Entry) (p : Part) :
    committed (markCoverage l p) = committed p ∧ ceiling (markCoverage l p) = ceiling p ∧
    shedding (markCoverage l p) = shedding p ∧ (∀ n, shedCandidate (markCoverage l p) n = shedCandidate p n) := by
  have b := markCoverage_bu l p
  refine ⟨committed_congr (fun n => ?_), ceiling_of_fixed (markCoverage_fixed l p),
    shedding_congr (by rw [b]) (fun n => ?_), fun n => shedCandidate_congr (by rw [b]) n ?_ ?_⟩ <;>
  obtain ⟨f, hf⟩ := markCoverage_port l p n
  · unfold closedGrant; rw [hf]
  · rw [hf]
  · rw [hf]
  · rw [hf]

/-! ### The shed step -/

theorem shedUntil_enough (need : Nat) (l : List Port) (p : Part) :
    (∀ n, n ∈ p.bu.shedList → n ∈ (shedUntil need l p).bu.shedList) ∧
    (committed (shedUntil need l p) + need ≤ ceiling (shedUntil need l p) + shedding (shedUntil need l p) ∨
      ∀ n ∈ l, n ∈ (shedUntil need l p).bu.shedList) := by
  induction l generalizing p with
  | nil => exact ⟨fun _ h => h, .inr (fun _ h => (nomatch h))⟩
  | cons a rest ih =>
    unfold shedUntil
    split
    · rename_i g; exact ⟨fun _ h => h, .inl g⟩
    · have k := ih (sendShedOrder a p)
      have up : ∀ n, n ∈ p.bu.shedList ∨ n = a → n ∈ (sendShedOrder a p).bu.shedList := by
        intro n h
        simp only [sendShedOrder, Part.mapBu_bu, List.mem_append, List.mem_singleton]
        exact h
      refine ⟨fun n h => k.1 n (up n (.inl h)), ?_⟩
      rcases k.2 with c | c
      · exact .inl c
      · refine .inr (fun n h => ?_)
        rcases List.mem_cons.mp h with e | e
        · exact k.1 n (up n (.inr e))
        · exact c n e

/-- After the shed step the rest is within the ceiling, or no candidate is left (R64). -/
theorem shedStep_enough (p : Part) :
    committed (shedStep p) ≤ ceiling (shedStep p) + shedding (shedStep p) ∨ ∀ n, shedCandidate (shedStep p) n = false := by
  have k := shedUntil_enough 0 (shedCandidates p (fun _ => true)) p
  rw [Nat.add_zero, show shedUntil 0 (shedCandidates p (fun _ => true)) p = shedStep p from rfl] at k
  rcases k.2 with c | c
  · exact .inl c
  · refine .inr (fun n => ?_)
    rw [Bool.eq_false_iff]
    intro g
    have port : (shedStep p).port n = p.port n := (shedStep_only p).port n
    have listed : n ∉ (shedStep p).bu.shedList := by
      unfold shedCandidate at g
      simp only [Bool.and_eq_true, Bool.not_eq_true', List.contains_eq_mem, decide_eq_false_iff_not] at g
      exact g.2
    refine listed (c n ?_)
    unfold shedCandidates
    rw [mem_sortBy, List.mem_filter]
    refine ⟨mem_allPorts n, ?_⟩
    unfold shedCandidate at g ⊢
    rw [port] at g
    simp only [Bool.and_eq_true, Bool.not_eq_true', List.contains_eq_mem, decide_eq_false_iff_not] at g ⊢
    exact ⟨⟨g.1, fun x => listed (k.1 n x)⟩, trivial⟩

/-! ### The budget unit's work after an event -/

theorem budgetTest_totals (p : Part) :
    committed (budgetTest p) = committed p ∧ ceiling (budgetTest p) = ceiling p ∧
    (budgetTest p).bu.isOver = decide (ceiling p < committed p) := by
  have k := budgetTest_keeps p
  refine ⟨committed_of_aside k.2.1, ceiling_of_fixed k.1, ?_⟩
  unfold budgetTest
  split
  · rename_i h; exact h
  · rw [reportDevice_bu, Part.mapBu_bu]

/-- The shed step has ended, where the part is OVER. -/
def shedEnough (p : Part) : Prop :=
  p.bu.isOver = true → committed p ≤ ceiling p + shedding p ∨ ∀ n, shedCandidate p n = false

theorem beforeDecision_laws (p : Part) : budgetLaw (beforeDecision p) ∧ shedEnough (beforeDecision p) := by
  have k := budgetTest_totals p
  have law : budgetLaw (budgetTest p) := by unfold budgetLaw; rw [k.1, k.2.1]; exact k.2.2
  unfold beforeDecision
  split
  · have s := (shedStep_only (budgetTest p)).keeps
    refine ⟨?_, fun _ => shedStep_enough _⟩
    unfold budgetLaw at law ⊢
    rw [s.1, s.2.1, s.2.2]; exact law
  · rename_i g
    exact ⟨law, fun x => absurd x g⟩

theorem grantDecision_laws {p : Part} (o : openLaw p) (h : budgetLaw p) (s : shedEnough p) :
    budgetLaw (grantDecision p) ∧ shedEnough (grantDecision p) := by
  have m := markCoverage_totals (queueOrder p.bu.queue) p
  have b := markCoverage_bu (queueOrder p.bu.queue) p
  have key : budgetLaw (markCoverage (queueOrder p.bu.queue) p) ∧ shedEnough (markCoverage (queueOrder p.bu.queue) p) := by
    unfold budgetLaw shedEnough at *
    rw [m.1, m.2.1, m.2.2.1, b]
    refine ⟨h, fun x => ?_⟩
    rcases s x with s | s
    · exact .inl s
    · exact .inr (fun n => (m.2.2.2 n).trans (s n))
  unfold grantDecision
  dsimp only
  split
  · exact key
  · rename_i g
    have n : (markCoverage (queueOrder p.bu.queue) p).bu.isOver = false := by simpa using g
    have w : withinCeiling (markCoverage (queueOrder p.bu.queue) p) := by
      refine ⟨n, ?_⟩
      have x := key.1
      unfold budgetLaw at x
      rw [n] at x
      have x := x.symm
      rw [decide_eq_false_iff_not] at x
      omega
    have r := walk_within (l := queueOrder (markCoverage (queueOrder p.bu.queue) p).bu.queue)
      (allOk_markCoverage (allOk_of_openLaw o)) w
    refine ⟨?_, fun x => ?_⟩
    · unfold budgetLaw
      rw [r.1, eq_comm, decide_eq_false_iff_not]
      have := r.2
      omega
    · rw [r.1] at x; cases x

theorem shortfallTest_totals (p : Part) :
    committed (shortfallTest p) = committed p ∧ ceiling (shortfallTest p) = ceiling p ∧
    (shortfallTest p).bu = { p.bu with shortfall := inShortfall p } := by
  have k := shortfallTest_keeps p
  refine ⟨committed_of_aside k.2.1, ceiling_of_fixed k.1, ?_⟩
  unfold shortfallTest
  split
  · rename_i h; rw [← h]
  · rw [reportDevice_bu, Part.mapBu_bu]

theorem shortfallTest_laws {p : Part} (h : budgetLaw p) (s : shedEnough p) :
    budgetLaw (shortfallTest p) ∧ shedLaw (shortfallTest p) := by
  have k := shortfallTest_totals p
  have port := (shortfallTest_keeps p).2.2
  have sh : shedding (shortfallTest p) = shedding p :=
    shedding_congr (by rw [k.2.2]) (fun n => by rw [port n])
  have c : ∀ n, shedCandidate (shortfallTest p) n = shedCandidate p n :=
    fun n => shedCandidate_congr (by rw [k.2.2]) n (by rw [port n]) (by rw [port n])
  unfold budgetLaw shedLaw inShortfall
  rw [k.1, k.2.1, sh, k.2.2]
  refine ⟨h, rfl, fun x => ?_⟩
  rcases s x with s | s
  · exact .inl s
  · exact .inr (fun n => (c n).trans (s n))

/-- The budget unit's work after an event brings about the budget's laws, whatever held before. -/
theorem budgetAfter_laws {trigger : Bool} {p : Part} (o : openLaw p) :
    budgetLaw (budgetAfter trigger p) ∧ shedLaw (budgetAfter trigger p) := by
  have b := beforeDecision_laws p
  have o' : openLaw (beforeDecision p) :=
    openLaw_of_allOk (allOk_of_aside (allOk_of_openLaw o) (beforeDecision_keeps p).2.1)
  rcases budgetAfter_eq trigger p with e | e <;> rw [e]
  · exact shortfallTest_laws b.1 b.2
  · have g := grantDecision_laws o' b.1 b.2
    exact shortfallTest_laws g.1 g.2

theorem event_laws {f : Part → Part} {p : Part} (o : openLaw (f p)) : budgetLaw (event f p) ∧ shedLaw (event f p) :=
  budgetAfter_laws o

end Sys2Proof.Machine
end

