-- ==== Sys2Proof/Laws/CommandLaws.lean ====
section
/-! SUPPORT. The laws of the port table and the grant queue under a swap of the wheel, the end of every command, the copies the area
engine delivers, the completions of bursts, the controller's accesses and presence loss. -/

namespace Sys2Proof.Machine

/-! ### A swap of the wheel -/

theorem inService_of_mustName {r : PortRecord} (h : mustName r = true) : inService r = true := by
  rw [mustName_iff] at h
  unfold inService PortRecord.laneUseNow
  rcases h with ⟨s | s, l⟩ | ⟨s, d, hd, l⟩
  · simp [s, l]
  · simp [s, l]
  · simp [s, hd, l]

theorem partOk_wheelIn {a : Asked} {w : List Phase} {p : Part} (h : partOk a p) (g : namesInService p w = true) :
    partOk a (wheelIn w p) := by
  refine partOk_of_steady (p := p.mapMo (fun o => { o with wheel := w, pendingWheel := none })) ?_
    ((reportDevice_steady _ _).trans (queueWriteBack_steady _ _))
  intro n
  have o := h n
  refine ⟨o.grant, o.cover, fun m _ => ?_, o.drain, o.entries⟩
  unfold namesInService at g
  rw [List.all_eq_true] at g
  have k := g n (mem_allPorts n)
  rw [Part.mapMo_port] at m
  simpa [inService_of_mustName m] using k

theorem partOk_retest {a : Asked} {n : Port} {p : Part} (h : partOk a p) : partOk a (retest n p) := by
  refine partOk_own h (sameTerms_of_fixed (retest_fixed n p)) (fun _ e => retest_aside e p) ?_
  unfold retest
  split
  · rename_i g
    exact okAt_testAdmission (h n) (within_termsOf a p) (by rw [g.1]; rfl)
  · exact h n

/-- An operation that keeps the laws at every port keeps them made for every port of a list. -/
theorem partOk_foldl {a : Asked} {f : Port → Part → Part} (k : ∀ n p, partOk a p → partOk a (f n p)) (l : List Port) {p : Part}
    (h : partOk a p) : partOk a (l.foldl (fun p n => f n p) p) := by
  induction l generalizing p with
  | nil => exact h
  | cons n rest ih => exact ih (k n p h)

theorem partOk_forPorts {a : Asked} {f : Port → Part → Part} (k : ∀ n p, partOk a p → partOk a (f n p)) {p : Part}
    (h : partOk a p) : partOk a (forPorts f p) := partOk_foldl k allPorts h

theorem partOk_swapWheel {a : Asked} {p : Part} (h : partOk a p) : partOk a (swapWheel p) := by
  rcases swapWheel_cases p with ⟨-, e⟩ | ⟨w, -, g, e⟩ | ⟨w, -, -, e⟩ <;> rw [e]
  · exact h
  · exact partOk_complete (partOk_budgetAfter (partOk_foldl (fun _ _ => partOk_retest) allPorts (partOk_wheelIn h g)))
  · refine partOk_complete (partOk_reportDevice ?_)
    exact partOk_of_terms (p := p) ⟨fun _ => rfl, rfl⟩ (allOk_of_stay h (.refl p))

theorem partOk_grantAt {a : Asked} {i : Nat} {p : Part} (h : partOk a p) : partOk a (grantAt i p) :=
  partOk_of_steady h (grantAt_steady i p)

theorem partOk_moDecision {a : Asked} {p : Part} (h : partOk a p) : partOk a (moDecision p) := by
  rcases moDecision_cases p with e | ⟨i, -, -, e⟩ <;> rw [e]
  · exact h
  · rcases swapAfter_cases i p.mo.pointer (grantAt i p) with g | g <;> rw [g]
    · exact partOk_swapWheel (partOk_grantAt h)
    · exact partOk_grantAt h

theorem partOk_idleSwap {a : Asked} {p : Part} (h : partOk a p) : partOk a (idleSwap p) := by
  rcases idleSwap_cases p with ⟨-, e⟩ | ⟨-, e⟩ <;> rw [e]
  · exact partOk_moDecision (partOk_swapWheel h)
  · exact h

/-- The end of a command keeps the laws. -/
theorem partOk_settle {a : Asked} {p : Part} (h : partOk a p) : partOk a (settle p) :=
  partOk_idleSwap (partOk_moDecision (adoptSweep_steady a h))

/-! ### Deliveries -/

theorem partOk_deliverWheel {a : Asked} {w : Option (List Phase)} {p : Part} (h : partOk a p) : partOk a (deliverWheel w p) := by
  unfold deliverWheel
  split
  · exact partOk_complete h
  · split
    · exact partOk_complete h
    · split
      · exact partOk_complete h
      · rename_i w _ _
        have k : partOk a (reportDevice true (p.mapMo (fun o => { o with pendingWheel := some w }))) :=
          partOk_reportDevice (partOk_of_terms (p := p) ⟨fun _ => rfl, rfl⟩ (allOk_of_stay h (.refl p)))
        dsimp only
        split
        · exact k
        · exact partOk_swapWheel k

/-- An operation of one port that keeps the laws there. -/
theorem partOk_port {a : Asked} {n : Port} {p q : Part} (h : partOk a p) (f : q.fixed = p.fixed)
    (s : ∀ m, n ≠ m → q.aside m = p.aside m) (o : okAt (termsOf a p) n p → Within (termsOf a p) p → okAt (termsOf a p) n q) :
    partOk a q := partOk_own h (sameTerms_of_fixed f) s (o (h n) (within_termsOf a p))

theorem partOk_deliver {a : Asked} {s : Source} {bytes : List Byte} {p : Part} (h : partOk a p) : partOk a (deliver s bytes p) := by
  unfold deliver
  split
  · exact partOk_event (partOk_deliverDevicePlan h)
  · exact partOk_deliverWheel h
  · exact partOk_deliverSequence h
  · exact partOk_event (partOk_port h (by simp) (fun _ e => by simp [e]) okAt_deliverApply)

theorem partOk_copyReadDone {a : Asked} {s : Source} {fault : Bool} {bytes : List Byte} {p : Part} (h : partOk a p) :
    partOk a (copyReadDone s fault bytes p) := by
  have k := partOk_of_steady h (releaseWrite_steady s p)
  unfold copyReadDone
  dsimp only
  split
  · exact partOk_complete k
  · exact partOk_deliver k

/-! ### Completions of port bursts -/

theorem partOk_accessDone {a : Asked} {n : Port} {x : Answer} {p : Part} (h : partOk a p) :
    partOk a (event (accessDone n x) p) :=
  partOk_event (partOk_port h (by simp) (fun _ e => by simp [e]) (fun o _ => okAt_accessDone o))

theorem partOk_setLists {a : Asked} {n : Port} {l : List LaneAccess} {p : Part} (h : partOk a p) :
    partOk a (p.mapMo (fun o => { o with lists := o.lists.put n l })) := by
  refine partOk_of_terms (p := p) ⟨fun _ => rfl, rfl⟩ (fun m => h m)

theorem markTest_steady (n : Port) (x : LaneAccess) (b : Bool) (p : Part) : Steady (markTest n x b p) p := by
  unfold markTest
  split
  · exact setSummary_steady _ p
  · exact .refl p

theorem partOk_portBurstDone {a : Asked} {n : Port} {x : LaneAccess} {offset length : Nat} {last discard fault : Bool}
    {data : List Byte} {p : Part} (h : partOk a p) :
    partOk a (portBurstDone n x offset length last discard fault data p) := by
  unfold portBurstDone
  dsimp only
  have k : partOk a (if last && x.kind == .put then markTest n x (x.after offset length fault data).markFault p else p) := by
    split
    · exact partOk_of_steady h (markTest_steady _ _ _ _)
    · exact h
  revert k
  generalize (if last && x.kind == .put then markTest n x (x.after offset length fault data).markFault p else p) = q
  intro k
  split
  · exact k
  · split
    · exact partOk_accessDone k
    · split
      · exact k
      · split
        · exact partOk_accessDone (partOk_setLists k)
        · exact partOk_setLists k

theorem partOk_burstDone {a : Asked} {f : InFlight} {fault : Bool} {data : List Byte} {p : Part} (h : partOk a p) :
    partOk a (burstDone f fault data p) := by
  unfold burstDone
  split
  · split
    · exact h
    · exact partOk_cpDone h
  · split
    · exact h
    · exact partOk_of_steady h (writeBackDone_steady _ _ _ p)
  · split
    · exact h
    · exact partOk_copyReadDone h
  · exact partOk_portBurstDone h

/-- The completion of a burst keeps the laws. -/
theorem partOk_afterBurst {a : Asked} {f : InFlight} {fault : Bool} {data : List Byte} {p : Part} (h : partOk a p) :
    partOk a (afterBurst f fault data p) := by
  refine partOk_settle (partOk_burstDone ?_)
  exact partOk_of_terms (p := p) ⟨fun _ => rfl, rfl⟩ (fun m => h m)

/-! ### The controller's accesses -/

theorem partOk_startWork {a : Asked} {w : ReqWord} {code : Byte} {p : Part} (h : partOk a p) : partOk a (startWork w code p) := by
  unfold startWork
  split
  · exact partOk_of_steady h (mapAe_steady _ p)
  · exact partOk_of_steady h (mapAe_steady _ p)
  · exact partOk_of_steady h (mapAe_steady _ p)
  · exact partOk_takeCommand h
  · exact partOk_of_terms (p := p) ⟨fun _ => rfl, rfl⟩ (fun m => h m)
  · exact partOk_of_steady h (mapAe_steady _ p)
  · exact partOk_event (partOk_port h (by simp) (fun _ e => by simp [e]) (fun o _ => okAt_clearRequest o))
  · exact partOk_event (partOk_port h (by simp) (fun _ e => by simp [e]) (fun o _ => okAt_restartRequest o))
  · exact partOk_complete h

theorem partOk_requestWrite {a : Asked} {b : BusAccess} {w : ReqWord} {p : Part} (h : partOk a p) :
    partOk a (requestWrite b w p) := by
  unfold requestWrite
  split
  · exact partOk_of_steady h ((reportError_steady _ _).trans (answerAtOnce_steady p))
  · split
    · exact partOk_of_steady h ((reportError_steady _ _).trans (answerAtOnce_steady p))
    · exact partOk_startWork (partOk_of_steady h ((takenWrite_steady _ _ _).trans (setRequest_steady _ _ p)))

theorem partOk_arriveInArea {a : Asked} {b : BusAccess} {offset : Nat} {p : Part} (h : partOk a p) :
    partOk a (arriveInArea b offset p) := by
  unfold arriveInArea
  split
  · exact partOk_of_steady h (carryAccess_steady _ _ p)
  · exact partOk_of_steady h (hostWrite_steady _ _ p)
  · exact partOk_of_steady h (statusRead_steady _ _ p)
  · exact partOk_of_steady h (strayWrite_steady p)
  · exact partOk_of_steady h (statusRead_steady _ _ p)
  · exact partOk_of_steady h (mergeWrite_steady _ _ p)
  · exact partOk_of_steady h (carryAccess_steady _ _ p)
  · exact partOk_requestWrite h

/-- A controller access keeps the laws as it arrives. -/
theorem partOk_arrive {a : Asked} {b : BusAccess} {p : Part} (h : partOk a p) : partOk a (arrive b p) := by
  unfold arrive
  split
  · exact partOk_arriveInArea h
  · exact partOk_of_steady h (arriveOutside_steady b p)

theorem partOk_present {a : Asked} {b : BusAccess} {p : Part} (h : partOk a p) : partOk a (present b p) := by
  unfold present
  split
  · exact partOk_of_steady h (mapPtp_steady _ p)
  · exact partOk_arrive h

theorem partOk_arrivePresented {a : Asked} {p : Part} (h : partOk a p) : partOk a (arrivePresented p) := by
  unfold arrivePresented
  split
  · exact h
  · exact partOk_arrive (partOk_of_steady h (mapPtp_steady _ p))

/-! ### Presence -/

theorem partOk_mapMrc {a : Asked} {f : ModeReset → ModeReset} {p : Part} (h : partOk a p) : partOk a (p.mapMrc f) :=
  partOk_of_terms (p := p) ⟨fun _ => rfl, rfl⟩ (fun m => h m)

theorem partOk_setTimers {a : Asked} {n : Port} {f : PortTimers → PortTimers} {p : Part} (h : partOk a p) :
    partOk a (setTimers n f p) :=
  partOk_port h (by simp) (fun _ e => by simp [e]) (fun o _ => okAt_setTimers o)

theorem okAt_storeDeferred {t : Terms} {n : Port} {p : Part} (h : okAt t n p)
    (s : (p.port n).state ≠ .on ∧ (p.port n).state ≠ .orphan) : okAt t n (storeDeferred n p) := by
  unfold storeDeferred
  split
  · exact h
  · refine okAt_complete (okAt_storePlan (okAt_takeDeferred h) ?_)
    rw [takeDeferred, updPort_port_self]; exact s

theorem storeDeferred_fixed (n : Port) (p : Part) : (storeDeferred n p).fixed = p.fixed := by
  unfold storeDeferred
  split
  · rfl
  · rw [complete_fixed, storePlan_fixed, takeDeferred, updPort_fixed]

theorem storeDeferred_aside {n m : Port} (e : n ≠ m) (p : Part) : (storeDeferred n p).aside m = p.aside m := by
  unfold storeDeferred
  split
  · rfl
  · rw [complete_aside, storePlan_aside e, takeDeferred, updPort_aside e]

theorem unplugPort_fixed (n : Port) (p : Part) : (unplugPort n p).fixed = p.fixed := by
  unfold unplugPort
  rw [storeDeferred_fixed, handOver_fixed, updPort_fixed, moveTo_fixed]

theorem unplugPort_aside {n m : Port} (e : n ≠ m) (p : Part) : (unplugPort n p).aside m = p.aside m := by
  unfold unplugPort
  rw [storeDeferred_aside e, handOver_aside, updPort_aside e, moveTo_aside e]

theorem okAt_unplugged {t : Terms} {n : Port} {q : Part} (h : okAt t n q) (s : (q.port n).state = .empty) :
    okAt t n (storeDeferred n (handOver n (updPort n PortRecord.unplug q))) := by
  have u : okAt t n (updPort n PortRecord.unplug q) := okAt_updPort_kept h rfl rfl rfl rfl
  have e : ((updPort n PortRecord.unplug q).port n).state = .empty := by rw [updPort_port_self]; exact s
  refine okAt_storeDeferred (okAt_handOver u) ?_
  have e' : ((handOver n (updPort n PortRecord.unplug q)).port n).state = .empty := e
  rw [e']; decide

theorem okAt_unplugPort {t : Terms} {n : Port} {p : Part} : okAt t n (unplugPort n p) :=
  okAt_unplugged (okAt_moveTo_open rfl (by decide)) (moveTo_state n .empty p)

theorem partOk_presenceLost {a : Asked} {n : Port} {p : Part} (h : partOk a p) : partOk a (presenceLost n p) := by
  have k : partOk a (p.mapMrc (fun m => { m with present := m.present.put n false })) := partOk_mapMrc h
  unfold presenceLost
  dsimp only
  split
  · exact partOk_setTimers k
  · exact partOk_event (partOk_port k (unplugPort_fixed n _) (fun _ e => unplugPort_aside e _) (fun _ _ => okAt_unplugPort))

end Sys2Proof.Machine
end

