-- ==== Sys2Proof/Laws/Formats.lean ====
section
/-! SUPPORT. A record read back from the bytes it is packed into: a field of a packed word reads as its value, and the bits outside
the fields as 0 (R170). -/

namespace Sys2Proof.Machine

/-- The fields lie one above the other from a bit on, inside 32 bits. -/
def ordered (start : Nat) : List Field → Prop
  | [] => start ≤ 32
  | f :: rest => start ≤ f.low ∧ ordered (f.low + f.width) rest

/-- The sum a packed word is made of. -/
def packSum (fields : List Field) : Nat := (fields.map (fun f => f.value % 2 ^ f.width * 2 ^ f.low)).sum

theorem ordered_le {start : Nat} {fields : List Field} (h : ordered start fields) : start ≤ 32 := by
  induction fields generalizing start with
  | nil => exact h
  | cons f rest ih => have := ih h.2; have := h.1; omega

theorem packSum_dvd {start : Nat} {fields : List Field} (h : ordered start fields) : 2 ^ start ∣ packSum fields := by
  induction fields generalizing start with
  | nil => exact Nat.dvd_zero _
  | cons f rest ih =>
    have d : 2 ^ start ∣ 2 ^ (f.low + f.width) := Nat.pow_dvd_pow 2 (Nat.le_trans h.1 (Nat.le_add_right _ _))
    exact Nat.dvd_add (Nat.dvd_mul_left_of_dvd (Nat.pow_dvd_pow 2 h.1) _) (Nat.dvd_trans d (ih h.2))

theorem bits_mod {x low width : Nat} (h : low + width ≤ 32) : bits (x % 2 ^ 32) low width = bits x low width := by
  unfold bits
  have e : 2 ^ 32 = 2 ^ low * 2 ^ (32 - low) := by rw [← Nat.pow_add]; congr 1; omega
  rw [e, Nat.mod_mul_right_div_self]
  exact Nat.mod_mod_of_dvd _ (Nat.pow_dvd_pow 2 (by omega))

theorem bits_dvd {x start low width : Nat} (d : 2 ^ start ∣ x) (h : low + width ≤ start) : bits x low width = 0 := by
  obtain ⟨m, rfl⟩ := d
  unfold bits
  have e : 2 ^ start = 2 ^ low * (2 ^ width * 2 ^ (start - low - width)) := by
    rw [← Nat.pow_add, ← Nat.pow_add]; congr 1; omega
  rw [e, Nat.mul_assoc, Nat.mul_div_cancel_left _ (Nat.two_pow_pos _), Nat.mul_assoc, Nat.mul_mod_right]

/-- Bits above a low part do not see it. -/
theorem bits_above {a x start low width : Nat} (ha : a < 2 ^ start) (d : 2 ^ start ∣ x) (h : start ≤ low) :
    bits (a + x) low width = bits x low width := by
  obtain ⟨m, rfl⟩ := d
  unfold bits
  have e : 2 ^ low = 2 ^ start * 2 ^ (low - start) := by rw [← Nat.pow_add]; congr 1; omega
  rw [e, ← Nat.div_div_eq_div_mul, ← Nat.div_div_eq_div_mul, Nat.add_mul_div_left _ _ (Nat.two_pow_pos _),
    Nat.div_eq_of_lt ha, Nat.zero_add, Nat.mul_div_cancel_left _ (Nat.two_pow_pos _)]

theorem field_lt (f : Field) : f.value % 2 ^ f.width * 2 ^ f.low < 2 ^ (f.low + f.width) := by
  rw [Nat.pow_add, Nat.mul_comm]
  exact Nat.mul_lt_mul_of_pos_left (Nat.mod_lt _ (Nat.two_pow_pos _)) (Nat.two_pow_pos _)

theorem bits_packSum {start : Nat} {fields : List Field} (h : ordered start fields) :
    (∀ f ∈ fields, bits (packSum fields) f.low f.width = f.value % 2 ^ f.width) ∧
    ∀ k, (∀ f ∈ fields, k < f.low ∨ f.low + f.width ≤ k) → bits (packSum fields) k 1 = 0 := by
  induction fields generalizing start with
  | nil => exact ⟨fun _ m => (nomatch m), fun k _ => by simp [packSum, bits]⟩
  | cons f rest ih =>
    obtain ⟨g, z⟩ := ih h.2
    have d := packSum_dvd h.2
    have e : packSum (f :: rest) = f.value % 2 ^ f.width * 2 ^ f.low + packSum rest := rfl
    have above : ∀ x ∈ rest, f.low + f.width ≤ x.low := by
      have k := h.2
      generalize f.low + f.width = start at k
      clear ih g z d e h
      induction rest generalizing start with
      | nil => exact fun _ m => (nomatch m)
      | cons y rest ih =>
        intro x m
        rcases List.mem_cons.1 m with rfl | m
        · exact k.1
        · exact Nat.le_trans (Nat.le_trans k.1 (Nat.le_add_right _ _)) (ih _ k.2 x m)
    refine ⟨fun x m => ?_, fun k hk => ?_⟩
    · rcases List.mem_cons.1 m with rfl | m
      · rw [e]
        obtain ⟨c, hc⟩ := d
        unfold bits
        rw [hc, Nat.pow_add, Nat.mul_comm, Nat.mul_assoc, ← Nat.mul_add, Nat.mul_div_cancel_left _ (Nat.two_pow_pos _),
          Nat.add_mul_mod_self_left, Nat.mod_mod]
      · rw [e, bits_above (field_lt f) d (above x m)]
        exact g x m
    · rw [e]
      rcases hk f (List.mem_cons_self ..) with lo | hi
      · have d0 : 2 ^ f.low ∣ f.value % 2 ^ f.width * 2 ^ f.low + packSum rest :=
          Nat.dvd_add (Nat.dvd_mul_left _ _) (Nat.dvd_trans (Nat.pow_dvd_pow 2 (Nat.le_add_right _ _)) d)
        exact bits_dvd d0 lo
      · rw [bits_above (field_lt f) d hi]
        exact z k (fun x m => hk x (List.mem_cons_of_mem _ m))

theorem ordered_inside {start : Nat} {fields : List Field} (h : ordered start fields) {f : Field} (m : f ∈ fields) :
    f.low + f.width ≤ 32 := by
  induction fields generalizing start with
  | nil => cases m
  | cons y rest ih =>
    rcases List.mem_cons.1 m with rfl | m
    · exact ordered_le h.2
    · exact ih h.2 m

/-- A packed word holds its fields and nothing else (R170). -/
theorem bits_packWord {fields : List Field} (h : ordered 0 fields) :
    (∀ f ∈ fields, bits (packWord fields).toNat f.low f.width = f.value % 2 ^ f.width) ∧
    ∀ k < 32, (∀ f ∈ fields, k < f.low ∨ f.low + f.width ≤ k) → bits (packWord fields).toNat k 1 = 0 := by
  have e : (packWord fields).toNat = packSum fields % 2 ^ 32 := by rw [packWord, BitVec.toNat_ofNat]; rfl
  obtain ⟨g, z⟩ := bits_packSum h
  refine ⟨fun f m => ?_, fun k hk o => ?_⟩
  · rw [e, bits_mod (ordered_inside h m)]
    exact g f m
  · rw [e, bits_mod (by omega)]
    exact z k o

theorem wordBytes_length (w : Word) : (wordBytes w).length = 4 := rfl

theorem wordByte_toNat (w : Word) (i : Nat) : (wordByte w i).toNat = w.toNat / 2 ^ (8 * i) % 256 := by
  unfold wordByte
  rw [BitVec.toNat_setWidth, BitVec.toNat_ushiftRight, Nat.shiftRight_eq_div_pow]

/-- The four bytes of a word are read back as the word. -/
theorem wordAt_wordBytes (w : Word) (rest : List Byte) : wordAt (wordBytes w ++ rest) 0 = w.toNat := by
  have e : wordAt (wordBytes w ++ rest) 0 = (wordByte w 0).toNat + 256 * (wordByte w 1).toNat +
      65536 * ((wordByte w 2).toNat + 256 * (wordByte w 3).toNat) := rfl
  have b := w.isLt
  simp only [e, wordByte_toNat, Nat.reduceMul, Nat.reducePow]
  omega

theorem wordAt_skip {front rest : List Byte} {i : Nat} (h : front.length ≤ i) :
    wordAt (front ++ rest) i = wordAt rest (i - front.length) := by
  have b : ∀ j, byteAt (front ++ rest) (i + j) = byteAt rest (i - front.length + j) := by
    intro j
    unfold byteAt
    rw [List.getD_append_right _ _ _ _ (by omega)]
    congr 2
    omega
  have b0 := b 0
  simp only [Nat.add_zero] at b0
  simp only [wordAt, halfAt, b0, b 1, b 2, Nat.add_assoc, b (2 + 1)]

/-- The bytes of packed words read as the words' fields, when each word's fields lie one above the other (R170). -/
theorem readsAs_packed {layout : List (List Field)} (h : ∀ fields ∈ layout, ordered 0 fields) :
    readsAs layout (layout.flatMap (fun fields => wordBytes (packWord fields))) := by
  induction layout with
  | nil => exact ⟨rfl, fun _ _ e => (nomatch e)⟩
  | cons x rest ih =>
    obtain ⟨l, g⟩ := ih (fun y m => h y (List.mem_cons_of_mem _ m))
    refine ⟨?_, fun w fields e => ?_⟩
    · rw [List.flatMap_cons, List.length_append, l, wordBytes_length, List.length_cons]
      omega
    · rw [List.flatMap_cons]
      cases w with
      | zero =>
        obtain rfl : x = fields := by simpa using e
        rw [Nat.mul_zero, wordAt_wordBytes]
        exact bits_packWord (h x (List.mem_cons_self ..))
      | succ w =>
        rw [wordAt_skip (by rw [wordBytes_length]; omega), wordBytes_length,
          show 4 * (w + 1) - 4 = 4 * w by omega]
        exact g w fields (by simpa using e)

/-! ### The records of the area engine -/

theorem emptyWords (k : Nat) : (List.replicate k ([] : List Field)).flatMap (fun fields => wordBytes (packWord fields)) =
    List.replicate (4 * k) 0 := by
  have e : wordBytes (packWord []) = List.replicate 4 0 := by decide
  rw [List.flatMap_def, List.map_replicate, e, List.flatten_replicate_replicate, Nat.mul_comm]

theorem packWord_whole (w : Word) : packWord [⟨0, 32, w.toNat⟩] = w := by
  apply BitVec.eq_of_toNat_eq
  have b := w.isLt
  simp only [packWord, List.map_cons, List.map_nil, List.sum_cons, List.sum_nil, BitVec.toNat_ofNat]
  omega

theorem headerBytes_eq (r : ModeReset) :
    headerBytes r = (headerLayout r).flatMap (fun fields => wordBytes (packWord fields)) := by
  have c : r.cause.code = 1 + [ResetCause.powerOn, .external, .soft].idxOf r.cause := by cases r.cause <;> rfl
  rw [headerBytes, headerLayout, List.flatMap_append, emptyWords, c]
  simp only [List.flatMap_cons, List.flatMap_nil, List.append_nil, List.append_assoc]

theorem stepCode_eq (x : Step) : x.code = [Step.full, .reduced, .critical].idxOf x := by cases x <;> rfl

/-- The device status record, granted, is packed from its layout (R166, R172). -/
theorem deviceBytes_eq (p : Part) : targetBytes (p.mapAe (captureMark .device)) .device =
    (deviceLayout p).flatMap (fun fields => wordBytes (packWord fields)) := by
  have m : p.ms.mode.code = [SeqMode.warming, .running, .once, .stopped, .calibrating].idxOf p.ms.mode := by
    cases p.ms.mode <;> rfl
  show deviceBytes (p.mapAe (captureMark .device)) = _
  rw [deviceLayout, ← stepCode_eq, ← stepCode_eq, ← stepCode_eq, ← m]
  simp only [List.flatMap_cons, List.flatMap_nil, List.append_nil]
  rfl

theorem stateCode_eq (state : PortState) : state.code = stateCode state := by cases state <;> rfl

theorem destCode_eq (dest : DrainDest) : dest.code = destCode dest := by cases dest <;> rfl

/-- The first word of a status record. -/
theorem drainWord_eq (low high : List Field) (d : Option Drain) :
    packWord (low ++ drainFields d ++ high) = packWord (low ++
      [⟨24, 3, d.elim 0 (fun d => 1 + [DrainReason.withdrawn, .shed, .asked, .standby, .unadopted, .restartCmd].idxOf d.reason)⟩,
       ⟨27, 1, d.elim 0 (fun d => [DrainPhase.flush, .grace].idxOf d.phase)⟩] ++ high) := by
  cases d with
  | none => simp [drainFields, packWord]
  | some d =>
    have e : d.reason.code = 1 + [DrainReason.withdrawn, .shed, .asked, .standby, .unadopted, .restartCmd].idxOf d.reason := by
      cases d.reason <;> rfl
    have g : (if d.phase = .grace then 1 else 0) = [DrainPhase.flush, .grace].idxOf d.phase := by cases d.phase <;> rfl
    simp only [drainFields, e, g, Option.elim]

/-- Words 4 to 6 of a status record. -/
theorem identityBytes_eq (overruns : Nat) (identity : Option Identity) (dest : Nat) :
    identityBytes overruns identity dest =
      wordBytes (packWord [⟨0, 8, overruns⟩,
        ⟨8, 8, identity.elim 0 (fun i => 1 + [KindCode.lens, .viewfinder, .monitor, .transmitter, .intercom, .light, .motor,
          .recorder, .other].idxOf i.kind)⟩, ⟨16, 16, identity.elim 0 (fun i => i.maker.toNat)⟩]) ++
      wordBytes (packWord [⟨0, 32, identity.elim 0 (fun i => i.serial.toNat)⟩]) ++
      wordBytes (packWord [⟨0, 12, identity.elim 0 (fun i => i.requested.toNat)⟩,
        ⟨12, 1, identity.elim 0 (fun i => i.standbyCapable.toNat)⟩, ⟨16, 8, dest⟩]) := by
  cases identity with
  | none => simp [identityBytes, packWord]
  | some i =>
    have k : accessoryCode i.kind = 1 + [KindCode.lens, .viewfinder, .monitor, .transmitter, .intercom, .light, .motor,
        .recorder, .other].idxOf i.kind := by cases i.kind <;> rfl
    simp only [identityBytes, Option.elim, k, packWord_whole]

/-- A port's status record, granted, is packed from its layout (R166, R174). -/
theorem statusBytes_eq (n : Port) (p : Part) : targetBytes (p.mapAe (captureMark (.status n))) (.status n) =
    (statusLayout n p).flatMap (fun fields => wordBytes (packWord fields)) := by
  have a : (p.mapAe (captureMark (.status n))).ae.portCounts.at n = p.ae.portCounts.at n + 1 := by
    simp [Part.mapAe, captureMark]
  show statusBytes (p.port n) ((p.mapAe (captureMark (.status n))).ae.portCounts.at n) (p.ae.lastCurrent.at n)
    (p.ptp.shadows.at n) = _
  have c : causeCode (p.port n).cause =
      [none, some FaultCause.hard, some .overCurrent, some .rampTimeout, some .noHello, some .laneLost].idxOf (p.port n).cause := by
    cases (p.port n).cause with
    | none => rfl
    | some x => cases x <;> rfl
  have u : (p.ptp.shadows.at n).getD 0 = packWord [⟨0, 32, (p.ptp.shadows.at n).elim 0 BitVec.toNat⟩] := by
    cases p.ptp.shadows.at n with
    | none => rfl
    | some w => rw [Option.elim, packWord_whole]; rfl
  rw [a]
  unfold statusBytes statusLayout
  rw [c, u, stateCode_eq, drainWord_eq, identityBytes_eq]
  cases h : (p.port n).drain <;>
  simp only [h, Option.elim, destCode_eq, List.flatMap_cons, List.flatMap_nil, List.append_nil, List.append_assoc, flagFields,
    List.cons_append, List.nil_append]

/-- The sequence results record is packed from its layout (R176). -/
theorem resultsBytes_eq (results : List Int) (slots : List Slot) :
    resultsBytes results slots =
      (List.zipWith resultLayout results slots).flatMap (fun fields => wordBytes (packWord fields)) := by
  induction results generalizing slots with
  | nil => rfl
  | cons x rest ih =>
    cases slots with
    | nil => rfl
    | cons slot slots =>
      have v : (BitVec.ofInt 16 x).toNat = (x % 65536).toNat := by rw [BitVec.toNat_ofInt]; rfl
      have k : resultBytes x slot = wordBytes (packWord (resultLayout x slot)) := by
        rw [resultBytes, resultLayout, v]
        cases slot with
        | mk kind pace => cases kind <;> cases pace <;> rfl
      have g := ih slots
      unfold resultsBytes at g ⊢
      rw [List.zipWith_cons_cons, List.flatten_cons, List.zipWith_cons_cons, List.flatMap_cons, k, g]

/-! ### The records read back -/

theorem headerBytes_reads (r : ModeReset) : readsAs (headerLayout r) (headerBytes r) := by
  rw [headerBytes_eq]
  exact readsAs_packed (by simp [headerLayout, ordered])

theorem deviceBytes_reads (p : Part) : readsAs (deviceLayout p) (targetBytes (p.mapAe (captureMark .device)) .device) := by
  rw [deviceBytes_eq]
  exact readsAs_packed (by simp [deviceLayout, ordered])

theorem statusBytes_reads (n : Port) (p : Part) :
    readsAs (statusLayout n p) (targetBytes (p.mapAe (captureMark (.status n))) (.status n)) := by
  rw [statusBytes_eq]
  exact readsAs_packed (by simp [statusLayout, ordered])

theorem mem_zipWith {α β γ : Type} {f : α → β → γ} {x : γ} {as : List α} {bs : List β} (h : x ∈ List.zipWith f as bs) :
    ∃ a b, x = f a b := by
  induction as generalizing bs with
  | nil => cases h
  | cons a as ih =>
    cases bs with
    | nil => cases h
    | cons b bs =>
      rcases List.mem_cons.1 h with e | m
      · exact ⟨a, b, e⟩
      · exact ih m

theorem resultsBytes_reads (results : List Int) (slots : List Slot) :
    readsAs (List.zipWith resultLayout results slots) (resultsBytes results slots) := by
  rw [resultsBytes_eq]
  refine readsAs_packed (fun fields m => ?_)
  obtain ⟨x, slot, rfl⟩ := mem_zipWith m
  simp [resultLayout, ordered]

theorem wordBytes_reads (w : Word) : readsAs [[⟨0, 32, w.toNat⟩]] (wordBytes w) := by
  have h := readsAs_packed (layout := [[⟨0, 32, w.toNat⟩]]) (by simp [ordered])
  rwa [List.flatMap_cons, List.flatMap_nil, List.append_nil, packWord_whole] at h

theorem readPhase_code (x : Phase) : readPhase (phaseCode x) = some x := by
  cases x with
  | none => rfl
  | some who =>
    cases who with
    | port n => revert n; decide
    | cp => rfl
    | ae => rfl

theorem allSome_map {α : Type} (l : List α) : allSome (l.map some) = some l := by
  induction l with
  | nil => rfl
  | cons x rest ih => rw [List.map_cons, allSome, ih]; rfl

/-- The active wheel copy reads back as the wheel (R175). -/
theorem readWheel_wheelBytes {wheel : List Phase} (h : wheel.length = 64) : readWheel (wheelBytes wheel) = some wheel := by
  have e : (List.range 64).map (fun i => readPhase (byteAt (wheelBytes wheel) i)) = wheel.map some := by
    refine List.ext_getElem (by simp [h]) (fun i _ b => ?_)
    have lt : i < wheel.length := by simpa using b
    have c : phaseCode wheel[i] < 256 := by
      cases wheel[i] with
      | none => decide
      | some who =>
        cases who with
        | port n => exact Nat.lt_trans n.2 (by decide)
        | cp => decide
        | ae => decide
    have g : byteAt (wheelBytes wheel) i = phaseCode wheel[i] := by
      unfold byteAt wheelBytes
      rw [List.getD_eq_getElem?_getD, List.getElem?_map, List.getElem?_eq_getElem lt]
      exact Nat.mod_eq_of_lt c
    simp [g, readPhase_code]
  rw [readWheel, e, allSome_map]

end Sys2Proof.Machine
end

