-- ==== Sys2Proof/Laws/HandOver.lean ====
section
/-! SUPPORT. What the other blocks keep of a plan copy (R84, R123, R142): no operation of a port but a stored plan and the end of a
drain changes it. The adoption sweep brings about the adoption law (R190), and a shed order sent keeps the shed list's (R46). -/

namespace Sys2Proof.Machine

/-- What the pass-through port, the orderer and the sequencer keep of a port's plan copy. -/
def Part.handed (n : Port) (p : Part) : Window × BitVec 4 × PortView := (p.ptp.windows.at n, p.mo.classMap.at n, p.ms.views.at n)

theorem handedOver_iff (n : Port) (plan : Plan) (p : Part) :
    handedOver n plan p ↔ p.handed n = (⟨plan.base, plan.size⟩, plan.urgent, ⟨plan.margin, plan.tripField⟩) := by
  simp [handedOver, Part.handed]

/-- Equal blocks hand over equally. -/
theorem handed_of {p q : Part} (n : Port) (h : q.ptp = p.ptp) (g : q.mo = p.mo) (k : q.ms = p.ms) :
    q.handed n = p.handed n := by
  simp only [Part.handed, h, g, k]

@[simp] theorem updPort_handed (n m : Port) (f : PortRecord → PortRecord) (p : Part) :
    (updPort n f p).handed m = p.handed m := handed_of m (by simp) (by simp) (by simp)

@[simp] theorem updLane_handed (n m : Port) (f : Lane → Lane) (p : Part) : (updLane n f p).handed m = p.handed m :=
  handed_of m (by simp) (by simp) (by simp)

@[simp] theorem laneFollow_handed (n m : Port) (p : Part) : (laneFollow n p).handed m = p.handed m := by
  unfold laneFollow
  dsimp only
  split
  · simp
  · have k := handBackCue_keeps n p
    rw [updLane_handed]
    exact handed_of m k.2.2.2.1 k.2.2.1 k.2.1

@[simp] theorem dropEntry_handed (n m : Port) (p : Part) : (dropEntry n p).handed m = p.handed m := by
  unfold dropEntry setFlags
  split
  · rw [updPort_handed]; rfl
  · rfl

@[simp] theorem switchOpened_handed (n m : Port) (p : Part) : (switchOpened n p).handed m = p.handed m := by
  unfold switchOpened
  dsimp only
  split
  · rfl
  · have k := AeOnly.reportDevice false ((clearCounts n (cancelAccesses n p)).mapBu
      (fun b => { b with shedList := b.shedList.filter (· != n) }))
    exact (handed_of m k.2.2.2.2.2.1 k.2.2.2.2.1 k.2.2.1).trans rfl

/-- A change of state hands nothing over: the plan copy's share stays until a plan is stored or a drain has ended. -/
@[simp] theorem moveTo_handed (n m : Port) (st : PortState) (p : Part) : (moveTo n st p).handed m = p.handed m := by
  unfold moveTo
  dsimp only
  split <;> simp

/-- The hand-over itself: the class map and the port view are the plan copy's, the window is as it was. -/
theorem handOver_handed (n : Port) (p : Part) :
    (handOver n p).handed n = (p.ptp.windows.at n, (p.port n).plan.urgent, ⟨(p.port n).plan.margin, (p.port n).plan.tripField⟩) := by
  simp [handOver, Part.handed, Part.mapMo, Part.mapMs]

theorem laneFollow_plan (n : Port) (p : Part) : ((laneFollow n p).port n).plan = (p.port n).plan := by
  unfold laneFollow
  dsimp only
  split
  · simp
  · have k := handBackCue_port n p
    simp only [updLane_port]
    rw [k]

theorem refreshAsk_plan (r : PortRecord) : r.refreshAsk.plan = r.plan := by
  unfold PortRecord.refreshAsk
  repeat' split
  all_goals rfl

/-- A stored plan is the port's plan copy. -/
theorem replacePlan_plan (n : Port) (plan : Plan) (p : Part) : ((replacePlan n plan p).port n).plan = plan := by
  unfold replacePlan
  dsimp only
  rw [laneFollow_plan]
  split <;> simp [refreshAsk_plan]

/-- A stored plan hands its window to the window table (R142). -/
theorem replacePlan_window (n : Port) (plan : Plan) (p : Part) :
    (replacePlan n plan p).ptp.windows.at n = ⟨plan.base, plan.size⟩ := by
  unfold replacePlan
  exact (congrArg Prod.fst (laneFollow_handed n n _)).trans (by simp [Part.handed, Part.mapPtp])

/-- A plan is stored with all its hand-overs (R35, R84, R123, R142). -/
theorem storePlan_handedOver (n : Port) (plan : Plan) (p : Part) :
    ((storePlan n plan p).port n).plan = plan ∧ handedOver n plan (storePlan n plan p) := by
  refine ⟨replacePlan_plan n plan p, ?_⟩
  rw [handedOver_iff, storePlan, handOver_handed, replacePlan_plan, replacePlan_window]

/-- A switch that opens takes its port off the shed list (R46). -/
theorem switchOpened_shedList (n : Port) (p : Part) : n ∉ (switchOpened n p).bu.shedList := by
  unfold switchOpened
  dsimp only
  split
  · simp [Part.mapBu]
  · have k := AeOnly.reportDevice false ((clearCounts n (cancelAccesses n p)).mapBu
      (fun b => { b with shedList := b.shedList.filter (· != n) }))
    rw [k.2.1]
    simp [Part.mapBu]

/-- A shed order sent to a candidate keeps the shed list's law (R46, R59, R60). -/
theorem sendShedOrder_shedListLaw {n : Port} {p : Part} (h : shedListLaw p) (g : shedCandidate p n = true) :
    shedListLaw (sendShedOrder n p) := by
  simp only [shedCandidate, Bool.and_eq_true, Bool.not_eq_true', bne_iff_ne] at g
  have fresh : n ∉ p.bu.shedList := by simpa using g.2
  refine ⟨List.nodup_append.mpr ⟨h.1, by simp, fun a ha b hb e => fresh (by simp_all)⟩, fun m hm => ?_⟩
  rcases List.mem_append.mp hm with hm | hm
  · refine ⟨(h.2 m hm).1, (h.2 m hm).2.imp (fun x => List.mem_append.mpr (Or.inl x)) id⟩
  · obtain rfl : m = n := by simpa using hm
    exact ⟨g.1.1.1, Or.inl (List.mem_append.mpr (Or.inr (by simp)))⟩

/-- The adoption sweep stops the timer exactly when no orphan is left unadopted (R190). -/
theorem adoptSweep_timer (p : Part) :
    (adoptSweep p).mrc.adoptionTimer = if unadoptedLeft p = true then p.mrc.adoptionTimer else none := by
  unfold adoptSweep
  change (if p.mrc.adoptionTimer.isSome && !unadoptedLeft p then _ else _ : Part).mrc.adoptionTimer = _
  cases t : p.mrc.adoptionTimer <;> cases u : unadoptedLeft p <;> simp [t, Part.mapMrc]

theorem adoptSweep_adoptionLaw (p : Part) : adoptionLaw (adoptSweep p) := by
  intro h
  have k : unadoptedLeft (adoptSweep p) = unadoptedLeft p := by
    simp only [unadoptedLeft, Part.port, (adoptSweep_keeps p).1]
  rw [k]
  rw [adoptSweep_timer] at h
  by_contra g
  simp [g] at h

end Sys2Proof.Machine
end

