-- ==== Sys2Proof/Laws/ResetLaws.lean ====
section
/-! SUPPORT. The laws of the port table and the grant queue under the port timers, standby, adoption expiry and the resets. -/

namespace Sys2Proof.Machine

/-! ### Ports -/

theorem partOk_updPort {a : Asked} {n : Port} {f : PortRecord → PortRecord} {p : Part} (h : partOk a p)
    (k : ∀ r, (f r).state = r.state ∧ (f r).grant = r.grant ∧ (f r).drain = r.drain ∧ (f r).plan.laneUse = r.plan.laneUse) :
    partOk a (updPort n f p) :=
  partOk_port h (updPort_fixed n f p) (fun _ e => updPort_aside e f p)
    (fun o _ => okAt_updPort_kept o (k _).1 (k _).2.1 (k _).2.2.1 (k _).2.2.2)

theorem partOk_moveOpen {a : Asked} {n : Port} {st : PortState} {p : Part} (h : partOk a p) (o : st.closed = false)
    (q : st ≠ .queued) : partOk a (moveTo n st p) :=
  partOk_port h (moveTo_fixed n st p) (fun _ e => moveTo_aside e st p) (fun _ _ => okAt_moveTo_open o q)

theorem partOk_toQueued {a : Asked} {n : Port} {p : Part} (h : partOk a p) : partOk a (toQueued n p) :=
  partOk_port h (toQueued_fixed n p) (fun _ e => toQueued_aside e p) (fun _ _ => okAt_toQueued)

theorem partOk_applyDeferred {a : Asked} {n : Port} {p : Part} (h : partOk a p) : partOk a (applyDeferred n p) :=
  partOk_port h (applyDeferred_fixed n p) (fun _ e => applyDeferred_aside e p) okAt_applyDeferred

theorem partOk_startDrain {a : Asked} {n : Port} {r : DrainReason} {p : Part} (h : partOk a p)
    (s : (p.port n).state = .on ∨ (p.port n).state = .orphan) : partOk a (startDrain n r p) :=
  partOk_port h (startDrain_fixed n r p) (fun _ e => startDrain_aside e r p) (fun o _ => okAt_startDrain_service o s)

theorem partOk_setFlags {a : Asked} {n : Port} {f : Flags → Flags} {p : Part} (h : partOk a p) : partOk a (setFlags n f p) :=
  partOk_port h (setFlags_fixed n f p) (fun _ e => setFlags_aside e f p) (fun o _ => okAt_setFlags o)

theorem partOk_arrived {a : Asked} {n : Port} {p : Part} (h : partOk a p) : partOk a (arrived n p) := by
  unfold arrived
  split
  · exact partOk_moveOpen h rfl (by decide)
  · exact partOk_toQueued (partOk_setFlags h)

theorem partOk_noHello {a : Asked} {n : Port} {p : Part} (h : partOk a p) : partOk a (noHello n p) :=
  partOk_updPort (partOk_moveOpen h rfl (by decide)) (fun _ => ⟨rfl, rfl, rfl, rfl⟩)

theorem partOk_settleExpired {a : Asked} {n : Port} {p : Part} (h : partOk a p) (r : settleRuns n p = true) :
    partOk a (settleExpired n p) := by
  unfold settleRuns at r
  simp only [Bool.and_eq_true, beq_iff_eq] at r
  have c : ((setTimers n (fun t => { t with settle := none }) p).port n).state.closed = true := by
    rw [setTimers, updPort_port_self]
    show (p.port n).state.closed = true
    rw [r.1]; rfl
  have k : partOk a (testAdmission n (setTimers n (fun t => { t with settle := none }) p)) :=
    partOk_port (partOk_setTimers h) (testAdmission_fixed n _) (fun _ e => testAdmission_aside e _)
      (fun o w => okAt_testAdmission o w c)
  unfold settleExpired
  dsimp only
  split
  · exact partOk_applyDeferred k
  · exact k

theorem partOk_restartExpired {a : Asked} {n : Port} {p : Part} (h : partOk a p) : partOk a (restartExpired n p) := by
  unfold restartExpired
  split
  · exact partOk_moveOpen h rfl (by decide)
  · exact partOk_toQueued h

theorem partOk_orderTaken {a : Asked} {n : Port} {p : Part} (h : partOk a p) : partOk a (orderTaken n p) := by
  have k : partOk a (p.mapBu (fun b => { b with orders := b.orders.erase n })) :=
    partOk_of_terms (p := p) ⟨fun _ => rfl, rfl⟩ (allOk_of_aside h (fun n => mapBu_aside rfl n))
  exact partOk_port k (shedTaken_fixed n _) (fun _ e => shedTaken_aside e _) okAt_shedTaken

theorem partOk_endDrain {a : Asked} {n : Port} {p : Part} (h : partOk a p) : partOk a (endDrain n p) :=
  partOk_port h (endDrain_fixed n p) (fun _ e => endDrain_aside e p) (fun o _ => okAt_endDrain o)

theorem partOk_failPort {a : Asked} {n : Port} {c : FaultCause} {p : Part} (h : partOk a p) : partOk a (failPort n c p) :=
  partOk_port h (failPort_fixed n c p) (fun _ e => failPort_aside e c p) okAt_failPort

/-! ### Standby and adoption -/

theorem partOk_standbyPort {a : Asked} {n : Port} {p : Part} (h : partOk a p) : partOk a (standbyPort n p) := by
  have park : partOk a (parkStarting n p) := partOk_applyDeferred (partOk_moveOpen h rfl (by decide))
  unfold standbyPort
  split
  · rename_i s
    exact partOk_port h (standbyOn_fixed n p) (fun _ e => standbyOn_aside e p) (fun o _ => okAt_standbyOn o s)
  · exact partOk_moveOpen h rfl (by decide)
  · exact park
  · exact park
  · exact park
  · exact partOk_moveOpen h rfl (by decide)
  · exact h

theorem partOk_setStandby {a : Asked} {on : Bool} {p : Part} (h : partOk a p) : partOk a (setStandby on p) :=
  partOk_reportDevice (partOk_mapMrc h)

theorem partOk_standbyEntered {a : Asked} {p : Part} (h : partOk a p) : partOk a (standbyEntered p) :=
  partOk_event (partOk_forPorts (fun _ _ => partOk_standbyPort) (partOk_setStandby h))

theorem okAt_unkeepPort {t : Terms} {n : Port} {p : Part} (h : okAt t n p) : okAt t n (unkeepPort n p) := by
  unfold unkeepPort
  refine okAt_updPort ⟨h.grant, h.cover, fun m => h.name ?_, fun x s => ?_, h.entries⟩
  · rw [mustName_iff] at m ⊢
    rcases m with m | ⟨s, d, hd, l⟩
    · exact .inl m
    · refine .inr ⟨s, ?_⟩
      dsimp only at hd
      rw [Option.map_eq_some_iff] at hd
      obtain ⟨d', e, rfl⟩ := hd
      refine ⟨d', e, ?_⟩
      split at l <;> exact l
  · have k := h.drain x s
    simpa using k

theorem partOk_unkeepPort {a : Asked} {n : Port} {p : Part} (h : partOk a p) : partOk a (unkeepPort n p) :=
  partOk_port h (updPort_fixed n _ p) (fun _ e => updPort_aside e _ p) (fun o _ => okAt_unkeepPort o)

theorem partOk_standbyExited {a : Asked} {p : Part} (h : partOk a p) : partOk a (standbyExited p) := by
  unfold standbyExited
  refine partOk_event (partOk_foldl (fun n p k => partOk_event (partOk_toQueued k)) _ ?_)
  exact partOk_forPorts (fun _ _ => partOk_unkeepPort) (partOk_setStandby h)

theorem partOk_unadopted {a : Asked} {n : Port} {p : Part} (h : partOk a p) : partOk a (unadopted n p) := by
  unfold unadopted
  split
  · rename_i g; exact partOk_startDrain h (.inr g.1)
  · exact h

theorem partOk_adoptionExpired {a : Asked} {p : Part} (h : partOk a p) : partOk a (adoptionExpired p) :=
  partOk_event (partOk_forPorts (fun _ _ => partOk_unadopted) (partOk_reportDevice (partOk_mapMrc h)))

/-! ### The end of a plain reset -/

theorem partOk_placeDefault {a : Asked} {n : Port} {p : Part} (h : partOk a p) : partOk a (placeDefault n p) := by
  unfold placeDefault
  split
  · rename_i s
    refine partOk_port h rfl (fun _ e => setPort_aside e _ p) (fun o _ => ?_)
    show RecordOk _ n ((p.setPort n { p.port n with plan := defaultPlan p.mrc.straps.auto }).port n) _
    rw [Part.setPort_port_self]
    exact ⟨o.grant, o.cover, fun m => (by rw [mustName_open (by rw [s]; rfl)] at m; cases m), o.drain, o.entries⟩
  · exact h

theorem partOk_startDebouncers {a : Asked} {p : Part} (h : partOk a p) : partOk a (startDebouncers p) := by
  refine partOk_forPorts (fun n p k => ?_) h
  split
  · exact partOk_setTimers k
  · exact k

theorem firstWrites_steady (p : Part) : Steady (firstWrites p) p := .refl p

theorem partOk_sampleStby {a : Asked} {p : Part} (h : partOk a p) : partOk a (sampleStby p) := by
  unfold sampleStby
  split
  · exact partOk_standbyEntered h
  · exact h

theorem partOk_endPlainReset {a : Asked} {p : Part} (h : partOk a p) : partOk a (endPlainReset p) := by
  unfold endPlainReset
  refine partOk_arrivePresented (partOk_sampleStby (partOk_of_steady ?_ (firstWrites_steady _)))
  exact partOk_startDebouncers (partOk_mapMrc (partOk_forPorts (fun _ _ => partOk_placeDefault) h))

/-- After the take of a reset with RTE low every law holds, whatever held before. -/
theorem partOk_takeLowReset {a : Asked} {c : ResetCause} {p : Part} : partOk a (takeLowReset c p) := by
  intro n
  have e : (takeLowReset c p).port n = resetRecord (p.port n).plan := by
    simp [takeLowReset, Part.port, PerPort.at]
  unfold okAt
  rw [e]
  exact ⟨fun _ _ => rfl, fun x => (nomatch x), fun x => (nomatch x), fun _ x => (nomatch x), fun _ => rfl⟩

/-! ### The take of a ride-through reset -/

theorem okAt_orphaned {t : Terms} {n : Port} {p : Part} (h : okAt t n p) (s : (p.port n).state = .on) :
    okAt t n (moveTo n .orphan p) := by
  refine okAt_moveTo_closed rfl (h.cover (by rw [s]; rfl)) (fun _ l => h.name ?_) (fun x => (nomatch x))
  rw [mustName_service (.inl s), l]; rfl

theorem partOk_takeDeferred {a : Asked} {n : Port} {p : Part} (h : partOk a p) : partOk a (takeDeferred n p) := by
  unfold takeDeferred
  exact partOk_updPort h (fun _ => ⟨rfl, rfl, rfl, rfl⟩)

theorem partOk_ridePort {a : Asked} {n : Port} {p : Part} (h : partOk a p) : partOk a (ridePort n p) := by
  have drop : partOk a (moveTo n .off (dropDeferred n p)) := partOk_moveOpen (partOk_takeDeferred h) rfl (by decide)
  have off : partOk a (moveTo n .off p) := partOk_moveOpen h rfl (by decide)
  unfold ridePort
  split
  · rename_i s
    exact partOk_port h (moveTo_fixed n .orphan p) (fun _ e => moveTo_aside e .orphan p) (fun o _ => okAt_orphaned o s)
  · exact partOk_updPort h (fun _ => ⟨rfl, rfl, rfl, rfl⟩)
  · exact h
  · exact drop
  · exact drop
  · exact drop
  · exact off
  · exact off
  · exact off
  · exact off
  · exact h
  · exact h

theorem ride_covers {m : Sequencer} (c : m.mode.covers = true) : m.ride.mode.covers = true := by
  unfold Sequencer.ride
  dsimp only
  split <;> (try split) <;> simp_all [SeqMode.covers]

theorem ride_active (m : Sequencer) : m.ride.active = m.active := by
  unfold Sequencer.ride
  dsimp only
  split <;> (try split) <;> rfl

/-- The default wheel names every port (R125). -/
theorem names_defaultWheel (n : Port) : names defaultWheel n = true := by revert n; decide

theorem partOk_rideBlocks {a : Asked} {p : Part} (h : partOk a p) : partOk a (rideBlocks p) := by
  intro n
  have o := h n
  refine ⟨o.grant, fun c x => ?_, fun _ _ => names_defaultWheel n, o.drain, o.entries⟩
  have k := o.cover c x
  simp only [covered, Bool.and_eq_true] at k ⊢
  exact ⟨ride_covers k.1, by rw [show (rideBlocks p).ms.active = p.ms.active from ride_active p.ms]; exact k.2⟩

theorem reportMode_steady (b : SeqMode) (p : Part) : Steady (reportMode b p) p := by
  unfold reportMode
  split
  · exact .refl p
  · exact reportDevice_steady _ p

theorem partOk_takeRide {a : Asked} {c : ResetCause} {p : Part} (h : partOk a p) : partOk a (takeRide c p) := by
  unfold takeRide
  refine partOk_of_steady ?_ (reportMode_steady _ _)
  refine partOk_of_steady (partOk_budgetAfter (partOk_rideBlocks ?_)) (mapAe_steady _ _)
  exact partOk_forPorts (fun _ _ => partOk_ridePort) (partOk_mapMrc h)

/-! ### The end of a ride-through reset -/

theorem partOk_stopIfMet {a : Asked} {n : Port} {p : Part} (h : partOk a p) : partOk a (stopIfMet n p) := by
  unfold stopIfMet
  split
  · exact partOk_moveOpen h rfl (by decide)
  · exact h

theorem partOk_latch {a : Asked} {s : Straps} {p : Part} (h : partOk a p) : partOk a (latch s p) := partOk_mapMrc h

theorem partOk_latchRide {a : Asked} {s : Straps} {p : Part} (h : partOk a p) : partOk a (latchRide s p) := by
  unfold latchRide
  dsimp only
  split
  · exact partOk_latch h
  · exact partOk_forPorts (fun _ _ => partOk_stopIfMet) (partOk_latch h)

theorem partOk_storePlan {a : Asked} {n : Port} {pl : Plan} {p : Part} (h : partOk a p)
    (s : (p.port n).state ≠ .on ∧ (p.port n).state ≠ .orphan) : partOk a (storePlan n pl p) :=
  partOk_port h (storePlan_fixed n pl p) (fun _ e => storePlan_aside e pl p) (fun o _ => okAt_storePlan o s)

theorem partOk_rideDefault {a : Asked} {n : Port} {p : Part} (h : partOk a p) : partOk a (rideDefault n p) := by
  unfold rideDefault
  split
  · exact h
  · exact h
  · rename_i s
    refine partOk_port h (by simp [retarget]) (fun _ e => by simp [retarget, e]) (fun o _ => okAt_retarget (okAt_replacePlan o ?_))
    rw [s]; decide
  · rename_i s s' _
    exact partOk_storePlan h ⟨s', s⟩

theorem partOk_rideClean {a : Asked} {n : Port} {p : Part} (h : partOk a p) : partOk a (rideClean n p) := by
  unfold rideClean
  split
  · exact partOk_updPort h (fun _ => ⟨rfl, rfl, rfl, rfl⟩)
  · exact h

theorem partOk_rideQueue {a : Asked} {n : Port} {p : Part} (h : partOk a p) : partOk a (rideQueue n p) := by
  unfold rideQueue
  split
  · exact partOk_event (partOk_toQueued h)
  · exact h

theorem partOk_ridePlans {a : Asked} {p : Part} (h : partOk a p) : partOk a (ridePlans p) :=
  partOk_forPorts (fun _ _ => partOk_rideQueue) (partOk_forPorts (fun _ _ => partOk_rideClean)
    (partOk_forPorts (fun _ _ => partOk_rideDefault) (partOk_mapMrc h)))

theorem partOk_startAdoption {a : Asked} {p : Part} (h : partOk a p) : partOk a (startAdoption p) := by
  unfold startAdoption
  split
  · exact partOk_reportDevice (partOk_mapMrc h)
  · exact h

theorem partOk_endRide {a : Asked} {p : Part} (h : partOk a p) : partOk a (endRide p) := by
  unfold endRide
  exact partOk_arrivePresented (partOk_of_steady (partOk_startAdoption (partOk_event (partOk_ridePlans h)))
    (firstWrites_steady _))

/-! ### Resets taken and ended -/

theorem partOk_externalReset {a : Asked} {p : Part} (h : partOk a p) : partOk a (externalReset p) := by
  unfold externalReset
  split
  · exact partOk_takeRide h
  · exact partOk_takeLowReset

theorem partOk_softReset {a : Asked} {p : Part} (h : partOk a p) : partOk a (softReset p) := by
  unfold softReset
  split
  · exact partOk_endRide (partOk_takeRide h)
  · exact partOk_endPlainReset partOk_takeLowReset

theorem partOk_endExternalReset {a : Asked} {s : Straps} {p : Part} (h : partOk a p) : partOk a (endExternalReset s p) := by
  unfold endExternalReset
  split
  · split
    · exact partOk_endPlainReset (partOk_latch h)
    · exact h
  · exact partOk_endPlainReset (partOk_latch h)
  · exact partOk_endRide (partOk_event (partOk_latchRide h))
  · exact h

theorem partOk_endPowerOn {a : Asked} {s : Straps} {p : Part} (h : partOk a p) : partOk a (endPowerOn s p) := by
  unfold endPowerOn
  dsimp only
  split
  · exact partOk_mapMrc h
  · exact partOk_endPlainReset (partOk_latch (partOk_mapMrc h))

/-- After power-on reset every law holds, whatever held before. -/
theorem partOk_poweredUp {a : Asked} {pins : ModeReset} : partOk a (poweredUp pins) := by
  intro n
  have e : (poweredUp pins).port n = resetRecord (defaultPlan false) := by
    simp [poweredUp, powerOnPart, Part.port, PerPort.at, PerPort.all]
  unfold okAt
  rw [e]
  exact ⟨fun _ _ => rfl, fun x => (nomatch x), fun x => (nomatch x), fun _ x => (nomatch x), fun _ => rfl⟩

end Sys2Proof.Machine
end

