-- ==== Sys2Proof/Laws/WheelScan.lean ====
section
/-! SUPPORT. The scan of a grant decision in the words of R127: the first phase from the pointer on that asks for a class, and the
phase at which the decision stops. -/

namespace Sys2Proof.Machine

theorem scan_eq (p : Part) (cls : HeadClass) : scan p cls =
    ((List.range 64).find? (fun k => phaseAsks p cls ((p.mo.pointer + k) % 64))).map (fun k => (p.mo.pointer + k) % 64) := by
  unfold scan
  rw [List.find?_map]
  congr 2
  funext k
  show (match p.mo.wheel.getD ((p.mo.pointer + k) % 64) none with
    | some who => headClass p who == some cls
    | none => false) = phaseAsks p cls ((p.mo.pointer + k) % 64)
  unfold phaseAsks
  rw [List.getD_eq_getElem?_getD]
  cases p.mo.wheel[(p.mo.pointer + k) % 64]? with
  | none => rfl
  | some x => cases x <;> rfl

/-- The scan finds the first phase of its class from the pointer on (R127). -/
theorem scan_some_iff {p : Part} {cls : HeadClass} {i : Nat} : scan p cls = some i ↔ firstPhase p cls i := by
  rw [scan_eq, Option.map_eq_some_iff]
  unfold firstPhase
  constructor
  · rintro ⟨k, h, rfl⟩
    rw [List.find?_range_eq_some] at h
    exact ⟨k, List.mem_range.1 h.2.1, rfl, h.1, fun j hj => by simpa using h.2.2 j hj⟩
  · rintro ⟨k, hk, rfl, h, g⟩
    exact ⟨k, List.find?_range_eq_some.2 ⟨h, List.mem_range.2 hk, fun j hj => by simpa using g j hj⟩, rfl⟩

/-- The scan finds nothing exactly when no phase asks for its class (R127, R128). -/
theorem scan_none_iff {p : Part} {cls : HeadClass} : scan p cls = none ↔ noPhaseAsks p cls := by
  rw [scan_eq, Option.map_eq_none_iff, List.find?_eq_none]
  unfold noPhaseAsks
  constructor
  · intro h i hi
    have k := h ((i + 64 - p.mo.pointer % 64) % 64) (List.mem_range.2 (Nat.mod_lt _ (by decide)))
    have e : (p.mo.pointer + (i + 64 - p.mo.pointer % 64) % 64) % 64 = i := by omega
    rw [e] at k
    simpa using k
  · intro h k _
    simpa using h _ (Nat.mod_lt _ (by decide))

/-- The decision stops at the phase R127 gives. -/
theorem stopPhase_some_iff {p : Part} {i : Nat} : stopPhase p = some i ↔ decidedPhase p i := by
  unfold stopPhase decidedPhase
  split
  · rw [Option.or_eq_some_iff, scan_some_iff, scan_none_iff, scan_some_iff]
  · rw [Option.or_eq_some_iff, scan_some_iff, scan_none_iff, scan_some_iff]

/-- The decision stops nowhere exactly when no phase asks for anything. -/
theorem stopPhase_none_iff {p : Part} : stopPhase p = none ↔ noPhaseAsks p .urgent ∧ noPhaseAsks p .bulk := by
  unfold stopPhase
  split
  · rw [Option.or_eq_none_iff, scan_none_iff, scan_none_iff, and_comm]
  · rw [Option.or_eq_none_iff, scan_none_iff, scan_none_iff]

end Sys2Proof.Machine
end

