-- ==== Sys2Proof/Tests/Slice0.lean ====
section
/-! SUPPORT. Tests: the checks of well-formed commands, worked values of the spec, single steps, and for every statement with
hypotheses a state and operands that meet them. -/

namespace Sys2Proof.Tests

-- One theorem at a time: many kernel evaluations at once need a thread each.
set_option Elab.async false
-- The premises of a statement are decided together, laws and all.
set_option synthInstance.maxSize 4000
set_option synthInstance.maxHeartbeats 200000

open Sys2Proof.Machine

/-! ### Small states -/

def atPort (n : Port) (f : PortRecord → PortRecord) (s : State) : State :=
  { s with part := s.part.setPort n (f (s.part.port n)) }
def atLane (n : Port) (f : Lane → Lane) (s : State) : State := { s with part := s.part.setLane n (f (s.part.lane n)) }
def atBu (f : Budget → Budget) (s : State) : State := { s with part := s.part.mapBu f }
def atMs (f : Sequencer → Sequencer) (s : State) : State := { s with part := s.part.mapMs f }
def atMo (f : Orderer → Orderer) (s : State) : State := { s with part := s.part.mapMo f }
def atPtp (f : PassThrough → PassThrough) (s : State) : State := { s with part := s.part.mapPtp f }
def atAe (f : AreaEngine → AreaEngine) (s : State) : State := { s with part := s.part.mapAe f }
def atMrc (f : ModeReset → ModeReset) (s : State) : State := { s with part := s.part.mapMrc f }

/-- The part running, its first writes done, at the first slot of the default sequence, with RTE high. -/
def up : State :=
  atAe (fun a => { a with quiet := false })
    (atMs (fun m => { m with mode := .running, current := some 0 })
      (atMrc (fun m => { m with phase := .running, straps := ⟨0, true, false⟩ }) State.reset))

/-- A plan with a window of 4 KiB at 64 KiB times the port number plus one. -/
def windowed (n : Port) (r : PortRecord) : PortRecord :=
  { r with plan := { defaultPlan true with base := 0x10000 * (n.1 + 1), size := 0x1000 } }

/-- A port in a state, with a window, a grant where its switch is closed, and no timers. -/
def put (n : Port) (st : PortState) (s : State) : State :=
  atPort n (fun r => { windowed n r with state := st, grant := if st.closed then 120 else 0 }) s

/-- The same with a lane in a mode. -/
def putLane (n : Port) (st : PortState) (mode : LaneMode) (s : State) : State :=
  atLane n (fun l => { l with mode := mode }) (put n st s)

/-- A draining port with a tag outstanding. -/
def putDrain (n : Port) (d : Drain) (s : State) : State :=
  atPort n (fun r => { r with drain := some d }) (putLane n .drain .paused s)

/-- A tag of a lane outstanding. -/
def hold (n : Port) (tag : Fin 4) (kind : ReqKind) (s : State) : State :=
  atLane n (fun l => { l with tags := l.tags.set tag.1 (.outstanding kind false) tag.2 }) s

def busyMemory (f : InFlight) (s : State) : State := atMo (fun o => { o with inFlight := some f }) s

def slotAt (i : Nat) (s : State) : State := atMs (fun m => { m with current := some i }) s

def drainTo (reason : DrainReason) (dest : DrainDest) (phase : DrainPhase) : Drain := ⟨reason, phase, dest, .expected, 20⟩

def someone : Identity := ⟨0x1234, .lens, 0xABCD, 200, true⟩

/-- A port in PROBE that holds a FULL entry for 120 cu. -/
def askingFull (n : Port) (s : State) : State :=
  atBu (fun b => { b with queue := b.queue ++ [⟨n, .full, 120, 3, false⟩] }) (putLane n .probe .listen s)

/-- A port that waits in SETTLE with NO_PHASE. -/
def waiting (n : Port) (s : State) : State :=
  atPort n (fun r => { r with flags := { r.flags with noPhase := true } }) (putLane n .settle .paused s)

/-- Every timer of a port runs. -/
def timed (n : Port) (s : State) : State :=
  atPort n (fun r => { r with timers := ⟨some 10, some 250, some 50, some 20, some 20, some 500, true⟩ }) s

/-- A wheel whose last two phases are those of ports 0 and 1. -/
def edgeWheel : List Phase := some .ae :: List.replicate 61 (some .cp) ++ [some (.port 0), some (.port 1)]

/-- A PUT or GET accepted at the window of port 0. -/
def accessAt (kind : ReqKind) (offset length : Nat) : LaneAccess :=
  { kind, cls := 0, base := 0x10000, windowSize := 0x1000, offset, length, tag := 0,
    data := List.replicate (match kind with | .put => length | .get => 0) 0x55, bursts := [], gathered := [], faulted := false,
    markFault := false }

/-- The last burst of an access of port 0 in flight. -/
def lastBurst (kind : ReqKind) (offset length : Nat) : State :=
  busyMemory (.port 0 (accessAt kind offset length) offset length true false) (hold 0 0 kind (putLane 0 .on .opened up))

/-- A copy read in flight, with these bytes of its record in memory. -/
def copying (source : Source) (bytes : List Byte) : State :=
  { busyMemory (.copyRead source source.offset source.length false) (put 1 .fault up) with
    mem := Memory.writeAll [] (layBytes source.offset bytes) }

/-- A valid plan record: mode AUTO, 120 cu, no window, lane use NONE. -/
def planBytes : List Byte := [1, 1, 120, 0]

/-- A plan record of port 0 in its own window: mode, lane use, units of at most 255 cu, size in 4 KiB. -/
def planRecord (mode laneUse : Byte) (units : List Byte) (size : Byte) : List Byte :=
  [mode, laneUse] ++ units ++ [0, 0, 0, 0, 0, 0, 0, 0, 0, 0, 1, 0, 0, size]

/-- A copy read of the plan of port 0 in flight, with these bytes of its record in memory. -/
def applying (bytes : List Byte) (s : State) : State :=
  { busyMemory (.copyRead (.plan 0) 0x080 28 false) s with mem := Memory.writeAll [] (layBytes 0x080 bytes) }

/-- The plan that the copy read of port 0 delivers. -/
def planOf (s : State) : Option Plan := readPlan (s.mem.readBytes 0x080 28)

/-- The premises of an APPLY to port 0 that acts by the state of the port. -/
def applies (s : State) : Bool :=
  s.part.mo.pendingWheel.isNone && s.part.mrc.phase == .running &&
  (planOf s).any (fun plan => planFieldsValid plan && !windowOverlaps s.part 0 plan)

/-- The device plan of R43 as its record (R173). -/
def deviceBytes : List Byte := [32, 3, 88, 2, 44, 1, 95, 0, 224, 46, 248, 42, 56, 49]

/-- The bus at rest is what `up` has; an access carried or held. -/
def withAccess (a : Access) (s : State) : State := atPtp (fun t => { t with access := some a, holdTimer := some 32 }) s

/-- The part a command leaves, where it answers a next state. -/
def after (c : Instr) (s : State) : Option Part :=
  match exec c s with
  | .next t => some t.part
  | _ => none

/-! ### Ill-formed commands -/

theorem test_wf_hardLimit : (Instr.hardLimitTrip 0 1200).wf = false ∧ (Instr.hardLimitTrip 0 1201).wf = true := by decide
theorem test_wf_undefinedCode : (Instr.undefinedRequestCode .device 0x0F).wf = false ∧
    (Instr.undefinedRequestCode (.port 3) 0x11).wf = false ∧ (Instr.undefinedRequestCode (.port 3) 0x01).wf = true ∧
    (Instr.undefinedRequestCode .device 0x08).wf = true := by decide +kernel
theorem test_wf_put : (Instr.putFrame 0 0 0 0 []).wf = false ∧
    (Instr.putFrame 0 0 0 0 (List.replicate 257 0)).wf = false ∧
    (Instr.putFrame 0 0 0 0 (List.replicate 256 0)).wf = true := by decide +kernel
theorem test_wf_get : (Instr.getFrame 0 0 0 0 0).wf = false ∧ (Instr.getFrame 0 0 0 0 257).wf = false ∧
    (Instr.getFrame 0 0 0 0 1).wf = true := by decide +kernel
theorem test_wf_badFrame :
    (Instr.badFrame 0 (escape (RxFrame.keep.bytes ++ crcBytes RxFrame.keep.bytes))).wf = false ∧
    (Instr.badFrame 0 []).wf = false ∧ (Instr.badFrame 0 [1, 2, 3]).wf = true := by decide +kernel
theorem test_wf_burst : (Instr.memoryBurstComplete true (List.replicate 65 0)).wf = false ∧
    (Instr.memoryBurstComplete false [0]).wf = false ∧ (Instr.memoryBurstComplete true [0]).wf = true := by
  decide +kernel
theorem test_wf_plain : (Instr.plainAccess true 0 7#4 0).wf = false ∧ (Instr.plainAccess true 0 0#4 0).wf = false ∧
    (Instr.plainAccess true 0 3#4 0).wf = true := by decide
theorem test_wf_cue : (Instr.cueWordWrite 0x10004 0).wf = false ∧ (Instr.cueWordWrite 0x10000 0).wf = true := by decide
theorem test_wf_hostOwned : (Instr.hostOwnedWrite 0x064 15#4 0).wf = false ∧ (Instr.hostOwnedWrite 0x041 15#4 0).wf = false ∧
    (Instr.hostOwnedWrite 0x040 7#4 0).wf = false ∧ (Instr.hostOwnedWrite 0x040 15#4 0).wf = true := by decide
theorem test_wf_partOwnedRead : (Instr.partOwnedRead 0x040 15#4).wf = false ∧ (Instr.partOwnedRead 0x064 0#4).wf = false ∧
    (Instr.partOwnedRead 0x070 15#4).wf = true ∧ (Instr.partOwnedRead 0x064 15#4).wf = true := by decide
theorem test_wf_partOwnedWrite : (Instr.partOwnedWrite 0x070 15#4 0).wf = false ∧
    (Instr.partOwnedWrite 0x064 7#4 0).wf = false ∧ (Instr.partOwnedWrite 0x200 15#4 0).wf = true := by decide
theorem test_wf_merge : (Instr.summaryWordWrite 7#4 0).wf = false ∧ (Instr.errorWordWrite 0#4 0).wf = false ∧
    (Instr.summaryWordWrite 1#4 0).wf = true := by decide
theorem test_wf_partial : (Instr.partialRequestWrite .device 15#4 0).wf = false ∧
    (Instr.partialRequestWrite .device 7#4 0).wf = false ∧ (Instr.partialRequestWrite .device 3#4 0).wf = true := by decide

theorem test_wf_readings : (Instr.portISample 0 2048).wf = false ∧ (Instr.offsetSample 2048).wf = false ∧
    (Instr.calibrationConversion 2048).wf = false ∧ (Instr.sourceVSample 20001).wf = false ∧
    (Instr.tempSample 151).wf = false ∧ (Instr.tempSample (-41)).wf = false ∧ (Instr.portISample 0 2047).wf = true ∧
    (Instr.tempSample (-40)).wf = true := by decide

/-! ### Worked values -/

/-- R177: the check of the nine bytes 0x31 to 0x39. -/
theorem test_crc : crc [0x31, 0x32, 0x33, 0x34, 0x35, 0x36, 0x37, 0x38, 0x39] = 0x6F91 := by decide +kernel

/-- R170: the lowest byte of a word lies at the lowest address. -/
theorem test_wordBytes : wordBytes 0x44332211 = [0x11, 0x22, 0x33, 0x44] := by decide +kernel

/-- R125: the default wheel, phase by phase. -/
theorem test_defaultWheel : defaultWheel.length = 64 ∧ (∀ k < 32, defaultWheel[2 * k]? = some (some .cp)) ∧
    (∀ k < 8, defaultWheel[8 * k + 1]? = some (some .ae)) ∧
    (∀ n : Port, defaultWheel[[3, 5, 7, 11, 13, 15, 19, 21, 23, 27, 29, 31].getD n.1 0]? = some (some (.port n)) ∧
      defaultWheel[[35, 37, 39, 43, 45, 47, 51, 53, 55, 59, 61, 63].getD n.1 0]? = some (some (.port n))) := by
  decide +kernel

/-- No row of the table has bits: no word is a command. -/
theorem test_decode (nbits w : Nat) : decodeTableWord nbits w = none ∧
    State.reset.withFetchWord nbits w = State.reset := ⟨rfl, rfl⟩

/-! ### Single steps -/

theorem test_powerOnResetEnd : (after (.powerOnResetEnd ⟨0, true, true⟩) State.reset).map
    (fun p => (p.mrc.phase, (p.port 5).plan.mode, p.mo.inFlight.isSome)) = some (.running, .auto, true) := by decide +kernel
theorem test_arrival : (after (.arrival 2) (atPort 2 (fun r => { r with timers := { r.timers with debouncer := some 10 } })
    (put 2 .empty up))).map (fun p => ((p.port 2).state, (p.port 2).grant, (p.lane 2).mode)) =
      some (.probe, 20, .listen) := by decide +kernel
theorem test_helloFrame : (after (.helloFrame 2 someone) (putLane 2 .probe .listen up)).map
    (fun p => ((p.port 2).state, (p.port 2).grant, (p.port 2).flags.ask)) = some (.ramp, 120, true) := by decide +kernel
theorem test_rampDone : (after (.portISample 0 100) (atMs (fun m => { m with rampCount := m.rampCount.put 0 1 })
    (put 0 .ramp up))).map (fun p => ((p.port 0).state, (p.port 0).timers.settle)) = some (.settle, some 20) := by
  decide +kernel
theorem test_putFrame : (after (.putFrame 1 0 2 0xFE0 (List.replicate 32 7)) (putLane 1 .on .opened up)).map
    (fun p => (p.mo.inFlight.isSome, (p.lane 1).tags.get 0)) = some (true, .outstanding .put false) := by decide +kernel
theorem test_putOutside : (after (.putFrame 1 0 2 0xFE1 (List.replicate 32 7)) (putLane 1 .on .opened up)).map
    (fun p => (p.lane 1).sending) = some (some (.answer ⟨.put, 0, .outside, []⟩)) := by decide +kernel
theorem test_shedOrder : (after (.shedOrderTaken 3) (atBu (fun b => { b with orders := [3], shedList := [3] })
    (hold 3 0 .put (putLane 3 .on .opened up)))).map (fun p => ((p.port 3).state, (p.port 3).drain.map (fun d => d.graceMs)))
      = some (.drain, some 20) := by decide +kernel
theorem test_clear : (after (.clear 4 0) (put 4 .fault up)).map
    (fun p => ((p.port 4).state, (p.request (.port 4)).completion)) = some (.probe, some .ok) := by decide +kernel
theorem test_undefinedCode : (after (.undefinedRequestCode .device 0x42) up).map
    (fun p => ((p.request .device).taken, (p.request .device).completion)) = some (true, some .invalid) := by decide +kernel
theorem test_latchBeforePowerOnEnd : (after (.resetnDeassert ⟨3, true, true⟩)
    (atMrc (fun m => { m with resetnLow := true }) State.reset)).map (fun p => (p.mrc.phase, p.mrc.straps.cab)) =
    some (.powerOn, 3) := by decide +kernel
/-- The OPEN of an earlier stay in ON opens nothing, and the OPEN due of this one is sent after it. -/
theorem test_openSentLate : (after (.openSent 1) (atLane 1 (fun l =>
    { l with sending := some (.openLane 8), sendingHolds := false, openDue := some 16 }) (putLane 1 .on .paused up))).map
    (fun p => ((p.lane 1).mode, (p.lane 1).openDue, (p.lane 1).sending)) =
    some (.paused, some 16, some (.openLane 16)) := by decide +kernel
/-- A withdrawn port drains under the lane use and the grace choice of the plan it held. -/
theorem test_withdraw : ((withdraw 1 { (defaultPlan true) with mode := .off, laneUse := .unused } (putLane 1 .on .opened
    (hold 1 0 .put up)).part).port 1).drain = some (drainTo .withdrawn .off .flush) := by decide +kernel
theorem test_outsideMemory : exec (.copyReadComplete false) (busyMemory (.copyRead .devicePlan 16777185 32 false) up) =
    .fault .outsideMemory := rfl

/-- A GET whose burst faults takes the rest of it off the list: nothing is pending, the waiting wheel is swapped in, and with the
memory port free its copy is granted in the same event (R126, R131, R134). -/
theorem test_idleSwapGrants : (after (.memoryBurstComplete true [])
    (atMo (fun o => { o with
      pendingWheel := some defaultWheel
      inFlight := some (.port 0 (accessAt .get 0 100) 0 64 false false)
      lists := o.lists.put 0 [{ accessAt .get 0 100 with bursts := [(64, 36)] }] })
      (hold 0 0 .get (putLane 0 .on .opened up)))).map
    (fun p => (p.mo.pendingWheel, p.mo.inFlight)) =
    some (none, some (.writeBack .wheelCopy 0x3C0 (wheelBytes defaultWheel) false false)) := by decide +kernel

/-- With nothing left to grant a wheel that waits is swapped in at the end of a KEEP's event: a port that waits with NO_PHASE is admitted
(R17), and one in PROBE with a FULL entry is granted (R58). -/
theorem test_keepFrameMovesWaitingPorts :
    let s := atMo (fun o => { o with pendingWheel := some defaultWheel }) (askingFull 0 (waiting 2 up))
    (after (.keepFrame 2) s).map (fun p => ((p.port 2).state, (p.lane 2).openDue)) = some (.on, some 16) ∧
    (after (.keepFrame 0) s).map (fun p => ((p.port 0).state, (p.port 0).timers.ramp, (p.lane 0).mode)) =
      some (.ramp, some 50, .paused) := by decide +kernel

/-- A read of a port's status that waited in a hold is held for the first write of the record, granted in the same event (R149, R169,
R183), and a write of a part-owned word is dropped with STRAY (R150). -/
theorem test_presentedAccessArrives :
    let held := fun (b : BusAccess) => atPtp (fun t => { t with presented := some b })
      (atAe (fun a => { a with quiet := true }) (atMrc (fun m => { m with resetnLow := true, phase := .holdRideThrough }) up))
    (after (.resetnDeassert ⟨0, true, true⟩) (held ⟨false, 0x220, 15#4, 0⟩)).map (fun p =>
      (p.ptp.presented, p.ptp.access, p.ptp.holdTimer)) =
      some (none, some ⟨⟨false, 0x220, 15#4, 0⟩, .waitingWriteBack (.status 1) true, .plain⟩, some 32) ∧
    (after (.resetnDeassert ⟨1, true, true⟩) (held ⟨true, 0x200200, 15#4, 0⟩)).map (fun p =>
      (p.ptp.access, p.ptp.answer, p.ae.error)) = some (none, some { error := false, data := [] }, 4) := by decide +kernel

/-- A stored plan is handed over: its window, its urgent-class set, its margin and trip count (R84, R123, R142). -/
theorem test_planHandedOver : (after (.copyReadComplete false) (applying (planRecord 2 0 [120, 0] 0x20) (put 0 .fault up))).map
    (fun p => (p.ptp.windows.at 0, p.mo.classMap.at 0, p.ms.views.at 0)) = some (⟨0x10000, 0x2000⟩, 0#4, ⟨0, 0⟩) := by
  decide +kernel

/-- The presence loss of the last unadopted orphan stops the adoption timer; with another one left it runs on (R190). -/
theorem test_adoptionTimerStops :
    let s := atMrc (fun m => { m with adoptionTimer := some 5000, present := PerPort.all true }) (put 0 .orphan up)
    (after (.presenceLoss 0) s).map (fun p => p.mrc.adoptionTimer) = some none ∧
    (after (.presenceLoss 0) (put 1 .orphan s)).map (fun p => p.mrc.adoptionTimer) = some (some 5000) := by decide +kernel

/-- The parked ports are queued by priority before number; nothing is granted in STOPPED. -/
theorem test_standbyExitOrder : (after .standbyExit (atMs (fun m => { m with mode := .stopped, current := none })
    (atMrc (fun m => { m with stby := true, standby := true })
      (atPort 3 (fun r => { r with plan := { r.plan with priority := 5 } }) (put 3 .parked (put 2 .parked up)))))).map
    (fun p => (p.bu.queue.map Entry.port, (p.port 2).state, (p.port 3).state)) =
    some ([3, 2], .queued, .queued) := by decide +kernel

/-! ### The hypotheses of the statements can be met -/

theorem witness_StepRunsTheFrontCommandOrIdles :
    ({ up with pending := [Instr.noneSlot] } : State).pending = Instr.noneSlot :: [] ∧ up.pending = [] := ⟨rfl, rfl⟩

theorem witness_OrdinaryCommandsKeepMemoryAndQueue : (∀ fault left, Instr.noneSlot ≠ .memoryBurstComplete fault left) ∧
    (∀ fault, Instr.noneSlot ≠ .copyReadComplete fault) := ⟨fun _ _ h => (nomatch h), fun _ h => (nomatch h)⟩

/-- A burst that ends one byte past the memory, one that ends with it, and an access's burst with an address on either side of
its window. -/
theorem witness_BurstCompletionWritesItsCells :
    (InFlight.copyRead .devicePlan 16777185 32 false).outside = true ∧
    (InFlight.copyRead .devicePlan 16777184 32 false).outside = false ∧ Memory.wf up.mem = true ∧
    (lastBurst .put 0xFFC 4).part.mo.inFlight = some (.port 0 (accessAt .put 0xFFC 4) 0xFFC 4 true false) ∧
    (0xFFFF < (accessAt .put 0xFFC 4).base ∧ (accessAt .put 0xFFC 4).base + (accessAt .put 0xFFC 4).windowSize ≤ 0x11000) ∧
    (InFlight.port 0 (accessAt .put 0xFFC 4) 0xFFC 4 true false).cells[3]? = some (0x10FFF, 0x55) := by decide +kernel

theorem witness_windowLaw : windowLaw (lastBurst .put 0xFFC 4).part := by
  refine ⟨by unfold accessInside; decide +kernel, ?_⟩
  intro n a offset length last discard h
  have e : (lastBurst .put 0xFFC 4).part.mo.inFlight = some (.port 0 (accessAt .put 0xFFC 4) 0xFFC 4 true false) := rfl
  rw [e] at h
  cases h
  unfold accessInside
  decide

/-- The last word of the memory; a cue write for a port outside ON and for one in ON whose lane is OPEN and sending. -/
theorem witness_CpCompletionAnswersTheController :
    (0xFFFFFC + 4 ≤ Config.memoryBytes) ∧ up.part.mo.pendingWheel = none ∧
    (busyMemory (.cp ⟨true, 0xFFFFFC, 15#4, 7, .cue 0⟩ false) up).part.mo.inFlight =
      some (.cp ⟨true, 0xFFFFFC, 15#4, 7, .cue 0⟩ false) ∧ (up.part.port 0).state ≠ .on ∧
    ((putLane 1 .on .opened up).part.port 1).state = .on ∧ ((putLane 1 .on .opened up).part.lane 1).mode = .opened ∧
    ((atLane 1 (fun l => { l with sending := some .keep }) (putLane 1 .on .opened up)).part.lane 1).sending ≠ none := by
  decide +kernel

theorem witness_LandedWriteBacksSetTheSummaryBits : 0x200 + [1, 2, 3, 4].length ≤ Config.memoryBytes ∧
    (busyMemory (.writeBack (.status 0) 0x200 [1, 2, 3, 4] true false) up).part.mo.inFlight =
      some (.writeBack (.status 0) 0x200 [1, 2, 3, 4] true false) ∧
    (busyMemory (.writeBack (.request .device) 0x60 [1, 2, 3, 4] false false) up).part.mo.inFlight =
      some (.writeBack (.request .device) 0x60 [1, 2, 3, 4] false false) ∧
    (busyMemory (.writeBack (.request (.port 11)) 0x1FC [1, 2, 3, 4] false false) up).part.mo.pendingWheel = none ∧
    (busyMemory (.writeBack .device 0x64 [1, 2, 3, 4] true false) up).part.mo.inFlight =
      some (.writeBack .device 0x64 [1, 2, 3, 4] true false) ∧ up.part.mrc.adoptionTimer = none ∧
    Target.device ∉ up.part.ae.writeBacks ∧ up.part.ae.error &&& 32#32 = 0 := by
  decide +kernel

/-- A burst of an access of port 0 in flight, with these accesses on the list of the port. -/
def burstOf (a : LaneAccess) (last : Bool) (l : List LaneAccess) (s : State) : State :=
  atMo (fun o => { o with inFlight := some (.port 0 a a.offset 1 last false), lists := o.lists.put 0 l }) s

/-- A PUT of the one byte 4, one of the one byte 7, one of the byte 3 and one of the byte 8; a fault before; a GET. -/
theorem witness_LastBurstOfAnAccessIsAnswered :
    (lastBurst .put 4 1).part.mo.inFlight = some (.port 0 (accessAt .put 4 1) 4 1 true false) ∧
    ((lastBurst .put 4 1).part.lane 0).tags.get (accessAt .put 4 1).tag = .outstanding .put false ∧
    marksWindow (accessAt .put 4 1) 4 1 false = true ∧ marksWindow (accessAt .put 7 1) 7 1 false = true ∧
    marksWindow (accessAt .put 3 1) 3 1 false = false ∧ marksWindow (accessAt .put 8 1) 8 1 false = false ∧
    marksWindow (accessAt .put 4 1) 4 1 true = false ∧ marksWindow (accessAt .put 4 70) 64 10 true = true ∧
    marksWindow (accessAt .get 7 1) 7 1 false = false ∧
    0x10000 + 4 + 1 ≤ Config.memoryBytes ∧ quiet 0 (lastBurst .put 4 1).part := by
  unfold quiet noEntry
  decide +kernel

/-- A burst that is not the last, of a PUT and of a GET that is alone on its port's list or before another; a tag marked
DISCARD_REPLY that is the only one outstanding, or one of two. -/
theorem witness_BurstsBeforeTheLastAndDiscardedReplies :
    let g := { accessAt .get 0 100 with bursts := [(64, 36)] }
    let one := burstOf g false [g] (hold 0 0 .get (putLane 0 .on .opened up))
    let two := burstOf g false [g, accessAt .put 0 1] (hold 0 0 .get (putLane 0 .on .opened up))
    let tag := fun (s : State) => atLane 0 (fun l => { l with tags := l.tags.set 0 (.outstanding .get true) }) s
    let orphan := tag (burstOf g true [] (atPort 0 (fun r => { r with adopted := true }) (putLane 0 .orphan .paused up)))
    one.part.mo.inFlight = some (.port 0 g 0 1 false false) ∧ one.part.mo.lists.at 0 = [g] ∧ g.kind = .get ∧
    two.part.mo.lists.at 0 = g :: [accessAt .put 0 1] ∧ (accessAt .put 0 100).kind = .put ∧ quiet 0 one.part ∧
    one.part.mo.pendingWheel = none ∧ (one.part.lane 0).tags.get g.tag = .outstanding .get false ∧
    (orphan.part.lane 0).tags.get g.tag = .outstanding .get true ∧ (orphan.part.lane 0).outstanding = 1 ∧
    (orphan.part.port 0).adopted = true ∧ quiet 0 orphan.part ∧
    (hold 0 1 .put orphan).part.mo.inFlight = some (.port 0 g 0 1 true false) ∧
    1 < ((hold 0 1 .put orphan).part.lane 0).outstanding := by
  unfold quiet noEntry
  decide +kernel

/-- Bursts whose completion is discarded: the last one of a PUT that covers byte 4 and of one that does not, one before the last, the
controller's, a write-back, and a copy read, which both completions complete; with no wheel waiting and with one. -/
theorem witness_CancelledBurstsCompleteInMemory :
    let bursts : List InFlight := [.port 0 (accessAt .put 4 1) 4 1 true true, .port 0 (accessAt .put 8 1) 8 1 true true,
      .port 0 (accessAt .get 0 100) 0 64 false true, .cp ⟨true, 0x20000, 15#4, 7, .plain⟩ true,
      .writeBack (.status 0) 0x200 [1, 2, 3, 4] true true, .copyRead (.plan 0) 0x080 28 true]
    (∀ f ∈ bursts, (busyMemory f up).part.mo.inFlight = some f ∧ f.discarded = f ∧ f.outside = false) ∧
    marksWindow (accessAt .put 4 1) 4 1 false = true ∧ marksWindow (accessAt .put 8 1) 8 1 false = false ∧
    up.part.mo.pendingWheel = none ∧
    (after (.memoryBurstComplete false []) (busyMemory (.port 0 (accessAt .put 4 1) 4 1 true true) up)).map
      (fun p => p.ae.summary) = some (markMask 0) := by decide +kernel

/-- A device plan that is valid and one that is not, a plan for a port in FAULT, an image of zeros for a wheel and for a sequence. -/
theorem witness_CopyReadCompletionDeliversTheRecord :
    (copying .devicePlan deviceBytes).part.mo.inFlight = some (.copyRead .devicePlan 0x040 32 false) ∧
    devicePlanValid (readDevicePlan ((copying .devicePlan deviceBytes).mem.readBytes 0x040 32)) = true ∧
    devicePlanValid (readDevicePlan ((copying .devicePlan []).mem.readBytes 0x040 32)) = false ∧
    (copying (.plan 1) planBytes).part.mo.inFlight = some (.copyRead (.plan 1) 0x0A0 28 false) ∧
    ((readPlan ((copying (.plan 1) planBytes).mem.readBytes 0x0A0 28)).any (fun plan => planFieldsValid plan &&
      !windowOverlaps (copying (.plan 1) planBytes).part 1 plan)) = true ∧
    ((copying (.plan 1) planBytes).part.port 1).state = .fault ∧
    ((copying (.plan 2) planBytes).part.port 2).state = .empty ∧
    ((readWheel ((copying .wheelImage []).mem.readBytes 0x380 64)).any wheelValid) = false ∧
    ((readSequence ((copying .sequencePlan []).mem.readBytes 0x400 36)).any sequenceValid) = false ∧
    (copying .wheelImage []).part.mo.pendingWheel = none ∧ noEntry 1 (copying (.plan 1) planBytes).part := by
  unfold noEntry
  decide +kernel

/-- A valid plan for port 0 in each of its states, in QUEUED with its entry, and in SETTLE with NO_PHASE. -/
theorem witness_ApplyActsByState :
    let plan := planRecord 2 0 [120, 0] 0x10
    (∀ st ∈ [PortState.empty, .off, .probe, .ramp, .settle, .on, .restartWait, .fault, .orphan, .parked],
      applies (applying plan (put 0 st up)) = true ∧ queueLaw (put 0 st up).part ∧ budgetLaw (put 0 st up).part ∧
      ((put 0 st up).part.port 0).deferred = none) ∧
    applies (applying plan (putDrain 0 (drainTo .withdrawn .off .flush) up)) = true ∧
    queueLaw (putDrain 0 (drainTo .withdrawn .off .flush) up).part ∧
    queueLaw (atBu (fun b => { b with queue := [⟨0, .probe, 20, 4, false⟩] }) (put 0 .queued up)).part ∧
    ((atPort 0 (fun r => { r with flags := { r.flags with noPhase := true } }) (put 0 .settle up)).part.port 0).flags.noPhase =
      true := by
  unfold queueLaw budgetLaw
  decide +kernel

/-- A plan delivered, and port requests taken, while a wheel waits: to a port that waits with NO_PHASE and that the waiting wheel alone
names, and to one in PROBE that holds a FULL entry; a copy read that faults then. (CopyReadCompletionDeliversTheRecord,
SettleTimerExpiryTestsAdmission, RequestsAreTakenWithTheirImages, ClearAndRestartActByState.) -/
theorem witness_RequestsWhileAWheelWaits :
    let waits := fun (s : State) => atMo (fun o => { o with
      wheel := defaultWheel.map (fun x => if x = some (.port 2) then none else x), pendingWheel := some defaultWheel }) s
    let s := waits (put 3 .fault (put 4 .on (askingFull 0 (waiting 2 up))))
    let lapsed := waits (timed 2 (putLane 2 .settle .paused up))
    busReady s.part ∧ (∀ n : Port, (s.part.request (.port n)).taken = false) ∧ s.part.mo.pendingWheel = some defaultWheel ∧
    queueLaw s.part ∧ waitLaw s.part ∧ budgetLaw s.part ∧ s.part.mrc.phase = .running ∧
    names s.part.mo.wheel 2 = false ∧ names defaultWheel 2 = true ∧ (s.part.port 2).plan.laneUse = .expected ∧
    (s.part.port 2).flags.noPhase = true ∧ (s.part.port 2).deferred = none ∧
    (s.part.port 3).state = .fault ∧ (s.part.port 4).state = .on ∧ Source.word (.plan 0) ≠ .device ∧
    ((planOf (applying (planRecord 2 0 [120, 0] 0x10) s)).any (fun plan => planFieldsValid plan &&
      !windowOverlaps s.part 0 plan)) = true ∧
    (applying [] s).part.mo.inFlight = some (.copyRead (.plan 0) 0x080 28 false) ∧
    (lapsed.part.port 2).timers.settle.isSome = true ∧ (lapsed.part.port 2).state = .settle ∧ noEntry 2 lapsed.part ∧
    (lapsed.part.port 2).deferred = none ∧ some (Participant.port 2) ∉ lapsed.part.mo.wheel ∧
    (after (.settleTimerExpiry 2) lapsed).any (fun q => decide ((q.port 2).state = .on)) = true := by
  unfold busReady queueLaw waitLaw budgetLaw noEntry
  decide +kernel

/-- The records at which the clauses of an APPLY in ON and in ORPHAN part: the same plan with mode OFF, with another window, with
another lane use, with a raise that fits and one that does not, and with a wheel that names the port or does not. -/
theorem witness_ApplyMeetsItsClauses :
    let s := put 0 .on up
    let full := planRecord 2 0 [120, 0] 0x10
    let wide := planRecord 2 0 [120, 0] 0x20
    let none' := planRecord 2 1 [120, 0] 0x10
    let more := planRecord 2 0 [200, 0] 0x10
    let most := planRecord 2 0 [0x84, 3] 0x10
    (planOf (applying (planRecord 0 0 [120, 0] 0x10) s)).map (·.mode) = some .off ∧
    (planOf (applying wide s)).map (·.size) = some 0x2000 ∧ (s.part.port 0).plan.size = 0x1000 ∧
    applies (applying wide s) = true ∧
    (planOf (applying none' s)).map (·.laneUse) = some .unused ∧ applies (applying none' s) = true ∧
    (planOf (applying full s)).map (fun plan => fullRequest plan none) = some (s.part.port 0).grant ∧
    (planOf (applying more s)).map (fun plan => fits s.part (fullRequest plan none - 120)) = some true ∧
    (planOf (applying most s)).map (fun plan => fits s.part (fullRequest plan none - 120)) = some false ∧
    applies (applying most s) = true ∧ names s.part.mo.wheel 0 = true ∧
    names (atMo (fun o => { o with wheel := List.replicate 64 (some .cp) }) s).part.mo.wheel 0 = false ∧
    (planOf (applying [9] s)).any planFieldsValid = false ∧
    ((planOf (applying full (atPort 1 (fun r => { r with plan := (windowed 0 r).plan }) s))).any (fun plan =>
      planFieldsValid plan && windowOverlaps (atPort 1 (fun r => { r with plan := (windowed 0 r).plan }) s).part 0 plan)) =
      true := by decide +kernel

/-- A valid wheel and a valid sequence that are swapped in or wait, and ones that leave out a port in service. -/
theorem witness_WheelsAndSequencesAreDelivered :
    let s := put 0 .on up
    let image := wheelBytes defaultWheel
    let bare := wheelBytes (defaultWheel.map (fun x => if x = some (.port 0) then none else x))
    let slots := defaultSequence.slots.flatMap (fun x => [BitVec.ofNat 8 x.kind.code, BitVec.ofNat 8 x.pace.code])
    (readWheel ((copying .wheelImage image).mem.readBytes 0x380 64)).any (fun w => wheelValid w && namesInService s.part w) =
      true ∧
    (readWheel ((copying .wheelImage bare).mem.readBytes 0x380 64)).any (fun w => wheelValid w && !namesInService s.part w) =
      true ∧
    anyPending up.part = false ∧ up.part.ptp.access = none ∧
    (readSequence ((copying .sequencePlan (slots ++ [0, 13])).mem.readBytes 0x400 36)).any (fun q =>
      sequenceValid q && coversClosed s.part q) = true ∧
    (readSequence ((copying .sequencePlan (slots ++ [1, 13])).mem.readBytes 0x400 36)).any (fun q =>
      sequenceValid q && !coversClosed s.part q && !q.converts (.portI 0)) = true ∧
    up.part.ms.mode ≠ .stopped ∧ (atMs (fun m => { m with mode := .stopped }) up).part.ms.mode = .stopped := by
  decide +kernel

/-- A port in a state that holds a deferred plan: in its mode, lane use and size in 4 KiB, with 120 cu. -/
def putDeferred (st : PortState) (mode : PlanMode) (laneUse : LaneUse) (size : Nat) : State :=
  atPort 0 (fun r => { r with
    timers := ⟨none, none, some 50, some 20, none, none, false⟩
    deferred := some { r.plan with mode := mode, laneUse := laneUse, units := 120, size := 0x1000 * size } }) (put 0 st up)

/-- A deferred plan with mode OFF, with another window, with another lane use, and one that acts, in each state that holds one: a
port that its settle expiry admits and, on a wheel that does not name it, one that it leaves waiting. -/
theorem witness_DeferredRequestsAreApplied :
    let unnamed := atMo (fun o => { o with wheel := List.replicate 64 (some .cp) })
    (∀ st ∈ [PortState.ramp, .settle], ∀ mode ∈ [PlanMode.off, .fixed], ∀ laneUse ∈ [LaneUse.expected, .unused], ∀ size ∈ [1, 2],
      let s := putDeferred st mode laneUse size
      (s.part.port 0).state = st ∧ noEntry 0 s.part ∧ s.part.mrc.phase = .running ∧ s.part.mrc.standby = false ∧
      s.part.mo.pendingWheel = none ∧ (s.part.port 0).timers.settle.isSome = true ∧ (s.part.port 0).timers.ramp.isSome = true ∧
      (s.part.port 0).deferred.any planFieldsValid = true ∧ (s.part.port 0).plan.size = 0x1000 ∧
      some (Participant.port 0) ∈ s.part.mo.wheel ∧ some (Participant.port 0) ∉ (unnamed s).part.mo.wheel) ∧
    (0 : Port) ∈ (atBu (fun b => { b with orders := [0] }) (putDeferred .ramp .fixed .expected 1)).part.bu.orders ∧
    ((atLane 0 (fun l => { l with mode := .paused, silenceTimer := some 100 })
      (putDeferred .settle .off .expected 1)).part.lane 0).silenceTimer.isSome = true := by
  unfold noEntry
  decide +kernel

theorem witness_PowerOnResetTakesAndEnds : State.reset.part.mrc.phase = .powerOn ∧
    State.reset.part.mrc.powerOnOver = false ∧ State.reset.part.ptp.presented = none ∧
    State.reset.part.ptp.access = none ∧
    State.reset.part.mrc.resetnLow = false ∧
    (atMrc (fun m => { m with resetnLow := true }) State.reset).part.mrc.resetnLow = true ∧
    (State.reset.part.port 0).state = .empty ∧ noEntry 0 State.reset.part ∧
    (atMrc (fun m => { m with present := m.present.put 0 true, stby := true }) State.reset).part.mrc.present.at 0 = true := by
  unfold noEntry
  decide +kernel

/-- An access presented in a hold: outside the Control Area and on a cue word, and at the first and the last byte of the words whose
classes meet; a request word IDLE and TAKEN, with a code defined, with SOFT_RESET and with none, written whole and in part.
(PowerOnResetTakesAndEnds, ResetnDeassertLatchesTheStrapsAndRuns.) -/
theorem witness_PresentedAccessesArrive :
    let held := fun (b : BusAccess) (s : State) => atPtp (fun t => { t with presented := some b }) s
    let hold := atMrc (fun m => { m with resetnLow := true, phase := .holdRteLow }) up
    let orphan := atPtp (fun t => { t with windows := t.windows.put 0 ⟨0x10000, 0x1000⟩ })
      (atMrc (fun m => { m with resetnLow := true, phase := .holdRideThrough }) (put 0 .orphan up))
    let b : BusAccess := ⟨true, 0x10000, 15#4, 7⟩
    (held b hold).part.ptp.presented = some b ∧ (held b hold).part.mrc.phase = .holdRteLow ∧
    (held b State.reset).part.ptp.presented = some b ∧ (held b State.reset).part.mrc.phase = .powerOn ∧
    (after (.resetnDeassert ⟨0, true, true⟩) (held b orphan)).map (fun q => (areaOffset q 0x10000, cuePort q 0x10000)) =
      some (none, some 0) ∧
    (after (.resetnDeassert ⟨0, true, true⟩) (held b hold)).map (fun q => (areaOffset q 0x10000, cuePort q 0x10000)) =
      some (none, none) ∧
    (after (.resetnDeassert ⟨1, true, true⟩) (held b hold)).map (fun q =>
      (areaOffset q 0x1FFFFF, areaOffset q 0x200000, areaOffset q 0x200FFF, areaOffset q 0x201000)) =
      some (none, some 0, some 0xFFC, none) ∧
    wordClass 0x03F = .partOwned .header ∧ wordClass 0x040 = .hostOwned ∧ wordClass 0x060 = .request .device ∧
    wordClass 0x06F = .hostOwned ∧ wordClass 0x070 = .merge .summary ∧ wordClass 0x073 = .merge .summary ∧
    wordClass 0x074 = .merge .error ∧ wordClass 0x077 = .merge .error ∧ wordClass 0x09C = .request (.port 0) ∧
    sourceOf 0x040 = some .devicePlan ∧ sourceOf 0x424 = none ∧ protectedNow hold.part .devicePlan = false ∧
    protectedNow (atAe (fun a => { a with readList := [.devicePlan] }) hold).part .devicePlan = true ∧
    (hold.part.request .device).taken = false ∧
    ((atAe (fun a => { a with device := { a.device with taken := true } }) hold).part.request .device).taken = true ∧
    requestCode .device 0x0F = some .softReset ∧ requestCode .device 0x42 = none ∧
    requestCode (.port 0) 0x12 = some .clear ∧ fullWord 15#4 = true ∧ fullWord 1#4 = false := by decide +kernel

theorem witness_ResetWithRteLowEmptiesEveryPort :
    let s := atMrc (fun m => { m with straps := ⟨0, false, false⟩ }) up
    s.part.mrc.phase = .running ∧ s.part.mrc.resetnLow = false ∧ s.part.mrc.straps.rte = false := by decide +kernel

theorem witness_RideThroughResetKeepsAdmittedPorts :
    let s := atPort 5 (fun r => { r with adopted := true }) (put 5 .orphan (atLane 0 (fun l => { l with cue := some 7 })
      (busyMemory (.port 1 (accessAt .put 0 4) 0 4 true false)
        (put 3 .off (putDrain 2 (drainTo .shed .queued .flush) (put 1 .settle (putLane 0 .on .paused up)))))))
    s.part.mrc.phase = .running ∧ s.part.mrc.resetnLow = false ∧ s.part.mrc.straps.rte = true ∧ queueLaw s.part ∧
    (s.part.port 0).state = .on ∧ (s.part.lane 0).cue = some 7 ∧ (s.part.port 0).plan.laneUse = .expected ∧
    s.part.mo.inFlight ≠ none ∧ (s.part.port 1).state = .settle ∧ (s.part.port 2).state = .drain ∧
    (s.part.port 3).state = .off ∧ (s.part.port 4).state = .empty ∧ (s.part.port 5).state = .orphan ∧
    (s.part.port 5).adopted = true := by
  unfold queueLaw
  decide +kernel

theorem witness_ResetnDeassertLatchesTheStrapsAndRuns :
    let s := atMrc (fun m => { m with resetnLow := true, phase := .holdRideThrough }) (put 0 .orphan up)
    let low := atMrc (fun m => { m with resetnLow := true, phase := .holdRteLow }) up
    s.part.mrc.resetnLow = true ∧ s.part.mrc.phase ≠ .running ∧ s.part.ptp.presented = none ∧ s.part.ptp.access = none ∧
    (⟨0, false, true⟩ : Straps).cab = s.part.mrc.straps.cab ∧ (s.part.port 0).state = .orphan ∧ noEntry 0 s.part ∧
    (s.part.port 0).adopted = false ∧ (s.part.port 1).state = .empty ∧ noEntry 1 s.part ∧
    low.part.mrc.phase ≠ .holdRideThrough ∧ low.part.mrc.phase ≠ .running ∧ (low.part.port 0).state = .empty ∧
    (atMrc (fun m => { m with present := m.present.put 0 true, stby := true }) low).part.mrc.present.at 0 = true ∧
    noEntry 0 low.part ∧
    (atMrc (fun m => { m with resetnLow := true, powerOnOver := true }) State.reset).part.mrc.powerOnOver = true ∧
    (atMrc (fun m => { m with resetnLow := true }) State.reset).part.mrc.phase = .powerOn ∧
    (atMrc (fun m => { m with resetnLow := true }) State.reset).part.mrc.powerOnOver = false := by
  unfold noEntry
  decide +kernel

/-- A drain, an orphan and a port in OFF in a ride-through hold, in standby and out of it, with an empty queue; a window that
ends before the moved Control Area, meets its first byte, meets its last and begins after it. -/
theorem witness_RideThroughEndsByState :
    let s := atMrc (fun m => { m with resetnLow := true, phase := .holdRideThrough })
      (put 2 .off (put 1 .orphan (putDrain 0 (drainTo .shed .queued .flush) up)))
    let at' := fun (base : Nat) => atPort 1 (fun r => { r with plan := { r.plan with base } }) s
    s.part.mrc.phase = .holdRideThrough ∧ s.part.mrc.straps.cab = 0 ∧ s.part.bu.queue = [] ∧ s.part.mrc.standby = false ∧
    (atMrc (fun m => { m with standby := true }) s).part.mrc.standby = true ∧
    (s.part.port 0).state = .drain ∧ movedOnto ⟨0, true, true⟩ 0 s.part = false ∧
    (s.part.port 1).state = .orphan ∧ movedOnto ⟨1, true, true⟩ 1 (at' 0x1FF000).part = false ∧
    movedOnto ⟨1, true, false⟩ 1 (at' 0x200000).part = true ∧ movedOnto ⟨1, true, true⟩ 1 (at' 0x1FF001).part = true ∧
    movedOnto ⟨1, true, true⟩ 1 (at' 0x200FFF).part = true ∧ movedOnto ⟨1, true, true⟩ 1 (at' 0x201000).part = false ∧
    (s.part.port 2).state = .off ∧ (∀ n, noEntry n s.part) := by
  unfold noEntry
  decide +kernel

theorem witness_SoftResetWriteIsAnsweredAtOnce : busReady up.part ∧ (up.part.request .device).taken = false ∧
    up.part.mo.pendingWheel = none ∧ up.part.mo.cp = none := by
  unfold busReady
  decide +kernel

/-- A part in which a SOFT_RESET waits to be taken, with a port in each state that R182 names and a burst of a starting port in
flight, under AUTO high and low, in standby and out of it; one without orphans to be; one with RTE low, with a port plugged in and
STBY asserted. -/
theorem witness_SoftResetTakeIsOneEvent :
    let due := fun (straps : Straps) (s : State) => atMrc (fun m => { m with softReset := true, straps }) s
    let s := busyMemory (.port 3 (accessAt .put 0 4) 0 4 true false)
      (putLane 0 .on .opened (put 1 .orphan (putDrain 2 (drainTo .shed .queued .flush)
        (atPort 3 (fun r => { r with deferred := some (defaultPlan true) }) (put 3 .settle (put 4 .restartWait
          (put 5 .fault (put 6 .parked (put 7 .off up)))))))))
    (∀ auto, (due ⟨0, true, auto⟩ s).part.mrc.softReset = true ∧ (due ⟨0, true, auto⟩ s).part.mrc.phase = .running ∧
      queueLaw (due ⟨0, true, auto⟩ s).part) ∧
    s.part.mrc.standby = false ∧ (atMrc (fun m => { m with standby := true }) s).part.mrc.standby = true ∧
    (s.part.port 0).state = .on ∧ (s.part.port 0).plan.laneUse = .expected ∧ s.part.mo.inFlight ≠ none ∧
    (s.part.port 1).state = .orphan ∧ (s.part.port 2).state = .drain ∧ (s.part.port 3).state = .settle ∧
    (s.part.port 3).deferred.isSome = true ∧
    (∀ n ∈ [(3 : Port), 4, 5, 6, 7],
      (s.part.port n).state ∈ [PortState.probe, .ramp, .settle, .queued, .restartWait, .fault, .parked, .off]) ∧
    (s.part.port 8).state = .empty ∧ (∀ n, (up.part.port n).state ∉ [PortState.on, .orphan]) ∧
    (due ⟨0, false, true⟩ (atMrc (fun m => { m with present := m.present.put 0 true, stby := true }) up)).part.mrc.straps.rte =
      false := by
  unfold queueLaw
  decide +kernel

/-- Ports in ON with keep, with a request outstanding, with a grace time alone and with neither, in a run and in a reset hold. -/
theorem witness_StandbyEntryParksThePorts :
    let s := put 3 .fault (put 2 .probe (hold 1 0 .put (putLane 1 .on .opened
      (atPort 0 (fun r => { r with plan := { r.plan with keep := true } }) (put 0 .on
        (put 4 .on (atPort 5 (fun r => { r with plan := { r.plan with grace := 0 } }) (put 5 .on up))))))))
    s.part.mrc.stby = false ∧ s.part.mrc.phase = .running ∧
    (s.part.port 0).state = .on ∧ noEntry 0 s.part ∧ (s.part.port 0).plan.keep = true ∧
    (s.part.port 1).state = .on ∧ noEntry 1 s.part ∧ (s.part.port 1).plan.keep = false ∧
    flushes (s.part.lane 1).outstanding (s.part.port 1) = true ∧
    (∀ n ∈ [(4 : Port), 5], (s.part.port n).state = .on ∧ noEntry n s.part ∧ (s.part.port n).plan.keep = false ∧
      flushes (s.part.lane n).outstanding (s.part.port n) = false) ∧
    graceMs (s.part.port 4).plan.grace ≠ 0 ∧ graceMs (s.part.port 5).plan.grace = 0 ∧
    (atMrc (fun m => { m with phase := .holdRideThrough }) s).part.mrc.phase ≠ .running ∧
    (s.part.port 2).state ∈ [PortState.queued, .probe, .ramp, .settle, .restartWait] ∧
    (s.part.port 2).deferred = none ∧
    (s.part.port 3).state ∈ [PortState.empty, .off, .fault, .drain, .orphan] ∧ noEntry 3 s.part := by
  unfold noEntry
  decide +kernel

/-- A kept port, a drain for standby, and parked ports of which the higher number has the higher priority; in a run, and in a
ride-through hold. -/
theorem witness_StandbyExitQueuesTheParkedPorts :
    let s := atMrc (fun m => { m with stby := true, standby := true })
      (atPort 3 (fun r => { r with plan := { r.plan with priority := 5 } }) (put 3 .parked
        (put 2 .parked (putDrain 1 (drainTo .standby .parked .flush) (put 0 .on up)))))
    let hold := atMrc (fun m => { m with phase := .holdRideThrough }) s
    s.part.mrc.stby = true ∧ s.part.mrc.phase = .running ∧ hold.part.mrc.stby = true ∧
    hold.part.mrc.phase = .holdRideThrough ∧ (hold.part.port 2).state = .parked ∧ noEntry 2 hold.part ∧
    (s.part.port 0).state ≠ .parked ∧ quiet 0 s.part ∧ noEntry 1 s.part ∧ (s.part.port 1).state = .drain ∧
    (s.part.port 1).drain = some (drainTo .standby .parked .flush) ∧
    (s.part.port 2).state = .parked ∧ noEntry 2 s.part ∧ queueLaw s.part ∧ (s.part.port 3).state = .parked ∧
    (s.part.port 2).plan.priority < (s.part.port 3).plan.priority := by
  unfold quiet noEntry queueLaw
  decide +kernel

/-- Orphans with a request outstanding, adopted, with a grace time alone and with neither. -/
theorem witness_AdoptionTimerExpiresOrStops :
    let s := atMrc (fun m => { m with adoptionTimer := some 5000 }) (put 3 .orphan
      (atPort 2 (fun r => { r with plan := { r.plan with grace := 0 } }) (put 2 .orphan
        (atPort 1 (fun r => { r with adopted := true }) (put 1 .orphan (hold 0 0 .put (putLane 0 .orphan .paused up)))))))
    s.part.mrc.adoptionTimer.isSome = true ∧ (s.part.port 0).state = .orphan ∧ (s.part.port 0).adopted = false ∧
    flushes (s.part.lane 0).outstanding (s.part.port 0) = true ∧
    (s.part.port 1).state = .orphan ∧ (s.part.port 1).adopted = true ∧ (∀ n, noEntry n s.part) ∧
    (∀ n ∈ [(2 : Port), 3], (s.part.port n).state = .orphan ∧ (s.part.port n).adopted = false ∧
      flushes (s.part.lane n).outstanding (s.part.port n) = false) ∧
    graceMs (s.part.port 2).plan.grace = 0 ∧ graceMs (s.part.port 3).plan.grace ≠ 0 ∧ queueLaw s.part ∧ adoptionLaw s.part ∧
    (after (.presenceLoss 4) s).any unadoptedLeft = true ∧ isReset (.presenceLoss 4) = false := by
  unfold noEntry queueLaw adoptionLaw
  decide +kernel

/-- An EMPTY port and one in ON; debouncers that run under a plan with mode AUTO and with mode OFF, running, in standby and in a hold. -/
theorem witness_ArrivalFollowsTheDebouncedPresence :
    let s := atPort 1 (fun r => { r with timers := { r.timers with debouncer := some 10 } }) (put 1 .empty (put 2 .on up))
    up.part.mrc.present.at 0 = false ∧ quiet 0 up.part ∧ (up.part.port 0).state = .empty ∧ up.part.mrc.phase = .running ∧
    s.part.mrc.present.at 2 = false ∧ quiet 2 s.part ∧ (s.part.port 2).state ≠ .empty ∧
    (s.part.port 1).timers.debouncer.isSome = true ∧ (s.part.port 1).plan.mode ≠ .off ∧ s.part.mrc.standby = false ∧
    (atMrc (fun m => { m with standby := true }) s).part.mrc.standby = true ∧
    (atMrc (fun m => { m with phase := .holdRideThrough }) s).part.mrc.phase ≠ .running ∧
    (up.part.port 0).plan.mode = .off := by
  unfold quiet noEntry
  decide +kernel

theorem witness_PresenceLossEmptiesThePort :
    let s := atMrc (fun m => { m with present := m.present.put 0 true }) (put 0 .on up)
    s.part.mrc.present.at 0 = true ∧ (s.part.port 0).state ≠ .empty ∧ (s.part.port 0).state.closed = true ∧
    ((put 0 .settle (atPort 0 (fun r => { r with deferred := some (defaultPlan true) }) s)).part.port 0).deferred =
      some (defaultPlan true) ∧
    (atMrc (fun m => { m with present := m.present.put 1 true }) up).part.mrc.present.at 1 = true ∧
    (up.part.port 1).state = .empty ∧ noEntry 1 up.part := by
  unfold noEntry
  decide +kernel

theorem witness_HelloTimerExpiryFaultsThePort : ((timed 0 (put 0 .probe up)).part.port 0).timers.hello.isSome = true := by
  decide +kernel

/-- An admitted port with lane use NONE, one with a window and a phase, and one without a window. -/
theorem witness_SettleTimerExpiryTestsAdmission :
    let s := timed 2 (timed 1 (timed 0 (atPort 2 (fun r => { r with plan := { r.plan with size := 0 } }) (put 2 .settle
      (put 1 .settle (atPort 0 (fun r => { r with plan := { r.plan with laneUse := .unused } }) (put 0 .settle up)))))))
    (∀ n : Port, n.1 < 3 → (s.part.port n).timers.settle.isSome = true ∧ (s.part.port n).state = .settle ∧
      (s.part.port n).deferred = none ∧ noEntry n s.part) ∧
    (s.part.port 0).plan.laneUse = .unused ∧
    ((s.part.port 1).plan.size ≠ 0 ∧ some (Participant.port 1) ∈ s.part.mo.wheel) ∧
    (s.part.port 2).plan.laneUse = .expected ∧ (s.part.port 2).plan.size = 0 ∧ s.part.mo.pendingWheel = none := by
  unfold noEntry
  decide +kernel

/-- An on-time that counts, at 58,999 ms; one that holds at its limit. -/
theorem witness_OnTimeIsReportedAndLimited :
    let s := atPort 0 (fun r => { r with onTime := 58999 }) (timed 0 (put 0 .on (put 1 .on up)))
    (s.part.port 0).timers.onTime = true ∧ quiet 0 s.part ∧ (s.part.port 0).state = .on ∧ s.part.ae.quiet = false ∧
    (busyMemory (.copyRead .devicePlan 0x40 32 false) s).part.mo.inFlight ≠ none ∧ (s.part.port 0).onTime < 59000 ∧
    (s.part.port 1).timers.onTime = false := by
  unfold quiet noEntry
  decide +kernel

/-- In a ride-through hold: a drain of each destination with its grace timer and its silence timer running, and orphans below their
restart limit and at it, one of them over its trip count and one with an order on its way and a grace time of 0; a burst of the
draining port in flight. (GraceAndRestartTimersMoveThePort, ShedOrderIsCarriedOutByState, SwitchFailuresFollowTheRestartLimit,
PortSampleIsKeptAndJudged, LaneTimersKeepAndLoseTheLane, PresenceLossEmptiesThePort.) -/
theorem witness_HoldsRedirectAndCancel (dest : DrainDest) :
    let silent := fun (n : Port) (s : State) => atLane n (fun l => { l with silenceTimer := some 100 }) s
    let s := atMrc (fun m => { m with phase := .holdRideThrough, present := PerPort.all true })
      (busyMemory (.port 0 (accessAt .put 0 4) 0 4 true false)
        (atMs (fun m => { m with current := some 1, overCount := m.overCount.put 1 2 })
          (atBu (fun b => { b with orders := [3] })
            (silent 0 (timed 0 (putDrain 0 (drainTo .asked dest .grace)
              (silent 1 (put 1 .orphan
                (atPort 2 (fun r => { r with restartCount := 2 }) (put 2 .orphan
                  (atPort 3 (fun r => { r with plan := { r.plan with grace := 0 } }) (put 3 .orphan up))))))))))))
    s.part.mrc.phase = .holdRideThrough ∧ (s.part.port 0).state = .drain ∧
    (s.part.port 0).drain = some (drainTo .asked dest .grace) ∧ (s.part.port 0).timers.grace.isSome = true ∧
    (s.part.lane 0).silenceTimer.isSome = true ∧ (s.part.lane 1).silenceTimer.isSome = true ∧
    s.part.mo.inFlight = some (.port 0 (accessAt .put 0 4) 0 4 true false) ∧ s.part.mrc.present.at 0 = true ∧
    queueLaw s.part ∧ waitLaw s.part ∧
    (∀ n ∈ [(1 : Port), 2, 3], (s.part.port n).state = .orphan ∧ (s.part.port n).deferred = none ∧
      decide ((s.part.port n).restartCount < (s.part.port n).plan.restartLimit.1) = decide (n ≠ 2)) ∧
    s.part.ms.current = some 1 ∧ (s.part.ms.slot 1).kind = .portI 1 ∧
    (s.part.ms.views.at 1).tripField.1 ≤ s.part.ms.overCount.at 1 ∧
    isOver (s.part.ms.views.at 1).margin (s.part.port 1).grant (min 2047 151 - s.part.ms.offset) = true ∧
    (3 : Port) ∈ s.part.bu.orders ∧ flushes (s.part.lane 3).outstanding (s.part.port 3) = false ∧
    graceMs (s.part.port 3).plan.grace = 0 := by
  unfold queueLaw waitLaw
  cases dest <;> decide +kernel

/-- A draining port in each of the four destinations. -/
theorem witness_GraceTimersMoveThePort (dest : DrainDest) :
    let s := timed 0 (putDrain 0 (drainTo .asked dest .grace) up)
    (s.part.port 0).timers.grace.isSome = true ∧ (s.part.port 0).drain = some (drainTo .asked dest .grace) ∧
    (s.part.port 0).state = .drain ∧ s.part.mrc.phase = .running ∧ (drainTo .asked dest .grace).dest = dest ∧
    s.part.mrc.standby = false ∧ (atMrc (fun m => { m with standby := true }) s).part.mrc.standby = true := by
  cases dest <;> decide +kernel

theorem witness_RestartTimersMoveThePort :
    let s := timed 0 (put 0 .restartWait up)
    let off := atPort 0 (fun r => { r with plan := { r.plan with mode := .off } }) s
    (s.part.port 0).timers.restart.isSome = true ∧ s.part.mrc.phase = .running ∧ (s.part.port 0).plan.mode ≠ .off ∧
    s.part.mrc.standby = false ∧ (atMrc (fun m => { m with standby := true }) s).part.mrc.standby = true ∧
    (off.part.port 0).timers.restart.isSome = true ∧ (off.part.port 0).plan.mode = .off := by decide +kernel

/-- Orders to a port that starts, to one with a request outstanding, to one in OFF, to one with a grace time alone, with neither, and
to one in QUEUED. -/
theorem witness_ShedOrderIsCarriedOutByState :
    let s := atBu (fun b => { b with orders := [0, 1, 2, 3, 4, 5], shedList := [0, 1, 3, 4], queue := [⟨5, .probe, 20, 3, false⟩] })
      (put 5 .queued (put 3 .on (atPort 4 (fun r => { r with plan := { r.plan with grace := 0 } }) (put 4 .orphan
        (put 2 .off (hold 1 0 .get (putLane 1 .on .opened (put 0 .settle up))))))))
    (∀ n : Port, n.1 < 6 → n ∈ s.part.bu.orders) ∧ s.part.mrc.phase = .running ∧
    (s.part.port 0).state ∈ [PortState.probe, .ramp, .settle] ∧ (s.part.port 0).deferred = none ∧
    s.part.mrc.standby = false ∧ (atMrc (fun m => { m with standby := true }) s).part.mrc.standby = true ∧
    (∀ n ∈ [(1 : Port), 3, 4], (s.part.port n).state ∈ [PortState.on, .orphan] ∧
      flushes (s.part.lane n).outstanding (s.part.port n) = decide (n = 1)) ∧
    graceMs (s.part.port 3).plan.grace ≠ 0 ∧ graceMs (s.part.port 4).plan.grace = 0 ∧
    (∀ n ∈ [(2 : Port), 5], (s.part.port n).state ∉ [PortState.probe, .ramp, .settle, .on, .orphan]) ∧
    queueLaw s.part ∧ waitLaw s.part ∧ (1 : Port) ∈ s.part.bu.shedList := by
  unfold queueLaw waitLaw
  decide +kernel

/-- A restart count below its limit and one at it; a draining port of each destination, in standby and out of it. -/
theorem witness_SwitchFailuresFollowTheRestartLimit (dest : DrainDest) :
    let s := putDrain 2 (drainTo .asked dest .flush) (atPort 1 (fun r => { r with restartCount := 2 })
      (put 1 .on (timed 0 (put 0 .ramp up))))
    (s.part.port 0).timers.ramp.isSome = true ∧ (s.part.port 0).state = .ramp ∧ (s.part.port 0).deferred = none ∧
    s.part.mrc.phase = .running ∧ (s.part.port 0).restartCount < (s.part.port 0).plan.restartLimit.1 ∧
    (s.part.port 1).state.closed = true ∧ 1200 < 1201 ∧ (s.part.port 1).state ≠ .drain ∧
    (s.part.port 1).deferred = none ∧ (s.part.port 1).plan.restartLimit.1 ≤ (s.part.port 1).restartCount ∧
    (s.part.port 2).state = .drain ∧ (s.part.port 2).drain = some (drainTo .asked dest .flush) ∧
    (s.part.port 2).deferred = none ∧ s.part.mrc.standby = false ∧
    (atMrc (fun m => { m with standby := true }) s).part.mrc.standby = true := by
  cases dest <;> decide +kernel

theorem witness_RequestsAreTakenWithTheirImages : busReady up.part ∧ up.part.mo.pendingWheel = none ∧
    (up.part.request .device).taken = false ∧ (up.part.request (.port 11)).taken = false ∧
    (Instr.undefinedRequestCode .device 0x11).wf = true ∧ (Instr.undefinedRequestCode (.port 11) 0x0F).wf = true := by
  unfold busReady
  decide +kernel

/-- A port in FAULT under a plan with mode AUTO and one with mode OFF, and a port in another state. -/
theorem witness_ClearActsByState :
    let s := atPort 1 (fun r => { r with plan := { r.plan with mode := .off } }) (put 1 .fault (put 0 .fault up))
    busReady s.part ∧ (∀ n : Port, (s.part.request (.port n)).taken = false) ∧ s.part.mo.pendingWheel = none ∧
    budgetLaw s.part ∧ (s.part.port 0).state = .fault ∧ (s.part.port 0).plan.mode ≠ .off ∧
    s.part.mrc.standby = false ∧ (atMrc (fun m => { m with standby := true }) s).part.mrc.standby = true ∧
    (s.part.port 1).state = .fault ∧ (s.part.port 1).plan.mode = .off ∧ (s.part.port 2).state ≠ .fault ∧
    queueLaw s.part ∧ waitLaw s.part := by
  unfold busReady budgetLaw queueLaw waitLaw
  decide +kernel

/-- A port in ON with an accepted request outstanding, one with a grace time alone and one with neither, ports in FAULT under a plan
with mode OFF and with mode AUTO, a port in another state. -/
theorem witness_RestartActsByState :
    let s := atPort 2 (fun r => { r with plan := { r.plan with mode := .off } })
      (put 2 .fault (put 1 .on (hold 0 0 .put (putLane 0 .on .opened
        (put 4 .fault (atPort 5 (fun r => { r with plan := { r.plan with grace := 0 } }) (put 5 .on up)))))))
    busReady s.part ∧ (∀ n : Port, (s.part.request (.port n)).taken = false) ∧ s.part.mo.pendingWheel = none ∧
    budgetLaw s.part ∧ (s.part.port 0).state = .on ∧ 0 < (s.part.lane 0).outstanding ∧
    (s.part.port 0).plan.laneUse = .expected ∧ (s.part.port 1).state = .on ∧
    graceMs (s.part.port 1).plan.grace ≠ 0 ∧ (s.part.port 2).state = .fault ∧ (s.part.port 2).plan.mode = .off ∧
    (s.part.port 3).state ≠ .on ∧ (s.part.port 3).state ≠ .fault ∧ (s.part.port 4).state = .fault ∧
    (s.part.port 4).plan.mode ≠ .off ∧ s.part.mrc.standby = false ∧ (s.part.port 5).state = .on ∧
    graceMs (s.part.port 5).plan.grace = 0 ∧ (s.part.lane 5).outstanding = 0 ∧
    queueLaw s.part ∧ waitLaw s.part := by
  unfold busReady budgetLaw queueLaw waitLaw
  decide +kernel

/-- A part that warms up, one that runs with and without a closed switch, one that stands still. -/
theorem witness_SequencerCommandsActByTheMode :
    let warm := atMs (fun m => { m with mode := .warming, current := none }) up
    let still := atMs (fun m => { m with mode := .stopped, current := none }) up
    busReady up.part ∧ (up.part.request .device).taken = false ∧ up.part.mo.pendingWheel = none ∧
    busReady warm.part ∧ warm.part.ms.mode = .warming ∧ up.part.ms.mode ≠ .warming ∧ anyClosed up.part = false ∧
    up.part.ms.mode ≠ .stopped ∧ up.part.ms.busy = true ∧
    (slotAt 15 up).part.ms.busy = false ∧
    anyClosed (put 0 .on up).part = true ∧ still.part.ms.mode = .stopped ∧ still.part.ms.atRest = true ∧
    anyClosed still.part = false ∧ up.part.ms.mode = .running ∧ up.part.ms.current = some 0 := by
  unfold busReady
  decide +kernel

theorem witness_DroppedWritesAreAnsweredWithCompletion :
    let held := withAccess ⟨⟨true, 0x40, 15#4, 0⟩, .waitingCopy .devicePlan, .plain⟩ up
    busReady up.part ∧ (Instr.partOwnedWrite 0x064 15#4 0).wf = true ∧ (Instr.partOwnedWrite 0x47C 15#4 0).wf = true ∧
    (Instr.partialRequestWrite .device 1#4 0).wf = true ∧
    ((atAe (fun a => { a with device := ⟨true, 1, 0, none⟩ }) up).part.request .device).taken = true ∧
    up.part.mo.pendingWheel = none ∧ up.part.mo.cp = none ∧ held.part.ptp.holdTimer.isSome = true ∧
    held.part.ptp.access = some ⟨⟨true, 0x40, 15#4, 0⟩, .waitingCopy .devicePlan, .plain⟩ := by
  unfold busReady
  decide +kernel

/-- The first and the last word of a record, a merge word; a record with and without a pending write-back; a protected source
record, one that is not, and a word of no record. -/
theorem witness_HoldsWaitForTheAreaEngine :
    let s := atAe (fun a => { a with writeBacks := [.results], readList := [.plan 0] }) up
    (Instr.partOwnedRead 0x440 15#4).wf = true ∧ (Instr.partOwnedRead 0x47C 1#4).wf = true ∧
    wordClass (0x47C : BitVec 12).toNat = .partOwned .results ∧ (Instr.partOwnedRead 0x070 15#4).wf = true ∧
    wordClass (0x070 : BitVec 12).toNat = .merge .summary ∧ busReady s.part ∧ .results ∈ s.part.ae.writeBacks ∧
    .summary ∉ s.part.ae.writeBacks ∧ (Instr.hostOwnedWrite 0x080 15#4 0).wf = true ∧
    sourceOf (0x098 : BitVec 12).toNat = some (.plan 0) ∧ protectedNow s.part (.plan 0) = true ∧
    protectedNow s.part .devicePlan = false ∧ (Instr.hostOwnedWrite 0xFFC 15#4 0).wf = true ∧
    sourceOf (0xFFC : BitVec 12).toNat = none := by
  unfold busReady
  decide +kernel

/-- A read held for the write-back in flight, and a write held for the copy read in flight. -/
theorem witness_HeldAccessesAreCarried :
    let read : Access := ⟨⟨false, 0x200, 15#4, 0⟩, .waitingWriteBack (.status 0) true, .plain⟩
    let write : Access := ⟨⟨true, 0x080, 15#4, 7⟩, .waitingCopy (.plan 0), .plain⟩
    let s := withAccess read (busyMemory (.writeBack (.status 0) 0x200 (List.replicate 32 0) true false) up)
    let w := withAccess write (busyMemory (.copyRead (.plan 0) 0x080 28 false) up)
    s.part.ptp.access = some read ∧ s.part.mo.inFlight = some (.writeBack (.status 0) 0x200 (List.replicate 32 0) true false) ∧
    0x200 + (List.replicate 32 (0 : Byte)).length ≤ Config.memoryBytes ∧
    w.part.ptp.access = some write ∧ w.part.mo.inFlight = some (.copyRead (.plan 0) 0x080 28 false) ∧
    .plan 0 ∉ w.part.ae.readList := by decide +kernel

theorem witness_MergeWritesClearTheCopies : legalEnables 15#4 = true ∧ legalEnables 1#4 = true ∧ busReady up.part := by
  unfold busReady
  decide +kernel

/-- The byte before the Control Area's end is inside it, the byte after is outside; a word at a window's base is a cue word. -/
theorem witness_AccessesAreCarriedOrPresented :
    let s := atPtp (fun t => { t with windows := t.windows.put 0 ⟨0x10000, 0x1000⟩ }) up
    legalEnables 3#4 = true ∧ busReady s.part ∧ areaOffset s.part 0x001000 = none ∧
    areaOffset s.part 0x000FFF = some 0xFFC ∧ cuePort s.part 0x10004 = none ∧ cuePort s.part 0x10000 = some 0 ∧
    areaOffset s.part 0x10000 = none ∧ areaOffset s.part 0x040 = some 0x040 ∧ wordClass 0x040 = .hostOwned ∧
    areaOffset s.part 0x060 = some 0x060 ∧ wordClass 0x060 = .request .device ∧
    (atMrc (fun m => { m with phase := .holdRteLow }) s).part.mrc.phase ≠ .running ∧
    (atMrc (fun m => { m with phase := .holdRteLow }) s).part.ptp.access = none ∧
    (atMrc (fun m => { m with phase := .holdRteLow }) s).part.ptp.presented = none := by
  unfold busReady
  decide +kernel

theorem witness_HoldTimerExpiryEndsTheAccess :
    let c : CpBurst := ⟨false, 0x20000, 15#4, 0, .plain⟩
    let s := busyMemory (.cp c false) (withAccess ⟨⟨false, 0x20000, 15#4, 0⟩, .carried, .plain⟩ up)
    let held := withAccess ⟨⟨false, 0x64, 15#4, 0⟩, .waitingWriteBack .device false, .plain⟩ up
    s.part.ptp.holdTimer.isSome = true ∧ s.part.ptp.access = some ⟨⟨false, 0x20000, 15#4, 0⟩, .carried, .plain⟩ ∧
    s.part.mo.inFlight = some (.cp c false) ∧ held.part.ptp.holdTimer.isSome = true ∧
    held.part.ptp.access = some ⟨⟨false, 0x64, 15#4, 0⟩, .waitingWriteBack .device false, .plain⟩ ∧
    held.part.mo.cp = none := by decide +kernel

/-- Samples at a grant of 120 with a margin of one quarter: 150 is not OVER, 151 is; at the first and at the last count; a ramp
sample at the grant after one before it. -/
theorem witness_PortSampleIsKeptAndJudged :
    let s := put 0 .on up
    let late := atMs (fun m => { m with overCount := m.overCount.put 0 2 }) s
    let ramp := atMs (fun m => { m with rampCount := m.rampCount.put 0 1 }) (put 0 .ramp up)
    s.part.ms.current = some 0 ∧ (s.part.ms.slot 0).kind = .portI 0 ∧ s.part.ms.mode ≠ .stopped ∧
    s.part.ms.pending = none ∧ queueLaw s.part ∧ waitLaw s.part ∧ (s.part.port 0).state.closed = true ∧
    (s.part.port 0).state ≠ .ramp ∧
    isOver (s.part.ms.views.at 0).margin (s.part.port 0).grant (min 2047 150 - s.part.ms.offset) = false ∧
    isOver (s.part.ms.views.at 0).margin (s.part.port 0).grant (min 2047 151 - s.part.ms.offset) = true ∧
    s.part.ms.overCount.at 0 < (s.part.ms.views.at 0).tripField.1 ∧
    (late.part.ms.views.at 0).tripField.1 ≤ late.part.ms.overCount.at 0 ∧ (late.part.port 0).state ≠ .drain ∧
    (late.part.port 0).deferred = none ∧ late.part.mrc.phase = .running ∧ (ramp.part.port 0).state = .ramp ∧
    min 2047 120 - ramp.part.ms.offset ≤ (ramp.part.port 0).grant ∧ ramp.part.ms.rampCount.at 0 = 1 ∧
    queueLaw ramp.part ∧ waitLaw ramp.part ∧ (up.part.port 0).state.closed = false ∧ noEntry 0 up.part := by
  unfold queueLaw waitLaw noEntry
  decide +kernel

/-- Ports that a grant or a swapped wheel can reach: one in PROBE with a FULL entry, one that waits with NO_PHASE, at a sample that is
not OVER, at one before the trip count and at it, and one in QUEUED; and both with a lane that hears frames. -/
theorem witness_WaitingPortsGoOn :
    let probe := askingFull 0 up
    let settle := waiting 0 up
    let queued := atBu (fun b => { b with queue := [⟨0, .probe, 20, 3, false⟩] }) (put 0 .queued up)
    (∀ s ∈ [probe, settle], s.part.ms.current = some 0 ∧ (s.part.ms.slot 0).kind = .portI 0 ∧ s.part.ms.mode ≠ .stopped ∧
      queueLaw s.part ∧ waitLaw s.part ∧ (s.part.port 0).state.closed = true ∧ (s.part.port 0).state ≠ .ramp ∧
      (s.part.port 0).deferred = none ∧ (s.part.lane 0).mode ≠ .idle ∧ (s.part.lane 0).tags.get 0 = .free ∧
      isOver (s.part.ms.views.at 0).margin (s.part.port 0).grant (min 2047 20 - s.part.ms.offset) = false ∧
      isOver (s.part.ms.views.at 0).margin (s.part.port 0).grant (min 2047 151 - s.part.ms.offset) = true ∧
      s.part.ms.overCount.at 0 < (s.part.ms.views.at 0).tripField.1 ∧ (s.part.ms.views.at 0).tripField.1 ≤ 2) ∧
    (∃ e ∈ probe.part.bu.queue, e.port = 0 ∧ e.kind = .full) ∧ (settle.part.port 0).flags.noPhase = true ∧
    (settle.part.lane 0).mode ≠ .listen ∧ (settle.part.port 0).state ≠ .on ∧
    queueLaw queued.part ∧ waitLaw queued.part ∧ (queued.part.port 0).state.closed = false ∧ ¬ noEntry 0 queued.part := by
  unfold queueLaw waitLaw noEntry
  decide +kernel

/-- Ramp samples at the grant and one above it, before and after a first one; a port OVER at the trip count in DRAIN, of each
destination; a sample at the last slot with a sequence pending and with none. -/
theorem witness_RampSamplesCountAndDrainsEnd (dest : DrainDest) :
    let ramp := put 0 .ramp up
    let s := atMs (fun m => { m with overCount := m.overCount.put 0 2 }) (putDrain 0 (drainTo .shed dest .grace) up)
    ramp.part.ms.rampCount.at 0 = 0 ∧ (ramp.part.port 0).state = .ramp ∧ queueLaw ramp.part ∧ waitLaw ramp.part ∧
    min 2047 120 - ramp.part.ms.offset ≤ (ramp.part.port 0).grant ∧
    (ramp.part.port 0).grant < min 2047 121 - ramp.part.ms.offset ∧
    s.part.ms.current = some 0 ∧ queueLaw s.part ∧ waitLaw s.part ∧ s.part.mrc.phase = .running ∧
    (s.part.port 0).state = .drain ∧ (s.part.port 0).drain = some (drainTo .shed dest .grace) ∧
    isOver (s.part.ms.views.at 0).margin (s.part.port 0).grant (min 2047 151 - s.part.ms.offset) = true ∧
    (s.part.ms.views.at 0).tripField.1 ≤ s.part.ms.overCount.at 0 ∧ 0 ≠ s.part.ms.active.last ∧
    (slotAt 13 (atMs (fun m => { m with pending := some defaultSequence }) up)).part.ms.active.last = 13 := by
  unfold queueLaw waitLaw
  cases dest <;> decide +kernel

theorem witness_VoltageSampleMovesTheStep :
    let s := slotAt 12 up
    s.part.ms.current = some 12 ∧ (s.part.ms.slot 12).kind = .sourceV ∧ 20000 ≤ 20000 ∧ s.part.ms.mode ≠ .stopped ∧
    s.part.ms.pending = none ∧ s.part.ms.voltageStep = .full ∧
    (atMs (fun m => { m with voltageStep := .reduced }) s).part.ms.voltageStep = .reduced ∧
    (atMs (fun m => { m with voltageStep := .critical }) s).part.ms.voltageStep = .critical := by decide +kernel

/-- The samples at which the clauses meet: 95 and 85 with the hot threshold at 95. -/
theorem witness_TemperatureSampleDecidesTheStep :
    let s := slotAt 13 up
    s.part.ms.current = some 13 ∧ (s.part.ms.slot 13).kind = .temp ∧ s.part.ms.mode ≠ .stopped ∧
    s.part.ms.pending = none ∧ s.part.bu.plan.hot ≤ 95 ∧ 85 ≤ s.part.bu.plan.hot - 10 ∧
    (s.part.bu.plan.hot - 10 < 86 ∧ 94 < s.part.bu.plan.hot) := by decide +kernel

/-- The end of the warm-up with each command held, with a closed switch and without, and with a pending sequence that covers the
closed switches and one that does not; an OFFSET slot, and a NONE slot that is the
last of its range, with a pending sequence that covers the closed port and one that does not. -/
theorem witness_UnjudgedSlotsAndTheOrderOfRounds :
    let s := atMs (fun m => { m with active := { m.active with stop := 15 } }) up
    let warm := atMs (fun m => { m with mode := .warming, current := none }) up
    let bare : Sequence := { defaultSequence with start := 1 }
    warm.part.ms.mode = .warming ∧ warm.part.mrc.phase ≠ .powerOn ∧ warm.part.ms.active = defaultSequence ∧
    warm.part.ms.pending = none ∧ warm.part.mo.pendingWheel = none ∧ warm.part.ms.held = none ∧
    (∀ c ∈ [SeqCommand.run, .once, .stop, .calibrate], (atMs (fun m => { m with held := some c }) warm).part.ms.held = some c) ∧
    (∀ c ∈ [SeqCommand.once, .stop],
      (after .converterWarmupEnd (atMs (fun m => { m with held := some c }) warm)).map anyClosed = some false ∧
      (after .converterWarmupEnd (atMs (fun m => { m with held := some c }) (put 0 .on warm))).map anyClosed = some true) ∧
    (atMs (fun m => { m with pending := some bare }) warm).part.ms.pending = some bare ∧
    (atMs (fun m => { m with pending := some bare }) warm).part.ms.held = none ∧
    coversClosed warm.part bare = true ∧ coversClosed (put 0 .on warm).part bare = false ∧
    (atMs (fun m => { m with pending := some defaultSequence }) s).part.ms.pending = some defaultSequence ∧
    coversClosed (put 0 .on s).part defaultSequence = true ∧ coversClosed (put 0 .on s).part bare = false ∧
    s.part.mo.pendingWheel = none ∧
    (slotAt 14 s).part.ms.current = some 14 ∧ ((slotAt 14 s).part.ms.slot 14).kind = .offset ∧
    ((slotAt 15 s).part.ms.slot 15).kind = .none ∧ s.part.ms.mode = .running ∧ s.part.ms.pending = none ∧
    15 = s.part.ms.active.last := by decide +kernel

/-- A conversion of each kind of slot, at the ends of the readings' ranges. -/
theorem witness_convertsTo : convertsTo 0 (up.part.ms.slot 0).kind 2047 (.portISample 0 2047) ∧
    convertsTo 0 (up.part.ms.slot 12).kind 20000 (.sourceVSample 20000) ∧
    convertsTo 0 (up.part.ms.slot 13).kind (-40) (.tempSample (-40)) ∧
    convertsTo 0 (up.part.ms.slot 14).kind 2047 (.offsetSample 2047) ∧
    convertsTo 0 (up.part.ms.slot 15).kind 0 .noneSlot := by
  refine ⟨⟨?_, ?_⟩, ⟨?_, ?_⟩, ⟨?_, ?_⟩, ⟨?_, ?_⟩, ⟨?_, ?_⟩⟩ <;> decide +kernel

/-- The ends of the once round and of the one before it, of the round before a CALIBRATE,
and a conversion after a SEQ_STOP, at the last slot and before it, with the memory port busy. -/
theorem witness_ConversionsEndRoundsByTheMode :
    let run := fun (mode : SeqMode) (rounds i : Nat) => busyMemory (.copyRead .devicePlan 0x40 32 false)
      (slotAt i (atMs (fun m => { m with mode, onceRounds := rounds }) up))
    up.part.ms.active.last = 13 ∧ (∀ mode ∈ [SeqMode.running, .once, .calibrating, .stopped], ∀ rounds ∈ [1, 2],
      ∀ i ∈ [12, 13], (run mode rounds i).part.ms.mode = mode ∧ (run mode rounds i).part.ms.onceRounds = rounds ∧
      (run mode rounds i).part.ms.current = some i ∧ (run mode rounds i).part.ae.quiet = false ∧
      (run mode rounds i).part.mo.inFlight ≠ none ∧ (run mode rounds i).part.mo.pendingWheel = none) := by decide +kernel

/-- The fifteenth and the sixteenth conversion, in CALIBRATING and in STOPPED. -/
theorem witness_SixteenConversionsSetTheCorrection :
    let s := fun (k : Nat) (mode : SeqMode) => atMs (fun m => { m with mode, calibration := some ⟨k, 500, false⟩ }) up
    (s 14 .calibrating).part.ms.calibration = some ⟨14, 500, false⟩ ∧ 14 < 15 ∧
    (s 15 .calibrating).part.ms.calibration = some ⟨15, 500, false⟩ ∧ (s 15 .calibrating).part.ms.mode = .calibrating ∧
    (s 15 .stopped).part.ms.mode ≠ .calibrating ∧ (s 15 .stopped).part.mo.pendingWheel = none := by decide +kernel

/-- A lane in LISTEN in PROBE, one OPEN in ON with nothing outstanding, with an accepted request, and with an answer unsent behind a
frame being sent, one PAUSED in RAMP and one that waits with NO_PHASE; identities that ask for less and for more than the plan gives. -/
theorem witness_HelloIsTakenByTheLaneMode :
    let unsent := fun (s : State) => atLane 4 (fun l => { l with
      sending := some .keep, answers := [⟨.get, 1, .ok, []⟩], tags := l.tags.set 1 (.outstanding .get false) }) s
    let s := unsent (hold 4 0 .put (putLane 4 .on .opened (waiting 5 (putLane 3 .ramp .paused (hold 2 0 .get
      (putLane 2 .on .opened (putLane 1 .on .opened (askingFull 6 (putLane 0 .probe .listen up)))))))))
    queueLaw s.part ∧ waitLaw s.part ∧ s.part.ae.quiet = false ∧
    (∀ n : Port, n.1 < 7 → (s.part.lane n).mode ≠ .idle ∧ sendLaw (s.part.lane n) ∧
      (s.part.port n).plan.laneUse = .expected) ∧
    (∀ n ∈ [(0 : Port), 6], (s.part.lane n).mode = .listen ∧ (s.part.port n).state = .probe) ∧
    (∀ n ∈ [(1 : Port), 2, 4], (s.part.lane n).mode = .opened ∧ (s.part.port n).state = .on ∧
      (s.part.lane n).outstanding = [0, 0, 1, 0, 2].getD n.1 0) ∧
    (∃ a ∈ (s.part.lane 4).answers, a.tag = 1) ∧ (∀ a ∈ (s.part.lane 4).answers, a.tag ≠ 0) ∧
    (s.part.lane 4).sending ≠ none ∧ (s.part.lane 3).mode = .paused ∧ (s.part.port 3).state ≠ .on ∧
    (s.part.lane 5).mode = .paused ∧ (s.part.port 5).state ≠ .on ∧ s.part.mo.inFlight = none ∧
    fullRequest (s.part.port 1).plan (some someone) < someone.requested.toNat ∧
    ¬ fullRequest (s.part.port 1).plan (some { someone with requested := 120 }) < 120 := by
  unfold queueLaw waitLaw sendLaw
  decide +kernel

/-- Requests of 1 and of 256 bytes; a held tag; a lane that is not OPEN; a request that ends with the window and one a byte longer. -/
theorem witness_RequestFramesAreDealtWithInOrder :
    let s := putLane 1 .ramp .paused (hold 0 0 .put (putLane 0 .on .opened up))
    (s.part.lane 0).mode = .opened ∧ queueLaw s.part ∧ waitLaw s.part ∧ (s.part.lane 0).tags.get 0 ≠ .free ∧
    (s.part.lane 0).tags.get 1 = .free ∧ 0xF00 + 256 ≤ (s.part.port 0).plan.size ∧
    (s.part.port 0).plan.size < 0xF01 + 256 ∧ 1 ≤ (List.replicate 256 (0 : Byte)).length ∧
    (List.replicate 256 (0 : Byte)).length ≤ 256 ∧ 1 ≤ (1 : BitVec 16).toNat ∧
    (s.part.lane 1).mode ≠ .idle ∧ (s.part.lane 1).mode ≠ .opened ∧ (s.part.lane 1).tags.get 0 = .free ∧
    (busyMemory (.copyRead .devicePlan 0x40 32 false) s).part.mo.inFlight ≠ none := by
  unfold queueLaw waitLaw
  decide +kernel

theorem witness_LeaveKeepAndBadFrames :
    let s := putLane 3 .on .paused (atPort 4 (fun r => { r with plan := { r.plan with grace := 0 } }) (putLane 4 .orphan .paused
      (putDrain 2 (drainTo .shed .queued .flush) (putLane 1 .settle .paused (hold 0 0 .put (putLane 0 .on .opened up))))))
    (∀ n : Port, n.1 < 5 → (s.part.lane n).mode ≠ .idle ∧ noEntry n s.part) ∧ queueLaw s.part ∧ waitLaw s.part ∧
    (∀ n ∈ [(0 : Port), 3, 4], (s.part.port n).state ∈ [PortState.on, .orphan] ∧
      flushes (s.part.lane n).outstanding (s.part.port n) = decide (n = 0)) ∧
    graceMs (s.part.port 3).plan.grace ≠ 0 ∧ graceMs (s.part.port 4).plan.grace = 0 ∧
    (s.part.port 1).state ∈ [PortState.probe, .ramp, .settle] ∧
    (s.part.port 1).deferred = none ∧ (s.part.port 2).state = .drain ∧ (Instr.badFrame 0 [1]).wf = true ∧
    (Instr.badFrame 0 [1, 0x7D]).wf = true ∧ (Instr.badFrame 0 [1, 0x7E, 1]).wf = true := by
  unfold queueLaw waitLaw noEntry
  decide +kernel

/-- A lane that sends an OPEN in ON and one outside it; an answer with another tag outstanding, and the last of a drain; frames of
the other kinds with nothing and with an answer to send next. -/
theorem witness_SendingsEndAndFreeTheirTags :
    let send := fun (n : Port) (f : TxFrame) (s : State) => atLane n (fun l => { l with sending := some f, sendingHolds := true }) s
    let a : Answer := ⟨.put, 0, .ok, []⟩
    let s := send 3 .keep (send 2 (.answer a) (hold 2 0 .put (putDrain 2 (drainTo .shed .queued .flush)
      (send 1 (.answer a) (hold 1 1 .get (hold 1 0 .put (putLane 1 .on .opened (send 0 (.openLane 16) (putLane 0 .on .paused up)))))))))
    queueLaw s.part ∧ waitLaw s.part ∧ (s.part.lane 0).sending = some (.openLane 16) ∧ (s.part.port 0).state = .on ∧
    (s.part.lane 0).mode ≠ .idle ∧ (s.part.lane 1).sending = some (.answer a) ∧ (s.part.lane 1).sendingHolds = true ∧
    (s.part.lane 1).tags.get 1 = .outstanding .get false ∧ (1 : Fin 4) ≠ a.tag ∧ (s.part.port 2).state = .drain ∧
    (s.part.port 2).drain = some (drainTo .shed .queued .flush) ∧ (drainTo .shed .queued .flush).graceMs ≠ 0 ∧
    (∀ other, other ≠ a.tag → (s.part.lane 2).tags.get other = .free) ∧
    (s.part.lane 2).tags.get a.tag = .outstanding .put false ∧ (s.part.lane 3).sending = some .keep ∧
    (s.part.lane 3).openDue = none ∧ (s.part.lane 3).answers = [] ∧ (s.part.lane 3).cue = none ∧
    (s.part.lane 3).leave = false ∧ (s.part.lane 3).keep = false ∧ (s.part.port 3).state ≠ .on ∧
    ((atLane 3 (fun l => { l with answers := [a] }) s).part.lane 3).answers = a :: [] ∧
    (s.part.lane 0).sendingHolds = true ∧
    ((atLane 0 (fun l => { l with sendingHolds := false, openDue := some 16 }) s).part.lane 0).sendingHolds = false := by
  unfold queueLaw waitLaw
  decide +kernel

/-- An answer CLOSED whose tag is ANSWERED, with nothing outstanding, at a port in PROBE with a FULL entry and at one that waits with
NO_PHASE; an answer whose lane entered IDLE during its sending; a KEEP sent by both waiting ports. -/
theorem witness_AnsweredTagsAreFreed :
    let a : Answer := ⟨.put, 0, .closed, []⟩
    let send := fun (n : Port) (f : TxFrame) (holds : Bool) (s : State) => atLane n (fun l => { l with
      sending := some f, sendingHolds := holds, tags := l.tags.set 0 (if holds then .answered .put else .free) }) s
    let s := send 2 (.answer a) false (put 2 .fault (send 1 (.answer a) true (waiting 1 (send 0 (.answer a) true (askingFull 0 up)))))
    let keeps := send 1 .keep false (send 0 .keep false s)
    queueLaw s.part ∧ waitLaw s.part ∧ (∀ n ∈ [(0 : Port), 1], (s.part.lane n).sending = some (.answer a) ∧
      (s.part.lane n).sendingHolds = true ∧ (s.part.lane n).outstanding = 0 ∧ (s.part.lane n).tags.get a.tag = .answered .put ∧
      (keeps.part.lane n).sending = some .keep) ∧
    (s.part.lane 2).sending = some (.answer a) ∧ (s.part.lane 2).sendingHolds = false ∧
    queueLaw keeps.part ∧ waitLaw keeps.part := by
  unfold queueLaw waitLaw
  decide +kernel

/-- The last answer: of a drain with a grace time and without, of an adopted orphan with keep and without, in standby and out of it,
and of a lane in ON that re-opens. -/
theorem witness_LastAnswersEndTheWait :
    let a : Answer := ⟨.put, 0, .ok, []⟩
    let send : Port → State → State := fun n s =>
      hold n 0 .put (atLane n (fun l => { l with sending := some (.answer a), sendingHolds := true }) s)
    let s := send 4 (atLane 4 (fun l => { l with reopen := true }) (putLane 4 .on .paused
      (send 3 (atPort 3 (fun r => { r with adopted := true, plan := { r.plan with keep := true } }) (putLane 3 .orphan .paused
        (send 2 (atPort 2 (fun r => { r with adopted := true, pendingCue := some 7 }) (putLane 2 .orphan .paused
          (send 1 (putDrain 1 ⟨.shed, .flush, .queued, .expected, 0⟩
            (send 0 (putDrain 0 (drainTo .shed .queued .flush) up))))))))))))
    queueLaw s.part ∧ waitLaw s.part ∧
    (∀ n : Port, n.1 < 5 → (s.part.lane n).outstanding = 1 ∧ (s.part.lane n).sending = some (.answer a) ∧
      (s.part.lane n).sendingHolds = true ∧ (s.part.lane n).tags.get a.tag = .outstanding .put false) ∧
    (s.part.port 0).drain = some (drainTo .shed .queued .flush) ∧
    (s.part.port 1).drain = some ⟨.shed, .flush, .queued, .expected, 0⟩ ∧ s.part.mrc.phase = .running ∧
    (atMrc (fun m => { m with phase := .holdRideThrough }) s).part.mrc.phase = .holdRideThrough ∧
    (∀ n ∈ [(2 : Port), 3], (s.part.port n).state = .orphan ∧ (s.part.port n).adopted = true ∧
      (s.part.port n).deferred = none ∧ (s.part.port n).plan.keep = decide (n = 3)) ∧
    (s.part.port 2).pendingCue = some 7 ∧ s.part.mrc.standby = false ∧
    (atMrc (fun m => { m with standby := true }) s).part.mrc.standby = true ∧
    (s.part.port 4).state = .on ∧ (s.part.lane 4).reopen = true := by
  unfold queueLaw waitLaw
  decide +kernel

theorem witness_LaneTimersKeepAndLoseTheLane (dest : DrainDest) :
    let run := fun (n : Port) (s : State) => atLane n (fun l => { l with keepTimer := some 20, silenceTimer := some 100 }) s
    let s := run 1 (putDrain 1 (drainTo .asked dest .flush) (run 0 (putLane 0 .on .opened up)))
    (s.part.lane 0).keepTimer.isSome = true ∧ queueLaw s.part ∧ waitLaw s.part ∧ (s.part.lane 0).silenceTimer.isSome = true ∧
    s.part.mrc.phase = .running ∧ (s.part.port 0).state ∈ [PortState.settle, .on, .orphan] ∧
    (s.part.port 0).deferred = none ∧ (s.part.lane 1).silenceTimer.isSome = true ∧ (s.part.port 1).state = .drain ∧
    (s.part.port 1).drain = some (drainTo .asked dest .flush) ∧ (drainTo .asked dest .flush).dest = dest := by
  unfold queueLaw waitLaw
  cases dest <;> decide +kernel

/-- A command of port 0 that answers, with port 1 quiet. -/
theorem witness_PortCommandsLeaveTheOtherPorts :
    portOfCommand (.keepFrame 0) = some 0 ∧ (1 : Port) ≠ 0 ∧ quiet 1 up.part ∧
    (∀ k reading, Instr.keepFrame 0 = .portISample k reading → up.part.ms.pending = none) ∧
    exec (.keepFrame 0) up = .next up := by
  refine ⟨rfl, (by decide), ?_, fun _ _ h => (nomatch h), rfl⟩
  unfold quiet noEntry
  decide +kernel

theorem witness_RegistersChangeOnlyByTheirCommands : exec .noneSlot up = .next up ∧ isReset .noneSlot = false ∧
    isCompletion .noneSlot = false := ⟨rfl, rfl, rfl⟩

/-- Commands that a running part answers and that change what is reported: a port's state and grant, its check errors alone, the
device status, the wheel, a summary and an error bit, a completion; with the memory port free and with a burst in flight. -/
theorem witness_ReportedChangesAreWrittenBack :
    let busy := busyMemory (.copyRead .devicePlan 0x40 32 false)
    let drawn := putLane 0 .on .opened up
    (∀ s ∈ [up, drawn, busy up, busy drawn], s.part.ae.quiet = false ∧ openLaw s.part) ∧
    (after (.hardLimitTrip 0 1300) drawn).any (fun q => decide ((q.port 0).state ≠ (drawn.part.port 0).state ∧
      committed q ≠ committed drawn.part)) = true ∧
    (after (.badFrame 0 [1]) drawn).any (fun q => decide ((q.port 0).checkErrors ≠ (drawn.part.port 0).checkErrors)) = true ∧
    (after .standbyEntry up).any (fun q => q.mrc.standby) = true ∧
    (after (.keepFrame 0) (atMo (fun o => { o with pendingWheel := some edgeWheel }) drawn)).any
      (fun q => decide (q.mo.wheel ≠ defaultWheel)) = true ∧
    (after (.partOwnedWrite 0x064 15#4 0) up).any (fun q => decide (q.ae.error = 4 ∧ q.ae.summary = errorMask)) = true ∧
    (after (.undefinedRequestCode .device 0x42) up).any (fun q => (q.request .device).completion.isSome) = true ∧
    isReset (.hardLimitTrip 0 1300) = false ∧ isCompletion (.memoryBurstComplete false []) = true := by
  unfold openLaw
  decide +kernel

/-- The laws hold together in a state in which a command is taken. A shed list of a port with its order on the way and of one that
drains with reason SHED. -/
theorem witness_StepKeepsItsLaws :
    let s : State := { State.reset with pending := [.keepFrame 0] }
    let sheds := atBu (fun b => { b with orders := [0], shedList := [0, 1] })
      (putDrain 1 (drainTo .shed .queued .grace) (put 0 .on up))
    step s = .next State.reset ∧ Memory.wf s.mem = true ∧ openLaw s.part ∧ queueLaw s.part ∧ budgetLaw s.part ∧
    shedLaw s.part ∧ coverageLaw s.part ∧ shedListLaw s.part ∧ shedListLaw sheds.part ∧ queueLaw sheds.part := by
  refine ⟨rfl, ?_⟩
  unfold openLaw queueLaw budgetLaw shedLaw coverageLaw shedListLaw
  decide +kernel

theorem witness_StepKeepsTheWheelLaw : wheelLaw State.reset.part ∧
    step { State.reset with pending := [.keepFrame 0] } = .next State.reset := by
  refine ⟨⟨?_, fun w h => (nomatch h), (by decide +kernel), (by decide +kernel)⟩, rfl⟩
  unfold wheelShape
  decide +kernel

/-- A port in ON, one in RAMP that holds a deferred request, one that waits with NO_PHASE, one in GRACE, one in RESTART_WAIT and one in
PROBE with a FULL entry, each with its timers and its lane as the laws have them. -/
theorem witness_StepKeepsThePortAndLaneLaws :
    let keeps := fun (n : Port) (silence : Timer) => atLane n (fun l => { l with keepTimer := some 20, silenceTimer := silence })
    let runs := fun (n : Port) (f : PortTimers → PortTimers) => atPort n (fun r => { r with timers := f r.timers })
    let s := runs 0 (fun x => { x with onTime := true }) (keeps 0 (some 100) (putLane 0 .on .opened
      (runs 1 (fun x => { x with ramp := some 50 }) (atPort 1 (fun r => { r with deferred := some r.plan }) (putLane 1 .ramp .paused
        (keeps 2 (some 100) (waiting 2
          (runs 3 (fun x => { x with grace := some 20 }) (keeps 3 (some 100) (putDrain 3 (drainTo .asked .off .grace)
            (runs 4 (fun x => { x with restart := some 500 }) (put 4 .restartWait
              (runs 5 (fun x => { x with hello := some 250 }) (keeps 5 none (askingFull 5 up)))))))))))))))
    queueLaw s.part ∧ timerLaw s.part ∧ waitLaw s.part ∧ laneLaw s.part ∧ s.part.mrc.phase = .running ∧
    s.part.mo.wheel = defaultWheel ∧ s.part.mo.pendingWheel = none ∧
    (∀ n, mustName (s.part.port n) = true → names s.part.mo.wheel n = true) ∧
    (∀ n, (s.part.port n).state = .drain → (s.part.port n).drain.isSome = true) := by
  unfold queueLaw timerLaw waitLaw laneLaw sendLaw
  decide +kernel

/-- The holds: power-on reset, and a ride-through hold with an orphan; both laws say something of each. -/
theorem witness_holdLaw : holdLaw State.reset.part ∧
    holdLaw (atAe (fun a => { a with quiet := true }) (atMrc (fun m => { m with phase := .holdRideThrough })
      (putLane 0 .orphan .paused up))).part := by
  refine ⟨⟨fun _ => ⟨rfl, fun _ _ _ h => (nomatch h)⟩, fun _ => (by decide +kernel), fun h => (nomatch h)⟩,
    fun _ => ⟨rfl, fun _ _ _ h => (nomatch h)⟩, fun h => ?_, fun _ => (by decide +kernel)⟩
  cases h <;> contradiction

/-- The plans handed over: in power-on reset; in a run, with a port in ON and a drain that keeps an old class map; in a ride-through
hold with an orphan and a port in OFF whose class map is the default's. The adoption timer runs for the orphan. -/
theorem witness_handLaw :
    let hands := fun (n : Port) => atPtp (fun t => { t with windows := t.windows.put n ⟨0x10000 * (n.1 + 1), 0x1000⟩ })
    let s := atMo (fun o => { o with classMap := o.classMap.put 1 9#4 }) (hands 1
      (putDrain 1 (drainTo .asked .off .grace) (hands 0 (put 0 .on up))))
    let ride := atMo (fun o => { o with classMap := o.classMap.put 2 1#4 })
      (atMrc (fun m => { m with phase := .holdRideThrough, adoptionTimer := some 5000 }) (hands 2 (put 2 .off (hands 0 (put 0 .orphan up)))))
    handLaw State.reset.part ∧ handLaw s.part ∧ s.part.mrc.phase = .running ∧ handLaw ride.part ∧
    ride.part.mrc.phase = .holdRideThrough ∧ adoptionLaw ride.part ∧ ride.part.mrc.adoptionTimer.isSome = true := by
  unfold handLaw handedOver adoptionLaw
  decide +kernel

theorem witness_StepKeepsAccessesInTheirWindows :
    let s := { lastBurst .put 0xFFC 4 with pending := [.keepFrame 5] }
    windowLaw s.part ∧ step s = .next (lastBurst .put 0xFFC 4) := ⟨witness_windowLaw, rfl⟩

theorem witness_LaneFramesSurviveTheWire : (RxFrame.hello someone).good = true ∧
    (RxFrame.put 3 3 0xFFFFFF (List.replicate 256 0x7E)).good = true ∧ (RxFrame.get 0 0 0 1).good = true := by
  decide +kernel

/-- An uncovered entry before a covered one that fits; the same one in OVER, and one that does not fit; a FULL entry that fits, of a
port in PROBE and of a lane-NONE port in QUEUED. -/
theorem witness_GrantDecisionFollowsTheQueueOrder :
    let e0 : Entry := ⟨0, .probe, 20, 7, false⟩
    let e1 : Entry := ⟨1, .probe, 20, 3, false⟩
    let big : Entry := ⟨1, .full, 900, 3, false⟩
    let base := atMs (fun m => { m with active := { m.active with start := 1 } }) (put 1 .queued (put 0 .queued up))
    let s := atBu (fun b => { b with queue := [e1, e0] }) base
    let strained := atBu (fun b => { b with isOver := true }) s
    let blocked := atBu (fun b => { b with queue := [big, e0] }) base
    openLaw s.part ∧ queueLaw s.part ∧ queueOrder s.part.bu.queue = [e0] ++ e1 :: [] ∧
    (∀ x ∈ [e0], covered s.part x.port = false) ∧ covered s.part e1.port = true ∧ s.part.bu.isOver = false ∧
    fits s.part (entryDelta s.part e1) = true ∧ strained.part.bu.isOver = true ∧
    queueOrder blocked.part.bu.queue = [e0] ++ big :: [] ∧ fits blocked.part (entryDelta blocked.part big) = false ∧
    (∀ x ∈ [askingFull 0 up, atBu (fun b => { b with queue := [⟨0, .full, 120, 3, false⟩] })
        (atPort 0 (fun r => { r with plan := { r.plan with laneUse := .unused } }) (put 0 .queued up))],
      openLaw x.part ∧ queueLaw x.part ∧ queueOrder x.part.bu.queue = [⟨0, .full, 120, 3, false⟩] ∧
      covered x.part 0 = true ∧ fits x.part (entryDelta x.part ⟨0, .full, 120, 3, false⟩) = true) := by
  unfold openLaw queueLaw
  decide +kernel

/-- The stamp counter one below the end of its range and at it with one entry; a blocking essential entry in OVER, before candidates
that free nothing it needs, with enough being shed, and with a candidate to be ordered shed; a blocking entry that is not essential;
a queue with no covered entry. -/
theorem witness_GrantDecisionPreemptsAndStamps :
    let big : Entry := ⟨1, .full, 780, 3, true⟩
    let base := putLane 1 .probe .listen (put 0 .on up)
    let closed := atPort 1 (fun r => { r with grant := 20 }) base
    let s := atBu (fun b => { b with queue := [big] }) closed
    let tight := atBu (fun b => { b with queue := [{ big with asked := 2000 }] }) closed
    let low := atPort 0 (fun r => { r with plan := { r.plan with priority := 1 } }) s
    let shed := atBu (fun b => { b with shedList := [0] }) low
    let one := atBu (fun b => { b with queue := [⟨1, .probe, 20, 3, false⟩], stampCounter := 65535 })
      (put 1 .queued (put 0 .on up))
    let dark := atBu (fun b => { b with queue := [⟨1, .probe, 20, 3, false⟩] })
      (atMs (fun m => { m with active := { m.active with start := 2 } }) (put 1 .queued up))
    (∀ x ∈ [s, tight, low, shed], openLaw x.part ∧ queueLaw x.part ∧
      ∀ e ∈ x.part.bu.queue, covered x.part e.port = true ∧ fits x.part (entryDelta x.part e) = false) ∧
    cannotShed big s.part = true ∧ cannotShed { big with asked := 2000 } tight.part = true ∧
    enoughShed big low.part 0 = false ∧ cannotShed big low.part = false ∧ preemptable big low.part 0 = true ∧
    enoughShed big shed.part 0 = true ∧
    (atBu (fun b => { b with isOver := true }) s).part.bu.isOver = true ∧
    openLaw one.part ∧ queueLaw one.part ∧ covered one.part 1 = true ∧ one.part.bu.stampCounter = 65535 ∧
    fits one.part (entryDelta one.part ⟨1, .probe, 20, 3, false⟩) = true ∧
    (atBu (fun b => { b with stampCounter := 65534 }) one).part.bu.stampCounter + one.part.bu.queue.length ≤ 65535 ∧
    queueLaw dark.part ∧ covered dark.part 1 = false := by
  unfold openLaw queueLaw
  decide +kernel

/-- A port's access of one burst, of this class. -/
def asking (cls : Fin 4) (n : Port) (s : State) : State :=
  atMo (fun o => { o with lists := o.lists.put n [{ accessAt .put 0 4 with cls := cls, bursts := [(0, 4)] }] }) s

/-- An urgent access of port 0 and a bulk one of port 1, at the last phases before the wrap. -/
def edge : State :=
  atMo (fun o => { o with wheel := edgeWheel, classMap := o.classMap.put 1 0, pointer := 5 }) (asking 0 0 (asking 1 1 up))

/-- A wheel that waits with nothing to grant, and a port that waits with NO_PHASE. -/
def idleWheel : State :=
  atMo (fun o => { o with pendingWheel := some defaultWheel })
    (atPort 2 (fun r => { r with flags := { r.flags with noPhase := true } }) (put 2 .settle up))

theorem wheelLaw_of {p : Part} (h : wheelShape p.mo.wheel) (g : p.mo.pendingWheel.toList.all (fun w =>
    decide (w.length = 64 ∧ 4 ≤ phasesOf w .cp ∧ 1 ≤ phasesOf w .ae)) = true)
    (m : ∀ n, mustName (p.port n) = true → names p.mo.wheel n = true)
    (d : ∀ n, (p.port n).state = .drain → (p.port n).drain.isSome = true) : wheelLaw p :=
  ⟨h, fun w e => by simpa [e, wheelShape] using g, m, d⟩

theorem witness_wheelLaw : wheelLaw edge.part ∧ wheelLaw idleWheel.part := by
  constructor
  · exact wheelLaw_of (by unfold wheelShape; decide +kernel) (by decide +kernel) (by decide +kernel) (by decide +kernel)
  · exact wheelLaw_of (by unfold wheelShape; decide +kernel) (by decide +kernel) (by decide +kernel) (by decide +kernel)

/-- The urgent access decides, and in every eighth decision the bulk one; no phase asks for anything. -/
theorem witness_decidedPhase : decidedPhase edge.part 62 ∧
    decidedPhase (atMo (fun o => { o with bulkTurn := 7 }) edge).part 63 ∧
    noPhaseAsks up.part .urgent ∧ noPhaseAsks up.part .bulk := by
  unfold decidedPhase noPhaseAsks
  refine ⟨Or.inl ⟨57, ?_⟩, Or.inl ⟨58, ?_⟩, ?_⟩ <;> decide +kernel

/-- The area engine asks: a write-back of each kind of record, one that a read is held for, a copy read before a write-back; and the
controller asks with a merge write. -/
theorem witness_offerGranted :
    let asks := fun (l : List Target) => atAe (fun a => { a with writeBacks := l }) up
    let read : Access := ⟨⟨false, 0x200, 15#4, 0⟩, .waitingWriteBack (.status 0) false, .plain⟩
    let burst : CpBurst := ⟨true, 0x70, 15#4, 7, .mergeSummary⟩
    let merge := atMo (fun o => { o with cp := some burst }) up
    (∀ t ∈ firstWriteList, aeOffer (asks [t]).part = some (.writeBack t) ∧ stopPhase (asks [t]).part = some 1) ∧
    (asks [.device]).part.mo.wheel[1]? = some (some .ae) ∧
    aeOffer (withAccess read (asks [.device, .status 0])).part = some (.writeBack (.status 0)) ∧
    aeOffer (atAe (fun a => { a with readList := [.plan 3] }) (asks [.device])).part = some (.copyRead (.plan 3)) ∧
    merge.part.mo.cp = some burst ∧ stopPhase merge.part = some 0 ∧ merge.part.mo.wheel[0]? = some (some .cp) ∧
    merge.part.mo.inFlight = none ∧ merge.part.mo.pendingWheel = none ∧ merge.part.ae.quiet = false := by decide +kernel

/-- R174, R166: the status record of a port in DRAIN as its write-back carries it. -/
theorem test_statusRecord :
    let s := atPort 0 (fun r => { r with identity := some someone, stamp := 5, cause := some .hard, trips := 3 })
      (putDrain 0 (drainTo .shed .queued .grace) up)
    targetBytes (s.part.mapAe (captureMark (.status 0))) (.status 0) =
      [1, 7, 1, 0x4A] ++ [120, 0, 5, 0] ++ [0, 0, 0, 0] ++ [0, 0, 3, 0] ++ [0, 1, 0x34, 0x12] ++ [0xCD, 0xAB, 0, 0] ++
      [200, 0x10, 2, 0] ++ [0, 0, 0, 0] := by decide +kernel

/-- Phase 62 is the last before the wrap; a burst is left after the grant at 62, or none; nothing is left to grant. -/
theorem witness_MemoryGrantsFollowTheWheel :
    queueLaw edge.part ∧ edge.part.mo.pointer < 64 ∧ edge.part.mo.bulkTurn < 8 ∧ edge.part.mo.inFlight = none ∧
    edge.part.mrc.adoptionTimer = none ∧ anyPending (grantAt 62 edge.part) = true ∧
    anyPending (grantAt 62 (atMo (fun o => { o with lists := o.lists.put 1 [] }) edge).part) = false ∧
    queueLaw idleWheel.part ∧ idleWheel.part.mo.inFlight = none ∧ idleWheel.part.ae.quiet = false ∧
    anyPending idleWheel.part = false ∧ namesInService idleWheel.part defaultWheel = true ∧
    (idleWheel.part.port 2).state = .settle ∧ (idleWheel.part.port 2).flags.noPhase = true ∧
    (idleWheel.part.port 2).deferred = none ∧ (idleWheel.part.port 2).plan.laneUse = .expected ∧
    (idleWheel.part.port 2).plan.size ≠ 0 ∧ names defaultWheel 2 = true ∧ names edgeWheel 2 = false ∧
    namesInService (put 0 .on up).part edgeWheel = true ∧ namesInService (put 2 .on up).part edgeWheel = false := by
  unfold queueLaw
  decide +kernel

theorem witness_BurstsCoverTheAccessBlockByBlock : splitBursts 63 66 = [(63, 1), (64, 64), (128, 1)] ∧
    splitBursts 0 1 = [(0, 1)] := by decide +kernel

end Sys2Proof.Tests
end

