-- ==== Sys2Proof/Proofs/Overfilled.lean ====
section
/-! Four statements ask that a port whose switch has opened is not on the shed list at the end of the command. None of them has
`openLaw` as a premise, and without it they fail: the port is queued and granted again in the same event, and a second decision of
the budget unit, at the swap of a pending wheel, orders it shed. -/

namespace Sys2Proof.Machine

/-- A running part whose area engine offers nothing, with the default wheel pending, so that the end of the command swaps it and the
budget unit acts a second time. Port 1 is in OFF and yet holds a grant of 1000 cu, which no reachable state has (R5); its
essential FULL entry for 1000 cu has no delta, so it is granted beyond the ceiling of 800 cu. Port 0 is as given. -/
def overfilled (r : PortRecord) (l : Lane) : State where
  pending := []
  mem := []
  part :=
    { powerOnPart with
      ports := (powerOnPart.ports.put 0 r).put 1
        { resetRecord { defaultPlan true with essential := true } with state := .off, grant := 1000 }
      lanes := powerOnPart.lanes.put 0 l
      bu := { resetBudget with queue := [⟨1, .full, 1000, 0, true⟩], orders := [0] }
      ms := { resetSequencer with mode := .running }
      mo := { resetOrderer with pendingWheel := some defaultWheel }
      mrc := { resetModeReset with phase := .running } }

/-- The drain of port 0, in GRACE and due to end in QUEUED. -/
def drainToQueued : Drain := ⟨.shed, .grace, .queued, .expected, 20⟩

/-- A port that drains to QUEUED. -/
def drainingToQueued : PortRecord :=
  { resetRecord (defaultPlan true) with
    state := .drain, grant := 120, drain := some drainToQueued, timers := { stoppedTimers with grace := some 20 } }

/-- A port that waits in PROBE for a HELLO. -/
def probing : PortRecord := { resetRecord (defaultPlan true) with state := .probe, grant := 20 }

/-- The command ends with port 0 on the shed list. -/
def shedsPortZero (c : Instr) (s : State) : Bool :=
  match exec c s with
  | .next t => t.part.bu.shedList.contains 0
  | _ => false

/-- A command that ends with port 0 on the shed list does not leave its switch opened and cleared. -/
theorem not_cleared_of_sheds {c : Instr} {s : State} {post : State → Prop} (sheds : shedsPortZero c s = true)
    (completes : Completes c s post) (cleared : ∀ t, post t → clearedAtOpening 0 s.part t.part) : False := by
  obtain ⟨t, ht, hpost⟩ := completes
  have off : (0 : Port) ∉ t.part.bu.shedList := (cleared t hpost).1
  simp only [shedsPortZero, ht] at sheds
  exact off (by simpa using sheds)

/-- Refutes O23: the drain that the grace timer ends leads to QUEUED, the port is granted again in the event, and the budget's
second decision puts it on the shed list. -/
theorem not_graceAndRestartTimersMoveThePort : ¬ Obligations.GraceAndRestartTimersMoveThePort := by
  intro h
  exact not_cleared_of_sheds (by decide +kernel)
    (h.1 0 drainToQueued (overfilled drainingToQueued resetLane) (by decide) (by decide))
    (fun _ post => post.2.1 (by decide))

/-- Refutes O24: the shed order sends a port in PROBE back to the queue, the port is granted again in the event, and the budget's
second decision puts it on the shed list. -/
theorem not_shedOrderIsCarriedOutByState : ¬ Obligations.ShedOrderIsCarriedOutByState := by
  intro h
  exact not_cleared_of_sheds (by decide +kernel)
    (h 0 (overfilled probing resetLane) (by decide))
    (fun _ post => (post.1 (by decide) (by decide) (by decide)).2.2.1)

/-- Refutes O25: the hard limit ends a drain that leads to QUEUED, the port is granted again in the event, and the budget's second
decision puts it on the shed list. -/
theorem not_switchFailuresFollowTheRestartLimit : ¬ Obligations.SwitchFailuresFollowTheRestartLimit := by
  intro h
  exact not_cleared_of_sheds (by decide +kernel)
    (h.2 0 1300 (overfilled drainingToQueued resetLane) (by decide) (by decide))
    (fun _ post => (post.2 drainToQueued (by decide) (by decide)).2.1)

/-- Refutes O43: the lane loss ends a drain that leads to QUEUED, the port is granted again in the event, and the budget's second
decision puts it on the shed list. -/
theorem not_laneTimersKeepAndLoseTheLane : ¬ Obligations.LaneTimersKeepAndLoseTheLane := by
  intro h
  exact not_cleared_of_sheds (by decide +kernel)
    (h.2 0 (overfilled drainingToQueued { resetLane with mode := .paused, silenceTimer := some 100 }) (by decide))
    (fun _ post => (post.2 drainToQueued (by decide) (by decide)).1)

end Sys2Proof.Machine
end

