-- ==== Sys2Proof/Proofs/PowerOn.lean ====
section
/-! The values after power-on reset. -/

namespace Sys2Proof.Machine

/-- Settles O2: every value is the one `State.reset` is built of. -/
theorem resetHoldsThePowerOnValues : Obligations.ResetHoldsThePowerOnValues := by
  unfold Obligations.ResetHoldsThePowerOnValues
  refine ⟨⟨rfl, rfl⟩, fun n => ?_, ?_, ?_, ?_, ?_, ?_, ?_⟩
  · refine ⟨?_, ?_, ?_, ?_, ?_, ?_, ?_, ?_, ?_, ?_, ?_, ?_, ?_, ?_⟩ <;> exact PerPort.at_all _ n
  all_goals decide

end Sys2Proof.Machine
end

