-- ==== Sys2Proof/Proofs/OpenSwitches.lean ====
section
/-! Every command keeps the laws of the port table and the grant queue (`partOk`). -/

namespace Sys2Proof.Machine

/-- A burst that completes inside the memory ends with `afterBurst`. -/
theorem completeBurst_part {f : InFlight} {fault : Bool} {left : List Byte} {s t : State}
    (e : completeBurst f fault left s = .next t) :
    t.part = afterBurst f fault (s.mem.readBytes f.address f.length) s.part := by
  unfold completeBurst at e
  split at e
  · cases e
  · cases e; rfl

/-- A burst completion answers the state as it was, or completes the burst in flight. -/
theorem execMemoryBurstComplete_part {fault : Bool} {left : List Byte} {s t : State}
    (e : execMemoryBurstComplete fault left s = .next t) :
    t = s ∨ ∃ f, s.part.mo.inFlight = some f ∧
      t.part = afterBurst f fault (s.mem.readBytes f.address f.length) s.part := by
  unfold execMemoryBurstComplete at e
  split at e
  case h_1 => cases e; exact .inl rfl
  case h_2 f hf => exact .inr ⟨f, hf, completeBurst_part e⟩

theorem execCopyReadComplete_part {fault : Bool} {s t : State} (e : execCopyReadComplete fault s = .next t) :
    t = s ∨ ∃ f, s.part.mo.inFlight = some f ∧
      t.part = afterBurst f fault (s.mem.readBytes f.address f.length) s.part := by
  unfold execCopyReadComplete at e
  split at e
  case h_1 source address length discard hf => exact .inr ⟨_, hf, completeBurst_part e⟩
  case h_2 => cases e; exact .inl rfl

/-- The on-time at its next whole second, where it counts (R6, R20). -/
def PortRecord.atNextSecond (r : PortRecord) : PortRecord :=
  { r with onTime := if r.timers.onTime then nextSecond r.onTime else r.onTime }

/-- The event of a command that can take place: the part as the event leaves it, before the end of the command. -/
inductive Event (p : Part) : Instr → Part → Prop where
  | powerOnResetEnd (straps : Straps) (can : powerOnRuns p = true) : Event p (.powerOnResetEnd straps) (endPowerOn straps p)
  | resetnAssert (can : resetnHigh p = true) : Event p .resetnAssert (resetnAsserted p)
  | resetnDeassert (straps : Straps) (can : resetnIsLow p = true) : Event p (.resetnDeassert straps) (resetnDeasserted straps p)
  | softResetTake (can : softResetDue p = true) : Event p .softResetTake (softReset p)
  | converterWarmupEnd (can : warmingUp p = true) : Event p .converterWarmupEnd (warmupEnd p)
  | presenceAssert (n : Port) (can : (!p.mrc.present.at n) = true) : Event p (.presenceAssert n) (presenceAsserted n p)
  | arrival (n : Port) (can : debouncerRuns n p = true) : Event p (.arrival n) (event (arrived n) p)
  | presenceLoss (n : Port) (can : p.mrc.present.at n = true) : Event p (.presenceLoss n) (presenceLost n p)
  | helloTimerExpiry (n : Port) (can : helloRuns n p = true) : Event p (.helloTimerExpiry n) (event (noHello n) p)
  | rampTimerExpiry (n : Port) (can : rampRuns n p = true) : Event p (.rampTimerExpiry n) (event (failPort n .rampTimeout) p)
  | settleTimerExpiry (n : Port) (can : settleRuns n p = true) : Event p (.settleTimerExpiry n) (event (settleExpired n) p)
  | onTimeLimit (n : Port) (can : onTimeRuns n p = true) : Event p (.onTimeLimit n) (reportPort n false (updPort n PortRecord.ranLong p))
  | onTimeReport (n : Port) (can : ((p.port n).state == .on) = true) : Event p (.onTimeReport n) (reportPort n false (updPort n PortRecord.atNextSecond p))
  | graceTimerExpiry (n : Port) (can : graceRuns n p = true) : Event p (.graceTimerExpiry n) (event (endDrain n) p)
  | shedOrderTaken (n : Port) (can : orderDue n p = true) : Event p (.shedOrderTaken n) (event (orderTaken n) p)
  | hardLimitTrip (n : Port) (sensed : Nat) (can : trips n sensed p = true) : Event p (.hardLimitTrip n sensed) (event (failPort n .hard) p)
  | restartTimerExpiry (n : Port) (can : restartRuns n p = true) : Event p (.restartTimerExpiry n) (event (restartExpired n) p)
  | portISample (n : Port) (reading : Nat) (can : converts (.portI n) p = true) : Event p (.portISample n reading) (slotEnd (event (portSample n reading) p))
  | sourceVSample (millivolts : Nat) (can : converts .sourceV p = true) : Event p (.sourceVSample millivolts) (slotEnd (event (voltageSample millivolts) p))
  | tempSample (celsius : Int) (can : converts .temp p = true) : Event p (.tempSample celsius) (slotEnd (event (temperatureSample celsius) p))
  | offsetSample (reading : Nat) (can : converts .offset p = true) : Event p (.offsetSample reading) (slotEnd (offsetSlot reading p))
  | noneSlot (can : converts .none p = true) : Event p .noneSlot (slotEnd (keepResult 0 p))
  | calibrationConversion (reading : Nat) (can : calibrates p = true) : Event p (.calibrationConversion reading) (calibrationConverted reading p)
  | helloFrame (n : Port) (identity : Identity) (can : laneHears n p = true) : Event p (.helloFrame n identity) (event (takeFrame n (.hello identity)) p)
  | putFrame (n : Port) (tag cls : Fin 4) (offset : BitVec 24) (data : List Byte) (can : laneHears n p = true) : Event p (.putFrame n tag cls offset data) (takeFrame n (.put tag cls offset data) p)
  | getFrame (n : Port) (tag cls : Fin 4) (offset : BitVec 24) (length : BitVec 16) (can : laneHears n p = true) : Event p (.getFrame n tag cls offset length) (takeFrame n (.get tag cls offset length) p)
  | keepFrame (n : Port) (can : laneHears n p = true) : Event p (.keepFrame n) (takeFrame n .keep p)
  | leaveFrame (n : Port) (can : laneHears n p = true) : Event p (.leaveFrame n) (event (takeFrame n .leave) p)
  | badFrame (n : Port) (bytes : List Byte) (can : laneHears n p = true) : Event p (.badFrame n bytes) (event (takeBytes n bytes) p)
  | openSent (n : Port) (can : (p.lane n).sendsOpen = true) : Event p (.openSent n) (updLane n (Lane.openSent (decide ((p.port n).state = .on))) p)
  | answerSent (n : Port) (can : (p.lane n).sentAnswer.isSome = true) : Event p (.answerSent n) (answerEnds n p)
  | frameSent (n : Port) (can : (p.lane n).sendsOther = true) : Event p (.frameSent n) (updLane n Lane.sendingEnds p)
  | keepTimerExpiry (n : Port) (can : (p.lane n).keepTimer.isSome = true) : Event p (.keepTimerExpiry n) (updLane n Lane.keepExpired p)
  | silenceTimerExpiry (n : Port) (can : (p.lane n).silenceTimer.isSome = true) : Event p (.silenceTimerExpiry n) (event (silenceExpired n) p)
  | holdTimerExpiry (can : p.ptp.holdTimer.isSome = true) : Event p .holdTimerExpiry (holdExpired p)
  | standbyEntry (can : stbyLow p = true) : Event p .standbyEntry (stbyAsserted p)
  | standbyExit (can : stbyHigh p = true) : Event p .standbyExit (stbyDeasserted p)
  | adoptionTimerExpiry (can : adoptionRuns p = true) : Event p .adoptionTimerExpiry (adoptionExpired p)
  | access (c : Instr) (b : BusAccess) (can : busFree b p = true) : Event p c (present b p)

/-- What a command answers: the state as it was, where its event cannot take place; the part after power-on reset; the burst in
flight completed; or its event, with the end of the command. -/
theorem exec_cases {c : Instr} {s t : State} (e : exec c s = .next t) :
    t = s ∨ (c = .powerOnReset ∧ t.part = poweredUp s.part.mrc) ∨
    (∃ f fault, isCompletion c = true ∧ s.part.mo.inFlight = some f ∧
      t.part = afterBurst f fault (s.mem.readBytes f.address f.length) s.part) ∨
    ∃ q, Event s.part c q ∧ t.part = settle q := by
  have taken (can : Part → Bool) (f : Part → Part) (e : onPart can f s = .next t) (k : can s.part = true → Event s.part c (f s.part)) :
      t = s ∨ ∃ q, Event s.part c q ∧ t.part = settle q := by
    obtain ⟨r, rfl⟩ | ⟨-, rfl⟩ := onPart_part e
    · exact .inr ⟨_, k r, rfl⟩
    · exact .inl rfl
  have bursts {fault : Bool} (i : isCompletion c = true) (k : t = s ∨ ∃ f, s.part.mo.inFlight = some f ∧
      t.part = afterBurst f fault (s.mem.readBytes f.address f.length) s.part) :
      t = s ∨ ∃ f fault, isCompletion c = true ∧ s.part.mo.inFlight = some f ∧
        t.part = afterBurst f fault (s.mem.readBytes f.address f.length) s.part :=
    k.imp_right fun ⟨f, hf, ht⟩ => ⟨f, fault, i, hf, ht⟩
  cases c
  case powerOnReset => cases e; exact .inr (.inl ⟨rfl, rfl⟩)
  case memoryBurstComplete => exact (bursts rfl (execMemoryBurstComplete_part e)).imp_right (fun k => .inr (.inl k))
  case copyReadComplete => exact (bursts rfl (execCopyReadComplete_part e)).imp_right (fun k => .inr (.inl k))
  case powerOnResetEnd straps => exact (taken (fun p => powerOnRuns p) (fun p => endPowerOn straps p) e (.powerOnResetEnd _)).imp_right (fun k => .inr (.inr k))
  case resetnAssert => exact (taken (fun p => resetnHigh p) (fun p => resetnAsserted p) e (.resetnAssert)).imp_right (fun k => .inr (.inr k))
  case resetnDeassert straps => exact (taken (fun p => resetnIsLow p) (fun p => resetnDeasserted straps p) e (.resetnDeassert _)).imp_right (fun k => .inr (.inr k))
  case softResetTake => exact (taken (fun p => softResetDue p) (fun p => softReset p) e (.softResetTake)).imp_right (fun k => .inr (.inr k))
  case converterWarmupEnd => exact (taken (fun p => warmingUp p) (fun p => warmupEnd p) e (.converterWarmupEnd)).imp_right (fun k => .inr (.inr k))
  case presenceAssert n => exact (taken (fun p => (!p.mrc.present.at n)) (fun p => presenceAsserted n p) e (.presenceAssert _)).imp_right (fun k => .inr (.inr k))
  case arrival n => exact (taken (fun p => debouncerRuns n p) (fun p => event (arrived n) p) e (.arrival _)).imp_right (fun k => .inr (.inr k))
  case presenceLoss n => exact (taken (fun p => p.mrc.present.at n) (fun p => presenceLost n p) e (.presenceLoss _)).imp_right (fun k => .inr (.inr k))
  case helloTimerExpiry n => exact (taken (fun p => helloRuns n p) (fun p => event (noHello n) p) e (.helloTimerExpiry _)).imp_right (fun k => .inr (.inr k))
  case rampTimerExpiry n => exact (taken (fun p => rampRuns n p) (fun p => event (failPort n .rampTimeout) p) e (.rampTimerExpiry _)).imp_right (fun k => .inr (.inr k))
  case settleTimerExpiry n => exact (taken (fun p => settleRuns n p) (fun p => event (settleExpired n) p) e (.settleTimerExpiry _)).imp_right (fun k => .inr (.inr k))
  case onTimeLimit n => exact (taken (fun p => onTimeRuns n p) (fun p => reportPort n false (updPort n PortRecord.ranLong p)) e (.onTimeLimit _)).imp_right (fun k => .inr (.inr k))
  case onTimeReport n => exact (taken (fun p => ((p.port n).state == .on)) (fun p => reportPort n false (updPort n PortRecord.atNextSecond p)) e (.onTimeReport _)).imp_right (fun k => .inr (.inr k))
  case graceTimerExpiry n => exact (taken (fun p => graceRuns n p) (fun p => event (endDrain n) p) e (.graceTimerExpiry _)).imp_right (fun k => .inr (.inr k))
  case shedOrderTaken n => exact (taken (fun p => orderDue n p) (fun p => event (orderTaken n) p) e (.shedOrderTaken _)).imp_right (fun k => .inr (.inr k))
  case hardLimitTrip n sensed => exact (taken (fun p => trips n sensed p) (fun p => event (failPort n .hard) p) e (.hardLimitTrip _ _)).imp_right (fun k => .inr (.inr k))
  case restartTimerExpiry n => exact (taken (fun p => restartRuns n p) (fun p => event (restartExpired n) p) e (.restartTimerExpiry _)).imp_right (fun k => .inr (.inr k))
  case portISample n reading => exact (taken (fun p => converts (.portI n) p) (fun p => slotEnd (event (portSample n reading) p)) e (.portISample _ _)).imp_right (fun k => .inr (.inr k))
  case sourceVSample millivolts => exact (taken (fun p => converts .sourceV p) (fun p => slotEnd (event (voltageSample millivolts) p)) e (.sourceVSample _)).imp_right (fun k => .inr (.inr k))
  case tempSample celsius => exact (taken (fun p => converts .temp p) (fun p => slotEnd (event (temperatureSample celsius) p)) e (.tempSample _)).imp_right (fun k => .inr (.inr k))
  case offsetSample reading => exact (taken (fun p => converts .offset p) (fun p => slotEnd (offsetSlot reading p)) e (.offsetSample _)).imp_right (fun k => .inr (.inr k))
  case noneSlot => exact (taken (fun p => converts .none p) (fun p => slotEnd (keepResult 0 p)) e (.noneSlot)).imp_right (fun k => .inr (.inr k))
  case calibrationConversion reading => exact (taken (fun p => calibrates p) (fun p => calibrationConverted reading p) e (.calibrationConversion _)).imp_right (fun k => .inr (.inr k))
  case helloFrame n identity => exact (taken (fun p => laneHears n p) (fun p => event (takeFrame n (.hello identity)) p) e (.helloFrame _ _)).imp_right (fun k => .inr (.inr k))
  case putFrame n tag cls offset data => exact (taken (fun p => laneHears n p) (fun p => takeFrame n (.put tag cls offset data) p) e (.putFrame _ _ _ _ _)).imp_right (fun k => .inr (.inr k))
  case getFrame n tag cls offset length => exact (taken (fun p => laneHears n p) (fun p => takeFrame n (.get tag cls offset length) p) e (.getFrame _ _ _ _ _)).imp_right (fun k => .inr (.inr k))
  case keepFrame n => exact (taken (fun p => laneHears n p) (fun p => takeFrame n .keep p) e (.keepFrame _)).imp_right (fun k => .inr (.inr k))
  case leaveFrame n => exact (taken (fun p => laneHears n p) (fun p => event (takeFrame n .leave) p) e (.leaveFrame _)).imp_right (fun k => .inr (.inr k))
  case badFrame n bytes => exact (taken (fun p => laneHears n p) (fun p => event (takeBytes n bytes) p) e (.badFrame _ _)).imp_right (fun k => .inr (.inr k))
  case openSent n => exact (taken (fun p => (p.lane n).sendsOpen) (fun p => updLane n (Lane.openSent (decide ((p.port n).state = .on))) p) e (.openSent _)).imp_right (fun k => .inr (.inr k))
  case answerSent n => exact (taken (fun p => (p.lane n).sentAnswer.isSome) (fun p => answerEnds n p) e (.answerSent _)).imp_right (fun k => .inr (.inr k))
  case frameSent n => exact (taken (fun p => (p.lane n).sendsOther) (fun p => updLane n Lane.sendingEnds p) e (.frameSent _)).imp_right (fun k => .inr (.inr k))
  case keepTimerExpiry n => exact (taken (fun p => (p.lane n).keepTimer.isSome) (fun p => updLane n Lane.keepExpired p) e (.keepTimerExpiry _)).imp_right (fun k => .inr (.inr k))
  case silenceTimerExpiry n => exact (taken (fun p => (p.lane n).silenceTimer.isSome) (fun p => event (silenceExpired n) p) e (.silenceTimerExpiry _)).imp_right (fun k => .inr (.inr k))
  case holdTimerExpiry => exact (taken (fun p => p.ptp.holdTimer.isSome) (fun p => holdExpired p) e (.holdTimerExpiry)).imp_right (fun k => .inr (.inr k))
  case standbyEntry => exact (taken (fun p => stbyLow p) (fun p => stbyAsserted p) e (.standbyEntry)).imp_right (fun k => .inr (.inr k))
  case standbyExit => exact (taken (fun p => stbyHigh p) (fun p => stbyDeasserted p) e (.standbyExit)).imp_right (fun k => .inr (.inr k))
  case adoptionTimerExpiry => exact (taken (fun p => adoptionRuns p) (fun p => adoptionExpired p) e (.adoptionTimerExpiry)).imp_right (fun k => .inr (.inr k))
  all_goals exact (taken (busFree _) (present _) e (.access _ _)).imp_right (fun k => .inr (.inr k))

/-! ### Frames -/

/-- A frame taken changes neither what covers the ports nor the wheel. -/
theorem takeFrame_terms (n : Port) (f : RxFrame) (p : Part) : sameTerms (takeFrame n f p) p := by
  have overrun (q : Part) : sameTerms (tagOverrun n q) q :=
    (reportError_steady _ _).terms.trans (sameTerms_of_fixed (updPort_fixed _ _ _))
  have request (kind : ReqKind) (tag cls : Fin 4) (offset length : Nat) (data : List Byte) (q : Part) :
      sameTerms (takeRequest n kind tag cls offset length data q) q := by
    unfold takeRequest
    split
    · exact overrun q
    split
    · exact sameTerms_of_fixed (answerNow_fixed _ _ _ _ _)
    split
    · exact sameTerms_of_fixed (answerNow_fixed _ _ _ _ _)
    · exact sameTerms_of_fixed (acceptRequest_fixed _ _ _)
  have good (q : Part) : sameTerms (takeGood n f q) q := by
    cases f with
    | hello identity => exact sameTerms_of_fixed (takeHello_fixed _ _ _)
    | put tag cls offset data => exact request _ _ _ _ _ _ _
    | get tag cls offset length => exact request _ _ _ _ _ _ _
    | keep => exact sameTerms_of_fixed rfl
    | leave => exact sameTerms_of_fixed (leaveTaken_fixed _ _)
  unfold takeFrame
  split
  · exact sameTerms_of_fixed rfl
  split
  · exact (good _).trans (sameTerms_of_fixed (updLane_fixed _ _ _))
  · exact sameTerms_of_fixed (checkError_fixed _ _)

theorem partOk_takeFrame {a : Asked} {n : Port} {f : RxFrame} {p : Part} (h : partOk a p) : partOk a (takeFrame n f p) :=
  partOk_own h (takeFrame_terms n f p) (fun _ hm => takeFrame_aside hm f p) (okAt_takeFrame (h n) (within_termsOf a p))

theorem takeBytes_cases (n : Port) (bytes : List Byte) (p : Part) :
    takeBytes n bytes p = p ∨ takeBytes n bytes p = checkError n p ∨ ∃ f, takeBytes n bytes p = takeFrame n f p := by
  unfold takeBytes
  split
  · exact .inl rfl
  split
  · exact .inl rfl
  · exact .inr (.inl rfl)
  · exact .inr (.inr ⟨_, rfl⟩)

theorem partOk_takeBytes {a : Asked} {n : Port} {bytes : List Byte} {p : Part} (h : partOk a p) :
    partOk a (takeBytes n bytes p) := by
  obtain e | e | ⟨f, e⟩ := takeBytes_cases n bytes p <;> rw [e]
  · exact h
  · exact partOk_updPort h (fun _ => ⟨rfl, rfl, rfl, rfl⟩)
  · exact partOk_takeFrame h

theorem partOk_updLane {a : Asked} {n : Port} {f : Lane → Lane} {p : Part} (h : partOk a p) : partOk a (updLane n f p) :=
  partOk_of_terms (sameTerms_of_fixed (updLane_fixed n f p)) h

theorem partOk_answerEnds {a : Asked} {n : Port} {p : Part} (h : partOk a p) : partOk a (answerEnds n p) := by
  unfold answerEnds
  split
  · exact h
  · exact partOk_event (partOk_port h (answerSent_fixed _ _ _) (fun _ hm => answerSent_aside hm _ _)
      (fun o _ => okAt_answerSent o))

theorem partOk_silenceExpired {a : Asked} {n : Port} {p : Part} (h : partOk a p) : partOk a (silenceExpired n p) :=
  partOk_port h (silenceExpired_fixed n p) (fun _ hm => silenceExpired_aside hm p) okAt_silenceExpired

/-! ### Commands -/

theorem partOk_presenceAsserted {a : Asked} {n : Port} {p : Part} (h : partOk a p) : partOk a (presenceAsserted n p) := by
  unfold presenceAsserted
  dsimp only
  split
  · exact partOk_setTimers (partOk_mapMrc h)
  · exact partOk_mapMrc h

theorem partOk_reportPort {a : Asked} {n : Port} {m : Bool} {p : Part} (h : partOk a p) : partOk a (reportPort n m p) :=
  partOk_of_steady h (reportPort_steady n m p)

theorem partOk_resetnAsserted {a : Asked} {p : Part} (h : partOk a p) : partOk a (resetnAsserted p) := by
  unfold resetnAsserted
  split
  · exact partOk_externalReset (partOk_mapMrc h)
  · exact partOk_mapMrc h

theorem partOk_stbyAsserted {a : Asked} {p : Part} (h : partOk a p) : partOk a (stbyAsserted p) := by
  unfold stbyAsserted
  split
  · exact partOk_standbyEntered (partOk_mapMrc h)
  · exact partOk_mapMrc h

theorem partOk_stbyDeasserted {a : Asked} {p : Part} (h : partOk a p) : partOk a (stbyDeasserted p) := by
  unfold stbyDeasserted
  split
  · exact partOk_standbyExited (partOk_mapMrc h)
  · exact partOk_mapMrc h

/-- Every event keeps the laws of the port table and the grant queue. -/
theorem partOk_of_event {a : Asked} {c : Instr} {p q : Part} (h : partOk a p) (e : Event p c q) : partOk a q := by
  cases e
  case powerOnResetEnd => exact partOk_endPowerOn h
  case resetnAssert => exact partOk_resetnAsserted h
  case resetnDeassert => exact partOk_endExternalReset (partOk_mapMrc h)
  case softResetTake => exact partOk_softReset h
  case converterWarmupEnd => exact partOk_warmupEnd h
  case presenceAssert => exact partOk_presenceAsserted h
  case arrival => exact partOk_event (partOk_arrived h)
  case presenceLoss => exact partOk_presenceLost h
  case helloTimerExpiry => exact partOk_event (partOk_noHello h)
  case rampTimerExpiry => exact partOk_event (partOk_failPort h)
  case settleTimerExpiry n can => exact partOk_event (partOk_settleExpired h can)
  case onTimeLimit => exact partOk_reportPort (partOk_updPort h (fun _ => ⟨rfl, rfl, rfl, rfl⟩))
  case onTimeReport => exact partOk_reportPort (partOk_updPort h (fun _ => ⟨rfl, rfl, rfl, rfl⟩))
  case graceTimerExpiry => exact partOk_event (partOk_endDrain h)
  case shedOrderTaken => exact partOk_event (partOk_orderTaken h)
  case hardLimitTrip => exact partOk_event (partOk_failPort h)
  case restartTimerExpiry => exact partOk_event (partOk_restartExpired h)
  case portISample => exact partOk_slotEnd (partOk_event (partOk_portSample h))
  case sourceVSample => exact partOk_slotEnd (partOk_event (partOk_voltageSample h))
  case tempSample => exact partOk_slotEnd (partOk_event (partOk_temperatureSample h))
  case offsetSample => exact partOk_slotEnd (partOk_keepResult h)
  case noneSlot => exact partOk_slotEnd (partOk_keepResult h)
  case calibrationConversion => exact partOk_calibrationConverted h
  case helloFrame => exact partOk_event (partOk_takeFrame h)
  case putFrame => exact partOk_takeFrame h
  case getFrame => exact partOk_takeFrame h
  case keepFrame => exact partOk_takeFrame h
  case leaveFrame => exact partOk_event (partOk_takeFrame h)
  case badFrame => exact partOk_event (partOk_takeBytes h)
  case openSent => exact partOk_updLane h
  case answerSent => exact partOk_answerEnds h
  case frameSent => exact partOk_updLane h
  case keepTimerExpiry => exact partOk_updLane h
  case silenceTimerExpiry => exact partOk_event (partOk_silenceExpired h)
  case holdTimerExpiry => exact partOk_of_steady h (holdExpired_steady _)
  case standbyEntry => exact partOk_stbyAsserted h
  case standbyExit => exact partOk_stbyDeasserted h
  case adoptionTimerExpiry => exact partOk_adoptionExpired h
  case access => exact partOk_present h

/-- Every command keeps the laws of the port table and the grant queue. -/
theorem partOk_exec {a : Asked} {c : Instr} {s t : State} (h : partOk a s.part) (e : exec c s = .next t) :
    partOk a t.part := by
  obtain rfl | ⟨-, e⟩ | ⟨f, fault, -, -, e⟩ | ⟨q, k, e⟩ := exec_cases e
  · exact h
  · exact e ▸ partOk_poweredUp
  · exact e ▸ partOk_afterBurst h
  · exact e ▸ partOk_settle (partOk_of_event h k)

/-- A step keeps what every command keeps. -/
theorem step_keeps {P : Part → Prop} {s t : State} (h : P s.part) (e : step s = .next t)
    (k : ∀ (c : Instr) (r : State), P r.part → exec c r = .next t → P t.part) : P t.part := by
  cases hp : s.pending with
  | nil => rw [step_idle hp] at e; cases e; exact h
  | cons c rest => exact k c { s with pending := rest } h (step_front hp ▸ e)

/-- Settles O49: every command keeps `openLaw`, one of the laws of the port table. -/
theorem stepKeepsOpenSwitchesWithoutGrant : Obligations.StepKeepsOpenSwitchesWithoutGrant := by
  intro s t h e
  exact step_keeps h e (fun c s' h e => (openLaw_iff _).2 (partOk_exec ((openLaw_iff _).1 h) e))

end Sys2Proof.Machine
end

