-- ==== Sys2Proof/Proofs/Acts.lean ====
section
/-! What the operations of the ports are made of: a few actions at the ports of a set. An operation's frame, and what it reports to the
area engine, follow from those of the actions. -/

namespace Sys2Proof.Machine

/-- A change of a record that keeps its state, its grant and its on-time. -/
def KeepsShape (f : PortRecord → PortRecord) : Prop :=
  ∀ r, (f r).state = r.state ∧ (f r).grant = r.grant ∧ (f r).onTime = r.onTime

/-- A change of a record that keeps its state, its grant, its on-time and its identity. -/
def KeepsCore (f : PortRecord → PortRecord) : Prop :=
  ∀ r, (f r).state = r.state ∧ (f r).grant = r.grant ∧ (f r).onTime = r.onTime ∧ (f r).identity = r.identity

/-- A change of the budget unit that keeps its plan, the budget state and SHORTFALL, and adds no port to the shed list. -/
def KeepsTests (f : Budget → Budget) : Prop :=
  ∀ b, (f b).plan = b.plan ∧ (f b).isOver = b.isOver ∧ (f b).shortfall = b.shortfall ∧ (f b).shedList ⊆ b.shedList

/-- The part `q` is reached from `p` by actions at ports of `S`; a new stamp, a report and a change of the budget unit's lists may
concern any port. -/
inductive Acts (S : Port → Prop) (p : Part) : Part → Prop where
  | refl : Acts S p p
  | move {q : Part} (h : Acts S p q) {n : Port} (hn : S n) (st : PortState) : Acts S p (moveTo n st q)
  | upd {q : Part} (h : Acts S p q) {n : Port} (hn : S n) {f : PortRecord → PortRecord}
      (k : KeepsCore f := by exact fun _ => ⟨rfl, rfl, rfl, rfl⟩) :
      Acts S p (updPort n f q)
  | identify {q : Part} (h : Acts S p q) {n : Port} (hn : S n) {f : PortRecord → PortRecord} (k : KeepsShape f) :
      Acts S p (reportPort n true (updPort n f q))
  | unplug {q : Part} (h : Acts S p q) {n : Port} (hn : S n) (ne : (q.port n).state ≠ .empty) :
      Acts S p (updPort n PortRecord.unplug (moveTo n .empty q))
  | enterOn {q : Part} (h : Acts S p q) {n : Port} (hn : S n) (off : (q.port n).state ≠ .on) :
      Acts S p (startOnTime n (moveTo n .on q))
  | setGrant {q : Part} (h : Acts S p q) {n : Port} (hn : S n) (closed : (q.port n).state.closed = true) (g : Nat) :
      Acts S p (setGrant n g q)
  | setLane {q : Part} (h : Acts S p q) {n : Port} (hn : S n) (l : Lane) : Acts S p (q.setLane n l)
  | stamp {q : Part} (h : Acts S p q) (n : Port) (k : Nat) : Acts S p (updPort n (fun r => { r with stamp := k }) q)
  | mapBu {q : Part} (h : Acts S p q) {f : Budget → Budget} (k : KeepsTests f := by exact fun _ => ⟨rfl, rfl, rfl, fun _ x => x⟩) : Acts S p (q.mapBu f)
  | order {q : Part} (h : Acts S p q) {n : Port} (closed : (q.port n).state.closed = true) : Acts S p (sendShedOrder n q)
  | handOver {q : Part} (h : Acts S p q) {n : Port} (hn : S n) : Acts S p (handOver n q)
  | window {q : Part} (h : Acts S p q) {n : Port} (hn : S n) (w : Window) :
      Acts S p (q.mapPtp (fun t => { t with windows := t.windows.put n w }))
  | counts {q : Part} (h : Acts S p q) {n : Port} (hn : S n) : Acts S p (clearCounts n q)
  | complete {q : Part} (h : Acts S p q) {n : Port} (hn : S n) (r : Result) : Acts S p (complete (.port n) r q)
  | report {q : Part} (h : Acts S p q) (n : Port) (m : Bool) : Acts S p (reportPort n m q)
  | budgetTest {q : Part} (h : Acts S p q) : Acts S p (budgetTest q)
  | shortfallTest {q : Part} (h : Acts S p q) : Acts S p (shortfallTest q)

theorem Acts.trans {S : Port → Prop} {p q r : Part} (h : Acts S p q) (g : Acts S q r) : Acts S p r := by
  induction g with
  | refl => exact h
  | move _ hn st ih => exact ih.move hn st
  | upd _ hn k ih => exact ih.upd hn k
  | identify _ hn k ih => exact ih.identify hn k
  | unplug _ hn ne ih => exact ih.unplug hn ne
  | enterOn _ hn off ih => exact ih.enterOn hn off
  | setGrant _ hn c g ih => exact ih.setGrant hn c g
  | setLane _ hn l ih => exact ih.setLane hn l
  | stamp _ n k ih => exact ih.stamp n k
  | mapBu _ k ih => exact ih.mapBu k
  | order _ c ih => exact ih.order c
  | handOver _ hn ih => exact ih.handOver hn
  | window _ hn w ih => exact ih.window hn w
  | counts _ hn ih => exact ih.counts hn
  | complete _ hn r ih => exact ih.complete hn r
  | report _ n m ih => exact ih.report n m
  | budgetTest _ ih => exact ih.budgetTest
  | shortfallTest _ ih => exact ih.shortfallTest

theorem Acts.mono {S T : Port → Prop} {p q : Part} (h : Acts S p q) (le : ∀ n, S n → T n) : Acts T p q := by
  induction h with
  | refl => exact .refl
  | move _ hn st ih => exact ih.move (le _ hn) st
  | upd _ hn k ih => exact ih.upd (le _ hn) k
  | identify _ hn k ih => exact ih.identify (le _ hn) k
  | unplug _ hn ne ih => exact ih.unplug (le _ hn) ne
  | enterOn _ hn off ih => exact ih.enterOn (le _ hn) off
  | setGrant _ hn c g ih => exact ih.setGrant (le _ hn) c g
  | setLane _ hn l ih => exact ih.setLane (le _ hn) l
  | stamp _ n k ih => exact ih.stamp n k
  | mapBu _ k ih => exact ih.mapBu k
  | order _ c ih => exact ih.order c
  | handOver _ hn ih => exact ih.handOver (le _ hn)
  | window _ hn w ih => exact ih.window (le _ hn) w
  | counts _ hn ih => exact ih.counts (le _ hn)
  | complete _ hn r ih => exact ih.complete (le _ hn) r
  | report _ n m ih => exact ih.report n m
  | budgetTest _ ih => exact ih.budgetTest
  | shortfallTest _ ih => exact ih.shortfallTest

theorem refreshAsk_core : KeepsCore PortRecord.refreshAsk := fun r => by
  obtain ⟨f, e⟩ := refreshAsk_steady r
  rw [e]
  exact ⟨rfl, rfl, rfl, rfl⟩

theorem refreshAsk_shape (f : PortRecord → PortRecord) (k : KeepsShape f) : KeepsShape (fun r => (f r).refreshAsk) := fun r => by
  obtain ⟨state, grant, onTime⟩ := k r
  obtain ⟨state', grant', onTime', -⟩ := refreshAsk_core (f r)
  exact ⟨state'.trans state, grant'.trans grant, onTime'.trans onTime⟩

/-! ### The operations of one port -/

section
variable {S : Port → Prop} {p q : Part} {n : Port}

theorem Acts.updLane (h : Acts S p q) (hn : S n) (f : Lane → Lane) : Acts S p (updLane n f q) := h.setLane hn _

theorem Acts.setFlags (h : Acts S p q) (hn : S n) (f : Flags → Flags) : Acts S p (setFlags n f q) :=
  h.upd hn

theorem Acts.setTimers (h : Acts S p q) (hn : S n) (f : PortTimers → PortTimers) : Acts S p (setTimers n f q) :=
  h.upd hn

theorem Acts.laneFollow (h : Acts S p q) (hn : S n) : Acts S p (laneFollow n q) := by
  have hand : Acts S p (handBackCue n q) := by
    unfold handBackCue
    split
    · exact h
    · exact (h.upd hn).updLane hn _
  unfold Machine.laneFollow
  dsimp only
  split
  · exact h.updLane hn _
  · exact hand.updLane hn _

theorem Acts.joinQueue (h : Acts S p q) (hn : S n) (kind : EntryKind) : Acts S p (joinQueue n kind q) := by
  obtain ⟨r, rfl | rfl, e⟩ := joinQueue_eq n kind q <;> rw [e]
  · exact h.mapBu
  · exact (h.upd hn refreshAsk_core).mapBu

theorem Acts.toQueued (h : Acts S p q) (hn : S n) : Acts S p (toQueued n q) := by
  unfold Machine.toQueued
  split
  · exact h.move hn _
  split
  · exact h.move hn _
  · exact (h.move hn _).joinQueue hn _

theorem Acts.toRestartWait (h : Acts S p q) (hn : S n) : Acts S p (toRestartWait n q) := by
  unfold Machine.toRestartWait
  split
  · exact h.move hn _
  · exact (h.move hn _).setTimers hn _

theorem Acts.toParked (h : Acts S p q) (hn : S n) : Acts S p (toParked n q) := by
  unfold Machine.toParked
  split <;> exact h.move hn _

theorem Acts.endDrain (h : Acts S p q) (hn : S n) : Acts S p (endDrain n q) := by
  unfold Machine.endDrain
  split
  · exact h
  next d _ =>
    refine Acts.handOver ?_ hn
    split
    · exact h.toQueued hn
    · exact h.toRestartWait hn
    · exact h.toParked hn
    · dsimp only
      split
      · exact (h.move hn _).setFlags hn _
      · exact h.move hn _

theorem Acts.enterGrace (h : Acts S p q) (hn : S n) : Acts S p (enterGrace n q) := by
  unfold Machine.enterGrace
  split
  · exact h
  next d _ =>
    have grace := h.upd hn (f := fun r => { r with
      drain := some { d with phase := .grace }, timers := { r.timers with grace := some d.graceMs } })
    dsimp only
    split <;> split
    · exact (grace.updLane hn _).endDrain hn
    · exact grace.endDrain hn
    · exact grace.updLane hn _
    · exact grace

theorem Acts.startDrain (h : Acts S p q) (hn : S n) (r : DrainReason) : Acts S p (startDrain n r q) := by
  have moved := (h.upd hn (f := fun x => { x with drain := some (newDrain r (q.port n).plan) })
   ).move hn .drain
  unfold Machine.startDrain
  dsimp only
  split
  · exact moved.enterGrace hn
  · exact moved

theorem Acts.cueToLane (h : Acts S p q) (hn : S n) (v : Word) : Acts S p (cueToLane n v q) := by
  unfold Machine.cueToLane
  split
  · exact h
  · exact h.updLane hn _

theorem Acts.replacePlan (h : Acts S p q) (hn : S n) (plan : Plan) : Acts S p (replacePlan n plan q) := by
  have renewed : Acts S p ((updPort n (fun r => { r with plan := plan, restartCount := min r.restartCount plan.restartLimit.1 }) q).mapBu
      (fun b => { b with queue := b.queue.map (fun e => if e.port = n then renewEntry
        ((updPort n (fun r => { r with plan := plan, restartCount := min r.restartCount plan.restartLimit.1 }) q).port n) e else e) })) :=
    (h.upd hn).mapBu
  unfold Machine.replacePlan
  dsimp only
  refine Acts.laneFollow (Acts.window ?_ hn _) hn
  split
  · exact renewed.upd hn refreshAsk_core
  · exact renewed

theorem Acts.storePlan (h : Acts S p q) (hn : S n) (plan : Plan) : Acts S p (storePlan n plan q) :=
  (h.replacePlan hn plan).handOver hn

theorem Acts.withdraw (h : Acts S p q) (hn : S n) (plan : Plan) : Acts S p (withdraw n plan q) :=
  (h.startDrain hn _).storePlan hn plan

theorem Acts.renumber (h : Acts S p q) : Acts S p (renumber q) := by
  have stamps (l : List Port) : ∀ (k : Nat) (r : Part), Acts S p r → Acts S p (stampFrom k l r) := by
    induction l with
    | nil => intro k r g; exact g
    | cons m rest ih => intro k r g; exact ih _ _ (g.stamp m k)
  exact (stamps _ _ _ h).mapBu

theorem Acts.giveStamp (h : Acts S p q) (n : Port) : Acts S p (giveStamp n q) := by
  unfold Machine.giveStamp
  dsimp only
  refine Acts.stamp (Acts.mapBu ?_) _ _
  split
  · exact h.renumber
  · exact h

theorem Acts.applyInOn (h : Acts S p q) (hn : S n) (c : (q.port n).state.closed = true) (plan : Plan) :
    Acts S p (applyInOn n plan q) := by
  unfold Machine.applyInOn
  dsimp only
  split
  · exact (h.withdraw hn plan).complete hn _
  split
  · exact h.complete hn _
  split
  · exact h.complete hn _
  split
  · split
    · exact (((h.setGrant hn c _).giveStamp n).storePlan hn plan).complete hn _
    · exact h.complete hn _
  · exact ((h.setGrant hn c _).storePlan hn plan).complete hn _

theorem Acts.setOpenDue (h : Acts S p q) (hn : S n) : Acts S p (setOpenDue n q) := h.updLane hn _

theorem Acts.takeDeferred (h : Acts S p q) (hn : S n) : Acts S p (takeDeferred n q) := h.upd hn

theorem Acts.openLane (h : Acts S p q) (hn : S n) : Acts S p (openLane n q) := by
  unfold Machine.openLane
  split
  · unfold handPendingCue
    split
    · exact h.setOpenDue hn
    · exact ((h.setOpenDue hn).cueToLane hn _).upd hn
  · exact h

/-- A lane that is opened keeps the state of its port. -/
theorem openLane_state (n : Port) (p : Part) : ((openLane n p).port n).state = (p.port n).state := by
  unfold openLane
  split
  · exact handPendingCue_state n _
  · rfl

theorem startOnTime_state (n : Port) (p : Part) : ((startOnTime n p).port n).state = (p.port n).state := by
  unfold startOnTime
  rw [updPort_port_self]

theorem takeDeferred_state (n : Port) (p : Part) : ((takeDeferred n p).port n).state = (p.port n).state := by
  unfold takeDeferred
  rw [updPort_port_self]

/-- Entry to ON of a port in another state. -/
theorem Acts.enteredOn (h : Acts S p q) (hn : S n) (off : (q.port n).state ≠ .on) : Acts S p (Machine.enterOn n q) := by
  have opened := (h.enterOn hn off).openLane hn
  have on : ((Machine.openLane n (startOnTime n (moveTo n PortState.on q))).port n).state = PortState.on := by
    rw [openLane_state, startOnTime_state, moveTo_state]
  unfold Machine.enterOn applyEntering
  split
  · exact opened
  · refine (opened.takeDeferred hn).applyInOn hn ?_ _
    rw [takeDeferred_state, on]
    rfl

theorem Acts.standbyOn (h : Acts S p q) (hn : S n) : Acts S p (standbyOn n q) := by
  unfold Machine.standbyOn
  split
  · exact h.setFlags hn _
  · exact h.startDrain hn _

theorem Acts.admitOrphan (h : Acts S p q) (hn : S n) (off : (q.port n).state ≠ .on) : Acts S p (admitOrphan n q) := by
  unfold Machine.admitOrphan
  dsimp only
  split
  · exact (h.enteredOn hn off).standbyOn hn
  · exact h.enteredOn hn off

theorem Acts.testAdmission (h : Acts S p q) (hn : S n) (off : (q.port n).state ≠ .on) : Acts S p (testAdmission n q) := by
  unfold Machine.testAdmission
  split
  · exact h.enteredOn hn off
  · exact h.setFlags hn _

theorem Acts.applyWaiting (h : Acts S p q) (hn : S n) (s : (q.port n).state = .settle) (plan : Plan) :
    Acts S p (applyWaiting n plan q) := by
  have c : (q.port n).state.closed = true := by rw [s]; rfl
  have off {x : PortState} (e : x = (q.port n).state) : x ≠ .on := by rw [e, s]; decide
  unfold Machine.applyWaiting
  dsimp only
  split
  · exact ((h.storePlan hn plan).move hn _).complete hn _
  split
  · split
    · refine ((((h.setGrant hn c _).giveStamp n).storePlan hn plan).complete hn _).testAdmission hn (off ?_)
      rw [complete_port, storePlan_state, (giveStamp_stays n n _).1, (setGrant_stays n _ _).1]
    · exact h.complete hn _
  · refine (((h.setGrant hn c _).storePlan hn plan).complete hn _).testAdmission hn (off ?_)
    rw [complete_port, storePlan_state, (setGrant_stays n _ _).1]

theorem Acts.retarget (h : Acts S p q) (hn : S n) : Acts S p (retarget n q) := h.upd hn

/-- The current an adoption leaves the orphan (R66, R67, R188): a raise that does not fit sets SHORT. -/
def adoptGrant (n : Port) (plan : Plan) (p : Part) : Part :=
  if (p.port n).grant < fullRequest plan (p.port n).identity then
    if fits p (fullRequest plan (p.port n).identity - (p.port n).grant) then
      giveStamp n (setGrant n (fullRequest plan (p.port n).identity) p)
    else setFlags n (fun f => { f with short := true }) p
  else setGrant n (fullRequest plan (p.port n).identity) p

/-- The orphan adopted, its request DONE (R188). -/
def adoptStored (n : Port) (plan : Plan) (p : Part) : Part :=
  complete (.port n) .ok (updPort n (fun r => { r with adopted := true }) (storePlan n plan (adoptGrant n plan p)))

theorem adopt_eq (n : Port) (plan : Plan) (p : Part) : adopt n plan p =
    if plan.mode = .off then complete (.port n) .ok (withdraw n plan p)
    else if plan.base ≠ (p.port n).plan.base ∨ plan.size ≠ (p.port n).plan.size then complete (.port n) .windowLocked p
    else if plan.laneUse ≠ (p.port n).plan.laneUse then complete (.port n) .state p
    else if plan.laneUse = .expected ∧ names p.mo.wheel n = false then complete (.port n) .unnamed p
    else if plan.laneUse = .unused || ((adoptStored n plan p).lane n).outstanding == 0 then
      admitOrphan n (adoptStored n plan p)
    else adoptStored n plan p := rfl

theorem adoptGrant_state (n : Port) (plan : Plan) (p : Part) : ((adoptGrant n plan p).port n).state = (p.port n).state := by
  unfold adoptGrant
  split
  · split
    · rw [(giveStamp_stays n n _).1, (setGrant_stays n _ _).1]
    · rw [setFlags_port_self]
  · rw [(setGrant_stays n _ _).1]

theorem adoptStored_state (n : Port) (plan : Plan) (p : Part) : ((adoptStored n plan p).port n).state = (p.port n).state := by
  unfold adoptStored
  rw [complete_port, updPort_port_self]
  exact (storePlan_state n plan _).trans (adoptGrant_state n plan p)

theorem Acts.adoptStored (h : Acts S p q) (hn : S n) (c : (q.port n).state.closed = true) (plan : Plan) :
    Acts S p (adoptStored n plan q) := by
  have granted : Acts S p (adoptGrant n plan q) := by
    unfold adoptGrant
    split
    · split
      · exact (h.setGrant hn c _).giveStamp n
      · exact h.setFlags hn _
    · exact h.setGrant hn c _
  exact ((granted.storePlan hn plan).upd hn).complete hn _

theorem Acts.adopt (h : Acts S p q) (hn : S n) (s : (q.port n).state = .orphan) (plan : Plan) :
    Acts S p (adopt n plan q) := by
  have stored := h.adoptStored hn (by rw [s]; rfl) plan
  rw [adopt_eq]
  split
  · exact (h.withdraw hn plan).complete hn _
  split
  · exact h.complete hn _
  split
  · exact h.complete hn _
  split
  · exact h.complete hn _
  split
  · exact stored.admitOrphan hn (by rw [adoptStored_state, s]; decide)
  · exact stored

theorem Acts.applyByState (h : Acts S p q) (hn : S n) (plan : Plan) : Acts S p (applyByState n plan q) := by
  have kept := h.storePlan hn plan
  unfold Machine.applyByState
  dsimp only
  split
  case h_1 => exact kept.complete hn _
  case h_2 => exact kept.complete hn _
  case h_3 => split <;> [exact (kept.move hn _).complete hn _; exact kept.complete hn _]
  case h_4 => split <;> [exact (kept.move hn _).complete hn _; exact kept.complete hn _]
  case h_5 => exact (kept.retarget hn).complete hn _
  case h_6 => split <;> [exact kept.complete hn _; exact ((kept.setFlags hn _).toQueued hn).complete hn _]
  case h_7 => split <;> [exact (kept.move hn _).complete hn _; exact kept.complete hn _]
  case h_8 =>
    refine Acts.complete ?_ hn _
    split
    · exact kept.move hn _
    split
    · exact kept.toQueued hn
    · exact kept
  case h_9 => exact h.upd hn
  case h_10 s =>
    split
    · exact h.applyWaiting hn s plan
    · exact h.upd hn
  case h_11 s => exact h.applyInOn hn (by rw [s]; rfl) plan
  case h_12 s => exact h.adopt hn s plan

theorem Acts.applyDeferred (h : Acts S p q) (hn : S n) : Acts S p (applyDeferred n q) := by
  unfold Machine.applyDeferred
  split
  · exact h
  · exact (h.takeDeferred hn).applyByState hn _

theorem Acts.deliverApply (h : Acts S p q) (hn : S n) (plan : Option Plan) : Acts S p (deliverApply n plan q) := by
  unfold Machine.deliverApply
  split
  · exact h.complete hn _
  split
  · exact h.complete hn _
  split
  · exact h.complete hn _
  · exact h.applyByState hn _

theorem Acts.clearFault (h : Acts S p q) (hn : S n) : Acts S p (clearFault n q) := by
  have cleared := h.upd hn (f := fun r => { r with cause := none, restartCount := 0 })
  unfold Machine.clearFault
  dsimp only
  split
  · exact cleared.move hn _
  · exact cleared.toQueued hn

theorem Acts.clearRequest (h : Acts S p q) (hn : S n) : Acts S p (clearRequest n q) := by
  refine Acts.complete ?_ hn _
  split
  · exact h.clearFault hn
  · exact h

theorem Acts.restartRequest (h : Acts S p q) (hn : S n) : Acts S p (restartRequest n q) := by
  unfold Machine.restartRequest
  split
  · exact (h.startDrain hn _).complete hn _
  · exact (h.clearFault hn).complete hn _
  · exact h.complete hn _

theorem recordFailure_core (cause : FaultCause) : KeepsCore (recordFailure cause) := fun _ => ⟨rfl, rfl, rfl, rfl⟩

theorem Acts.failPort (h : Acts S p q) (hn : S n) (cause : FaultCause) : Acts S p (failPort n cause q) := by
  have recorded := h.upd hn (recordFailure_core cause)
  unfold Machine.failPort
  dsimp only
  split
  · exact h
  split
  · exact recorded.endDrain hn
  split
  · exact ((recorded.upd hn).toRestartWait hn).applyDeferred hn
  · exact (recorded.move hn _).applyDeferred hn

theorem Acts.laneLost (h : Acts S p q) (hn : S n) : Acts S p (laneLost n q) := by
  unfold Machine.laneLost
  split
  · exact h.endDrain hn
  · exact h.failPort hn _

theorem Acts.askFull (h : Acts S p q) (hn : S n) : Acts S p (askFull n q) := by
  unfold Machine.askFull
  split
  · exact h.mapBu
  · exact h.joinQueue hn _

theorem Acts.helloTaken (h : Acts S p q) (hn : S n) (i : Identity) : Acts S p (helloTaken n i q) := by
  have identified := h.identify hn (refreshAsk_shape
    (fun r => { r with identity := some i, timers := { r.timers with hello := none } }) (fun _ => ⟨rfl, rfl, rfl⟩))
  unfold Machine.helloTaken
  dsimp only
  split
  · exact h
  · exact identified.askFull hn

theorem Acts.leaveTaken (h : Acts S p q) (hn : S n) : Acts S p (leaveTaken n q) := by
  have left : Acts S p (Machine.applyDeferred n (Machine.setFlags n (fun f => { f with left := true }) (moveTo n .off q))) :=
    ((h.move hn _).setFlags hn _).applyDeferred hn
  unfold Machine.leaveTaken
  split
  case h_1 | h_2 => exact h.startDrain hn _
  case h_3 | h_4 | h_5 => exact left
  case h_6 => exact h

theorem Acts.shedTaken (h : Acts S p q) (hn : S n) : Acts S p (shedTaken n q) := by
  have queued := (h.toQueued hn).applyDeferred hn
  unfold Machine.shedTaken
  split
  case h_1 | h_2 | h_3 => exact queued
  case h_4 | h_5 => exact h.startDrain hn _
  case h_6 => exact h.mapBu (fun _ => ⟨rfl, rfl, rfl, fun _ x => List.mem_of_mem_filter x⟩)

theorem Acts.noOutstanding (h : Acts S p q) (hn : S n) : Acts S p (noOutstanding n q) := by
  unfold Machine.noOutstanding
  split
  case h_1 =>
    split
    · split
      · exact h.enterGrace hn
      · exact h
    · exact h
  case h_2 s =>
    split
    · exact h.admitOrphan hn (by rw [s]; decide)
    · exact h
  case h_3 =>
    split
    · exact h.setOpenDue hn
    · exact h
  case h_4 => exact h

theorem Acts.reopenLane (h : Acts S p q) (hn : S n) (i : Identity) : Acts S p (reopenLane n i q) := by
  have reopened := (h.setLane hn (q.lane n).reopened).identify hn (refreshAsk_shape
    (fun r => { r with identity := some i, flags := { r.flags with rehello := true } }) (fun _ => ⟨rfl, rfl, rfl⟩))
  unfold Machine.reopenLane
  dsimp only
  split
  · exact reopened.setOpenDue hn
  · exact reopened.updLane hn _

theorem Acts.checkError (h : Acts S p q) (hn : S n) : Acts S p (checkError n q) := h.upd hn

theorem Acts.takeHello (h : Acts S p q) (hn : S n) (i : Identity) : Acts S p (takeHello n i q) := by
  unfold Machine.takeHello
  split
  · exact h.helloTaken hn i
  split
  · exact h.reopenLane hn i
  · exact h.checkError hn

theorem Acts.freeTag (h : Acts S p q) (hn : S n) (tag : Fin 4) : Acts S p (freeTag n tag q) := by
  unfold Machine.freeTag
  dsimp only
  split
  · exact (h.updLane hn _).noOutstanding hn
  · exact h.updLane hn _

theorem Acts.answerSent (h : Acts S p q) (hn : S n) (a : Answer) : Acts S p (answerSent n a q) := by
  unfold Machine.answerSent
  split
  · exact (h.freeTag hn _).updLane hn _
  · exact h.updLane hn _

theorem Acts.accessDone (h : Acts S p q) (hn : S n) (a : Answer) : Acts S p (accessDone n a q) := by
  unfold Machine.accessDone
  split
  · exact h.freeTag hn _
  · exact h.updLane hn _
  · exact h
  · exact h

theorem Acts.silenceExpired (h : Acts S p q) (hn : S n) : Acts S p (silenceExpired n q) :=
  (h.updLane hn _).laneLost hn

theorem Acts.retest (h : Acts S p q) (hn : S n) : Acts S p (retest n q) := by
  unfold Machine.retest
  split
  next s => exact h.testAdmission hn (by rw [s.1]; decide)
  · exact h

theorem Acts.foldl (h : Acts S p q) {f : Port → Part → Part} (k : ∀ n r, S n → Acts S p r → Acts S p (f n r))
    (l : List Port) (hl : ∀ n ∈ l, S n) : Acts S p (l.foldl (fun r n => f n r) q) := by
  induction l generalizing q with
  | nil => exact h
  | cons m rest ih =>
    exact ih (k m q (hl m (by simp)) h) (fun n hn => hl n (by simp [hn]))

/-! ### The budget unit -/

theorem closed_of_mem_shedCandidates {m : Port} {keep : Port → Bool} (h : m ∈ shedCandidates p keep) :
    (p.port m).state.closed = true := by
  simp only [shedCandidates, mem_sortBy, List.mem_filter, shedCandidate, Bool.and_eq_true] at h
  exact h.2.1.1.1.1

theorem Acts.shedUntil (h : Acts S p q) (need : Nat) (l : List Port) (hl : ∀ m ∈ l, (q.port m).state.closed = true) :
    Acts S p (shedUntil need l q) := by
  induction l generalizing q with
  | nil => exact h
  | cons m rest ih =>
    unfold Machine.shedUntil
    split
    · exact h
    · exact ih (h.order (hl m (by simp))) (fun k hk => hl k (by simp [hk]))

theorem Acts.dropEntry (h : Acts S p q) (hn : S n) : Acts S p (dropEntry n q) := by
  unfold Machine.dropEntry
  split
  · exact Acts.setFlags h.mapBu hn _
  · exact h

theorem Acts.grant (h : Acts S p q) {e : Entry} (he : S e.port) : Acts S p (grant e q) := by
  have stamped := (h.dropEntry he).giveStamp e.port
  have closed {st : PortState} (c : st.closed = true) (r : Part) : ((moveTo e.port st r).port e.port).state.closed = true := by
    rw [moveTo_state, c]
  unfold Machine.grant grantPort
  split
  · exact ((stamped.move he _).setGrant he (closed rfl _) _).setTimers he _
  · exact (((stamped.move he _).setGrant he (closed rfl _) _).setTimers he _).counts he

theorem Acts.preempt (h : Acts S p q) {e : Entry} (he : S e.port) : Acts S p (preempt e q) := by
  unfold Machine.preempt
  dsimp only
  split
  · exact h
  split
  · exact h.shedUntil _ _ (fun _ => closed_of_mem_shedCandidates)
  · exact h.setFlags he _

theorem Acts.walk (h : Acts S p q) (l : List Entry) (hl : ∀ e ∈ l, S e.port) : Acts S p (walk l q) := by
  induction l generalizing q with
  | nil => exact h
  | cons e rest ih =>
    have he := hl e (by simp)
    have hrest : ∀ x ∈ rest, S x.port := fun x hx => hl x (by simp [hx])
    unfold Machine.walk
    split
    · exact ih h hrest
    split
    · exact ih (h.grant he) hrest
    split
    · exact h.preempt he
    · exact h

theorem Acts.markCoverage (h : Acts S p q) (l : List Entry) (hl : ∀ e ∈ l, S e.port) : Acts S p (markCoverage l q) := by
  induction l generalizing q with
  | nil => exact h
  | cons e rest ih => exact ih (h.setFlags (hl e (by simp)) _) (fun x hx => hl x (by simp [hx]))

/-- A grant decision acts at the ports that hold an entry. -/
theorem Acts.grantDecision (h : Acts S p q) (hq : ∀ e ∈ q.bu.queue, S e.port) : Acts S p (grantDecision q) := by
  have marked := h.markCoverage (queueOrder q.bu.queue) (fun e he => hq e ((mem_queueOrder _ _).1 he))
  unfold Machine.grantDecision
  dsimp only
  split
  · exact marked
  · exact marked.walk _ (fun e he => hq e (by simpa [mem_queueOrder] using he))

/-- The part before the grant decision holds the same queue. -/
theorem beforeDecision_queue (p : Part) : (beforeDecision p).bu.queue = p.bu.queue := by
  have tested : (Machine.budgetTest p).bu.queue = p.bu.queue := by
    unfold Machine.budgetTest
    split
    · rfl
    · rw [reportDevice_bu, Part.mapBu_bu]
  unfold beforeDecision
  split
  · obtain ⟨l, o, e⟩ := shedStep_only (Machine.budgetTest p)
    rw [e]
    exact tested
  · exact tested

theorem Acts.budgetAfter (h : Acts S p q) (hq : ∀ e ∈ q.bu.queue, S e.port) (trigger : Bool) :
    Acts S p (budgetAfter trigger q) := by
  have before : Acts S p (beforeDecision q) := by
    unfold beforeDecision
    split
    · exact h.budgetTest.shedUntil _ _ (fun _ => closed_of_mem_shedCandidates)
    · exact h.budgetTest
  obtain e | e := budgetAfter_eq trigger q <;> rw [e]
  · exact before.shortfallTest
  · exact (before.grantDecision (by rw [beforeDecision_queue]; exact hq)).shortfallTest

theorem Acts.event {f : Part → Part} (h : Acts S p (f q)) (hq : ∀ e ∈ (f q).bu.queue, S e.port) :
    Acts S p (event f q) := h.budgetAfter hq _

end

/-! ### What actions leave alone -/

/-- No action changes what no operation of the ports changes. -/
theorem Acts.fixed {S : Port → Prop} {p q : Part} (h : Acts S p q) : q.fixed = p.fixed := by
  induction h with
  | refl => rfl
  | move _ _ _ ih => exact (moveTo_fixed _ _ _).trans ih
  | upd _ _ _ ih => exact (updPort_fixed _ _ _).trans ih
  | identify _ _ _ ih => exact (reportPort_fixed _ _ _).trans ((updPort_fixed _ _ _).trans ih)
  | unplug _ _ _ ih => exact (updPort_fixed _ _ _).trans ((moveTo_fixed _ _ _).trans ih)
  | enterOn _ _ _ ih => exact (startOnTime_fixed _ _).trans ((moveTo_fixed _ _ _).trans ih)
  | setGrant _ _ _ _ ih => exact (setGrant_fixed _ _ _).trans ih
  | setLane _ _ _ ih => exact ih
  | stamp _ _ _ ih => exact (updPort_fixed _ _ _).trans ih
  | mapBu _ k ih => exact (mapBu_fixed (k _).1).trans ih
  | order _ _ ih => exact (mapBu_fixed rfl).trans ih
  | handOver _ _ ih => exact ih
  | window _ _ _ ih => exact ih
  | counts _ _ ih => exact ih
  | complete _ _ _ ih => exact (complete_fixed _ _ _).trans ih
  | report _ _ _ ih => exact (reportPort_fixed _ _ _).trans ih
  | budgetTest _ ih => exact (budgetTest_keeps _).1.trans ih
  | shortfallTest _ ih => exact (shortfallTest_keeps _).1.trans ih

/-- What the blocks other than the port table and the budget unit keep for a port: its request word, what was handed over of its plan
copy, its accesses, the counters of its samples and its lane. -/
structure Kept where
  request : Request
  handed : Window × BitVec 4 × PortView
  list : List LaneAccess
  overs : Nat
  ramps : Nat
  lane : Lane

/-- See `Kept`. -/
def Part.kept (n : Port) (p : Part) : Kept where
  request := p.request (.port n)
  handed := p.handed n
  list := p.mo.lists.at n
  overs := p.ms.overCount.at n
  ramps := p.ms.rampCount.at n
  lane := p.lane n

theorem kept_of {p q : Part} (n : Port) (r : q.request (.port n) = p.request (.port n)) (t : q.ptp = p.ptp)
    (o : q.mo = p.mo) (m : q.ms = p.ms) (l : q.lane n = p.lane n) : q.kept n = p.kept n := by
  simp only [Part.kept, Part.handed, r, t, o, m, l]

@[simp] theorem queueWriteBack_request (t : Target) (p : Part) (w : ReqWord) :
    (queueWriteBack t p).request w = p.request w := by
  unfold queueWriteBack
  split <;> cases w <;> rfl

@[simp] theorem reportPort_request (n : Port) (m : Bool) (p : Part) (w : ReqWord) :
    (reportPort n m p).request w = p.request w := by
  unfold reportPort
  rw [queueWriteBack_request]
  split <;> cases w <;> rfl

@[simp] theorem reportDevice_request (m : Bool) (p : Part) (w : ReqWord) : (reportDevice m p).request w = p.request w := by
  unfold reportDevice
  rw [queueWriteBack_request]
  split <;> cases w <;> rfl

theorem setRequest_request (w v : ReqWord) (r : Request) (p : Part) :
    (p.setRequest w r).request v = if w = v then r else p.request v := by
  cases w <;> cases v <;> simp [Part.setRequest, Part.request, PerPort.at_put]

theorem complete_request (w v : ReqWord) (r : Result) (p : Part) :
    (complete w r p).request v = if w = v then { p.request w with completion := some r } else p.request v := by
  unfold complete
  rw [queueWriteBack_request, setRequest_request]

@[simp] theorem updPort_request (n : Port) (f : PortRecord → PortRecord) (p : Part) (w : ReqWord) :
    (updPort n f p).request w = p.request w := by
  unfold updPort
  split
  · rw [reportPort_request]; cases w <;> rfl
  · cases w <;> rfl

theorem updPort_kept (n m : Port) (f : PortRecord → PortRecord) (p : Part) : (updPort n f p).kept m = p.kept m :=
  kept_of m (by simp) (by simp) (by simp) (by simp) (by simp)

theorem setLane_kept {n m : Port} (h : n ≠ m) (l : Lane) (p : Part) : (p.setLane n l).kept m = p.kept m :=
  kept_of m rfl rfl rfl rfl (Part.setLane_lane_ne h)

theorem mapBu_kept (m : Port) (f : Budget → Budget) (p : Part) : (p.mapBu f).kept m = p.kept m := rfl

theorem reportPort_kept (n m : Port) (b : Bool) (p : Part) : (reportPort n b p).kept m = p.kept m :=
  kept_of m (by simp) (by simp) (by simp) (by simp) (by simp)

theorem reportDevice_kept (m : Port) (b : Bool) (p : Part) : (reportDevice b p).kept m = p.kept m :=
  kept_of m (by simp) (by simp) (by simp) (by simp) (by simp)

theorem clearCounts_kept {n m : Port} (h : n ≠ m) (p : Part) : (clearCounts n p).kept m = p.kept m := by
  simp [Part.kept, Part.handed, clearCounts, Part.request, h]

theorem cancelAccesses_kept {n m : Port} (h : n ≠ m) (p : Part) : (cancelAccesses n p).kept m = p.kept m := by
  simp [Part.kept, Part.handed, cancelAccesses, Part.request, h]

theorem switchOpened_kept {n m : Port} (h : n ≠ m) (p : Part) : (switchOpened n p).kept m = p.kept m := by
  have cleared : (clearCounts n (cancelAccesses n p)).kept m = p.kept m :=
    (clearCounts_kept h _).trans (cancelAccesses_kept h p)
  unfold switchOpened
  dsimp only
  split
  · exact cleared
  · exact (reportDevice_kept m _ _).trans cleared

theorem dropEntry_kept (n m : Port) (p : Part) : (dropEntry n p).kept m = p.kept m := by
  unfold dropEntry
  split
  · exact updPort_kept _ _ _ _
  · rfl

theorem laneFollow_kept {n m : Port} (h : n ≠ m) (p : Part) : (laneFollow n p).kept m = p.kept m := by
  have hand : (handBackCue n p).kept m = p.kept m := by
    unfold handBackCue
    split
    · rfl
    · exact (setLane_kept h _ _).trans (updPort_kept _ _ _ _)
  unfold laneFollow
  dsimp only
  refine (setLane_kept h _ _).trans ?_
  split
  · rfl
  · exact hand

/-- A port that changes state leaves what the other blocks keep for another. -/
theorem moveTo_kept {n m : Port} (h : n ≠ m) (st : PortState) (p : Part) : (moveTo n st p).kept m = p.kept m := by
  unfold moveTo
  dsimp only
  refine (setLane_kept h _ _).trans ((laneFollow_kept h _).trans ((updPort_kept _ _ _ _).trans
    ((dropEntry_kept _ _ _).trans ?_)))
  split
  · exact switchOpened_kept h p
  · rfl

theorem startOnTime_kept (n m : Port) (p : Part) : (startOnTime n p).kept m = p.kept m := updPort_kept _ _ _ _

theorem setGrant_kept (n m : Port) (g : Nat) (p : Part) : (setGrant n g p).kept m = p.kept m := by
  unfold setGrant
  split
  · rfl
  · exact (reportDevice_kept _ _ _).trans (updPort_kept _ _ _ _)

theorem complete_kept {w : ReqWord} {m : Port} (h : w ≠ .port m) (r : Result) (p : Part) :
    (complete w r p).kept m = p.kept m :=
  kept_of m (by rw [complete_request, if_neg h]) (by simp) (by simp) (by simp) (by simp)

theorem budgetTest_kept (m : Port) (p : Part) : (budgetTest p).kept m = p.kept m := by
  unfold budgetTest
  split
  · rfl
  · rw [reportDevice_kept, mapBu_kept]

theorem shortfallTest_kept (m : Port) (p : Part) : (shortfallTest p).kept m = p.kept m := by
  unfold shortfallTest
  split
  · rfl
  · rw [reportDevice_kept, mapBu_kept]

theorem handOver_kept {n m : Port} (h : n ≠ m) (p : Part) : (handOver n p).kept m = p.kept m := by
  simp [Part.kept, Part.handed, handOver, Part.request, h]

theorem window_kept {n m : Port} (h : n ≠ m) (w : Window) (p : Part) :
    (p.mapPtp (fun t => { t with windows := t.windows.put n w })).kept m = p.kept m := by
  simp [Part.kept, Part.handed, Part.request, h]

/-- Actions at other ports leave what the other blocks keep for a port. -/
theorem Acts.kept {S : Port → Prop} {p q : Part} (h : Acts S p q) {m : Port} (hm : ¬S m) : q.kept m = p.kept m := by
  have ne {n : Port} (hn : S n) : n ≠ m := fun e => hm (e ▸ hn)
  induction h with
  | refl => rfl
  | move _ hn _ ih => exact (moveTo_kept (ne hn) _ _).trans ih
  | upd _ _ _ ih => exact (updPort_kept _ _ _ _).trans ih
  | identify _ _ _ ih => exact (reportPort_kept _ _ _ _).trans ((updPort_kept _ _ _ _).trans ih)
  | unplug _ hn _ ih => exact (updPort_kept _ _ _ _).trans ((moveTo_kept (ne hn) _ _).trans ih)
  | enterOn _ hn _ ih => exact (startOnTime_kept _ _ _).trans ((moveTo_kept (ne hn) _ _).trans ih)
  | setGrant _ _ _ g ih => exact (setGrant_kept _ _ g _).trans ih
  | setLane _ hn _ ih => exact (setLane_kept (ne hn) _ _).trans ih
  | stamp _ _ _ ih => exact (updPort_kept _ _ _ _).trans ih
  | mapBu _ _ ih => exact ih
  | order _ _ ih => exact ih
  | handOver _ hn ih => exact (handOver_kept (ne hn) _).trans ih
  | window _ hn w ih => exact (window_kept (ne hn) w _).trans ih
  | counts _ hn ih => exact (clearCounts_kept (ne hn) _).trans ih
  | complete _ hn _ ih => exact (complete_kept (by simpa using ne hn) _ _).trans ih
  | report _ _ _ ih => exact (reportPort_kept _ _ _ _).trans ih
  | budgetTest _ ih => exact (budgetTest_kept _ _).trans ih
  | shortfallTest _ ih => exact (shortfallTest_kept _ _).trans ih

end Sys2Proof.Machine
end

