-- ==== Sys2Proof/Proofs/PortLawsAt.lean ====
section
/-! The laws of the ports that O55 speaks of, at one port: its timers, its deferred request, its place in a reset hold, and what the other
blocks keep of its plan copy. Which operations of a port keep them there. -/

namespace Sys2Proof.Machine

/-- The port timers run in their states: `timerLaw` at one record. -/
def timersFit (r : PortRecord) : Prop :=
  (r.timers.debouncer ≠ none → r.state = .empty) ∧ (r.timers.hello ≠ none → r.state = .probe) ∧
  r.timers.ramp = (if r.state = .ramp then some 50 else none) ∧
  (r.timers.settle.isSome = true ↔ r.state = .settle ∧ r.flags.noPhase = false) ∧
  (r.timers.grace.isSome = true ↔ r.state = .drain ∧ r.drain.map Drain.phase = some .grace) ∧
  r.timers.restart = (if r.state = .restartWait then some 500 else none) ∧ (r.timers.onTime = true → r.state = .on)

/-- The states of a ride-through hold (R182, R183). -/
def PortState.rides (st : PortState) : Bool := st ∈ [PortState.empty, .off, .fault, .drain, .orphan]

/-- The part is neither in power-on reset nor in a hold with RTE low. -/
def awake (p : Part) : Prop := p.mrc.phase = .running ∨ p.mrc.phase = .holdRideThrough

/-- What the orderer and the sequencer keep of a plan copy. -/
def Plan.share (plan : Plan) : BitVec 4 × PortView := (plan.urgent, ⟨plan.margin, plan.tripField⟩)

/-- What the other blocks keep of a plan copy. -/
def Plan.handed (plan : Plan) : Window × BitVec 4 × PortView := (⟨plan.base, plan.size⟩, plan.share)

/-- The laws at one port. `H` says whether the hand-overs are asked for. -/
structure lawAt (H : Prop) (n : Port) (p : Part) : Prop where
  timers : timersFit (p.port n)
  deferred : (p.port n).deferred ≠ none →
    (p.port n).state = .ramp ∨ ((p.port n).state = .settle ∧ (p.port n).flags.noPhase = false)
  waiting : (p.port n).state = .settle → (p.port n).flags.noPhase = true → (p.port n).plan.laneUse = .expected
  resting : ¬awake p → (p.port n).state = .empty ∧ (p.port n).timers.debouncer = none
  riding : p.mrc.phase = .holdRideThrough → (p.port n).state.rides = true ∧
    ((p.port n).state = .orphan → (p.port n).adopted = false)
  window : H → awake p → (p.handed n).1 = ⟨(p.port n).plan.base, (p.port n).plan.size⟩
  view : H → awake p → (p.port n).state ≠ .drain → (p.handed n).2.2 = (p.port n).plan.share.2
  urgent : H → awake p → (p.port n).state ≠ .drain → p.mrc.phase = .running ∨ (p.port n).state = .orphan →
    (p.handed n).2.1 = (p.port n).plan.share.1
  rested : H → ¬awake p → p.handed n = (defaultPlan false).handed

/-- The laws at every port. -/
def portLaws (H : Prop) (p : Part) : Prop := ∀ n, lawAt H n p

theorem awake_congr {p q : Part} (h : q.mrc.phase = p.mrc.phase) : awake q ↔ awake p := by unfold awake; rw [h]

/-- A part is in one of four phases. -/
theorem not_awake_iff (p : Part) : ¬awake p ↔ p.mrc.phase = .powerOn ∨ p.mrc.phase = .holdRteLow := by
  unfold awake
  cases p.mrc.phase <;> simp

theorem awake_of_running {p : Part} (h : p.mrc.phase = .running) : awake p := .inl h

section
variable {H : Prop} {n : Port} {p q : Part}

/-- Outside EMPTY a port is in no hold that empties the ports. -/
theorem lawAt.awake (h : lawAt H n p) (s : (p.port n).state ≠ .empty) : awake p :=
  Classical.byContradiction fun a => s (h.resting a).1

/-- In a state that no ride-through hold knows the part runs. -/
theorem lawAt.running (h : lawAt H n p) (s : (p.port n).state.rides = false) : p.mrc.phase = .running := by
  have a : Machine.awake p := h.awake (by intro e; rw [e] at s; cases s)
  exact a.resolve_right (fun r => by rw [(h.riding r).1] at s; cases s)

theorem lawAt.deferred_none (h : lawAt H n p) (ramp : (p.port n).state ≠ .ramp) (settle : (p.port n).state ≠ .settle) :
    (p.port n).deferred = none :=
  Decidable.byContradiction fun d => (h.deferred d).elim ramp (fun e => settle e.1)

/-- The laws look at a few fields of the record. -/
theorem lawAt.congr (h : lawAt H n p) (phase : q.mrc.phase = p.mrc.phase) (handed : q.handed n = p.handed n)
    (state : (q.port n).state = (p.port n).state) (plan : (q.port n).plan = (p.port n).plan)
    (drain : (q.port n).drain.map Drain.phase = (p.port n).drain.map Drain.phase)
    (noPhase : (q.port n).flags.noPhase = (p.port n).flags.noPhase) (deferred : (q.port n).deferred = (p.port n).deferred)
    (adopted : (q.port n).adopted = (p.port n).adopted) (timers : (q.port n).timers = (p.port n).timers) :
    lawAt H n q where
  timers := by
    have t := h.timers
    unfold timersFit at t ⊢
    rwa [timers, state, noPhase, drain]
  deferred := by rw [deferred, state, noPhase]; exact h.deferred
  waiting := by rw [state, noPhase, plan]; exact h.waiting
  resting := by rw [awake_congr phase, state, timers]; exact h.resting
  riding := by rw [phase, state, adopted]; exact h.riding
  window := by rw [awake_congr phase, handed, plan]; exact h.window
  view := by rw [awake_congr phase, state, handed, plan]; exact h.view
  urgent := by rw [awake_congr phase, phase, state, handed, plan]; exact h.urgent
  rested := by rw [awake_congr phase, handed]; exact h.rested

/-- A port whose record, but for its stamp, and whose hand-overs stay. -/
theorem lawAt.of_aside (h : lawAt H n p) (mrc : q.mrc = p.mrc) (aside : q.aside n = p.aside n)
    (handed : q.handed n = p.handed n) : lawAt H n q := by
  have e := port_of_aside aside
  refine h.congr (congrArg ModeReset.phase mrc) handed ?_ ?_ ?_ ?_ ?_ ?_ ?_ <;> rw [e]

/-- A change of the record that the laws do not see. -/
theorem lawAt.updPort (h : lawAt H n p) {f : PortRecord → PortRecord}
    (k : (f (p.port n)).state = (p.port n).state ∧ (f (p.port n)).plan = (p.port n).plan ∧
      (f (p.port n)).drain.map Drain.phase = (p.port n).drain.map Drain.phase ∧
      (f (p.port n)).flags.noPhase = (p.port n).flags.noPhase ∧ (f (p.port n)).deferred = (p.port n).deferred ∧
      (f (p.port n)).adopted = (p.port n).adopted ∧ (f (p.port n)).timers = (p.port n).timers := by
        exact ⟨rfl, rfl, rfl, rfl, rfl, rfl, rfl⟩) : lawAt H n (updPort n f p) := by
  obtain ⟨s, pl, d, np, df, ad, t⟩ := k
  refine h.congr (by simp) (by simp) ?_ ?_ ?_ ?_ ?_ ?_ ?_ <;> rw [updPort_port_self] <;> assumption

theorem lawAt.updLane (h : lawAt H n p) (m : Port) (f : Lane → Lane) : lawAt H n (updLane m f p) :=
  h.congr rfl (updLane_handed _ _ _ _) rfl rfl rfl rfl rfl rfl rfl

/-- An action of the area engine alone. -/
theorem lawAt.aeOnly (h : lawAt H n p) (a : AeOnly q p) : lawAt H n q := by
  obtain ⟨ports, -, ms, -, mo, ptp, mrc⟩ := a
  have e : q.port n = p.port n := by unfold Part.port; rw [ports]
  refine h.congr (congrArg ModeReset.phase mrc) (handed_of n ptp mo ms) ?_ ?_ ?_ ?_ ?_ ?_ ?_ <;> rw [e]

theorem lawAt.complete (h : lawAt H n p) (w : ReqWord) (r : Result) : lawAt H n (complete w r p) :=
  h.aeOnly (AeOnly.complete w r p)

theorem lawAt.reportPort (h : lawAt H n p) (m : Port) (b : Bool) : lawAt H n (reportPort m b p) :=
  h.aeOnly (AeOnly.reportPort m b p)

theorem lawAt.mapBu (h : lawAt H n p) (f : Budget → Budget) : lawAt H n (p.mapBu f) :=
  h.congr rfl rfl rfl rfl rfl rfl rfl rfl rfl

/-- A record with other flags but the same NO_PHASE. -/
theorem lawAt.setFlags (h : lawAt H n p) {f : Flags → Flags} (k : ∀ x, (f x).noPhase = x.noPhase := by exact fun _ => rfl) :
    lawAt H n (setFlags n f p) := h.updPort ⟨rfl, rfl, rfl, k _, rfl, rfl, rfl⟩

theorem giveStamp_mrc (m : Port) (p : Part) : (giveStamp m p).mrc = p.mrc := Part.mrc_of_fixed (giveStamp_fixed m p)

theorem Acts.handed {S : Port → Prop} (h : Acts S p q) {m : Port} (hm : ¬S m) : q.handed m = p.handed m :=
  congrArg Kept.handed (h.kept hm)

theorem Acts.mrc {S : Port → Prop} (h : Acts S p q) : q.mrc = p.mrc := Part.mrc_of_fixed h.fixed

theorem giveStamp_handed (n m : Port) (p : Part) : (giveStamp m p).handed n = p.handed n :=
  (Acts.giveStamp (S := fun _ => False) .refl m).handed id

theorem lawAt.giveStamp (h : lawAt H n p) (m : Port) : lawAt H n (giveStamp m p) := by
  obtain ⟨⟨x, e⟩, -⟩ := giveStamp_record m n p
  refine h.congr (congrArg ModeReset.phase (giveStamp_mrc m p)) (giveStamp_handed n m p) ?_ ?_ ?_ ?_ ?_ ?_ ?_ <;> rw [e]

theorem setGrant_handed (n m : Port) (g : Nat) (p : Part) : (setGrant m g p).handed n = p.handed n :=
  congrArg Kept.handed (setGrant_kept m n g p)

theorem lawAt.setGrant (h : lawAt H n p) (g : Nat) : lawAt H n (setGrant n g p) := by
  refine h.congr (by simp) (setGrant_handed _ _ _ _) ?_ ?_ ?_ ?_ ?_ ?_ ?_ <;> rw [setGrant_port_self]

theorem refreshAsk_eq (r : PortRecord) : ∃ b, r.refreshAsk = { r with flags := { r.flags with ask := b } } := by
  unfold PortRecord.refreshAsk
  split
  · exact ⟨r.flags.ask, rfl⟩
  split
  · split
    · exact ⟨true, rfl⟩
    · exact ⟨r.flags.ask, rfl⟩
  · exact ⟨false, rfl⟩

theorem lawAt.refreshAsk (h : lawAt H n p) : lawAt H n (Machine.updPort n PortRecord.refreshAsk p) := by
  obtain ⟨b, e⟩ := refreshAsk_eq (p.port n)
  exact h.updPort (by rw [e]; exact ⟨rfl, rfl, rfl, rfl, rfl, rfl, rfl⟩)

theorem lawAt.joinQueue (h : lawAt H n p) (k : EntryKind) : lawAt H n (joinQueue n k p) := by
  obtain ⟨r, rfl | rfl, e⟩ := joinQueue_eq n k p <;> rw [e]
  · exact h.mapBu _
  · exact h.refreshAsk.mapBu _

theorem takeDeferred_port (n : Port) (p : Part) : (takeDeferred n p).port n = { p.port n with deferred := none } := by
  unfold takeDeferred
  rw [updPort_port_self]

/-- A port without its deferred request. -/
theorem lawAt.takeDeferred (h : lawAt H n p) : lawAt H n (takeDeferred n p) := by
  have e := takeDeferred_port n p
  have phase : (Machine.takeDeferred n p).mrc.phase = p.mrc.phase := by unfold Machine.takeDeferred; simp
  have handed : (Machine.takeDeferred n p).handed n = p.handed n := by unfold Machine.takeDeferred; simp
  constructor
  · rw [e]; exact h.timers
  · rw [e]; exact fun d => absurd rfl d
  · rw [e]; exact h.waiting
  · rw [e, awake_congr phase]; exact h.resting
  · rw [e, phase]; exact h.riding
  · rw [e, awake_congr phase, handed]; exact h.window
  · rw [e, awake_congr phase, handed]; exact h.view
  · rw [e, awake_congr phase, phase, handed]; exact h.urgent
  · rw [awake_congr phase, handed]; exact h.rested

/-! ### A port sent to a state with its switch open -/

/-- What the other blocks keep of a port's plan copy, but for the class map in a ride-through hold. -/
def handAt (H : Prop) (n : Port) (p : Part) : Prop :=
  H → (p.handed n).1 = (p.port n).plan.handed.1 ∧ (p.handed n).2.2 = (p.port n).plan.share.2 ∧
    (p.mrc.phase = .running → (p.handed n).2.1 = (p.port n).plan.share.1)

theorem lawAt.handAt (h : lawAt H n p) (a : Machine.awake p) (s : (p.port n).state ≠ .drain) : handAt H n p :=
  fun i => ⟨h.window i a, h.view i a s, fun r => h.urgent i a s (.inl r)⟩

theorem handAt_congr (h : handAt H n p) (phase : q.mrc.phase = p.mrc.phase) (handed : q.handed n = p.handed n)
    (plan : (q.port n).plan = (p.port n).plan) : handAt H n q := by
  unfold handAt
  rwa [phase, handed, plan]

/-- In a part that runs the laws are the timers', the deferred request's, the waiting port's and the hand-overs'. -/
theorem lawAt_running (r : q.mrc.phase = .running) (t : timersFit (q.port n))
    (d : (q.port n).deferred ≠ none →
      (q.port n).state = .ramp ∨ ((q.port n).state = .settle ∧ (q.port n).flags.noPhase = false))
    (w : (q.port n).state = .settle → (q.port n).flags.noPhase = true → (q.port n).plan.laneUse = .expected)
    (k : Machine.handAt H n q) : lawAt H n q where
  timers := t
  deferred := d
  waiting := w
  resting x := absurd (awake_of_running r) x
  riding x := by rw [r] at x; cases x
  window i _ := (k i).1
  view i _ _ := (k i).2.1
  urgent i _ _ _ := (k i).2.2 r
  rested _ x := absurd (awake_of_running r) x

theorem timersFit_open {r : PortRecord} (o : r.state.closed = false)
    (t : r.timers = { stoppedTimers with restart := if r.state = .restartWait then some 500 else none }) : timersFit r := by
  unfold timersFit
  rw [t]
  cases e : r.state <;> simp_all [stoppedTimers, PortState.closed]

/-- A port with an open switch, no deferred request, and no timer but the restart timer in RESTART_WAIT. -/
theorem lawAt_open (a : Machine.awake q) (k : Machine.handAt H n q) (d : (q.port n).deferred = none)
    (o : (q.port n).state.closed = false) (rides : q.mrc.phase = .holdRideThrough → (q.port n).state.rides = true)
    (t : (q.port n).timers = { stoppedTimers with restart := if (q.port n).state = .restartWait then some 500 else none }) :
    lawAt H n q where
  timers := timersFit_open o t
  deferred x := absurd d x
  waiting s := by rw [s] at o; cases o
  resting x := absurd a x
  riding r := ⟨rides r, fun s => by rw [s] at o; cases o⟩
  window i _ := (k i).1
  view i _ _ := (k i).2.1
  urgent i _ _ c := (k i).2.2 (c.resolve_right (fun s => by rw [s] at o; cases o))
  rested _ x := absurd a x

/-- The port of `p` has been sent on in `q`: its switch is open, and no timer runs but the restart timer in RESTART_WAIT. -/
structure Sent (n : Port) (p q : Part) : Prop where
  mrc : q.mrc = p.mrc
  handed : q.handed n = p.handed n
  plan : (q.port n).plan = (p.port n).plan
  deferred : (q.port n).deferred = (p.port n).deferred
  opened : (q.port n).state.closed = false
  rides : p.mrc.phase = .holdRideThrough → (q.port n).state.rides = true
  timers : (q.port n).timers =
    { stoppedTimers with restart := if (q.port n).state = .restartWait then some 500 else none }

/-- A port sent on obeys the laws, without a deferred request. -/
theorem Sent.law (h : Sent n p q) (a : Machine.awake p) (k : Machine.handAt H n p) (d : (p.port n).deferred = none) :
    lawAt H n q := by
  obtain ⟨mrc, handed, plan, deferred, opened, rides, timers⟩ := h
  have phase := congrArg ModeReset.phase mrc
  exact lawAt_open ((awake_congr phase).2 a) (handAt_congr k phase handed plan) (deferred.trans d) opened
    (phase ▸ rides) timers

/-- A port sent on keeps the conditions under a change of its record outside its state, plan, timers and deferred request. -/
theorem Sent.updPort (h : Sent n p q) {f : PortRecord → PortRecord}
    (k : ∀ r, (f r).plan = r.plan ∧ (f r).deferred = r.deferred ∧ (f r).state = r.state ∧ (f r).timers = r.timers := by
      exact fun _ => ⟨rfl, rfl, rfl, rfl⟩) :
    Sent n p (updPort n f q) := by
  obtain ⟨mrc, handed, plan, deferred, opened, rides, timers⟩ := h
  obtain ⟨pl, d, s, t⟩ := k (q.port n)
  refine ⟨(updPort_mrc n f q).trans mrc, (updPort_handed n n f q).trans handed, ?_, ?_, ?_, ?_, ?_⟩ <;>
    rw [updPort_port_self]
  · exact pl.trans plan
  · exact d.trans deferred
  · rw [s]; exact opened
  · rw [s]; exact rides
  · rw [s, t]; exact timers

theorem Sent.setFlags (h : Sent n p q) (f : Flags → Flags) : Sent n p (setFlags n f q) := h.updPort

theorem moveTo_handed_self (n : Port) (st : PortState) (p : Part) : (moveTo n st p).handed n = p.handed n :=
  moveTo_handed n n st p

/-- A change to a state with its switch open, other than RESTART_WAIT. -/
theorem sent_moveTo (n : Port) (st : PortState) (p : Part) (o : st.closed = false) (w : st ≠ .restartWait)
    (r : p.mrc.phase = .holdRideThrough → st.rides = true) : Sent n p (moveTo n st p) := by
  have e := moveTo_port_self n st p
  refine ⟨moveTo_mrc n st p, moveTo_handed_self n st p, e.plan, e.deferred, ?_, ?_, ?_⟩
  · rw [e.state]; exact o
  · rw [e.state]; exact r
  · rw [e.timers, e.state, if_neg w]; rfl

theorem inHold_iff (p : Part) : p.inHold = true ↔ p.mrc.phase ≠ .running := by simp [Part.inHold]

theorem riding_inHold {p : Part} (h : p.mrc.phase = .holdRideThrough) : p.inHold = true := by
  rw [inHold_iff, h]; decide

/-- What a new entry leaves of its port's record. -/
theorem joinQueue_port (n : Port) (k : EntryKind) (p : Part) :
    ∃ b, (joinQueue n k p).port n = { p.port n with flags := { (p.port n).flags with ask := b } } := by
  obtain ⟨r, rfl | rfl, e⟩ := joinQueue_eq n k p <;> rw [e]
  · exact ⟨(r.port n).flags.ask, rfl⟩
  · rw [Part.mapBu_port, updPort_port_self]
    exact refreshAsk_eq _

theorem joinQueue_keeps (n : Port) (k : EntryKind) (p : Part) :
    (joinQueue n k p).mrc = p.mrc ∧ ∀ m, (joinQueue n k p).handed m = p.handed m := by
  obtain ⟨r, rfl | rfl, e⟩ := joinQueue_eq n k p <;> rw [e]
  · exact ⟨rfl, fun _ => rfl⟩
  · exact ⟨updPort_mrc _ _ _, fun m => updPort_handed _ m _ _⟩

/-- A port sent on keeps the conditions as an entry of its own joins the queue. -/
theorem Sent.joinQueue (h : Sent n p q) (k : EntryKind) : Sent n p (joinQueue n k q) := by
  obtain ⟨mrc, handed, plan, deferred, opened, rides, timers⟩ := h
  obtain ⟨b, e⟩ := joinQueue_port n k q
  obtain ⟨mrc', handed'⟩ := joinQueue_keeps n k q
  refine ⟨mrc'.trans mrc, (handed' n).trans handed, ?_, ?_, ?_, ?_, ?_⟩ <;> rw [e]
  · exact plan
  · exact deferred
  · exact opened
  · exact rides
  · exact timers

theorem sent_toQueued (n : Port) (p : Part) : Sent n p (toQueued n p) := by
  unfold toQueued
  split
  · exact sent_moveTo n .off p rfl (by decide) (fun _ => rfl)
  next r =>
    have run (h : p.mrc.phase = .holdRideThrough) : False := r (riding_inHold h)
    split
    · exact sent_moveTo n .parked p rfl (by decide) (fun h => (run h).elim)
    · exact (sent_moveTo n .queued p rfl (by decide) (fun h => (run h).elim)).joinQueue _

theorem setTimers_handed (n m : Port) (f : PortTimers → PortTimers) (p : Part) : (setTimers n f p).handed m = p.handed m :=
  updPort_handed _ _ _ _

theorem sent_toRestartWait (n : Port) (p : Part) : Sent n p (toRestartWait n p) := by
  unfold toRestartWait
  split
  · exact sent_moveTo n .off p rfl (by decide) (fun _ => rfl)
  next r =>
    have e := moveTo_port_self n .restartWait p
    have run (h : p.mrc.phase = .holdRideThrough) : False := r (riding_inHold h)
    refine ⟨(setTimers_mrc _ _ _).trans (moveTo_mrc n _ p), (setTimers_handed _ _ _ _).trans (moveTo_handed_self n _ p),
      ?_, ?_, ?_, fun h => (run h).elim, ?_⟩ <;> rw [setTimers_port_self] <;> dsimp only
    · exact e.plan
    · exact e.deferred
    · rw [e.state]; rfl
    · rw [e.timers, e.state, if_pos rfl]; rfl

theorem sent_toParked (n : Port) (p : Part) : Sent n p (toParked n p) := by
  unfold toParked
  split
  · exact sent_moveTo n .off p rfl (by decide) (fun _ => rfl)
  next r => exact sent_moveTo n .parked p rfl (by decide) (fun h => absurd (riding_inHold h) r)

/-! ### Drains -/

theorem handOver_handAt (n : Port) (q : Part) (w : H → (q.handed n).1 = (q.port n).plan.handed.1) :
    Machine.handAt H n (handOver n q) := by
  intro i
  rw [handOver_handed]
  exact ⟨w i, rfl, fun _ => rfl⟩

/-- A port sent on whose share of the plan copy is then handed over. -/
theorem Sent.law_handOver (h : Sent n p q) (a : Machine.awake p) (w : H → (p.handed n).1 = (p.port n).plan.handed.1)
    (d : (p.port n).deferred = none) : lawAt H n (handOver n q) := by
  obtain ⟨mrc, handed, plan, deferred, opened, rides, timers⟩ := h
  have phase := congrArg ModeReset.phase mrc
  exact lawAt_open ((awake_congr phase).2 a) (handOver_handAt n q (by rw [handed, plan]; exact w)) (deferred.trans d) opened
    (phase ▸ rides) timers

/-- The end of a drain. -/
theorem lawAt.endDrain (h : lawAt H n p) (s : (p.port n).state = .drain) : lawAt H n (endDrain n p) := by
  have a : Machine.awake p := h.awake (by rw [s]; decide)
  have d : (p.port n).deferred = none := h.deferred_none (by rw [s]; decide) (by rw [s]; decide)
  unfold Machine.endDrain
  split
  · exact h
  next x _ =>
    refine Sent.law_handOver (p := p) ?_ a (fun i => h.window i a) d
    split
    · exact sent_toQueued n p
    · exact sent_toRestartWait n p
    · exact sent_toParked n p
    · have off := sent_moveTo n .off p rfl (by decide) (fun _ => rfl)
      dsimp only
      split
      · exact off.setFlags _
      · exact off

/-- A draining port whose grace timer starts. -/
theorem lawAt.toGrace (h : lawAt H n p) (s : (p.port n).state = .drain) (d : Drain) (k : Nat) :
    lawAt H n (Machine.updPort n (fun r => { r with
      drain := some { d with phase := .grace }, timers := { r.timers with grace := some k } }) p) := by
  have phase : (Machine.updPort n (fun r => { r with
      drain := some { d with phase := .grace }, timers := { r.timers with grace := some k } }) p).mrc.phase = p.mrc.phase := by simp
  have handed := updPort_handed n n (fun r => { r with
      drain := some { d with phase := .grace }, timers := { r.timers with grace := some k } }) p
  have t := h.timers
  unfold timersFit at t
  obtain ⟨deb, hello, ramp, settle, grace, restart, onTime⟩ := t
  constructor <;> simp only [updPort_port_self, awake_congr phase, phase, handed]
  · exact ⟨deb, hello, ramp, settle, by simp [s], restart, onTime⟩
  · exact h.deferred
  · exact h.waiting
  · exact h.resting
  · exact h.riding
  · exact h.window
  · exact h.view
  · exact h.urgent
  · exact h.rested

theorem lawAt.enterGrace (h : lawAt H n p) (s : (p.port n).state = .drain) : lawAt H n (enterGrace n p) := by
  unfold Machine.enterGrace
  split
  · exact h
  next d _ =>
    have g := h.toGrace s d d.graceMs
    have gs : ((Machine.updPort n (fun r => { r with
      drain := some { d with phase := .grace }, timers := { r.timers with grace := some d.graceMs } }) p).port n).state = .drain := by
      rw [updPort_port_self]; exact s
    dsimp only
    split <;> split
    · exact (g.updLane n _).endDrain gs
    · exact g.endDrain gs
    · exact g.updLane n _
    · exact g

/-- A port that begins to drain, without a deferred request. -/
theorem lawAt.moveDrain (h : lawAt H n p) (a : Machine.awake p) (d : (p.port n).deferred = none) (x : Drain) (f : x.phase = .flush) :
    lawAt H n (moveTo n .drain (Machine.updPort n (fun r => { r with drain := some x }) p)) := by
  have e := moveTo_port_self n .drain (Machine.updPort n (fun r => { r with drain := some x }) p)
  rw [updPort_port_self] at e
  have phase : (moveTo n .drain (Machine.updPort n (fun r => { r with drain := some x }) p)).mrc.phase = p.mrc.phase := by simp
  have handed : (moveTo n .drain (Machine.updPort n (fun r => { r with drain := some x }) p)).handed n = p.handed n := by simp
  have a' := (awake_congr phase).2 a
  constructor
  · unfold timersFit
    rw [e.timers, e.state, e.drain]
    simp [stoppedTimers, f]
  · rw [e.deferred]; exact fun y => absurd d y
  · rw [e.state]; exact fun y => nomatch y
  · exact fun y => absurd a' y
  · rw [e.state]; exact fun _ => ⟨rfl, fun y => nomatch y⟩
  · rw [handed, e.plan]; exact fun i _ => h.window i a
  · rw [e.state]; exact fun _ _ y => absurd rfl y
  · rw [e.state]; exact fun _ _ y => absurd rfl y
  · exact fun _ y => absurd a' y

/-- The start of a drain of a port in a state without a deferred request. -/
theorem lawAt.startDrain (h : lawAt H n p) (s : (p.port n).state = .on ∨ (p.port n).state = .orphan) (r : DrainReason) :
    lawAt H n (startDrain n r p) := by
  have a : Machine.awake p := h.awake (by rcases s with s | s <;> rw [s] <;> decide)
  have d : (p.port n).deferred = none := by
    rcases s with s | s <;> exact h.deferred_none (by rw [s]; decide) (by rw [s]; decide)
  have moved := h.moveDrain a d (newDrain r (p.port n).plan) rfl
  unfold Machine.startDrain
  dsimp only
  split
  · exact moved.enterGrace (moveTo_state _ _ _)
  · exact moved

end

end Sys2Proof.Machine
end

