-- ==== Sys2Proof/Proofs/PortRequests.lean ====
section
/-! The laws at one port under plans stored, requests, failures, orders, frames, samples and grants at that port. -/

namespace Sys2Proof.Machine

section
variable {H : Prop} {n : Port} {p q : Part}

/-! ### Plans -/

/-- A stored plan changes the plan copy, the restart count, ASK and the pending cue of the record. -/
theorem replacePlan_record (n : Port) (plan : Plan) (p : Part) :
    ∃ b c, (replacePlan n plan p).port n = { p.port n with
      plan := plan
      restartCount := min (p.port n).restartCount plan.restartLimit.1
      flags := { (p.port n).flags with ask := b }
      pendingCue := c } := by
  unfold replacePlan
  dsimp only
  rw [laneFollow_port, Part.mapPtp_port]
  split
  · rw [updPort_port_self, Part.mapBu_port, updPort_port_self]
    obtain ⟨b, e⟩ := refreshAsk_eq { p.port n with
      plan := plan, restartCount := min (p.port n).restartCount plan.restartLimit.1 }
    rw [e]
    exact ⟨b, _, rfl⟩
  · rw [Part.mapBu_port, updPort_port_self]
    exact ⟨(p.port n).flags.ask, _, rfl⟩

theorem storePlan_record (n : Port) (plan : Plan) (p : Part) :
    ∃ b c, (storePlan n plan p).port n = { p.port n with
      plan := plan
      restartCount := min (p.port n).restartCount plan.restartLimit.1
      flags := { (p.port n).flags with ask := b }
      pendingCue := c } := replacePlan_record n plan p

theorem storePlan_handed (n : Port) (plan : Plan) (p : Part) : (storePlan n plan p).handed n = plan.handed :=
  (handedOver_iff n plan _).1 (storePlan_handedOver n plan p).2

theorem storePlan_mrc (n : Port) (plan : Plan) (p : Part) : (storePlan n plan p).mrc = p.mrc :=
  Part.mrc_of_fixed (storePlan_fixed n plan p)

theorem storePlan_handAt (H : Prop) (n : Port) (plan : Plan) (p : Part) : handAt H n (storePlan n plan p) := by
  intro _
  rw [storePlan_handed, storePlan_plan]
  exact ⟨rfl, rfl, fun _ => rfl⟩

/-- A plan stored outside the holds that empty the ports; one of a port that waits with NO_PHASE is lane-EXPECTED. -/
theorem lawAt.storePlan (h : lawAt H n p) (a : Machine.awake p) (plan : Plan)
    (w : (p.port n).state = .settle → (p.port n).flags.noPhase = true → plan.laneUse = .expected) :
    lawAt H n (storePlan n plan p) := by
  obtain ⟨b, c, e⟩ := storePlan_record n plan p
  have k := storePlan_handAt H n plan p
  have phase := congrArg ModeReset.phase (storePlan_mrc n plan p)
  have a' := (awake_congr phase).2 a
  constructor
  · rw [e]; exact h.timers
  · rw [e]; exact h.deferred
  · rw [e]; exact w
  · exact fun x => absurd a' x
  · rw [e, phase]; exact h.riding
  · exact fun i _ => (k i).1
  · exact fun i _ _ => (k i).2.1
  · intro _ _ _ _
    rw [storePlan_handed, storePlan_plan]
    rfl
  · exact fun _ x => absurd a' x

/-- The laws but for that of the deferred request. -/
def lawBut (H : Prop) (n : Port) (p : Part) : Prop := lawAt H n (takeDeferred n p)

theorem lawBut.law (h : lawBut H n p) (d : (p.port n).deferred = none) : lawAt H n p := by
  have e := takeDeferred_port n p
  have r : (takeDeferred n p).port n = p.port n := by
    rw [e]
    cases x : p.port n
    rw [x] at d
    cases d
    rfl
  refine lawAt.congr h ?_ ?_ ?_ ?_ ?_ ?_ ?_ ?_ ?_
  · unfold takeDeferred; simp
  · unfold takeDeferred; simp
  all_goals rw [r]

theorem Sent.but (h : Sent n p q) (a : awake p) (k : handAt H n p) : lawBut H n q := by
  obtain ⟨mrc, handed, plan, deferred, opened, rides, timers⟩ := h
  have e := takeDeferred_port n q
  have m : (takeDeferred n q).mrc = q.mrc := by unfold takeDeferred; simp
  have hd : (takeDeferred n q).handed n = q.handed n := by unfold takeDeferred; simp
  have phase := congrArg ModeReset.phase (m.trans mrc)
  refine lawAt_open ((awake_congr phase).2 a) (handAt_congr k phase (hd.trans handed) ?_) ?_ ?_ ?_ ?_
  · rw [e]; exact plan
  · rw [e]
  · rw [e]; exact opened
  · rw [e, phase]; exact rides
  · rw [e]; exact timers

/-! ### States -/

theorem handOver_port (n m : Port) (p : Part) : (handOver n p).port m = p.port m := rfl

/-- The end of a drain opens the switch of its port, if it holds its drain. -/
theorem endDrain_state (n : Port) (p : Part) :
    ((endDrain n p).port n).state = (p.port n).state ∨ ((endDrain n p).port n).state.closed = false := by
  unfold endDrain
  split
  · exact .inl rfl
  · right
    dsimp only
    rw [handOver_port]
    split
    · exact (sent_toQueued n p).opened
    · exact (sent_toRestartWait n p).opened
    · exact (sent_toParked n p).opened
    · split
      · exact ((sent_moveTo n .off p rfl (by decide) (fun _ => rfl)).setFlags _).opened
      · exact (sent_moveTo n .off p rfl (by decide) (fun _ => rfl)).opened

theorem enterGrace_state (n : Port) (p : Part) :
    ((enterGrace n p).port n).state = (p.port n).state ∨ ((enterGrace n p).port n).state.closed = false := by
  unfold enterGrace
  split
  · exact .inl rfl
  next d _ =>
    have g : ((updPort n (fun r => { r with
        drain := some { d with phase := .grace }, timers := { r.timers with grace := some d.graceMs } }) p).port n).state =
        (p.port n).state := by rw [updPort_port_self]
    dsimp only
    split <;> split
    · rw [← g, ← updLane_port n n (fun l => { l with leave := true })]; exact endDrain_state n _
    · rw [← g]; exact endDrain_state n _
    · rw [updLane_port]; exact .inl g
    · exact .inl g

/-- Whatever a drain comes to at its start, its port is in DRAIN or its switch has opened. -/
theorem startDrain_state (n : Port) (r : DrainReason) (p : Part) :
    ((startDrain n r p).port n).state = .drain ∨ ((startDrain n r p).port n).state.closed = false := by
  have s := moveTo_state n .drain (updPort n (fun x => { x with drain := some (newDrain r (p.port n).plan) }) p)
  unfold startDrain
  dsimp only
  split
  · exact (enterGrace_state n _).imp_left (fun e => e.trans s)
  · exact .inl s

theorem startDrain_mrc (n : Port) (r : DrainReason) (p : Part) : (startDrain n r p).mrc = p.mrc :=
  Part.mrc_of_fixed (startDrain_fixed n r p)

theorem lawAt.withdraw (h : lawAt H n p) (s : (p.port n).state = .on ∨ (p.port n).state = .orphan) (plan : Plan) :
    lawAt H n (withdraw n plan p) := by
  have a : Machine.awake p := h.awake (by rcases s with s | s <;> rw [s] <;> decide)
  refine (h.startDrain s _).storePlan ((awake_congr (congrArg ModeReset.phase (startDrain_mrc n _ p))).2 a) plan ?_
  intro x
  rcases startDrain_state n .withdrawn p with y | y <;> rw [x] at y <;> cases y

/-! ### Entry to ON -/

theorem lawAt.applyInOn (h : lawAt H n p) (s : (p.port n).state = .on) (plan : Plan) : lawAt H n (applyInOn n plan p) := by
  have a : Machine.awake p := h.awake (by rw [s]; decide)
  have g (k : Nat) : lawAt H n (Machine.setGrant n k p) := h.setGrant k
  have gs (k : Nat) : ((Machine.setGrant n k p).port n).state = .on := by rw [setGrant_port_self]; exact s
  have ga (k : Nat) : Machine.awake (Machine.setGrant n k p) := (awake_congr (congrArg ModeReset.phase (setGrant_mrc n k p))).2 a
  unfold Machine.applyInOn
  dsimp only
  split
  · exact (h.withdraw (.inl s) plan).complete _ _
  split
  · exact h.complete _ _
  split
  · exact h.complete _ _
  split
  · split
    · refine (((g _).giveStamp n).storePlan ?_ plan ?_).complete _ _
      · exact (awake_congr (congrArg ModeReset.phase (giveStamp_mrc n _))).2 (ga _)
      · rw [(giveStamp_stays n n _).1, gs]; exact fun y => nomatch y
    · exact h.complete _ _
  · refine ((g _).storePlan (ga _) plan ?_).complete _ _
    rw [gs]; exact fun y => nomatch y

theorem cueToLane_law (h : lawAt H n p) (v : Word) : lawAt H n (cueToLane n v p) := by
  unfold cueToLane
  split
  · exact h
  · exact h.updLane _ _

theorem setOpenDue_port (n m : Port) (p : Part) : (setOpenDue n p).port m = p.port m := rfl

theorem cueToLane_keeps (n : Port) (v : Word) (p : Part) :
    (cueToLane n v p).handed n = p.handed n ∧ (cueToLane n v p).mrc = p.mrc := by
  unfold cueToLane
  split
  · exact ⟨rfl, rfl⟩
  · exact ⟨updLane_handed _ _ _ _, rfl⟩

/-- An ordered OPEN and a cue handed over leave the record but for its pending cue, and what was handed over. -/
theorem openLane_keeps (n : Port) (p : Part) :
    (∃ c, (openLane n p).port n = { p.port n with pendingCue := c }) ∧
    (openLane n p).handed n = p.handed n ∧ (openLane n p).mrc = p.mrc := by
  have due : (setOpenDue n p).handed n = p.handed n := updLane_handed _ _ _ _
  unfold openLane
  split
  · unfold handPendingCue
    split
    · exact ⟨⟨(p.port n).pendingCue, setOpenDue_port n n p⟩, due, rfl⟩
    next v _ =>
      obtain ⟨handed, mrc⟩ := cueToLane_keeps n v (setOpenDue n p)
      refine ⟨⟨none, ?_⟩, ?_, ?_⟩
      · rw [updPort_port_self, cueToLane_port, setOpenDue_port]
      · rw [updPort_handed, handed, due]
      · rw [updPort_mrc, mrc]; rfl
  · exact ⟨⟨(p.port n).pendingCue, rfl⟩, rfl, rfl⟩

theorem startOnTime_keeps (n : Port) (p : Part) :
    (startOnTime n p).handed n = p.handed n ∧ (startOnTime n p).mrc = p.mrc ∧
    (startOnTime n p).port n = { p.port n with onTime := 0, timers := { (p.port n).timers with onTime := true } } := by
  unfold startOnTime
  rw [updPort_handed, updPort_mrc, updPort_port_self]
  exact ⟨rfl, rfl, rfl⟩

/-- A port as it has entered ON, before a deferred request is applied. -/
def entering (n : Port) (p : Part) : Part := openLane n (startOnTime n (moveTo n .on p))

theorem enterOn_eq (n : Port) (p : Part) : enterOn n p = applyEntering n (entering n p) := rfl

theorem entering_mrc (n : Port) (p : Part) : (entering n p).mrc = p.mrc := by
  unfold entering
  rw [(openLane_keeps n _).2.2, (startOnTime_keeps n _).2.1, moveTo_mrc]

theorem entering_handed (n : Port) (p : Part) : (entering n p).handed n = p.handed n := by
  unfold entering
  rw [(openLane_keeps n _).2.1, (startOnTime_keeps n _).1, moveTo_handed]

theorem entering_record (n : Port) (p : Part) :
    ((entering n p).port n).state = .on ∧ ((entering n p).port n).plan = (p.port n).plan ∧
    ((entering n p).port n).deferred = (p.port n).deferred ∧
    ((entering n p).port n).timers = { stoppedTimers with onTime := true } := by
  have e := moveTo_port_self n .on p
  unfold entering
  obtain ⟨⟨c, o⟩, -, -⟩ := openLane_keeps n (startOnTime n (moveTo n .on p))
  rw [o, (startOnTime_keeps n _).2.2]
  dsimp only
  rw [e.timers]
  exact ⟨e.state, e.plan, e.deferred, rfl⟩

/-- A port in ON with its on-time running, in a part that runs. -/
theorem lawAt_on (r : q.mrc.phase = .running) (k : handAt H n q) (s : (q.port n).state = .on)
    (t : (q.port n).timers = { stoppedTimers with onTime := true }) (d : (q.port n).deferred = none) : lawAt H n q := by
  refine lawAt_running r ?_ (fun y => absurd d y) (fun y => by rw [s] at y; cases y) k
  unfold timersFit
  rw [t, s]
  simp [stoppedTimers]

theorem takeDeferred_mrc (n : Port) (p : Part) : (takeDeferred n p).mrc = p.mrc := by
  unfold takeDeferred
  rw [updPort_mrc]

theorem takeDeferred_handed (n : Port) (p : Part) : (takeDeferred n p).handed n = p.handed n := by
  unfold takeDeferred
  rw [updPort_handed]

/-- Entry to ON in a part that runs. -/
theorem lawAt_enterOn (r : p.mrc.phase = .running) (k : handAt H n p) : lawAt H n (enterOn n p) := by
  obtain ⟨s, pl, d, t⟩ := entering_record n p
  have phase : (entering n p).mrc.phase = p.mrc.phase := by rw [entering_mrc]
  have k' : handAt H n (entering n p) := handAt_congr k phase (entering_handed n p) pl
  have r' := phase.trans r
  rw [enterOn_eq]
  unfold applyEntering
  split
  next x => exact lawAt_on r' k' s t x
  next plan x =>
    have e := takeDeferred_port n (entering n p)
    have phase' : (takeDeferred n (entering n p)).mrc.phase = (entering n p).mrc.phase := by rw [takeDeferred_mrc]
    have s' : ((takeDeferred n (entering n p)).port n).state = .on := (takeDeferred_state n _).trans s
    refine lawAt.applyInOn (lawAt_on (phase'.trans r') ?_ s' ?_ ?_) s' plan
    · exact handAt_congr k' phase' (takeDeferred_handed n _) (by rw [e])
    · rw [e]; dsimp only; exact t
    · rw [e]

theorem lawAt.standbyOn (h : lawAt H n p) (s : (p.port n).state = .on) : lawAt H n (standbyOn n p) := by
  unfold Machine.standbyOn
  split
  · exact h.setFlags
  · exact h.startDrain (.inl s) _

theorem lawAt_admitOrphan (r : p.mrc.phase = .running) (k : handAt H n p) : lawAt H n (admitOrphan n p) := by
  have e := lawAt_enterOn r k
  unfold admitOrphan
  dsimp only
  split
  next c =>
    rw [Bool.and_eq_true] at c
    exact e.standbyOn (eq_of_beq c.2)
  · exact e

/-- A port that no wheel admits is lane-EXPECTED. -/
theorem expected_of_not_admits (h : admits p n = false) : (p.port n).plan.laneUse = .expected := by
  unfold admits at h
  cases e : (p.port n).plan.laneUse
  · rfl
  · rw [e] at h; cases h

/-- The flags of a port that waits with NO_PHASE. -/
theorem lawBut_waits (r : p.mrc.phase = .running) (k : handAt H n p) (s : (p.port n).state = .settle)
    (t : (p.port n).timers = stoppedTimers) (l : (p.port n).plan.laneUse = .expected) :
    lawBut H n (setFlags n (fun f => { f with noPhase := true }) p) := by
  have e := takeDeferred_port n (setFlags n (fun f => { f with noPhase := true }) p)
  rw [setFlags_port_self] at e
  have k' : handAt H n (takeDeferred n (setFlags n (fun f => { f with noPhase := true }) p)) := by
    refine handAt_congr k ?_ ?_ ?_
    · unfold takeDeferred; simp
    · unfold takeDeferred setFlags; simp
    · rw [e]
  refine lawAt_running ?_ ?_ ?_ ?_ k'
  · unfold takeDeferred; simpa using r
  · rw [e]
    unfold timersFit
    dsimp only
    rw [t, s]
    simp [stoppedTimers]
  · rw [e]; exact fun y => absurd rfl y
  · rw [e]; exact fun _ _ => l

/-- The admission test of a port whose timers are stopped. -/
theorem lawBut_testAdmission (r : p.mrc.phase = .running) (k : handAt H n p) (s : (p.port n).state = .settle)
    (t : (p.port n).timers = stoppedTimers) : lawBut H n (testAdmission n p) := by
  unfold testAdmission
  split
  · exact (lawAt_enterOn r k).takeDeferred
  next c => exact lawBut_waits r k s t (expected_of_not_admits (eq_false_of_ne_true c))

theorem lawAt_testAdmission (r : p.mrc.phase = .running) (k : handAt H n p) (s : (p.port n).state = .settle)
    (t : (p.port n).timers = stoppedTimers) (d : (p.port n).deferred = none) : lawAt H n (testAdmission n p) := by
  unfold testAdmission
  split
  · exact lawAt_enterOn r k
  next c =>
    refine (lawBut_waits r k s t (expected_of_not_admits (eq_false_of_ne_true c))).law ?_
    rw [setFlags_port_self]; exact d

/-- No timer runs of a port that waits with NO_PHASE. -/
theorem lawAt.stopped (h : lawAt H n p) (s : (p.port n).state = .settle) (x : (p.port n).flags.noPhase = true) :
    (p.port n).timers = stoppedTimers := by
  have t := h.timers
  unfold timersFit at t
  rw [s, x] at t
  obtain ⟨deb, hello, ramp, settle, grace, restart, onTime⟩ := t
  cases y : (p.port n).timers
  rw [y] at deb hello ramp settle grace restart onTime
  simp_all [stoppedTimers]

/-! ### Requests by state -/

theorem running_congr (h : q.mrc = p.mrc) (r : p.mrc.phase = .running) : q.mrc.phase = .running := by rw [h]; exact r

theorem complete_handAt (k : handAt H n p) (w : ReqWord) (x : Result) : handAt H n (complete w x p) := by
  obtain ⟨ports, -, ms, -, mo, ptp, mrc⟩ := AeOnly.complete w x p
  refine handAt_congr k (congrArg ModeReset.phase mrc) (handed_of n ptp mo ms) ?_
  rw [complete_port]

theorem lawAt.applyWaiting (h : lawAt H n p) (s : (p.port n).state = .settle) (x : (p.port n).flags.noPhase = true)
    (plan : Plan) : lawAt H n (applyWaiting n plan p) := by
  have r : p.mrc.phase = .running := h.running (by rw [s]; rfl)
  have d : (p.port n).deferred = none := Classical.byContradiction fun y => by
    rcases h.deferred y with y | ⟨-, y⟩
    · rw [s] at y; cases y
    · rw [x] at y; cases y
  have t := h.stopped s x
  have tested (q : Part) (m : q.mrc = p.mrc) (e : ∃ g k, q.port n = { p.port n with grant := g, stamp := k }) :
      lawAt H n (testAdmission n (Machine.complete (.port n) .ok (Machine.storePlan n plan q))) := by
    obtain ⟨b, c, f⟩ := storePlan_record n plan q
    obtain ⟨g, k, e⟩ := e
    refine lawAt_testAdmission ?_ (complete_handAt (storePlan_handAt H n plan q) _ _) ?_ ?_ ?_
    · exact running_congr ((complete_mrc _ _ _).trans ((storePlan_mrc n plan q).trans m)) r
    all_goals rw [complete_port, f, e]
    · exact s
    · exact t
    · exact d
  unfold Machine.applyWaiting
  dsimp only
  split
  · refine lawAt.complete ?_ _ _
    obtain ⟨b, c, f⟩ := storePlan_record n plan p
    refine (sent_moveTo n .off _ rfl (by decide) (fun _ => rfl)).law ?_ (storePlan_handAt H n plan p) ?_
    · exact awake_of_running (running_congr (storePlan_mrc n plan p) r)
    · rw [f]; exact d
  split
  · split
    · refine tested _ ((giveStamp_mrc n _).trans (setGrant_mrc n _ p)) ?_
      obtain ⟨⟨k, e⟩, -⟩ := giveStamp_record n n (Machine.setGrant n (fullRequest plan (p.port n).identity) p)
      rw [e, setGrant_port_self]
      exact ⟨_, k, rfl⟩
    · exact h.complete _ _
  · refine tested _ (setGrant_mrc n _ p) ?_
    rw [setGrant_port_self]
    exact ⟨_, (p.port n).stamp, rfl⟩

theorem lawAt.retarget (h : lawAt H n p) : lawAt H n (retarget n p) := by
  refine h.updPort ⟨rfl, rfl, ?_, rfl, rfl, rfl, rfl⟩
  cases (p.port n).drain <;> rfl

theorem adoptGrant_law (h : lawAt H n p) (plan : Plan) : lawAt H n (adoptGrant n plan p) := by
  unfold adoptGrant
  split
  · split
    · exact (h.setGrant _).giveStamp n
    · exact h.setFlags
  · exact h.setGrant _

theorem adoptGrant_mrc (n : Port) (plan : Plan) (p : Part) : (adoptGrant n plan p).mrc = p.mrc := by
  unfold adoptGrant
  split
  · split
    · rw [giveStamp_mrc, setGrant_mrc]
    · rw [setFlags_mrc]
  · rw [setGrant_mrc]

theorem adoptStored_law (h : lawAt H n p) (r : p.mrc.phase = .running) (s : (p.port n).state = .orphan) (plan : Plan) :
    lawAt H n (adoptStored n plan p) := by
  have r' : (adoptGrant n plan p).mrc.phase = .running := running_congr (adoptGrant_mrc n plan p) r
  have st : lawAt H n (storePlan n plan (adoptGrant n plan p)) := by
    refine (adoptGrant_law h plan).storePlan (awake_of_running r') plan ?_
    rw [adoptGrant_state, s]; exact fun y => nomatch y
  have r'' : (storePlan n plan (adoptGrant n plan p)).mrc.phase = .running := running_congr (storePlan_mrc n plan _) r'
  have s' : ((storePlan n plan (adoptGrant n plan p)).port n).state = .orphan := by
    rw [storePlan_state, adoptGrant_state]; exact s
  refine lawAt.complete (lawAt_running ?_ ?_ ?_ ?_ ?_) _ _
  · rw [updPort_mrc]; exact r''
  · rw [updPort_port_self]; exact st.timers
  · rw [updPort_port_self]; exact st.deferred
  · rw [updPort_port_self]; exact st.waiting
  · refine handAt_congr (st.handAt (awake_of_running r'') (by rw [s']; decide)) (by simp) (by simp) ?_
    rw [updPort_port_self]

theorem lawAt.adopt (h : lawAt H n p) (r : p.mrc.phase = .running) (s : (p.port n).state = .orphan) (plan : Plan) :
    lawAt H n (adopt n plan p) := by
  have a := adoptStored_law h r s plan
  have ra : (adoptStored n plan p).mrc.phase = .running := by
    refine running_congr ?_ r
    unfold adoptStored
    rw [complete_mrc, updPort_mrc, storePlan_mrc, adoptGrant_mrc]
  rw [adopt_eq]
  split
  · exact (h.withdraw (.inr s) plan).complete _ _
  split
  · exact h.complete _ _
  split
  · exact h.complete _ _
  split
  · exact h.complete _ _
  split
  · refine lawAt_admitOrphan ra (a.handAt (awake_of_running ra) ?_)
    rw [adoptStored_state, s]; decide
  · exact a

/-- A request kept for a port in RAMP or SETTLE. -/
theorem lawAt.defer (h : lawAt H n p) (plan : Plan)
    (s : (p.port n).state = .ramp ∨ ((p.port n).state = .settle ∧ (p.port n).flags.noPhase = false)) :
    lawAt H n (Machine.updPort n (fun r => { r with deferred := some plan }) p) := by
  have r : p.mrc.phase = .running := h.running (by rcases s with s | ⟨s, -⟩ <;> rw [s] <;> rfl)
  refine lawAt_running ?_ ?_ ?_ ?_ ?_
  · rw [updPort_mrc]; exact r
  · rw [updPort_port_self]; exact h.timers
  · rw [updPort_port_self]; exact fun _ => s
  · rw [updPort_port_self]; exact h.waiting
  · refine handAt_congr (h.handAt (awake_of_running r) ?_) (by simp) (by simp) ?_
    · rcases s with s | ⟨s, -⟩ <;> rw [s] <;> decide
    · rw [updPort_port_self]

/-- A plan stored in a state that is neither SETTLE nor, for the move, DRAIN: the port may be sent on. -/
theorem lawAt_stored_sent (r : p.mrc.phase = .running) (plan : Plan) (d : (p.port n).deferred = none)
    (s : Sent n (storePlan n plan p) q) : lawAt H n q := by
  obtain ⟨b, c, e⟩ := storePlan_record n plan p
  refine s.law (awake_of_running (running_congr (storePlan_mrc n plan p) r)) (storePlan_handAt H n plan p) ?_
  rw [e]; exact d

theorem lawAt.applyByState (h : lawAt H n p) (r : p.mrc.phase = .running) (plan : Plan) : lawAt H n (applyByState n plan p) := by
  have stored (s : (p.port n).state ≠ .settle) : lawAt H n (Machine.storePlan n plan p) :=
    h.storePlan (awake_of_running r) plan (fun y => absurd y s)
  have sent (q : Part) (x : (p.port n).state ≠ .ramp) (y : (p.port n).state ≠ .settle)
      (k : Sent n (Machine.storePlan n plan p) q) : lawAt H n q := lawAt_stored_sent r plan (h.deferred_none x y) k
  have off : Sent n (Machine.storePlan n plan p) (moveTo n .off (Machine.storePlan n plan p)) :=
    sent_moveTo n .off _ rfl (by decide) (fun _ => rfl)
  unfold Machine.applyByState
  dsimp only
  split
  next s => exact (stored (by rw [s]; decide)).complete _ _
  next s => exact (stored (by rw [s]; decide)).complete _ _
  next s =>
    refine lawAt.complete ?_ _ _
    split
    · exact sent _ (by rw [s]; decide) (by rw [s]; decide) off
    · exact stored (by rw [s]; decide)
  next s =>
    refine lawAt.complete ?_ _ _
    split
    · exact sent _ (by rw [s]; decide) (by rw [s]; decide) off
    · exact stored (by rw [s]; decide)
  next s => exact (stored (by rw [s]; decide)).retarget.complete _ _
  next s =>
    refine lawAt.complete ?_ _ _
    split
    · exact stored (by rw [s]; decide)
    · have law := (stored (by rw [s]; decide)).setFlags (f := fun f => { f with left := false })
      have s' : ((Machine.setFlags n (fun f => { f with left := false }) (Machine.storePlan n plan p)).port n).state = .off := by
        rw [setFlags_port_self, storePlan_state]; exact s
      have a := law.awake (by rw [s']; decide)
      exact (sent_toQueued n _).law a (law.handAt a (by rw [s']; decide))
        (law.deferred_none (by rw [s']; decide) (by rw [s']; decide))
  next s =>
    refine lawAt.complete ?_ _ _
    split
    · exact sent _ (by rw [s]; decide) (by rw [s]; decide) off
    · exact stored (by rw [s]; decide)
  next s =>
    refine lawAt.complete ?_ _ _
    split
    · exact sent _ (by rw [s]; decide) (by rw [s]; decide) off
    split
    · exact sent _ (by rw [s]; decide) (by rw [s]; decide) (sent_toQueued n _)
    · exact stored (by rw [s]; decide)
  next s => exact h.defer plan (.inl s)
  next s =>
    split
    next x => exact h.applyWaiting s x plan
    next x => exact h.defer plan (.inr ⟨s, eq_false_of_ne_true x⟩)
  next s => exact h.applyInOn s plan
  next s => exact h.adopt r s plan

/-- A deferred request is applied in the state its port has come to. -/
theorem lawBut.applyDeferred (h : lawBut H n p) (r : (p.port n).deferred ≠ none → p.mrc.phase = .running) :
    lawAt H n (applyDeferred n p) := by
  unfold Machine.applyDeferred
  split
  next d => exact h.law d
  next plan d => exact lawAt.applyByState h (running_congr (takeDeferred_mrc n p) (r (by rw [d]; exact fun y => nomatch y))) plan

/-- A port is sent on and its deferred request applied there. -/
theorem lawAt.sent_applyDeferred (h : lawAt H n p) (a : Machine.awake p) (s : (p.port n).state ≠ .drain) (k : Sent n p q) :
    lawAt H n (applyDeferred n q) := by
  refine (k.but a (h.handAt a s)).applyDeferred (fun d => ?_)
  rw [k.deferred] at d
  refine running_congr k.mrc (h.running ?_)
  rcases h.deferred d with e | ⟨e, -⟩ <;> rw [e] <;> rfl

theorem lawAt.deliverApply (h : lawAt H n p) (r : p.mrc.phase = .running) (plan : Option Plan) :
    lawAt H n (deliverApply n plan p) := by
  unfold Machine.deliverApply
  split
  · exact h.complete _ _
  · split
    · exact h.complete _ _
    split
    · exact h.complete _ _
    · exact h.applyByState r _

theorem lawAt.clearFault (h : lawAt H n p) (s : (p.port n).state = .fault) : lawAt H n (clearFault n p) := by
  have c : lawAt H n (Machine.updPort n (fun r => { r with cause := none, restartCount := 0 }) p) := h.updPort
  have s' : ((Machine.updPort n (fun r => { r with cause := none, restartCount := 0 }) p).port n).state = .fault := by
    rw [updPort_port_self]; exact s
  have a := c.awake (by rw [s']; decide)
  have k := c.handAt a (by rw [s']; decide)
  have d := c.deferred_none (by rw [s']; decide) (by rw [s']; decide)
  unfold Machine.clearFault
  dsimp only
  split
  · exact (sent_moveTo n .off _ rfl (by decide) (fun _ => rfl)).law a k d
  · exact (sent_toQueued n _).law a k d

theorem lawAt.clearRequest (h : lawAt H n p) : lawAt H n (clearRequest n p) := by
  unfold Machine.clearRequest
  refine lawAt.complete ?_ _ _
  split
  next s => exact h.clearFault s
  · exact h

theorem lawAt.restartRequest (h : lawAt H n p) : lawAt H n (restartRequest n p) := by
  unfold Machine.restartRequest
  split
  next s => exact (h.startDrain (.inl s) _).complete _ _
  next s => exact (h.clearFault s).complete _ _
  · exact h.complete _ _

/-! ### Failures -/

theorem isFailure_closed {c : FaultCause} {st : PortState} (h : isFailure c st = true) : st.closed = true := by
  revert h
  cases c <;> cases st <;> decide

theorem lawAt.failPort (h : lawAt H n p) (c : FaultCause) : lawAt H n (failPort n c p) := by
  unfold Machine.failPort
  split
  · exact h
  next f =>
    have cl : (p.port n).state.closed = true := isFailure_closed (by simpa using f)
    have recd : lawAt H n (Machine.updPort n (recordFailure c) p) := h.updPort
    have st : ((Machine.updPort n (recordFailure c) p).port n).state = (p.port n).state := by rw [updPort_port_self]; rfl
    have a : Machine.awake (Machine.updPort n (recordFailure c) p) := recd.awake (by rw [st]; intro e; rw [e] at cl; cases cl)
    dsimp only
    split
    next s => exact recd.endDrain s
    next s =>
      split
      · have up : lawAt H n (Machine.updPort n (fun r => { r with restartCount := r.restartCount + 1 })
            (Machine.updPort n (recordFailure c) p)) := recd.updPort
        refine up.sent_applyDeferred ((awake_congr (by simp)).2 a) ?_ (sent_toRestartWait n _)
        rw [updPort_port_self]; exact s
      · exact recd.sent_applyDeferred a s (sent_moveTo n .fault _ rfl (by decide) (fun _ => rfl))

theorem lawAt.laneLost (h : lawAt H n p) : lawAt H n (laneLost n p) := by
  unfold Machine.laneLost
  split
  next s => exact h.endDrain s
  · exact h.failPort _

/-! ### HELLO, LEAVE and shed orders -/

theorem lawAt.askFull (h : lawAt H n p) : lawAt H n (askFull n p) := by
  unfold Machine.askFull
  split
  · exact h.mapBu _
  · exact h.joinQueue _

theorem lawAt.helloTaken (h : lawAt H n p) (i : Identity) : lawAt H n (helloTaken n i p) := by
  unfold Machine.helloTaken
  split
  · exact h
  next s =>
    have s : (p.port n).state = .probe := Decidable.not_not.1 s
    have r : p.mrc.phase = .running := h.running (by rw [s]; rfl)
    obtain ⟨b, e⟩ := refreshAsk_eq { p.port n with identity := some i, timers := { (p.port n).timers with hello := none } }
    refine (lawAt.reportPort (lawAt_running ?_ ?_ ?_ ?_ ?_) n true).askFull
    · rw [updPort_mrc]; exact r
    · rw [updPort_port_self, e]
      have t := h.timers
      unfold timersFit at t ⊢
      obtain ⟨deb, -, rest⟩ := t
      exact ⟨deb, fun y => absurd rfl y, rest⟩
    · rw [updPort_port_self, e]; exact h.deferred
    · rw [updPort_port_self, e]; exact h.waiting
    · refine handAt_congr (h.handAt (awake_of_running r) (by rw [s]; decide)) (by simp) (by simp) ?_
      rw [updPort_port_self, e]

/-- A starting port that leaves goes to OFF, and its deferred request is applied there. -/
theorem lawAt.leaves (h : lawAt H n p) (e : (p.port n).state ≠ .empty) (s : (p.port n).state ≠ .drain) :
    lawAt H n (Machine.applyDeferred n (Machine.setFlags n (fun f => { f with left := true }) (moveTo n .off p))) :=
  h.sent_applyDeferred (h.awake e) s ((sent_moveTo n .off p rfl (by decide) (fun _ => rfl)).setFlags _)

theorem lawAt.leaveTaken (h : lawAt H n p) : lawAt H n (leaveTaken n p) := by
  unfold Machine.leaveTaken
  split
  next s => exact h.startDrain (.inl s) _
  next s => exact h.startDrain (.inr s) _
  next s => exact h.leaves (by rw [s]; decide) (by rw [s]; decide)
  next s => exact h.leaves (by rw [s]; decide) (by rw [s]; decide)
  next s => exact h.leaves (by rw [s]; decide) (by rw [s]; decide)
  · exact h

theorem lawAt.shedTaken (h : lawAt H n p) : lawAt H n (shedTaken n p) := by
  unfold Machine.shedTaken
  split
  next s => exact h.sent_applyDeferred (h.awake (by rw [s]; decide)) (by rw [s]; decide) (sent_toQueued n p)
  next s => exact h.sent_applyDeferred (h.awake (by rw [s]; decide)) (by rw [s]; decide) (sent_toQueued n p)
  next s => exact h.sent_applyDeferred (h.awake (by rw [s]; decide)) (by rw [s]; decide) (sent_toQueued n p)
  next s => exact h.startDrain (.inl s) _
  next s => exact h.startDrain (.inr s) _
  · exact h.mapBu _

theorem lawAt.noOutstanding (h : lawAt H n p) : lawAt H n (noOutstanding n p) := by
  unfold Machine.noOutstanding
  split
  next s =>
    split
    · split
      · exact h.enterGrace s
      · exact h
    · exact h
  next s =>
    split
    next ad =>
      have a : Machine.awake p := h.awake (by rw [s]; decide)
      have r : p.mrc.phase = .running := a.resolve_right (fun r => by rw [(h.riding r).2 s] at ad; cases ad)
      exact lawAt_admitOrphan r (h.handAt a (by rw [s]; decide))
    · exact h
  next s =>
    split
    · exact h.updLane _ _
    · exact h
  · exact h

/-! ### Frames and lanes -/

theorem lawAt.checkError (h : lawAt H n p) : lawAt H n (checkError n p) := h.updPort

theorem lawAt.setLane (h : lawAt H n p) (m : Port) (l : Lane) : lawAt H n (p.setLane m l) :=
  h.congr rfl rfl rfl rfl rfl rfl rfl rfl rfl

theorem lawAt.reopenLane (h : lawAt H n p) (i : Identity) : lawAt H n (reopenLane n i p) := by
  have re : lawAt H n (Machine.reportPort n true (Machine.updPort n (·.rehello i) (p.setLane n (p.lane n).reopened))) := by
    refine lawAt.reportPort ((h.setLane n _).updPort ?_) n true
    obtain ⟨b, e⟩ := refreshAsk_eq { p.port n with identity := some i, flags := { (p.port n).flags with rehello := true } }
    unfold PortRecord.rehello
    rw [Part.setLane_port, e]
    exact ⟨rfl, rfl, rfl, rfl, rfl, rfl, rfl⟩
  unfold Machine.reopenLane
  dsimp only
  split
  · exact re.updLane _ _
  · exact re.updLane _ _

theorem lawAt.takeHello (h : lawAt H n p) (i : Identity) : lawAt H n (takeHello n i p) := by
  unfold Machine.takeHello
  split
  · exact h.helloTaken i
  split
  · exact h.reopenLane i
  · exact h.checkError

theorem lawAt.freeTag (h : lawAt H n p) (tag : Fin 4) : lawAt H n (freeTag n tag p) := by
  unfold Machine.freeTag
  dsimp only
  split
  · exact (h.updLane _ _).noOutstanding
  · exact h.updLane _ _

theorem lawAt.answerSent (h : lawAt H n p) (a : Answer) : lawAt H n (answerSent n a p) := by
  unfold Machine.answerSent
  split
  · exact (h.freeTag _).updLane _ _
  · exact h.updLane _ _

theorem lawAt.accessDone (h : lawAt H n p) (a : Answer) : lawAt H n (accessDone n a p) := by
  unfold Machine.accessDone
  split
  · exact h.freeTag _
  · exact h.updLane _ _
  · exact h
  · exact h

theorem lawAt.silenceExpired (h : lawAt H n p) : lawAt H n (silenceExpired n p) := (h.updLane _ _).laneLost

/-! ### Samples -/

/-- A change of the sequencer that keeps the port views. -/
theorem lawAt.mapMs (h : lawAt H n p) {f : Sequencer → Sequencer} (k : (f p.ms).views = p.ms.views) : lawAt H n (p.mapMs f) := by
  refine h.congr rfl ?_ rfl rfl rfl rfl rfl rfl rfl
  unfold Part.handed
  rw [Part.mapMs_ptp, Part.mapMs_mo, Part.mapMs_ms, k]

theorem lawAt.clearCounts (h : lawAt H n p) (m : Port) : lawAt H n (clearCounts m p) :=
  h.mapMs (f := fun x => { x with overCount := x.overCount.put m 0, rampCount := x.rampCount.put m 0 }) rfl

/-- A ramp that is done: the settle timer starts. -/
theorem lawAt.rampDone (h : lawAt H n p) : lawAt H n (rampDone n p) := by
  unfold Machine.rampDone
  split
  next s =>
    have e := moveTo_port_self n .settle p
    have r : p.mrc.phase = .running := h.running (by rw [s]; rfl)
    refine lawAt_running ?_ ?_ ?_ ?_ ?_
    · simpa using r
    · rw [setTimers_port_self]
      unfold timersFit
      dsimp only
      rw [e.timers, e.state, e.noPhase]
      simp [stoppedTimers]
    · rw [setTimers_port_self]; dsimp only; exact fun _ => .inr ⟨e.state, e.noPhase⟩
    · rw [setTimers_port_self]; dsimp only; rw [e.noPhase]; exact fun _ y => nomatch y
    · refine handAt_congr (h.handAt (awake_of_running r) (by rw [s]; decide)) (by simp) ?_ ?_
      · rw [setTimers_handed, moveTo_handed]
      · rw [setTimers_port_self]; dsimp only; exact e.plan
  · exact h

/-! ### A grant -/

theorem dropEntry_law (h : lawAt H n p) (m : Port) : lawAt H n (dropEntry m p) := by
  unfold dropEntry
  split
  · by_cases e : m = n
    · subst e
      exact (h.mapBu _).setFlags
    · exact (h.mapBu _).of_aside (by simp) (setFlags_aside e _ _) (by rw [setFlags, updPort_handed])
  · exact h

/-- A grant in PROBE or RAMP starts the timer of its state. -/
theorem lawAt_granted {st : PortState} (r : p.mrc.phase = .running) (k : handAt H n p) (d : (p.port n).deferred = none)
    (g : Nat) (f : PortTimers → PortTimers) (s : st ≠ .settle)
    (t : ∀ x : PortRecord, x.state = st → x.timers = f stoppedTimers → x.drain = none → timersFit x) (c : st ≠ .drain) :
    lawAt H n (setTimers n f (setGrant n g (moveTo n st p))) := by
  have e := moveTo_port_self n st p
  have port : (setTimers n f (setGrant n g (moveTo n st p))).port n =
      { (moveTo n st p).port n with grant := g, timers := f ((moveTo n st p).port n).timers } := by
    rw [setTimers_port_self, setGrant_port_self]
  refine lawAt_running ?_ ?_ ?_ ?_ ?_
  · simpa using r
  · rw [port]
    refine t _ e.state (by dsimp only; rw [e.timers]) ?_
    dsimp only
    rw [e.drain, if_neg c]
  · rw [port]; dsimp only; rw [e.deferred]; exact fun y => absurd d y
  · rw [port]; dsimp only; rw [e.state]; exact fun y => absurd y s
  · refine handAt_congr k (by simp) ?_ ?_
    · rw [setTimers_handed, setGrant_handed, moveTo_handed]
    · rw [port]; dsimp only; exact e.plan

/-- A grant of an entry whose port runs, with nothing deferred. -/
theorem lawAt_grant {e : Entry} (r : p.mrc.phase = .running) (k : handAt H e.port p) (d : (p.port e.port).deferred = none) :
    lawAt H e.port (grant e p) := by
  have stamped : ∃ b x, (giveStamp e.port (dropEntry e.port p)).port e.port =
      { p.port e.port with flags := b, stamp := x } := by
    obtain ⟨⟨x, f⟩, -⟩ := giveStamp_record e.port e.port (dropEntry e.port p)
    obtain ⟨b, g, -⟩ := dropEntry_port_self e.port p
    rw [f, g]
    exact ⟨b, x, rfl⟩
  obtain ⟨b, x, f⟩ := stamped
  have mrc : (giveStamp e.port (dropEntry e.port p)).mrc = p.mrc := (giveStamp_mrc _ _).trans (dropEntry_mrc _ _)
  have r' := running_congr mrc r
  have k' : handAt H e.port (giveStamp e.port (dropEntry e.port p)) := by
    refine handAt_congr k (congrArg ModeReset.phase mrc) ?_ (by rw [f])
    rw [giveStamp_handed, dropEntry_handed]
  have d' : ((giveStamp e.port (dropEntry e.port p)).port e.port).deferred = none := by rw [f]; exact d
  unfold grant grantPort
  split
  · refine lawAt_granted r' k' d' _ _ (by decide) ?_ (by decide)
    intro y s t _
    unfold timersFit
    rw [t, s]
    simp [stoppedTimers]
  · refine lawAt.clearCounts (lawAt_granted r' k' d' _ _ (by decide) ?_ (by decide)) _
    intro y s t _
    unfold timersFit
    rw [t, s]
    simp [stoppedTimers, Config.rampMs]

end

end Sys2Proof.Machine
end

