-- ==== Sys2Proof/Proofs/Orderly.lean ====
section
/-! The port laws of the whole part, with the law of the grant queue and the stillness of the area engine in a hold (`orderly`), kept by
the operations of the blocks. -/

namespace Sys2Proof.Machine

/-- The law of the grant queue alone is asked for. -/
def queueAsked : Asked := { Asked.nothing with queued := True }

/-- The copy read in flight whose record will be delivered. -/
def liveCopy (p : Part) : Option Source :=
  match p.mo.inFlight with
  | some (.copyRead s _ _ false) => some s
  | _ => none

theorem liveCopy_none_iff (p : Part) :
    liveCopy p = none ↔ ∀ s a l, p.mo.inFlight ≠ some (.copyRead s a l false) := by
  unfold liveCopy
  split
  next s a l e => simp [e]
  next k => simpa using k

/-- Outside running the area engine is still. -/
def still (p : Part) : Prop := p.mrc.phase ≠ .running → p.ae.quiet = true ∧ liveCopy p = none

/-- The laws of the ports at every port, the law of the grant queue, and stillness in a hold. -/
structure orderly (H : Prop) (p : Part) : Prop where
  ports : ∀ n, lawAt H n p
  queue : partOk queueAsked p
  still : still p

/-- Nothing that `orderly` looks at has changed. -/
structure Same (q p : Part) : Prop where
  ports : q.ports = p.ports
  queue : q.bu.queue = p.bu.queue
  handed : ∀ n, q.handed n = p.handed n
  phase : q.mrc.phase = p.mrc.phase
  quiet : q.ae.quiet = p.ae.quiet
  live : liveCopy q = liveCopy p

theorem Same.refl (p : Part) : Same p p := ⟨rfl, rfl, fun _ => rfl, rfl, rfl, rfl⟩

theorem Same.trans {p q r : Part} (h : Same r q) (g : Same q p) : Same r p :=
  ⟨h.ports.trans g.ports, h.queue.trans g.queue, fun n => (h.handed n).trans (g.handed n), h.phase.trans g.phase,
    h.quiet.trans g.quiet, h.live.trans g.live⟩

theorem partOk_queue_congr {p q : Part} (h : partOk queueAsked p) (ports : q.ports = p.ports) (queue : q.bu.queue = p.bu.queue) :
    partOk queueAsked q := by
  have e : queueLaw q ↔ queueLaw p := by
    unfold queueLaw Part.port
    rw [ports, queue]
  exact (queueLaw_iff q).1 (e.2 ((queueLaw_iff p).2 h))

theorem lawAt.of_ports {H : Prop} {n : Port} {p q : Part} (h : lawAt H n p) (ports : q.ports = p.ports)
    (handed : q.handed n = p.handed n) (phase : q.mrc.phase = p.mrc.phase) : lawAt H n q := by
  have e : q.port n = p.port n := by unfold Part.port; rw [ports]
  exact h.congr phase handed (by rw [e]) (by rw [e]) (by rw [e]) (by rw [e]) (by rw [e]) (by rw [e]) (by rw [e])

theorem orderly.same {H : Prop} {p q : Part} (h : orderly H p) (s : Same q p) : orderly H q := by
  refine ⟨fun n => (h.ports n).of_ports s.ports (s.handed n) s.phase, partOk_queue_congr h.queue s.ports s.queue, ?_⟩
  unfold Machine.still
  rw [s.phase, s.quiet, s.live]
  exact h.still

/-! ### What changes nothing the laws look at -/

theorem Same.of_aeOnly {p q : Part} (h : AeOnly q p) (quiet : q.ae.quiet = p.ae.quiet) : Same q p := by
  obtain ⟨ports, bu, ms, -, mo, ptp, mrc⟩ := h
  refine ⟨ports, by rw [bu], fun n => handed_of n ptp mo ms, by rw [mrc], quiet, ?_⟩
  unfold liveCopy
  rw [mo]

theorem Same.queueWriteBack (t : Target) (p : Part) : Same (queueWriteBack t p) p :=
  .of_aeOnly (AeOnly.queueWriteBack t p) (Part.quiet_of_fixed (queueWriteBack_fixed t p))

theorem Same.reportPort (n : Port) (m : Bool) (p : Part) : Same (reportPort n m p) p :=
  .of_aeOnly (AeOnly.reportPort n m p) (Part.quiet_of_fixed (reportPort_fixed n m p))

theorem Same.reportDevice (m : Bool) (p : Part) : Same (reportDevice m p) p :=
  .of_aeOnly (AeOnly.reportDevice m p) (Part.quiet_of_fixed (reportDevice_fixed m p))

theorem Same.setRequest (w : ReqWord) (r : Request) (p : Part) : Same (p.setRequest w r) p :=
  .of_aeOnly (AeOnly.setRequest w r p) (Part.quiet_of_fixed (setRequest_fixed w r p))

theorem Same.complete (w : ReqWord) (r : Result) (p : Part) : Same (complete w r p) p :=
  .of_aeOnly (AeOnly.complete w r p) (Part.quiet_of_fixed (complete_fixed w r p))

theorem Same.mapAe {f : AreaEngine → AreaEngine} (p : Part) (quiet : (f p.ae).quiet = p.ae.quiet) : Same (p.mapAe f) p :=
  .of_aeOnly (AeOnly.mapAe f p) quiet

theorem Same.setSummary (m : Word) (p : Part) : Same (setSummary m p) p := by
  unfold Machine.setSummary
  split
  · exact .refl p
  · exact (Same.queueWriteBack _ _).trans (.mapAe p rfl)

theorem Same.reportError (b : ErrorBit) (p : Part) : Same (reportError b p) p := by
  unfold Machine.reportError
  split
  · exact .refl p
  · exact (Same.setSummary _ _).trans ((Same.queueWriteBack _ _).trans (.mapAe p rfl))

theorem Same.mapMs {f : Sequencer → Sequencer} (p : Part) (views : (f p.ms).views = p.ms.views) : Same (p.mapMs f) p := by
  refine ⟨rfl, rfl, fun n => ?_, rfl, rfl, rfl⟩
  unfold Part.handed
  rw [Part.mapMs_ptp, Part.mapMs_mo, Part.mapMs_ms, views]

theorem Same.mapMo {f : Orderer → Orderer} (p : Part) (classes : (f p.mo).classMap = p.mo.classMap)
    (live : (f p.mo).inFlight = p.mo.inFlight) : Same (p.mapMo f) p := by
  refine ⟨rfl, rfl, fun n => ?_, rfl, rfl, ?_⟩
  · unfold Part.handed
    rw [Part.mapMo_ptp, Part.mapMo_mo, Part.mapMo_ms, classes]
  · unfold liveCopy
    rw [Part.mapMo_mo, live]

theorem Same.mapPtp {f : PassThrough → PassThrough} (p : Part) (windows : (f p.ptp).windows = p.ptp.windows) :
    Same (p.mapPtp f) p := by
  refine ⟨rfl, rfl, fun n => ?_, rfl, rfl, rfl⟩
  unfold Part.handed
  rw [Part.mapPtp_ptp, Part.mapPtp_mo, Part.mapPtp_ms, windows]

theorem Same.mapMrc {f : ModeReset → ModeReset} (p : Part) (phase : (f p.mrc).phase = p.mrc.phase) : Same (p.mapMrc f) p :=
  ⟨rfl, rfl, fun _ => rfl, phase, rfl, rfl⟩

theorem Same.mapBu {f : Budget → Budget} (p : Part) (queue : (f p.bu).queue = p.bu.queue) : Same (p.mapBu f) p :=
  ⟨rfl, queue, fun _ => rfl, rfl, rfl, rfl⟩

theorem Same.updLane (n : Port) (f : Lane → Lane) (p : Part) : Same (updLane n f p) p :=
  ⟨rfl, rfl, fun _ => rfl, rfl, rfl, rfl⟩

theorem Same.sheds {p q : Part} (s : ShedsOnly q p) : Same q p := by
  obtain ⟨l, o, rfl⟩ := s
  exact .mapBu p rfl

theorem Same.budgetTest (p : Part) : Same (budgetTest p) p := by
  unfold Machine.budgetTest
  split
  · exact .refl p
  · exact (Same.reportDevice _ _).trans (.mapBu p rfl)

theorem Same.shortfallTest (p : Part) : Same (shortfallTest p) p := by
  unfold Machine.shortfallTest
  split
  · exact .refl p
  · exact (Same.reportDevice _ _).trans (.mapBu p rfl)

theorem Same.beforeDecision (p : Part) : Same (beforeDecision p) p := by
  unfold Machine.beforeDecision
  split
  · exact (Same.sheds (shedStep_only _)).trans (.budgetTest p)
  · exact .budgetTest p

/-! ### Actions -/

/-- The record of a port at which nothing acts changes its stamp at most. -/
theorem Acts.record {S : Port → Prop} {p q : Part} (h : Acts S p q) {m : Port} (hm : ¬S m) :
    ∃ k, q.port m = { p.port m with stamp := k } := by
  have ne {n : Port} (hn : S n) : n ≠ m := fun e => hm (e ▸ hn)
  induction h with
  | refl => exact ⟨(p.port m).stamp, rfl⟩
  | move _ hn st ih => rw [moveTo_port_ne (ne hn)]; exact ih
  | upd _ hn k ih => rw [updPort_port_ne (ne hn)]; exact ih
  | identify _ hn k ih => rw [reportPort_port, updPort_port_ne (ne hn)]; exact ih
  | unplug _ hn e ih => rw [updPort_port_ne (ne hn), moveTo_port_ne (ne hn)]; exact ih
  | @enterOn q n _ hn off ih =>
    unfold startOnTime
    rw [updPort_port_ne (ne hn), moveTo_port_ne (ne hn)]
    exact ih
  | setGrant _ hn c g ih => rw [setGrant_port_ne (ne hn)]; exact ih
  | setLane _ hn l ih => exact ih
  | @stamp q _ n k ih =>
    obtain ⟨x, e⟩ := ih
    by_cases f : n = m
    · subst f
      rw [updPort_port_self, e]
      exact ⟨k, rfl⟩
    · rw [updPort_port_ne f]
      exact ⟨x, e⟩
  | mapBu _ k ih => exact ih
  | order _ _ ih => exact ih
  | handOver _ hn ih => exact ih
  | window _ hn w ih => exact ih
  | counts _ hn ih => exact ih
  | complete _ hn r ih => rw [complete_port]; exact ih
  | report _ n b ih => rw [reportPort_port]; exact ih
  | budgetTest _ ih => rw [(budgetTest_keeps _).2.2]; exact ih
  | shortfallTest _ ih => rw [(shortfallTest_keeps _).2.2]; exact ih

theorem liveCopy_of_mo {p q : Part} (h : q.mo = p.mo) : liveCopy q = liveCopy p := by
  unfold liveCopy
  rw [h]

theorem liveCopy_cancelAccesses (n : Port) (p : Part) : liveCopy (cancelAccesses n p) = liveCopy p := by
  unfold liveCopy cancelAccesses
  rw [Part.mapMo_mo]
  dsimp only
  rcases p.mo.inFlight with _ | f
  · rfl
  · cases f <;> rfl

theorem liveCopy_moveTo (n : Port) (st : PortState) (p : Part) : liveCopy (moveTo n st p) = liveCopy p := by
  have opened : liveCopy (switchOpened n p) = liveCopy p := by
    rw [← liveCopy_cancelAccesses n p]
    refine liveCopy_of_mo ?_
    unfold switchOpened
    dsimp only
    split
    · rfl
    · rw [reportDevice_mo]; rfl
  have entered (q : Part) : liveCopy (updLane n (·.enterTimers st) (laneFollow n (updPort n (·.enter st) (dropEntry n q)))) = liveCopy q := by
    refine liveCopy_of_mo ?_
    rw [updLane_mo, (laneFollow_keeps n _).2.2.1, updPort_mo, dropEntry_mo]
  unfold moveTo
  dsimp only
  rw [entered]
  split
  · exact opened
  · rfl

/-- No action touches a copy read in flight. -/
theorem Acts.live {S : Port → Prop} {p q : Part} (h : Acts S p q) : liveCopy q = liveCopy p := by
  induction h with
  | refl => rfl
  | move _ hn st ih => rw [liveCopy_moveTo]; exact ih
  | upd _ hn k ih => rw [liveCopy_of_mo (updPort_mo _ _ _)]; exact ih
  | identify _ hn k ih => rw [(Same.reportPort _ true _).live, liveCopy_of_mo (updPort_mo _ _ _)]; exact ih
  | unplug _ hn ne ih => rw [liveCopy_of_mo (updPort_mo _ _ _), liveCopy_moveTo]; exact ih
  | enterOn _ hn off ih => unfold startOnTime; rw [liveCopy_of_mo (updPort_mo _ _ _), liveCopy_moveTo]; exact ih
  | setGrant _ hn c g ih => rw [liveCopy_of_mo (setGrant_cases _ g _).2.2.2.2.1]; exact ih
  | setLane _ hn l ih => exact ih
  | stamp _ n k ih => rw [liveCopy_of_mo (updPort_mo _ _ _)]; exact ih
  | mapBu _ k ih => exact ih
  | order _ _ ih => exact ih
  | handOver _ hn ih => exact ih
  | window _ hn w ih => exact ih
  | counts _ hn ih => exact ih
  | complete _ hn r ih => rw [(Same.complete _ r _).live]; exact ih
  | report _ n b ih => rw [(Same.reportPort n b _).live]; exact ih
  | budgetTest _ ih => rw [(Same.budgetTest _).live]; exact ih
  | shortfallTest _ ih => rw [(Same.shortfallTest _).live]; exact ih

theorem Acts.still {S : Port → Prop} {p q : Part} (h : Acts S p q) (s : still p) : still q := by
  unfold Machine.still
  rw [h.mrc, Part.quiet_of_fixed h.fixed, h.live]
  exact s

/-- A port at which nothing acts keeps its laws. -/
theorem lawAt.acts {H : Prop} {S : Port → Prop} {m : Port} {p q : Part} (h : lawAt H m p) (a : Acts S p q) (hm : ¬S m) :
    lawAt H m q := by
  obtain ⟨k, e⟩ := a.record hm
  refine h.congr (congrArg ModeReset.phase a.mrc) (a.handed hm) ?_ ?_ ?_ ?_ ?_ ?_ ?_ <;> rw [e]

/-- The port `n` alone. -/
def only (n m : Port) : Prop := m = n

theorem only_self (n : Port) : only n n := rfl

section
variable {H : Prop} {n : Port} {p q : Part}

/-- Actions at one port keep the laws if they keep them there. -/
theorem orderly.own (h : orderly H p) (a : Acts (only n) p q) (l : lawAt H n p → lawAt H n q)
    (k : partOk queueAsked p → partOk queueAsked q) : orderly H q := by
  refine ⟨fun m => ?_, k h.queue, a.still h.still⟩
  by_cases e : m = n
  · exact e ▸ l (h.ports n)
  · exact (h.ports m).acts a e

/-- A change of one record keeps the laws if it keeps them there. -/
theorem orderly.updPort (h : orderly H p) {f : PortRecord → PortRecord} (l : lawAt H n p → lawAt H n (updPort n f p))
    (k : ∀ r, (f r).state = r.state ∧ (f r).grant = r.grant ∧ (f r).drain = r.drain ∧ (f r).plan.laneUse = r.plan.laneUse) :
    orderly H (Machine.updPort n f p) := by
  refine ⟨fun m => ?_, partOk_updPort h.queue k, ?_⟩
  · by_cases e : n = m
    · exact e ▸ l (h.ports n)
    · exact (h.ports m).of_aside (updPort_mrc n f p) (updPort_aside e f p) (updPort_handed n m f p)
  · unfold Machine.still
    rw [updPort_mrc, Part.quiet_of_fixed (updPort_fixed n f p), liveCopy_of_mo (updPort_mo n f p)]
    exact h.still

theorem orderly.setFlags (h : orderly H p) {f : Flags → Flags} (k : ∀ x, (f x).noPhase = x.noPhase := by exact fun _ => rfl) :
    orderly H (setFlags n f p) :=
  h.own (Acts.refl.setFlags (only_self _) f) (fun l => l.setFlags k) partOk_setFlags

/-! ### The budget unit -/

/-- An entry of the port can be granted: it runs, its plan copy is handed over, and it holds no deferred request. -/
def grantable (H : Prop) (n : Port) (p : Part) : Prop :=
  p.mrc.phase = .running ∧ handAt H n p ∧ (p.port n).deferred = none

/-- A port that holds an entry is in QUEUED or PROBE. -/
theorem entry_state (h : partOk queueAsked p) {e : Entry} (he : e ∈ p.bu.queue) :
    (p.port e.port).state = .queued ∨ (p.port e.port).state = .probe := by
  rcases ((queueLaw_iff p).2 h).2.1 e he with s | ⟨s, -⟩
  · exact .inl s
  · exact .inr s

theorem lawAt.grantable (h : lawAt H n p) (s : (p.port n).state = .queued ∨ (p.port n).state = .probe) : grantable H n p := by
  have r : p.mrc.phase = .running := h.running (by rcases s with s | s <;> rw [s] <;> rfl)
  refine ⟨r, h.handAt (awake_of_running r) ?_, h.deferred_none ?_ ?_⟩ <;> rcases s with s | s <;> rw [s] <;> decide

theorem orderly.grantable (h : orderly H p) {e : Entry} (he : e ∈ p.bu.queue) : grantable H e.port p :=
  (h.ports e.port).grantable (entry_state h.queue he)

theorem grantable_acts {S : Port → Prop} (g : Machine.grantable H n p) (a : Acts S p q) (hn : ¬S n) : Machine.grantable H n q := by
  obtain ⟨r, k, d⟩ := g
  obtain ⟨x, e⟩ := a.record hn
  refine ⟨by rw [a.mrc]; exact r, handAt_congr k (congrArg ModeReset.phase a.mrc) (a.handed hn) (by rw [e]), ?_⟩
  rw [e]
  exact d

theorem okAt_grant_queue (e : Entry) (p : Part) : okAt (termsOf queueAsked p) e.port (grant e p) :=
  okAt_grant (fun x => x.elim)

theorem partOk_grant {e : Entry} (h : partOk queueAsked p) : partOk queueAsked (grant e p) :=
  partOk_own h (sameTerms_of_fixed (grant_fixed e p)) (fun _ ne => grant_aside ne p) (okAt_grant_queue e p)

/-- A grant keeps the laws, and leaves its port grantable. -/
theorem orderly.grant (h : orderly H p) {e : Entry} (g : Machine.grantable H e.port p) :
    orderly H (grant e p) ∧ Machine.grantable H e.port (grant e p) := by
  obtain ⟨r, k, d⟩ := g
  have a : Acts (only e.port) p (Machine.grant e p) := Acts.refl.grant (only_self _)
  have o : orderly H (Machine.grant e p) := h.own a (fun _ => lawAt_grant r k d) partOk_grant
  have r' : (Machine.grant e p).mrc.phase = .running := by rw [a.mrc]; exact r
  obtain ⟨⟨s, -, -⟩, held⟩ := grant_own p (e := e) rfl
  refine ⟨o, r', (o.ports e.port).handAt (awake_of_running r') ?_, held.deferred.trans d⟩
  rw [s]
  cases e.kind <;> decide

theorem orderly.preempt (h : orderly H p) (e : Entry) : orderly H (preempt e p) := by
  rcases preempt_cases e p with s | s
  · exact h.same (.sheds s)
  · rw [s]; exact h.setFlags

theorem orderly.walk (h : orderly H p) (l : List Entry) (g : ∀ e ∈ l, Machine.grantable H e.port p) : orderly H (walk l p) := by
  induction l generalizing p with
  | nil => exact h
  | cons e rest ih =>
    have g' : ∀ x ∈ rest, Machine.grantable H x.port p := fun x hx => g x (List.mem_cons_of_mem _ hx)
    unfold Machine.walk
    split
    · exact ih h g'
    split
    · obtain ⟨o, own⟩ := h.grant (g e List.mem_cons_self)
      refine ih o (fun x hx => ?_)
      by_cases c : x.port = e.port
      · rw [c]; exact own
      · exact grantable_acts (g' x hx) (Acts.refl.grant (S := only e.port) rfl) c
    split
    · exact h.preempt e
    · exact h

theorem orderly.markCoverage (h : orderly H p) (l : List Entry) : orderly H (markCoverage l p) := by
  induction l generalizing p with
  | nil => exact h
  | cons e rest ih => exact ih h.setFlags

theorem orderly.grantDecision (h : orderly H p) : orderly H (grantDecision p) := by
  have m := h.markCoverage (queueOrder p.bu.queue)
  unfold Machine.grantDecision
  dsimp only
  split
  · exact m
  · exact m.walk _ (fun e he => m.grantable ((mem_queueOrder _ e).1 he))

theorem orderly.budgetAfter (h : orderly H p) (b : Bool) : orderly H (budgetAfter b p) := by
  have o := h.same (.beforeDecision p)
  rcases budgetAfter_eq b p with e | e <;> rw [e]
  · exact o.same (.shortfallTest _)
  · exact o.grantDecision.same (.shortfallTest _)

theorem orderly.event {f : Part → Part} (h : orderly H (f p)) : orderly H (event f p) := h.budgetAfter _

/-! ### The sequencer -/

theorem orderly.setMode (h : orderly H p) (mode : SeqMode) : orderly H (setMode mode p) := by
  have q : orderly H (Machine.reportDevice true (p.mapMs (fun m => { m with mode := mode }))) :=
    h.same ((Same.reportDevice _ _).trans (.mapMs p rfl))
  unfold Machine.setMode
  split
  · exact h
  dsimp only
  split
  · exact q.budgetAfter _
  · exact q

theorem Same.endCommand (p : Part) : Same (endCommand p) p :=
  (Same.complete _ _ _).trans ((Same.queueWriteBack _ _).trans (.mapMs p rfl))

theorem orderly.swapSequence (h : orderly H p) : orderly H (swapSequence p) := by
  unfold Machine.swapSequence
  split
  · exact h
  split
  · exact ((h.same ((Same.reportDevice _ _).trans (.mapMs p rfl))).budgetAfter _).same (.complete _ _ _)
  · exact h.same ((Same.complete _ _ _).trans ((Same.reportDevice _ _).trans (.mapMs p rfl)))

theorem orderly.deliverSequence (h : orderly H p) (x : Option Sequence) : orderly H (deliverSequence x p) := by
  unfold Machine.deliverSequence
  split
  · exact h.same (.complete _ _ _)
  split
  · exact h.same (.complete _ _ _)
  split
  · exact h.same (.complete _ _ _)
  next x _ _ =>
    have w : orderly H (Machine.reportDevice true (p.mapMs (fun m => { m with pending := some x }))) :=
      h.same ((Same.reportDevice _ _).trans (.mapMs p rfl))
    dsimp only
    split
    · exact w.swapSequence
    · exact w

theorem Same.beginIfAtRest (p : Part) : Same (beginIfAtRest p) p := by
  unfold Machine.beginIfAtRest
  split
  · exact .mapMs p rfl
  · exact .refl p

theorem orderly.runCommand (h : orderly H p) (c : SeqCommand) : orderly H (runCommand c p) := by
  unfold Machine.runCommand
  split
  · unfold seqRun
    refine orderly.same ?_ (.complete _ _ _)
    split
    · exact (h.same (.beginIfAtRest p)).setMode _
    · exact h
  · unfold seqOnce
    split
    · exact h.same (.complete _ _ _)
    · exact (h.same ((Same.beginIfAtRest _).trans (.mapMs p rfl))).setMode _
  · unfold seqStop
    split
    · exact h.same (.complete _ _ _)
    split
    · exact h.same (.endCommand p)
    · have o : orderly H (Machine.setMode .stopped (p.mapMs (fun m => { m with command := some .stop }))) :=
        (h.same (.mapMs p rfl)).setMode _
      dsimp only
      split
      · exact o
      · exact o.same ((Same.endCommand _).trans (.mapMs _ rfl))
  · unfold seqCalibrate
    have o : orderly H (p.mapMs (fun m => { m with command := some .calibrate })) := h.same (.mapMs p rfl)
    dsimp only
    split
    · exact o.same (.mapMs _ rfl)
    · exact o.setMode _

theorem orderly.takeCommand (h : orderly H p) (c : SeqCommand) : orderly H (takeCommand c p) := by
  unfold Machine.takeCommand
  split
  · exact h.same (.mapMs p rfl)
  · exact h.runCommand c

theorem orderly.warmupEnd (h : orderly H p) : orderly H (warmupEnd p) := by
  have o : orderly H (Machine.setMode .running (beginRound (Machine.swapSequence p))) :=
    (h.swapSequence.same (.mapMs _ rfl)).setMode _
  unfold Machine.warmupEnd runHeld
  split
  · exact o
  · exact (o.same (.mapMs _ rfl)).runCommand _

theorem Same.reportResults (p : Part) : Same (reportResults p) p := .queueWriteBack _ p

theorem orderly.onceRoundEnd (h : orderly H p) : orderly H (onceRoundEnd p) := by
  unfold Machine.onceRoundEnd
  split
  · exact ((h.same (.mapMs p rfl)).setMode _).same (.endCommand _)
  · exact h.same ((Same.mapMs _ rfl).trans (.mapMs p rfl))

theorem orderly.roundEnd (h : orderly H p) : orderly H (roundEnd p) := by
  have o := h.same (.reportResults p)
  unfold Machine.roundEnd
  dsimp only
  split
  · exact o.swapSequence.same (.mapMs _ rfl)
  · exact o.same (.mapMs _ rfl)
  · exact o.onceRoundEnd
  · exact o
  · exact o

theorem orderly.slotEnd (h : orderly H p) : orderly H (slotEnd p) := by
  unfold Machine.slotEnd
  split
  · exact h
  split
  · exact h.same ((Same.endCommand _).trans (.mapMs p rfl))
  split
  · exact h.roundEnd
  · exact h.same (.mapMs p rfl)

theorem orderly.abandonedEnd (h : orderly H p) : orderly H (abandonedEnd p) := by
  have o : orderly H (p.mapMs (fun m => { m with calibration := none })) := h.same (.mapMs p rfl)
  unfold Machine.abandonedEnd
  dsimp only
  split
  · split
    · exact o.same (.mapMs _ rfl)
    · exact (o.same (.mapMs _ rfl)).setMode _
  · exact o.same (.mapMs _ rfl)
  · exact o.same (.mapMs _ rfl)
  · exact o.same (.endCommand _)
  · exact o

theorem orderly.calibrated (h : orderly H p) (sum : Nat) : orderly H (calibrated sum p) := by
  unfold Machine.calibrated
  refine orderly.same ?_ ((Same.endCommand _).trans (.setRequest _ _ _))
  split
  · exact ((h.same (.mapMs p rfl)).same (.mapMs _ rfl)).setMode _
  · exact h.same (.mapMs p rfl)

theorem orderly.calibrationConverted (h : orderly H p) (reading : Nat) : orderly H (calibrationConverted reading p) := by
  unfold Machine.calibrationConverted
  split
  · exact h
  split
  · exact h.abandonedEnd
  split
  · exact h.calibrated _
  · exact h.same (.mapMs p rfl)

theorem Same.keepResult (x : Int) (p : Part) : Same (keepResult x p) p := by
  unfold Machine.keepResult
  split
  · exact .refl p
  · exact .mapMs p rfl

theorem orderly.failPort (h : orderly H p) (n : Port) (c : FaultCause) : orderly H (failPort n c p) :=
  h.own (Acts.refl.failPort (only_self _) c) (fun l => l.failPort c) partOk_failPort

theorem orderly.overTest (h : orderly H p) (n : Port) (sample : Nat) : orderly H (overTest n sample p) := by
  unfold Machine.overTest
  dsimp only
  split
  · exact (h.same (.mapMs p rfl)).failPort n _
  · exact h.same (.mapMs p rfl)

theorem Acts.rampDone (n : Port) (p : Part) : Acts (only n) p (rampDone n p) := by
  unfold Machine.rampDone
  split
  · exact (Acts.refl.move (only_self _) _).setTimers (only_self _) _
  · exact .refl

theorem orderly.rampDone (h : orderly H p) (n : Port) : orderly H (rampDone n p) :=
  h.own (.rampDone n p) lawAt.rampDone
    (fun k => partOk_port k (Acts.rampDone n p).fixed (fun _ e => rampDone_aside e p) (fun o _ => okAt_rampDone o))

theorem orderly.rampTest (h : orderly H p) (n : Port) (sample : Nat) : orderly H (rampTest n sample p) := by
  unfold Machine.rampTest
  split
  · exact h.same (.mapMs p rfl)
  split
  · exact (h.same (.mapMs p rfl)).rampDone n
  · exact h.same (.mapMs p rfl)

theorem orderly.judgeSample (h : orderly H p) (n : Port) (sample : Nat) : orderly H (judgeSample n sample p) := by
  unfold Machine.judgeSample
  split
  · exact h.rampTest n _
  split
  · exact h.overTest n _
  · exact h

theorem orderly.portSample (h : orderly H p) (n : Port) (reading : Nat) : orderly H (portSample n reading p) := by
  have o := h.same (.keepResult (corrected p reading) p)
  unfold Machine.portSample
  dsimp only
  split
  · exact o
  · exact (o.same ((Same.reportPort _ _ _).trans (.mapAe _ rfl))).judgeSample n _

theorem Same.updSteps {f : Sequencer → Sequencer} (p : Part) (views : (f p.ms).views = p.ms.views) : Same (updSteps f p) p := by
  unfold Machine.updSteps
  split
  · exact .mapMs p views
  · exact (Same.reportDevice _ _).trans (.mapMs p views)

theorem Same.voltageSample (mv : Nat) (p : Part) : Same (voltageSample mv p) p := by
  unfold Machine.voltageSample
  dsimp only
  split
  · exact .keepResult _ p
  · exact (Same.updSteps _ rfl).trans (.keepResult _ p)

theorem Same.temperatureSample (c : Int) (p : Part) : Same (temperatureSample c p) p := by
  unfold Machine.temperatureSample
  dsimp only
  split
  · exact .keepResult _ p
  · exact (Same.updSteps _ rfl).trans (.keepResult _ p)

theorem Same.deliverDevicePlan (d : DevicePlan) (p : Part) : Same (deliverDevicePlan d p) p := by
  have stored : Same (storeDevicePlan d p) p := by
    unfold storeDevicePlan
    dsimp only
    split
    · exact .mapBu p rfl
    · exact (Same.reportDevice _ _).trans (.mapBu p rfl)
  unfold Machine.deliverDevicePlan
  split
  · exact (Same.complete _ _ _).trans stored
  · exact .complete _ _ p

/-! ### The end of a command -/

theorem orderly.retest (h : orderly H p) (n : Port) : orderly H (retest n p) := by
  refine h.own (Acts.refl.retest (only_self _)) (fun l => ?_) partOk_retest
  unfold Machine.retest
  split
  next c =>
    obtain ⟨s, x⟩ := c
    have r : p.mrc.phase = .running := l.running (by rw [s]; rfl)
    refine lawAt_testAdmission r (l.handAt (awake_of_running r) (by rw [s]; decide)) s (l.stopped s x) ?_
    refine Classical.byContradiction fun d => ?_
    rcases l.deferred d with y | ⟨-, y⟩
    · rw [s] at y; cases y
    · rw [x] at y; cases y
  · exact l

theorem orderly.foldl {f : Port → Part → Part} (k : ∀ n p, orderly H p → orderly H (f n p)) (l : List Port) (h : orderly H p) :
    orderly H (l.foldl (fun p n => f n p) p) := by
  induction l generalizing p with
  | nil => exact h
  | cons n rest ih => exact ih (k n p h)

theorem Same.wheelIn (w : List Phase) (p : Part) : Same (wheelIn w p) p :=
  (Same.reportDevice _ _).trans ((Same.queueWriteBack _ _).trans (.mapMo p rfl rfl))

theorem orderly.swapWheel (h : orderly H p) : orderly H (swapWheel p) := by
  rcases swapWheel_cases p with ⟨-, e⟩ | ⟨w, -, -, e⟩ | ⟨w, -, -, e⟩ <;> rw [e]
  · exact h
  · exact ((orderly.foldl (fun n p o => o.retest n) allPorts (h.same (.wheelIn w p))).budgetAfter _).same (.complete _ _ _)
  · exact h.same ((Same.complete _ _ _).trans ((Same.reportDevice _ _).trans (.mapMo p rfl rfl)))

/-- A burst granted to a still area engine is no copy read. -/
theorem liveCopy_setInFlight (f : InFlight) (p : Part) (k : ∀ s a l, f ≠ .copyRead s a l false) : liveCopy (setInFlight f p) = none := by
  rw [liveCopy_none_iff]
  intro s a l e
  exact k s a l (Option.some.inj e)

theorem liveCopy_grantBurst (who : Participant) (p : Part) (quiet : p.ae.quiet = true) (free : liveCopy p = none) :
    liveCopy (grantBurst who p) = none := by
  unfold grantBurst
  split
  · unfold grantCp
    split
    · exact free
    · exact liveCopy_setInFlight _ _ (fun _ _ _ e => nomatch e)
  · have none : aeOffer p = none := by unfold aeOffer; rw [if_pos quiet]
    rw [none]
    exact free
  · unfold grantPortBurst
    split
    · exact free
    · split
      · exact free
      · exact liveCopy_setInFlight _ _ (fun _ _ _ e => nomatch e)

theorem setInFlight_handed (n : Port) (f : InFlight) (p : Part) : (setInFlight f p).handed n = p.handed n := rfl

theorem PassThrough.granted_windows (t : Target) (x : PassThrough) : (x.granted t).windows = x.windows := (granted_keeps t x).2.2.2.1

theorem grantBurst_handed (n : Port) (who : Participant) (p : Part) : (grantBurst who p).handed n = p.handed n := by
  unfold grantBurst
  split
  · unfold grantCp
    split <;> rfl
  · split
    · unfold grantWriteBack
      dsimp only
      rw [setInFlight_handed]
      exact (Same.mapPtp _ (PassThrough.granted_windows _ _)).handed n
    · rfl
    · rfl
  · unfold grantPortBurst
    split
    · rfl
    · split <;> rfl

theorem orderly.grantAt (h : orderly H p) (i : Nat) : orderly H (grantAt i p) := by
  obtain ⟨⟨ports, bu, -, -, mrc⟩, -, -⟩ := grantAt_steady i p
  refine ⟨fun n => (h.ports n).of_ports ports ?_ (by rw [mrc]), partOk_grantAt h.queue, ?_⟩
  · unfold Machine.grantAt
    split
    · rfl
    · exact ((Same.mapMo _ rfl rfl).handed n).trans (grantBurst_handed n _ p)
  · intro r
    rw [mrc] at r
    obtain ⟨quiet, free⟩ := h.still r
    obtain ⟨-, -, -, -, -, -, q, -⟩ := grantAt_bus i p
    refine ⟨q.trans quiet, ?_⟩
    unfold Machine.grantAt
    split
    · exact free
    · exact ((Same.mapMo _ rfl rfl).live).trans (liveCopy_grantBurst _ p quiet free)

theorem orderly.moDecision (h : orderly H p) : orderly H (moDecision p) := by
  rcases moDecision_cases p with e | ⟨i, -, -, e⟩ <;> rw [e]
  · exact h
  · rcases swapAfter_cases i p.mo.pointer (Machine.grantAt i p) with g | g <;> rw [g]
    · exact (h.grantAt i).swapWheel
    · exact h.grantAt i

theorem orderly.idleSwap (h : orderly H p) : orderly H (idleSwap p) := by
  rcases idleSwap_cases p with ⟨-, e⟩ | ⟨-, e⟩ <;> rw [e]
  · exact h.swapWheel.moDecision
  · exact h

theorem Same.adoptSweep (p : Part) : Same (adoptSweep p) p := by
  rcases adoptSweep_cases p with e | e <;> rw [e]
  · exact .refl p
  · exact (Same.reportDevice _ _).trans (.mapMrc p rfl)

theorem orderly.settle (h : orderly H p) : orderly H (settle p) := (h.same (.adoptSweep p)).moDecision.idleSwap

/-! ### The bus -/

theorem Same.startAccess (b : BusAccess) (st : Stage) (u : CpPurpose) (p : Part) : Same (startAccess b st u p) p := .mapPtp p rfl

theorem Same.carry (p : Part) : Same (carry p) p := by
  unfold Machine.carry
  split
  · exact .refl p
  · exact (Same.mapMo _ rfl rfl).trans (.mapPtp p rfl)

theorem Same.carryAccess (b : BusAccess) (u : CpPurpose) (p : Part) : Same (carryAccess b u p) p :=
  (Same.carry _).trans (.startAccess b _ u p)

theorem Same.answerBus (a : BusAnswer) (p : Part) : Same (answerBus a p) p := .mapPtp p rfl

theorem Same.hostWrite (b : BusAccess) (offset : Nat) (p : Part) : Same (hostWrite b offset p) p := by
  unfold Machine.hostWrite
  split
  · exact .carryAccess _ _ p
  split
  · exact .startAccess _ _ _ p
  · exact .carryAccess _ _ p

theorem Same.statusRead (b : BusAccess) (t : Target) (p : Part) : Same (statusRead b t p) p := by
  unfold Machine.statusRead
  split
  · exact (Same.startAccess _ _ _ _).trans (.mapAe p rfl)
  · exact .carryAccess _ _ p

theorem Same.dropErrorBit (p : Part) : Same (dropErrorBit p) p := by
  unfold Machine.dropErrorBit
  split
  · exact (Same.queueWriteBack _ _).trans (.mapAe p rfl)
  · exact .refl p

theorem Same.mergeWrite (b : BusAccess) (t : Target) (p : Part) : Same (mergeWrite b t p) p := by
  unfold Machine.mergeWrite
  split
  · exact (Same.carryAccess _ _ _).trans ((Same.dropErrorBit _).trans (.mapAe p rfl))
  · exact (Same.carryAccess _ _ _).trans (.mapAe p rfl)

theorem Same.takenWrite (b : BusAccess) (w : ReqWord) (p : Part) : Same (takenWrite b w p) p := by
  unfold Machine.takenWrite
  split
  · exact .answerBus _ p
  · exact .carryAccess _ _ p

theorem Same.reportAnswered (e : ErrorBit) (p : Part) : Same (Machine.reportError e (answerAtOnce p)) p :=
  (Same.reportError _ _).trans (Same.answerBus _ p)

theorem orderly.clearRequest (h : orderly H p) (n : Port) : orderly H (clearRequest n p) :=
  h.own (Acts.refl.clearRequest (only_self _)) lawAt.clearRequest
    (fun k => partOk_port k (clearRequest_fixed n p) (fun _ e => clearRequest_aside e p) (fun o _ => okAt_clearRequest o))

theorem orderly.restartRequest (h : orderly H p) (n : Port) : orderly H (restartRequest n p) :=
  h.own (Acts.refl.restartRequest (only_self _)) lawAt.restartRequest
    (fun k => partOk_port k (restartRequest_fixed n p) (fun _ e => restartRequest_aside e p) (fun o _ => okAt_restartRequest o))

theorem orderly.startWork (h : orderly H p) (w : ReqWord) (c : Byte) : orderly H (startWork w c p) := by
  unfold Machine.startWork
  split
  · exact h.same (.mapAe p rfl)
  · exact h.same (.mapAe p rfl)
  · exact h.same (.mapAe p rfl)
  · exact h.takeCommand _
  · exact h.same (.mapMrc p rfl)
  · exact h.same (.mapAe p rfl)
  · exact (h.clearRequest _).event
  · exact (h.restartRequest _).event
  · exact h.same (.complete _ _ p)

theorem orderly.requestWrite (h : orderly H p) (b : BusAccess) (w : ReqWord) : orderly H (requestWrite b w p) := by
  unfold Machine.requestWrite
  split
  · exact h.same (.reportAnswered _ p)
  split
  · exact h.same (.reportAnswered _ p)
  · exact (h.same ((Same.takenWrite b w _).trans (.setRequest _ _ p))).startWork w _

theorem orderly.arrive (h : orderly H p) (b : BusAccess) : orderly H (arrive b p) := by
  unfold Machine.arrive
  split
  · unfold arriveInArea
    split
    · exact h.same (.carryAccess _ _ p)
    · exact h.same (.hostWrite _ _ p)
    · exact h.same (.statusRead _ _ p)
    · exact h.same (.reportAnswered _ p)
    · exact h.same (.statusRead _ _ p)
    · exact h.same (.mergeWrite _ _ p)
    · exact h.same (.carryAccess _ _ p)
    · exact h.requestWrite b _
  · unfold arriveOutside
    split
    · split <;> exact h.same (.carryAccess _ _ p)
    · exact h.same (.carryAccess _ _ p)

theorem orderly.present (h : orderly H p) (b : BusAccess) : orderly H (present b p) := by
  unfold Machine.present
  split
  · exact h.same (.mapPtp p rfl)
  · exact h.arrive b

theorem orderly.arrivePresented (h : orderly H p) : orderly H (arrivePresented p) := by
  unfold Machine.arrivePresented
  split
  · exact h
  · exact (h.same (.mapPtp p rfl)).arrive _

theorem liveCopy_withdrawCp (p : Part) : liveCopy (withdrawCp p) = liveCopy p := by
  unfold liveCopy withdrawCp
  rw [Part.mapMo_mo]
  dsimp only
  rcases p.mo.inFlight with _ | f
  · rfl
  · cases f <;> rfl

theorem Same.withdrawCp (p : Part) : Same (withdrawCp p) p :=
  ⟨rfl, rfl, fun _ => rfl, rfl, rfl, liveCopy_withdrawCp p⟩

theorem Same.holdExpired (p : Part) : Same (holdExpired p) p := by
  unfold Machine.holdExpired
  split
  · exact .refl p
  next a _ =>
    have q : Same (Machine.reportError .holdExpired (Machine.answerBus (errorAnswer a.bus) p)) p :=
      (Same.reportError _ _).trans (.answerBus _ p)
    dsimp only
    split
    · exact (Same.withdrawCp _).trans q
    · exact q
    · exact q

/-! ### Completions -/

theorem Acts.cueLanded (n : Port) (v : Word) (p : Part) :
    Acts (only n) (Machine.reportPort n false (p.mapPtp (fun t => { t with shadows := t.shadows.put n (some v) }))) (cueLanded n v p) := by
  unfold Machine.cueLanded
  dsimp only
  split
  · exact Acts.refl.cueToLane (only_self _) v
  · exact Acts.refl.upd (only_self _)

theorem orderly.cueLanded (h : orderly H p) (n : Port) (v : Word) : orderly H (cueLanded n v p) := by
  have o : orderly H (Machine.reportPort n false (p.mapPtp (fun t => { t with shadows := t.shadows.put n (some v) }))) :=
    h.same ((Same.reportPort _ _ _).trans (.mapPtp p rfl))
  refine o.own (.cueLanded n v p) (fun l => ?_) (fun _ => partOk_cueLanded h.queue)
  unfold Machine.cueLanded
  dsimp only
  split
  · exact cueToLane_law l v
  · exact l.updPort

theorem orderly.cpDone (h : orderly H p) (c : CpBurst) (fault : Bool) (word : List Byte) : orderly H (cpDone c fault word p) := by
  have o : orderly H (Machine.answerBus (cpAnswer c fault word) p) := h.same (.answerBus _ p)
  unfold Machine.cpDone
  dsimp only
  split
  · exact o.same (.reportError _ _)
  · split
    · exact o.cueLanded _ _
    · exact o

theorem Same.landedBits (t : Target) (mark : Bool) (p : Part) : Same (landedBits t mark p) p := by
  unfold Machine.landedBits
  split
  · split
    · exact .setSummary _ p
    · exact .refl p
  · split
    · exact .setSummary _ p
    · exact .refl p
  · exact (Same.setSummary _ _).trans (.setRequest _ _ p)
  · exact (Same.setSummary _ _).trans (.setRequest _ _ p)
  · exact .refl p

theorem Same.releaseRead (p : Part) : Same (releaseRead p) p := by
  unfold Machine.releaseRead
  split
  · exact .carry p
  · exact .refl p

theorem Same.writeBackDone (t : Target) (mark fault : Bool) (p : Part) : Same (writeBackDone t mark fault p) p := by
  unfold Machine.writeBackDone
  dsimp only
  split
  · exact (Same.releaseRead _).trans ((Same.landedBits _ _ _).trans (.reportError _ p))
  · exact (Same.releaseRead _).trans (.landedBits _ _ p)

theorem Same.releaseWrite (s : Source) (p : Part) : Same (releaseWrite s p) p := by
  unfold Machine.releaseWrite
  split
  · split
    · exact .carry p
    · exact .refl p
  · exact .refl p

theorem orderly.deliverWheel (h : orderly H p) (w : Option (List Phase)) : orderly H (deliverWheel w p) := by
  unfold Machine.deliverWheel
  split
  · exact h.same (.complete _ _ p)
  split
  · exact h.same (.complete _ _ p)
  split
  · exact h.same (.complete _ _ p)
  next w _ _ =>
    have o : orderly H (Machine.reportDevice true (p.mapMo (fun o => { o with pendingWheel := some w }))) :=
      h.same ((Same.reportDevice _ _).trans (.mapMo p rfl rfl))
    dsimp only
    split
    · exact o
    · exact o.swapWheel

theorem orderly.deliverApply (h : orderly H p) (r : p.mrc.phase = .running) (n : Port) (plan : Option Plan) :
    orderly H (deliverApply n plan p) :=
  h.own (Acts.refl.deliverApply (only_self _) plan) (fun l => l.deliverApply r plan)
    (fun k => partOk_port k (deliverApply_fixed n plan p) (fun _ e => deliverApply_aside e plan p) okAt_deliverApply)

theorem orderly.copyReadDone (h : orderly H p) (r : p.mrc.phase = .running) (s : Source) (fault : Bool) (bytes : List Byte) :
    orderly H (copyReadDone s fault bytes p) := by
  have o := h.same (.releaseWrite s p)
  have r' : (Machine.releaseWrite s p).mrc.phase = .running := (Same.releaseWrite s p).phase.trans r
  unfold Machine.copyReadDone
  dsimp only
  split
  · exact o.same (.complete _ _ _)
  · unfold deliver
    split
    · exact orderly.event (o.same (.deliverDevicePlan _ _))
    · exact o.deliverWheel _
    · exact o.deliverSequence _
    · exact (o.deliverApply r' _ _).event

theorem orderly.accessDone (h : orderly H p) (n : Port) (a : Answer) : orderly H (accessDone n a p) :=
  h.own (Acts.refl.accessDone (only_self _) a) (fun l => l.accessDone a)
    (fun k => partOk_port k (accessDone_fixed n a p) (fun _ e => accessDone_aside e a p) (fun o _ => okAt_accessDone o))

theorem Same.markTest (n : Port) (a : LaneAccess) (x : Bool) (p : Part) : Same (markTest n a x p) p := by
  unfold Machine.markTest
  split
  · exact .setSummary _ p
  · exact .refl p

theorem orderly.portBurstDone (h : orderly H p) (n : Port) (a : LaneAccess) (offset length : Nat) (last discard fault : Bool)
    (data : List Byte) : orderly H (portBurstDone n a offset length last discard fault data p) := by
  unfold Machine.portBurstDone
  dsimp only
  have o : orderly H (if (last && a.kind == .put) = true then Machine.markTest n a (a.after offset length fault data).markFault p else p) := by
    split
    · exact h.same (.markTest _ _ _ p)
    · exact h
  split
  · exact o
  split
  · exact (o.accessDone _ _).event
  split
  · exact o
  split
  · exact ((o.same (.mapMo _ rfl rfl)).accessDone _ _).event
  · exact o.same (.mapMo _ rfl rfl)

/-- With the memory port free no copy read is in flight. -/
theorem orderly.freed (h : orderly H p) : orderly H (p.mapMo (fun o => { o with inFlight := none })) := by
  refine ⟨fun n => (h.ports n).of_ports rfl rfl rfl, partOk_queue_congr h.queue rfl rfl, fun r => ⟨(h.still r).1, rfl⟩⟩

theorem orderly.afterBurst (h : orderly H p) {f : InFlight} (e : p.mo.inFlight = some f) (fault : Bool) (data : List Byte) :
    orderly H (afterBurst f fault data p) := by
  have o := h.freed
  refine orderly.settle ?_
  unfold burstDone
  split
  · split
    · exact o
    · exact o.cpDone _ _ _
  · split
    · exact o
    · exact o.same (.writeBackDone _ _ _ _)
  next s a l discard =>
    split
    · exact o
    next d =>
      refine o.copyReadDone ?_ _ _ _
      refine Classical.byContradiction fun r => ?_
      rw [eq_false_of_ne_true d] at e
      exact (liveCopy_none_iff p).1 (h.still r).2 _ _ _ e
  · exact o.portBurstDone _ _ _ _ _ _ _ _

end

end Sys2Proof.Machine
end

