-- ==== Sys2Proof/Proofs/PortLawsKept.lean ====
section
/-! Every command keeps the port laws: presence, the port timers, standby, adoption and the resets, and O55. -/

namespace Sys2Proof.Machine

/-! ### An operation made for every port -/

/-- What a fold over a list without repetitions brings about at each of its ports. -/
theorem foldl_each {f : Port → Part → Part} {I : Part → Prop} {Pre Post : Port → Part → Prop}
    (inv : ∀ n p, I p → Pre n p → I (f n p)) (work : ∀ n p, I p → Pre n p → Post n (f n p))
    (pre : ∀ m n p, m ≠ n → I p → Pre m p → Pre m (f n p)) (post : ∀ m n p, m ≠ n → I p → Post m p → Post m (f n p))
    (l : List Port) (d : l.Nodup) (p : Part) (i : I p) (before : ∀ n ∈ l, Pre n p) (after : ∀ n, n ∉ l → Post n p) :
    I (l.foldl (fun p n => f n p) p) ∧ ∀ n, Post n (l.foldl (fun p n => f n p) p) := by
  induction l generalizing p with
  | nil => exact ⟨i, fun n => after n List.not_mem_nil⟩
  | cons x rest ih =>
    obtain ⟨fresh, d⟩ := List.nodup_cons.1 d
    have here := before x List.mem_cons_self
    refine ih d (f x p) (inv x p i here) (fun n hn => ?_) (fun n hn => ?_)
    · exact pre n x p (fun e => fresh (e ▸ hn)) i (before n (List.mem_cons_of_mem _ hn))
    · by_cases e : n = x
      · exact e ▸ work x p i here
      · exact post n x p e i (after n (fun k => (List.mem_cons.1 k).elim e hn))

theorem allPorts_nodup : allPorts.Nodup := by decide

/-- What an operation made for every port brings about at each. -/
theorem forPorts_each {f : Port → Part → Part} {I : Part → Prop} {Pre Post : Port → Part → Prop}
    (inv : ∀ n p, I p → Pre n p → I (f n p)) (work : ∀ n p, I p → Pre n p → Post n (f n p))
    (pre : ∀ m n p, m ≠ n → I p → Pre m p → Pre m (f n p)) (post : ∀ m n p, m ≠ n → I p → Post m p → Post m (f n p))
    {p : Part} (i : I p) (before : ∀ n, Pre n p) : I (forPorts f p) ∧ ∀ n, Post n (forPorts f p) :=
  foldl_each inv work pre post allPorts allPorts_nodup p i (fun n _ => before n) (fun n k => absurd (mem_allPorts n) k)

theorem insertBy_perm {α : Type} (before : α → α → Bool) (x : α) (l : List α) : (insertBy before x l).Perm (x :: l) := by
  induction l with
  | nil => exact .refl _
  | cons y rest ih =>
    unfold insertBy
    split
    · exact .refl _
    · exact (ih.cons y).trans (.swap x y rest)

theorem sortBy_perm {α : Type} (before : α → α → Bool) (l : List α) : (sortBy before l).Perm l := by
  induction l with
  | nil => exact .refl _
  | cons x rest ih => exact (insertBy_perm before x _).trans (ih.cons x)

section
variable {H : Prop} {n : Port} {p q : Part}

/-! ### The port timers -/

/-- A change of a record that leaves its timers in order. -/
theorem lawAt.retimed (h : lawAt H n p) {f : PortRecord → PortRecord} (t : timersFit (f (p.port n)))
    (w : ¬Machine.awake p → (f (p.port n)).timers.debouncer = none)
    (k : (f (p.port n)).state = (p.port n).state ∧ (f (p.port n)).plan = (p.port n).plan ∧
      (f (p.port n)).flags.noPhase = (p.port n).flags.noPhase ∧ (f (p.port n)).deferred = (p.port n).deferred ∧
      (f (p.port n)).adopted = (p.port n).adopted := by exact ⟨rfl, rfl, rfl, rfl, rfl⟩) :
    lawAt H n (Machine.updPort n f p) := by
  obtain ⟨s, pl, np, df, ad⟩ := k
  have phase : (Machine.updPort n f p).mrc.phase = p.mrc.phase := by simp
  have handed : (Machine.updPort n f p).handed n = p.handed n := updPort_handed _ _ _ _
  constructor <;> simp only [updPort_port_self, awake_congr phase, phase, handed, s, pl, np, df, ad]
  · exact t
  · exact h.deferred
  · exact h.waiting
  · exact fun a => ⟨(h.resting a).1, w a⟩
  · exact h.riding
  · exact h.window
  · exact h.view
  · exact h.urgent
  · exact h.rested

theorem lawAt.debounced (h : lawAt H n p) {x : Timer} (s : (p.port n).state = .empty) (w : ¬Machine.awake p → x = none) :
    lawAt H n (setTimers n (fun t => { t with debouncer := x }) p) := by
  refine h.retimed ?_ w
  have t := h.timers
  unfold timersFit at t ⊢
  exact ⟨fun _ => s, t.2⟩

theorem Acts.setTimersSelf (n : Port) (f : PortTimers → PortTimers) (p : Part) : Acts (only n) p (Machine.setTimers n f p) :=
  Acts.refl.setTimers (only_self n) f

theorem orderly.debounced (h : orderly H p) {x : Timer} (s : (p.port n).state = .empty) (w : ¬Machine.awake p → x = none) :
    orderly H (setTimers n (fun t => { t with debouncer := x }) p) :=
  h.own (Acts.setTimersSelf n _ p) (fun l => l.debounced s w) partOk_setTimers

theorem awake_of_debouncing (h : debouncing p = true) : awake p := by
  unfold debouncing at h
  rw [Bool.or_eq_true] at h
  exact h.imp eq_of_beq eq_of_beq

theorem orderly.presenceAsserted (h : orderly H p) (n : Port) : orderly H (presenceAsserted n p) := by
  have o : orderly H (p.mapMrc (fun m => { m with present := m.present.put n true })) := h.same (.mapMrc p rfl)
  unfold Machine.presenceAsserted
  dsimp only
  split
  next c =>
    rw [Bool.and_eq_true] at c
    exact o.debounced (eq_of_beq c.2) (fun a => absurd (awake_of_debouncing c.1) a)
  · exact o

theorem lawAt.arrived (h : lawAt H n p) (r : debouncerRuns n p = true) : lawAt H n (arrived n p) := by
  have t := h.timers
  unfold timersFit at t
  have some : (p.port n).timers.debouncer ≠ none := fun e => by unfold debouncerRuns at r; rw [e] at r; cases r
  have s : (p.port n).state = .empty := t.1 some
  have a : Machine.awake p := Classical.byContradiction fun a => some (h.resting a).2
  have k := h.handAt a (by rw [s]; decide)
  have d := h.deferred_none (by rw [s]; decide) (by rw [s]; decide)
  unfold Machine.arrived
  split
  · exact (sent_moveTo n .off p rfl (by decide) (fun _ => rfl)).law a k d
  · have left := h.setFlags (f := fun f => { f with left := false })
    have a' : Machine.awake (Machine.setFlags n (fun f => { f with left := false }) p) := (awake_congr (by simp)).2 a
    refine (sent_toQueued n _).law a' (left.handAt a' ?_) ?_
    · rw [setFlags_port_self]; dsimp only; rw [s]; decide
    · rw [setFlags_port_self]; exact d

theorem Acts.arrived (n : Port) (p : Part) : Acts (only n) p (arrived n p) := by
  unfold Machine.arrived
  split
  · exact Acts.refl.move (only_self n) _
  · exact (Acts.refl.setFlags (only_self n) _).toQueued (only_self n)

/-- A port whose accessory is gone, before its share of the plan copy is handed over. -/
theorem sent_unplugged (n : Port) (p : Part) : Sent n p (updPort n PortRecord.unplug (moveTo n .empty p)) :=
  (sent_moveTo n .empty p rfl (by decide) (fun _ => rfl)).updPort

theorem handOver_mrc (n : Port) (p : Part) : (handOver n p).mrc = p.mrc := rfl

/-- A port sent on whose share of the plan copy is then handed over. -/
theorem Sent.but_handOver (h : Sent n p q) (a : awake p) (w : H → (p.handed n).1 = (p.port n).plan.handed.1) :
    lawBut H n (handOver n q) := by
  obtain ⟨mrc, handed, plan, -, opened, rides, timers⟩ := h
  have e := takeDeferred_port n (handOver n q)
  rw [handOver_port] at e
  have phase : (takeDeferred n (handOver n q)).mrc.phase = p.mrc.phase := by rw [takeDeferred_mrc, handOver_mrc, mrc]
  have k : handAt H n (takeDeferred n (handOver n q)) :=
    handAt_congr (handOver_handAt n q (by rw [handed, plan]; exact w)) (by rw [takeDeferred_mrc]) (takeDeferred_handed n _)
      (by rw [e, handOver_port])
  refine lawAt_open ((awake_congr phase).2 a) k ?_ ?_ ?_ ?_
  · rw [e]
  · rw [e]; exact opened
  · rw [e, phase]; exact rides
  · rw [e]; exact timers

theorem storeDeferred_law (h : lawBut H n q) (a : awake q) (s : (q.port n).state ≠ .settle) : lawAt H n (storeDeferred n q) := by
  unfold storeDeferred
  split
  next d => exact h.law d
  next plan d =>
    have a' : awake (takeDeferred n q) := (awake_congr (by rw [takeDeferred_mrc])).2 a
    refine (lawAt.storePlan h a' plan ?_).complete _ _
    rw [takeDeferred_state]
    exact fun x => absurd x s

theorem lawAt.unplugPort (h : lawAt H n p) (s : (p.port n).state ≠ .empty) : lawAt H n (unplugPort n p) := by
  have a := h.awake s
  have sent := sent_unplugged n p
  refine storeDeferred_law (sent.but_handOver a (fun i => h.window i a)) ?_ ?_
  · refine (awake_congr ?_).2 a
    rw [handOver_mrc, sent.mrc]
  · rw [handOver_port]
    intro e
    have o := sent.opened
    rw [e] at o
    cases o

theorem Acts.unplugPort (h : (p.port n).state ≠ .empty) : Acts (only n) p (unplugPort n p) := by
  have u : Acts (only n) p (Machine.handOver n (Machine.updPort n PortRecord.unplug (moveTo n .empty p))) :=
    (Acts.refl.unplug (only_self n) h).handOver (only_self n)
  unfold Machine.unplugPort storeDeferred
  split
  · exact u
  · exact ((u.takeDeferred (only_self n)).storePlan (only_self n) _).complete (only_self n) _

end

end Sys2Proof.Machine
end

