-- ==== Sys2Proof/Proofs/PortLawsStep.lean ====
section
/-! Every command keeps the port laws: timers, frames, standby, adoption and the resets; O55. -/

namespace Sys2Proof.Machine

section
variable {H : Prop} {n : Port} {p q : Part}

/-! ### Presence and the port timers -/

theorem orderly.arrived (h : orderly H p) (r : debouncerRuns n p = true) : orderly H (arrived n p) :=
  h.own (.arrived n p) (fun l => l.arrived r) partOk_arrived

theorem partOk_unplugPort {a : Asked} (h : partOk a p) : partOk a (unplugPort n p) :=
  partOk_port h (unplugPort_fixed n _) (fun _ e => unplugPort_aside e _) (fun _ _ => okAt_unplugPort)

theorem orderly.presenceLost (h : orderly H p) (n : Port) : orderly H (presenceLost n p) := by
  have o : orderly H (p.mapMrc (fun m => { m with present := m.present.put n false })) := h.same (.mapMrc p rfl)
  unfold Machine.presenceLost
  dsimp only
  split
  next s => exact o.debounced s (fun _ => rfl)
  next s => exact orderly.event (o.own (.unplugPort s) (fun l => l.unplugPort s) partOk_unplugPort)

theorem isSome_ne_none {α : Type} {x : Option α} (h : x.isSome = true) : x ≠ none := fun e => by rw [e] at h; cases h

theorem lawAt.noHello (h : lawAt H n p) (r : helloRuns n p = true) : lawAt H n (noHello n p) := by
  have t := h.timers
  unfold timersFit at t
  have s : (p.port n).state = .probe := t.2.1 (isSome_ne_none r)
  have a := h.awake (by rw [s]; decide)
  exact ((sent_moveTo n .fault p rfl (by decide) (fun _ => rfl)).updPort).law a (h.handAt a (by rw [s]; decide))
    (h.deferred_none (by rw [s]; decide) (by rw [s]; decide))

theorem Acts.noHello (n : Port) (p : Part) : Acts (only n) p (noHello n p) :=
  (Acts.refl.move (only_self n) _).upd (only_self n)

theorem orderly.noHello (h : orderly H p) (r : helloRuns n p = true) : orderly H (noHello n p) :=
  h.own (.noHello n p) (fun l => l.noHello r) partOk_noHello

theorem lawAt.settleExpired (h : lawAt H n p) (r : settleRuns n p = true) : lawAt H n (settleExpired n p) := by
  unfold settleRuns at r
  rw [Bool.and_eq_true] at r
  have s : (p.port n).state = .settle := eq_of_beq r.1
  have run : p.mrc.phase = .running := h.running (by rw [s]; rfl)
  have t := h.timers
  unfold timersFit at t
  obtain ⟨deb, hello, ramp, settle, grace, restart, onTime⟩ := t
  have stopped : { (p.port n).timers with settle := none } = stoppedTimers := by
    cases y : (p.port n).timers
    rw [y] at deb hello ramp grace restart onTime
    simp_all [stoppedTimers]
  have run' : (Machine.setTimers n (fun t => { t with settle := none }) p).mrc.phase = .running := by simpa using run
  have k : Machine.handAt H n (Machine.setTimers n (fun t => { t with settle := none }) p) := by
    refine handAt_congr (h.handAt (awake_of_running run) (by rw [s]; decide)) (by simp) (setTimers_handed _ _ _ _) ?_
    rw [setTimers_port_self]
  have but : lawBut H n (Machine.testAdmission n (Machine.setTimers n (fun t => { t with settle := none }) p)) := by
    refine lawBut_testAdmission run' k ?_ ?_
    · rw [setTimers_port_self]; exact s
    · rw [setTimers_port_self]; exact stopped
  have mrc : (Machine.testAdmission n (Machine.setTimers n (fun t => { t with settle := none }) p)).mrc.phase = .running :=
    running_congr (Part.mrc_of_fixed (testAdmission_fixed n _)) run'
  unfold Machine.settleExpired
  dsimp only
  by_cases c : admits (Machine.setTimers n (fun t => { t with settle := none }) p) n = true
  · have law : lawAt H n (Machine.testAdmission n (Machine.setTimers n (fun t => { t with settle := none }) p)) := by
      unfold Machine.testAdmission
      rw [if_pos c]
      exact lawAt_enterOn run' k
    split
    · exact but.applyDeferred (fun _ => mrc)
    · exact law
  · rw [if_pos ?_]
    · exact but.applyDeferred (fun _ => mrc)
    · unfold Machine.testAdmission
      rw [if_neg c, setFlags_port_self, setTimers_port_self]
      exact s

theorem Acts.settleExpired (n : Port) (p : Part) (s : (p.port n).state = .settle) : Acts (only n) p (settleExpired n p) := by
  have tested : Acts (only n) p (Machine.testAdmission n (Machine.setTimers n (fun t => { t with settle := none }) p)) := by
    refine (Acts.setTimersSelf n _ p).testAdmission (only_self n) ?_
    rw [setTimers_port_self]
    dsimp only
    rw [s]
    decide
  unfold Machine.settleExpired
  dsimp only
  split
  · exact tested.applyDeferred (only_self n)
  · exact tested

theorem orderly.settleExpired (h : orderly H p) (r : settleRuns n p = true) : orderly H (settleExpired n p) := by
  refine h.own (.settleExpired n p ?_) (fun l => l.settleExpired r) (fun k => partOk_settleExpired k r)
  unfold settleRuns at r
  rw [Bool.and_eq_true] at r
  exact eq_of_beq r.1

theorem orderly.ranLong (h : orderly H p) (n : Port) : orderly H (Machine.updPort n PortRecord.ranLong p) := by
  refine h.updPort (fun l => l.retimed (f := PortRecord.ranLong) ?_ (fun a => (l.resting a).2)) (fun _ => ⟨rfl, rfl, rfl, rfl⟩)
  have t := l.timers
  unfold timersFit at t ⊢
  obtain ⟨deb, hello, ramp, settle, grace, restart, -⟩ := t
  exact ⟨deb, hello, ramp, settle, grace, restart, fun e => nomatch e⟩

theorem orderly.endDrain (h : orderly H p) (r : graceRuns n p = true) : orderly H (endDrain n p) := by
  refine h.own (Acts.refl.endDrain (only_self n)) (fun l => ?_) partOk_endDrain
  have t := l.timers
  unfold timersFit at t
  exact l.endDrain (t.2.2.2.2.1.1 r).1

theorem orderly.orderTaken (h : orderly H p) (n : Port) : orderly H (orderTaken n p) := by
  refine (h.same (.mapBu (f := fun b => { b with orders := b.orders.erase n }) p rfl)).own
    (Acts.refl.shedTaken (only_self n)) lawAt.shedTaken (fun _ => ?_)
  exact partOk_orderTaken h.queue

theorem lawAt.restartExpired (h : lawAt H n p) (r : restartRuns n p = true) : lawAt H n (restartExpired n p) := by
  have t := h.timers
  unfold timersFit at t
  have s : (p.port n).state = .restartWait := by
    have x := t.2.2.2.2.2.1
    unfold restartRuns at r
    rw [x] at r
    split at r
    · assumption
    · cases r
  have a := h.awake (by rw [s]; decide)
  have k := h.handAt a (by rw [s]; decide)
  have d := h.deferred_none (by rw [s]; decide) (by rw [s]; decide)
  unfold Machine.restartExpired
  split
  · exact (sent_moveTo n .off p rfl (by decide) (fun _ => rfl)).law a k d
  · exact (sent_toQueued n p).law a k d

theorem Acts.restartExpired (n : Port) (p : Part) : Acts (only n) p (restartExpired n p) := by
  unfold Machine.restartExpired
  split
  · exact Acts.refl.move (only_self n) _
  · exact Acts.refl.toQueued (only_self n)

theorem orderly.restartExpired (h : orderly H p) (r : restartRuns n p = true) : orderly H (restartExpired n p) :=
  h.own (.restartExpired n p) (fun l => l.restartExpired r) partOk_restartExpired

/-! ### Frames -/

theorem orderly.takeRequest (h : orderly H p) (kind : ReqKind) (tag cls : Fin 4) (offset length : Nat) (data : List Byte) :
    orderly H (takeRequest n kind tag cls offset length data p) := by
  unfold Machine.takeRequest
  split
  · unfold tagOverrun
    refine orderly.same ?_ (.reportError _ _)
    exact h.updPort (fun l => l.updPort) (fun _ => ⟨rfl, rfl, rfl, rfl⟩)
  split
  · exact h.same (.updLane _ _ p)
  split
  · exact h.same (.updLane _ _ p)
  · exact h.same ((Same.mapMo _ rfl rfl).trans (.updLane _ _ p))

theorem orderly.checkError (h : orderly H p) (n : Port) : orderly H (checkError n p) :=
  h.own (Acts.refl.checkError (only_self n)) lawAt.checkError
    (fun k => partOk_port k (checkError_fixed n p) (fun _ e => checkError_aside e p) (fun o _ => okAt_checkError o))

theorem orderly.takeHello (h : orderly H p) (i : Identity) : orderly H (takeHello n i p) :=
  h.own (Acts.refl.takeHello (only_self n) i) (fun l => l.takeHello i)
    (fun k => partOk_port k (takeHello_fixed n i p) (fun _ e => takeHello_aside e i p) (fun o _ => okAt_takeHello o))

theorem orderly.leaveTaken (h : orderly H p) : orderly H (leaveTaken n p) :=
  h.own (Acts.refl.leaveTaken (only_self n)) lawAt.leaveTaken
    (fun k => partOk_port k (leaveTaken_fixed n p) (fun _ e => leaveTaken_aside e p) okAt_leaveTaken)

theorem orderly.takeFrame (h : orderly H p) (n : Port) (f : RxFrame) : orderly H (takeFrame n f p) := by
  have o := h.same (.updLane n Lane.heard p)
  unfold Machine.takeFrame
  split
  · exact h
  split
  · unfold takeGood
    split
    · exact o.takeHello _
    · exact o.takeRequest _ _ _ _ _ _
    · exact o.takeRequest _ _ _ _ _ _
    · exact o
    · exact o.leaveTaken
  · exact h.checkError n

theorem orderly.takeBytes (h : orderly H p) (n : Port) (bytes : List Byte) : orderly H (takeBytes n bytes p) := by
  rcases takeBytes_cases n bytes p with e | e | ⟨f, e⟩ <;> rw [e]
  · exact h
  · exact h.checkError n
  · exact h.takeFrame n f

theorem orderly.answerEnds (h : orderly H p) (n : Port) : orderly H (answerEnds n p) := by
  unfold Machine.answerEnds
  split
  · exact h
  next a _ =>
    refine orderly.event (h.own (Acts.refl.answerSent (only_self n) a) (fun l => l.answerSent a) (fun k => ?_))
    exact partOk_port k (answerSent_fixed n a p) (fun _ e => answerSent_aside e a p) (fun o _ => okAt_answerSent o)

theorem orderly.silenceExpired (h : orderly H p) (n : Port) : orderly H (silenceExpired n p) :=
  h.own (Acts.refl.silenceExpired (only_self n)) lawAt.silenceExpired partOk_silenceExpired

/-! ### Standby and adoption -/

theorem lawAt.parked (h : lawAt H n p) (s : (p.port n).state = .queued ∨ (p.port n).state = .restartWait) :
    lawAt H n (moveTo n .parked p) := by
  have r : p.mrc.phase = .running := h.running (by rcases s with s | s <;> rw [s] <;> rfl)
  refine (sent_moveTo n .parked p rfl (by decide) (fun x => ?_)).law (awake_of_running r)
    (h.handAt (awake_of_running r) ?_) (h.deferred_none ?_ ?_)
  · rw [r] at x; cases x
  all_goals rcases s with s | s <;> rw [s] <;> decide

theorem lawAt.parkStarting (h : lawAt H n p) (s : (p.port n).state.starting = true) : lawAt H n (parkStarting n p) := by
  have r : p.mrc.phase = .running := h.running (by revert s; cases (p.port n).state <;> decide)
  refine h.sent_applyDeferred (awake_of_running r) (fun e => by rw [e] at s; cases s)
    (sent_moveTo n .parked p rfl (by decide) (fun x => ?_))
  rw [r] at x
  cases x

theorem lawAt.standbyPort (h : lawAt H n p) : lawAt H n (standbyPort n p) := by
  unfold Machine.standbyPort
  split
  next s => exact h.standbyOn s
  next s => exact h.parked (.inl s)
  next s => exact h.parkStarting (by rw [s]; rfl)
  next s => exact h.parkStarting (by rw [s]; rfl)
  next s => exact h.parkStarting (by rw [s]; rfl)
  next s => exact h.parked (.inr s)
  · exact h

theorem Acts.standbyPort (n : Port) (p : Part) : Acts (only n) p (standbyPort n p) := by
  unfold Machine.standbyPort Machine.parkStarting
  split
  · exact Acts.refl.standbyOn (only_self n)
  · exact Acts.refl.move (only_self n) _
  · exact (Acts.refl.move (only_self n) _).applyDeferred (only_self n)
  · exact (Acts.refl.move (only_self n) _).applyDeferred (only_self n)
  · exact (Acts.refl.move (only_self n) _).applyDeferred (only_self n)
  · exact Acts.refl.move (only_self n) _
  · exact .refl

theorem Same.setStandby (on : Bool) (p : Part) : Same (setStandby on p) p := (Same.reportDevice _ _).trans (.mapMrc p rfl)

theorem orderly.forPorts {f : Port → Part → Part} (h : orderly H p) (k : ∀ n p, orderly H p → orderly H (f n p)) :
    orderly H (forPorts f p) := orderly.foldl k allPorts h

theorem orderly.standbyEntered (h : orderly H p) : orderly H (standbyEntered p) := by
  refine orderly.event ?_
  exact (h.same (.setStandby true p)).forPorts (fun n p o => o.own (.standbyPort n p) lawAt.standbyPort partOk_standbyPort)

theorem orderly.unkeepPort (h : orderly H p) (n : Port) : orderly H (unkeepPort n p) := by
  have phases (m : PlanMode) (x : Option Drain) : (x.map (fun d =>
      if d.reason = .standby then { d with dest := if m = .off then .off else .queued } else d)).map Drain.phase = x.map Drain.phase := by
    rcases x with _ | d
    · rfl
    · rw [Option.map_some, Option.map_some, Option.map_some]
      split <;> rfl
  refine h.own (Acts.refl.upd (only_self n)) (fun l => l.updPort ⟨rfl, rfl, phases _ _, rfl, rfl, rfl, rfl⟩) partOk_unkeepPort

theorem parkedPorts_nodup (p : Part) : (parkedPorts p).Nodup :=
  (sortBy_perm _ _).nodup_iff.2 (List.Nodup.filter _ allPorts_nodup)

theorem mem_parkedPorts (p : Part) (n : Port) : n ∈ parkedPorts p ↔ (p.port n).state = .parked := by
  unfold parkedPorts
  rw [mem_sortBy, List.mem_filter]
  simp [mem_allPorts]

theorem lawAt.unpark (h : lawAt H n p) (s : (p.port n).state = .parked) : lawAt H n (toQueued n p) := by
  have a := h.awake (by rw [s]; decide)
  exact (sent_toQueued n p).law a (h.handAt a (by rw [s]; decide)) (h.deferred_none (by rw [s]; decide) (by rw [s]; decide))

/-- A port that is parked holds no entry. -/
theorem noEntry_parked (h : partOk queueAsked p) (s : (p.port n).state = .parked) : noEntry n p := by
  intro e he c
  rcases entry_state h he with x | x <;> rw [c, s] at x <;> cases x

/-- Parked ports queued one by one, each with a grant decision. -/
theorem orderly.unpark (l : List Port) (d : l.Nodup) (h : orderly H p) (s : ∀ n ∈ l, (p.port n).state = .parked) :
    orderly H (l.foldl (fun p n => Machine.event (toQueued n) p) p) := by
  induction l generalizing p with
  | nil => exact h
  | cons x rest ih =>
    obtain ⟨fresh, d⟩ := List.nodup_cons.1 d
    have o : orderly H (toQueued x p) :=
      h.own (Acts.refl.toQueued (only_self x)) (fun l => l.unpark (s x List.mem_cons_self)) partOk_toQueued
    refine ih d o.event (fun n hn => ?_)
    have ne : x ≠ n := fun e => fresh (e ▸ hn)
    have same : (toQueued x p).aside n = p.aside n := toQueued_aside ne p
    have st := (PortRecord.steady_keeps (Aside.record_of same)).1.trans (s n (List.mem_cons_of_mem _ hn))
    have kept := event_aside (f := toQueued x) p (noEntry_parked o.queue st)
    exact (PortRecord.steady_keeps (Aside.record_of kept)).1.trans st

theorem orderly.standbyExited (h : orderly H p) : orderly H (standbyExited p) := by
  refine orderly.event ?_
  have o := (h.same (.setStandby false p)).forPorts (fun n p o => o.unkeepPort n)
  exact orderly.unpark _ (parkedPorts_nodup _) o (fun n hn => (mem_parkedPorts _ n).1 hn)

theorem orderly.stbyAsserted (h : orderly H p) : orderly H (stbyAsserted p) := by
  have o : orderly H (setStby true p) := h.same (.mapMrc p rfl)
  unfold Machine.stbyAsserted
  split
  · exact o.standbyEntered
  · exact o

theorem orderly.stbyDeasserted (h : orderly H p) : orderly H (stbyDeasserted p) := by
  have o : orderly H (setStby false p) := h.same (.mapMrc p rfl)
  unfold Machine.stbyDeasserted
  split
  · exact o.standbyExited
  · exact o

theorem orderly.unadopted (h : orderly H p) (n : Port) : orderly H (unadopted n p) := by
  unfold Machine.unadopted
  split
  next c =>
    exact h.own (Acts.refl.startDrain (only_self n) _) (fun l => l.startDrain (.inr c.1) _)
      (fun k => partOk_startDrain k (.inr c.1))
  · exact h

theorem orderly.adoptionExpired (h : orderly H p) : orderly H (adoptionExpired p) :=
  orderly.event ((h.same ((Same.reportDevice _ _).trans (.mapMrc p rfl))).forPorts (fun n _ o => o.unadopted n))

/-! ### The resets with RTE low -/

/-- The port as a reset with RTE low and power-on reset leave it. -/
theorem lawAt_resting (a : ¬awake q) (s : (q.port n).state = .empty) (t : (q.port n).timers = stoppedTimers)
    (d : (q.port n).deferred = none) (k : q.handed n = (defaultPlan false).handed) : lawAt H n q where
  timers := by
    unfold timersFit
    rw [t, s]
    simp [stoppedTimers]
  deferred x := absurd d x
  waiting x := by rw [s] at x; cases x
  resting _ := ⟨s, by rw [t]; rfl⟩
  riding r := absurd (.inr r) a
  window _ x := absurd x a
  view _ x := absurd x a
  urgent _ x := absurd x a
  rested _ _ := k

theorem liveCopy_discarded (o : Option InFlight) (p : Part) (h : p.mo.inFlight = o.map InFlight.discarded) : liveCopy p = none := by
  rw [liveCopy_none_iff, h]
  intro s a l
  rcases o with _ | f
  · exact fun x => nomatch x
  · cases f <;> exact fun x => nomatch x

theorem resetLow_views (m : Sequencer) : m.resetLow.views = PerPort.all defaultView := by
  unfold Sequencer.resetLow
  split <;> rfl

theorem takeLowReset_port (c : ResetCause) (p : Part) (n : Port) :
    (takeLowReset c p).port n = resetRecord (p.port n).plan := by
  simp [takeLowReset, Part.port, PerPort.at]

theorem takeLowReset_handed (c : ResetCause) (p : Part) (n : Port) :
    (takeLowReset c p).handed n = (defaultPlan false).handed := by
  unfold Part.handed
  have v : (takeLowReset c p).ms.views = PerPort.all defaultView := resetLow_views p.ms
  rw [v]
  show (resetPassThrough.windows.at n, resetOrderer.classMap.at n, (PerPort.all defaultView).at n) = _
  unfold resetPassThrough resetOrderer
  rw [PerPort.at_all, PerPort.at_all, PerPort.at_all]
  rfl

theorem orderly_takeLowReset (H : Prop) (c : ResetCause) (p : Part) : orderly H (takeLowReset c p) := by
  have phase : (takeLowReset c p).mrc.phase = .holdRteLow := rfl
  have a : ¬awake (takeLowReset c p) := (not_awake_iff _).2 (.inr phase)
  refine ⟨fun n => ?_, partOk_takeLowReset, fun _ => ⟨rfl, liveCopy_discarded p.mo.inFlight _ rfl⟩⟩
  have e := takeLowReset_port c p n
  exact lawAt_resting a (by rw [e]; rfl) (by rw [e]; rfl) (by rw [e]; rfl) (takeLowReset_handed c p n)

theorem orderly_poweredUp (H : Prop) (pins : ModeReset) : orderly H (poweredUp pins) := by
  have a : ¬awake (poweredUp pins) := (not_awake_iff _).2 (.inl rfl)
  refine ⟨fun n => ?_, partOk_poweredUp, fun _ => ⟨rfl, rfl⟩⟩
  have e : (poweredUp pins).port n = resetRecord (defaultPlan false) := by
    simp [poweredUp, powerOnPart, Part.port]
  refine lawAt_resting a (by rw [e]; rfl) (by rw [e]; rfl) (by rw [e]; rfl) ?_
  show (resetPassThrough.windows.at n, resetOrderer.classMap.at n, resetSequencer.views.at n) = _
  unfold resetPassThrough resetOrderer resetSequencer
  rw [PerPort.at_all, PerPort.at_all, PerPort.at_all]
  rfl

/-- In a part that runs the area engine may be changed in any way. -/
theorem orderly.mapAe (h : orderly H p) (r : p.mrc.phase = .running) (f : AreaEngine → AreaEngine) : orderly H (p.mapAe f) :=
  ⟨fun n => (h.ports n).of_ports rfl rfl rfl, partOk_queue_congr h.queue rfl rfl, fun x => absurd r x⟩

theorem defaultPlan_handed (auto : Bool) : (defaultPlan auto).handed = (defaultPlan false).handed := rfl

/-- The ports of a hold with RTE low as the default plan has been stored in each. -/
theorem placed (h : orderly H p) (a : ¬awake p) : ∀ n, ((forPorts placeDefault p).port n).state = .empty ∧
    ((forPorts placeDefault p).port n).plan = defaultPlan p.mrc.straps.auto ∧
    lawAt H n (forPorts placeDefault p) ∧ (forPorts placeDefault p).mrc = p.mrc := by
  have port (n : Port) (q : Part) (s : (q.port n).state = .empty) :
      placeDefault n q = q.setPort n { q.port n with plan := defaultPlan q.mrc.straps.auto } := by
    unfold placeDefault
    rw [if_pos s]
  have resting (m : Port) (q : Part) (l : lawAt H m q) (e : q.mrc = p.mrc) : (q.port m).state = .empty :=
    (l.resting (fun x => a ((awake_congr (by rw [e])).1 x))).1
  have o := forPorts_each (f := placeDefault) (I := fun q => q.mrc = p.mrc) (Pre := fun n q => lawAt H n q)
    (Post := fun n q => lawAt H n q ∧ (q.port n).plan = defaultPlan p.mrc.straps.auto) (p := p)
    (fun n q i l => by rw [port n q (resting n q l i)]; exact i)
    (fun n q i l => by
      rw [port n q (resting n q l i)]
      have na : ¬awake (q.setPort n { q.port n with plan := defaultPlan q.mrc.straps.auto }) :=
        fun x => a ((awake_congr (by rw [Part.setPort_mrc, i])).1 x)
      have d := l.deferred_none (by rw [resting n q l i]; decide) (by rw [resting n q l i]; decide)
      refine ⟨?_, by rw [Part.setPort_port_self, i]⟩
      have x : ¬awake q := fun x => a ((awake_congr (by rw [i])).1 x)
      constructor <;> simp only [Part.setPort_port_self]
      · exact l.timers
      · exact l.deferred
      · exact fun s => by rw [resting n q l i] at s; cases s
      · exact fun _ => l.resting x
      · exact fun r => absurd (.inr r) na
      · exact fun _ y => absurd y na
      · exact fun _ y => absurd y na
      · exact fun _ y => absurd y na
      · exact fun i _ => l.rested i x)
    (fun m n q ne i l => by
      unfold placeDefault
      split
      · exact l.of_aside rfl (setPort_aside (Ne.symm ne) _ _) rfl
      · exact l)
    (fun m n q ne i l => by
      unfold placeDefault
      split
      · exact ⟨l.1.of_aside rfl (setPort_aside (Ne.symm ne) _ _) rfl, by rw [Part.setPort_port_ne (Ne.symm ne)]; exact l.2⟩
      · exact l)
    rfl h.ports
  intro n
  obtain ⟨i, each⟩ := o
  exact ⟨resting n _ (each n).1 i, (each n).2, (each n).1, i⟩

/-- What every port's turn keeps, an operation made for every port keeps. -/
theorem forPorts_keeps {f : Port → Part → Part} {I : Part → Prop} (k : ∀ n p, I p → I (f n p)) (i : I p) : I (forPorts f p) := by
  have step (l : List Port) (q : Part) (i : I q) : I (l.foldl (fun p n => f n p) q) := by
    induction l generalizing q with
    | nil => exact i
    | cons x rest ih => exact ih _ (k x q i)
  exact step allPorts p i

theorem orderly.startDebouncer (h : orderly H p) (r : p.mrc.phase = .running) (n : Port) (s : (p.port n).state = .empty) :
    orderly H (startDebouncer n p) := h.debounced s (fun a => absurd (awake_of_running r) a)

theorem startDebouncer_keeps (n m : Port) (p : Part) : (startDebouncer n p).mrc = p.mrc ∧
    ((startDebouncer n p).port m).state = (p.port m).state := by
  unfold startDebouncer
  refine ⟨setTimers_mrc _ _ _, ?_⟩
  by_cases e : n = m
  · subst e
    rw [setTimers_port_self]
  · rw [setTimers_port_ne e]

theorem orderly.startDebouncers (h : orderly H p) (r : p.mrc.phase = .running) (s : ∀ n, (p.port n).state = .empty) :
    orderly H (startDebouncers p) ∧ (startDebouncers p).mrc.phase = .running ∧ ∀ n, ((startDebouncers p).port n).state = .empty := by
  unfold Machine.startDebouncers
  refine forPorts_keeps (I := fun q => orderly H q ∧ q.mrc.phase = .running ∧ ∀ n, (q.port n).state = .empty) ?_ ⟨h, r, s⟩
  rintro n q ⟨o, r, s⟩
  split
  · refine ⟨o.startDebouncer r n (s n), ?_, fun m => ?_⟩
    · rw [(startDebouncer_keeps n n q).1]; exact r
    · rw [(startDebouncer_keeps n m q).2]; exact s m
  · exact ⟨o, r, s⟩

theorem orderly.sampleStby (h : orderly H p) : orderly H (sampleStby p) := by
  unfold Machine.sampleStby
  split
  · exact h.standbyEntered
  · exact h

/-- A port of a plain reset that ends, with the default plan stored. -/
theorem lawAt_plainEnd {auto : Bool} (l : lawAt H n q) (a : ¬awake q) (pl : (q.port n).plan = defaultPlan auto) :
    lawAt H n (setPhase .running q) := by
  refine lawAt_running rfl l.timers l.deferred l.waiting (fun i => ?_)
  have hd : (setPhase .running q).handed n = (defaultPlan false).handed := l.rested i a
  have pl' : ((setPhase .running q).port n).plan = defaultPlan auto := pl
  rw [hd, pl', ← defaultPlan_handed auto]
  exact ⟨rfl, rfl, fun _ => rfl⟩

theorem setPhase_port (x : ResetPhase) (p : Part) (n : Port) : ((setPhase x p).port n) = p.port n := rfl

theorem orderly.endPlainReset (h : orderly H p) (a : ¬awake p) : orderly H (endPlainReset p) := by
  have each := placed h a
  have q : orderly H (setPhase .running (Machine.forPorts placeDefault p)) := by
    refine ⟨fun n => ?_, partOk_mapMrc (partOk_forPorts (fun _ _ => partOk_placeDefault) h.queue), fun x => absurd rfl x⟩
    obtain ⟨-, pl, l, mrc⟩ := each n
    exact lawAt_plainEnd l (fun x => a ((awake_congr (by rw [mrc])).1 x)) pl
  obtain ⟨o, r, -⟩ := q.startDebouncers rfl (fun n => by rw [setPhase_port]; exact (each n).1)
  unfold Machine.endPlainReset
  exact ((o.mapAe r _).sampleStby).arrivePresented

end

end Sys2Proof.Machine
end

