-- ==== Sys2Proof/Proofs/RideThrough.lean ====
section
/-! The port laws through a reset with ride-through, and with them every command: O55. -/

namespace Sys2Proof.Machine

section
variable {H : Prop} {n : Port} {p q : Part}

/-! ### The take of the reset -/

/-- A reset with ride-through is taken, its port work not yet done: the laws that held while the part ran. -/
def rideDue (H : Prop) (n : Port) (p : Part) : Prop := lawAt H n (setPhase .running p)

theorem setPhase_handed (x : ResetPhase) (p : Part) : (setPhase x p).handed n = p.handed n := rfl

theorem rideDue.acts {S : Port → Prop} (h : rideDue H n p) (a : Acts S p q) (hn : ¬S n) : rideDue H n q := by
  obtain ⟨k, e⟩ := a.record hn
  have hd : (setPhase .running q).handed n = (setPhase .running p).handed n := by
    rw [setPhase_handed, setPhase_handed]
    exact a.handed hn
  unfold rideDue at h ⊢
  refine lawAt.congr h rfl hd ?_ ?_ ?_ ?_ ?_ ?_ ?_ <;> rw [setPhase_port, setPhase_port, e]

/-- A port of a ride-through hold outside DRAIN. -/
theorem lawAt_riding (r : q.mrc.phase = .holdRideThrough) (t : timersFit (q.port n)) (d : (q.port n).deferred = none)
    (s : (q.port n).state.rides = true) (ad : (q.port n).state = .orphan → (q.port n).adopted = false)
    (k : H → q.handed n = (q.port n).plan.handed) : lawAt H n q := by
  have a : awake q := .inr r
  constructor
  · exact t
  · exact fun x => absurd d x
  · exact fun x => by rw [x] at s; cases s
  · exact fun x => absurd a x
  · exact fun _ => ⟨s, ad⟩
  · exact fun i _ => by rw [k i]; rfl
  · exact fun i _ _ => by rw [k i]; rfl
  · exact fun i _ _ _ => by rw [k i]; rfl
  · exact fun _ x => absurd a x

theorem rideDue.handed (h : rideDue H n p) (s : (p.port n).state ≠ .drain) (i : H) : p.handed n = (p.port n).plan.handed := by
  obtain ⟨window, view, urgent⟩ := lawAt.handAt h (awake_of_running rfl) s i
  rw [← setPhase_handed .running p, ← setPhase_port .running p n]
  exact Prod.ext window (Prod.ext (urgent rfl) view)

/-- A port that a reset with ride-through sends on to OFF. -/
theorem lawAt_rideOff (r : p.mrc.phase = .holdRideThrough) (d : (p.port n).deferred = none)
    (k : H → p.handed n = (p.port n).plan.handed) : lawAt H n (moveTo n .off p) := by
  have e := moveTo_port_self n .off p
  refine lawAt_riding (by simpa using r) (timersFit_open (by rw [e.state]; rfl) ?_) (e.deferred.trans d) (by rw [e.state]; rfl)
    (fun x => by rw [e.state] at x; cases x) (fun i => ?_)
  · rw [e.timers, e.state]; rfl
  · rw [moveTo_handed, e.plan]; exact k i

theorem rideDue.dropped (h : rideDue H n p) (r : p.mrc.phase = .holdRideThrough) (s : (p.port n).state ≠ .drain) :
    lawAt H n (moveTo n .off (dropDeferred n p)) := by
  have e : (dropDeferred n p).port n = { p.port n with deferred := none } := takeDeferred_port n p
  refine lawAt_rideOff ?_ (by rw [e]) (fun i => ?_)
  · unfold dropDeferred; rw [takeDeferred_mrc]; exact r
  · rw [e]
    unfold dropDeferred
    rw [takeDeferred_handed]
    exact h.handed s i

theorem rideDue.none (h : rideDue H n p) (x : (p.port n).state ≠ .ramp) (y : (p.port n).state ≠ .settle) :
    (p.port n).deferred = Option.none := by
  rw [← setPhase_port .running p n] at x y ⊢
  exact lawAt.deferred_none h x y

theorem rideDue.timers (h : rideDue H n p) : timersFit (p.port n) := by
  have l : lawAt H n (setPhase .running p) := h
  exact l.timers

theorem rideDue.draining (h : rideDue H n p) (r : p.mrc.phase = .holdRideThrough) (s : (p.port n).state = .drain) :
    lawAt H n p := by
  have a : awake p := .inr r
  have l : lawAt H n (setPhase .running p) := h
  have d := h.none (by rw [s]; decide) (by rw [s]; decide)
  constructor
  · exact h.timers
  · exact fun x => absurd d x
  · exact fun x => by rw [s] at x; cases x
  · exact fun x => absurd a x
  · rw [s]; exact fun _ => ⟨rfl, fun x => nomatch x⟩
  · exact fun i _ => l.window i (awake_of_running rfl)
  · exact fun _ _ x => absurd s x
  · exact fun _ _ x => absurd s x
  · exact fun _ x => absurd a x

/-- The port's work at the take of the reset. -/
theorem rideDue.ridden (h : rideDue H n p) (r : p.mrc.phase = .holdRideThrough) : lawAt H n (ridePort n p) := by
  have off (x : (p.port n).state ≠ .ramp) (y : (p.port n).state ≠ .settle) (z : (p.port n).state ≠ .drain) :
      lawAt H n (moveTo n .off p) := lawAt_rideOff r (h.none x y) (h.handed z)
  unfold ridePort
  split
  next s =>
    have e := moveTo_port_self n .orphan p
    refine lawAt_riding (by simpa using r) ?_ (e.deferred.trans (h.none (by rw [s]; decide) (by rw [s]; decide)))
      (by rw [e.state]; rfl) (fun _ => e.adopted) (fun i => ?_)
    · unfold timersFit
      rw [e.timers, e.state]
      simp [stoppedTimers]
    · rw [moveTo_handed, e.plan]; exact h.handed (by rw [s]; decide) i
  next s =>
    refine lawAt_riding (by simpa using r) ?_ ?_ ?_ ?_ (fun i => ?_)
    · rw [updPort_port_self]; exact h.timers
    · rw [updPort_port_self]; exact h.none (by rw [s]; decide) (by rw [s]; decide)
    · rw [updPort_port_self]; dsimp only; rw [s]; rfl
    · rw [updPort_port_self]; exact fun _ => rfl
    · rw [updPort_handed, updPort_port_self]; exact h.handed (by rw [s]; decide) i
  next s => exact h.draining r s
  next s => exact h.dropped r (by rw [s]; decide)
  next s => exact h.dropped r (by rw [s]; decide)
  next s => exact h.dropped r (by rw [s]; decide)
  next s => exact off (by rw [s]; decide) (by rw [s]; decide) (by rw [s]; decide)
  next s => exact off (by rw [s]; decide) (by rw [s]; decide) (by rw [s]; decide)
  next s => exact off (by rw [s]; decide) (by rw [s]; decide) (by rw [s]; decide)
  next s => exact off (by rw [s]; decide) (by rw [s]; decide) (by rw [s]; decide)
  next s =>
    exact lawAt_riding r h.timers (h.none (by rw [s]; decide) (by rw [s]; decide)) (by rw [s]; rfl)
      (fun x => by rw [s] at x; cases x) (h.handed (by rw [s]; decide))
  next s =>
    exact lawAt_riding r h.timers (h.none (by rw [s]; decide) (by rw [s]; decide)) (by rw [s]; rfl)
      (fun x => by rw [s] at x; cases x) (h.handed (by rw [s]; decide))

theorem Acts.ridePort (n : Port) (p : Part) : Acts (only n) p (ridePort n p) := by
  unfold Machine.ridePort dropDeferred
  split
  · exact Acts.refl.move (only_self n) _
  · exact Acts.refl.upd (only_self n)
  · exact .refl
  · exact (Acts.refl.takeDeferred (only_self n)).move (only_self n) _
  · exact (Acts.refl.takeDeferred (only_self n)).move (only_self n) _
  · exact (Acts.refl.takeDeferred (only_self n)).move (only_self n) _
  · exact Acts.refl.move (only_self n) _
  · exact Acts.refl.move (only_self n) _
  · exact Acts.refl.move (only_self n) _
  · exact Acts.refl.move (only_self n) _
  · exact .refl
  · exact .refl

/-- The ports after their work at the take of the reset. -/
theorem ridden (h : orderly H p) (r : p.mrc.phase = .running) (c : ResetCause) :
    let q := forPorts ridePort (p.mapMrc (ModeReset.taken c true))
    q.mrc.phase = .holdRideThrough ∧ (∀ n, lawAt H n q) ∧ partOk queueAsked q := by
  have due (n : Port) : rideDue H n (p.mapMrc (ModeReset.taken c true)) := (h.ports n).of_ports rfl rfl r.symm
  obtain ⟨phase, laws⟩ := forPorts_each (f := ridePort) (I := fun q => q.mrc.phase = .holdRideThrough) (Pre := rideDue H)
    (Post := lawAt H) (fun n q i _ => by rw [(Acts.ridePort n q).mrc]; exact i) (fun n q i l => l.ridden i)
    (fun m n q ne _ l => l.acts (.ridePort n q) ne) (fun m n q ne _ l => l.acts (.ridePort n q) ne) rfl due
  exact ⟨phase, laws, partOk_forPorts (fun _ _ => partOk_ridePort) (partOk_mapMrc h.queue)⟩

theorem ride_views (m : Sequencer) : m.ride.views = m.views := by
  unfold Sequencer.ride
  dsimp only
  cases m.mode <;> dsimp only
  split <;> rfl

theorem rideBlocks_handed (n : Port) (p : Part) : (rideBlocks p).handed n =
    ((p.handed n).1, if (p.port n).state.closed then (p.handed n).2.1 else (defaultPlan false).urgent, (p.handed n).2.2) := by
  have v : (rideBlocks p).ms.views = p.ms.views := ride_views p.ms
  have m : (rideBlocks p).mo.classMap.at n =
      if (p.port n).state.closed then p.mo.classMap.at n else (defaultPlan false).urgent := by
    show PerPort.at (Vector.ofFn _) n = _
    simp [PerPort.at]
  unfold Part.handed
  rw [v, m]
  rfl

/-- The other blocks at the take of the reset: the class map follows for the closed ports. -/
theorem lawAt.rideBlocks (h : lawAt H n p) (r : p.mrc.phase = .holdRideThrough) : lawAt H n (rideBlocks p) := by
  have a : Machine.awake p := .inr r
  have port : (Machine.rideBlocks p).port n = p.port n := rfl
  have phase : (Machine.rideBlocks p).mrc.phase = p.mrc.phase := rfl
  have a' := (awake_congr phase).2 a
  have hd := rideBlocks_handed n p
  constructor
  · rw [port]; exact h.timers
  · rw [port]; exact h.deferred
  · rw [port]; exact h.waiting
  · exact fun x => absurd a' x
  · rw [port, phase]; exact h.riding
  · rw [port, hd]; exact fun i _ => h.window i a
  · rw [port, hd]; exact fun i _ s => h.view i a s
  · rw [port, phase, hd]
    intro i _ s c
    have o : (p.port n).state = .orphan := c.resolve_left (fun x => by rw [r] at x; cases x)
    have cl : (p.port n).state.closed = true := by rw [o]; rfl
    dsimp only
    rw [if_pos cl]
    exact h.urgent i a s c
  · exact fun _ x => absurd a' x

/-- In a ride-through hold no port holds an entry. -/
theorem queue_riding (h : partOk queueAsked p) (s : ∀ n, (p.port n).state.rides = true) : p.bu.queue = [] := by
  rw [List.eq_nil_iff_forall_not_mem]
  intro e he
  rcases entry_state h he with x | x
  · have k := s e.port
    rw [x] at k
    cases k
  · have k := s e.port
    rw [x] at k
    cases k

theorem budgetAfter_riding (h : partOk queueAsked p) (s : ∀ n, (p.port n).state.rides = true) (b : Bool) :
    Acts (fun _ => False) p (budgetAfter b p) := by
  refine Acts.refl.budgetAfter ?_ b
  rw [queue_riding h s]
  exact fun e he => absurd he List.not_mem_nil

theorem Same.reportMode (m : SeqMode) (p : Part) : Same (reportMode m p) p := by
  unfold Machine.reportMode
  split
  · exact .refl p
  · exact .reportDevice _ p

theorem liveCopy_withdrawn (o : Option InFlight) (p : Part) (h : p.mo.inFlight = o.map InFlight.withdrawn) : liveCopy p = none := by
  rw [liveCopy_none_iff, h]
  intro s a l
  rcases o with _ | f
  · exact fun x => nomatch x
  · cases f <;> exact fun x => nomatch x

theorem orderly.takeRide (h : orderly H p) (r : p.mrc.phase = .running) (c : ResetCause) :
    orderly H (takeRide c p) ∧ (takeRide c p).mrc.phase = .holdRideThrough := by
  obtain ⟨phase, laws, queue⟩ := ridden h r c
  unfold Machine.takeRide
  dsimp only
  generalize Machine.forPorts Machine.ridePort (p.mapMrc (ModeReset.taken c true)) = q at phase laws queue
  have ports : ∀ n, lawAt H n (Machine.rideBlocks q) := fun n => (laws n).rideBlocks phase
  have queue' : partOk queueAsked (Machine.rideBlocks q) := partOk_rideBlocks queue
  have acts := budgetAfter_riding queue' (fun n => ((ports n).riding phase).1) true
  have phase' : (Machine.budgetAfter true (Machine.rideBlocks q)).mrc.phase = .holdRideThrough := by rw [acts.mrc]; exact phase
  refine ⟨orderly.same (p := (Machine.budgetAfter true (Machine.rideBlocks q)).mapAe AreaEngine.taken) ?_ (.reportMode _ _), ?_⟩
  · refine ⟨fun n => ?_, ?_, fun _ => ⟨rfl, ?_⟩⟩
    · exact ((ports n).acts acts id).of_ports rfl rfl rfl
    · exact partOk_queue_congr (partOk_budgetAfter queue') rfl rfl
    · have free : liveCopy (Machine.rideBlocks q) = none := liveCopy_withdrawn q.mo.inFlight _ rfl
      exact (Same.mapMo (f := id) _ rfl rfl).live.trans (acts.live.trans free)
  · rw [(Same.reportMode _ _).phase]
    exact phase'

/-! ### The end of the reset -/

/-- What a ride-through hold leaves of a port: its switch may have been opened by a Control Area that moved onto its window. -/
structure rideAt (H : Prop) (n : Port) (p : Part) : Prop where
  timers : timersFit (p.port n)
  deferred : (p.port n).deferred = none
  rides : (p.port n).state.rides = true
  window : H → (p.handed n).1 = (p.port n).plan.handed.1
  orphan : H → (p.port n).state = .orphan → p.handed n = (p.port n).plan.handed

theorem rideAt.congr (h : rideAt H n p) {k : Nat} (e : q.port n = { p.port n with stamp := k }) (hd : q.handed n = p.handed n) :
    rideAt H n q := by
  obtain ⟨t, d, r, w, o⟩ := h
  constructor
  · rw [e]; exact t
  · rw [e]; exact d
  · rw [e]; exact r
  · rw [e, hd]; exact w
  · rw [e, hd]; exact o

theorem rideAt.acts {S : Port → Prop} (h : rideAt H n p) (a : Acts S p q) (hn : ¬S n) : rideAt H n q := by
  obtain ⟨k, e⟩ := a.record hn
  exact h.congr e (a.handed hn)

theorem rideAt.same (h : rideAt H n p) (ports : q.ports = p.ports) (hd : q.handed n = p.handed n) : rideAt H n q := by
  refine h.congr (k := (p.port n).stamp) ?_ hd
  unfold Part.port
  rw [ports]

theorem lawAt.rideAt (h : lawAt H n p) (r : p.mrc.phase = .holdRideThrough) : rideAt H n p := by
  have a : Machine.awake p := .inr r
  have s := (h.riding r).1
  refine ⟨h.timers, h.deferred_none (fun x => by rw [x] at s; cases s) (fun x => by rw [x] at s; cases s), s,
    fun i => h.window i a, fun i o => ?_⟩
  have ne : (p.port n).state ≠ .drain := by rw [o]; decide
  exact Prod.ext (h.window i a) (Prod.ext (h.urgent i a ne (.inr o)) (h.view i a ne))

theorem rideAt.stopIfMet (h : rideAt H n p) : rideAt H n (stopIfMet n p) := by
  obtain ⟨t, d, r, w, o⟩ := h
  have e := moveTo_port_self n .off p
  unfold Machine.stopIfMet
  split
  · constructor
    · refine timersFit_open (by rw [e.state]; rfl) ?_
      rw [e.timers, e.state]; rfl
    · rw [e.deferred]; exact d
    · rw [e.state]; rfl
    · rw [moveTo_handed, e.plan]; exact w
    · rw [e.state]; exact fun _ x => nomatch x
  · exact ⟨t, d, r, w, o⟩

theorem Acts.stopIfMet (n : Port) (p : Part) : Acts (only n) p (stopIfMet n p) := by
  unfold Machine.stopIfMet
  split
  · exact Acts.refl.move (only_self n) _
  · exact .refl

theorem forPorts_own {f : Port → Part → Part} {P : Port → Part → Prop} (acts : ∀ n p, Acts (only n) p (f n p))
    (own : ∀ n p, P n p → P n (f n p)) (others : ∀ m n p, m ≠ n → Acts (only n) p (f n p) → P m p → P m (f n p))
    (h : ∀ n, P n p) : ∀ n, P n (forPorts f p) :=
  (forPorts_each (I := fun _ => True) (fun _ _ _ _ => trivial) (fun n q _ l => own n q l)
    (fun m n q ne _ l => others m n q ne (acts n q) l) (fun m n q ne _ l => others m n q ne (acts n q) l) trivial h).2

theorem rideAt_latchRide (s : Straps) (h : ∀ n, rideAt H n p) : ∀ n, rideAt H n (latchRide s p) := by
  have l (n : Port) : rideAt H n (latch s p) := (h n).same rfl rfl
  unfold latchRide
  dsimp only
  split
  · exact l
  · exact forPorts_own (fun n p => .stopIfMet n p) (fun _ _ l => l.stopIfMet) (fun m n p ne a l => l.acts a ne) l

theorem rideAt_latched (s : Straps) (h : ∀ n, rideAt H n p) (k : partOk queueAsked p) :
    (∀ n, rideAt H n (event (latchRide s) p)) ∧ partOk queueAsked (event (latchRide s) p) := by
  have l := rideAt_latchRide s h
  have k' : partOk queueAsked (latchRide s p) := partOk_latchRide k
  have a := budgetAfter_riding k' (fun n => (l n).rides) (decisionTrigger p (latchRide s p))
  exact ⟨fun n => (l n).acts a id, partOk_event k'⟩

theorem Acts.rideDefault (n : Port) (p : Part) : Acts (only n) p (rideDefault n p) := by
  unfold Machine.rideDefault
  split
  · exact .refl
  · exact .refl
  · exact (Acts.refl.replacePlan (only_self n) _).retarget (only_self n)
  · exact Acts.refl.storePlan (only_self n) _

theorem replacePlan_mrc (n : Port) (plan : Plan) (p : Part) : (replacePlan n plan p).mrc = p.mrc :=
  Part.mrc_of_fixed (replacePlan_fixed n plan p)

theorem replacePlan_handed (n : Port) (plan : Plan) (p : Part) : ((replacePlan n plan p).handed n).1 = plan.handed.1 :=
  replacePlan_window n plan p

/-- The default plan stored at a port as the part runs again. -/
theorem rideAt.default (h : rideAt H n p) (r : p.mrc.phase = .running) : lawAt H n (rideDefault n p) := by
  obtain ⟨t, d, rides, w, o⟩ := h
  have ne {st : PortState} (x : st.rides = false) : (p.port n).state ≠ st := fun e => by rw [e, x] at rides; cases rides
  unfold rideDefault
  split
  next s =>
    refine lawAt_running r t (fun x => absurd d x) (fun x => absurd x (ne rfl)) (fun i => ?_)
    rw [o i s]
    exact ⟨rfl, rfl, fun _ => rfl⟩
  next s => exact absurd s (ne rfl)
  next s =>
    obtain ⟨b, c, e⟩ := replacePlan_record n (defaultPlan p.mrc.straps.auto) p
    have a : awake (replacePlan n (defaultPlan p.mrc.straps.auto) p) := awake_of_running (running_congr (replacePlan_mrc n _ p) r)
    refine lawAt.retarget ?_
    have st : ((replacePlan n (defaultPlan p.mrc.straps.auto) p).port n).state = .drain := by rw [e]; exact s
    constructor
    · rw [e]; exact t
    · rw [e]; exact fun x => absurd d x
    · rw [st]; exact fun x => nomatch x
    · exact fun x => absurd a x
    · rw [replacePlan_mrc, r]; exact fun x => nomatch x
    · exact fun _ _ => by rw [replacePlan_handed, replacePlan_plan]; rfl
    · exact fun _ _ x => absurd st x
    · exact fun _ _ x => absurd st x
    · exact fun _ x => absurd a x
  next =>
    obtain ⟨b, c, e⟩ := storePlan_record n (defaultPlan p.mrc.straps.auto) p
    refine lawAt_running (running_congr (storePlan_mrc n _ p) r) ?_ ?_ ?_ (storePlan_handAt H n _ p)
    · rw [e]; exact t
    · rw [e]; exact fun x => absurd d x
    · rw [e]; exact fun x => absurd x (ne rfl)

theorem orderly.rideClean (h : orderly H p) (n : Port) : orderly H (rideClean n p) := by
  unfold Machine.rideClean
  split
  · exact h.own (Acts.refl.upd (only_self n)) (fun l => l.updPort) (fun k => partOk_updPort k (fun _ => ⟨rfl, rfl, rfl, rfl⟩))
  · exact h

theorem orderly.rideQueue (h : orderly H p) (n : Port) : orderly H (rideQueue n p) := by
  unfold Machine.rideQueue
  split
  next c =>
    rw [Bool.and_eq_true] at c
    have s : (p.port n).state = .off := eq_of_beq c.2
    refine orderly.event (h.own (Acts.refl.toQueued (only_self n)) (fun l => ?_) partOk_toQueued)
    have a := l.awake (by rw [s]; decide)
    exact (sent_toQueued n p).law a (l.handAt a (by rw [s]; decide)) (l.deferred_none (by rw [s]; decide) (by rw [s]; decide))
  · exact h

theorem orderly_ridePlans (h : ∀ n, rideAt H n p) (k : partOk queueAsked p) :
    orderly H (ridePlans p) ∧ (ridePlans p).mrc.phase = .running := by
  obtain ⟨phase, laws⟩ := forPorts_each (f := rideDefault) (I := fun q => q.mrc.phase = .running) (Pre := rideAt H)
    (Post := lawAt H) (p := setPhase .running p) (fun n q i _ => by rw [(Acts.rideDefault n q).mrc]; exact i)
    (fun n q i l => l.default i) (fun m n q ne _ l => l.acts (.rideDefault n q) ne)
    (fun m n q ne _ l => l.acts (.rideDefault n q) ne) rfl (fun n => (h n).same rfl rfl)
  have queue : partOk queueAsked (forPorts rideDefault (setPhase .running p)) :=
    partOk_forPorts (fun _ _ => partOk_rideDefault) (partOk_mapMrc k)
  have o : orderly H (forPorts rideDefault (setPhase .running p)) := ⟨laws, queue, fun x => absurd phase x⟩
  refine ⟨(o.forPorts (fun n _ o => o.rideClean n)).forPorts (fun n _ o => o.rideQueue n), ?_⟩
  have clean (n : Port) (q : Part) : (rideClean n q).mrc = q.mrc := by
    unfold rideClean
    split
    · exact updPort_mrc _ _ _
    · rfl
  have queued (n : Port) (q : Part) : (rideQueue n q).mrc = q.mrc := by
    unfold rideQueue
    split
    · exact Part.mrc_of_fixed (event_fixed q (toQueued_fixed n q))
    · rfl
  unfold ridePlans
  refine forPorts_keeps (I := fun q => q.mrc.phase = .running) (fun n q i => by rw [queued]; exact i) ?_
  exact forPorts_keeps (I := fun q => q.mrc.phase = .running) (fun n q i => by rw [clean]; exact i) phase

theorem Same.startAdoption (p : Part) : Same (startAdoption p) p := by
  unfold Machine.startAdoption
  split
  · exact (Same.reportDevice _ _).trans (.mapMrc p rfl)
  · exact .refl p

theorem orderly_endRide (h : ∀ n, rideAt H n p) (k : partOk queueAsked p) : orderly H (endRide p) := by
  obtain ⟨o, r⟩ := orderly_ridePlans h k
  have e : (event ridePlans p).mrc.phase = .running := by
    unfold event
    rw [Part.mrc_of_fixed (budgetAfter_fixed _ _)]
    exact r
  unfold endRide
  refine orderly.arrivePresented (orderly.mapAe (o.event.same (.startAdoption _)) ?_ _)
  rw [(Same.startAdoption _).phase]
  exact e

theorem orderly.externalReset (h : orderly H p) (r : p.mrc.phase = .running) : orderly H (externalReset p) := by
  unfold Machine.externalReset
  split
  · exact (h.takeRide r _).1
  · exact orderly_takeLowReset H _ p

theorem orderly.softReset (h : orderly H p) (r : p.mrc.phase = .running) : orderly H (softReset p) := by
  unfold Machine.softReset
  split
  · obtain ⟨o, phase⟩ := h.takeRide r .soft
    exact orderly_endRide (fun n => (o.ports n).rideAt phase) o.queue
  · exact (orderly_takeLowReset H _ p).endPlainReset ((not_awake_iff _).2 (.inr rfl))

theorem Same.latch (s : Straps) (p : Part) : Same (latch s p) p := .mapMrc p rfl

theorem orderly.endExternalReset (h : orderly H p) (s : Straps) : orderly H (endExternalReset s p) := by
  have o := h.same (.latch s p)
  unfold Machine.endExternalReset
  split
  next x =>
    split
    · exact o.endPlainReset ((not_awake_iff _).2 (.inl x))
    · exact o
  next x => exact o.endPlainReset ((not_awake_iff _).2 (.inr x))
  next x =>
    obtain ⟨l, k⟩ := rideAt_latched s (fun n => (h.ports n).rideAt x) h.queue
    exact orderly_endRide l k
  · exact h

theorem orderly.endPowerOn (h : orderly H p) (r : powerOnRuns p = true) (s : Straps) : orderly H (endPowerOn s p) := by
  unfold powerOnRuns at r
  rw [Bool.and_eq_true] at r
  have x : p.mrc.phase = .powerOn := eq_of_beq r.1
  have o : orderly H (p.mapMrc (fun m => { m with powerOnOver := true })) := h.same (.mapMrc p rfl)
  unfold Machine.endPowerOn
  dsimp only
  split
  · exact o
  · exact (o.same (.latch s _)).endPlainReset ((not_awake_iff _).2 (.inl x))

theorem orderly.resetnAsserted (h : orderly H p) : orderly H (resetnAsserted p) := by
  have o : orderly H (lowerResetn p) := h.same (.mapMrc p rfl)
  unfold Machine.resetnAsserted
  split
  next r => exact o.externalReset r
  · exact o

/-! ### Every command -/

theorem orderly.of_event {c : Instr} (h : orderly H p) (e : Event p c q) : orderly H q := by
  cases e
  case powerOnResetEnd can => exact h.endPowerOn can _
  case resetnAssert => exact h.resetnAsserted
  case resetnDeassert => exact orderly.endExternalReset (h.same (.mapMrc p rfl)) _
  case softResetTake can =>
    unfold softResetDue at can
    rw [Bool.and_eq_true] at can
    exact h.softReset (eq_of_beq can.2)
  case converterWarmupEnd => exact h.warmupEnd
  case presenceAssert n _ => exact h.presenceAsserted n
  case arrival can => exact (h.arrived can).event
  case presenceLoss n _ => exact h.presenceLost n
  case helloTimerExpiry can => exact (h.noHello can).event
  case rampTimerExpiry n _ => exact (h.failPort n _).event
  case settleTimerExpiry can => exact (h.settleExpired can).event
  case onTimeLimit n _ => exact (h.ranLong n).same (.reportPort _ _ _)
  case onTimeReport n _ =>
    refine orderly.same ?_ (.reportPort _ _ _)
    exact h.updPort (fun l => l.updPort) (fun _ => ⟨rfl, rfl, rfl, rfl⟩)
  case graceTimerExpiry can => exact (h.endDrain can).event
  case shedOrderTaken n _ => exact (h.orderTaken n).event
  case hardLimitTrip n _ _ => exact (h.failPort n _).event
  case restartTimerExpiry can => exact (h.restartExpired can).event
  case portISample n reading _ => exact (h.portSample n reading).event.slotEnd
  case sourceVSample mv _ => exact (orderly.event (h.same (.voltageSample mv p))).slotEnd
  case tempSample c _ => exact (orderly.event (h.same (.temperatureSample c p))).slotEnd
  case offsetSample => exact (h.same (.keepResult _ p)).slotEnd
  case noneSlot => exact (h.same (.keepResult _ p)).slotEnd
  case calibrationConversion reading _ => exact h.calibrationConverted reading
  case helloFrame n i _ => exact (h.takeFrame n _).event
  case putFrame n _ _ _ _ _ => exact h.takeFrame n _
  case getFrame n _ _ _ _ _ => exact h.takeFrame n _
  case keepFrame n _ => exact h.takeFrame n _
  case leaveFrame n _ => exact (h.takeFrame n _).event
  case badFrame n bytes _ => exact (h.takeBytes n bytes).event
  case openSent => exact h.same (.updLane _ _ p)
  case answerSent n _ => exact h.answerEnds n
  case frameSent => exact h.same (.updLane _ _ p)
  case keepTimerExpiry => exact h.same (.updLane _ _ p)
  case silenceTimerExpiry n _ => exact (h.silenceExpired n).event
  case holdTimerExpiry => exact h.same (.holdExpired p)
  case standbyEntry => exact h.stbyAsserted
  case standbyExit => exact h.stbyDeasserted
  case adoptionTimerExpiry => exact h.adoptionExpired
  case access b _ => exact h.present b

theorem orderly_exec {c : Instr} {s t : State} (h : orderly H s.part) (e : exec c s = .next t) : orderly H t.part := by
  rcases exec_cases e with rfl | ⟨-, e⟩ | ⟨f, fault, -, g, e⟩ | ⟨q, g, e⟩
  · exact h
  · rw [e]; exact orderly_poweredUp H _
  · rw [e]; exact h.afterBurst g fault _
  · rw [e]; exact (h.of_event g).settle

/-! ### The adoption timer -/

/-- An orphan left unadopted is not reached by actions at ports in other states. -/
theorem unadoptedLeft_acts {S : Port → Prop} (a : Acts S p q) (hs : ∀ n, S n → (p.port n).state ≠ .orphan)
    (h : unadoptedLeft p = true) : unadoptedLeft q = true := by
  unfold unadoptedLeft at h ⊢
  rw [List.any_eq_true] at h ⊢
  obtain ⟨n, hn, g⟩ := h
  rw [Bool.and_eq_true] at g
  obtain ⟨k, e⟩ := a.record (fun x => hs n x (eq_of_beq g.1))
  refine ⟨n, hn, ?_⟩
  rw [e, Bool.and_eq_true]
  exact g

theorem adoptionLaw_acts {S : Port → Prop} (h : adoptionLaw p) (a : Acts S p q) (hs : ∀ n, S n → (p.port n).state ≠ .orphan) :
    adoptionLaw q := by
  intro r
  rw [a.mrc] at r
  exact unadoptedLeft_acts a hs (h r)

theorem adoptionLaw_stay (h : adoptionLaw p) (s : PortsStay q p) : adoptionLaw q := by
  intro r
  rw [s.2.2.2.2] at r
  have k := h r
  unfold unadoptedLeft at k ⊢
  simpa only [s.port] using k

theorem adoptionLaw_retest (h : adoptionLaw p) (n : Port) : adoptionLaw (retest n p) := by
  unfold retest
  split
  next c =>
    have ne (st : PortState) (x : st ≠ .settle) : (p.port n).state ≠ st := fun e => x (e.symm.trans c.1)
    exact adoptionLaw_acts h (Acts.refl.testAdmission (only_self n) (ne _ (by decide)))
      (fun m e => by rw [e]; exact ne _ (by decide))
  · exact h

theorem adoptionLaw_budgetAfter (h : adoptionLaw p) (k : partOk queueAsked p) (b : Bool) : adoptionLaw (budgetAfter b p) := by
  refine adoptionLaw_acts h (Acts.refl.budgetAfter (S := fun n => (p.port n).state ≠ .orphan) (fun e he => ?_) b) (fun _ x => x)
  rcases entry_state k he with s | s <;> rw [s] <;> decide

theorem adoptionLaw_swapWheel (h : adoptionLaw p) (k : partOk queueAsked p) : adoptionLaw (swapWheel p) := by
  rcases swapWheel_cases p with ⟨-, e⟩ | ⟨w, -, g, e⟩ | ⟨w, -, -, e⟩ <;> rw [e]
  · exact h
  · refine adoptionLaw_stay (adoptionLaw_budgetAfter ?_ ?_ _) (complete_stay _ _ _)
    · have step (l : List Port) (q : Part) (i : adoptionLaw q) : adoptionLaw (l.foldl (fun p n => retest n p) q) := by
        induction l generalizing q with
        | nil => exact i
        | cons x rest ih => exact ih _ (adoptionLaw_retest i x)
      refine step allPorts _ (adoptionLaw_stay h ?_)
      exact (PortsStay.of_aeOnly (AeOnly.reportDevice _ _)).trans ((PortsStay.of_aeOnly (AeOnly.queueWriteBack _ _)).trans (.refl p))
    · exact partOk_foldl (fun _ _ => partOk_retest) allPorts (partOk_wheelIn k g)
  · exact adoptionLaw_stay h ((complete_stay _ _ _).trans ((PortsStay.of_aeOnly (AeOnly.reportDevice _ _)).trans (.refl p)))

theorem adoptionLaw_moDecision (h : adoptionLaw p) (k : partOk queueAsked p) : adoptionLaw (moDecision p) := by
  rcases moDecision_cases p with e | ⟨i, -, -, e⟩ <;> rw [e]
  · exact h
  · have g := adoptionLaw_stay h (grantAt_stay i p)
    rcases swapAfter_cases i p.mo.pointer (grantAt i p) with f | f <;> rw [f]
    · exact adoptionLaw_swapWheel g (partOk_grantAt k)
    · exact g

/-- The end of every command brings about the law of the adoption timer. -/
theorem adoptionLaw_settle (k : partOk queueAsked p) : adoptionLaw (settle p) := by
  have k' := partOk_moDecision (adoptSweep_steady _ k)
  have h := adoptionLaw_moDecision (adoptSweep_adoptionLaw p) (adoptSweep_steady _ k)
  unfold settle
  rcases idleSwap_cases (moDecision (adoptSweep p)) with ⟨-, e⟩ | ⟨-, e⟩ <;> rw [e]
  · exact adoptionLaw_moDecision (adoptionLaw_swapWheel h k') (partOk_swapWheel k')
  · exact h

theorem adoptionLaw_exec {c : Instr} {s t : State} (h : adoptionLaw s.part) (k : partOk queueAsked s.part)
    (e : exec c s = .next t) : adoptionLaw t.part := by
  rcases exec_cases e with rfl | ⟨-, e⟩ | ⟨f, fault, -, g, e⟩ | ⟨q, g, e⟩
  · exact h
  · rw [e]; exact fun x => nomatch x
  · rw [e]
    unfold afterBurst
    exact adoptionLaw_settle (partOk_burstDone (partOk_queue_congr k rfl rfl))
  · rw [e]; exact adoptionLaw_settle (partOk_of_event k g)

/-! ### The laws in the words of the statement -/

theorem rides_iff (st : PortState) : st.rides = true ↔ st ∈ [PortState.empty, .off, .fault, .drain, .orphan] := by
  unfold PortState.rides
  exact decide_eq_true_iff

theorem handed_iff (n : Port) (p : Part) : handedOver n (p.port n).plan p ↔ p.handed n = (p.port n).plan.handed :=
  handedOver_iff n _ p

/-- The law of the hand-overs at one port, in the words of `lawAt`. -/
theorem handLaw_at (h : handLaw p) (n : Port) :
    (awake p → (p.handed n).1 = ⟨(p.port n).plan.base, (p.port n).plan.size⟩) ∧
    (awake p → (p.port n).state ≠ .drain → (p.handed n).2.2 = (p.port n).plan.share.2) ∧
    (awake p → (p.port n).state ≠ .drain → p.mrc.phase = .running ∨ (p.port n).state = .orphan →
      (p.handed n).2.1 = (p.port n).plan.share.1) ∧
    (¬awake p → p.handed n = (defaultPlan false).handed) := by
  obtain ⟨run, ride, rest⟩ := h n
  refine ⟨fun a => ?_, fun a d => ?_, fun a d c => ?_, fun a => ?_⟩
  · rcases a with r | r
    · exact (run r).1
    · exact (ride r).1
  · rcases a with r | r
    · rw [(handed_iff n p).1 ((run r).2 d)]; rfl
    · exact (ride r).2.1 d
  · have x : p.handed n = (p.port n).plan.handed := by
      rcases a with r | r
      · exact (handed_iff n p).1 ((run r).2 d)
      · refine (handed_iff n p).1 ((ride r).2.2 (c.resolve_left (fun y => ?_)))
        rw [r] at y
        cases y
    rw [x]
    rfl
  · exact (handedOver_iff n _ p).1 (rest ((not_awake_iff p).1 a))

theorem orderly_of_laws (queue : queueLaw p) (timer : timerLaw p) (wait : waitLaw p) (hold : holdLaw p) :
    orderly (handLaw p) p := by
  obtain ⟨quiet, empty, ride⟩ := hold
  refine ⟨fun n => ⟨timer n, (wait n).1, (wait n).2, fun a => ?_, fun r => ?_, fun i => (handLaw_at i n).1,
    fun i => (handLaw_at i n).2.1, fun i => (handLaw_at i n).2.2.1, fun i => (handLaw_at i n).2.2.2⟩, (queueLaw_iff p).1 queue,
    fun r => ⟨(quiet r).1, (liveCopy_none_iff p).2 (quiet r).2⟩⟩
  · exact empty ((not_awake_iff p).1 a) n
  · rw [rides_iff]
    exact ride r n

theorem handLaw_of_orderly (h : orderly H p) (i : H) : handLaw p := by
  intro n
  have l := h.ports n
  refine ⟨fun r => ⟨l.window i (.inl r), fun d => (handed_iff n p).2 ?_⟩,
    fun r => ⟨l.window i (.inr r), fun d => l.view i (.inr r) d, fun o => (handed_iff n p).2 ?_⟩,
    fun r => (handedOver_iff n _ p).2 (l.rested i ((not_awake_iff p).2 r))⟩
  · exact Prod.ext (l.window i (.inl r)) (Prod.ext (l.urgent i (.inl r) d (.inl r)) (l.view i (.inl r) d))
  · have d : (p.port n).state ≠ .drain := by rw [o]; decide
    exact Prod.ext (l.window i (.inr r)) (Prod.ext (l.urgent i (.inr r) d (.inr o)) (l.view i (.inr r) d))

theorem laws_of_orderly (h : orderly H p) : timerLaw p ∧ waitLaw p ∧ holdLaw p ∧ (H → handLaw p) := by
  refine ⟨fun n => (h.ports n).timers, fun n => ⟨(h.ports n).deferred, (h.ports n).waiting⟩, ⟨fun r => ?_, fun r n => ?_, fun r n => ?_⟩,
    handLaw_of_orderly h⟩
  · exact ⟨(h.still r).1, (liveCopy_none_iff p).1 (h.still r).2⟩
  · exact (h.ports n).resting ((not_awake_iff p).2 r)
  · rw [← rides_iff]
    exact (h.ports n).riding r

end

/-- Settles O55: every command keeps `orderly`, which says the laws port by port, and its end brings about the adoption law. -/
theorem stepKeepsThePortLaws : Obligations.StepKeepsThePortLaws := by
  intro s t queue _ timer wait hold e
  have o : orderly (handLaw s.part) s.part := orderly_of_laws queue timer wait hold
  obtain ⟨timer', wait', hold', hand'⟩ := laws_of_orderly
    (step_keeps (P := orderly (handLaw s.part)) o e (fun _ _ h g => orderly_exec h g))
  refine ⟨timer', wait', hold', hand', fun a => ?_⟩
  exact (step_keeps (P := fun p => adoptionLaw p ∧ partOk queueAsked p) ⟨a, o.queue⟩ e
    (fun _ _ h g => ⟨adoptionLaw_exec h.1 h.2 g, partOk_exec h.2 g⟩)).1

end Sys2Proof.Machine
end

