-- ==== Sys2Proof/Proofs/Tails.lean ====
section
/-! What the budget unit's work after an event and the end of the command leave of a port that they cannot reach: its record, its
lane, its request word, what was handed over of its plan copy, its cancelled accesses, and its place off the shed list. -/

namespace Sys2Proof.Machine

/-! ### More that actions leave alone -/

theorem moveTo_mo (n : Port) (st : PortState) (p : Part) : (moveTo n st p).mo =
    if (p.port n).state.closed && !st.closed then (cancelAccesses n p).mo else p.mo := by
  have opened : (switchOpened n p).mo = (cancelAccesses n p).mo := by
    unfold switchOpened
    dsimp only
    split
    · rfl
    · rw [reportDevice_mo]; rfl
  unfold moveTo
  dsimp only
  rw [updLane_mo, (laneFollow_keeps n _).2.2.1, updPort_mo, dropEntry_mo]
  split
  · exact opened
  · rfl

/-- The burst in flight belongs to an access of this port and its completion will be discarded. -/
def discards (n : Port) (f : InFlight) (p : Part) : Prop :=
  p.mo.inFlight = some f ∧ ∃ a offset length last, f = .port n a offset length last true

theorem discards_of_mo {n : Port} {f : InFlight} {p q : Part} (h : discards n f p) (e : q.mo.inFlight = p.mo.inFlight) :
    discards n f q := ⟨e.trans h.1, h.2⟩

theorem discards_cancelAccesses {n : Port} {f : InFlight} {p : Part} (m : Port) (h : discards n f p) :
    discards n f (cancelAccesses m p) := by
  obtain ⟨e, a, o, l, last, rfl⟩ := h
  refine ⟨?_, a, o, l, last, rfl⟩
  unfold cancelAccesses
  rw [Part.mapMo_mo]
  dsimp only
  rw [e]
  rfl

theorem discards_moveTo {n : Port} {f : InFlight} {p : Part} (m : Port) (st : PortState) (h : discards n f p) :
    discards n f (moveTo m st p) := by
  have e := moveTo_mo m st p
  split at e
  · exact discards_of_mo (discards_cancelAccesses m h) (by rw [e])
  · exact discards_of_mo h (by rw [e])

/-- No action touches a burst whose completion will be discarded. -/
theorem Acts.discards {S : Port → Prop} {n : Port} {f : InFlight} {p q : Part} (h : Acts S p q) (d : discards n f p) :
    discards n f q := by
  induction h with
  | refl => exact d
  | move _ _ st ih => exact discards_moveTo _ st ih
  | upd _ _ _ ih => exact discards_of_mo ih (by rw [updPort_mo])
  | identify _ _ _ ih => exact discards_of_mo ih (by rw [reportPort_mo, updPort_mo])
  | unplug _ _ _ ih => exact discards_of_mo (discards_moveTo _ _ ih) (by rw [updPort_mo])
  | enterOn _ _ _ ih => exact discards_of_mo (discards_moveTo _ _ ih) (by rw [startOnTime, updPort_mo])
  | setGrant _ _ _ g ih => exact discards_of_mo ih (by rw [setGrant_mo])
  | setLane _ _ _ ih => exact ih
  | stamp _ _ _ ih => exact discards_of_mo ih (by rw [updPort_mo])
  | mapBu _ _ ih => exact ih
  | order _ _ ih => exact ih
  | handOver _ _ ih => exact ih
  | window _ _ _ ih => exact ih
  | counts _ _ ih => exact ih
  | complete _ _ _ ih => exact discards_of_mo ih (by rw [complete_mo])
  | report _ _ _ ih => exact discards_of_mo ih (by rw [reportPort_mo])
  | budgetTest _ ih => exact discards_of_mo ih (by unfold Machine.budgetTest; split <;> simp)
  | shortfallTest _ ih => exact discards_of_mo ih (by unfold Machine.shortfallTest; split <;> simp)

/-- A port with its switch open is on no shed list, and its switch is open. -/
def unshed (n : Port) (p : Part) : Prop := (p.port n).state.closed = false ∧ n ∉ p.bu.shedList

theorem unshed_of {n : Port} {p q : Part} (h : unshed n p) (s : (q.port n).state = (p.port n).state)
    (l : q.bu.shedList ⊆ p.bu.shedList) : unshed n q := ⟨by rw [s]; exact h.1, fun x => h.2 (l x)⟩

theorem unshed_moveTo {n m : Port} {p : Part} (h : unshed n p) (e : m ≠ n) (st : PortState) : unshed n (moveTo m st p) := by
  refine unshed_of h (by rw [moveTo_port_ne e]) ?_
  rw [moveTo_bu]
  dsimp only
  split
  · exact List.filter_subset_self _
  · exact fun _ x => x

theorem budgetTest_shedList (p : Part) : (budgetTest p).bu.shedList = p.bu.shedList := by
  unfold budgetTest
  split
  · rfl
  · rw [reportDevice_bu, Part.mapBu_bu]

theorem shortfallTest_shedList (p : Part) : (shortfallTest p).bu.shedList = p.bu.shedList := by
  unfold shortfallTest
  split
  · rfl
  · rw [reportDevice_bu, Part.mapBu_bu]

/-- Shed orders go to ports with a closed switch alone. -/
theorem Acts.unshed {S : Port → Prop} {n : Port} {p q : Part} (h : Acts S p q) (hn : ¬S n) (u : unshed n p) : unshed n q := by
  have ne {m : Port} (hm : S m) : m ≠ n := fun e => hn (e ▸ hm)
  induction h with
  | refl => exact u
  | move _ hm st ih => exact unshed_moveTo ih (ne hm) st
  | upd _ hm _ ih => exact unshed_of ih (by rw [updPort_port_ne (ne hm)]) (by rw [updPort_bu]; exact fun _ x => x)
  | identify _ hm _ ih =>
    exact unshed_of ih (by rw [reportPort_port, updPort_port_ne (ne hm)]) (by rw [reportPort_bu, updPort_bu]; exact fun _ x => x)
  | unplug _ hm _ ih =>
    exact unshed_of (unshed_moveTo ih (ne hm) _) (by rw [updPort_port_ne (ne hm)]) (by rw [updPort_bu]; exact fun _ x => x)
  | enterOn _ hm _ ih =>
    exact unshed_of (unshed_moveTo ih (ne hm) _) (by rw [startOnTime, updPort_port_ne (ne hm)])
      (by rw [startOnTime, updPort_bu]; exact fun _ x => x)
  | setGrant _ hm _ g ih =>
    exact unshed_of ih (by rw [setGrant_port_ne (ne hm)]) (by rw [setGrant_bu]; exact fun _ x => x)
  | setLane _ _ _ ih => exact ih
  | @stamp q _ m k ih =>
    refine unshed_of ih ?_ (by rw [updPort_bu]; exact fun _ x => x)
    by_cases e : m = n
    · subst e; rw [updPort_port_self]
    · rw [updPort_port_ne e]
  | mapBu _ k ih => exact unshed_of ih rfl (k _).2.2.2
  | @order q _ m c ih =>
    refine ⟨ih.1, fun x => ?_⟩
    obtain x | x := List.mem_append.1 x
    · exact ih.2 x
    · have e : n = m := by simpa using x
      rw [← e, ih.1] at c
      exact absurd c (by decide)
  | handOver _ _ ih => exact ih
  | window _ _ _ ih => exact ih
  | counts _ _ ih => exact ih
  | complete _ _ _ ih => exact unshed_of ih (by rw [complete_port]) (by rw [complete_bu]; exact fun _ x => x)
  | report _ _ _ ih => exact unshed_of ih (by rw [reportPort_port]) (by rw [reportPort_bu]; exact fun _ x => x)
  | @budgetTest q _ ih =>
    exact unshed_of ih (by rw [(budgetTest_keeps q).2.2]) (by rw [budgetTest_shedList]; exact fun _ x => x)
  | @shortfallTest q _ ih =>
    exact unshed_of ih (by rw [(shortfallTest_keeps q).2.2]) (by rw [shortfallTest_shedList]; exact fun _ x => x)

/-! ### A port that rests -/

/-- From `p` to `q` nothing reached the port. -/
structure Rests (n : Port) (p q : Part) : Prop where
  aside : q.aside n = p.aside n
  request : q.request (.port n) = p.request (.port n)
  handed : q.handed n = p.handed n
  overs : q.ms.overCount.at n = p.ms.overCount.at n
  ramps : q.ms.rampCount.at n = p.ms.rampCount.at n
  list : p.mo.lists.at n = [] → q.mo.lists.at n = []
  burst : ∀ f, discards n f p → discards n f q
  unshed : unshed n p → unshed n q

section
variable {n : Port} {p q r : Part}

theorem Rests.refl (n : Port) (p : Part) : Rests n p p := ⟨rfl, rfl, rfl, rfl, rfl, id, fun _ => id, id⟩

theorem Rests.trans (h : Rests n p q) (g : Rests n q r) : Rests n p r where
  aside := g.aside.trans h.aside
  request := g.request.trans h.request
  handed := g.handed.trans h.handed
  overs := g.overs.trans h.overs
  ramps := g.ramps.trans h.ramps
  list := fun e => g.list (h.list e)
  burst := fun f d => g.burst f (h.burst f d)
  unshed := fun u => g.unshed (h.unshed u)

/-- Actions at other ports, where the port's entries and the record but for its stamp are seen to stay. -/
theorem Rests.of_acts {S : Port → Prop} (h : Acts S p q) (hn : ¬S n) (aside : q.aside n = p.aside n) : Rests n p q where
  aside := aside
  request := congrArg Kept.request (h.kept hn)
  handed := congrArg Kept.handed (h.kept hn)
  overs := congrArg Kept.overs (h.kept hn)
  ramps := congrArg Kept.ramps (h.kept hn)
  list := fun e => (congrArg Kept.list (h.kept hn)).trans e
  burst := fun _ => h.discards
  unshed := h.unshed hn

/-- A report to the area engine or a completion of another request word. -/
theorem Rests.of_aeOnly (h : AeOnly q p) (e : q.request (.port n) = p.request (.port n)) : Rests n p q where
  aside := h.aside n
  request := e
  handed := handed_of n h.2.2.2.2.2.1 h.2.2.2.2.1 h.2.2.1
  overs := by rw [h.2.2.1]
  ramps := by rw [h.2.2.1]
  list := by rw [h.2.2.2.2.1]; exact id
  burst := fun _ d => discards_of_mo d (by rw [h.2.2.2.2.1])
  unshed := fun u => unshed_of u (by rw [h.port]) (by rw [h.2.1]; exact fun _ x => x)

theorem Rests.quiet (h : Rests n p q) (g : quiet n p) : quiet n q := quiet_of_aside h.aside g

theorem Rests.port (h : Rests n p q) : q.port n = { p.port n with stamp := (q.port n).stamp } := port_of_aside h.aside

theorem Rests.port_open (h : Rests n p q) (o : (p.port n).state.closed = false) : q.port n = p.port n :=
  port_of_aside_open h.aside o

theorem Rests.lane (h : Rests n p q) : q.lane n = p.lane n := Aside.lane_of h.aside

/-- The budget unit's work after an event leaves a port without an entry at rest. -/
theorem Rests.budgetAfter (b : Bool) (h : noEntry n p) : Rests n p (budgetAfter b p) :=
  .of_acts (S := (· ≠ n)) (Acts.budgetAfter .refl (fun e he => h e he) b) (fun x => x rfl) (budgetAfter_aside b p h)

theorem Rests.adoptSweep (n : Port) (p : Part) : Rests n p (adoptSweep p) := by
  obtain e | e := adoptSweep_cases p <;> rw [e]
  · exact .refl n p
  · refine Rests.trans (q := p.mapMrc (fun m => { m with adoptionTimer := none })) ⟨rfl, rfl, rfl, rfl, rfl, id, fun _ => id, id⟩ ?_
    exact .of_aeOnly (AeOnly.reportDevice _ _) (reportDevice_request _ _ _)

/-- A grant of a burst does not end the accesses of another port, nor begin a port's that has none. -/
theorem grantBurst_lists (who : Participant) (p : Part) (e : p.mo.lists.at n = []) : (grantBurst who p).mo.lists.at n = [] := by
  cases who with
  | cp => unfold grantBurst grantCp; dsimp only; split <;> exact e
  | ae =>
    unfold grantBurst
    dsimp only
    split
    · exact e
    · exact e
    · exact e
  | port m =>
    show (grantPortBurst m p).mo.lists.at n = []
    unfold grantPortBurst
    split
    · exact e
    next a others l =>
      have ne : m ≠ n := fun x => by rw [x, e] at l; exact absurd l (by simp)
      split
      · exact e
      · exact (PerPort.at_put_ne ne).trans e

theorem grantBurst_request (who : Participant) (p : Part) (w : ReqWord) : (grantBurst who p).request w = p.request w := by
  cases who with
  | cp => unfold grantBurst grantCp; dsimp only; split <;> cases w <;> rfl
  | ae =>
    unfold grantBurst
    dsimp only
    split
    next t _ => cases t <;> cases w <;> rfl
    · cases w <;> rfl
    · rfl
  | port m => unfold grantBurst grantPortBurst; dsimp only; (repeat' split) <;> cases w <;> rfl

/-- A grant decision with the memory port free leaves every port at rest. -/
theorem Rests.grantAt (n : Port) (i : Nat) (p : Part) (free : p.mo.inFlight = none) : Rests n p (grantAt i p) := by
  have burst (x : Part) : ∀ f, Machine.discards n f p → Machine.discards n f x := fun f d => by
    rw [Machine.discards, free] at d
    exact absurd d.1 (by simp)
  have stay := grantAt_stay i p
  unfold Machine.grantAt at stay ⊢
  split
  · exact .refl n p
  next who e =>
    rw [e] at stay
    exact {
      aside := stay.aside n
      request := grantBurst_request who p (.port n)
      handed := grantBurst_handed n who p
      overs := by rw [stay.2.2.1]
      ramps := by rw [stay.2.2.1]
      list := grantBurst_lists who p
      burst := burst _
      unshed := fun u => unshed_of u (by rw [stay.port]) (by rw [stay.2.1]; exact fun _ x => x) }

theorem wheelIn_request (w : List Phase) (p : Part) (v : ReqWord) : (wheelIn w p).request v = p.request v := by
  unfold wheelIn
  rw [reportDevice_request, queueWriteBack_request]
  cases v <;> rfl

theorem Rests.wheelIn (n : Port) (w : List Phase) (p : Part) : Rests n p (wheelIn w p) where
  aside := wheelIn_aside w p n
  request := wheelIn_request w p _
  handed := (Same.wheelIn w p).handed n
  overs := by unfold Machine.wheelIn; simp
  ramps := by unfold Machine.wheelIn; simp
  list := by unfold Machine.wheelIn; simp
  burst := fun _ d => discards_of_mo d (by unfold Machine.wheelIn; simp)
  unshed := fun u => unshed_of u (by rw [Part.port, (Same.wheelIn w p).ports]; rfl) (by unfold Machine.wheelIn; simp)

theorem Rests.complete_device (n : Port) (x : Result) (p : Part) : Rests n p (complete .device x p) :=
  .of_aeOnly (AeOnly.complete _ _ _) (by rw [complete_request, if_neg (by simp)])

/-- A quiet port is not tested again at a swap, and rests while others are. -/
theorem Rests.retests (h : Machine.quiet n p) (l : List Port) : Rests n p (l.foldl (fun p m => retest m p) p) := by
  induction l generalizing p with
  | nil => exact .refl n p
  | cons m rest ih =>
    have one : Rests n p (retest m p) := by
      by_cases e : m = n
      · subst e
        unfold retest
        split
        next x => rw [h.2 x.1] at x; exact absurd x.2 (by decide)
        · exact .refl m p
      · exact .of_acts (S := (· ≠ n)) (Acts.retest .refl e) (fun x => x rfl) (retest_aside e p)
    exact one.trans (ih (one.quiet h))

theorem Rests.swapWheel (h : Machine.quiet n p) : Rests n p (swapWheel p) := by
  obtain ⟨-, e⟩ | ⟨w, -, -, e⟩ | ⟨w, -, -, e⟩ := swapWheel_cases p <;> rw [e]
  · exact .refl n p
  · have tested := (Rests.wheelIn n w p).trans (Rests.retests ((Rests.wheelIn n w p).quiet h) allPorts)
    exact (tested.trans (.budgetAfter true (tested.quiet h).1)).trans (.complete_device n _ _)
  · refine Rests.trans (q := p.mapMo (fun o => { o with pendingWheel := none })) ⟨rfl, rfl, rfl, rfl, rfl, id, fun _ => id, id⟩ ?_
    exact (Rests.of_aeOnly (AeOnly.reportDevice _ _) (reportDevice_request _ _ _)).trans (.complete_device n _ _)

theorem Rests.moDecision (h : Machine.quiet n p) : Rests n p (moDecision p) := by
  obtain e | ⟨i, free, -, e⟩ := moDecision_cases p <;> rw [e]
  · exact .refl n p
  · have granted := Rests.grantAt n i p free
    obtain g | g := swapAfter_cases i p.mo.pointer (Machine.grantAt i p) <;> rw [g]
    · exact granted.trans (.swapWheel (granted.quiet h))
    · exact granted

theorem Rests.idleSwap (h : Machine.quiet n p) : Rests n p (idleSwap p) := by
  obtain ⟨-, e⟩ | ⟨-, e⟩ := idleSwap_cases p <;> rw [e]
  · exact (Rests.swapWheel h).trans (.moDecision ((Rests.swapWheel h).quiet h))
  · exact .refl n p

/-- The end of the command leaves a quiet port at rest. -/
theorem Rests.settle (h : Machine.quiet n p) : Rests n p (settle p) := by
  have swept := Rests.adoptSweep n p
  have decided := swept.trans (.moDecision (swept.quiet h))
  exact decided.trans (.idleSwap (decided.quiet h))

/-- What an event leaves of a port that is quiet then stands to the end of the command. -/
theorem Rests.event {f : Part → Part} (h : Machine.quiet n (f p)) : Rests n (f p) (Machine.settle (event f p)) :=
  (Rests.budgetAfter _ h.1).trans (.settle ((Rests.budgetAfter _ h.1).quiet h))

end

end Sys2Proof.Machine
end

