-- ==== Sys2Proof/Proofs/PortTimers.lean ====
section
/-! The statements about presence and the port timers: O18, O20, O22. -/

namespace Sys2Proof.Machine

section
variable {n : Port} {p : Part}

theorem completes_onPart {c : Instr} {can : Part → Bool} {f : Part → Part} {s : State} {post : State → Prop}
    (e : exec c s = onPart can f s) (h : can s.part = true) (k : post { s with part := settle (f s.part) }) :
    Completes c s post := ⟨_, e.trans (onPart_can h), k⟩

theorem updPort_noEntry (m : Port) (f : PortRecord → PortRecord) (h : noEntry n p) : noEntry n (updPort m f p) := by
  unfold noEntry
  rw [updPort_bu]
  exact h

/-- A port without an entry, in a state other than SETTLE. -/
theorem quiet_of_state (h : noEntry n p) (s : (p.port n).state ≠ .settle) : quiet n p := ⟨h, fun e => absurd e s⟩

theorem noHello_port (n : Port) (p : Part) :
    ∃ r, Entered .fault (p.port n) r ∧ (noHello n p).port n = { r with cause := some .noHello } :=
  ⟨_, moveTo_port_self n .fault p, by rw [noHello, updPort_port_self]⟩

theorem noHello_quiet (n : Port) (p : Part) : quiet n (noHello n p) := by
  refine quiet_of_state (updPort_noEntry _ _ (moveTo_noEntry n .fault p)) ?_
  rw [noHello, updPort_port_self, moveTo_state]
  decide

/-- Settles O20: the port enters FAULT, and there nothing reaches it. -/
theorem helloTimerExpiryFaultsThePort : Obligations.HelloTimerExpiryFaultsThePort := by
  intro n s runs
  have rests := Rests.event (noHello_quiet n s.part)
  obtain ⟨r, entered, e⟩ := noHello_port n s.part
  have opened : ((noHello n s.part).port n).state.closed = false := by rw [e, entered.state]; rfl
  refine completes_onPart (can := helloRuns n) (f := event (noHello n)) rfl runs ?_
  dsimp only
  rw [rests.port_open opened, e]
  exact ⟨entered.state, rfl, entered.grant, by rw [entered.state]; rfl, (rests.quiet (noHello_quiet n s.part)).1,
    entered.restartCount, entered.trips⟩

/-! ### The on-time -/

theorem settle_onReported {f : PortRecord → PortRecord} (q : quiet n p) (st : (f (p.port n)).state = (p.port n).state)
    (np : (f (p.port n)).flags = (p.port n).flags) :
    ∃ k, (settle (reportPort n false (updPort n f p))).port n = { f (p.port n) with stamp := k } := by
  have calm : quiet n (reportPort n false (updPort n f p)) := by
    refine ⟨?_, ?_⟩
    · unfold noEntry; rw [reportPort_bu]; exact updPort_noEntry n f q.1
    · rw [reportPort_port, updPort_port_self, st, np]; exact q.2
  refine ⟨((settle (reportPort n false (updPort n f p))).port n).stamp, ?_⟩
  have rests := (Rests.settle calm).port
  rw [reportPort_port, updPort_port_self] at rests
  exact rests

theorem mem_queueWriteBack (t : Target) (p : Part) (q : p.ae.quiet = false) : t ∈ (queueWriteBack t p).ae.writeBacks := by
  unfold queueWriteBack
  split
  next h => simpa [q] using h
  · simp

theorem mem_queueWriteBack_of_mem {t : Target} (v : Target) (h : t ∈ p.ae.writeBacks) :
    t ∈ (queueWriteBack v p).ae.writeBacks := by
  unfold queueWriteBack
  split
  · exact h
  · exact List.mem_append_left _ h

theorem mem_reportDevice {t : Target} (m : Bool) (h : t ∈ p.ae.writeBacks) : t ∈ (reportDevice m p).ae.writeBacks := by
  unfold reportDevice
  cases m <;> exact mem_queueWriteBack_of_mem _ h

theorem mem_adoptSweep {t : Target} (h : t ∈ p.ae.writeBacks) : t ∈ (adoptSweep p).ae.writeBacks := by
  obtain e | e := adoptSweep_cases p <;> rw [e]
  · exact h
  · exact mem_reportDevice true h

/-- A pending write-back that may be offered keeps the area engine's offer up (R167). -/
theorem anyPending_of_writeBack {t : Target} (q : p.ae.quiet = false) (h : t ∈ p.ae.writeBacks) (o : offerable p t = true) :
    anyPending p = true := by
  have offered : (aeOffer p).isSome = true := by
    unfold aeOffer
    rw [q, if_neg (by decide)]
    split
    · rfl
    · rfl
    · rw [Option.isSome_map, List.find?_isSome]
      exact ⟨t, h, o⟩
  unfold anyPending
  rw [offered]
  simp

/-- With the memory port busy and a write-back pending, a command ends with the adoption sweep. -/
theorem settle_busy {t : Target} (b : p.mo.inFlight ≠ none) (q : p.ae.quiet = false) (h : t ∈ p.ae.writeBacks)
    (o : ∀ x, offerable x t = true) : settle p = adoptSweep p := by
  have swept : (adoptSweep p).mo = p.mo ∧ (adoptSweep p).ae.quiet = false ∧ t ∈ (adoptSweep p).ae.writeBacks :=
    ⟨(adoptSweep_keeps p).2.2.2.2.1, (Same.adoptSweep p).quiet.trans q, mem_adoptSweep h⟩
  have decided : moDecision (adoptSweep p) = adoptSweep p := by
    obtain e | ⟨i, free, -⟩ := moDecision_cases (adoptSweep p)
    · exact e
    · rw [swept.1] at free
      exact absurd free b
  unfold settle
  rw [decided]
  unfold idleSwap
  rw [if_pos (anyPending_of_writeBack swept.2.1 swept.2.2 (o _))]

theorem nextSecond_below {k : Nat} (h : k < 59000) : nextSecond k = (k / 1000 + 1) * 1000 := by
  unfold nextSecond Config.onTimeLimitMs
  omega

/-- Settles O22: no swap of the wheel and no grant of the memory follows a report made while the memory is busy. -/
theorem onTimeIsReportedAndLimited : Obligations.OnTimeIsReportedAndLimited := by
  constructor
  · intro n s runs q
    obtain ⟨k, e⟩ := settle_onReported (p := s.part) (f := PortRecord.ranLong) q (by rfl) (by rfl)
    refine completes_onPart (can := onTimeRuns n) (f := fun p => reportPort n false (updPort n PortRecord.ranLong p)) rfl runs ?_
    dsimp only
    rw [e]
    exact ⟨rfl, rfl, rfl, rfl, rfl, rfl, rfl⟩
  · intro n s on loud busy
    refine completes_onPart (can := fun p => (p.port n).state == .on)
      (f := fun p => reportPort n false (updPort n PortRecord.atNextSecond p)) rfl (by simp [on]) ?_
    dsimp only
    generalize hf : PortRecord.atNextSecond = f
    have loud' : (updPort n f s.part).ae.quiet = false := (Part.quiet_of_fixed (updPort_fixed n f s.part)).trans loud
    have queued : Target.status n ∈ (reportPort n false (updPort n f s.part)).ae.writeBacks := mem_queueWriteBack _ _ loud'
    have quiet' : (reportPort n false (updPort n f s.part)).ae.quiet = false := (Same.reportPort _ _ _).quiet.trans loud'
    rw [settle_busy (by rw [reportPort_mo, updPort_mo]; exact busy) quiet' queued (fun _ => rfl)]
    have port : (adoptSweep (reportPort n false (updPort n f s.part))).port n = f (s.part.port n) := by
      rw [Part.port, (adoptSweep_keeps _).1]
      show (reportPort n false (updPort n f s.part)).port n = _
      rw [reportPort_port, updPort_port_self]
    rw [port]
    subst hf
    exact ⟨mem_adoptSweep queued, on, fun h => by simp [PortRecord.atNextSecond, h],
      fun h k => by simp [PortRecord.atNextSecond, h, nextSecond_below k]⟩

end

end Sys2Proof.Machine
end

