-- ==== Sys2Proof/Proofs/Arrivals.lean ====
section
/-! A port sent to the queue, to the end of the command, and the statement about presence and arrival: O18. -/

namespace Sys2Proof.Machine

section
variable {n : Port} {p q : Part}

/-- The end of a command changes mode and reset control in its adoption sweep alone. -/
theorem settle_mrc (p : Part) : (settle p).mrc = (adoptSweep p).mrc := by
  have decided (x : Part) : (moDecision x).mrc = x.mrc := by
    obtain e | ⟨i, -, -, e⟩ := moDecision_cases x <;> rw [e]
    have granted : (grantAt i x).mrc = x.mrc := (grantAt_stay i x).2.2.2.2
    obtain g | g := swapAfter_cases i x.mo.pointer (grantAt i x) <;> rw [g]
    · exact (swapWheel_fixed _).2.2.1.trans granted
    · exact granted
  have idled (x : Part) : (idleSwap x).mrc = x.mrc := by
    obtain ⟨-, e⟩ | ⟨-, e⟩ := idleSwap_cases x <;> rw [e]
    exact (decided _).trans (swapWheel_fixed x).2.2.1
  unfold settle
  rw [idled, decided]

/-- What the end of a command leaves of mode and reset control. -/
theorem settle_mrc_keeps (p : Part) : (settle p).mrc.present = p.mrc.present ∧ (settle p).mrc.phase = p.mrc.phase ∧
    (settle p).mrc.standby = p.mrc.standby := by
  rw [settle_mrc]
  obtain e | e := adoptSweep_cases p <;> rw [e]
  · exact ⟨rfl, rfl, rfl⟩
  · rw [reportDevice_mrc]
    exact ⟨rfl, rfl, rfl⟩

/-! ### A port sent to the queue -/

/-- A port that waits with the entry of its plan, or was granted it. -/
theorem queuedOrGranted_of {r : PortRecord} (h : WaitsOrGranted n (newEntry n (entryKind r) { r with state := .queued }) r q) :
    queuedOrGranted n q := by
  obtain ⟨w, held⟩ := h
  have mem {e : Entry} (x : Waits n e q) : e ∈ q.bu.queue :=
    (List.mem_filter.1 (by rw [x.2]; exact List.mem_singleton_self e)).1
  unfold queuedOrGranted
  rw [held.plan]
  cases l : r.plan.laneUse with
  | expected =>
    have k : entryKind r = .probe := by rw [entryKind, l]
    rw [k] at w
    exact w.imp (fun x => ⟨x.1, _, mem x, rfl, rfl, rfl⟩) (fun x => ⟨x.1, x.2.1⟩)
  | unused =>
    have k : entryKind r = .full := by rw [entryKind, l]
    have asked : (newEntry n .full { r with state := .queued }).asked = r.plan.units := by
      simp [newEntry, PortRecord.fullRequest, PortRecord.laneUseNow, fullRequest, l]
    rw [k] at w
    refine w.imp (fun x => ⟨x.1, _, mem x, rfl, rfl, asked⟩) (fun x => ⟨x.1, ?_⟩)
    rw [x.2.1, ← asked]
    rfl

/-- The port is where an event sends it that sends it to QUEUED (R8, R183, R192), its record as `r` was but for what the way changes. -/
structure SentOn (n : Port) (m : ModeReset) (r : PortRecord) (q : Part) : Prop where
  held : Held r (q.port n)
  hold : m.phase ≠ .running → (q.port n).state = .off ∧ (q.port n).grant = 0 ∧ noEntry n q
  parked : m.phase = .running → m.standby = true → (q.port n).state = .parked ∧ (q.port n).grant = 0 ∧ noEntry n q
  queued : m.phase = .running → m.standby = false → queuedOrGranted n q

theorem quiet_moveTo {st : PortState} (s : st ≠ .settle) : quiet n (moveTo n st p) :=
  quiet_of_state (moveTo_noEntry n st p) (by rw [moveTo_state]; exact s)

theorem waits_congr {e : Entry} (h : Waits n e p) (s : (q.port n).state = (p.port n).state) (l : q.bu.queue = p.bu.queue) :
    Waits n e q := ⟨by rw [s]; exact h.1, by rw [l]; exact h.2⟩

/-- A port sent to the queue in an event is there at the end of the command, or granted. What the event does after it, `k`, leaves
the port table and the queue. -/
theorem sentOn_event {x : Part} {f : Part → Part} {k : Part → Part} (e : f p = k (toQueued n x))
    (ports : ∀ y, (k y).ports = y.ports) (queue : ∀ y, (k y).bu.queue = y.bu.queue) :
    SentOn n x.mrc (x.port n) (settle (event f p)) := by
  have port (y : Part) : (k y).port n = y.port n := by rw [Part.port, ports]; rfl
  have gone {st : PortState} (o : st.closed = false) (s : st ≠ .settle) (m : toQueued n x = moveTo n st x) :
      Held (x.port n) ((settle (event f p)).port n) ∧ ((settle (event f p)).port n).state = st ∧
      ((settle (event f p)).port n).grant = 0 ∧ noEntry n (settle (event f p)) := by
    have same : (f p).port n = (moveTo n st x).port n := by rw [e, port, m]
    have entered := moveTo_port_self n st x
    have calm : quiet n (f p) := by
      refine quiet_of_state ?_ (by rw [same, entered.state]; exact s)
      unfold noEntry
      rw [e, queue, m]
      exact moveTo_noEntry n st x
    have rests := Rests.event calm
    rw [rests.port_open (by rw [same, entered.state]; exact o), same]
    exact ⟨Held.of_entered entered, entered.state, by rw [entered.grant, if_neg (by rw [o]; decide)], (rests.quiet calm).1⟩
  by_cases run : x.mrc.phase = .running
  · cases sb : x.mrc.standby with
    | true =>
      obtain ⟨held, done⟩ := gone rfl (by decide) ((toQueued_elsewhere n x).2 run sb)
      exact ⟨held, fun c => absurd run c, fun _ _ => done, fun _ c => by simp [sb] at c⟩
    | false =>
      obtain ⟨waits, held⟩ := toQueued_waits n x run sb
      have w := settle_event_own (f := f) p (waits_congr (q := f p) waits (by rw [e, port]) (by rw [e, queue]))
      rw [e, port] at w
      have all : WaitsOrGranted n _ (x.port n) (settle (event f p)) := ⟨w.1, held.trans w.2⟩
      exact ⟨all.2, fun c => absurd run c, fun _ c => by simp [sb] at c, fun _ _ => queuedOrGranted_of all⟩
  · obtain ⟨held, done⟩ := gone rfl (by decide) ((toQueued_elsewhere n x).1 run)
    exact ⟨held, fun _ => done, fun c => absurd c run, fun c => absurd c run⟩

/-! ### Presence and arrival -/

/-- The accessory is present at the input of the port. -/
def plugged (n : Port) (p : Part) : Part := p.mapMrc (fun m => { m with present := m.present.put n true })

theorem presenceAsserted_cases (n : Port) (p : Part) :
    ((debouncing p = true ∧ (p.port n).state = .empty) ∧ presenceAsserted n p = startDebouncer n (plugged n p)) ∨
    (¬(debouncing p = true ∧ (p.port n).state = .empty) ∧ presenceAsserted n p = plugged n p) := by
  have e : presenceAsserted n p = if debouncing p && (p.port n).state == .empty then startDebouncer n (plugged n p)
    else plugged n p := rfl
  by_cases h : debouncing p = true ∧ (p.port n).state = .empty
  · exact .inl ⟨h, by rw [e, if_pos (by simp [h])]⟩
  · exact .inr ⟨h, by rw [e, if_neg (by simpa using h)]⟩

theorem startDebouncer_port (n : Port) (p : Part) :
    (startDebouncer n p).port n = { p.port n with timers := { (p.port n).timers with debouncer := some 10 } } :=
  setTimers_port_self _ _ _

theorem setTimers_noEntry {m : Port} (f : PortTimers → PortTimers) (h : noEntry n p) : noEntry n (setTimers m f p) := by
  unfold setTimers
  exact updPort_noEntry _ _ h

/-- A presence input asserted at a quiet port. -/
theorem presenceAsserted_settled (h : quiet n p) : Rests n (presenceAsserted n p) (settle (presenceAsserted n p)) ∧
    (settle (presenceAsserted n p)).mrc.present.at n = true := by
  refine ⟨Rests.settle ?_, ?_⟩
  · have calm : quiet n (plugged n p) := h
    obtain ⟨-, e⟩ | ⟨-, e⟩ := presenceAsserted_cases n p <;> rw [e]
    · exact ⟨setTimers_noEntry _ calm.1, by rw [startDebouncer_port]; exact calm.2⟩
    · exact calm
  · have present : (plugged n p).mrc.present.at n = true := by rw [plugged, Part.mapMrc_mrc, PerPort.at_put_self]
    rw [(settle_mrc_keeps _).1]
    obtain ⟨-, e⟩ | ⟨-, e⟩ := presenceAsserted_cases n p <;> rw [e]
    · rw [startDebouncer, setTimers_mrc, present]
    · exact present

/-- Settles O18: an arrival moves the port to OFF under a plan with mode OFF, and otherwise sends it to the queue. -/
theorem arrivalFollowsTheDebouncedPresence : Obligations.ArrivalFollowsTheDebouncedPresence := by
  constructor
  · intro n s off q
    obtain ⟨rests, present⟩ := presenceAsserted_settled q
    refine completes_onPart (can := fun p => !p.mrc.present.at n) (f := presenceAsserted n) rfl (by simp [off]) ?_
    dsimp only
    have port := rests.port
    obtain ⟨⟨-, here⟩, e⟩ | ⟨other, e⟩ := presenceAsserted_cases n s.part
    · rw [e, startDebouncer_port] at port
      rw [e] at present ⊢
      refine ⟨present, fun _ _ => by rw [port]; exact ⟨rfl, here⟩, fun c => absurd here c⟩
    · rw [e] at port present ⊢
      refine ⟨present, fun here run => absurd ⟨?_, here⟩ other, fun _ => port⟩
      obtain run | run := run <;> simp [debouncing, run]
  · intro n s runs
    refine completes_onPart (can := debouncerRuns n) (f := event (arrived n)) rfl runs ?_
    dsimp only
    by_cases off : (s.part.port n).plan.mode = .off
    · have e : arrived n s.part = moveTo n .off s.part := if_pos off
      have calm : quiet n (arrived n s.part) := by rw [e]; exact quiet_moveTo (by decide)
      have port := (Rests.event calm).port_open (by rw [e, moveTo_state]; rfl)
      refine ⟨fun _ => by rw [port, e, moveTo_state], fun c => absurd off c, fun c => absurd off c, fun c => absurd off c⟩
    · have sent := sentOn_event (p := s.part) (f := arrived n) (k := id) (if_neg off : arrived n s.part =
        toQueued n (setFlags n (fun f => { f with left := false }) s.part)) (fun _ => rfl) (fun _ => rfl)
      rw [setFlags_mrc, setFlags_port_self] at sent
      exact ⟨fun c => absurd c off, fun _ hold => (sent.hold hold).1, fun _ run sb => (sent.parked run sb).1,
        fun _ run sb => ⟨sent.queued run sb, sent.held.left⟩⟩

end

end Sys2Proof.Machine
end

