-- ==== Sys2Proof/Proofs/LaneFollows.lean ====
section
/-! The lane of a port as it follows the port to another state (R95, R97, R104, R107, R108). -/

namespace Sys2Proof.Machine

/-! ### A lane that follows -/

theorem Lane.kick_answers {l : Lane} (h : l.answers = []) : l.kick.answers = [] := by
  unfold Lane.kick
  rw [h]
  (repeat' split) <;> first | exact h | simp_all

theorem Lane.kick_cue_none {l : Lane} (h : l.cue = none) : l.kick.cue = none := by
  unfold Lane.kick
  rw [h]
  (repeat' split) <;> simp_all

/-- With no LEAVE, KEEP, OPEN, answer or cue to send, or with a frame being sent, beginning to send changes nothing. -/
theorem Lane.kick_cue {l : Lane} (h : l.mode ≠ .opened) : l.kick.cue = l.cue := by
  unfold Lane.kick
  (repeat' split) <;> simp_all

theorem Lane.follow_mode (mode : LaneMode) (isOn : Bool) (l : Lane) : (l.follow mode isOn).mode = mode := by
  unfold Lane.follow
  split
  next h => rw [h]; rfl
  · rfl

/-- A lane in IDLE with nothing to send but a LEAVE. -/
structure LaneRests (l : Lane) : Prop where
  mode : l.mode = .idle
  tags : ∀ tag, l.tags.get tag = .free
  answers : l.answers = []
  cue : l.cue = none
  openDue : l.openDue = none
  reopen : l.reopen = false
  keepTimer : l.keepTimer = none
  silenceTimer : l.silenceTimer = none

theorem LaneRests.kick {l : Lane} (h : LaneRests l) : LaneRests l.kick where
  mode := by rw [Lane.kick_mode, h.mode]
  tags := by rw [Lane.kick_tags]; exact h.tags
  answers := Lane.kick_answers h.answers
  cue := Lane.kick_cue_none h.cue
  openDue := by rw [Lane.kick_openDue, h.openDue]
  reopen := by rw [Lane.kick_reopen, h.reopen]
  keepTimer := by rw [Lane.kick_keepTimer, h.keepTimer]
  silenceTimer := by rw [Lane.kick_silenceTimer, h.silenceTimer]

theorem freeTags_get (tag : Fin 4) : freeTags.get tag = .free := by
  unfold freeTags
  simp [Vector.get]

theorem LaneRests.toIdle {l : Lane} (h : l.cue = none) : LaneRests l.toIdle :=
  ⟨rfl, freeTags_get, rfl, h, rfl, rfl, rfl, rfl⟩

theorem LaneRests.enterTimers {l : Lane} (h : LaneRests l) (st : PortState) : LaneRests (l.enterTimers st) := by
  unfold Lane.enterTimers
  rw [if_pos h.mode]
  exact h

section
variable {n : Port} {p : Part}

/-- A cue handed back leaves the lane but for the cue and what it begins to send. -/
theorem handBackCue_lane (n : Port) (p : Part) :
    ((handBackCue n p).lane n).cue = none ∧ ((handBackCue n p).lane n).mode = (p.lane n).mode ∧
    ((handBackCue n p).lane n).tags = (p.lane n).tags ∧ ((handBackCue n p).lane n).keepTimer = (p.lane n).keepTimer ∧
    ((handBackCue n p).lane n).silenceTimer = (p.lane n).silenceTimer := by
  unfold handBackCue
  split
  next h => exact ⟨h, rfl, rfl, rfl, rfl⟩
  · rw [updLane_lane_self, updPort_lane, Lane.kick_mode, Lane.kick_tags, Lane.kick_keepTimer, Lane.kick_silenceTimer]
    exact ⟨Lane.kick_cue_none rfl, rfl, rfl, rfl, rfl⟩

theorem laneFollow_lane (n : Port) (p : Part) : (laneFollow n p).lane n =
    (((if (p.port n).state = .on then p else handBackCue n p).lane n).follow
      (laneModeOf (p.port n) (p.lane n).mode) (decide ((p.port n).state = .on))).kick := by
  unfold laneFollow
  dsimp only
  rw [updLane_lane_self]
  by_cases on : (p.port n).state = .on
  · simp [on]
  · have cue := handBackCue_lane n p
    simp only [on, decide_false, Bool.false_eq_true, if_false]
    rw [cue.2.1]

/-- The lane that follows its port has the mode the port gives it (R95). -/
theorem laneFollow_mode (n : Port) (p : Part) :
    ((laneFollow n p).lane n).mode = laneModeOf (p.port n) (p.lane n).mode := by
  rw [laneFollow_lane, Lane.kick_mode, Lane.follow_mode]

/-- With the switch open the lane goes to IDLE (R95, R97). -/
theorem laneModeOf_open {r : PortRecord} (h : r.state.closed = false) (m : LaneMode) : laneModeOf r m = .idle := by
  unfold laneModeOf
  split
  · rfl
  · cases s : r.state <;> rw [s] at h <;> first | rfl | exact absurd h (by decide)

theorem not_on_of_open {st : PortState} (h : st.closed = false) : st ≠ .on := by
  rintro rfl
  exact absurd h (by decide)

theorem laneFollow_open (h : (p.port n).state.closed = false) : LaneRests ((laneFollow n p).lane n) := by
  rw [laneFollow_lane, if_neg (not_on_of_open h), laneModeOf_open h]
  exact (LaneRests.toIdle (handBackCue_lane n p).1).kick

/-- Without an unsent cue no cue is handed back. -/
theorem laneFollow_port_cueless (h : (p.lane n).cue = none) : (laneFollow n p).port n = p.port n := by
  unfold laneFollow handBackCue
  dsimp only
  rw [updLane_port, h]
  split <;> rfl

/-! ### A port that changes state -/

/-- The part before the lane follows a port into its new state. -/
def beforeFollow (n : Port) (st : PortState) (p : Part) : Part :=
  updPort n (·.enter st) (dropEntry n (if (p.port n).state.closed && !st.closed then switchOpened n p else p))

theorem moveTo_eq (n : Port) (st : PortState) (p : Part) :
    moveTo n st p = updLane n (·.enterTimers st) (laneFollow n (beforeFollow n st p)) := rfl

theorem beforeFollow_lane (n : Port) (st : PortState) (p : Part) : (beforeFollow n st p).lane n = p.lane n := by
  unfold beforeFollow
  rw [updPort_lane, dropEntry_lane]
  split
  · exact switchOpened_lane n n p
  · rfl

theorem beforeFollow_port (n : Port) (st : PortState) (p : Part) :
    SameButCue ((beforeFollow n st p).port n) ((moveTo n st p).port n) := by
  rw [moveTo_eq, updLane_port]
  exact laneFollow_port n _

/-- A port that opens its switch leaves its lane in IDLE. -/
theorem moveTo_lane_open (n : Port) {st : PortState} (p : Part) (h : st.closed = false) : LaneRests ((moveTo n st p).lane n) := by
  have opened : ((beforeFollow n st p).port n).state.closed = false := by
    have s : ((moveTo n st p).port n).state = st := moveTo_state n st p
    rw [beforeFollow_port n st p] at s
    rw [show ((beforeFollow n st p).port n).state = st from s, h]
  rw [moveTo_eq, updLane_lane_self]
  exact ((laneFollow_open opened).enterTimers st).kick

end

end Sys2Proof.Machine
end

