-- ==== Sys2Proof/Proofs/PresenceLoss.lean ====
section
/-! The statement about presence loss: O19. -/

namespace Sys2Proof.Machine

section
variable {n : Port} {p q : Part}

/-! ### Plans stored in a port with its switch open -/

theorem refreshAsk_bare {r : PortRecord} (h : r.identity = none) : r.refreshAsk = r := by
  unfold PortRecord.refreshAsk
  rw [h]

theorem handOver_leaves (n : Port) (p : Part) : (handOver n p).bu = p.bu ∧ (handOver n p).lanes = p.lanes ∧
    (handOver n p).mo.lists = p.mo.lists ∧ (handOver n p).mo.inFlight = p.mo.inFlight := ⟨rfl, rfl, rfl, rfl⟩

theorem handOver_lane (n m : Port) (p : Part) : (handOver n p).lane m = p.lane m := rfl

/-- A stored plan leaves the accesses, the burst in flight and the shed list. -/
theorem storePlan_leaves (n : Port) (plan : Plan) (p : Part) :
    (storePlan n plan p).mo.lists = p.mo.lists ∧ (storePlan n plan p).mo.inFlight = p.mo.inFlight ∧
    (storePlan n plan p).bu.shedList = p.bu.shedList := by
  have replaced : (replacePlan n plan p).mo = p.mo ∧ (replacePlan n plan p).bu.shedList = p.bu.shedList := by
    unfold replacePlan
    dsimp only
    rw [laneFollow_mo, laneFollow_bu, Part.mapPtp_mo, Part.mapPtp_bu]
    split
    · rw [updPort_mo, updPort_bu, Part.mapBu_mo, Part.mapBu_bu, updPort_mo, updPort_bu]
      exact ⟨rfl, rfl⟩
    · rw [Part.mapBu_mo, Part.mapBu_bu, updPort_mo, updPort_bu]
      exact ⟨rfl, rfl⟩
  obtain ⟨bu, -, lists, flight⟩ := handOver_leaves n (replacePlan n plan p)
  unfold storePlan
  rw [bu, lists, flight, replaced.1]
  exact ⟨rfl, rfl, replaced.2⟩

/-- The part before the lane follows its port to the lane use of a stored plan. -/
def beforeStored (n : Port) (plan : Plan) (p : Part) : Part :=
  let x := updPort n (fun r => { r with plan := plan, restartCount := min r.restartCount plan.restartLimit.1 }) p
  let y := x.mapBu (fun b => { b with queue := b.queue.map (fun e => if e.port = n then renewEntry (x.port n) e else e) })
  let z := if plan.mode ≠ .off ∧ ((y.port n).state.closed || holdsFull n y) then updPort n PortRecord.refreshAsk y else y
  z.mapPtp (fun t => { t with windows := t.windows.put n ⟨plan.base, plan.size⟩ })

theorem replacePlan_eq (n : Port) (plan : Plan) (p : Part) : replacePlan n plan p = laneFollow n (beforeStored n plan p) := rfl

theorem beforeStored_lane (n : Port) (plan : Plan) (p : Part) : (beforeStored n plan p).lane n = p.lane n := by
  unfold beforeStored
  dsimp only
  rw [Part.mapPtp_lane]
  split
  · rw [updPort_lane, Part.mapBu_lane, updPort_lane]
  · rw [Part.mapBu_lane, updPort_lane]

/-- The record under a stored plan, before the lane follows. -/
theorem beforeStored_port (n : Port) (plan : Plan) (p : Part) :
    let r := { p.port n with plan := plan, restartCount := min (p.port n).restartCount plan.restartLimit.1 }
    (beforeStored n plan p).port n = r ∨ (beforeStored n plan p).port n = r.refreshAsk := by
  unfold beforeStored
  dsimp only
  rw [Part.mapPtp_port]
  split
  · rw [updPort_port_self, Part.mapBu_port, updPort_port_self]
    exact .inr rfl
  · rw [Part.mapBu_port, updPort_port_self]
    exact .inl rfl

/-- A plan stored in a port without an identity or an unsent cue. -/
theorem storePlan_bare (plan : Plan) (i : (p.port n).identity = none) (c : (p.lane n).cue = none) :
    (storePlan n plan p).port n =
      { p.port n with plan := plan, restartCount := min (p.port n).restartCount plan.restartLimit.1 } := by
  rw [storePlan, handOver_port, replacePlan_eq, laneFollow_port_cueless (by rw [beforeStored_lane, c])]
  obtain e | e := beforeStored_port n plan p <;> rw [e]
  exact refreshAsk_bare i

theorem storePlan_lane_open (plan : Plan) (o : (p.port n).state.closed = false) : LaneRests ((storePlan n plan p).lane n) := by
  rw [storePlan, handOver_lane, replacePlan_eq]
  refine laneFollow_open ?_
  obtain e | e := beforeStored_port n plan p <;> rw [e]
  · exact o
  · rw [refreshAsk_state]
    exact o

/-! ### A port unplugged -/

/-- The record of an unplugged port, before a deferred plan is stored (R9). -/
structure Unplugged (r r' : PortRecord) : Prop where
  state : r'.state = .empty
  grant : r'.grant = 0
  identity : r'.identity = none
  cue : r'.pendingCue = none
  cause : r'.cause = none
  restartCount : r'.restartCount = 0
  flags : r'.flags = clearFlags
  drain : r'.drain = none
  timers : r'.timers = stoppedTimers
  trips : r'.trips = r.trips
  checkErrors : r'.checkErrors = r.checkErrors
  overruns : r'.overruns = r.overruns

theorem Entered.unplug {r r' : PortRecord} (h : Entered .empty r r') : Unplugged r r'.unplug where
  state := h.state
  grant := h.grant
  identity := rfl
  cue := rfl
  cause := rfl
  restartCount := rfl
  flags := rfl
  drain := h.drain
  timers := h.timers
  trips := h.trips
  checkErrors := h.checkErrors
  overruns := h.overruns

theorem PortRecord.unplug_keeps (r : PortRecord) : r.unplug.deferred = r.deferred ∧ r.unplug.plan = r.plan := ⟨rfl, rfl⟩

/-- The part with the port in EMPTY and its identity gone. -/
def pulled (n : Port) (p : Part) : Part := handOver n (updPort n PortRecord.unplug (moveTo n .empty p))

theorem unplugPort_eq (n : Port) (p : Part) : unplugPort n p = storeDeferred n (pulled n p) := by
  rw [unplugPort, pulled]

theorem pulled_port (n : Port) (p : Part) : (pulled n p).port n = ((moveTo n .empty p).port n).unplug := by
  rw [pulled, handOver_port, updPort_port_self]

theorem pulled_lane (n : Port) (p : Part) : LaneRests ((pulled n p).lane n) := by
  rw [pulled, handOver_lane, updPort_lane]
  exact moveTo_lane_open n p rfl

theorem pulled_bu (n : Port) (p : Part) : (pulled n p).bu = (moveTo n .empty p).bu := by
  rw [pulled, (handOver_leaves _ _).1, updPort_bu]

theorem pulled_noEntry (n : Port) (p : Part) : noEntry n (pulled n p) := by
  unfold noEntry
  rw [pulled_bu]
  exact moveTo_noEntry n .empty p

/-- What presence loss leaves of a port, a deferred plan stored. -/
structure PulledOut (n : Port) (p q : Part) : Prop where
  record : Unplugged (p.port n) (q.port n)
  deferred : (q.port n).deferred = none
  plan : (q.port n).plan = (p.port n).deferred.getD (p.port n).plan
  stored : ∀ plan, (p.port n).deferred = some plan → answers n .ok q ∧ handedOver n plan q
  lane : LaneRests (q.lane n)
  noEntry : noEntry n q
  cleared : (p.port n).state.closed = true → n ∉ q.bu.shedList ∧ q.mo.lists.at n = [] ∧
    ∀ a o l last discard, p.mo.inFlight = some (.port n a o l last discard) → discards n (.port n a o l last true) q

theorem pulled_cleared (c : (p.port n).state.closed = true) : n ∉ (pulled n p).bu.shedList ∧ (pulled n p).mo.lists.at n = [] ∧
    ∀ a o l last discard, p.mo.inFlight = some (.port n a o l last discard) → discards n (.port n a o l last true) (pulled n p) := by
  have mo : (updPort n PortRecord.unplug (moveTo n .empty p)).mo = (cancelAccesses n p).mo := by
    rw [updPort_mo, moveTo_mo, if_pos (by rw [c]; rfl)]
  obtain ⟨-, -, lists, flight⟩ := handOver_leaves n (updPort n PortRecord.unplug (moveTo n .empty p))
  rw [mo] at lists flight
  refine ⟨?_, ?_, fun a o l last discard f => ⟨?_, a, o, l, last, rfl⟩⟩
  · rw [pulled_bu, moveTo_bu, if_pos (by rw [c]; rfl)]
    simp
  · rw [pulled, lists]
    exact PerPort.at_put_self _ _ _
  · rw [pulled, flight]
    simp [cancelAccesses, f]

theorem pulledOut_none (d : (p.port n).deferred = none) : PulledOut n p (pulled n p) := by
  have entered := moveTo_port_self n .empty p
  have deferred : ((pulled n p).port n).deferred = none := by
    rw [pulled_port, (PortRecord.unplug_keeps _).1, entered.deferred, d]
  exact {
    record := by rw [pulled_port]; exact entered.unplug
    deferred := deferred
    plan := by rw [pulled_port, (PortRecord.unplug_keeps _).2, entered.plan, d]; rfl
    stored := fun plan x => by rw [d] at x; cases x
    lane := pulled_lane n p
    noEntry := pulled_noEntry n p
    cleared := pulled_cleared }

theorem Unplugged.stored {r r' : PortRecord} (h : Unplugged r r') (plan : Plan) :
    Unplugged r { r' with deferred := none, plan := plan, restartCount := min r'.restartCount plan.restartLimit.1 } :=
  { h with restartCount := by dsimp only; rw [h.restartCount, Nat.zero_min] }

/-- A stored plan renews entries; each keeps its port. -/
theorem storePlan_waiting (n : Port) (plan : Plan) (p : Part) :
    (storePlan n plan p).bu.queue.map Entry.port = p.bu.queue.map Entry.port := by
  rw [storePlan, (handOver_leaves _ _).1]
  unfold replacePlan
  dsimp only
  rw [laneFollow_bu, Part.mapPtp_bu]
  have renewed (r : PortRecord) : (p.bu.queue.map (fun e => if e.port = n then renewEntry r e else e)).map Entry.port =
      p.bu.queue.map Entry.port := by
    rw [List.map_map]
    refine List.map_congr_left (fun e _ => ?_)
    dsimp only [Function.comp]
    split
    · rfl
    · rfl
  split
  · rw [updPort_bu, Part.mapBu_bu, updPort_bu]
    exact renewed _
  · rw [Part.mapBu_bu, updPort_bu]
    exact renewed _

theorem storePlan_noEntry (plan : Plan) (h : noEntry n p) : noEntry n (storePlan n plan p) := by
  intro e he x
  have mem : e.port ∈ p.bu.queue.map Entry.port := by
    rw [← storePlan_waiting n plan p]
    exact List.mem_map_of_mem he
  obtain ⟨e', he', y⟩ := List.mem_map.1 mem
  exact h e' he' (y.trans x)

theorem pulledOut_some {plan : Plan} (d : (p.port n).deferred = some plan) :
    PulledOut n p (complete (.port n) .ok (storePlan n plan (takeDeferred n (pulled n p)))) := by
  have entered := moveTo_port_self n .empty p
  have record : Unplugged (p.port n) ((pulled n p).port n) := by rw [pulled_port]; exact entered.unplug
  have taken := takeDeferred_port n (pulled n p)
  have lane : (takeDeferred n (pulled n p)).lane n = (pulled n p).lane n := by rw [takeDeferred, updPort_lane]
  have bare : ((takeDeferred n (pulled n p)).port n).identity = none := by rw [taken]; dsimp only; exact record.identity
  have port := storePlan_bare plan bare (by rw [lane]; exact (pulled_lane n p).cue)
  rw [taken] at port
  generalize (pulled n p).port n = r' at record port taken
  obtain ⟨lists, flight, shed⟩ := storePlan_leaves n plan (takeDeferred n (pulled n p))
  have mo : (takeDeferred n (pulled n p)).mo = (pulled n p).mo := by rw [takeDeferred, updPort_mo]
  have bu : (takeDeferred n (pulled n p)).bu = (pulled n p).bu := by rw [takeDeferred, updPort_bu]
  rw [mo] at lists flight
  rw [bu] at shed
  refine ⟨?_, ?_, ?_, ?_, ?_, ?_, fun c => ?_⟩
  · rw [complete_port, port]; exact record.stored plan
  · rw [complete_port, port]
  · rw [complete_port, port, d]; rfl
  · intro plan' x
    rw [d] at x
    cases x
    refine ⟨by rw [answers, complete_request, if_pos rfl], ?_⟩
    rw [handedOver_iff, (Same.complete _ _ _).handed, storePlan_handed]
    rfl
  · rw [complete_lane]
    exact storePlan_lane_open plan (by rw [taken]; dsimp only; rw [record.state]; rfl)
  · unfold noEntry
    rw [complete_bu]
    refine storePlan_noEntry plan ?_
    unfold noEntry
    rw [bu]
    exact pulled_noEntry n p
  · obtain ⟨s, l, b⟩ := pulled_cleared c
    rw [complete_bu, complete_mo, shed, lists]
    exact ⟨s, l, fun a o k last discard f => discards_of_mo (b a o k last discard f) (by rw [complete_mo, flight])⟩

theorem unplugPort_out (n : Port) (p : Part) : PulledOut n p (unplugPort n p) := by
  have d : ((pulled n p).port n).deferred = (p.port n).deferred := by
    rw [pulled_port, (PortRecord.unplug_keeps _).1, (moveTo_port_self n .empty p).deferred]
  rw [unplugPort_eq]
  unfold storeDeferred
  rw [d]
  cases h : (p.port n).deferred with
  | none => exact pulledOut_none h
  | some plan => exact pulledOut_some h

theorem PulledOut.quiet (h : PulledOut n p q) : quiet n q := quiet_of_state h.noEntry (by rw [h.record.state]; decide)

/-- What presence loss left of the port stands to the end of the command. -/
theorem PulledOut.rests {r : Part} (h : PulledOut n p q) (g : Rests n q r) : PulledOut n p r := by
  have opened : (q.port n).state.closed = false := by rw [h.record.state]; rfl
  have port := g.port_open opened
  exact {
    record := by rw [port]; exact h.record
    deferred := by rw [port]; exact h.deferred
    plan := by rw [port]; exact h.plan
    stored := fun plan d => by
      obtain ⟨ok, hand⟩ := h.stored plan d
      refine ⟨by rw [answers, g.request]; exact ok, ?_⟩
      rw [handedOver_iff, g.handed]
      exact (handedOver_iff n plan q).1 hand
    lane := by rw [g.lane]; exact h.lane
    noEntry := (g.quiet h.quiet).1
    cleared := fun c => by
      obtain ⟨s, l, b⟩ := h.cleared c
      exact ⟨(g.unshed ⟨opened, s⟩).2, g.list l, fun a o k last discard f => g.burst _ (b a o k last discard f)⟩ }

/-! ### The command -/

/-- The accessory is gone from the input of the port. -/
def unplugged (n : Port) (p : Part) : Part := p.mapMrc (fun m => { m with present := m.present.put n false })

theorem presenceLost_empty (s : (p.port n).state = .empty) :
    presenceLost n p = setTimers n (fun t => { t with debouncer := none }) (unplugged n p) := if_pos s

theorem presenceLost_other (s : (p.port n).state ≠ .empty) : presenceLost n p = event (unplugPort n) (unplugged n p) := if_neg s

theorem presenceLost_absent (n : Port) (p : Part) : (presenceLost n p).mrc.present.at n = false := by
  have absent : (unplugged n p).mrc.present.at n = false := PerPort.at_put_self _ _ _
  by_cases s : (p.port n).state = .empty
  · rw [presenceLost_empty s, setTimers_mrc]
    exact absent
  · rw [presenceLost_other s, Part.mrc_of_fixed (event_fixed _ (unplugPort_fixed n _))]
    exact absent

/-- Settles O19: nothing reaches the port in EMPTY, nor its shed order, its cancelled burst or its answered request. -/
theorem presenceLossEmptiesThePort : Obligations.PresenceLossEmptiesThePort := by
  intro n s here
  refine completes_onPart (can := fun p => p.mrc.present.at n) (f := presenceLost n) rfl here ?_
  dsimp only
  refine ⟨by rw [(settle_mrc_keeps _).1]; exact presenceLost_absent n s.part, fun e ne => ?_, fun other => ?_⟩
  · have calm : quiet n (presenceLost n s.part) := by
      rw [presenceLost_empty e]
      refine quiet_of_state (setTimers_noEntry _ ne) ?_
      rw [setTimers_port_self]
      exact (by rw [e]; decide : (s.part.port n).state ≠ .settle)
    have port : (presenceLost n s.part).port n =
        { s.part.port n with timers := { (s.part.port n).timers with debouncer := none } } := by
      rw [presenceLost_empty e, setTimers_port_self]
      rfl
    rw [(Rests.settle calm).port, port]
    exact ⟨rfl, e⟩
  · rw [presenceLost_other other]
    have out := (unplugPort_out n (unplugged n s.part)).rests (.event (unplugPort_out n (unplugged n s.part)).quiet)
    have record := out.record
    refine ⟨record.state, record.grant, record.identity, record.cue, record.cause, record.restartCount, record.flags,
      record.drain, record.timers, out.deferred, out.plan, fun plan d => ?_, record.trips, record.checkErrors,
      record.overruns, out.noEntry, out.lane.mode, fun c => ?_⟩
    · obtain ⟨ok, hand⟩ := out.stored plan d
      have held : (s.part.port n).deferred.getD (s.part.port n).plan = plan := by rw [d]; rfl
      exact ⟨ok, out.plan.trans held, hand⟩
    · obtain ⟨shed, list, burst⟩ := out.cleared c
      exact ⟨shed, list, fun a o l last discard f => (burst a o l last discard f).1, out.lane.tags, out.lane.answers⟩

end

end Sys2Proof.Machine
end

