-- ==== Sys2Proof/Proofs/RequestWords.lean ====
section
/-! Only a completion changes the state of a request word: the other operations of the ports and the budget leave all of them. -/

namespace Sys2Proof.Machine

section
variable (n : Port) (p : Part) (w : ReqWord)

theorem updLane_request (f : Lane → Lane) : (updLane n f p).request w = p.request w := by cases w <;> rfl

theorem mapBu_request (f : Budget → Budget) : (p.mapBu f).request w = p.request w := by cases w <;> rfl

theorem setFlags_request (f : Flags → Flags) : (setFlags n f p).request w = p.request w := updPort_request _ _ _ _

theorem setTimers_request (f : PortTimers → PortTimers) : (setTimers n f p).request w = p.request w := updPort_request _ _ _ _

theorem handOver_request : (handOver n p).request w = p.request w := by cases w <;> rfl

theorem laneFollow_request : (laneFollow n p).request w = p.request w := by
  unfold laneFollow handBackCue
  dsimp only
  rw [updLane_request]
  split
  · rfl
  split
  · rfl
  · rw [updLane_request, updPort_request]

theorem dropEntry_request : (dropEntry n p).request w = p.request w := by
  unfold dropEntry
  split
  · rw [setFlags_request, mapBu_request]
  · rfl

theorem switchOpened_request : (switchOpened n p).request w = p.request w := by
  unfold switchOpened
  dsimp only
  split
  · cases w <;> rfl
  · rw [reportDevice_request]; cases w <;> rfl

theorem moveTo_request (st : PortState) : (moveTo n st p).request w = p.request w := by
  rw [moveTo_eq, updLane_request, laneFollow_request, beforeFollow, updPort_request, dropEntry_request]
  split
  · exact switchOpened_request n p w
  · rfl

theorem setGrant_request (g : Nat) : (setGrant n g p).request w = p.request w := by
  unfold setGrant
  split
  · rfl
  · rw [reportDevice_request, updPort_request]

theorem stampFrom_request (k : Nat) (l : List Port) : (stampFrom k l p).request w = p.request w := by
  induction l generalizing k p with
  | nil => rfl
  | cons m rest ih => rw [stampFrom, ih, updPort_request]

theorem giveStamp_request : (giveStamp n p).request w = p.request w := by
  unfold giveStamp renumber
  dsimp only
  rw [updPort_request, mapBu_request]
  split
  · rw [mapBu_request, stampFrom_request]
  · rfl

theorem storePlan_request (plan : Plan) : (storePlan n plan p).request w = p.request w := by
  have window (x : Part) (v : Window) : (x.mapPtp (fun t => { t with windows := t.windows.put n v })).request w = x.request w := by
    cases w <;> rfl
  rw [storePlan, handOver_request, replacePlan_eq, laneFollow_request, beforeStored, window]
  split
  · rw [updPort_request, mapBu_request, updPort_request]
  · rw [mapBu_request, updPort_request]

theorem joinQueue_request (k : EntryKind) : (joinQueue n k p).request w = p.request w := by
  unfold joinQueue
  dsimp only
  rw [mapBu_request]
  split
  · rfl
  · exact updPort_request _ _ _ _

theorem toQueued_request : (toQueued n p).request w = p.request w := by
  unfold toQueued
  dsimp only
  split
  · exact moveTo_request n p w _
  split
  · exact moveTo_request n p w _
  · rw [joinQueue_request, moveTo_request]

theorem toRestartWait_request : (toRestartWait n p).request w = p.request w := by
  unfold toRestartWait
  split
  · exact moveTo_request n p w _
  · rw [setTimers_request, moveTo_request]

theorem toParked_request : (toParked n p).request w = p.request w := by
  unfold toParked
  split <;> exact moveTo_request n p w _

theorem endDrain_request : (endDrain n p).request w = p.request w := by
  unfold endDrain
  split
  · rfl
  · dsimp only
    rw [handOver_request]
    split
    · exact toQueued_request n p w
    · exact toRestartWait_request n p w
    · exact toParked_request n p w
    · split
      · rw [setFlags_request, moveTo_request]
      · exact moveTo_request n p w _

theorem enterGrace_request : (enterGrace n p).request w = p.request w := by
  unfold enterGrace
  split
  · rfl
  · dsimp only
    split
    · rw [endDrain_request]
      split
      · rw [updLane_request, updPort_request]
      · exact updPort_request _ _ _ _
    · split
      · rw [updLane_request, updPort_request]
      · exact updPort_request _ _ _ _

theorem startDrain_request (reason : DrainReason) : (startDrain n reason p).request w = p.request w := by
  unfold startDrain
  dsimp only
  split
  · rw [enterGrace_request, moveTo_request, updPort_request]
  · rw [moveTo_request, updPort_request]

theorem openLane_request : (openLane n p).request w = p.request w := by
  have cue (v : Word) (x : Part) : (cueToLane n v x).request w = x.request w := by
    unfold cueToLane
    split
    · rfl
    · exact updLane_request n x w _
  unfold openLane handPendingCue
  split
  · split
    · exact updLane_request n p w _
    · rw [updPort_request, cue, setOpenDue, updLane_request]
  · rfl

theorem entering_request : (entering n p).request w = p.request w := by
  rw [entering, openLane_request, startOnTime, updPort_request, moveTo_request]

theorem takeDeferred_request : (takeDeferred n p).request w = p.request w := updPort_request _ _ _ _

end

end Sys2Proof.Machine
end

