-- ==== Sys2Proof/Proofs/Admission.lean ====
section
/-! Entry to ON (R18), and a port that waits with NO_PHASE to the end of the command: it waits on, or is admitted by the swap of a wheel
(R17, R132). -/

namespace Sys2Proof.Machine

section
variable {n : Port} {p q r : Part}

/-! ### Entry to ON -/

theorem dropEntry_noEntry (h : noEntry n p) : dropEntry n p = p := by
  unfold dropEntry
  rw [if_neg]
  simpa [noEntry] using h

theorem laneFollow_port_on (s : (p.port n).state = .on) : (laneFollow n p).port n = p.port n := by
  unfold laneFollow
  dsimp only
  rw [updLane_port, if_pos (by simp [s])]

/-- A port without an entry enters a state. -/
theorem beforeFollow_port_noEntry (st : PortState) (h : noEntry n p) :
    (beforeFollow n st p).port n = (p.port n).enter st := by
  unfold beforeFollow
  rw [updPort_port_self]
  split
  · have ne : noEntry n (switchOpened n p) := by unfold noEntry; rw [switchOpened_queue]; exact h
    rw [dropEntry_noEntry ne, switchOpened_port]
  · rw [dropEntry_noEntry h]

theorem moveTo_on_port (h : noEntry n p) : (moveTo n .on p).port n = (p.port n).enter .on := by
  have e := beforeFollow_port_noEntry .on h
  rw [moveTo_eq, updLane_port, laneFollow_port_on (by rw [e]; rfl), e]

theorem Lane.kick_due {l : Lane} {u : Nat} (h : l.openDue = some u) : l.kick.cue = l.cue ∧ l.kick.openDue = some u := by
  refine ⟨?_, by rw [Lane.kick_openDue, h]⟩
  unfold Lane.kick
  split
  · rfl
  · rw [h]

theorem Lane.enterTimers_mode (st : PortState) (l : Lane) : (l.enterTimers st).mode = l.mode := by
  unfold Lane.enterTimers
  split
  · rfl
  · split <;> rfl

theorem SameButCue.laneModeOf {x y : PortRecord} (h : SameButCue x y) (m : LaneMode) : laneModeOf y m = laneModeOf x m := by
  rw [h]
  rfl

/-- The lane of a port that changes state has the mode the port gives it (R95). -/
theorem moveTo_lane_mode (n : Port) (st : PortState) (p : Part) :
    ((moveTo n st p).lane n).mode = laneModeOf ((moveTo n st p).port n) (p.lane n).mode := by
  rw [(beforeFollow_port n st p).laneModeOf, moveTo_eq, updLane_lane_self, Lane.kick_mode, Lane.enterTimers_mode,
    laneFollow_mode, beforeFollow_lane]

theorem Lane.follow_tags {mode : LaneMode} (h : mode ≠ .idle) (isOn : Bool) (l : Lane) : (l.follow mode isOn).tags = l.tags := by
  unfold Lane.follow
  rw [if_neg h]

theorem Lane.enterTimers_tags (st : PortState) (l : Lane) : (l.enterTimers st).tags = l.tags := by
  unfold Lane.enterTimers
  split
  · rfl
  · split <;> rfl

/-- A lane that does not go to IDLE keeps its tags as it follows its port. -/
theorem laneFollow_tags (h : laneModeOf (p.port n) (p.lane n).mode ≠ .idle) :
    ((laneFollow n p).lane n).tags = (p.lane n).tags := by
  rw [laneFollow_lane, Lane.kick_tags, Lane.follow_tags h]
  split
  · rfl
  · exact (handBackCue_lane n p).2.2.1

theorem moveTo_lane_tags {st : PortState} (h : laneModeOf ((moveTo n st p).port n) (p.lane n).mode ≠ .idle) :
    ((moveTo n st p).lane n).tags = (p.lane n).tags := by
  rw [(beforeFollow_port n st p).laneModeOf, ← beforeFollow_lane n st p] at h
  rw [moveTo_eq, updLane_lane_self, Lane.kick_tags, Lane.enterTimers_tags, laneFollow_tags h, beforeFollow_lane]

theorem mode_on {x : PortRecord} (s : x.state = .on) (l : x.plan.laneUse = .expected) (m : LaneMode) : laneModeOf x m ≠ .idle := by
  unfold laneModeOf PortRecord.laneUseNow
  rw [s]
  dsimp only
  rw [l]
  dsimp only
  split <;> decide

/-- An OPEN ordered and the pending cue handed over (R18). -/
theorem openLane_expected (l : (p.port n).plan.laneUse = .expected) (m : (p.lane n).mode ≠ .idle) :
    (openLane n p).port n = { p.port n with pendingCue := none } ∧
    ((openLane n p).lane n).openDue = some ((p.port n).plan.size / 256) ∧
    ∀ v, (p.port n).pendingCue = some v → ((openLane n p).lane n).cue = some v := by
  have due : ((setOpenDue n p).lane n).openDue = some ((p.port n).plan.size / 256) := by
    rw [setOpenDue, updLane_lane_self, Lane.kick_openDue]
  have mode : ((setOpenDue n p).lane n).mode ≠ .idle := by
    rw [setOpenDue, updLane_lane_self, Lane.kick_mode]
    exact m
  unfold openLane
  rw [if_pos l]
  unfold handPendingCue
  rw [setOpenDue_port]
  split
  next c => exact ⟨by rw [setOpenDue_port]; rw [← c], due, fun v x => by rw [c] at x; cases x⟩
  next v c =>
    obtain ⟨cue, held⟩ := Lane.kick_due (l := { (setOpenDue n p).lane n with cue := some v }) due
    refine ⟨by rw [updPort_port_self, cueToLane_port, setOpenDue_port], ?_, fun v' x => ?_⟩
    · rw [updPort_lane, cueToLane, if_neg mode, updLane_lane_self]
      exact held
    · rw [c] at x
      cases x
      rw [updPort_lane, cueToLane, if_neg mode, updLane_lane_self]
      exact cue

theorem openLane_unused (l : (p.port n).plan.laneUse = .unused) : openLane n p = p := by
  unfold openLane
  rw [if_neg (by rw [l]; decide)]

/-- The record of a port as it enters ON from SETTLE, before a deferred request is applied. -/
theorem entering_port (h : noEntry n p) (s : (p.port n).state = .settle) :
    (entering n p).port n = { enteredOn (p.port n) with deferred := (p.port n).deferred } := by
  have started : (startOnTime n (moveTo n .on p)).port n = { (p.port n).enter .on with
      onTime := 0, timers := { stoppedTimers with onTime := true } } := by
    rw [startOnTime, updPort_port_self, moveTo_on_port h]
    rfl
  have lane : ((startOnTime n (moveTo n .on p)).lane n) = (moveTo n .on p).lane n := by rw [startOnTime, updPort_lane]
  unfold entering
  cases l : (p.port n).plan.laneUse with
  | expected =>
    have mode : ((startOnTime n (moveTo n .on p)).lane n).mode ≠ .idle := by
      rw [lane, moveTo_lane_mode]
      refine mode_on (moveTo_state n .on p) ?_ _
      rw [(moveTo_port_self n .on p).plan, l]
    rw [(openLane_expected (by rw [started]; exact l) mode).1, started]
    simp [enteredOn, PortRecord.enter, leavingFlags, l, s, PortState.closed]
  | unused =>
    rw [openLane_unused (by rw [started]; exact l), started]
    simp [enteredOn, PortRecord.enter, leavingFlags, l, s, PortState.closed]

theorem entering_lane (l : (p.port n).plan.laneUse = .expected) :
    ((entering n p).lane n).openDue = some ((p.port n).plan.size / 256) ∧
    (noEntry n p → ∀ v, (p.port n).pendingCue = some v → ((entering n p).lane n).cue = some v) := by
  have lane : ((startOnTime n (moveTo n .on p)).lane n) = (moveTo n .on p).lane n := by rw [startOnTime, updPort_lane]
  have entered := moveTo_port_self n .on p
  have started : ((startOnTime n (moveTo n .on p)).port n).plan = (p.port n).plan := by
    rw [startOnTime, updPort_port_self]
    exact entered.plan
  have mode : ((startOnTime n (moveTo n .on p)).lane n).mode ≠ .idle := by
    rw [lane, moveTo_lane_mode]
    exact mode_on entered.state (by rw [entered.plan, l]) _
  obtain ⟨-, due, cue⟩ := openLane_expected (by rw [started, l]) mode
  unfold entering
  refine ⟨by rw [due, started], fun h v c => cue v ?_⟩
  rw [startOnTime, updPort_port_self, moveTo_on_port h]
  exact c

/-- A port without a deferred request enters ON. -/
theorem enterOn_bare (d : (p.port n).deferred = none) : enterOn n p = entering n p := by
  have e : ((entering n p).port n).deferred = none := by rw [(entering_record n p).2.2.1, d]
  rw [enterOn_eq, applyEntering, e]

theorem enteredOn_deferred (x : PortRecord) (d : x.deferred = none) : { enteredOn x with deferred := x.deferred } = enteredOn x := by
  rw [d]
  rfl

theorem sameButStamp_self (x : PortRecord) : sameButStamp x x := rfl

theorem enterOn_admitted (h : noEntry n p) (s : (p.port n).state = .settle) (d : (p.port n).deferred = none) :
    admittedBySwap n (p.port n) (enterOn n p) := by
  rw [enterOn_bare d]
  refine ⟨?_, fun l => ⟨(entering_lane l).1, (entering_lane l).2 h⟩⟩
  rw [entering_port h s, enteredOn_deferred _ d]
  exact sameButStamp_self _

theorem entering_bu (n : Port) (p : Part) : (entering n p).bu = (moveTo n .on p).bu := by
  have cue (v : Word) (x : Part) : (cueToLane n v x).bu = x.bu := by unfold cueToLane; split <;> rfl
  unfold entering openLane handPendingCue
  split
  · split
    · rw [setOpenDue, updLane_bu, startOnTime, updPort_bu]
    · rw [updPort_bu, cue, setOpenDue, updLane_bu, startOnTime, updPort_bu]
  · rw [startOnTime, updPort_bu]

theorem entering_noEntry (n : Port) (p : Part) : noEntry n (entering n p) := by
  unfold noEntry
  rw [entering_bu]
  exact moveTo_noEntry n .on p

theorem entering_tags (l : (p.port n).plan.laneUse = .expected) : ((entering n p).lane n).tags = (p.lane n).tags := by
  have entered := moveTo_port_self n .on p
  have moved : ((moveTo n .on p).lane n).tags = (p.lane n).tags :=
    moveTo_lane_tags (mode_on entered.state (by rw [entered.plan, l]) _)
  have cue (v : Word) (x : Part) : ((cueToLane n v x).lane n).tags = (x.lane n).tags := by
    unfold cueToLane
    split
    · rfl
    · rw [updLane_lane_self, Lane.kick_tags]
  have due (x : Part) : ((setOpenDue n x).lane n).tags = (x.lane n).tags := by
    rw [setOpenDue, updLane_lane_self, Lane.kick_tags]
  unfold entering openLane handPendingCue
  split
  · split
    · rw [due, startOnTime, updPort_lane, moved]
    · rw [updPort_lane, cue, due, startOnTime, updPort_lane, moved]
  · rw [startOnTime, updPort_lane, moved]

theorem entering_mode_unused (l : (p.port n).plan.laneUse = .unused) : ((entering n p).lane n).mode = .idle := by
  have entered := moveTo_port_self n .on p
  have started : ((startOnTime n (moveTo n .on p)).port n).plan = (p.port n).plan := by
    rw [startOnTime, updPort_port_self]
    exact entered.plan
  rw [entering, openLane_unused (by rw [started, l]), startOnTime, updPort_lane, moveTo_lane_mode]
  unfold laneModeOf PortRecord.laneUseNow
  rw [entered.state]
  dsimp only
  rw [entered.plan, l]

/-! ### A port that waits with NO_PHASE -/

/-- The port waits in SETTLE with NO_PHASE, without an entry or a deferred request. -/
structure Unnamed (n : Port) (p : Part) : Prop where
  state : (p.port n).state = .settle
  noPhase : (p.port n).flags.noPhase = true
  noEntry : noEntry n p
  deferred : (p.port n).deferred = none

theorem Rests.unnamed (h : Rests n p q) (u : Unnamed n p) : Unnamed n q := by
  have e := h.port
  exact ⟨by rw [e]; exact u.state, by rw [e]; exact u.noPhase, noEntry_of_aside h.aside u.noEntry, by rw [e]; exact u.deferred⟩

/-- The port, waiting in `p`, has been admitted under the wheel `w`. -/
structure AdmittedUnder (n : Port) (w : List Phase) (p q : Part) : Prop where
  admitted : admittedBySwap n (p.port n) q
  names : (p.port n).plan.laneUse = .expected → names w n = true ∧ (p.port n).plan.size ≠ 0
  tags : (q.lane n).mode ≠ .idle → (q.lane n).tags = (p.lane n).tags
  noEntry : noEntry n q
  request : q.request (.port n) = p.request (.port n)
  handed : q.handed n = p.handed n

theorem AdmittedUnder.state {w : List Phase} (h : AdmittedUnder n w p q) : (q.port n).state = .on := by rw [h.admitted.1]; rfl

theorem AdmittedUnder.quiet {w : List Phase} (h : AdmittedUnder n w p q) : quiet n q :=
  quiet_of_state h.noEntry (by rw [h.state]; decide)

theorem admittedBySwap_rests {x : PortRecord} (h : admittedBySwap n x q) (g : Rests n q r) : admittedBySwap n x r := by
  refine ⟨?_, fun l => by rw [g.lane]; exact h.2 l⟩
  rw [sameButStamp, g.port, h.1]

theorem AdmittedUnder.rests {w : List Phase} (h : AdmittedUnder n w p q) (g : Rests n q r) : AdmittedUnder n w p r where
  admitted := admittedBySwap_rests h.admitted g
  names := h.names
  tags := by rw [g.lane]; exact h.tags
  noEntry := (g.quiet h.quiet).1
  request := g.request.trans h.request
  handed := g.handed.trans h.handed

theorem AdmittedUnder.of_rests {w : List Phase} (g : Rests n p q) (h : AdmittedUnder n w q r) : AdmittedUnder n w p r := by
  obtain ⟨⟨record, lane⟩, names, tags, ne, req, hand⟩ := h
  have e := g.port
  have stamped : enteredOn (q.port n) = { enteredOn (p.port n) with stamp := (q.port n).stamp } := by rw [e]; rfl
  have plan : (q.port n).plan = (p.port n).plan := by rw [e]
  have cue : (q.port n).pendingCue = (p.port n).pendingCue := by rw [e]
  rw [plan] at names lane
  rw [cue] at lane
  rw [g.lane] at tags
  refine ⟨⟨?_, lane⟩, names, tags, ne, req.trans g.request, hand.trans g.handed⟩
  rw [sameButStamp, stamped] at record
  rw [sameButStamp]
  exact record

theorem admits_expected (a : admits p n = true) (l : (p.port n).plan.laneUse = .expected) :
    names p.mo.wheel n = true ∧ (p.port n).plan.size ≠ 0 := by
  unfold admits at a
  rw [l] at a
  simp at a
  exact ⟨a.2, a.1⟩

theorem Unnamed.admitted (u : Unnamed n p) (a : admits p n = true) : AdmittedUnder n p.mo.wheel p (enterOn n p) where
  admitted := enterOn_admitted u.noEntry u.state u.deferred
  names := admits_expected a
  tags := by
    rw [enterOn_bare u.deferred]
    intro m
    cases l : (p.port n).plan.laneUse with
    | expected => exact entering_tags l
    | unused => exact absurd (entering_mode_unused l) m
  noEntry := by rw [enterOn_bare u.deferred]; exact entering_noEntry n p
  request := by rw [enterOn_bare u.deferred]; exact entering_request n p _
  handed := by rw [enterOn_bare u.deferred]; exact entering_handed n p

/-- A change of a record that changes nothing. -/
theorem updPort_same {f : PortRecord → PortRecord} (h : f (p.port n) = p.port n) : updPort n f p = p := by
  have quiet : reportedChange (p.port n) (p.port n) = false := by simp [reportedChange, markedChange, flagRaised]
  have id : p.setPort n (p.port n) = p := by
    unfold Part.setPort Part.port
    rw [PerPort.put_at]
  unfold updPort
  rw [h, quiet, if_neg (by decide), id]

theorem setFlags_same {f : Flags → Flags} (h : f (p.port n).flags = (p.port n).flags) : setFlags n f p = p := by
  have same : { p.port n with flags := f (p.port n).flags } = p.port n := by rw [h]
  exact updPort_same same

theorem Flags.noPhase_same {f : Flags} (h : f.noPhase = true) : { f with noPhase := true } = f := by rw [← h]

/-- The waiting port tested again. -/
theorem retest_unnamed (u : Unnamed n p) : retest n p = p ∨ AdmittedUnder n p.mo.wheel p (retest n p) := by
  unfold retest testAdmission
  rw [if_pos ⟨u.state, u.noPhase⟩]
  cases a : admits p n with
  | true =>
    rw [if_pos rfl]
    exact .inr (u.admitted a)
  | false =>
    rw [if_neg (by decide)]
    exact .inl (setFlags_same (Flags.noPhase_same u.noPhase))

theorem retests_unnamed (l : List Port) (u : Unnamed n p) :
    Rests n p (l.foldl (fun p m => retest m p) p) ∨
    AdmittedUnder n p.mo.wheel p (l.foldl (fun p m => retest m p) p) := by
  induction l generalizing p with
  | nil => exact .inl (.refl n p)
  | cons m rest ih =>
    by_cases e : m = n
    · subst e
      obtain same | admitted := retest_unnamed u
      · rw [List.foldl_cons, same]
        exact ih u
      · exact .inr (admitted.rests (.retests admitted.quiet rest))
    · have one : Rests n p (retest m p) := .of_acts (S := (· ≠ n)) (Acts.retest .refl e) (fun x => x rfl) (retest_aside e p)
      have wheel : (retest m p).mo.wheel = p.mo.wheel := Part.wheel_of_fixed (retest_fixed m p)
      obtain rests | admitted := ih (one.unnamed u)
      · exact .inl (one.trans rests)
      · rw [wheel] at admitted
        exact .inr (.of_rests one admitted)

/-- Nothing reached the waiting port, or the swap of the pending wheel admitted it. -/
def WaitsOn (n : Port) (p q : Part) : Prop :=
  Rests n p q ∨ ∃ w, p.mo.pendingWheel = some w ∧ AdmittedUnder n w p q

/-- One more step of the end of the command, that leaves a quiet port at rest. -/
theorem WaitsOn.next (h : WaitsOn n p q) (u : Unnamed n p)
    (pending : ∀ w, q.mo.pendingWheel = some w → p.mo.pendingWheel = some w)
    (waits : Unnamed n q → WaitsOn n q r) (calm : quiet n q → Rests n q r) : WaitsOn n p r := by
  obtain rests | ⟨w, e, admitted⟩ := h
  · obtain g | ⟨w, e, admitted⟩ := waits (rests.unnamed u)
    · exact .inl (rests.trans g)
    · exact .inr ⟨w, pending w e, .of_rests rests admitted⟩
  · exact .inr ⟨w, e, admitted.rests (calm admitted.quiet)⟩

theorem Rests.waitsOn (h : Rests n p q) : WaitsOn n p q := .inl h

theorem swapWheel_pending (p : Part) : (swapWheel p).mo.pendingWheel = none := by
  obtain ⟨h, e⟩ | ⟨w, -, -, e⟩ | ⟨w, -, -, e⟩ := swapWheel_cases p <;> rw [e]
  · exact h
  · rw [complete_mo, Part.pendingWheel_of_fixed ((budgetAfter_fixed _ _).trans (foldl_retest_fixed _ _)), wheelIn,
      reportDevice_mo, queueWriteBack_mo]
    rfl
  · rw [complete_mo, reportDevice_mo]
    rfl

theorem wheelIn_wheel (w : List Phase) (p : Part) : (wheelIn w p).mo.wheel = w := by
  rw [wheelIn, reportDevice_mo, queueWriteBack_mo]
  rfl

theorem swapWheel_waits (u : Unnamed n p) : WaitsOn n p (swapWheel p) := by
  obtain ⟨-, e⟩ | ⟨w, pending, -, e⟩ | ⟨w, -, -, e⟩ := swapWheel_cases p <;> rw [e]
  · exact .inl (.refl n p)
  · have entered := Rests.wheelIn n w p
    have last (x : Part) (h : noEntry n x) : Rests n x (complete .device .ok (Machine.budgetAfter true x)) :=
      (Rests.budgetAfter true h).trans (.complete_device n _ _)
    obtain rests | admitted := retests_unnamed allPorts (entered.unnamed u)
    · exact .inl ((entered.trans rests).trans (last _ ((entered.trans rests).unnamed u).noEntry))
    · rw [wheelIn_wheel] at admitted
      exact .inr ⟨w, pending, (AdmittedUnder.of_rests entered admitted).rests (last _ admitted.noEntry)⟩
  · refine .inl (Rests.trans (q := p.mapMo (fun o => { o with pendingWheel := none }))
      ⟨rfl, rfl, rfl, rfl, rfl, id, fun _ => id, id⟩ ?_)
    exact (Rests.of_aeOnly (AeOnly.reportDevice _ _) (reportDevice_request _ _ _)).trans (.complete_device n _ _)

theorem moDecision_waits (u : Unnamed n p) : WaitsOn n p (moDecision p) := by
  obtain e | ⟨i, free, -, e⟩ := moDecision_cases p <;> rw [e]
  · exact .inl (.refl n p)
  · have granted := Rests.grantAt n i p free
    obtain g | g := swapAfter_cases i p.mo.pointer (grantAt i p) <;> rw [g]
    · exact granted.waitsOn.next u (fun w h => by rw [(grantAt_wheels i p).2] at h; exact h) swapWheel_waits Rests.swapWheel
    · exact .inl granted

theorem moDecision_pending_of {w : List Phase} (h : (moDecision p).mo.pendingWheel = some w) : p.mo.pendingWheel = some w := by
  obtain e | ⟨i, -, -, e⟩ := moDecision_cases p <;> rw [e] at h
  · exact h
  · obtain g | g := swapAfter_cases i p.mo.pointer (grantAt i p) <;> rw [g] at h
    · rw [swapWheel_pending] at h; cases h
    · rw [(grantAt_wheels i p).2] at h; exact h

theorem idleSwap_waits (u : Unnamed n p) : WaitsOn n p (idleSwap p) := by
  obtain ⟨-, e⟩ | ⟨-, e⟩ := idleSwap_cases p <;> rw [e]
  · exact (swapWheel_waits u).next u (fun w h => by rw [swapWheel_pending] at h; cases h) moDecision_waits Rests.moDecision
  · exact .inl (.refl n p)

/-- The end of the command leaves a waiting port waiting, or a swap admits it. -/
theorem settle_waits (u : Unnamed n p) : WaitsOn n p (settle p) := by
  have sweep := (Rests.adoptSweep n p).waitsOn
  have swept : (adoptSweep p).mo.pendingWheel = p.mo.pendingWheel := by rw [(adoptSweep_keeps p).2.2.2.2.1]
  have decided := sweep.next u (fun w h => by rw [swept] at h; exact h) moDecision_waits Rests.moDecision
  exact decided.next u (fun w h => by rw [← swept]; exact moDecision_pending_of h) idleSwap_waits Rests.idleSwap

/-- The same of an event after which the port waits. -/
theorem settle_event_waits {f : Part → Part} (u : Unnamed n (f p)) : WaitsOn n (f p) (settle (event f p)) := by
  have after : Rests n (f p) (event f p) := Rests.budgetAfter _ u.noEntry
  have pending : (event f p).mo.pendingWheel = (f p).mo.pendingWheel := Part.pendingWheel_of_fixed (budgetAfter_fixed _ _)
  exact after.waitsOn.next u (fun w h => by rw [pending] at h; exact h) settle_waits Rests.settle

end

end Sys2Proof.Machine
end

