-- ==== Sys2Proof/Proofs/Drains.lean ====
section
/-! How a drain begins, and where it is over at once (R21 to R23). -/

namespace Sys2Proof.Machine

section
variable {n : Port} {p q : Part}

/-- The port in DRAIN with this drain. -/
def drainMoved (n : Port) (d : Drain) (p : Part) : Part := moveTo n .drain (updPort n (fun r => { r with drain := some d }) p)

theorem drainMoved_entered (n : Port) (d : Drain) (p : Part) :
    Entered .drain { p.port n with drain := some d } ((drainMoved n d p).port n) := by
  have e := moveTo_port_self n .drain (updPort n (fun r => { r with drain := some d }) p)
  rw [updPort_port_self] at e
  exact e

theorem drainMoved_drain (n : Port) (d : Drain) (p : Part) : ((drainMoved n d p).port n).drain = some d :=
  (drainMoved_entered n d p).drain

/-- A lane-EXPECTED port that begins to drain keeps its outstanding tags. -/
theorem drainMoved_outstanding {d : Drain} (l : d.laneUse = .expected) :
    ((drainMoved n d p).lane n).outstanding = (p.lane n).outstanding := by
  have mode : laneModeOf ((drainMoved n d p).port n) (p.lane n).mode ≠ .idle := by
    unfold laneModeOf PortRecord.laneUseNow
    rw [(drainMoved_entered n d p).state, drainMoved_drain]
    dsimp only
    rw [l]
    decide
  have tags : ((drainMoved n d p).lane n).tags = (p.lane n).tags := by
    unfold drainMoved at mode ⊢
    rw [moveTo_lane_tags (by rw [updPort_lane]; exact mode), updPort_lane]
  unfold Lane.outstanding
  rw [tags]

theorem startDrain_eq (n : Port) (reason : DrainReason) (p : Part) :
    let d := newDrain reason (p.port n).plan
    startDrain n reason p =
      if flushes (p.lane n).outstanding (p.port n) then drainMoved n d p else enterGrace n (drainMoved n d p) := by
  intro d
  have e : startDrain n reason p = if d.laneUse = .unused || ((drainMoved n d p).lane n).outstanding == 0 then
      enterGrace n (drainMoved n d p) else drainMoved n d p := rfl
  rw [e]
  have use : d.laneUse = (p.port n).plan.laneUse := rfl
  cases l : (p.port n).plan.laneUse with
  | unused => simp [flushes, use, l]
  | expected =>
    rw [drainMoved_outstanding (use.trans l)]
    by_cases z : (p.lane n).outstanding = 0
    · simp [flushes, z]
    · have pos : 0 < (p.lane n).outstanding := Nat.pos_of_ne_zero z
      simp [flushes, use, l, z, pos]

/-- The part as the grace time starts. -/
def graceStarted (n : Port) (d : Drain) (p : Part) : Part :=
  let x := updPort n (fun r => { r with drain := some { d with phase := .grace }, timers := { r.timers with grace := some d.graceMs } }) p
  if d.laneUse = .expected then updLane n (fun l => { l with leave := true }) x else x

theorem graceStarted_port (n : Port) (d : Drain) (p : Part) : (graceStarted n d p).port n = { p.port n with
    drain := some { d with phase := .grace }, timers := { (p.port n).timers with grace := some d.graceMs } } := by
  unfold graceStarted
  dsimp only
  split
  · rw [updLane_port, updPort_port_self]
  · rw [updPort_port_self]

theorem enterGrace_eq {d : Drain} (h : (p.port n).drain = some d) :
    enterGrace n p = if d.graceMs = 0 then endDrain n (graceStarted n d p) else graceStarted n d p := by
  unfold enterGrace
  rw [h]
  rfl

/-- What the drain of a port leaves of its record beside the drain itself. -/
structure DrainKeeps (r r' : PortRecord) : Prop where
  plan : r'.plan = r.plan
  restartCount : r'.restartCount = r.restartCount
  identity : r'.identity = r.identity
  cause : r'.cause = r.cause
  onTime : r'.onTime = r.onTime
  deferred : r'.deferred = r.deferred

theorem DrainKeeps.trans {r r' r'' : PortRecord} (h : DrainKeeps r r') (g : DrainKeeps r' r'') : DrainKeeps r r'' :=
  ⟨g.plan.trans h.plan, g.restartCount.trans h.restartCount, g.identity.trans h.identity, g.cause.trans h.cause,
    g.onTime.trans h.onTime, g.deferred.trans h.deferred⟩

theorem Entered.drainKeeps {st : PortState} {r r' : PortRecord} (h : Entered st r r') : DrainKeeps r r' :=
  ⟨h.plan, h.restartCount, h.identity, h.cause, h.onTime, h.deferred⟩

/-- The port drains. -/
structure Drains (d : Drain) (flush : Bool) (r r' : PortRecord) : Prop where
  state : r'.state = .drain
  grant : r'.grant = r.grant
  drain : r'.drain = some { d with phase := if flush then .flush else .grace }
  grace : flush = false → r'.timers.grace = some d.graceMs
  rehello : r'.flags.rehello = false
  kept : r'.flags.kept = false
  onTime : r'.timers.onTime = false

theorem drainMoved_keeps (n : Port) (d : Drain) (p : Part) : DrainKeeps (p.port n) ((drainMoved n d p).port n) :=
  (⟨rfl, rfl, rfl, rfl, rfl, rfl⟩ : DrainKeeps (p.port n) { p.port n with drain := some d }).trans
    (drainMoved_entered n d p).drainKeeps

theorem graceStarted_keeps (n : Port) (d : Drain) (p : Part) : DrainKeeps (p.port n) ((graceStarted n d p).port n) := by
  rw [graceStarted_port]
  exact ⟨rfl, rfl, rfl, rfl, rfl, rfl⟩

/-- A drain that has something to flush or a grace time goes on. -/
theorem startDrain_drains (reason : DrainReason)
    (h : flushes (p.lane n).outstanding (p.port n) = true ∨ (newDrain reason (p.port n).plan).graceMs ≠ 0) :
    Drains (newDrain reason (p.port n).plan) (flushes (p.lane n).outstanding (p.port n)) (p.port n)
      ((startDrain n reason p).port n) ∧ DrainKeeps (p.port n) ((startDrain n reason p).port n) := by
  have entered := drainMoved_entered n (newDrain reason (p.port n).plan) p
  have keeps := drainMoved_keeps n (newDrain reason (p.port n).plan) p
  have drain := drainMoved_drain n (newDrain reason (p.port n).plan) p
  rw [startDrain_eq]
  cases f : flushes (p.lane n).outstanding (p.port n) with
  | true =>
    rw [if_pos rfl]
    exact ⟨⟨entered.state, entered.grant, drain, fun c => absurd c (by decide), entered.rehello, entered.kept,
      by rw [entered.timers]; rfl⟩, keeps⟩
  | false =>
    have grace : (newDrain reason (p.port n).plan).graceMs ≠ 0 := h.resolve_left (by rw [f]; decide)
    rw [if_neg (by decide), enterGrace_eq drain, if_neg grace]
    have kept := keeps.trans (graceStarted_keeps n (newDrain reason (p.port n).plan) _)
    have port := graceStarted_port n (newDrain reason (p.port n).plan) (drainMoved n (newDrain reason (p.port n).plan) p)
    generalize (graceStarted n (newDrain reason (p.port n).plan) (drainMoved n (newDrain reason (p.port n).plan) p)).port n = r'
      at kept port ⊢
    generalize newDrain reason (p.port n).plan = d at entered port ⊢
    generalize (drainMoved n d p).port n = r at entered port
    subst port
    exact ⟨⟨entered.state, entered.grant, rfl, fun _ => rfl, entered.rehello, entered.kept, by rw [entered.timers]; rfl⟩, kept⟩

/-- With nothing to flush and a grace time of 0 the drain ends where it began. -/
theorem startDrain_ends (reason : DrainReason) (f : flushes (p.lane n).outstanding (p.port n) = false)
    (g : (newDrain reason (p.port n).plan).graceMs = 0) :
    ∃ y, startDrain n reason p = endDrain n y ∧ y.mrc = p.mrc ∧ DrainKeeps (p.port n) (y.port n) ∧
      (y.port n).drain = some { newDrain reason (p.port n).plan with phase := .grace } := by
  refine ⟨graceStarted n (newDrain reason (p.port n).plan) (drainMoved n (newDrain reason (p.port n).plan) p), ?_, ?_, ?_, ?_⟩
  · rw [startDrain_eq, f, if_neg (by decide), enterGrace_eq (drainMoved_drain n _ p), if_pos g]
  · unfold graceStarted drainMoved
    dsimp only
    split
    · rw [updLane_mrc, updPort_mrc, moveTo_mrc, updPort_mrc]
    · rw [updPort_mrc, moveTo_mrc, updPort_mrc]
  · exact (drainMoved_keeps n _ p).trans (graceStarted_keeps n _ _)
  · rw [graceStarted_port]

/-! ### The end of a drain -/

/-- The port in a state with its switch open, its drain over. -/
structure Ended (st : PortState) (r r' : PortRecord) : Prop where
  state : r'.state = st
  grant : r'.grant = 0
  drain : r'.drain = none
  keeps : DrainKeeps r r'

theorem Entered.ended {st : PortState} {r r' : PortRecord} (h : Entered st r r') (o : st.closed = false) : Ended st r r' where
  state := h.state
  grant := by rw [h.grant, if_neg (by rw [o]; decide)]
  drain := by rw [h.drain, if_neg]; rintro rfl; exact absurd o (by decide)
  keeps := h.drainKeeps

theorem Ended.withFlags {st : PortState} {r r' : PortRecord} (h : Ended st r r') (f : Flags) : Ended st r { r' with flags := f } :=
  ⟨h.state, h.grant, h.drain, ⟨h.keeps.plan, h.keeps.restartCount, h.keeps.identity, h.keeps.cause, h.keeps.onTime, h.keeps.deferred⟩⟩

theorem Ended.withTimers {st : PortState} {r r' : PortRecord} (h : Ended st r r') (t : PortTimers) :
    Ended st r { r' with timers := t } :=
  ⟨h.state, h.grant, h.drain, ⟨h.keeps.plan, h.keeps.restartCount, h.keeps.identity, h.keeps.cause, h.keeps.onTime, h.keeps.deferred⟩⟩

/-- A drain that ends in OFF (R22, R23, R25). -/
theorem endDrain_off {d : Drain} (h : (p.port n).drain = some d) (dest : d.dest = .off) :
    Ended .off (p.port n) ((endDrain n p).port n) ∧
    (d.reason = .asked → ((endDrain n p).port n).flags.left = true) ∧ noEntry n (endDrain n p) := by
  have entered := (moveTo_port_self n .off p).ended rfl
  have ne := moveTo_noEntry n .off p
  unfold endDrain
  rw [h]
  dsimp only
  rw [dest]
  dsimp only
  rw [handOver_port]
  unfold noEntry
  rw [(handOver_leaves _ _).1]
  split
  · rw [setFlags_port_self, setFlags_bu]
    exact ⟨entered.withFlags _, fun _ => rfl, ne⟩
  next a => exact ⟨entered, fun c => absurd c a, ne⟩

/-- A drain that ends in PARKED or RESTART_WAIT in a part that runs (R23, R40, R192). -/
theorem endDrain_parked {d : Drain} (h : (p.port n).drain = some d) (dest : d.dest = .parked) (run : p.mrc.phase = .running) :
    Ended .parked (p.port n) ((endDrain n p).port n) ∧ noEntry n (endDrain n p) := by
  have entered := (moveTo_port_self n .parked p).ended rfl
  have ne := moveTo_noEntry n .parked p
  have out : ¬p.inHold = true := by rw [inHold_iff]; exact fun c => c run
  unfold endDrain
  rw [h]
  dsimp only
  rw [dest]
  dsimp only
  unfold noEntry
  rw [handOver_port, (handOver_leaves _ _).1, toParked, if_neg out]
  exact ⟨entered, ne⟩

theorem endDrain_restart {d : Drain} (h : (p.port n).drain = some d) (dest : d.dest = .restartWait)
    (run : p.mrc.phase = .running) :
    Ended .restartWait (p.port n) ((endDrain n p).port n) ∧ ((endDrain n p).port n).timers.restart = some 500 ∧
    noEntry n (endDrain n p) := by
  have entered := (moveTo_port_self n .restartWait p).ended rfl
  have ne := moveTo_noEntry n .restartWait p
  have out : ¬p.inHold = true := by rw [inHold_iff]; exact fun c => c run
  unfold endDrain
  rw [h]
  dsimp only
  rw [dest]
  dsimp only
  unfold noEntry
  rw [handOver_port, (handOver_leaves _ _).1, toRestartWait, if_neg out, setTimers_port_self, setTimers_bu]
  exact ⟨entered.withTimers _, rfl, ne⟩

/-! ### The words of the statements -/

theorem Drains.within {d : Drain} {reason : DrainReason} {dest : DrainDest} {grace out : Nat} {r r' : PortRecord} {ended : Prop}
    (h : flushes out r = true ∨ grace ≠ 0 → Drains d (flushes out r) r r')
    (e : flushes out r = false ∧ grace = 0 → ended)
    (same : d.reason = reason ∧ d.dest = dest ∧ d.laneUse = r.plan.laneUse ∧ d.graceMs = grace) :
    drainsWithin grace reason dest out r r' ended := by
  obtain ⟨sr, sd, sl, sg⟩ := same
  refine ⟨fun c => ?_, e⟩
  have x := h c
  refine ⟨x.state, x.grant, ?_, fun f => by rw [x.grace f, sg], x.rehello, x.kept, x.onTime⟩
  rw [x.drain, ← sr, ← sd, ← sl, ← sg]

end

end Sys2Proof.Machine
end

