-- ==== Sys2Proof/Proofs/AppliedInOn.lean ====
section
/-! An APPLY to a port in ON (R37) and to one that waits with NO_PHASE (R38), to the end of the command. -/

namespace Sys2Proof.Machine

section
variable {n : Port} {p q x t : Part} {plan : Plan}

/-- What follows the port's part of an event leaves the port at rest, or, where it waits with NO_PHASE, waiting or admitted. -/
structure Tail (n : Port) (p t : Part) : Prop where
  calm : quiet n p → Rests n p t
  waits : Unnamed n p → WaitsOn n p t

theorem tail_event (n : Port) (f : Part → Part) (p : Part) : Tail n (f p) (settle (event f p)) :=
  ⟨Rests.event, settle_event_waits⟩

/-! ### Requests answered -/

theorem Rests.answers {a : Result} (h : Rests n p t) (k : answers n a p) : answers n a t := by
  unfold Machine.answers
  rw [h.request]
  exact k

theorem complete_answers (n : Port) (a : Result) (p : Part) : answers n a (complete (.port n) a p) := by
  unfold answers
  rw [complete_request, if_pos rfl]

theorem complete_noEntry (w : ReqWord) (a : Result) (h : noEntry n p) : noEntry n (complete w a p) := by
  unfold noEntry
  rw [complete_bu]
  exact h

theorem stored_congr (h : stored n plan p) (r : q.request (.port n) = p.request (.port n)) (pl : (q.port n).plan = (p.port n).plan)
    (hand : q.handed n = p.handed n) : stored n plan q := by
  obtain ⟨ok, same, handed⟩ := h
  refine ⟨?_, pl.trans same, ?_⟩
  · unfold answers
    rw [r]
    exact ok
  · rw [handedOver_iff, hand]
    exact (handedOver_iff n plan p).1 handed

theorem Rests.stored (h : Rests n p t) (k : stored n plan p) : stored n plan t :=
  stored_congr k h.request (by rw [h.port]) h.handed

theorem AdmittedUnder.stored {w : List Phase} (h : AdmittedUnder n w p t) (k : stored n plan p) : stored n plan t :=
  stored_congr k h.request (by rw [h.admitted.1]; rfl) h.handed

/-- A plan stored and its request completed. -/
theorem complete_stored (n : Port) (plan : Plan) (p : Part) : stored n plan (complete (.port n) .ok (storePlan n plan p)) := by
  refine ⟨complete_answers n .ok _, by rw [complete_port, storePlan_plan], ?_⟩
  rw [handedOver_iff, (Same.complete _ _ _).handed, storePlan_handed]
  rfl

theorem setGrant_noEntry (m : Port) (g : Nat) (h : noEntry n p) : noEntry n (setGrant m g p) := by
  unfold noEntry
  rw [setGrant_bu]
  exact h

theorem giveStamp_noEntry (m : Port) (h : noEntry n p) : noEntry n (giveStamp m p) := by
  unfold noEntry
  rw [(giveStamp_record m n p).2]
  exact h

/-! ### The grant follows the plan -/

/-- The current the plan asks for, where the raise fits or the current is lowered (R66, R67). -/
def follow (n : Port) (request : Nat) (p : Part) : Part :=
  if (p.port n).grant < request then giveStamp n (setGrant n request p) else setGrant n request p

theorem follow_port (n : Port) (request : Nat) (p : Part) :
    ∃ k, (follow n request p).port n = { p.port n with grant := request, stamp := k } := by
  unfold follow
  split
  · obtain ⟨⟨k, e⟩, -⟩ := giveStamp_record n n (setGrant n request p)
    exact ⟨k, by rw [e, setGrant_port_self]⟩
  · exact ⟨(p.port n).stamp, setGrant_port_self n request p⟩

theorem follow_noEntry (request : Nat) (h : noEntry n p) : noEntry n (follow n request p) := by
  unfold follow
  split
  · exact giveStamp_noEntry n (setGrant_noEntry n request h)
  · exact setGrant_noEntry n request h

theorem follow_fixed (n : Port) (request : Nat) (p : Part) : (follow n request p).fixed = p.fixed := by
  unfold follow
  split
  · rw [giveStamp_fixed, setGrant_fixed]
  · exact setGrant_fixed n request p

/-- The raise of the port's grant to this current does not fit (R66). -/
def unfit (n : Port) (request : Nat) (p : Part) : Prop :=
  (p.port n).grant < request ∧ fits p (request - (p.port n).grant) = false

theorem applyInOn_eq (n : Port) (plan : Plan) (p : Part) : applyInOn n plan p =
    if plan.mode = .off then complete (.port n) .ok (withdraw n plan p)
    else if plan.base ≠ (p.port n).plan.base ∨ plan.size ≠ (p.port n).plan.size then complete (.port n) .windowLocked p
    else if plan.laneUse ≠ (p.port n).plan.laneUse then complete (.port n) .state p
    else if (p.port n).grant < fullRequest plan (p.port n).identity ∧
        fits p (fullRequest plan (p.port n).identity - (p.port n).grant) = false then complete (.port n) .shortfall p
    else complete (.port n) .ok (storePlan n plan (follow n (fullRequest plan (p.port n).identity) p)) := by
  unfold applyInOn follow
  dsimp only
  split
  · rfl
  split
  · rfl
  split
  · rfl
  by_cases less : (p.port n).grant < fullRequest plan (p.port n).identity
  · rw [if_pos less, if_pos less]
    cases fit : fits p (fullRequest plan (p.port n).identity - (p.port n).grant) with
    | true => simp
    | false => simp [less]
  · rw [if_neg less, if_neg less, if_neg (fun c => less c.1)]

theorem applyWaiting_eq (n : Port) (plan : Plan) (p : Part) : applyWaiting n plan p =
    if plan.mode = .off then complete (.port n) .ok (moveTo n .off (storePlan n plan p))
    else if (p.port n).grant < fullRequest plan (p.port n).identity ∧
        fits p (fullRequest plan (p.port n).identity - (p.port n).grant) = false then complete (.port n) .shortfall p
    else testAdmission n (complete (.port n) .ok (storePlan n plan (follow n (fullRequest plan (p.port n).identity) p))) := by
  unfold applyWaiting follow
  dsimp only
  split
  · rfl
  by_cases less : (p.port n).grant < fullRequest plan (p.port n).identity
  · rw [if_pos less, if_pos less]
    cases fit : fits p (fullRequest plan (p.port n).identity - (p.port n).grant) with
    | true => simp
    | false => simp [less]
  · rw [if_neg less, if_neg less, if_neg (fun c => less c.1)]

/-- A plan stored with the grant it asks for. -/
theorem followed_record (n : Port) (plan : Plan) (request : Nat) (p : Part) :
    ∃ k b c m, (complete (.port n) .ok (storePlan n plan (follow n request p))).port n = { p.port n with
      grant := request, stamp := k, plan := plan, restartCount := m,
      flags := { (p.port n).flags with ask := b }, pendingCue := c } := by
  obtain ⟨k, e⟩ := follow_port n request p
  obtain ⟨b, c, s⟩ := storePlan_record n plan (follow n request p)
  rw [e] at s
  refine ⟨k, b, c, min (p.port n).restartCount plan.restartLimit.1, ?_⟩
  rw [complete_port, s]

theorem followed_noEntry (plan : Plan) (request : Nat) (h : noEntry n p) :
    noEntry n (complete (.port n) .ok (storePlan n plan (follow n request p))) :=
  complete_noEntry _ _ (storePlan_noEntry plan (follow_noEntry request h))

/-! ### Withdrawn -/

theorem drainEnd_grace (reason : DrainReason) (plan : Plan) (h : reason ≠ .shed) :
    (newDrain reason plan).graceMs = graceMs plan.grace := by
  show drainGrace reason plan = _
  unfold drainGrace
  rw [if_neg h]

/-- A port that drains on holds no entry. -/
theorem startDrain_going_noEntry (reason : DrainReason)
    (h : flushes (p.lane n).outstanding (p.port n) = true ∨ (newDrain reason (p.port n).plan).graceMs ≠ 0) :
    noEntry n (startDrain n reason p) := by
  have ne : noEntry n (drainMoved n (newDrain reason (p.port n).plan) p) := moveTo_noEntry n .drain _
  rw [startDrain_eq]
  split
  · exact ne
  next f =>
    rw [enterGrace_eq (drainMoved_drain n _ p), if_neg (h.resolve_left f)]
    unfold graceStarted noEntry
    dsimp only
    split
    · rw [updLane_bu, updPort_bu]; exact ne
    · rw [updPort_bu]; exact ne

/-- A drain that leads to OFF, as its start leaves the port. -/
theorem startDrain_to_off (reason : DrainReason) (dest : startDest reason = .off) :
    (flushes (p.lane n).outstanding (p.port n) = true ∨ (newDrain reason (p.port n).plan).graceMs ≠ 0 →
      Drains (newDrain reason (p.port n).plan) (flushes (p.lane n).outstanding (p.port n)) (p.port n)
        ((startDrain n reason p).port n)) ∧
    (flushes (p.lane n).outstanding (p.port n) = false ∧ (newDrain reason (p.port n).plan).graceMs = 0 →
      Ended .off (p.port n) ((startDrain n reason p).port n) ∧
      (reason = .asked → ((startDrain n reason p).port n).flags.left = true)) ∧
    noEntry n (startDrain n reason p) ∧ ((startDrain n reason p).port n).state ≠ .settle ∧
    DrainKeeps (p.port n) ((startDrain n reason p).port n) := by
  have goes := startDrain_drains (n := n) (p := p) reason
  by_cases h : flushes (p.lane n).outstanding (p.port n) = true ∨ (newDrain reason (p.port n).plan).graceMs ≠ 0
  · obtain ⟨drains, keeps⟩ := goes h
    refine ⟨fun c => (goes c).1, fun c => ?_, ?_, by rw [drains.state]; decide, keeps⟩
    · rw [c.1, c.2] at h
      simp at h
    · exact startDrain_going_noEntry reason h
  · have f : flushes (p.lane n).outstanding (p.port n) = false := by simpa using fun c => h (.inl c)
    have g : (newDrain reason (p.port n).plan).graceMs = 0 := Decidable.not_not.1 (fun c => h (.inr c))
    obtain ⟨y, e, -, keeps, drain⟩ := startDrain_ends (n := n) (p := p) reason f g
    obtain ⟨ended, left, ne⟩ := endDrain_off drain dest
    rw [e]
    exact ⟨fun c => absurd c h, fun _ => ⟨⟨ended.state, ended.grant, ended.drain, keeps.trans ended.keeps⟩, left⟩, ne,
      by rw [ended.state]; decide, keeps.trans ended.keeps⟩

/-- What a stored plan leaves of a record. -/
structure StoredOver (plan : Plan) (r r' : PortRecord) : Prop where
  state : r'.state = r.state
  grant : r'.grant = r.grant
  drain : r'.drain = r.drain
  timers : r'.timers = r.timers
  flags : ∃ b, r'.flags = { r.flags with ask := b }
  deferred : r'.deferred = r.deferred
  onTime : r'.onTime = r.onTime
  identity : r'.identity = r.identity
  adopted : r'.adopted = r.adopted
  cause : r'.cause = r.cause

theorem storePlan_over (n : Port) (plan : Plan) (p : Part) : StoredOver plan (p.port n) ((storePlan n plan p).port n) := by
  obtain ⟨b, c, e⟩ := storePlan_record n plan p
  rw [e]
  exact ⟨rfl, rfl, rfl, rfl, ⟨b, rfl⟩, rfl, rfl, rfl, rfl, rfl⟩

theorem StoredOver.rests {r : PortRecord} (h : StoredOver plan r (q.port n)) (g : Rests n q t) : StoredOver plan r (t.port n) := by
  rw [g.port]
  exact ⟨h.state, h.grant, h.drain, h.timers, h.flags, h.deferred, h.onTime, h.identity, h.adopted, h.cause⟩

theorem Drains.afterStored {d : Drain} {flush : Bool} {r r' r'' : PortRecord} (h : Drains d flush r r') (s : StoredOver plan r' r'') :
    Drains d flush r r'' := by
  obtain ⟨b, flags⟩ := s.flags
  exact ⟨s.state.trans h.state, s.grant.trans h.grant, s.drain.trans h.drain, fun f => by rw [s.timers]; exact h.grace f,
    by rw [flags]; exact h.rehello, by rw [flags]; exact h.kept, by rw [s.timers]; exact h.onTime⟩

/-- A withdrawal with its request completed (R21, R37). -/
theorem withdrawn (tail : Tail n (complete (.port n) .ok (withdraw n plan x)) t) :
    stored n plan t ∧ drains .withdrawn .off .off (x.lane n).outstanding (x.port n) (t.port n) ∧
    (t.port n).deferred = (x.port n).deferred ∧ (t.port n).onTime = (x.port n).onTime := by
  obtain ⟨goes, ends, ne, settled, keeps⟩ := startDrain_to_off (n := n) (p := x) .withdrawn rfl
  have same := storePlan_over n plan (startDrain n .withdrawn x)
  have calm : quiet n (complete (.port n) .ok (withdraw n plan x)) := by
    refine quiet_of_state (complete_noEntry _ _ (storePlan_noEntry plan ne)) ?_
    rw [complete_port, withdraw, same.state]
    exact settled
  have rests := tail.calm calm
  have done : StoredOver plan ((startDrain n .withdrawn x).port n) (t.port n) :=
    StoredOver.rests (by rw [complete_port]; exact same) rests
  have grace := drainEnd_grace .withdrawn (x.port n).plan (by decide)
  rw [grace] at goes ends
  generalize (startDrain n .withdrawn x).port n = r at goes ends done keeps
  refine ⟨rests.stored (complete_stored n plan _), ?_, by rw [done.deferred, keeps.deferred], by rw [done.onTime, keeps.onTime]⟩
  refine Drains.within (d := newDrain .withdrawn (x.port n).plan) (fun c => (goes c).afterStored done) (fun c => ?_)
    ⟨rfl, rfl, rfl, grace⟩
  obtain ⟨e, -⟩ := ends c
  exact ⟨done.state.trans e.state, done.grant.trans e.grant, done.drain.trans e.drain⟩

/-! ### An APPLY in ON -/

/-- Two parts that an APPLY to the port looks at in the same way. -/
structure SameView (n : Port) (p x : Part) : Prop where
  port : x.port n = p.port n
  fits : ∀ k, fits x k = fits p k
  outstanding : (p.port n).plan.laneUse = .expected → (x.lane n).outstanding = (p.lane n).outstanding
  pending : x.mo.pendingWheel = p.mo.pendingWheel
  wheel : x.mo.wheel = p.mo.wheel
  mrc : x.mrc.standby = p.mrc.standby ∧ x.mrc.phase = p.mrc.phase

theorem SameView.refl (n : Port) (p : Part) : SameView n p p := ⟨rfl, fun _ => rfl, fun _ => rfl, rfl, rfl, rfl, rfl⟩

theorem drains_outstanding {reason : DrainReason} {dest : DrainDest} {after : PortState} {a b : Nat} {r r' : PortRecord}
    (h : r.plan.laneUse = .expected → a = b) : drains reason dest after a r r' ↔ drains reason dest after b r r' := by
  have same : flushes a r = flushes b r := by
    unfold flushes
    cases l : r.plan.laneUse with
    | unused => rw [show (LaneUse.unused == LaneUse.expected) = false from rfl, Bool.and_false, Bool.and_false]
    | expected => rw [h l]
  unfold drains drainsWithin
  rw [same]

theorem sameButStamp_flags {r r' : PortRecord} (h : sameButStamp r r') :
    sameButStamp { r with flags := { r.flags with short := r'.flags.short, unwatched := r'.flags.unwatched } } r' ∧
    r'.flags = r.flags := by
  rw [sameButStamp] at h
  rw [h]
  exact ⟨rfl, rfl⟩

/-- A port that rests goes on. -/
theorem goesOn_of_same {r : PortRecord} (h : sameButStamp r (t.port n)) : goesOn n r p t :=
  .inl ⟨(sameButStamp_flags h).1, fun _ => (sameButStamp_flags h).2⟩

theorem Rests.same {r : PortRecord} (h : Rests n q t) (e : q.port n = r) : sameButStamp r (t.port n) := by
  rw [sameButStamp, ← e]
  exact h.port

/-- A request refused at a port that is quiet. -/
theorem refused_quiet {a : Result} (v : SameView n p x) (q : quiet n x) (tail : Tail n (complete (.port n) a x) t) :
    refusedApply n a p t ∧ (t.port n).deferred = (x.port n).deferred ∧ (t.port n).onTime = (x.port n).onTime := by
  have calm : quiet n (complete (.port n) a x) := ⟨complete_noEntry _ _ q.1, by rw [complete_port]; exact q.2⟩
  have rests := tail.calm calm
  have same : sameButStamp (p.port n) (t.port n) := rests.same (by rw [complete_port, v.port])
  refine ⟨⟨rests.answers (complete_answers n a x), goesOn_of_same same, fun _ => same⟩, ?_, ?_⟩ <;> rw [rests.port, complete_port]

/-- An APPLY to a port in ON (R37), seen from the part `p`. -/
theorem applyInOn_outcome (v : SameView n p x) (ne : noEntry n x) (s : (x.port n).state = .on)
    (tail : Tail n (applyInOn n plan x) t) :
    applyOn n plan p t ∧ (t.port n).deferred = (x.port n).deferred ∧ (t.port n).onTime = (x.port n).onTime := by
  have q : quiet n x := quiet_of_state ne (by rw [s]; decide)
  rw [applyInOn_eq] at tail
  have view : applyOn n plan p t ↔ ((p.port n).state = .on →
    (plan.mode = .off → stored n plan t ∧ drains .withdrawn .off .off (x.lane n).outstanding (x.port n) (t.port n)) ∧
    (plan.mode ≠ .off → ¬(plan.base = (x.port n).plan.base ∧ plan.size = (x.port n).plan.size) → refusedApply n .windowLocked p t) ∧
    (plan.mode ≠ .off → plan.base = (x.port n).plan.base ∧ plan.size = (x.port n).plan.size →
      plan.laneUse ≠ (x.port n).plan.laneUse → refusedApply n .state p t) ∧
    (plan.mode ≠ .off → plan.base = (x.port n).plan.base ∧ plan.size = (x.port n).plan.size →
      plan.laneUse = (x.port n).plan.laneUse →
      ((x.port n).grant < fullRequest plan (x.port n).identity →
        fits x (fullRequest plan (x.port n).identity - (x.port n).grant) = false → refusedApply n .shortfall p t) ∧
      (((x.port n).grant < fullRequest plan (x.port n).identity →
        fits x (fullRequest plan (x.port n).identity - (x.port n).grant) = true) →
        stored n plan t ∧ (t.port n).state = .on ∧ (t.port n).grant = fullRequest plan (x.port n).identity))) := by
    have outstanding (r' : PortRecord) := drains_outstanding (reason := .withdrawn) (dest := .off) (after := .off)
      (r := p.port n) (r' := r') v.outstanding
    unfold applyOn
    simp only [v.port, v.fits, outstanding]
  rw [view]
  by_cases off : plan.mode = .off
  · rw [if_pos off] at tail
    obtain ⟨ok, drains, keeps⟩ := withdrawn tail
    exact ⟨fun _ => ⟨fun _ => ⟨ok, drains⟩, fun c => absurd off c, fun c => absurd off c, fun c => absurd off c⟩, keeps⟩
  rw [if_neg off] at tail
  by_cases window : plan.base ≠ (x.port n).plan.base ∨ plan.size ≠ (x.port n).plan.size
  · rw [if_pos window] at tail
    obtain ⟨refused, keeps⟩ := refused_quiet v q tail
    have other : ¬(plan.base = (x.port n).plan.base ∧ plan.size = (x.port n).plan.size) := fun c =>
      window.elim (fun w => w c.1) (fun w => w c.2)
    exact ⟨fun _ => ⟨fun c => absurd c off, fun _ _ => refused, fun _ c => absurd c other, fun _ c => absurd c other⟩, keeps⟩
  rw [if_neg window] at tail
  have same : plan.base = (x.port n).plan.base ∧ plan.size = (x.port n).plan.size := by simpa using window
  by_cases use : plan.laneUse ≠ (x.port n).plan.laneUse
  · rw [if_pos use] at tail
    obtain ⟨refused, keeps⟩ := refused_quiet v q tail
    exact ⟨fun _ => ⟨fun c => absurd c off, fun _ c => absurd same c, fun _ _ _ => refused, fun _ _ c => absurd c use⟩, keeps⟩
  rw [if_neg use] at tail
  split at tail
  next short =>
    obtain ⟨refused, keeps⟩ := refused_quiet v q tail
    refine ⟨fun _ => ⟨fun c => absurd c off, fun _ c => absurd same c, fun _ _ c => absurd c use, fun _ _ _ =>
      ⟨fun _ _ => refused, fun c => ?_⟩⟩, keeps⟩
    have yes := c short.1
    rw [short.2] at yes
    cases yes
  next long =>
    obtain ⟨k, b, c, m, e⟩ := followed_record n plan (fullRequest plan (x.port n).identity) x
    have rests := tail.calm (quiet_of_state (followed_noEntry plan _ ne) (by rw [e]; dsimp only; rw [s]; decide))
    have port := rests.port
    rw [e] at port
    refine ⟨fun _ => ⟨fun c => absurd c off, fun _ c => absurd same c, fun _ _ c => absurd c use, fun _ _ _ =>
      ⟨fun less no => absurd ⟨less, no⟩ long, fun _ => ⟨rests.stored (complete_stored n plan _), ?_, ?_⟩⟩⟩, ?_, ?_⟩ <;> rw [port]
    exact s

theorem applyInOn_settled (s : (x.port n).state = .on) (plan : Plan) : ((applyInOn n plan x).port n).state ≠ .settle := by
  have same : ((complete (.port n) .ok (withdraw n plan x)).port n).state ≠ .settle := by
    rw [complete_port, withdraw, (storePlan_over n plan _).state]
    exact (startDrain_to_off .withdrawn rfl).2.2.2.1
  obtain ⟨k, b, c, m, e⟩ := followed_record n plan (fullRequest plan (x.port n).identity) x
  have on : (x.port n).state ≠ .settle := by rw [s]; decide
  rw [applyInOn_eq]
  split
  · exact same
  split
  · rw [complete_port]; exact on
  split
  · rw [complete_port]; exact on
  split
  · rw [complete_port]; exact on
  · rw [e]; exact on

/-! ### An APPLY to a port that waits with NO_PHASE -/

theorem testAdmission_unnamed (u : Unnamed n p) :
    (admits p n = false ∧ testAdmission n p = p) ∨ (admits p n = true ∧ AdmittedUnder n p.mo.wheel p (testAdmission n p)) := by
  unfold testAdmission
  cases a : admits p n with
  | true =>
    rw [if_pos rfl]
    exact .inr ⟨rfl, u.admitted a⟩
  | false =>
    rw [if_neg (by decide)]
    exact .inl ⟨rfl, setFlags_same (Flags.noPhase_same u.noPhase)⟩

theorem Unnamed.complete (u : Unnamed n p) (a : Result) : Unnamed n (complete (.port n) a p) := by
  refine ⟨?_, ?_, complete_noEntry _ _ u.noEntry, ?_⟩ <;> rw [complete_port]
  · exact u.state
  · exact u.noPhase
  · exact u.deferred

theorem Unnamed.followed (u : Unnamed n p) (plan : Plan) (request : Nat) :
    Unnamed n (Machine.complete (.port n) .ok (storePlan n plan (follow n request p))) := by
  obtain ⟨k, b, c, m, e⟩ := followed_record n plan request p
  exact ⟨by rw [e]; exact u.state, by rw [e]; exact u.noPhase, followed_noEntry plan request u.noEntry, by rw [e]; exact u.deferred⟩

/-- A request refused at a port that waits with NO_PHASE. -/
theorem refused_unnamed {a : Result} (v : SameView n p x) (u : Unnamed n x) (tail : Tail n (complete (.port n) a x) t) :
    refusedApply n a p t ∧ (t.port n).deferred = none := by
  have pending : (complete (.port n) a x).mo.pendingWheel = p.mo.pendingWheel := by rw [complete_mo, v.pending]
  obtain rests | ⟨w, e, admitted⟩ := tail.waits (u.complete a)
  · have same : sameButStamp (p.port n) (t.port n) := rests.same (by rw [complete_port, v.port])
    refine ⟨⟨rests.answers (complete_answers n a x), goesOn_of_same same, fun _ => same⟩, ?_⟩
    rw [rests.port, complete_port]
    exact u.deferred
  · have record := admitted.admitted
    rw [complete_port, v.port] at record
    rw [pending] at e
    have ok : answers n a t := by
      unfold answers
      rw [admitted.request]
      exact complete_answers n a x
    refine ⟨⟨ok, .inr (.inr ⟨?_, ?_, by rw [e]; simp, record⟩), fun c => by rw [c] at e; cases e⟩, by rw [record.1]; rfl⟩
    · rw [← v.port]; exact u.state
    · rw [← v.port]; exact u.noPhase

/-- A valid plan that expects a lane has a window (R34). -/
theorem size_of_valid (h : planFieldsValid plan = true) (l : plan.laneUse = .expected) : plan.size ≠ 0 := by
  intro z
  simp [planFieldsValid, l, z] at h

/-- The port tested under a plan stored with the grant it asks for. -/
theorem tested_outcome {y : Part} {request : Nat} (u : Unnamed n y) (valid : planFieldsValid plan = true)
    (wheel : y.mo.wheel = p.mo.wheel) (pending : y.mo.pendingWheel = p.mo.pendingWheel) (pl : (y.port n).plan = plan)
    (g : (y.port n).grant = request) (ok : stored n plan y) (tail : Tail n (testAdmission n y) t) :
    (stored n plan t ∧ (t.port n).grant = request ∧
      ((plan.laneUse = .unused ∨ names p.mo.wheel n = true) → (t.port n).state = .on ∧ (t.port n).flags.noPhase = false) ∧
      (plan.laneUse = .expected → names p.mo.wheel n = false → waitsOrAdmitted n p t)) ∧ (t.port n).deferred = none := by
  have under {w : List Phase} (a : AdmittedUnder n w y t) : stored n plan t ∧ (t.port n).grant = request ∧
      (t.port n).state = .on ∧ (t.port n).flags.noPhase = false ∧ (t.port n).plan = plan ∧ (t.port n).deferred = none := by
    have record := a.admitted.1
    refine ⟨a.stored ok, ?_, a.state, ?_, ?_, ?_⟩ <;> rw [record]
    · exact g
    · rfl
    · exact pl
    · rfl
  obtain ⟨no, e⟩ | ⟨yes, a⟩ := testAdmission_unnamed u
  · rw [e] at tail
    have l := expected_of_not_admits no
    have unnamed : names p.mo.wheel n = false := by
      have size := size_of_valid valid (pl ▸ l)
      have a := no
      unfold admits at a
      rw [l, pl, wheel] at a
      simpa [size] using a
    have never {q : Prop} (c : plan.laneUse = .unused ∨ names p.mo.wheel n = true) : q := by
      rw [← pl, l, unnamed] at c
      simp at c
    obtain rests | ⟨w, e, a⟩ := tail.waits u
    · have port := rests.port
      refine ⟨⟨rests.stored ok, by rw [port]; exact g, never, fun _ _ => .inl ⟨by rw [port]; exact u.state, by rw [port]; exact u.noPhase⟩⟩,
        by rw [port]; exact u.deferred⟩
    · obtain ⟨done, grant, on, noPhase, kept, deferred⟩ := under a
      obtain ⟨named, size⟩ := a.names l
      exact ⟨⟨done, grant, never, fun _ _ => .inr ⟨w, by rw [← pending, e], named, by rw [kept, ← pl]; exact size, on, noPhase⟩⟩, deferred⟩
  · obtain ⟨done, grant, on, noPhase, -, deferred⟩ := under (a.rests (tail.calm a.quiet))
    refine ⟨⟨done, grant, fun _ => ⟨on, noPhase⟩, fun l no => ?_⟩, deferred⟩
    have named := (admits_expected yes (pl ▸ l)).1
    rw [wheel, no] at named
    cases named

/-- An APPLY to a port that waits with NO_PHASE (R38), seen from the part `p`. -/
theorem applyWaiting_outcome (v : SameView n p x) (u : Unnamed n x) (valid : planFieldsValid plan = true)
    (tail : Tail n (applyWaiting n plan x) t) : applyUnnamed n plan p t ∧ (t.port n).deferred = none := by
  rw [applyWaiting_eq] at tail
  have view : applyUnnamed n plan p t ↔ ((p.port n).state = .settle → (p.port n).flags.noPhase = true → (p.port n).deferred = none →
    (plan.mode = .off → stored n plan t ∧ (t.port n).state = .off ∧ (t.port n).grant = 0) ∧
    (plan.mode ≠ .off → (x.port n).grant < fullRequest plan (x.port n).identity →
      fits x (fullRequest plan (x.port n).identity - (x.port n).grant) = false → refusedApply n .shortfall p t) ∧
    (plan.mode ≠ .off → ((x.port n).grant < fullRequest plan (x.port n).identity →
        fits x (fullRequest plan (x.port n).identity - (x.port n).grant) = true) →
      stored n plan t ∧ (t.port n).grant = fullRequest plan (x.port n).identity ∧
      ((plan.laneUse = .unused ∨ names p.mo.wheel n = true) → (t.port n).state = .on ∧ (t.port n).flags.noPhase = false) ∧
      (plan.laneUse = .expected → names p.mo.wheel n = false → waitsOrAdmitted n p t))) := by
    unfold applyUnnamed
    simp only [v.port, v.fits]
  rw [view]
  by_cases off : plan.mode = .off
  · rw [if_pos off] at tail
    have entered := moveTo_port_self n .off (storePlan n plan x)
    have calm : quiet n (complete (.port n) .ok (moveTo n .off (storePlan n plan x))) :=
      quiet_of_state (complete_noEntry _ _ (moveTo_noEntry n .off _)) (by rw [complete_port, entered.state]; decide)
    have rests := tail.calm calm
    have port := rests.port
    rw [complete_port] at port
    have done : stored n plan (complete (.port n) .ok (moveTo n .off (storePlan n plan x))) := by
      refine ⟨complete_answers n .ok _, by rw [complete_port, entered.plan, storePlan_plan], ?_⟩
      rw [handedOver_iff, (Same.complete _ _ _).handed, moveTo_handed_self, storePlan_handed]
      rfl
    have before : (x.port n).deferred = none := u.deferred
    have kept := (storePlan_over n plan x).deferred
    have state := entered.state
    have grant := entered.grant
    have deferred := entered.deferred
    generalize (moveTo n .off (storePlan n plan x)).port n = r at port state grant deferred
    refine ⟨fun _ _ _ => ⟨fun _ => ⟨rests.stored done, ?_, ?_⟩, fun c => absurd off c, fun c => absurd off c⟩, ?_⟩ <;> rw [port]
    · exact state
    · exact grant
    · exact deferred.trans (kept.trans before)
  rw [if_neg off] at tail
  split at tail
  next short =>
    obtain ⟨refused, deferred⟩ := refused_unnamed v u tail
    refine ⟨fun _ _ _ => ⟨fun c => absurd c off, fun _ _ _ => refused, fun _ c => ?_⟩, deferred⟩
    have yes := c short.1
    rw [short.2] at yes
    cases yes
  next long =>
    obtain ⟨k, b, c, m, e⟩ := followed_record n plan (fullRequest plan (x.port n).identity) x
    have fixed : (complete (.port n) .ok (storePlan n plan (follow n (fullRequest plan (x.port n).identity) x))).fixed = x.fixed := by
      rw [complete_fixed, storePlan_fixed, follow_fixed]
    obtain ⟨outcome, deferred⟩ := tested_outcome (p := p) (u.followed plan (fullRequest plan (x.port n).identity)) valid
      ((Part.wheel_of_fixed fixed).trans v.wheel) ((Part.pendingWheel_of_fixed fixed).trans v.pending)
      (by rw [e]) (by rw [e]) (complete_stored n plan _) tail
    exact ⟨fun _ _ _ => ⟨fun c => absurd c off, fun _ less no => absurd ⟨less, no⟩ long, fun _ _ => outcome⟩, deferred⟩

end

end Sys2Proof.Machine
end

