-- ==== Sys2Proof/Proofs/SettleExpiry.lean ====
section
/-! The statement about the expiry of the settle timer: O21. -/

namespace Sys2Proof.Machine

section
variable {n : Port} {p q x t : Part} {plan : Plan}

theorem fits_of (o : x.bu.isOver = p.bu.isOver) (c : committed x = committed p) (l : ceiling x = ceiling p) (k : Nat) :
    fits x k = fits p k := by
  unfold fits
  rw [o, c, l]

/-- The port record replaced, as the other ports and the blocks stay. -/
theorem sameView_setPort (r : PortRecord) (port : x.port n = r) (others : ∀ m, n ≠ m → x.aside m = p.aside m)
    (fixed : x.fixed = p.fixed) (isOver : x.bu.isOver = p.bu.isOver)
    (outstanding : r.plan.laneUse = .expected → (x.lane n).outstanding = (p.lane n).outstanding) :
    SameView n (p.setPort n r) x where
  port := by rw [Part.setPort_port_self]; exact port
  fits := by
    refine fits_of isOver (committed_congr fun m => ?_) (ceiling_of_fixed (fixed.trans (setPort_fixed n r p).symm))
    by_cases e : n = m
    · subst e
      unfold closedGrant
      rw [port, Part.setPort_port_self]
    · exact closedGrant_of_aside ((others m e).trans (setPort_aside e r p).symm)
  outstanding := fun l => outstanding (by rw [Part.setPort_port_self] at l; exact l)
  pending := Part.pendingWheel_of_fixed fixed
  wheel := Part.wheel_of_fixed fixed
  mrc := by rw [Part.setPort_mrc, Part.mrc_of_fixed fixed]; exact ⟨rfl, rfl⟩

/-- The part with the settle timer stopped. -/
def settleStopped (n : Port) (p : Part) : Part := setTimers n (fun t => { t with settle := none }) p

theorem settleStopped_port (n : Port) (p : Part) : (settleStopped n p).port n =
    { p.port n with timers := { (p.port n).timers with settle := none } } := setTimers_port_self _ _ _

theorem settleStopped_noEntry (h : noEntry n p) : noEntry n (settleStopped n p) := setTimers_noEntry _ h

theorem settleExpired_eq (n : Port) (p : Part) : settleExpired n p =
    if ((testAdmission n (settleStopped n p)).port n).state = .settle then
      applyDeferred n (testAdmission n (settleStopped n p))
    else testAdmission n (settleStopped n p) := rfl

theorem settleStopped_admits (n : Port) (p : Part) : admits (settleStopped n p) n = admits p n := by
  have wheel : (settleStopped n p).mo.wheel = p.mo.wheel := Part.wheel_of_fixed (setTimers_fixed n _ p)
  unfold admits
  rw [settleStopped_port, wheel]

/-! ### A port that is admitted -/

/-- The part with the port in ON, its deferred plan taken from the record. -/
def onTaken (n : Port) (p : Part) : Part := takeDeferred n (entering n (settleStopped n p))

theorem onTaken_port (h : noEntry n p) (s : (p.port n).state = .settle) : (onTaken n p).port n = enteredOn (p.port n) := by
  have stopped := settleStopped_port n p
  have s' : ((settleStopped n p).port n).state = .settle := by rw [stopped]; exact s
  rw [onTaken, takeDeferred_port, entering_port (settleStopped_noEntry h) s', stopped]
  rfl

theorem entering_fixed (n : Port) (p : Part) : (entering n p).fixed = p.fixed := by
  rw [entering, openLane_fixed, startOnTime_fixed, moveTo_fixed]

theorem onTaken_view (h : noEntry n p) (s : (p.port n).state = .settle) :
    SameView n (p.setPort n (enteredOn (p.port n))) (onTaken n p) := by
  have stopped := settleStopped_port n p
  refine sameView_setPort _ (onTaken_port h s) (fun m e => ?_) ?_ ?_ (fun l => ?_)
  · rw [onTaken, takeDeferred_aside e, entering, openLane_aside e, startOnTime_aside e, moveTo_aside e, settleStopped,
      setTimers_aside e]
  · rw [onTaken, takeDeferred_fixed, entering_fixed, settleStopped, setTimers_fixed]
  · rw [onTaken, takeDeferred, updPort_bu, entering_bu, moveTo_bu, settleStopped, setTimers_bu]
  · have l' : ((settleStopped n p).port n).plan.laneUse = .expected := by rw [stopped]; exact l
    have tags : ((onTaken n p).lane n).tags = (p.lane n).tags := by
      rw [onTaken, takeDeferred, updPort_lane, entering_tags l', settleStopped, setTimers_lane]
    unfold Lane.outstanding
    rw [tags]

/-- The settle timer's expiry of a port that is admitted: nothing, or the deferred plan applied in ON. -/
theorem settleExpired_admitted (h : noEntry n p) (s : (p.port n).state = .settle) (a : admits p n = true) :
    ((p.port n).deferred = none → settleExpired n p = enterOn n (settleStopped n p)) ∧
    (∀ plan, (p.port n).deferred = some plan → settleExpired n p = applyInOn n plan (onTaken n p)) := by
  have stopped := settleStopped_port n p
  have tested : testAdmission n (settleStopped n p) = applyEntering n (entering n (settleStopped n p)) := by
    rw [testAdmission, settleStopped_admits, a, if_pos rfl, enterOn_eq]
  have deferred : ((entering n (settleStopped n p)).port n).deferred = (p.port n).deferred := by
    rw [(entering_record n _).2.2.1, stopped]
  rw [settleExpired_eq, tested, enterOn_eq]
  unfold applyEntering
  rw [deferred]
  refine ⟨fun d => ?_, fun plan d => ?_⟩ <;> rw [d] <;> dsimp only
  · rw [if_neg]
    rw [(entering_record n _).1]
    decide
  · rw [if_neg, onTaken]
    refine applyInOn_settled (n := n) (x := onTaken n p) ?_ plan
    rw [onTaken_port h s]
    rfl

/-! ### A port that waits on -/

/-- The part with the port waiting with NO_PHASE. -/
def waitingOn (n : Port) (p : Part) : Part := setFlags n (fun f => { f with noPhase := true }) (settleStopped n p)

theorem waitingOn_port (n : Port) (p : Part) : (waitingOn n p).port n = { p.port n with
    flags := { (p.port n).flags with noPhase := true }, timers := { (p.port n).timers with settle := none } } := by
  rw [waitingOn, setFlags_port_self, settleStopped_port]

theorem waitingOn_keeps (n : Port) (p : Part) :
    (waitingOn n p).bu = p.bu ∧ (waitingOn n p).fixed = p.fixed ∧ (waitingOn n p).lane n = p.lane n ∧
    ∀ m, n ≠ m → (waitingOn n p).aside m = p.aside m := by
  refine ⟨?_, ?_, ?_, fun m e => ?_⟩
  · rw [waitingOn, setFlags_bu, settleStopped, setTimers_bu]
  · rw [waitingOn, setFlags_fixed, settleStopped, setTimers_fixed]
  · rw [waitingOn, setFlags_lane, settleStopped, setTimers_lane]
  · rw [waitingOn, setFlags_aside e, settleStopped, setTimers_aside e]

theorem settleExpired_waiting (s : (p.port n).state = .settle) (a : admits p n = false) :
    ((p.port n).deferred = none → settleExpired n p = waitingOn n p) ∧
    (∀ plan, (p.port n).deferred = some plan → settleExpired n p = applyWaiting n plan (takeDeferred n (waitingOn n p))) := by
  have port := waitingOn_port n p
  have tested : testAdmission n (settleStopped n p) = waitingOn n p := by
    rw [testAdmission, settleStopped_admits, a, if_neg (by decide), waitingOn]
  have settled : ((waitingOn n p).port n).state = .settle := by rw [port]; exact s
  have deferred : ((waitingOn n p).port n).deferred = (p.port n).deferred := by rw [port]
  rw [settleExpired_eq, tested, if_pos settled]
  unfold applyDeferred
  rw [deferred]
  refine ⟨fun d => by rw [d], fun plan d => ?_⟩
  rw [d]
  dsimp only
  have taken : (takeDeferred n (waitingOn n p)).port n = { (waitingOn n p).port n with deferred := none } := takeDeferred_port n _
  unfold applyByState
  dsimp only
  rw [taken, port]
  dsimp only
  rw [s]
  rfl

theorem waitingTaken_unnamed (h : noEntry n p) (s : (p.port n).state = .settle) :
    Unnamed n (takeDeferred n (waitingOn n p)) ∧ (takeDeferred n (waitingOn n p)).port n = leftWaiting (p.port n) := by
  have port : (takeDeferred n (waitingOn n p)).port n = leftWaiting (p.port n) := by
    rw [takeDeferred_port, waitingOn_port]
    rfl
  refine ⟨⟨by rw [port]; exact s, by rw [port]; rfl, ?_, by rw [port]; rfl⟩, port⟩
  unfold noEntry
  rw [takeDeferred, updPort_bu, (waitingOn_keeps n p).1]
  exact h

theorem waitingTaken_view (h : noEntry n p) (s : (p.port n).state = .settle) :
    SameView n (p.setPort n (leftWaiting (p.port n))) (takeDeferred n (waitingOn n p)) := by
  obtain ⟨bu, fixed, lane, others⟩ := waitingOn_keeps n p
  refine sameView_setPort _ (waitingTaken_unnamed h s).2 (fun m e => ?_) ?_ ?_ (fun _ => ?_)
  · rw [takeDeferred_aside e, others m e]
  · rw [takeDeferred_fixed, fixed]
  · rw [takeDeferred, updPort_bu, bu]
  · rw [takeDeferred, updPort_lane, lane]

/-! ### The command -/

theorem admits_iff (n : Port) (p : Part) : admits p n = true ↔
    (p.port n).plan.laneUse = .unused ∨ ((p.port n).plan.size ≠ 0 ∧ some (Participant.port n) ∈ p.mo.wheel) := by
  unfold admits names
  simp

/-- Settles O21: the port is tested, and its deferred request applied, in the event; a swap may admit it after that. -/
theorem settleTimerExpiryTestsAdmission : Obligations.SettleTimerExpiryTestsAdmission := by
  intro n s runs here ne
  refine completes_onPart (can := settleRuns n) (f := event (settleExpired n)) rfl (by simp [settleRuns, runs, here]) ?_
  dsimp only
  have tail := tail_event n (settleExpired n) s.part
  have stopped := settleStopped_port n s.part
  generalize settle (event (settleExpired n) s.part) = t at tail ⊢
  refine ⟨fun c => ?_, fun l c => ?_⟩
  · obtain ⟨bare, held⟩ := settleExpired_admitted ne here ((admits_iff n s.part).2 c)
    refine ⟨fun d => ?_, fun plan d _ => ?_⟩
    · rw [bare d] at tail
      have admitted := enterOn_admitted (settleStopped_noEntry ne) (by rw [stopped]; exact here) (by rw [stopped]; exact d)
      have calm : quiet n (enterOn n (settleStopped n s.part)) := by
        refine quiet_of_state ?_ (by rw [admitted.1]; exact fun c => by cases c)
        rw [enterOn_bare (by rw [stopped]; exact d)]
        exact entering_noEntry n _
      obtain ⟨record, due⟩ := admittedBySwap_rests admitted (tail.calm calm)
      rw [stopped] at record due
      refine ⟨?_, ?_, ?_, ?_, ?_, fun l => (due l).1⟩ <;> rw [record] <;> rfl
    · rw [held plan d] at tail
      have view := onTaken_view ne here
      have port := onTaken_port ne here
      have clear : noEntry n (onTaken n s.part) := by
        unfold noEntry
        rw [onTaken, takeDeferred, updPort_bu]
        exact entering_noEntry n _
      obtain ⟨outcome, deferred, onTime⟩ := applyInOn_outcome view clear (by rw [port]; rfl) tail
      rw [port] at deferred onTime
      exact ⟨deferred, onTime, outcome⟩
  · have no : admits s.part n = false := by
      rw [Bool.eq_false_iff]
      intro a
      obtain u | ⟨size, named⟩ := (admits_iff n s.part).1 a
      · rw [l] at u; cases u
      · exact c.elim (fun z => size z) (fun z => z named)
    obtain ⟨bare, held⟩ := settleExpired_waiting here no
    refine ⟨fun d => ?_, fun plan d valid => ?_⟩
    · rw [bare d] at tail
      have port := waitingOn_port n s.part
      obtain ⟨bu, fixed, -⟩ := waitingOn_keeps n s.part
      have u : Unnamed n (waitingOn n s.part) :=
        ⟨by rw [port]; exact here, by rw [port], by unfold noEntry; rw [bu]; exact ne, by rw [port]; exact d⟩
      obtain rests | ⟨w, e, a⟩ := tail.waits u
      · rw [waitsOrAdmitted, rests.port, port]
        exact ⟨.inl ⟨here, rfl⟩, rfl⟩
      · have record := a.admitted.1
        obtain ⟨named, size⟩ := a.names (by rw [port]; exact l)
        rw [port] at record size
        rw [Part.pendingWheel_of_fixed fixed] at e
        rw [waitsOrAdmitted, record]
        exact ⟨.inr ⟨w, e, named, size, rfl, rfl⟩, rfl⟩
    · rw [held plan d] at tail
      obtain ⟨outcome, deferred⟩ := applyWaiting_outcome (waitingTaken_view ne here) (waitingTaken_unnamed ne here).1 valid tail
      exact ⟨deferred, outcome⟩

end

end Sys2Proof.Machine
end

