-- ==== Sys2Proof/Proofs/OwnGrant.lean ====
section
/-! A port that holds an entry of the grant queue, to the end of the command: but for SHORT, UNWATCHED and its stamp it stays as it is, or
its entry is granted (R3, R54, R58). -/

namespace Sys2Proof.Machine

section
variable {n : Port} {e : Entry} {p q r : Part}

/-! ### A port that keeps its entries -/

/-- The port has its record but for its stamp, SHORT and UNWATCHED, and its entries. -/
structure Flagged (n : Port) (p q : Part) : Prop where
  record : ∃ k a b, q.port n = { p.port n with stamp := k, flags := { (p.port n).flags with short := a, unwatched := b } }
  entries : q.entriesOf n = p.entriesOf n
  lane : q.lane n = p.lane n
  request : q.request (.port n) = p.request (.port n)
  handed : q.handed n = p.handed n

theorem Flagged.refl (n : Port) (p : Part) : Flagged n p p := ⟨⟨_, _, _, rfl⟩, rfl, rfl, rfl, rfl⟩

theorem Flagged.trans (h : Flagged n p q) (g : Flagged n q r) : Flagged n p r := by
  obtain ⟨k, a, b, e⟩ := h.record
  obtain ⟨k', a', b', e'⟩ := g.record
  rw [e] at e'
  exact ⟨⟨k', a', b', e'⟩, g.entries.trans h.entries, g.lane.trans h.lane, g.request.trans h.request, g.handed.trans h.handed⟩

theorem flagged_of_aside (a : q.aside n = p.aside n) (req : q.request (.port n) = p.request (.port n))
    (hand : q.handed n = p.handed n) : Flagged n p q where
  record := ⟨(q.port n).stamp, (p.port n).flags.short, (p.port n).flags.unwatched, port_of_aside a⟩
  entries := Aside.entries_of a
  lane := Aside.lane_of a
  request := req
  handed := hand

theorem Rests.flagged (h : Rests n p q) : Flagged n p q := flagged_of_aside h.aside h.request h.handed

/-- SHORT and UNWATCHED of the port change. -/
theorem flagged_setFlags {f : Flags → Flags} (k : ∀ x, ∃ a b, f x = { x with short := a, unwatched := b }) (p : Part) :
    Flagged n p (setFlags n f p) := by
  obtain ⟨a, b, e⟩ := k (p.port n).flags
  refine ⟨⟨(p.port n).stamp, a, b, ?_⟩, ?_, setFlags_lane n n f p, setFlags_request n p _ f, ?_⟩
  · rw [setFlags_port_self, e]
  · unfold Part.entriesOf
    rw [setFlags_bu]
  · rw [setFlags, updPort_handed]

/-- Flags of another port change. -/
theorem rests_setFlags {m : Port} (ne : m ≠ n) (f : Flags → Flags) (p : Part) : Rests n p (setFlags m f p) :=
  .of_acts (S := (· ≠ n)) (Acts.setFlags (S := (· ≠ n)) .refl ne f) (fun x => x rfl) (setFlags_aside ne f p)

theorem flagged_sheds (h : ShedsOnly q p) : Flagged n p q := by
  obtain ⟨l, o, e⟩ := h
  rw [e]
  exact flagged_of_aside rfl (mapBu_request _ _ _) rfl

theorem flagged_markCoverage (l : List Entry) (p : Part) : Flagged n p (markCoverage l p) := by
  induction l generalizing p with
  | nil => exact .refl n p
  | cons x rest ih =>
    refine Flagged.trans ?_ (ih _)
    by_cases ne : x.port = n
    · rw [ne]
      exact flagged_setFlags (fun f => ⟨f.short, _, rfl⟩) p
    · exact (rests_setFlags ne _ p).flagged

theorem flagged_preempt (x : Entry) (p : Part) : Flagged n p (preempt x p) := by
  obtain s | s := preempt_cases x p
  · exact flagged_sheds s
  · rw [s]
    by_cases ne : x.port = n
    · rw [ne]
      exact flagged_setFlags (fun f => ⟨true, f.unwatched, rfl⟩) p
    · exact (rests_setFlags ne _ p).flagged

theorem acts_beforeDecision (p : Part) : Acts (fun _ => False) p (beforeDecision p) := by
  unfold beforeDecision
  split
  · exact (Acts.budgetTest .refl).shedUntil _ _ (fun _ => closed_of_mem_shedCandidates)
  · exact .budgetTest .refl

theorem flagged_acts {S : Port → Prop} (h : Acts S p q) (hn : ¬S n) (a : q.aside n = p.aside n) : Flagged n p q :=
  flagged_of_aside a (congrArg Kept.request (h.kept hn)) (h.handed hn)

theorem flagged_beforeDecision (p : Part) : Flagged n p (beforeDecision p) :=
  flagged_acts (acts_beforeDecision p) id ((beforeDecision_keeps p).2.1 n)

theorem flagged_shortfallTest (p : Part) : Flagged n p (shortfallTest p) :=
  flagged_acts (S := fun _ => False) (.shortfallTest .refl) id ((shortfallTest_keeps p).2.1 n)

/-! ### A grant -/

/-- The entry is the port's only one, and can be granted (R50). -/
structure Holder (n : Port) (e : Entry) (p : Part) : Prop where
  entries : p.entriesOf n = [e]
  state : (p.port n).state = .queued ∨ ((p.port n).state = .probe ∧ e.kind = .full)

theorem Holder.port (h : Holder n e p) : e.port = n := by
  have m : e ∈ p.entriesOf n := by rw [h.entries]; exact List.mem_singleton_self e
  simpa [Part.entriesOf] using (List.mem_filter.1 m).2

theorem Flagged.holder (h : Flagged n p q) (g : Holder n e p) : Holder n e q := by
  obtain ⟨k, a, b, s⟩ := h.record
  exact ⟨h.entries.trans g.entries, by rw [s]; exact g.state⟩

/-- The port's entry has been granted. -/
structure GrantedIn (n : Port) (e : Entry) (p q : Part) : Prop where
  port : e.port = n
  granted : grantedAs e (p.port n) q
  tags : (q.lane n).mode ≠ .idle → (q.lane n).tags = (p.lane n).tags
  request : q.request (.port n) = p.request (.port n)
  handed : q.handed n = p.handed n

theorem GrantedIn.state (h : GrantedIn n e p q) : (q.port n).state = (match e.kind with | .probe => .probe | .full => .ramp) := by
  obtain ⟨port, ⟨-, -, -, -, -, -, -, -, -, -, -, -, -, -, probe, full, -⟩, -⟩ := h
  rw [port] at probe full
  cases k : e.kind with
  | probe => exact (probe k).1
  | full => exact (full k).1

theorem GrantedIn.quiet (h : GrantedIn n e p q) : quiet n q := by
  have ne : noEntry n q := by rw [← h.port]; exact h.granted.1
  refine quiet_of_state ne ?_
  rw [h.state]
  cases e.kind <;> decide

theorem grantedAs_rests {x : PortRecord} (h : grantedAs e x q) (c : Machine.quiet e.port q) (g : Rests e.port q r) : grantedAs e x r := by
  have port := g.port
  unfold grantedAs at h ⊢
  dsimp only at h ⊢
  rw [port, g.lane, g.overs, g.ramps]
  exact ⟨(g.quiet c).1, h.2⟩

theorem GrantedIn.rests (h : GrantedIn n e p q) (g : Rests n q r) : GrantedIn n e p r := by
  obtain rfl := h.port
  exact ⟨rfl, grantedAs_rests h.granted h.quiet g, by rw [g.lane]; exact h.tags, g.request.trans h.request, g.handed.trans h.handed⟩

theorem GrantedIn.of_flagged (h : Flagged n p q) (g : GrantedIn n e q r) : GrantedIn n e p r := by
  obtain ⟨k, a, b, s⟩ := h.record
  have granted := g.granted
  rw [s] at granted
  exact ⟨g.port, granted, by rw [← h.lane]; exact g.tags, g.request.trans h.request, g.handed.trans h.handed⟩

/-! ### What a grant does at its port -/

/-- The part as the entry's port changes state. -/
def grantReady (n : Port) (p : Part) : Part := giveStamp n (dropEntry n p)

theorem grantReady_port (h : Holder n e p) : ∃ k, (grantReady n p).port n =
    { p.port n with stamp := k, flags := { (p.port n).flags with short := false, unwatched := false } } := by
  have held : p.bu.queue.any (fun x => x.port == n) = true := by
    have m : e ∈ p.entriesOf n := by rw [h.entries]; exact List.mem_singleton_self e
    rw [List.any_eq_true]
    exact ⟨e, List.mem_filter.1 m⟩
  obtain ⟨⟨k, s⟩, -⟩ := giveStamp_record n n (dropEntry n p)
  refine ⟨k, ?_⟩
  rw [grantReady, s]
  unfold dropEntry
  rw [if_pos held, setFlags_port_self]
  rfl

theorem grantReady_noEntry (n : Port) (p : Part) : noEntry n (grantReady n p) := by
  refine giveStamp_noEntry n ?_
  unfold noEntry
  rw [dropEntry_bu]
  intro x m
  simpa using (List.mem_filter.1 m).2

theorem grantReady_lane (n : Port) (p : Part) : (grantReady n p).lane n = p.lane n := by
  have none : Acts (fun _ => False) (dropEntry n p) (giveStamp n (dropEntry n p)) := Acts.giveStamp .refl n
  exact (congrArg Kept.lane (none.kept (m := n) id)).trans (dropEntry_lane n n p)

theorem grantReady_request (n : Port) (p : Part) (w : ReqWord) : (grantReady n p).request w = p.request w := by
  rw [grantReady, giveStamp_request, dropEntry_request]

theorem grantReady_handed (n : Port) (p : Part) : (grantReady n p).handed n = p.handed n := by
  rw [grantReady, giveStamp_handed, dropEntry_handed]

/-- The port as it enters PROBE or RAMP. -/
def grantMoved (n : Port) (st : PortState) (p : Part) : Part := moveTo n st (grantReady n p)

theorem grantMoved_flags (h : Holder n e p) (st : PortState) :
    ((grantMoved n st p).port n).flags.short = false ∧ ((grantMoved n st p).port n).flags.unwatched = false := by
  obtain ⟨k, s⟩ := grantReady_port h
  have e := beforeFollow_port n st (grantReady n p)
  rw [SameButCue, beforeFollow_port_noEntry st (grantReady_noEntry n p), s] at e
  rw [grantMoved, e]
  refine ⟨?_, rfl⟩
  show (leavingFlags _ _).short = false
  unfold leavingFlags
  dsimp only
  split <;> rfl

/-- What a granted port keeps of its record. -/
structure GrantKeeps (r r' : PortRecord) : Prop where
  ask : r'.flags.ask = r.flags.ask
  left : r'.flags.left = r.flags.left
  plan : r'.plan = r.plan
  identity : r'.identity = r.identity
  cause : r'.cause = r.cause
  restartCount : r'.restartCount = r.restartCount
  onTime : r'.onTime = r.onTime
  trips : r'.trips = r.trips
  checkErrors : r'.checkErrors = r.checkErrors
  overruns : r'.overruns = r.overruns
  deferred : r'.deferred = r.deferred

theorem GrantKeeps.of_entered {st : PortState} {r x r' : PortRecord} {k : Nat} {a b : Bool}
    (s : x = { r with stamp := k, flags := { r.flags with short := a, unwatched := b } }) (e : Entered st x r') :
    GrantKeeps r r' := by
  subst s
  exact ⟨e.ask, e.left, e.plan, e.identity, e.cause, e.restartCount, e.onTime, e.trips, e.checkErrors, e.overruns, e.deferred⟩

theorem grantMoved_keeps (h : Holder n e p) (st : PortState) :
    GrantKeeps (p.port n) ((grantMoved n st p).port n) ∧ ((grantMoved n st p).port n).state = st ∧
    ((grantMoved n st p).port n).timers = stoppedTimers := by
  obtain ⟨k, s⟩ := grantReady_port h
  have e := moveTo_port_self n st (grantReady n p)
  rw [grantMoved]
  generalize (moveTo n st (grantReady n p)).port n = r' at e
  exact ⟨GrantKeeps.of_entered s e, e.state, e.timers⟩

theorem Lane.follow_idle (isOn : Bool) (l : Lane) : l.follow .idle isOn = l.toIdle := by
  unfold Lane.follow
  rw [if_pos rfl]

theorem Lane.enterTimers_idle {l : Lane} (h : l.mode = .idle) (st : PortState) : l.enterTimers st = l := by
  unfold Lane.enterTimers
  rw [if_pos h]

/-- The timers of a lane that stays or goes to IDLE as its port changes state. -/
theorem moveTo_lane_idle {st : PortState} (h : ((moveTo n st p).lane n).mode = .idle) :
    ((moveTo n st p).lane n).keepTimer = none ∧ ((moveTo n st p).lane n).silenceTimer = none := by
  have mode := h
  rw [moveTo_lane_mode, (beforeFollow_port n st p).laneModeOf, ← beforeFollow_lane n st p] at mode
  have follows := laneFollow_lane n (beforeFollow n st p)
  rw [mode, Lane.follow_idle] at follows
  have idle : ((laneFollow n (beforeFollow n st p)).lane n).mode = .idle := by rw [follows, Lane.kick_mode]; rfl
  rw [moveTo_eq, updLane_lane_self, Lane.kick_keepTimer, Lane.kick_silenceTimer, Lane.enterTimers_idle idle, follows,
    Lane.kick_keepTimer, Lane.kick_silenceTimer]
  exact ⟨rfl, rfl⟩

theorem Lane.enterTimers_starting {l : Lane} (h : l.mode ≠ .idle) :
    ((l.enterTimers .probe).keepTimer = some 20 ∧ (l.enterTimers .probe).silenceTimer = none) ∧
    ((l.enterTimers .ramp).keepTimer = none ∧ (l.enterTimers .ramp).silenceTimer = none) := by
  have probe : l.enterTimers .probe = { l with keepTimer := some Config.keepMs, silenceTimer := none } := by
    unfold Lane.enterTimers
    exact if_neg h
  have ramp : l.enterTimers .ramp = { l with keepTimer := none, silenceTimer := none, keep := false } := by
    unfold Lane.enterTimers
    exact if_neg h
  rw [probe, ramp]
  exact ⟨⟨rfl, rfl⟩, rfl, rfl⟩

theorem moveTo_lane_timers {st : PortState} (h : ((moveTo n st p).lane n).mode ≠ .idle) :
    (st = .probe → ((moveTo n st p).lane n).keepTimer = some 20 ∧ ((moveTo n st p).lane n).silenceTimer = none) ∧
    (st = .ramp → ((moveTo n st p).lane n).keepTimer = none ∧ ((moveTo n st p).lane n).silenceTimer = none) := by
  rw [moveTo_eq, updLane_lane_self, Lane.kick_mode, Lane.enterTimers_mode] at h
  rw [moveTo_eq, updLane_lane_self, Lane.kick_keepTimer, Lane.kick_silenceTimer]
  obtain ⟨probe, ramp⟩ := Lane.enterTimers_starting h
  exact ⟨fun s => by rw [s] at probe ⊢; exact probe, fun s => by rw [s] at ramp ⊢; exact ramp⟩

/-- The lane of a port granted in PROBE or RAMP (R95, R107, R108). -/
structure StartingLane (st : PortState) (use : LaneUse) (l : Lane) : Prop where
  silence : l.silenceTimer = none
  expected : use = .expected → (st = .probe → l.mode = .listen ∧ l.keepTimer = some 20) ∧ (st = .ramp → l.mode = .paused ∧ l.keepTimer = none)
  unused : use = .unused → l.mode = .idle ∧ l.keepTimer = none

/-- The lane mode of a port that starts (R95). -/
def startingMode : LaneUse → PortState → LaneMode
  | .unused, _ => .idle
  | .expected, .probe => .listen
  | .expected, _ => .paused

theorem laneModeOf_starting {st : PortState} {r x : PortRecord} (s : st = .probe ∨ st = .ramp) (state : x.state = st)
    (plan : x.plan = r.plan) (m : LaneMode) : laneModeOf x m = startingMode r.plan.laneUse st := by
  unfold laneModeOf PortRecord.laneUseNow
  rw [state, plan]
  obtain rfl | rfl := s <;> cases r.plan.laneUse <;> rfl

theorem grantMoved_mode (h : Holder n e p) {st : PortState} (s : st = .probe ∨ st = .ramp) :
    ((grantMoved n st p).lane n).mode = startingMode (p.port n).plan.laneUse st := by
  obtain ⟨keeps, state, -⟩ := grantMoved_keeps h st
  rw [grantMoved] at keeps state
  rw [grantMoved, moveTo_lane_mode]
  exact laneModeOf_starting s state keeps.plan _

theorem grantMoved_lane (h : Holder n e p) {st : PortState} (s : st = .probe ∨ st = .ramp) :
    StartingLane st (p.port n).plan.laneUse ((grantMoved n st p).lane n) := by
  have mode := grantMoved_mode h s
  cases l : (p.port n).plan.laneUse with
  | unused =>
    rw [l] at mode
    obtain ⟨keep, silence⟩ := moveTo_lane_idle (p := grantReady n p) mode
    exact ⟨silence, fun c => (by cases c), fun _ => ⟨mode, keep⟩⟩
  | expected =>
    rw [l] at mode
    have busy : ((grantMoved n st p).lane n).mode ≠ .idle := by rw [mode]; obtain rfl | rfl := s <;> decide
    obtain ⟨probe, ramp⟩ := moveTo_lane_timers (p := grantReady n p) busy
    refine ⟨?_, fun _ => ⟨fun x => ?_, fun x => ?_⟩, fun c => by cases c⟩
    · exact s.elim (fun x => (probe x).2) (fun x => (ramp x).2)
    · subst x; exact ⟨mode, (probe rfl).1⟩
    · subst x; exact ⟨mode, (ramp rfl).1⟩

theorem grantMoved_tags (n : Port) (st : PortState) (p : Part) (m : ((grantMoved n st p).lane n).mode ≠ .idle) :
    ((grantMoved n st p).lane n).tags = (p.lane n).tags := by
  rw [grantMoved, moveTo_lane_mode] at m
  rw [grantMoved, moveTo_lane_tags m, grantReady_lane]

/-- The part with the grant and the timers of a granted port. -/
def grantSet (n : Port) (st : PortState) (g : Nat) (f : PortTimers → PortTimers) (p : Part) : Part :=
  setTimers n f (setGrant n g (grantMoved n st p))

theorem grantSet_port (h : Holder n e p) (st : PortState) (g : Nat) (f : PortTimers → PortTimers) :
    (grantSet n st g f p).port n = { (grantMoved n st p).port n with grant := g, timers := f stoppedTimers } := by
  rw [grantSet, setTimers_port_self, setGrant_port_self]
  dsimp only
  rw [(grantMoved_keeps h st).2.2]

theorem grantSet_lane (n : Port) (st : PortState) (g : Nat) (f : PortTimers → PortTimers) (p : Part) :
    (grantSet n st g f p).lane n = (grantMoved n st p).lane n := by
  rw [grantSet, setTimers_lane, setGrant_lane]

theorem grantSet_noEntry (n : Port) (st : PortState) (g : Nat) (f : PortTimers → PortTimers) (p : Part) :
    noEntry n (grantSet n st g f p) := setTimers_noEntry f (setGrant_noEntry n g (moveTo_noEntry n st _))

theorem grantSet_request (n : Port) (st : PortState) (g : Nat) (f : PortTimers → PortTimers) (p : Part) (w : ReqWord) :
    (grantSet n st g f p).request w = p.request w := by
  rw [grantSet, setTimers_request, setGrant_request, grantMoved, moveTo_request, grantReady_request]

theorem grantSet_handed (n : Port) (st : PortState) (g : Nat) (f : PortTimers → PortTimers) (p : Part) :
    (grantSet n st g f p).handed n = p.handed n := by
  rw [grantSet, setTimers_handed, setGrant_handed, grantMoved, moveTo_handed, grantReady_handed]

/-- What both kinds of grant leave of the port. -/
theorem grantSet_granted (h : Holder n e p) {st : PortState} (s : st = .probe ∨ st = .ramp) (g : Nat) (f : PortTimers → PortTimers) :
    ∃ r', (grantSet n st g f p).port n = { r' with grant := g, timers := f stoppedTimers } ∧ GrantKeeps (p.port n) r' ∧
      r'.state = st ∧ r'.flags.short = false ∧ r'.flags.unwatched = false ∧
      StartingLane st (p.port n).plan.laneUse ((grantSet n st g f p).lane n) := by
  obtain ⟨keeps, state, -⟩ := grantMoved_keeps h st
  obtain ⟨short, unwatched⟩ := grantMoved_flags h st
  refine ⟨_, grantSet_port h st g f, keeps, state, short, unwatched, ?_⟩
  rw [grantSet_lane]
  exact grantMoved_lane h s

theorem grant_probe (port : e.port = n) (k : e.kind = .probe) (p : Part) :
    grant e p = grantSet n .probe 20 (fun t => { t with hello := some 250 }) p := by
  subst port
  rw [grant, grantPort, k]
  rfl

theorem grant_full (port : e.port = n) (k : e.kind = .full) (p : Part) :
    grant e p = clearCounts n (grantSet n .ramp e.asked (fun t => { t with ramp := some 50 }) p) := by
  subst port
  rw [grant, grantPort, k]
  rfl

theorem clearCounts_port (n m : Port) (p : Part) : (clearCounts n p).port m = p.port m := rfl

theorem clearCounts_lane (n m : Port) (p : Part) : (clearCounts n p).lane m = p.lane m := rfl

theorem clearCounts_counts (n : Port) (p : Part) :
    (clearCounts n p).ms.overCount.at n = 0 ∧ (clearCounts n p).ms.rampCount.at n = 0 :=
  ⟨PerPort.at_put_self .., PerPort.at_put_self ..⟩

/-- The entry of the port is granted (R58). -/
theorem Holder.granted (h : Holder n e p) : GrantedIn n e p (grant e p) := by
  have port := h.port
  cases k : e.kind with
  | probe =>
    obtain ⟨r', record, keeps, state, short, unwatched, lane⟩ :=
      grantSet_granted h (st := .probe) (.inl rfl) 20 (fun t => { t with hello := some 250 })
    rw [grant_probe port k]
    refine ⟨port, ?_, ?_, grantSet_request .., grantSet_handed ..⟩
    · unfold grantedAs
      rw [port]
      dsimp only
      rw [record]
      exact ⟨grantSet_noEntry n _ _ _ _, short, unwatched, keeps.ask, keeps.left, keeps.plan, keeps.identity, keeps.cause, keeps.restartCount,
        keeps.onTime, keeps.trips, keeps.checkErrors, keeps.overruns, keeps.deferred, fun _ => ⟨state, rfl, rfl⟩,
        fun c => absurd (k.symm.trans c) (by decide), lane.silence,
        fun l => ⟨fun _ => (lane.expected l).1 rfl, fun c => absurd (k.symm.trans c) (by decide)⟩, lane.unused⟩
    · rw [grantSet_lane]
      exact grantMoved_tags n .probe p
  | full =>
    obtain ⟨r', record, keeps, state, short, unwatched, lane⟩ :=
      grantSet_granted h (st := .ramp) (.inr rfl) e.asked (fun t => { t with ramp := some 50 })
    rw [grant_full port k]
    have ne := grantSet_noEntry n .ramp e.asked (fun t => { t with ramp := some 50 }) p
    have tags := grantMoved_tags n .ramp p
    have req := grantSet_request n .ramp e.asked (fun t => { t with ramp := some 50 }) p (.port n)
    have hand := grantSet_handed n .ramp e.asked (fun t => { t with ramp := some 50 }) p
    rw [← grantSet_lane n .ramp e.asked (fun t => { t with ramp := some 50 })] at tags
    generalize grantSet n .ramp e.asked (fun t => { t with ramp := some 50 }) p = x at record lane ne tags req hand
    obtain ⟨overs, ramps⟩ := clearCounts_counts n x
    refine ⟨port, ?_, tags, req, hand⟩
    · unfold grantedAs
      rw [port]
      dsimp only
      rw [clearCounts_port, clearCounts_lane, record]
      exact ⟨ne, short, unwatched, keeps.ask, keeps.left, keeps.plan, keeps.identity, keeps.cause,
        keeps.restartCount, keeps.onTime, keeps.trips, keeps.checkErrors, keeps.overruns, keeps.deferred,
        fun c => absurd (k.symm.trans c) (by decide), fun _ => ⟨state, rfl, rfl, overs, ramps⟩,
        lane.silence, fun l => ⟨fun c => absurd (k.symm.trans c) (by decide), fun _ => (lane.expected l).2 rfl⟩, lane.unused⟩

/-! ### The port through a grant decision and the end of the command -/

/-- The port holds its entry on, or has been granted. -/
def HoldsOn (n : Port) (e : Entry) (p q : Part) : Prop := Flagged n p q ∨ GrantedIn n e p q

theorem HoldsOn.next (h : HoldsOn n e p q) (w : Holder n e p) (holds : Holder n e q → HoldsOn n e q r)
    (calm : Machine.quiet n q → Rests n q r) : HoldsOn n e p r := by
  obtain flagged | granted := h
  · obtain on | granted := holds (flagged.holder w)
    · exact .inl (flagged.trans on)
    · exact .inr (.of_flagged flagged granted)
  · exact .inr (granted.rests (calm granted.quiet))

theorem HoldsOn.of_flagged (h : HoldsOn n e q r) (g : Flagged n p q) : HoldsOn n e p r :=
  h.imp g.trans (.of_flagged g)

theorem Rests.holdsOn (h : Rests n p q) : HoldsOn n e p q := .inl h.flagged

theorem rests_grant {x : Entry} (ne : x.port ≠ n) (p : Part) : Rests n p (grant x p) :=
  .of_acts (S := (· ≠ n)) (Acts.grant (S := (· ≠ n)) .refl ne) (fun c => c rfl) (grant_aside ne p)

theorem Rests.walk (l : List Entry) (p : Part) (h : ∀ x ∈ l, x.port ≠ n) : Rests n p (walk l p) := by
  refine .of_acts (S := (· ≠ n)) ?_ (fun c => c rfl) (walk_aside l p n h)
  exact Acts.walk (S := (· ≠ n)) .refl l h

theorem walk_holds (l : List Entry) (p : Part)
    (own : l.filter (fun x => x.port == n) = [e] ∨ l.filter (fun x => x.port == n) = []) (w : Holder n e p) :
    HoldsOn n e p (walk l p) := by
  induction l generalizing p with
  | nil => exact .inl (.refl n p)
  | cons x rest ih =>
    by_cases port : x.port = n
    · have here : (x.port == n) = true := by simpa using port
      rw [List.filter_cons_of_pos (p := fun y : Entry => y.port == n) here] at own
      have first : x = e ∧ rest.filter (fun y => y.port == n) = [] := by simpa using own
      obtain ⟨rfl, none⟩ := first
      unfold walk
      split
      · exact ih p (.inr none) w
      · split
        · exact .inr (w.granted.rests (.walk rest _ (by simpa [List.filter_eq_nil_iff] using none)))
        · split
          · exact .inl (flagged_preempt x p)
          · exact .inl (.refl n p)
    · rw [List.filter_cons_of_neg (p := fun y : Entry => y.port == n) (by simpa using port)] at own
      unfold walk
      split
      · exact ih p own w
      · split
        · have one := rests_grant port p
          exact (ih _ own (one.flagged.holder w)).of_flagged one.flagged
        · split
          · exact .inl (flagged_preempt x p)
          · exact .inl (.refl n p)

theorem grantDecision_holds (w : Holder n e p) : HoldsOn n e p (grantDecision p) := by
  have marked := flagged_markCoverage (n := n) (queueOrder p.bu.queue) p
  have waits := marked.holder w
  unfold grantDecision
  dsimp only
  split
  · exact .inl marked
  · exact (walk_holds _ _ (.inl (queueOrder_own waits.entries)) waits).of_flagged marked

theorem budgetAfter_holds (w : Holder n e p) (b : Bool) : HoldsOn n e p (budgetAfter b p) := by
  have before := flagged_beforeDecision (n := n) p
  have waits := before.holder w
  have last (x : Part) : HoldsOn n e x (shortfallTest x) := .inl (flagged_shortfallTest x)
  have calm (x : Part) (_ : Machine.quiet n x) : Rests n x (shortfallTest x) :=
    .of_acts (S := fun _ => False) (.shortfallTest .refl) id ((shortfallTest_keeps x).2.1 n)
  obtain h | h := budgetAfter_eq b p <;> rw [h]
  · exact (last _).of_flagged before
  · exact ((grantDecision_holds waits).next waits (fun _ => last _) (calm _)).of_flagged before

/-- A port that holds an entry is not tested again at a swap. -/
theorem rests_retests (w : Holder n e p) (l : List Port) : Flagged n p (l.foldl (fun p m => retest m p) p) := by
  induction l generalizing p with
  | nil => exact .refl n p
  | cons m rest ih =>
    have one : Flagged n p (retest m p) := by
      by_cases ne : m = n
      · subst ne
        unfold retest
        rw [if_neg ?_]
        · exact .refl m p
        · rintro ⟨settle, -⟩
          obtain s | ⟨s, -⟩ := w.state <;> rw [s] at settle <;> cases settle
      · have rests : Rests n p (retest m p) :=
          .of_acts (S := (· ≠ n)) (Acts.retest .refl ne) (fun x => x rfl) (retest_aside ne p)
        exact rests.flagged
    exact one.trans (ih (one.holder w))

theorem swapWheel_holds (w : Holder n e p) : HoldsOn n e p (swapWheel p) := by
  obtain ⟨-, h⟩ | ⟨x, -, -, h⟩ | ⟨x, -, -, h⟩ := swapWheel_cases p <;> rw [h]
  · exact .inl (.refl n p)
  · have entered := (Rests.wheelIn n x p).flagged
    have tested := entered.trans (rests_retests (entered.holder w) allPorts)
    have waits := tested.holder w
    exact ((budgetAfter_holds waits true).next waits (fun _ => (Rests.complete_device n _ _).holdsOn)
      (fun _ => .complete_device n _ _)).of_flagged tested
  · refine Rests.holdsOn (Rests.trans (q := p.mapMo (fun o => { o with pendingWheel := none }))
      ⟨rfl, rfl, rfl, rfl, rfl, id, fun _ => id, id⟩ ?_)
    exact (Rests.of_aeOnly (AeOnly.reportDevice _ _) (reportDevice_request _ _ _)).trans (.complete_device n _ _)

theorem moDecision_holds (w : Holder n e p) : HoldsOn n e p (moDecision p) := by
  obtain h | ⟨i, free, -, h⟩ := moDecision_cases p <;> rw [h]
  · exact .inl (.refl n p)
  · have granted := Rests.grantAt n i p free
    obtain g | g := swapAfter_cases i p.mo.pointer (grantAt i p) <;> rw [g]
    · exact granted.holdsOn.next w swapWheel_holds Rests.swapWheel
    · exact granted.holdsOn

theorem idleSwap_holds (w : Holder n e p) : HoldsOn n e p (idleSwap p) := by
  obtain ⟨-, h⟩ | ⟨-, h⟩ := idleSwap_cases p <;> rw [h]
  · exact (swapWheel_holds w).next w moDecision_holds Rests.moDecision
  · exact .inl (.refl n p)

/-- The end of the command leaves the entry of a port in its place, or the entry is granted. -/
theorem settle_holds (w : Holder n e p) : HoldsOn n e p (settle p) := by
  have decided := (Rests.adoptSweep n p).holdsOn.next w moDecision_holds Rests.moDecision
  exact decided.next w idleSwap_holds Rests.idleSwap

theorem settle_event_holds {f : Part → Part} (w : Holder n e (f p)) : HoldsOn n e (f p) (settle (event f p)) :=
  (budgetAfter_holds w _).next w settle_holds Rests.settle

/-! ### A port that goes on -/

/-- What follows the port's part of an event may grant the port's entry. -/
structure FullTail (n : Port) (p t : Part) : Prop extends Tail n p t where
  holds : ∀ e, Holder n e p → HoldsOn n e p t

theorem fullTail_event (n : Port) (f : Part → Part) (p : Part) : FullTail n (f p) (settle (event f p)) where
  calm := (tail_event n f p).calm
  waits := (tail_event n f p).waits
  holds _ w := settle_event_holds w

theorem fullTail_settle (n : Port) (p : Part) : FullTail n p (settle p) where
  calm := .settle
  waits := settle_waits
  holds _ w := settle_holds w

/-- A port under the queue's law and the law of what waits is quiet, waits with NO_PHASE, or holds an entry. -/
theorem quiet_or_waiting (ql : queueLaw p) (wl : waitLaw p) (n : Port) :
    quiet n p ∨ Unnamed n p ∨ ∃ e, Holder n e p := by
  obtain ⟨nodup, states, -⟩ := ql
  obtain ⟨deferred, -⟩ := wl n
  obtain none | ⟨e, one⟩ := filter_port_of_nodup nodup n
  · have ne : noEntry n p := (noEntry_iff n p).2 none
    by_cases s : (p.port n).state = .settle ∧ (p.port n).flags.noPhase = true
    · obtain ⟨settle, noPhase⟩ := s
      refine .inr (.inl ⟨settle, noPhase, ne, ?_⟩)
      by_contra c
      obtain r | ⟨-, r⟩ := deferred c
      · exact absurd (settle.symm.trans r) (by decide)
      · exact absurd (noPhase.symm.trans r) (by decide)
    · refine .inl ⟨ne, fun settle => ?_⟩
      cases k : (p.port n).flags.noPhase with
      | false => rfl
      | true => exact absurd ⟨settle, k⟩ s
  · have mem : e ∈ p.entriesOf n := by
      rw [Part.entriesOf, one]
      exact List.mem_singleton_self e
    obtain ⟨queued, port⟩ := mem_entriesOf.1 mem
    exact .inr (.inr ⟨e, one, by rw [← port]; exact states e queued⟩)

theorem grantedAs_stamp {x : PortRecord} {k : Nat} (h : grantedAs e { x with stamp := k } q) : grantedAs e x q := h

theorem admittedBySwap_stamp {x : PortRecord} {k : Nat} (h : admittedBySwap n { x with stamp := k } q) : admittedBySwap n x q := h

/-- From `x` to `t` the port goes on, or is granted or admitted: what stays of it besides. -/
structure Onward (n : Port) (r : PortRecord) (p x t : Part) : Prop where
  goesOn : goesOn n r p t
  request : t.request (.port n) = x.request (.port n)
  handed : t.handed n = x.handed n
  tags : (t.lane n).mode ≠ .idle → (t.lane n).tags = (x.lane n).tags
  lane : (t.port n).state = r.state → t.lane n = x.lane n

/-- What an event leaves the port: the record but for the stamp as `r`, and `r` as it was in what makes it wait. -/
structure Leaves (n : Port) (r : PortRecord) (p x : Part) : Prop where
  record : sameButStamp r (x.port n)
  state : r.state = (p.port n).state
  noPhase : r.flags.noPhase = (p.port n).flags.noPhase
  deferred : r.deferred = (p.port n).deferred
  entries : x.entriesOf n = p.entriesOf n
  pending : x.mo.pendingWheel ≠ none → p.mo.pendingWheel ≠ none

section
variable {x t : Part} {k : PortRecord}

theorem Leaves.noEntry (h : Leaves n k p x) (g : Machine.noEntry n p) : Machine.noEntry n x := by
  rw [noEntry_iff] at g ⊢
  exact h.entries.trans g

theorem Leaves.same (h : Leaves n k p x) : (x.port n).state = (p.port n).state ∧
    (x.port n).flags.noPhase = (p.port n).flags.noPhase ∧ (x.port n).deferred = (p.port n).deferred := by
  rw [h.record]
  exact ⟨h.state, h.noPhase, h.deferred⟩

theorem Leaves.quiet (h : Leaves n k p x) (g : Machine.quiet n p) : Machine.quiet n x := by
  obtain ⟨state, noPhase, -⟩ := h.same
  refine ⟨h.noEntry g.1, ?_⟩
  rw [state, noPhase]
  exact g.2

theorem Leaves.unnamed (h : Leaves n k p x) (g : Unnamed n p) : Unnamed n x := by
  obtain ⟨state, noPhase, deferred⟩ := h.same
  exact ⟨state.trans g.state, noPhase.trans g.noPhase, h.noEntry g.noEntry, deferred.trans g.deferred⟩

theorem Leaves.holder (h : Leaves n k p x) (g : Holder n e p) : Holder n e x := by
  obtain ⟨state, -, -⟩ := h.same
  exact ⟨h.entries.trans g.entries, by rw [state]; exact g.state⟩

theorem Rests.onward (h : Rests n x t) (l : Leaves n k p x) : Onward n k p x t where
  goesOn := by
    refine goesOn_of_same ?_
    rw [sameButStamp, h.port, l.record]
  request := h.request
  handed := h.handed
  tags _ := by rw [h.lane]
  lane _ := h.lane

theorem Flagged.onward (h : Flagged n x t) (l : Leaves n k p x) (held : ¬Machine.noEntry n p) : Onward n k p x t where
  goesOn := by
    obtain ⟨c, a, b, record⟩ := h.record
    refine .inl ⟨?_, fun ne => absurd ne held⟩
    rw [sameButStamp, record, l.record]
  request := h.request
  handed := h.handed
  tags _ := by rw [h.lane]
  lane _ := h.lane

theorem GrantedIn.onward (h : GrantedIn n e x t) (l : Leaves n k p x) (w : Holder n e p) : Onward n k p x t where
  goesOn := by
    have mem : e ∈ p.entriesOf n := by rw [w.entries]; exact List.mem_singleton_self e
    have granted := h.granted
    rw [l.record] at granted
    exact .inr (.inl ⟨e, (mem_entriesOf.1 mem).1, h.port, grantedAs_stamp granted⟩)
  request := h.request
  handed := h.handed
  tags := h.tags
  lane s := by
    rw [h.state, l.state] at s
    obtain c | ⟨c, kind⟩ := w.state
    · rw [c] at s
      generalize e.kind = kind at s
      cases kind <;> cases s
    · rw [c, kind] at s
      cases s

theorem AdmittedUnder.onward {w : List Phase} (h : AdmittedUnder n w x t) (l : Leaves n k p x) (u : Unnamed n p)
    (pending : x.mo.pendingWheel = some w) : Onward n k p x t where
  goesOn := by
    have admitted := h.admitted
    rw [l.record] at admitted
    refine .inr (.inr ⟨l.state.trans u.state, l.noPhase.trans u.noPhase, l.pending (by rw [pending]; simp), admittedBySwap_stamp admitted⟩)
  request := h.request
  handed := h.handed
  tags := h.tags
  lane s := by
    rw [h.state, l.state, u.state] at s
    cases s

/-- A port that the event leaves as `k` goes on to the end of the command. -/
theorem FullTail.onward (h : FullTail n x t) (ql : queueLaw p) (wl : waitLaw p) (l : Leaves n k p x) : Onward n k p x t := by
  obtain calm | unnamed | ⟨e, holds⟩ := quiet_or_waiting ql wl n
  · exact (h.calm (l.quiet calm)).onward l
  · obtain rests | ⟨w, pending, admitted⟩ := h.waits (l.unnamed unnamed)
    · exact rests.onward l
    · exact admitted.onward l unnamed pending
  · obtain flagged | granted := h.holds e (l.holder holds)
    · refine flagged.onward l ?_
      rw [noEntry_iff]
      intro c
      have own := holds.entries
      rw [show p.entriesOf n = [] from c] at own
      cases own
    · exact granted.onward l holds

/-- An event that leaves the port aside leaves it as it was. -/
theorem leaves_of_aside (a : x.aside n = p.aside n) (pending : x.mo.pendingWheel ≠ none → p.mo.pendingWheel ≠ none) :
    Leaves n (p.port n) p x where
  record := port_of_aside a
  state := rfl
  noPhase := rfl
  deferred := rfl
  entries := Aside.entries_of a
  pending := pending

end

end

end Sys2Proof.Machine
end

