-- ==== Sys2Proof/Proofs/LaneFrames.lean ====
section
/-! A LEAVE, a KEEP and a bad frame at a lane outside IDLE: O41. -/

namespace Sys2Proof.Machine

section
variable {n : Port} {p q x t : Part} {plan : Plan} {e : Entry}

/-! ### A plan applied to a port in OFF -/

/-- A port sent to the queue is quiet or holds an entry. -/
theorem toQueued_calm (n : Port) (p : Part) : quiet n (toQueued n p) ∨ ∃ e, Holder n e (toQueued n p) := by
  by_cases run : p.mrc.phase = .running
  · cases sb : p.mrc.standby with
    | true =>
      rw [(toQueued_elsewhere n p).2 run sb]
      exact .inl (quiet_moveTo (by decide))
    | false =>
      obtain ⟨⟨queued, own⟩, -⟩ := toQueued_waits n p run sb
      exact .inr ⟨_, own, .inl queued⟩
  · rw [(toQueued_elsewhere n p).1 run]
    exact .inl (quiet_moveTo (by decide))

theorem complete_quiet (w : ReqWord) (a : Result) (h : quiet n p) : quiet n (complete w a p) :=
  ⟨complete_noEntry w a h.1, by rw [complete_port]; exact h.2⟩

theorem complete_holder (w : ReqWord) (a : Result) (h : Holder n e p) : Holder n e (complete w a p) := by
  obtain ⟨own, state⟩ := h
  refine ⟨?_, by rw [complete_port]; exact state⟩
  unfold Part.entriesOf
  rw [complete_bu]
  exact own

theorem HoldsOn.stored (h : HoldsOn n e p t) (k : stored n plan p) : stored n plan t := by
  obtain flagged | granted := h
  · obtain ⟨c, a, b, record⟩ := flagged.record
    exact stored_congr k flagged.request (by rw [record]) flagged.handed
  · obtain ⟨port, ⟨-, -, -, -, -, kept, -⟩, -, req, hand⟩ := granted
    rw [port] at kept
    exact stored_congr k req kept hand

/-- A stored plan stays stored to the end of the command. -/
theorem FullTail.stored (h : FullTail n p t) (c : quiet n p ∨ ∃ e, Holder n e p) (k : stored n plan p) : stored n plan t := by
  obtain calm | ⟨e, holds⟩ := c
  · exact (h.calm calm).stored k
  · exact (h.holds e holds).stored k

theorem complete_stored_of (pl : (p.port n).plan = plan) (hand : p.handed n = plan.handed) :
    stored n plan (complete (.port n) .ok p) := by
  refine ⟨complete_answers n .ok p, by rw [complete_port]; exact pl, ?_⟩
  rw [handedOver_iff, (Same.complete _ _ _).handed, hand]
  rfl

/-- The port queued under a stored plan, LEFT cleared. -/
def queuedUnder (n : Port) (plan : Plan) (p : Part) : Part :=
  toQueued n (setFlags n (fun f => { f with left := false }) (storePlan n plan p))

theorem queuedUnder_stored (n : Port) (plan : Plan) (p : Part) : stored n plan (complete (.port n) .ok (queuedUnder n plan p)) := by
  refine complete_stored_of ?_ ?_
  · rw [queuedUnder, (sent_toQueued n _).plan, setFlags_port_self, storePlan_plan]
  · rw [queuedUnder, (sent_toQueued n _).handed, setFlags, updPort_handed, storePlan_handed]

/-- A plan applied to a port in OFF (R35), to the end of the command. -/
structure AppliedOff (n : Port) (plan : Plan) (y t : Part) : Prop where
  stored : stored n plan t
  deferred : (t.port n).deferred = (y.port n).deferred
  off : plan.mode = .off → (t.port n).state = .off ∧ (t.port n).flags.left = (y.port n).flags.left
  left : plan.mode ≠ .off → (t.port n).flags.left = false
  parked : plan.mode ≠ .off → y.mrc.phase = .running → y.mrc.standby = true → (t.port n).state = .parked
  queued : plan.mode ≠ .off → y.mrc.phase = .running → y.mrc.standby = false → queuedOrGranted n t

theorem applied_off {f : Part → Part} {y : Part} (eq : f p = applyByState n plan y) (s : (y.port n).state = .off)
    (ne : noEntry n y) : AppliedOff n plan y (settle (event f p)) := by
  have tail := fullTail_event n f p
  obtain ⟨b, c, record⟩ := storePlan_record n plan y
  by_cases m : plan.mode = .off
  · have done : f p = complete (.port n) .ok (storePlan n plan y) := by
      rw [eq, applyByState, s, m]
      rfl
    have calm : quiet n (f p) := by
      rw [done]
      refine complete_quiet _ _ (quiet_of_state (storePlan_noEntry plan ne) ?_)
      rw [record, s]
      decide
    have rests := tail.calm calm
    have port : (f p).port n = (storePlan n plan y).port n := by rw [done, complete_port]
    have kept := rests.port_open (by rw [port, record, s]; rfl)
    rw [port, record] at kept
    refine ⟨rests.stored (by rw [done]; exact complete_stored n plan y), by rw [kept], fun _ => by rw [kept]; exact ⟨s, rfl⟩, ?_, ?_, ?_⟩ <;>
      exact fun c => absurd m c
  · have done : f p = complete (.port n) .ok (queuedUnder n plan y) := by
      rw [eq, applyByState, s]
      dsimp only
      rw [if_neg m, queuedUnder]
    have sent := sentOn_event (k := complete (.port n) .ok) done (fun _ => complete_ports _ _ _) (fun _ => by rw [complete_bu])
    rw [setFlags_mrc, storePlan_mrc, setFlags_port_self, record] at sent
    have held := sent.held
    refine ⟨tail.stored ?_ (by rw [done]; exact queuedUnder_stored n plan y), held.deferred, fun c => absurd c m, fun _ => held.left,
      fun _ run sb => (sent.parked run sb).1, fun _ run sb => sent.queued run sb⟩
    rw [done]
    obtain calm | ⟨e, holds⟩ := toQueued_calm n (setFlags n (fun f => { f with left := false }) (storePlan n plan y))
    · exact .inl (complete_quiet _ _ calm)
    · exact .inr ⟨e, complete_holder _ _ holds⟩

/-! ### A good frame heard -/

/-- The part as the lane has heard a good frame. -/
def heard (n : Port) (p : Part) : Part := updLane n Lane.heard p

theorem heard_port (n m : Port) (p : Part) : (heard n p).port m = p.port m := rfl

theorem heard_tags (n : Port) (p : Part) : ((heard n p).lane n).tags = (p.lane n).tags := by
  rw [heard, updLane_lane_self, Lane.kick_tags]
  rfl

theorem heard_outstanding (n : Port) (p : Part) : ((heard n p).lane n).outstanding = (p.lane n).outstanding := by
  unfold Lane.outstanding
  rw [heard_tags]

theorem heard_silence (n : Port) (p : Part) :
    ((heard n p).lane n).silenceTimer = (p.lane n).silenceTimer.map (fun _ => 100) := by
  rw [heard, updLane_lane_self, Lane.kick_silenceTimer]
  rfl

theorem takeFrame_good {f : RxFrame} (h : (p.lane n).mode ≠ .idle) (g : f.good = true) : takeFrame n f p = takeGood n f (heard n p) := by
  rw [takeFrame, if_neg h, if_pos g, heard]

theorem heard_leaves (n : Port) (p : Part) : Leaves n (p.port n) p (heard n p) :=
  ⟨sameButStamp_self _, rfl, rfl, rfl, rfl, id⟩

/-! ### The commands -/

theorem keepFrame_goesOn (n : Port) (s : State) (h : (s.part.lane n).mode ≠ .idle) (ql : queueLaw s.part) (wl : waitLaw s.part) :
    Completes (.keepFrame n) s (fun t =>
      goesOn n (s.part.port n) s.part t.part ∧
      ((t.part.lane n).mode ≠ .idle → (t.part.lane n).tags = (s.part.lane n).tags) ∧
      ((t.part.port n).state = (s.part.port n).state → (t.part.lane n).silenceTimer =
        (s.part.lane n).silenceTimer.map (fun _ => 100))) := by
  refine completes_onPart (can := laneHears n) (f := takeFrame n .keep) rfl (by simpa [laneHears] using h) ?_
  dsimp only
  have taken : takeFrame n .keep s.part = heard n s.part := takeFrame_good h rfl
  have on := (fullTail_settle n (takeFrame n .keep s.part)).onward ql wl (by rw [taken]; exact heard_leaves n s.part)
  refine ⟨on.goesOn, fun m => ?_, fun same => ?_⟩
  · rw [on.tags m, taken, heard_tags]
  · rw [on.lane same, taken, heard_silence]

/-- The part with a check error counted. -/
theorem checkError_leaves (n : Port) (p : Part) :
    Leaves n { p.port n with checkErrors := min 255 ((p.port n).checkErrors + 1) } p (checkError n p) where
  record := by
    rw [checkError, updPort_port_self]
    rfl
  state := rfl
  noPhase := rfl
  deferred := rfl
  entries := by
    unfold Part.entriesOf
    rw [checkError, updPort_bu]
  pending := by
    rw [checkError, updPort_mo]
    exact id

theorem checkError_lane (n : Port) (p : Part) : (checkError n p).lane n = p.lane n := updPort_lane _ _ _ _

theorem badFrame_goesOn (n : Port) (s : State) (h : (s.part.lane n).mode ≠ .idle) (ql : queueLaw s.part) (wl : waitLaw s.part)
    (bytes : List Byte) (bad : (Instr.badFrame n bytes).wf = true) :
    Completes (.badFrame n bytes) s (fun t =>
      goesOn n { s.part.port n with checkErrors := min 255 ((s.part.port n).checkErrors + 1) } s.part t.part ∧
      ((t.part.port n).state = (s.part.port n).state → t.part.lane n = s.part.lane n)) := by
  refine completes_onPart (can := laneHears n) (f := event (takeBytes n bytes)) rfl (by simpa [laneHears] using h) ?_
  dsimp only
  have judged : receive bytes = .bad := by simpa [Instr.wf] using bad
  have taken : takeBytes n bytes s.part = checkError n s.part := by
    rw [takeBytes, if_neg h, judged]
  have on := (fullTail_event n (takeBytes n bytes) s.part).onward ql wl (by rw [taken]; exact checkError_leaves n s.part)
  refine ⟨on.goesOn, fun same => ?_⟩
  rw [on.lane same, taken, checkError_lane]

/-! ### A LEAVE -/

/-- An admitted port drains at a LEAVE (R21, R25). -/
theorem leave_drains {f : Part → Part} (eq : f p = startDrain n .asked x) :
    drainsWithin (graceMs (x.port n).plan.grace) .asked .off (x.lane n).outstanding (x.port n) ((settle (event f p)).port n)
      (((settle (event f p)).port n).state = .off ∧ ((settle (event f p)).port n).grant = 0 ∧
        ((settle (event f p)).port n).drain = none ∧ ((settle (event f p)).port n).flags.left = true) := by
  obtain ⟨goes, ends, ne, settled, -⟩ := startDrain_to_off (n := n) (p := x) .asked rfl
  have grace := drainEnd_grace .asked (x.port n).plan (by decide)
  have rests := Rests.event (n := n) (f := f) (p := p) (by rw [eq]; exact quiet_of_state ne settled)
  have port := rests.port
  rw [eq] at port
  rw [grace] at goes ends
  rw [port]
  generalize (startDrain n .asked x).port n = r at goes ends
  refine Drains.within (d := newDrain .asked (x.port n).plan) (fun c => ?_) (fun c => ?_) ⟨rfl, rfl, rfl, grace⟩
  · obtain ⟨state, grant, drain, grace, rehello, kept, onTime⟩ := goes c
    exact ⟨state, grant, drain, grace, rehello, kept, onTime⟩
  · obtain ⟨ended, left⟩ := ends c
    exact ⟨ended.state, ended.grant, ended.drain, left rfl⟩

/-- The starting port stopped in OFF with LEFT set (R25). -/
def stopped (n : Port) (p : Part) : Part := setFlags n (fun f => { f with left := true }) (moveTo n .off p)

theorem stopped_noEntry (n : Port) (p : Part) : noEntry n (stopped n p) := by
  unfold stopped noEntry
  rw [setFlags_bu]
  exact moveTo_noEntry n .off p

/-- The record of the stopped port. -/
structure StoppedOff (r r' : PortRecord) : Prop where
  state : r'.state = .off
  grant : r'.grant = 0
  left : r'.flags.left = true
  noPhase : r'.flags.noPhase = false
  deferred : r'.deferred = r.deferred

theorem stopped_record (n : Port) (p : Part) : StoppedOff (p.port n) ((stopped n p).port n) := by
  have entered := moveTo_port_self n .off p
  rw [stopped, setFlags_port_self]
  generalize (moveTo n .off p).port n = r at entered
  exact ⟨entered.state, entered.grant, rfl, entered.noPhase, entered.deferred⟩

theorem leaveTaken_cases (n : Port) (p : Part) :
    ((p.port n).state ∈ [PortState.on, .orphan] → leaveTaken n p = startDrain n .asked p) ∧
    ((p.port n).state ∈ [PortState.probe, .ramp, .settle] → leaveTaken n p = applyDeferred n (stopped n p)) ∧
    ((p.port n).state = .drain → leaveTaken n p = p) := by
  unfold leaveTaken
  refine ⟨fun h => ?_, fun h => ?_, fun h => by rw [h]⟩
  · obtain h | h : (p.port n).state = .on ∨ (p.port n).state = .orphan := by simpa using h
    all_goals rw [h]
  · obtain h | h | h : (p.port n).state = .probe ∨ (p.port n).state = .ramp ∨ (p.port n).state = .settle := by simpa using h
    all_goals rw [h]; rfl

theorem leave_stops {f : Part → Part} (eq : f p = applyDeferred n (stopped n x)) (d : (x.port n).deferred = none) :
    ((settle (event f p)).port n).state = .off ∧ ((settle (event f p)).port n).grant = 0 ∧
    ((settle (event f p)).port n).flags.left = true ∧ ((settle (event f p)).port n).flags.noPhase = false ∧
    noEntry n (settle (event f p)) := by
  have record := stopped_record n x
  have bare : f p = stopped n x := by rw [eq, applyDeferred, record.deferred, d]
  have rests := Rests.event (n := n) (f := f) (p := p) (by
    rw [bare]
    exact quiet_of_state (stopped_noEntry n x) (by rw [record.state]; decide))
  have port := rests.port_open (by rw [bare, record.state]; rfl)
  rw [bare] at port
  rw [port]
  refine ⟨record.state, record.grant, record.left, record.noPhase, (rests.quiet ?_).1⟩
  rw [bare]
  exact quiet_of_state (stopped_noEntry n x) (by rw [record.state]; decide)

theorem takeDeferred_noEntry (h : noEntry n p) : noEntry n (takeDeferred n p) := by
  unfold takeDeferred
  exact updPort_noEntry _ _ h

theorem leave_applies {f : Part → Part} (eq : f p = applyDeferred n (stopped n x)) (d : (x.port n).deferred = some plan)
    (run : x.mrc.phase = .running) :
    deferredQueued n plan x.mrc.standby (settle (event f p)) ∧
    ((settle (event f p)).port n).flags.left = decide (plan.mode = .off) := by
  have record := stopped_record n x
  have taken : (takeDeferred n (stopped n x)).port n = { (stopped n x).port n with deferred := none } := takeDeferred_port n _
  have applied : f p = applyByState n plan (takeDeferred n (stopped n x)) := by
    rw [eq, applyDeferred, record.deferred, d]
  have state : ((takeDeferred n (stopped n x)).port n).state = .off := by
    rw [taken]
    dsimp only
    exact record.state
  have done := applied_off applied state (takeDeferred_noEntry (stopped_noEntry n x))
  have mrc : (takeDeferred n (stopped n x)).mrc = x.mrc := by
    rw [takeDeferred, updPort_mrc, stopped, setFlags_mrc, moveTo_mrc]
  have deferred := done.deferred
  have left := record.left
  rw [taken] at deferred
  dsimp only at deferred
  refine ⟨⟨done.stored, deferred, fun m => (done.off m).1, fun m sb => done.parked m (by rw [mrc]; exact run) (by rw [mrc]; exact sb),
    fun m sb => done.queued m (by rw [mrc]; exact run) (by rw [mrc]; exact sb)⟩, ?_⟩
  by_cases m : plan.mode = .off
  · rw [(done.off m).2, taken, decide_eq_true m]
    dsimp only
    exact left
  · rw [done.left m, decide_eq_false m]

/-- Settles O41: a LEAVE is followed by the state of its port; after a KEEP and a bad frame the port goes on. -/
theorem leaveKeepAndBadFrames : Obligations.LeaveKeepAndBadFrames := by
  intro n s hears
  refine ⟨?_, fun ql wl => keepFrame_goesOn n s hears ql wl, fun ql wl bytes bad => badFrame_goesOn n s hears ql wl bytes bad⟩
  refine completes_onPart (can := laneHears n) (f := event (takeFrame n .leave)) rfl (by simpa [laneHears] using hears) ?_
  dsimp only
  have taken : takeFrame n .leave s.part = leaveTaken n (heard n s.part) := takeFrame_good hears rfl
  obtain ⟨admitted, starting, draining⟩ := leaveTaken_cases n (heard n s.part)
  refine ⟨fun here => ?_, fun here d => ?_, fun plan d here run => ?_, fun here ne => ?_⟩
  · have goes := leave_drains (taken.trans (admitted here))
    rw [heard_outstanding, heard_port] at goes
    exact goes
  · exact leave_stops (taken.trans (starting here)) (by rw [heard_port]; exact d)
  · have mrc : (heard n s.part).mrc = s.part.mrc := updLane_mrc _ _ _
    have done := leave_applies (plan := plan) (taken.trans (starting here)) (by rw [heard_port]; exact d) (by rw [mrc]; exact run)
    rw [mrc] at done
    exact done
  · have same := taken.trans (draining here)
    have rests := Rests.event (n := n) (f := takeFrame n .leave) (p := s.part)
      (by rw [same]; exact quiet_of_state ne (by rw [heard_port, here]; decide))
    exact rests.same (by rw [same, heard_port])

end

end Sys2Proof.Machine
end

