-- ==== Sys2Proof/Proofs/Announced.lean ====
section
/-! What the operations of the ports and of the budget unit report to the area engine (R6, R45, R166, R168, R172): a change of a status
record, of the device status or of a completion has its write-back pending, with its change mark where it sets one. -/

namespace Sys2Proof.Machine

section
variable {n m : Port} {p q r x : Part} {t : Target}

/-! ### What a report does -/

theorem queueWriteBack_ae (t : Target) (p : Part) :
    (queueWriteBack t p).ae = { p.ae with writeBacks := (queueWriteBack t p).ae.writeBacks } := by
  unfold queueWriteBack
  split <;> rfl

theorem queueWriteBack_quiet (t : Target) (p : Part) : (queueWriteBack t p).ae.quiet = p.ae.quiet := by rw [queueWriteBack_ae]

theorem queueWriteBack_markOf (t v : Target) (p : Part) : markOf (queueWriteBack t p).ae v = markOf p.ae v := by
  rw [queueWriteBack_ae]
  cases v <;> rfl

/-- The part with the change mark of a port set where the report has one. -/
def markedPort (n : Port) (b : Bool) (p : Part) : Part :=
  if b then p.mapAe (fun a => { a with portMarks := a.portMarks.put n true }) else p

theorem reportPort_eq (n : Port) (b : Bool) (p : Part) : reportPort n b p = queueWriteBack (.status n) (markedPort n b p) := rfl

theorem markedPort_markOf {v : Target} (b : Bool) (h : markOf p.ae v = true) : markOf (markedPort n b p).ae v = true := by
  cases b with
  | false => exact h
  | true =>
    cases v with
    | status m =>
      by_cases e : n = m
      · subst e; exact PerPort.at_put_self _ _ _
      · exact (PerPort.at_put_ne e).trans h
    | _ => exact h

theorem markedPort_ae (n : Port) (b : Bool) (p : Part) :
    (markedPort n b p).ae = { p.ae with portMarks := (markedPort n b p).ae.portMarks } := by
  cases b <;> rfl

/-- The part with the mark of the device status set where the report has one. -/
def markedDevice (b : Bool) (p : Part) : Part := if b then p.mapAe (fun a => { a with deviceMark := true }) else p

theorem reportDevice_eq (b : Bool) (p : Part) : reportDevice b p = queueWriteBack .device (markedDevice b p) := rfl

theorem markedDevice_ae (b : Bool) (p : Part) :
    (markedDevice b p).ae = { p.ae with deviceMark := (markedDevice b p).ae.deviceMark } := by
  cases b <;> rfl

theorem markedDevice_markOf {v : Target} (b : Bool) (h : markOf p.ae v = true) : markOf (markedDevice b p).ae v = true := by
  cases b with
  | false => exact h
  | true =>
    cases v with
    | device => rfl
    | _ => exact h

/-- The area engine keeps its pending write-backs and its marks, and gains the write-back of `t`. -/
structure Gains (t : Target) (p q : Part) : Prop where
  quiet : q.ae.quiet = p.ae.quiet
  writes : ∀ v ∈ p.ae.writeBacks, v ∈ q.ae.writeBacks
  marks : ∀ v, markOf p.ae v = true → markOf q.ae v = true
  gained : p.ae.quiet = false → t ∈ q.ae.writeBacks

theorem gains_queueWriteBack (t : Target) (p : Part) : Gains t p (queueWriteBack t p) where
  quiet := queueWriteBack_quiet t p
  writes _ := mem_queueWriteBack_of_mem t
  marks v h := by rw [queueWriteBack_markOf]; exact h
  gained := mem_queueWriteBack t p

theorem gains_reportPort (n : Port) (b : Bool) (p : Part) : Gains (.status n) p (reportPort n b p) where
  quiet := by rw [reportPort_eq, queueWriteBack_quiet, markedPort_ae]
  writes v h := by
    rw [reportPort_eq]
    refine mem_queueWriteBack_of_mem _ ?_
    rw [markedPort_ae]
    exact h
  marks v h := by rw [reportPort_eq, queueWriteBack_markOf]; exact markedPort_markOf b h
  gained h := by
    rw [reportPort_eq]
    refine mem_queueWriteBack _ _ ?_
    rw [markedPort_ae]
    exact h

theorem reportPort_marks (n : Port) (p : Part) : markOf (reportPort n true p).ae (.status n) = true := by
  rw [reportPort_eq, queueWriteBack_markOf]
  exact PerPort.at_put_self _ _ _

theorem gains_reportDevice (b : Bool) (p : Part) : Gains .device p (reportDevice b p) where
  quiet := by rw [reportDevice_eq, queueWriteBack_quiet, markedDevice_ae]
  writes v h := by
    rw [reportDevice_eq]
    refine mem_queueWriteBack_of_mem _ ?_
    rw [markedDevice_ae]
    exact h
  marks v h := by rw [reportDevice_eq, queueWriteBack_markOf]; exact markedDevice_markOf b h
  gained h := by
    rw [reportDevice_eq]
    refine mem_queueWriteBack _ _ ?_
    rw [markedDevice_ae]
    exact h

theorem reportDevice_marks (p : Part) : (reportDevice true p).ae.deviceMark = true := by
  have h := queueWriteBack_markOf .device .device (markedDevice true p)
  exact h

theorem setRequest_ae (w : ReqWord) (x : Request) (p : Part) :
    (p.setRequest w x).ae = { p.ae with device := (p.setRequest w x).ae.device, requests := (p.setRequest w x).ae.requests } := by
  cases w <;> rfl

theorem gains_complete (w : ReqWord) (a : Result) (p : Part) : Gains (.request w) p (complete w a p) where
  quiet := by rw [complete, queueWriteBack_quiet, setRequest_ae]
  writes v h := by
    rw [complete]
    refine mem_queueWriteBack_of_mem _ ?_
    rw [setRequest_ae]
    exact h
  marks v h := by
    rw [complete, queueWriteBack_markOf, setRequest_ae]
    cases v <;> exact h
  gained h := by
    rw [complete]
    refine mem_queueWriteBack _ _ ?_
    rw [setRequest_ae]
    exact h

/-! ### The views of the records -/

/-- A port record, what no status record shows of it blanked (R174). -/
def PortRecord.shown (r : PortRecord) : PortRecord :=
  { r with plan := defaultPlan false, timers := stoppedTimers, pendingCue := none, deferred := none, adopted := false }

theorem shown_of_unreported {r r' : PortRecord} (h : reportedChange r r' = false) (t : r'.onTime = r.onTime) :
    r'.shown = r.shown := by
  unfold reportedChange markedChange at h
  simp only [Bool.or_eq_false_iff, bne_eq_false_iff_eq] at h
  obtain ⟨⟨⟨⟨⟨⟨⟨⟨⟨⟨⟨state, cause⟩, -⟩, flags⟩, grant⟩, stamp⟩, restarts⟩, trips⟩, drain⟩, errors⟩, overruns⟩, identity⟩ := h
  obtain ⟨⟩ := r
  obtain ⟨⟩ := r'
  dsimp only at *
  subst state cause flags grant stamp restarts trips drain errors overruns identity t
  rfl

theorem marked_of_changes {r r' : PortRecord} (h : changesMarked r r') (i : r'.identity = r.identity) : markedChange r r' = true := by
  unfold changesMarked at h
  unfold markedChange flagRaised
  simp only [Bool.or_eq_true, bne_iff_ne, Bool.and_eq_true, Bool.not_eq_true', ne_eq]
  obtain h | h | h | h | h | h | h | h | h | h := h
  · exact .inl (.inl (fun e => h e.symm))
  · exact .inl (.inr (fun e => h e.symm))
  · exact absurd i h
  · simp [h]
  · simp [h]
  · simp [h]
  · simp [h]
  · simp [h]
  · simp [h]
  · simp [h]

theorem not_changesMarked_self (r : PortRecord) : ¬changesMarked r r := by
  unfold changesMarked
  simp

theorem changesMarked_or {a b c : PortRecord} (h : changesMarked a c) : changesMarked a b ∨ changesMarked b c := by
  unfold changesMarked at *
  by_contra k
  simp only [not_or, not_and, not_not, ne_eq] at k
  obtain ⟨⟨k1, k2, k3, k4, k5, k6, k7, k8, k9, k10⟩, l1, l2, l3, l4, l5, l6, l7, l8, l9, l10⟩ := k
  rw [l1, k1, l2, k2, l3, k3] at h
  simp only [ne_eq, not_true_eq_false, false_or] at h
  have through {x y z : Bool} (u : x = false → ¬y = true) (v : y = false → ¬z = true) (w : x = false ∧ z = true) : False :=
    v (by simpa using u w.1) w.2
  obtain h | h | h | h | h | h | h := h
  · exact through k4 l4 h
  · exact through k5 l5 h
  · exact through k6 l6 h
  · exact through k7 l7 h
  · exact through k8 l8 h
  · exact through k9 l9 h
  · exact through k10 l10 h

/-- What the operations of the ports and the budget unit report. -/
structure Announced (p q : Part) : Prop where
  writes : ∀ v ∈ p.ae.writeBacks, v ∈ q.ae.writeBacks
  marks : ∀ v, markOf p.ae v = true → markOf q.ae v = true
  record : ∀ n, (q.port n).shown = (p.port n).shown ∨ .status n ∈ q.ae.writeBacks
  marked : ∀ n, changesMarked (p.port n) (q.port n) → .status n ∈ q.ae.writeBacks ∧ markOf q.ae (.status n) = true
  tests : (q.bu.isOver = p.bu.isOver ∧ q.bu.shortfall = p.bu.shortfall) ∨ (.device ∈ q.ae.writeBacks ∧ q.ae.deviceMark = true)
  committed : committed q = committed p ∨ .device ∈ q.ae.writeBacks
  request : ∀ w, q.request w = p.request w ∨ .request w ∈ q.ae.writeBacks
  shadows : q.ptp.shadows = p.ptp.shadows
  flight : ∀ v a b k d, p.mo.inFlight = some (.writeBack v a b k d) → q.mo.inFlight = some (.writeBack v a b k d)

theorem Announced.refl (p : Part) : Announced p p :=
  ⟨fun _ => id, fun _ => id, fun _ => .inl rfl, fun _ c => absurd c (not_changesMarked_self _), .inl ⟨rfl, rfl⟩, .inl rfl,
    fun _ => .inl rfl, rfl, fun _ _ _ _ _ => id⟩

theorem Announced.trans (h : Announced p q) (g : Announced q r) : Announced p r where
  writes v k := g.writes v (h.writes v k)
  marks v k := g.marks v (h.marks v k)
  record n := by
    obtain e | e := g.record n
    · exact (h.record n).imp (fun k => e.trans k) (g.writes _)
    · exact .inr e
  marked n c := by
    obtain c | c := changesMarked_or (b := q.port n) c
    · obtain ⟨w, k⟩ := h.marked n c
      exact ⟨g.writes _ w, g.marks _ k⟩
    · exact g.marked n c
  tests := by
    obtain ⟨a, b⟩ | e := g.tests
    · exact h.tests.imp (fun ⟨c, d⟩ => ⟨a.trans c, b.trans d⟩) (fun ⟨w, k⟩ => ⟨g.writes _ w, g.marks .device k⟩)
    · exact .inr e
  committed := by
    obtain e | e := g.committed
    · exact h.committed.imp (fun k => e.trans k) (g.writes _)
    · exact .inr e
  request w := by
    obtain e | e := g.request w
    · exact (h.request w).imp (fun k => e.trans k) (g.writes _)
    · exact .inr e
  shadows := g.shadows.trans h.shadows
  flight v a b k d e := g.flight v a b k d (h.flight v a b k d e)

/-- A report changes nothing but the area engine. -/
theorem Gains.announced (h : Gains t p q) (only : AeOnly q p)
    (req : ∀ w, q.request w = p.request w ∨ .request w ∈ q.ae.writeBacks) : Announced p q := by
  obtain ⟨ports, bu, ms, -, mo, ptp, mrc⟩ := only
  have port (n : Port) : q.port n = p.port n := by rw [Part.port, ports]; rfl
  refine ⟨h.writes, h.marks, fun n => .inl (by rw [port]), fun n c => ?_, .inl (by rw [bu]; exact ⟨rfl, rfl⟩), .inl ?_, req, by rw [ptp],
    fun _ _ _ _ _ k => by rw [mo]; exact k⟩
  · rw [port] at c
    exact absurd c (not_changesMarked_self _)
  · exact committed_congr fun n => by unfold closedGrant; rw [port]

theorem announced_reportPort (n : Port) (b : Bool) (p : Part) : Announced p (reportPort n b p) :=
  (gains_reportPort n b p).announced (.reportPort n b p) (fun _ => .inl (reportPort_request _ _ _ _))

theorem announced_reportDevice (b : Bool) (p : Part) : Announced p (reportDevice b p) :=
  (gains_reportDevice b p).announced (.reportDevice b p) (fun _ => .inl (reportDevice_request _ _ _))

theorem announced_complete (loud : p.ae.quiet = false) (w : ReqWord) (a : Result) : Announced p (complete w a p) := by
  have gains := gains_complete w a p
  refine gains.announced (.complete w a p) (fun v => ?_)
  rw [complete_request]
  by_cases e : w = v
  · subst e; exact .inr (gains.gained loud)
  · rw [if_neg e]; exact .inl rfl

end

end Sys2Proof.Machine
end

