-- ==== Sys2Proof/Proofs/AnnouncedActs.lean ====
section
/-! Every action at the ports is announced to the area engine. -/

namespace Sys2Proof.Machine

section
variable {n m : Port} {p q r x : Part} {t : Target}

/-! ### A change of one record -/

theorem reported_of_marked {a b : PortRecord} (h : markedChange a b = true) : reportedChange a b = true := by
  unfold reportedChange
  rw [h]
  simp

/-- The area engine through a change of a record: where the change is reported, the write-back is pending. -/
theorem updPort_gains (loud : p.ae.quiet = false) (f : PortRecord → PortRecord) :
    (updPort n f p).ae.quiet = p.ae.quiet ∧ (∀ v ∈ p.ae.writeBacks, v ∈ (updPort n f p).ae.writeBacks) ∧
    (∀ v, markOf p.ae v = true → markOf (updPort n f p).ae v = true) ∧
    (reportedChange (p.port n) (f (p.port n)) = true → .status n ∈ (updPort n f p).ae.writeBacks) ∧
    (markedChange (p.port n) (f (p.port n)) = true → markOf (updPort n f p).ae (.status n) = true) := by
  unfold updPort
  by_cases h : reportedChange (p.port n) (f (p.port n)) = true
  · rw [if_pos h]
    have gains := gains_reportPort n (markedChange (p.port n) (f (p.port n))) (p.setPort n (f (p.port n)))
    refine ⟨gains.quiet, gains.writes, gains.marks, fun _ => gains.gained loud, fun k => ?_⟩
    rw [k]
    exact reportPort_marks n _
  · rw [if_neg h]
    exact ⟨rfl, fun _ => id, fun _ => id, fun k => absurd k h, fun k => absurd (reported_of_marked k) h⟩

theorem announced_updPort (loud : p.ae.quiet = false) {f : PortRecord → PortRecord}
    (grant : committed (updPort n f p) = committed p ∨ .device ∈ p.ae.writeBacks)
    (time : (f (p.port n)).onTime = (p.port n).onTime ∨ reportedChange (p.port n) (f (p.port n)) = true)
    (identity : (f (p.port n)).identity = (p.port n).identity ∨
      (.status n ∈ p.ae.writeBacks ∧ markOf p.ae (.status n) = true)) : Announced p (updPort n f p) := by
  obtain ⟨-, writes, marks, reported, marked⟩ := updPort_gains (n := n) loud f
  refine ⟨writes, marks, fun m => ?_, fun m c => ?_, .inl (by rw [updPort_bu]; exact ⟨rfl, rfl⟩), grant.imp_right (writes _),
    fun w => .inl (updPort_request _ _ _ _), by rw [updPort_ptp], fun _ _ _ _ _ k => by rw [updPort_mo]; exact k⟩
  · by_cases e : n = m
    · subst e
      rw [updPort_port_self]
      by_cases k : reportedChange (p.port n) (f (p.port n)) = true
      · exact .inr (reported k)
      · exact .inl (shown_of_unreported (by simpa using k) (time.resolve_right k))
    · exact .inl (by rw [updPort_port_ne e])
  · by_cases e : n = m
    · subst e
      rw [updPort_port_self] at c
      obtain i | ⟨w, k⟩ := identity
      · have k := marked_of_changes c i
        exact ⟨reported (reported_of_marked k), marked k⟩
      · exact ⟨writes _ w, marks _ k⟩
    · rw [updPort_port_ne e] at c
      exact absurd c (not_changesMarked_self _)

/-- A change of a record that keeps its state and its grant keeps the committed total. -/
theorem committed_updPort {f : PortRecord → PortRecord} (s : (f (p.port n)).state = (p.port n).state)
    (g : (f (p.port n)).grant = (p.port n).grant) : committed (updPort n f p) = committed p := by
  refine committed_congr fun m => ?_
  unfold closedGrant
  by_cases e : n = m
  · subst e; rw [updPort_port_self, s, g]
  · rw [updPort_port_ne e]

theorem announced_core (loud : p.ae.quiet = false) {f : PortRecord → PortRecord} (k : KeepsCore f) :
    Announced p (updPort n f p) := by
  obtain ⟨state, grant, time, identity⟩ := k (p.port n)
  exact announced_updPort loud (.inl (committed_updPort state grant)) (.inl time) (.inl identity)

theorem announced_setFlags (loud : p.ae.quiet = false) (f : Flags → Flags) : Announced p (setFlags n f p) :=
  announced_core loud (fun _ => ⟨rfl, rfl, rfl, rfl⟩)

/-- Nothing that is announced has changed. -/
theorem announced_of_same (ae : q.ae = p.ae) (ports : q.ports = p.ports) (tests : q.bu.isOver = p.bu.isOver ∧ q.bu.shortfall = p.bu.shortfall)
    (shadows : q.ptp.shadows = p.ptp.shadows)
    (flight : ∀ v a b k d, p.mo.inFlight = some (.writeBack v a b k d) → q.mo.inFlight = some (.writeBack v a b k d)) :
    Announced p q := by
  have port (n : Port) : q.port n = p.port n := by rw [Part.port, ports]; rfl
  refine ⟨fun _ k => by rw [ae]; exact k, fun _ k => by rw [ae]; exact k, fun n => .inl (by rw [port]), fun n c => ?_, .inl tests, .inl ?_,
    fun w => .inl (by cases w <;> simp only [Part.request, ae]), shadows, flight⟩
  · rw [port] at c
    exact absurd c (not_changesMarked_self _)
  · exact committed_congr fun n => by unfold closedGrant; rw [port]

theorem announced_setLane (n : Port) (l : Lane) (p : Part) : Announced p (p.setLane n l) :=
  announced_of_same rfl rfl ⟨rfl, rfl⟩ rfl (fun _ _ _ _ _ => id)

theorem announced_mapBu {f : Budget → Budget} (o : (f p.bu).isOver = p.bu.isOver) (s : (f p.bu).shortfall = p.bu.shortfall) :
    Announced p (p.mapBu f) := announced_of_same rfl rfl ⟨o, s⟩ rfl (fun _ _ _ _ _ => id)

/-! ### A port that changes state -/

theorem cancelAccesses_flight {v : Target} {a : Nat} {b : List Byte} {k d : Bool} (n : Port)
    (h : p.mo.inFlight = some (.writeBack v a b k d)) : (cancelAccesses n p).mo.inFlight = some (.writeBack v a b k d) := by
  rw [cancelAccesses, Part.mapMo_mo]
  dsimp only
  rw [h]

theorem announced_clearCounts (n : Port) (p : Part) : Announced p (clearCounts n p) :=
  announced_of_same rfl rfl ⟨rfl, rfl⟩ rfl (fun _ _ _ _ _ => id)

theorem announced_switchOpened (n : Port) (p : Part) : Announced p (switchOpened n p) := by
  have cancelled : Announced p (cancelAccesses n p) :=
    announced_of_same rfl rfl ⟨rfl, rfl⟩ rfl (fun _ _ _ _ _ => cancelAccesses_flight n)
  have off : Announced p ((clearCounts n (cancelAccesses n p)).mapBu (fun b => { b with shedList := b.shedList.filter (· != n) })) :=
    (cancelled.trans (announced_clearCounts n _)).trans (announced_mapBu rfl rfl)
  unfold switchOpened
  dsimp only
  split
  · exact off
  · exact off.trans (announced_reportDevice _ _)

/-- A switch that opens with a grant is reported for device status 2 (R45). -/
theorem switchOpened_device (loud : p.ae.quiet = false) (g : (p.port n).grant ≠ 0) : .device ∈ (switchOpened n p).ae.writeBacks := by
  unfold switchOpened
  dsimp only
  split
  next h => exact absurd h g
  · exact (gains_reportDevice _ _).gained loud

theorem switchOpened_quiet (n : Port) (p : Part) : (switchOpened n p).ae.quiet = p.ae.quiet :=
  Part.quiet_of_fixed (switchOpened_fixed n p)

theorem announced_dropEntry (loud : p.ae.quiet = false) : Announced p (dropEntry n p) := by
  unfold dropEntry
  split
  · exact (announced_mapBu rfl rfl).trans (announced_setFlags (p := p.mapBu _) loud _)
  · exact .refl p

theorem announced_laneFollow (loud : p.ae.quiet = false) : Announced p (laneFollow n p) := by
  have hand : Announced p (handBackCue n p) := by
    unfold handBackCue
    split
    · exact .refl p
    next v _ =>
      have cued : Announced p (updPort n (fun r => { r with pendingCue := some v }) p) :=
        announced_core loud (fun _ => ⟨rfl, rfl, rfl, rfl⟩)
      exact cued.trans (announced_setLane _ _ _)
  unfold laneFollow
  dsimp only
  split
  · exact announced_setLane _ _ _
  · exact hand.trans (announced_setLane _ _ _)

/-- The part before the port's record enters the state. -/
def leavingState (n : Port) (st : PortState) (p : Part) : Part :=
  dropEntry n (if (p.port n).state.closed && !st.closed then switchOpened n p else p)

theorem beforeFollow_leaving (n : Port) (st : PortState) (p : Part) :
    beforeFollow n st p = updPort n (·.enter st) (leavingState n st p) := rfl

theorem leavingState_fixed (n : Port) (st : PortState) (p : Part) : (leavingState n st p).fixed = p.fixed := by
  unfold leavingState
  rw [dropEntry_fixed]
  split
  · exact switchOpened_fixed n p
  · rfl

theorem announced_leavingState (loud : p.ae.quiet = false) (st : PortState) : Announced p (leavingState n st p) := by
  unfold leavingState
  split
  · exact (announced_switchOpened n p).trans (announced_dropEntry (by rw [switchOpened_quiet]; exact loud))
  · exact announced_dropEntry loud

theorem leavingState_device (loud : p.ae.quiet = false) {st : PortState} (c : (p.port n).state.closed = true) (o : st.closed = false)
    (g : (p.port n).grant ≠ 0) : .device ∈ (leavingState n st p).ae.writeBacks := by
  unfold leavingState
  rw [if_pos (by rw [c, o]; rfl)]
  exact (announced_dropEntry (by rw [switchOpened_quiet]; exact loud)).writes _ (switchOpened_device loud g)

theorem leavingState_port (n m : Port) (st : PortState) (p : Part) :
    ∃ f, (leavingState n st p).port m = { p.port m with flags := f } := by
  have same : (if (p.port n).state.closed && !st.closed then switchOpened n p else p).port m = p.port m := by
    split
    · exact switchOpened_port n m p
    · rfl
  unfold leavingState
  by_cases e : n = m
  · subst e
    obtain ⟨f, record, -⟩ := dropEntry_port_self n (if (p.port n).state.closed && !st.closed then switchOpened n p else p)
    exact ⟨f, by rw [record, same]⟩
  · exact ⟨(p.port m).flags, by rw [dropEntry_port_ne e, same]⟩

/-- The committed total through a change of state: a closed switch that stays closed keeps its grant, an open one has none. -/
theorem committed_entered (o : (p.port n).state.closed = false → (p.port n).grant = 0) (st : PortState) :
    committed (updPort n (·.enter st) p) = committed p ∨
    ((p.port n).state.closed = true ∧ st.closed = false ∧ (p.port n).grant ≠ 0) := by
  by_cases c : (p.port n).state.closed = true ∧ st.closed = false ∧ (p.port n).grant ≠ 0
  · exact .inr c
  · refine .inl (committed_congr fun m => ?_)
    unfold closedGrant
    by_cases e : n = m
    · subst e
      rw [updPort_port_self]
      unfold PortRecord.enter
      dsimp only
      cases a : (p.port n).state.closed <;> cases b : st.closed <;> simp_all
    · rw [updPort_port_ne e]

theorem announced_moveTo (loud : p.ae.quiet = false) (o : openLaw p) (st : PortState) : Announced p (moveTo n st p) := by
  have left := announced_leavingState (n := n) loud st
  have loud' : (leavingState n st p).ae.quiet = false := (Part.quiet_of_fixed (leavingState_fixed n st p)).trans loud
  obtain ⟨f, port⟩ := leavingState_port n n st p
  have entered : Announced (leavingState n st p) (beforeFollow n st p) := by
    rw [beforeFollow_leaving]
    refine announced_updPort loud' ?_ (.inl rfl) (.inl rfl)
    obtain same | ⟨c, op, g⟩ := committed_entered (n := n) (p := leavingState n st p) (by rw [port]; exact o n) st
    · exact .inl same
    · rw [port] at c g
      exact .inr (leavingState_device loud c op g)
  have loud'' : (beforeFollow n st p).ae.quiet = false := by
    rw [beforeFollow_leaving, (updPort_gains loud' _).1]
    exact loud'
  rw [moveTo_eq]
  exact ((left.trans entered).trans (announced_laneFollow loud'')).trans (announced_setLane _ _ _)

/-- A port that comes from another state is marked (R6). -/
theorem moveTo_marked (loud : p.ae.quiet = false) (o : openLaw p) {st : PortState} (ne : (p.port n).state ≠ st) :
    .status n ∈ (moveTo n st p).ae.writeBacks ∧ markOf (moveTo n st p).ae (.status n) = true := by
  refine (announced_moveTo loud o st).marked n (.inl ?_)
  rw [moveTo_state]
  exact fun e => ne e.symm

/-! ### Every action -/

theorem announced_setGrant (loud : p.ae.quiet = false) (g : Nat) : Announced p (setGrant n g p) := by
  have reported (h : (p.port n).grant ≠ g) : Announced p (reportDevice false (updPort n (fun r => { r with grant := g }) p)) := by
    have gains := gains_reportDevice false (updPort n (fun r => { r with grant := g }) p)
    obtain ⟨quiet, writes, marks, change, -⟩ := updPort_gains (n := n) loud (fun r => { r with grant := g })
    have told : reportedChange (p.port n) { p.port n with grant := g } = true := by
      unfold reportedChange
      simp [h]
    refine ⟨fun v k => gains.writes _ (writes v k), fun v k => gains.marks _ (marks v k), fun m => ?_, fun m c => ?_,
      .inl (by rw [reportDevice_bu, updPort_bu]; exact ⟨rfl, rfl⟩), .inr (gains.gained (quiet.trans loud)),
      fun w => .inl (by rw [reportDevice_request, updPort_request]), by rw [reportDevice_ptp, updPort_ptp],
      fun _ _ _ _ _ k => by rw [reportDevice_mo, updPort_mo]; exact k⟩
    · by_cases e : n = m
      · subst e
        exact .inr (gains.writes _ (change told))
      · exact .inl (by rw [reportDevice_port, updPort_port_ne e])
    · rw [reportDevice_port] at c
      by_cases e : n = m
      · subst e
        rw [updPort_port_self] at c
        exact absurd c (not_changesMarked_self (p.port n))
      · rw [updPort_port_ne e] at c
        exact absurd c (not_changesMarked_self _)
  unfold setGrant
  split
  · exact .refl p
  next h => exact reported h

theorem announced_test {f : Budget → Budget} (loud : p.ae.quiet = false) : Announced p (reportDevice true (p.mapBu f)) := by
  have gains := gains_reportDevice true (p.mapBu f)
  refine ⟨gains.writes, gains.marks, fun m => .inl (by rw [reportDevice_port, Part.mapBu_port]), fun m c => ?_,
    .inr ⟨gains.gained loud, reportDevice_marks _⟩, .inl ?_, fun w => .inl (by rw [reportDevice_request]; exact mapBu_request _ _ _),
    by rw [reportDevice_ptp]; rfl, fun _ _ _ _ _ k => by rw [reportDevice_mo]; exact k⟩
  · rw [reportDevice_port, Part.mapBu_port] at c
    exact absurd c (not_changesMarked_self _)
  · exact committed_congr fun n => by unfold closedGrant; rw [reportDevice_port, Part.mapBu_port]

theorem announced_budgetTest (loud : p.ae.quiet = false) : Announced p (budgetTest p) := by
  unfold budgetTest
  split
  · exact .refl p
  · exact announced_test loud

theorem announced_shortfallTest (loud : p.ae.quiet = false) : Announced p (shortfallTest p) := by
  unfold shortfallTest
  split
  · exact .refl p
  · exact announced_test loud

/-- A change of one record keeps the law of the open switches if the record does. -/
theorem openLaw_of_port (o : openLaw p) (own : (q.port n).state.closed = false → (q.port n).grant = 0)
    (others : ∀ m, n ≠ m → (q.port m).state = (p.port m).state ∧ (q.port m).grant = (p.port m).grant) : openLaw q := by
  intro m
  by_cases e : n = m
  · subst e; exact own
  · obtain ⟨state, grant⟩ := others m e
    rw [state, grant]
    exact o m

theorem openLaw_congr (o : openLaw p) (h : ∀ m, (q.port m).state = (p.port m).state ∧ (q.port m).grant = (p.port m).grant) :
    openLaw q := by
  intro m
  obtain ⟨state, grant⟩ := h m
  rw [state, grant]
  exact o m

theorem openLaw_updPort (o : openLaw p) {f : PortRecord → PortRecord} (k : ∀ r, (f r).state = r.state ∧ (f r).grant = r.grant) :
    openLaw (updPort n f p) := by
  refine openLaw_congr o (fun m => ?_)
  by_cases e : n = m
  · subst e; rw [updPort_port_self]; exact k _
  · rw [updPort_port_ne e]; exact ⟨rfl, rfl⟩

theorem openLaw_moveTo (o : openLaw p) (st : PortState) : openLaw (moveTo n st p) := by
  have entered := moveTo_port_self n st p
  refine openLaw_of_port (n := n) o (fun c => ?_) (fun m e => by rw [moveTo_port_ne e]; exact ⟨rfl, rfl⟩)
  rw [entered.state] at c
  rw [entered.grant, if_neg (by rw [c]; decide)]

/-- No action leaves an open switch with a grant (R5). -/
theorem Acts.openLaw {S : Port → Prop} (h : Acts S p q) (o : openLaw p) : openLaw q := by
  induction h with
  | refl => exact o
  | move _ _ st ih => exact openLaw_moveTo ih st
  | upd _ _ k ih => exact openLaw_updPort ih (fun r => ⟨(k r).1, (k r).2.1⟩)
  | @identify q _ n _ f k ih =>
    have updated : Machine.openLaw (updPort n f q) := openLaw_updPort ih (fun r => ⟨(k r).1, (k r).2.1⟩)
    refine openLaw_congr updated (fun m => ?_)
    rw [reportPort_port]
    exact ⟨rfl, rfl⟩
  | unplug _ _ _ ih => exact openLaw_updPort (openLaw_moveTo ih _) (fun _ => ⟨rfl, rfl⟩)
  | enterOn _ _ _ ih => exact openLaw_updPort (openLaw_moveTo ih _) (fun _ => ⟨rfl, rfl⟩)
  | setGrant _ _ c g ih =>
    refine openLaw_of_port ih (fun k => ?_) (fun m e => by rw [setGrant_port_ne e]; exact ⟨rfl, rfl⟩)
    rw [setGrant_port_self] at k
    exact absurd (c.symm.trans k) (by decide)
  | setLane _ _ _ ih => exact ih
  | stamp _ _ _ ih => exact openLaw_updPort ih (fun _ => ⟨rfl, rfl⟩)
  | mapBu _ _ ih => exact ih
  | order _ _ ih => exact ih
  | handOver _ _ ih => exact ih
  | window _ _ _ ih => exact ih
  | counts _ _ ih => exact ih
  | complete _ _ _ ih => exact openLaw_congr ih (fun m => by rw [complete_port]; exact ⟨rfl, rfl⟩)
  | report _ _ _ ih => exact openLaw_congr ih (fun m => by rw [reportPort_port]; exact ⟨rfl, rfl⟩)
  | budgetTest _ ih => exact openLaw_congr ih (fun m => by rw [(budgetTest_keeps _).2.2]; exact ⟨rfl, rfl⟩)
  | shortfallTest _ ih => exact openLaw_congr ih (fun m => by rw [(shortfallTest_keeps _).2.2]; exact ⟨rfl, rfl⟩)

theorem Acts.loud {S : Port → Prop} (h : Acts S p q) (loud : p.ae.quiet = false) : q.ae.quiet = false :=
  (Part.quiet_of_fixed h.fixed).trans loud

theorem announced_startOnTime (loud : p.ae.quiet = false) (mem : .status n ∈ p.ae.writeBacks) : Announced p (startOnTime n p) := by
  obtain ⟨-, writes, marks, -, -⟩ := updPort_gains (n := n) loud
    (fun r => { r with onTime := 0, timers := { r.timers with onTime := true } })
  unfold startOnTime
  refine ⟨writes, marks, fun m => ?_, fun m c => ?_, .inl (by rw [updPort_bu]; exact ⟨rfl, rfl⟩), .inl (committed_updPort rfl rfl),
    fun w => .inl (updPort_request _ _ _ _), by rw [updPort_ptp], fun _ _ _ _ _ k => by rw [updPort_mo]; exact k⟩
  · by_cases e : n = m
    · subst e; exact .inr (writes _ mem)
    · exact .inl (by rw [updPort_port_ne e])
  · by_cases e : n = m
    · subst e
      rw [updPort_port_self] at c
      exact absurd c (not_changesMarked_self (p.port n))
    · rw [updPort_port_ne e] at c
      exact absurd c (not_changesMarked_self _)

theorem announced_enterOn (loud : p.ae.quiet = false) (o : Machine.openLaw p) (off : (p.port n).state ≠ .on) :
    Announced p (startOnTime n (moveTo n .on p)) := by
  have loud' : (moveTo n .on p).ae.quiet = false := (Part.quiet_of_fixed (moveTo_fixed n _ p)).trans loud
  exact (announced_moveTo loud o .on).trans (announced_startOnTime loud' (moveTo_marked loud o off).1)

/-- An identity taken is reported with the port's change mark (R6). -/
theorem announced_identify (loud : p.ae.quiet = false) {f : PortRecord → PortRecord} (k : KeepsShape f) :
    Announced p (reportPort n true (updPort n f p)) := by
  obtain ⟨state, grant, -⟩ := k (p.port n)
  obtain ⟨quiet, writes, marks, -, -⟩ := updPort_gains (n := n) loud f
  have gains := gains_reportPort n true (updPort n f p)
  refine ⟨fun v h => gains.writes _ (writes v h), fun v h => gains.marks _ (marks v h), fun m => ?_, fun m c => ?_,
    .inl (by rw [reportPort_bu, updPort_bu]; exact ⟨rfl, rfl⟩), .inl ?_,
    fun w => .inl (by rw [reportPort_request, updPort_request]), by rw [reportPort_ptp, updPort_ptp],
    fun _ _ _ _ _ h => by rw [reportPort_mo, updPort_mo]; exact h⟩
  · by_cases e : n = m
    · subst e; exact .inr (gains.gained (quiet.trans loud))
    · exact .inl (by rw [reportPort_port, updPort_port_ne e])
  · rw [reportPort_port] at c
    by_cases e : n = m
    · subst e; exact ⟨gains.gained (quiet.trans loud), reportPort_marks n _⟩
    · rw [updPort_port_ne e] at c
      exact absurd c (not_changesMarked_self _)
  · refine (committed_congr fun m => ?_).trans (committed_updPort state grant)
    unfold closedGrant
    rw [reportPort_port]

theorem announced_unplugged (loud : p.ae.quiet = false) (marked : .status n ∈ p.ae.writeBacks ∧ markOf p.ae (.status n) = true) :
    Announced p (updPort n PortRecord.unplug p) :=
  announced_updPort loud (.inl (committed_updPort rfl rfl)) (.inl rfl) (.inr marked)

theorem announced_unplug (loud : p.ae.quiet = false) (o : Machine.openLaw p) (ne : (p.port n).state ≠ .empty) :
    Announced p (updPort n PortRecord.unplug (moveTo n .empty p)) := by
  have loud' : (moveTo n .empty p).ae.quiet = false := (Part.quiet_of_fixed (moveTo_fixed n _ p)).trans loud
  exact (announced_moveTo loud o .empty).trans (announced_unplugged loud' (moveTo_marked loud o ne))

/-- Every action is announced. -/
theorem Acts.announced {S : Port → Prop} (h : Acts S p q) (loud : p.ae.quiet = false) (o : Machine.openLaw p) : Announced p q := by
  induction h with
  | refl => exact .refl p
  | move a _ st ih => exact ih.trans (announced_moveTo (a.loud loud) (a.openLaw o) st)
  | upd a _ k ih => exact ih.trans (announced_core (a.loud loud) k)
  | identify a _ k ih => exact ih.trans (announced_identify (a.loud loud) k)
  | unplug a _ ne ih => exact ih.trans (announced_unplug (a.loud loud) (a.openLaw o) ne)
  | enterOn a _ off ih => exact ih.trans (announced_enterOn (a.loud loud) (a.openLaw o) off)
  | setGrant a _ _ g ih => exact ih.trans (announced_setGrant (a.loud loud) g)
  | setLane _ _ _ ih => exact ih.trans (announced_setLane _ _ _)
  | stamp a _ k ih => exact ih.trans (announced_core (a.loud loud) (fun _ => ⟨rfl, rfl, rfl, rfl⟩))
  | mapBu _ k ih => exact ih.trans (announced_mapBu (k _).2.1 (k _).2.2.1)
  | order _ _ ih => exact ih.trans (announced_mapBu rfl rfl)
  | handOver _ _ ih => exact ih.trans (announced_of_same rfl rfl ⟨rfl, rfl⟩ rfl (fun _ _ _ _ _ => id))
  | window _ _ _ ih => exact ih.trans (announced_of_same rfl rfl ⟨rfl, rfl⟩ rfl (fun _ _ _ _ _ => id))
  | counts _ _ ih => exact ih.trans (announced_clearCounts _ _)
  | complete a _ x ih => exact ih.trans (announced_complete (a.loud loud) _ x)
  | report _ k b ih => exact ih.trans (announced_reportPort k b _)
  | budgetTest a ih => exact ih.trans (announced_budgetTest (a.loud loud))
  | shortfallTest a ih => exact ih.trans (announced_shortfallTest (a.loud loud))

end

end Sys2Proof.Machine
end

