-- ==== Sys2Proof/Proofs/WrittenSoon.lean ====
section
/-! What is reported to the area engine reaches memory: through an event its write-back is pending, and at the end of the command it is
pending, or granted with the content as it is then (R166). -/

namespace Sys2Proof.Machine

/-- The reported fields of a port's status record: the port record, the last current and the cue shadow (R174). -/
def Part.shownAt (n : Port) (p : Part) : PortRecord × Nat × Option Word :=
  ((p.port n).shown, p.ae.lastCurrent.at n, p.ptp.shadows.at n)

/-- The reported fields of device status 1 (R172). -/
structure DeviceView where
  isOver : Bool
  shortfall : Bool
  standby : Bool
  adopting : Bool
  wheelWaits : Bool
  sequenceWaits : Bool
  voltage : Step
  temperature : Step
  mode : SeqMode

/-- See `DeviceView`. -/
def Part.deviceView (p : Part) : DeviceView where
  isOver := p.bu.isOver
  shortfall := p.bu.shortfall
  standby := p.mrc.standby
  adopting := p.mrc.adoptionTimer.isSome
  wheelWaits := p.mo.pendingWheel.isSome
  sequenceWaits := p.ms.pending.isSome
  voltage := p.ms.voltageStep
  temperature := p.ms.temperatureStep
  mode := p.ms.mode

/-- A bit of the word has risen. -/
def rises (a b : Word) : Prop := b &&& ~~~a ≠ 0

theorem not_rises_self (a : Word) : ¬rises a a := by
  unfold rises
  simp

theorem rises_iff (a b : Word) : rises a b ↔ ∃ i < 32, b.getLsbD i = true ∧ a.getLsbD i = false := by
  unfold rises
  constructor
  · intro h
    by_contra k
    refine h (BitVec.eq_of_getLsbD_eq fun i hi => ?_)
    have both : ¬(b.getLsbD i = true ∧ a.getLsbD i = false) := fun c => k ⟨i, hi, c⟩
    cases x : b.getLsbD i <;> cases y : a.getLsbD i <;> simp_all
  · rintro ⟨i, hi, x, y⟩ h
    have bit : (b &&& ~~~a).getLsbD i = (0 : Word).getLsbD i := by rw [h]
    rw [BitVec.getLsbD_and, BitVec.getLsbD_not, x, y] at bit
    simp [hi] at bit

theorem rises_or {a b c : Word} (h : rises a c) : rises a b ∨ rises b c := by
  obtain ⟨i, hi, x, y⟩ := (rises_iff a c).1 h
  cases z : b.getLsbD i with
  | true => exact .inl ((rises_iff a b).2 ⟨i, hi, z, y⟩)
  | false => exact .inr ((rises_iff b c).2 ⟨i, hi, x, z⟩)

/-- From `p` to `q` what was to be written still is (`W`), with its mark (`M`), and so is what has changed. -/
structure Tells (W M : Target → Prop) (p q : Part) : Prop where
  writes : ∀ v ∈ p.ae.writeBacks, W v
  marks : ∀ v ∈ p.ae.writeBacks, markOf p.ae v = true → M v
  status : ∀ n, q.shownAt n = p.shownAt n ∨ W (.status n)
  marked : ∀ n, changesMarked (p.port n) (q.port n) → M (.status n)
  device1 : q.deviceView = p.deviceView ∨ (W .device ∧ M .device)
  device2 : (committed q = committed p ∧ ceiling q = ceiling p) ∨ W .device
  wheel : q.mo.wheel = p.mo.wheel ∨ W .wheelCopy
  summary : rises p.ae.summary q.ae.summary → W .summary
  error : rises p.ae.error q.ae.error → W .error
  request : ∀ w, (q.request w).completion = none ∨ (q.request w).completion = (p.request w).completion ∨ W (.request w)
  flight : ∀ v a b k, p.mo.inFlight = some (.writeBack v a b k false) → q.mo.inFlight = some (.writeBack v a b k false)
  busy : q.mo.inFlight = none → p.mo.inFlight = none

/-- The record's write-back is pending. -/
def pends (q : Part) (v : Target) : Prop := v ∈ q.ae.writeBacks

/-- The record's write-back is pending with a change mark. -/
def pendsMarked (q : Part) (v : Target) : Prop := v ∈ q.ae.writeBacks ∧ markOf q.ae v = true

section
variable {W M : Target → Prop} {p q r x : Part}

/-- One stretch after another: what is to be written after the first is to be written after the second. -/
theorem Tells.next {W' M' : Target → Prop} (h : Tells W M p q) (g : Tells W' M' q r) (w : ∀ v, W v → W' v) (m : ∀ v, M v → M' v) :
    Tells W' M' p r where
  writes v k := w v (h.writes v k)
  marks v k e := m v (h.marks v k e)
  status n := by
    obtain e | e := g.status n
    · exact (h.status n).imp e.trans (w _)
    · exact .inr e
  marked n c := (changesMarked_or (b := q.port n) c).elim (fun c => m _ (h.marked n c)) (g.marked n)
  device1 := by
    obtain e | e := g.device1
    · exact h.device1.imp e.trans (fun ⟨a, b⟩ => ⟨w _ a, m _ b⟩)
    · exact .inr e
  device2 := by
    obtain ⟨c, l⟩ | e := g.device2
    · exact h.device2.imp (fun ⟨a, b⟩ => ⟨c.trans a, l.trans b⟩) (w _)
    · exact .inr e
  wheel := by
    obtain e | e := g.wheel
    · exact h.wheel.imp e.trans (w _)
    · exact .inr e
  summary c := (rises_or c).elim (fun k => w _ (h.summary k)) g.summary
  error c := (rises_or c).elim (fun k => w _ (h.error k)) g.error
  request v := by
    obtain e | e | e := g.request v
    · exact .inl e
    · rw [e]
      exact (h.request v).imp id (Or.imp id (w _))
    · exact .inr (.inr e)
  flight v a b k e := g.flight v a b k (h.flight v a b k e)
  busy e := h.busy (g.busy e)

/-- What happens in an event is written back by what follows it. -/
theorem Tells.after (h : Tells (pends q) (pendsMarked q) p q) (g : Tells W M q r) : Tells W M p r :=
  h.next g g.writes (fun v m => g.marks v m.1 m.2)

theorem Tells.imp {W' M' : Target → Prop} (h : Tells W M p q) (w : ∀ v, W v → W' v) (m : ∀ v, M v → M' v) : Tells W' M' p q where
  writes v k := w v (h.writes v k)
  marks v k e := m v (h.marks v k e)
  status n := (h.status n).imp id (w _)
  marked n c := m _ (h.marked n c)
  device1 := h.device1.imp id (fun ⟨a, b⟩ => ⟨w _ a, m _ b⟩)
  device2 := h.device2.imp id (w _)
  wheel := h.wheel.imp id (w _)
  summary c := w _ (h.summary c)
  error c := w _ (h.error c)
  request v := (h.request v).imp id (Or.imp id (w _))
  flight := h.flight
  busy := h.busy

/-- Nothing that is reported changed, and the area engine keeps what is pending. -/
structure Unreported (p q : Part) : Prop where
  status : ∀ n, q.shownAt n = p.shownAt n
  ports : q.ports = p.ports
  device1 : q.deviceView = p.deviceView
  device2 : committed q = committed p ∧ ceiling q = ceiling p
  wheel : q.mo.wheel = p.mo.wheel
  summary : ¬rises p.ae.summary q.ae.summary
  error : ¬rises p.ae.error q.ae.error
  request : ∀ w, (q.request w).completion = none ∨ (q.request w).completion = (p.request w).completion

theorem Unreported.tells (h : Unreported p q) (writes : ∀ v ∈ p.ae.writeBacks, W v)
    (marks : ∀ v ∈ p.ae.writeBacks, markOf p.ae v = true → M v)
    (flight : ∀ v a b k, p.mo.inFlight = some (.writeBack v a b k false) → q.mo.inFlight = some (.writeBack v a b k false))
    (busy : q.mo.inFlight = none → p.mo.inFlight = none) : Tells W M p q where
  writes := writes
  marks := marks
  status n := .inl (h.status n)
  marked n c := by
    have port : q.port n = p.port n := by rw [Part.port, h.ports]; rfl
    rw [port] at c
    exact absurd c (not_changesMarked_self _)
  device1 := .inl h.device1
  device2 := .inl h.device2
  wheel := .inl h.wheel
  summary c := absurd c h.summary
  error c := absurd c h.error
  request w := (h.request w).imp id .inl
  flight := flight
  busy := busy

theorem tells_refl (p : Part) : Tells (pends p) (pendsMarked p) p p :=
  Unreported.tells ⟨fun _ => rfl, rfl, rfl, ⟨rfl, rfl⟩, rfl, not_rises_self _, not_rises_self _, fun _ => .inr rfl⟩ (fun _ => id)
    (fun _ k m => ⟨k, m⟩) (fun _ _ _ _ => id) id

/-! ### Through an event -/

/-- From `p` to `q` every change is reported to an area engine that is not still. -/
def Reports (p q : Part) : Prop :=
  p.ae.quiet = false → openLaw p → q.ae.quiet = false ∧ openLaw q ∧ Tells (pends q) (pendsMarked q) p q

theorem Reports.refl (p : Part) : Reports p p := fun loud o => ⟨loud, o, tells_refl p⟩

theorem Reports.trans (h : Reports p q) (g : Reports q r) : Reports p r := fun loud o => by
  obtain ⟨loud', o', tells⟩ := h loud o
  obtain ⟨loud'', o'', tells'⟩ := g loud' o'
  exact ⟨loud'', o'', tells.after tells'⟩

/-- The write-backs hold the records as before, but for those that are pending. -/
def BytesStay (p q : Part) : Prop := ∀ v, targetBytes q v = targetBytes p v ∨ v ∈ q.ae.writeBacks

/-- From `p` to `q` every change of a record is reported, so that a write-back in flight carries the record or another is pending. -/
def Stays (p q : Part) : Prop :=
  p.ae.quiet = false → openLaw p → q.ae.quiet = false ∧ openLaw q ∧ Tells (pends q) (pendsMarked q) p q ∧ BytesStay p q

theorem Stays.reports (h : Stays p q) : Reports p q := fun loud o => by
  obtain ⟨loud', o', tells, -⟩ := h loud o
  exact ⟨loud', o', tells⟩

theorem Stays.refl (p : Part) : Stays p p := fun loud o => ⟨loud, o, tells_refl p, fun _ => .inl rfl⟩

theorem Stays.trans (h : Stays p q) (g : Stays q r) : Stays p r := fun loud o => by
  obtain ⟨loud', o', tells, bytes⟩ := h loud o
  obtain ⟨loud'', o'', tells', bytes'⟩ := g loud' o'
  refine ⟨loud'', o'', tells.after tells', fun v => ?_⟩
  obtain e | e := bytes' v
  · exact (bytes v).imp e.trans (tells'.writes v)
  · exact .inr e

theorem statusBytes_shown {r r' : PortRecord} (h : r'.shown = r.shown) (c : BitVec 8) (l : Nat) (s : Option Word) :
    statusBytes r' c l s = statusBytes r c l s := by
  have plain (x : PortRecord) : statusBytes x c l s = statusBytes x.shown c l s := rfl
  rw [plain r', plain r, h]

theorem Announced.tells (h : Announced p q) (f : q.fixed = p.fixed) : Tells (pends q) (pendsMarked q) p q where
  writes := h.writes
  marks v k m := ⟨h.writes v k, h.marks v m⟩
  status n := by
    unfold Part.shownAt
    rw [Part.lastCurrent_of_fixed f, h.shadows]
    exact (h.record n).imp (fun e => by rw [e]) id
  marked := h.marked
  device1 := by
    obtain ⟨o, s⟩ | e := h.tests
    · refine .inl ?_
      unfold Part.deviceView
      rw [o, s, Part.mrc_of_fixed f, Part.pendingWheel_of_fixed f, Part.pending_of_fixed f, Part.voltageStep_of_fixed f,
        Part.temperatureStep_of_fixed f, Part.mode_of_fixed f]
    · exact .inr ⟨e.1, e⟩
  device2 := h.committed.imp (fun e => ⟨e, ceiling_of_fixed f⟩) id
  wheel := .inl (Part.wheel_of_fixed f)
  summary c := by rw [Part.summary_of_fixed f] at c; exact absurd c (not_rises_self _)
  error c := by rw [Part.error_of_fixed f] at c; exact absurd c (not_rises_self _)
  request w := .inr ((h.request w).imp (fun e => by rw [e]) id)
  flight v a b k := h.flight v a b k false
  busy e := by
    have same := Part.busy_of_fixed f
    rw [e] at same
    cases c : p.mo.inFlight with
    | none => rfl
    | some f => rw [c] at same; cases same

theorem deviceBytes_congr (v : q.deviceView = p.deviceView) (c : committed q = committed p) (l : ceiling q = ceiling p)
    (k : q.ae.deviceCount = p.ae.deviceCount) : deviceBytes q = deviceBytes p := by
  unfold Part.deviceView at v
  injection v with isOver shortfall standby adopting wheelWaits sequenceWaits voltage temperature mode
  unfold deviceBytes ceilingStep
  rw [isOver, shortfall, standby, adopting, wheelWaits, sequenceWaits, voltage, temperature, mode, c, l, k]

theorem Announced.bytes (h : Announced p q) (f : q.fixed = p.fixed) : BytesStay p q := by
  have tells := h.tells f
  intro v
  cases v with
  | header =>
    left
    show headerBytes q.mrc = headerBytes p.mrc
    rw [Part.mrc_of_fixed f]
  | device =>
    obtain d | ⟨w, -⟩ := tells.device1
    · obtain ⟨c, l⟩ | w := tells.device2
      · exact .inl (deviceBytes_congr d c l (Part.deviceCount_of_fixed f))
      · exact .inr w
    · exact .inr w
  | summary =>
    left
    show wordBytes q.ae.summary = wordBytes p.ae.summary
    rw [Part.summary_of_fixed f]
  | error =>
    left
    show wordBytes q.ae.error = wordBytes p.ae.error
    rw [Part.error_of_fixed f]
  | status n =>
    refine (h.record n).imp (fun e => ?_) id
    show statusBytes _ _ _ _ = statusBytes _ _ _ _
    rw [Part.portCounts_of_fixed f, Part.lastCurrent_of_fixed f, h.shadows, statusBytes_shown e]
  | wheelCopy =>
    left
    show wheelBytes q.mo.wheel = wheelBytes p.mo.wheel
    rw [Part.wheel_of_fixed f]
  | results =>
    left
    show resultsBytes _ _ = resultsBytes _ _
    rw [Part.results_of_fixed f, Part.active_of_fixed f]
  | request w =>
    refine (h.request w).imp (fun e => ?_) id
    show completionImage _ = completionImage _
    rw [e]

theorem Announced.stays (h : p.ae.quiet = false → openLaw p → Announced p q) (f : q.fixed = p.fixed) (o : openLaw p → openLaw q) :
    Stays p q := fun loud k =>
  ⟨(Part.quiet_of_fixed f).trans loud, o k, (h loud k).tells f, (h loud k).bytes f⟩

/-- What the operations of the ports do is reported. -/
theorem Acts.stays {S : Port → Prop} (h : Acts S p q) : Stays p q := Announced.stays (fun loud o => h.announced loud o) h.fixed h.openLaw

theorem Acts.reports {S : Port → Prop} (h : Acts S p q) : Reports p q := h.stays.reports

theorem openLaw_of_ports (h : q.ports = p.ports) (o : openLaw p) : openLaw q := by
  intro n
  have port : q.port n = p.port n := by rw [Part.port, h]; rfl
  rw [port]
  exact o n

theorem stays_complete (w : ReqWord) (a : Result) (p : Part) : Stays p (complete w a p) :=
  Announced.stays (fun loud _ => announced_complete loud w a) (complete_fixed w a p) (openLaw_of_ports (complete_ports w a p))

theorem stays_reportDevice (b : Bool) (p : Part) : Stays p (reportDevice b p) :=
  Announced.stays (fun _ _ => announced_reportDevice b p) (reportDevice_fixed b p) (openLaw_of_ports (reportDevice_ports b p))

theorem stays_reportPort (n : Port) (b : Bool) (p : Part) : Stays p (reportPort n b p) :=
  Announced.stays (fun _ _ => announced_reportPort n b p) (reportPort_fixed n b p) (openLaw_of_ports (reportPort_ports n b p))

theorem announced_queueWriteBack (t : Target) (p : Part) : Announced p (queueWriteBack t p) :=
  (gains_queueWriteBack t p).announced (.queueWriteBack t p) (fun _ => .inl (queueWriteBack_request _ _ _))

theorem stays_queueWriteBack (t : Target) (p : Part) : Stays p (queueWriteBack t p) :=
  Announced.stays (fun _ _ => announced_queueWriteBack t p) (queueWriteBack_fixed t p) (openLaw_of_ports (queueWriteBack_ports t p))

end

end Sys2Proof.Machine
end

