-- ==== Sys2Proof/Proofs/WrittenAtEnd.lean ====
section
/-! The end of a command: what is pending stays so, or is granted with its content as it is then. -/

namespace Sys2Proof.Machine

section
variable {W M : Target → Prop} {p q r x : Part} {n : Port} {t : Target}

/-! ### A grant of a burst -/

theorem committed_of_ports (h : q.ports = p.ports) : committed q = committed p := by
  refine committed_congr fun n => ?_
  unfold closedGrant Part.port
  rw [h]

theorem captureMark_markOf (v : Target) (a : AreaEngine) (ne : v ≠ t) : markOf (captureMark t a) v = markOf a v := by
  cases t with
  | status n =>
    cases v with
    | status m => exact PerPort.at_put_ne (fun e => ne (by rw [e]))
    | _ => rfl
  | device =>
    cases v with
    | device => exact absurd rfl ne
    | _ => rfl
  | _ => rfl

theorem captureMark_writeBacks (t : Target) (a : AreaEngine) : (captureMark t a).writeBacks = a.writeBacks := by
  cases t <;> rfl

theorem captureMark_requests (t : Target) (a : AreaEngine) :
    (captureMark t a).device = a.device ∧ (captureMark t a).requests = a.requests := by
  cases t <;> exact ⟨rfl, rfl⟩

/-- What a grant does to the area engine: nothing to what it writes back, or a write-back is in flight with its record's content. -/
def AeGrant (p q : Part) : Prop :=
  (q.ae.writeBacks = p.ae.writeBacks ∧ (∀ v, markOf q.ae v = markOf p.ae v)) ∨
  (∃ t a, q.ae.writeBacks = p.ae.writeBacks.erase t ∧ (∀ v, v ≠ t → markOf q.ae v = markOf p.ae v) ∧
    q.mo.inFlight = some (.writeBack t a (targetBytes q t) (markOf p.ae t) false))

theorem grantWriteBack_bytes (t : Target) (p : Part) :
    targetBytes (grantWriteBack t p) t = targetBytes (p.mapAe (fun a => captureMark t { a with writeBacks := a.writeBacks.erase t })) t := by
  cases t with
  | status n =>
    have shadows : (grantWriteBack (.status n) p).ptp.shadows = p.ptp.shadows := (granted_keeps (.status n) p.ptp).2.2.2.2.1
    show statusBytes _ _ _ ((grantWriteBack (.status n) p).ptp.shadows.at n) = statusBytes _ _ _ (p.ptp.shadows.at n)
    rw [shadows]
    rfl
  | _ => rfl

theorem grantWriteBack_ae (t : Target) (p : Part) : AeGrant p (grantWriteBack t p) := by
  refine .inr ⟨t, areaBase p + t.offset, ?_, fun v ne => ?_, ?_⟩
  · exact captureMark_writeBacks t _
  · exact (captureMark_markOf v _ ne).trans (by cases v <;> rfl)
  · rw [grantWriteBack_bytes]
    rfl

theorem AeGrant.of_same (ae : q.ae = p.ae) : AeGrant p q := .inl ⟨by rw [ae], fun _ => by rw [ae]⟩

theorem grantBurst_ae (who : Participant) (p : Part) : AeGrant p (grantBurst who p) := by
  unfold grantBurst
  split
  · refine .of_same ?_
    unfold grantCp
    split <;> rfl
  · split
    · exact grantWriteBack_ae _ p
    · exact .inl ⟨rfl, fun v => by cases v <;> rfl⟩
    · exact .of_same rfl
  · refine .of_same ?_
    unfold grantPortBurst
    split
    · rfl
    · split <;> rfl

theorem AeGrant.mapMo {f : Orderer → Orderer} (h : AeGrant p q) (flight : (f q.mo).inFlight = q.mo.inFlight)
    (pending : (f q.mo).pendingWheel = q.mo.pendingWheel) (wheel : (f q.mo).wheel = q.mo.wheel) : AeGrant p (q.mapMo f) := by
  obtain h | ⟨t, a, writes, marks, e⟩ := h
  · exact .inl h
  · refine .inr ⟨t, a, writes, marks, ?_⟩
    have bytes : targetBytes (q.mapMo f) t = targetBytes q t := by
      cases t with
      | device =>
        refine deviceBytes_congr ?_ (committed_of_ports rfl) rfl rfl
        unfold Part.deviceView
        rw [Part.mapMo_mo, pending]
        rfl
      | wheelCopy =>
        show wheelBytes (f q.mo).wheel = wheelBytes q.mo.wheel
        rw [wheel]
      | _ => rfl
    rw [bytes, Part.mapMo_mo, flight]
    exact e

theorem grantAt_ae (i : Nat) (p : Part) : AeGrant p (grantAt i p) := by
  unfold grantAt
  split
  · exact .of_same rfl
  · exact (grantBurst_ae _ p).mapMo rfl rfl rfl

theorem grantBurst_shadows (who : Participant) (p : Part) : (grantBurst who p).ptp.shadows = p.ptp.shadows := by
  unfold grantBurst
  split
  · unfold grantCp
    split <;> rfl
  · split
    · exact (granted_keeps _ p.ptp).2.2.2.2.1
    · rfl
    · rfl
  · unfold grantPortBurst
    split
    · rfl
    · split <;> rfl

theorem grantAt_shadows (i : Nat) (p : Part) : (grantAt i p).ptp.shadows = p.ptp.shadows := by
  unfold grantAt
  split
  · rfl
  · exact grantBurst_shadows _ p

theorem grantAt_request (i : Nat) (p : Part) (w : ReqWord) : (grantAt i p).request w = p.request w := by
  unfold grantAt
  split
  · rfl
  · exact grantBurst_request _ p w

theorem ceiling_of_blocks (bu : q.bu = p.bu) (ms : q.ms = p.ms) (mrc : q.mrc = p.mrc) : ceiling q = ceiling p := by
  unfold ceiling ceilingStep
  rw [bu, ms, mrc]

theorem grantAt_unreported (i : Nat) (p : Part) : Unreported p (grantAt i p) := by
  obtain ⟨ports, bu, ms, -, mrc⟩ := grantAt_stay i p
  obtain ⟨wheel, pending⟩ := grantAt_wheels i p
  obtain ⟨-, -, -, -, summary, error, -, current⟩ := grantAt_bus i p
  refine ⟨fun n => ?_, ports, ?_, ⟨committed_of_ports ports, ceiling_of_blocks bu ms mrc⟩, wheel, ?_, ?_,
    fun w => .inr (by rw [grantAt_request])⟩
  · unfold Part.shownAt
    rw [Part.port, ports, current, grantAt_shadows]
    rfl
  · unfold Part.deviceView
    rw [bu, mrc, pending, ms]
  · rw [summary]; exact not_rises_self _
  · rw [error]; exact not_rises_self _

/-! ### The end of the command -/

/-- A command has come to `q`: its reports pend, or a burst has been granted, the memory port having been free. -/
def Outcome (p q : Part) : Prop :=
  q.ae.quiet = false ∧ openLaw q ∧
  (Tells (pends q) (pendsMarked q) p q ∨ (q.mo.inFlight ≠ none ∧
    Tells (fun v => writtenSoon v (p.mo.inFlight = none) q) (fun v => markedSoon v (p.mo.inFlight = none) q) p q))

theorem pends_written {free : Prop} {v : Target} (h : pends q v) : writtenSoon v free q := .inl h

theorem pends_marked {free : Prop} {v : Target} (h : pendsMarked q v) : markedSoon v free q := .inl h

/-- What is written or marked soon stays so where every change is reported. -/
theorem writtenSoon_stays {free : Prop} {v : Target} (h : writtenSoon v free q) (tells : Tells (pends r) (pendsMarked r) q r)
    (bytes : BytesStay q r) : writtenSoon v free r := by
  obtain w | ⟨f, a, k, e⟩ := h
  · exact .inl (tells.writes v w)
  · obtain b | b := bytes v
    · exact .inr ⟨f, a, k, by rw [b]; exact tells.flight _ _ _ _ e⟩
    · exact .inl b

theorem markedSoon_stays {free : Prop} {v : Target} (h : markedSoon v free q) (tells : Tells (pends r) (pendsMarked r) q r) :
    markedSoon v free r := by
  obtain ⟨w, k⟩ | ⟨f, a, b, e⟩ := h
  · exact .inl (tells.marks v w k)
  · exact .inr ⟨f, a, b, tells.flight _ _ _ _ e⟩

theorem Outcome.stays (h : Outcome p q) (g : Stays q r) : Outcome p r := by
  obtain ⟨loud, o, tells | ⟨busy, tells⟩⟩ := h
  · obtain ⟨loud', o', tells', -⟩ := g loud o
    exact ⟨loud', o', .inl (tells.after tells')⟩
  · obtain ⟨loud', o', tells', bytes⟩ := g loud o
    refine ⟨loud', o', .inr ⟨fun e => busy (tells'.busy e), ?_⟩⟩
    exact tells.next (tells'.imp (fun _ => pends_written) (fun _ => pends_marked))
      (fun _ w => writtenSoon_stays w tells' bytes) (fun _ m => markedSoon_stays m tells')

/-- A grant decision's burst. -/
theorem Outcome.grantAt (h : Outcome p q) (free : q.mo.inFlight = none) (i : Nat) : Outcome p (grantAt i q) := by
  obtain ⟨loud, o, tells | ⟨busy, -⟩⟩ := h
  · have same := grantAt_unreported i q
    have noFlight (v : Target) (a : Nat) (b : List Byte) (k : Bool) (e : q.mo.inFlight = some (.writeBack v a b k false)) :
        (Machine.grantAt i q).mo.inFlight = some (.writeBack v a b k false) := by rw [free] at e; cases e
    refine ⟨(grantAt_bus i q).2.2.2.2.2.2.1.trans loud, openLaw_of_ports same.ports o, ?_⟩
    obtain ⟨writes, marks⟩ | ⟨t, a, writes, marks, flight⟩ := grantAt_ae i q
    · refine .inl (tells.after (same.tells (fun v k => ?_) (fun v k m => ⟨?_, ?_⟩) noFlight (fun _ => free)))
      · rw [pends, writes]; exact k
      · rw [writes]; exact k
      · rw [marks]; exact m
    · have was : p.mo.inFlight = none := tells.busy free
      refine .inr ⟨by rw [flight]; simp, tells.after (same.tells (fun v k => ?_) (fun v k m => ?_) noFlight (fun _ => free))⟩
      · by_cases e : v = t
        · subst e
          exact .inr ⟨was, a, _, flight⟩
        · refine .inl ?_
          rw [writes]
          exact (List.mem_erase_of_ne e).2 k
      · by_cases e : v = t
        · subst e
          rw [m] at flight
          exact .inr ⟨was, a, _, flight⟩
        · refine .inl ⟨?_, by rw [marks v e]; exact m⟩
          rw [writes]
          exact (List.mem_erase_of_ne e).2 k
  · exact absurd free busy

/-! ### A change reported for the device status -/

/-- The part differs in fields that the device status alone shows, and in what no record shows. -/
structure Beside (p q : Part) : Prop where
  ports : q.ports = p.ports
  shadows : q.ptp.shadows = p.ptp.shadows
  flight : q.mo.inFlight = p.mo.inFlight
  ae : q.ae = { p.ae with writeBacks := q.ae.writeBacks }
  writes : ∀ v ∈ p.ae.writeBacks, v ∈ q.ae.writeBacks
  wheel : q.mo.wheel = p.mo.wheel ∨ .wheelCopy ∈ q.ae.writeBacks

theorem Beside.request (h : Beside p q) (w : ReqWord) : q.request w = p.request w := by
  cases w <;> (unfold Part.request; rw [h.ae])

theorem Beside.port (h : Beside p q) (n : Port) : q.port n = p.port n := by rw [Part.port, h.ports]; rfl

theorem Beside.markOf (h : Beside p q) (v : Target) : markOf q.ae v = Machine.markOf p.ae v := by
  rw [h.ae]
  cases v <;> rfl

theorem reportDevice_ae (b : Bool) (p : Part) : (reportDevice b p).ae =
    { p.ae with writeBacks := (reportDevice b p).ae.writeBacks, deviceMark := (reportDevice b p).ae.deviceMark } := by
  rw [reportDevice_eq, queueWriteBack_ae, markedDevice_ae]

theorem Beside.tells (h : Beside p q) (loud : p.ae.quiet = false) :
    Tells (pends (reportDevice true q)) (pendsMarked (reportDevice true q)) p (reportDevice true q) := by
  have gains := gains_reportDevice true q
  have loud' : q.ae.quiet = false := by rw [h.ae]; exact loud
  have device := gains.gained loud'
  have ae := reportDevice_ae true q
  refine ⟨fun v k => gains.writes v (h.writes v k), fun v k m => ⟨gains.writes v (h.writes v k), gains.marks v ?_⟩, fun n => .inl ?_,
    fun n c => ?_, .inr ⟨device, device, reportDevice_marks q⟩, .inr device, ?_, fun c => ?_, fun c => ?_, fun w => .inr (.inl ?_),
    fun v a b k e => ?_, fun e => ?_⟩
  · rw [h.markOf]; exact m
  · unfold Part.shownAt
    rw [reportDevice_port, h.port, reportDevice_ptp, h.shadows, ae, h.ae]
  · rw [reportDevice_port, h.port] at c
    exact absurd c (not_changesMarked_self _)
  · rw [reportDevice_mo]
    exact h.wheel.imp id (gains.writes _)
  · rw [ae, h.ae] at c
    exact absurd c (not_rises_self _)
  · rw [ae, h.ae] at c
    exact absurd c (not_rises_self _)
  · rw [reportDevice_request, h.request]
  · rw [reportDevice_mo, h.flight]; exact e
  · rw [reportDevice_mo, h.flight] at e; exact e

theorem Beside.loud (h : Beside p q) (loud : p.ae.quiet = false) (b : Bool) : (reportDevice b q).ae.quiet = false := by
  rw [(gains_reportDevice b q).quiet, h.ae]
  exact loud

theorem Beside.openLaw (h : Beside p q) (o : openLaw p) (b : Bool) : Machine.openLaw (reportDevice b q) :=
  openLaw_of_ports ((reportDevice_ports b q).trans h.ports) o

/-- A change of the device status, reported with its mark (R172). -/
theorem Beside.reports (h : Beside p q) : Reports p (reportDevice true q) := fun loud o =>
  ⟨h.loud loud true, h.openLaw o true, h.tells loud⟩

theorem Beside.stays (h : Beside p q) (mrc : q.mrc = p.mrc) (ms : q.ms = p.ms) : Stays p (reportDevice true q) := fun loud o => by
  refine ⟨h.loud loud true, h.openLaw o true, h.tells loud, fun v => ?_⟩
  have gains := gains_reportDevice true q
  have ae := reportDevice_ae true q
  cases v with
  | header =>
    left
    show headerBytes (reportDevice true q).mrc = headerBytes p.mrc
    rw [reportDevice_mrc, mrc]
  | device => exact .inr (gains.gained (by rw [h.ae]; exact loud))
  | summary =>
    left
    show wordBytes (reportDevice true q).ae.summary = wordBytes p.ae.summary
    rw [ae, h.ae]
  | error =>
    left
    show wordBytes (reportDevice true q).ae.error = wordBytes p.ae.error
    rw [ae, h.ae]
  | status n =>
    left
    show statusBytes _ _ _ _ = statusBytes _ _ _ _
    rw [reportDevice_port, h.port, reportDevice_ptp, h.shadows, ae, h.ae]
  | wheelCopy =>
    refine h.wheel.imp (fun e => ?_) (gains.writes _)
    show wheelBytes (reportDevice true q).mo.wheel = wheelBytes p.mo.wheel
    rw [reportDevice_mo, e]
  | results =>
    left
    show resultsBytes _ _ = resultsBytes _ _
    rw [reportDevice_ms, ms]
  | request w =>
    left
    show completionImage _ = completionImage _
    rw [reportDevice_request, h.request]

/-! ### The swap of a wheel -/

theorem beside_mapMo {f : Orderer → Orderer} (flight : (f p.mo).inFlight = p.mo.inFlight) (wheel : (f p.mo).wheel = p.mo.wheel) :
    Beside p (p.mapMo f) := ⟨rfl, rfl, flight, rfl, fun _ => id, .inl wheel⟩

theorem stays_wheelIn (w : List Phase) (p : Part) : Stays p (wheelIn w p) := fun loud o => by
  have gains := gains_queueWriteBack .wheelCopy (p.mapMo (fun o => { o with wheel := w, pendingWheel := none }))
  refine Beside.stays ⟨?_, ?_, ?_, ?_, gains.writes, .inr (gains.gained loud)⟩ ?_ ?_ loud o
  · exact queueWriteBack_ports _ _
  · rw [queueWriteBack_ptp]; rfl
  · rw [queueWriteBack_mo]; rfl
  · rw [queueWriteBack_ae]; rfl
  · exact queueWriteBack_mrc _ _
  · exact queueWriteBack_ms _ _

theorem stays_retests (l : List Port) (p : Part) : Stays p (l.foldl (fun p n => retest n p) p) :=
  (Acts.foldl (S := fun _ => True) .refl (fun _ _ _ h => h.retest trivial) l (fun _ _ => trivial)).stays

theorem stays_budgetAfter (b : Bool) (p : Part) : Stays p (budgetAfter b p) :=
  (Acts.budgetAfter (S := fun _ => True) .refl (fun _ _ => trivial) b).stays

theorem stays_swapWheel (p : Part) : Stays p (swapWheel p) := by
  obtain ⟨-, e⟩ | ⟨w, -, -, e⟩ | ⟨w, -, -, e⟩ := swapWheel_cases p <;> rw [e]
  · exact .refl p
  · exact (((stays_wheelIn w p).trans (stays_retests allPorts _)).trans (stays_budgetAfter true _)).trans (stays_complete _ _ _)
  · exact ((beside_mapMo rfl rfl).stays rfl rfl).trans (stays_complete _ _ _)

/-! ### The end of a command -/

theorem Outcome.moDecision (h : Outcome p q) : Outcome p (moDecision q) := by
  obtain e | ⟨i, free, -, e⟩ := moDecision_cases q <;> rw [e]
  · exact h
  · have granted := h.grantAt free i
    obtain s | s := swapAfter_cases i q.mo.pointer (Machine.grantAt i q) <;> rw [s]
    · exact granted.stays (stays_swapWheel _)
    · exact granted

theorem reports_adoptSweep (p : Part) : Reports p (adoptSweep p) := by
  unfold adoptSweep
  split
  · exact Beside.reports ⟨rfl, rfl, rfl, rfl, fun _ => id, .inl rfl⟩
  · exact .refl p

/-- What is reported in a command is written back, or will be (R166). -/
theorem outcome_settle (loud : p.ae.quiet = false) (o : openLaw p) : Outcome p (settle p) := by
  have swept : Outcome p (adoptSweep p) := by
    obtain ⟨loud', o', tells⟩ := reports_adoptSweep p loud o
    exact ⟨loud', o', .inl tells⟩
  rw [settle]
  obtain ⟨-, e⟩ | ⟨-, e⟩ := idleSwap_cases (Machine.moDecision (adoptSweep p)) <;> rw [e]
  · exact (swept.moDecision.stays (stays_swapWheel _)).moDecision
  · exact swept.moDecision

theorem settle_tells (loud : p.ae.quiet = false) (o : openLaw p) :
    Tells (fun v => writtenSoon v (p.mo.inFlight = none) (settle p)) (fun v => markedSoon v (p.mo.inFlight = none) (settle p)) p
      (settle p) := by
  obtain ⟨-, -, tells | ⟨-, tells⟩⟩ := outcome_settle loud o
  · exact tells.imp (fun _ => pends_written) (fun _ => pends_marked)
  · exact tells

/-- An event and the end of its command. -/
theorem Reports.settled (h : Reports p q) (loud : p.ae.quiet = false) (o : openLaw p) :
    Tells (fun v => writtenSoon v (p.mo.inFlight = none) (settle q)) (fun v => markedSoon v (p.mo.inFlight = none) (settle q)) p
      (settle q) := by
  obtain ⟨loud', o', tells⟩ := h loud o
  refine tells.after ((settle_tells loud' o').imp (fun v => ?_) (fun v => ?_))
  · exact Or.imp id (fun ⟨f, e⟩ => ⟨tells.busy f, e⟩)
  · exact Or.imp id (fun ⟨f, e⟩ => ⟨tells.busy f, e⟩)

end

end Sys2Proof.Machine
end

