-- ==== Sys2Proof/Proofs/ReportedCommands.lean ====
section
/-! Every command but a reset reports what it changes: the statement about the reported changes, O46. -/

namespace Sys2Proof.Machine

section
variable {p q x : Part} {n : Port}

/-! ### Changes that no record shows -/

theorem Unreported.reports (h : Unreported p q) (quiet : q.ae.quiet = p.ae.quiet) (writes : ∀ v ∈ p.ae.writeBacks, v ∈ q.ae.writeBacks)
    (marks : ∀ v, markOf p.ae v = true → markOf q.ae v = true)
    (flight : ∀ v a b k, p.mo.inFlight = some (.writeBack v a b k false) → q.mo.inFlight = some (.writeBack v a b k false))
    (busy : q.mo.inFlight = none → p.mo.inFlight = none) : Reports p q := fun loud o =>
  ⟨quiet.trans loud, openLaw_of_ports h.ports o, h.tells writes (fun v k m => ⟨writes v k, marks v m⟩) flight busy⟩

/-- The area engine's lists, counts and marks apart, and what steers the blocks, the part is as it was. -/
structure Silent (p q : Part) : Prop where
  ports : q.ports = p.ports
  bu : q.bu = p.bu
  standby : q.mrc.standby = p.mrc.standby
  adopting : q.mrc.adoptionTimer = p.mrc.adoptionTimer
  wheel : q.mo.wheel = p.mo.wheel
  pendingWheel : q.mo.pendingWheel = p.mo.pendingWheel
  sequence : q.ms.pending = p.ms.pending
  voltage : q.ms.voltageStep = p.ms.voltageStep
  temperature : q.ms.temperatureStep = p.ms.temperatureStep
  mode : q.ms.mode = p.ms.mode
  shadows : q.ptp.shadows = p.ptp.shadows

theorem Silent.unreported (h : Silent p q) (current : q.ae.lastCurrent = p.ae.lastCurrent) (summary : ¬rises p.ae.summary q.ae.summary)
    (error : ¬rises p.ae.error q.ae.error)
    (request : ∀ w, (q.request w).completion = none ∨ (q.request w).completion = (p.request w).completion) : Unreported p q where
  status n := by
    unfold Part.shownAt
    rw [Part.port, h.ports, current, h.shadows]
    rfl
  ports := h.ports
  device1 := by
    unfold Part.deviceView
    rw [h.bu, h.standby, h.adopting, h.pendingWheel, h.sequence, h.voltage, h.temperature, h.mode]
  device2 := by
    refine ⟨committed_of_ports h.ports, ?_⟩
    unfold ceiling ceilingStep
    rw [h.bu, h.standby, h.voltage, h.temperature]
  wheel := h.wheel
  summary := summary
  error := error
  request := request

/-- With the area engine as it was. -/
theorem Silent.reports (h : Silent p q) (ae : q.ae = p.ae)
    (flight : ∀ v a b k, p.mo.inFlight = some (.writeBack v a b k false) → q.mo.inFlight = some (.writeBack v a b k false))
    (busy : q.mo.inFlight = none → p.mo.inFlight = none) : Reports p q := by
  refine (h.unreported (by rw [ae]) ?_ ?_ (fun w => .inr ?_)).reports (by rw [ae]) (by rw [ae]; exact fun _ => id)
    (by rw [ae]; exact fun _ => id) flight busy
  · rw [ae]; exact not_rises_self _
  · rw [ae]; exact not_rises_self _
  · cases w <;> (unfold Part.request; rw [ae])

theorem reports_mapMs {f : Sequencer → Sequencer} (sequence : (f p.ms).pending = p.ms.pending)
    (voltage : (f p.ms).voltageStep = p.ms.voltageStep) (temperature : (f p.ms).temperatureStep = p.ms.temperatureStep)
    (mode : (f p.ms).mode = p.ms.mode) : Reports p (p.mapMs f) :=
  Silent.reports ⟨rfl, rfl, rfl, rfl, rfl, rfl, sequence, voltage, temperature, mode, rfl⟩ rfl (fun _ _ _ _ => id) id

theorem reports_mapMrc {f : ModeReset → ModeReset} (standby : (f p.mrc).standby = p.mrc.standby)
    (adopting : (f p.mrc).adoptionTimer = p.mrc.adoptionTimer) : Reports p (p.mapMrc f) :=
  Silent.reports ⟨rfl, rfl, standby, adopting, rfl, rfl, rfl, rfl, rfl, rfl, rfl⟩ rfl (fun _ _ _ _ => id) id

theorem reports_mapPtp {f : PassThrough → PassThrough} (shadows : (f p.ptp).shadows = p.ptp.shadows) : Reports p (p.mapPtp f) :=
  Silent.reports ⟨rfl, rfl, rfl, rfl, rfl, rfl, rfl, rfl, rfl, rfl, shadows⟩ rfl (fun _ _ _ _ => id) id

theorem reports_mapMo {f : Orderer → Orderer} (wheel : (f p.mo).wheel = p.mo.wheel) (pending : (f p.mo).pendingWheel = p.mo.pendingWheel)
    (flight : (f p.mo).inFlight = p.mo.inFlight) : Reports p (p.mapMo f) :=
  Silent.reports ⟨rfl, rfl, rfl, rfl, wheel, pending, rfl, rfl, rfl, rfl, rfl⟩ rfl
    (fun _ _ _ _ e => by rw [Part.mapMo_mo, flight]; exact e) (fun e => by rw [Part.mapMo_mo, flight] at e; exact e)

/-! ### Changes that one record shows -/

/-- What changed is shown by the record `t` alone, and the area engine keeps what is pending. -/
structure ShownBy (t : Target) (p q : Part) : Prop where
  ports : q.ports = p.ports
  status : ∀ n, q.shownAt n = p.shownAt n ∨ t = .status n
  device : q.deviceView = p.deviceView
  ceiling : ceiling q = ceiling p ∨ t = .device
  wheel : q.mo.wheel = p.mo.wheel
  summary : ¬rises p.ae.summary q.ae.summary ∨ t = .summary
  error : ¬rises p.ae.error q.ae.error ∨ t = .error
  request : ∀ w, (q.request w).completion = none ∨ (q.request w).completion = (p.request w).completion
  quiet : q.ae.quiet = p.ae.quiet
  writes : ∀ v ∈ p.ae.writeBacks, v ∈ q.ae.writeBacks
  marks : ∀ v, markOf p.ae v = true → markOf q.ae v = true
  flight : q.mo.inFlight = p.mo.inFlight

/-- A change with the report of its record. -/
theorem ShownBy.reports {t : Target} (h : ShownBy t p q) : Reports p (queueWriteBack t q) := fun loud o => by
  have gains := gains_queueWriteBack t q
  have ae := queueWriteBack_ae t q
  have loud' : q.ae.quiet = false := h.quiet.trans loud
  have gained := gains.gained loud'
  have ports : (queueWriteBack t q).ports = p.ports := (queueWriteBack_ports t q).trans h.ports
  have port (n : Port) : (queueWriteBack t q).port n = p.port n := by rw [Part.port, ports]; rfl
  refine ⟨gains.quiet.trans loud', openLaw_of_ports ports o, fun v k => gains.writes v (h.writes v k),
    fun v k m => ⟨gains.writes v (h.writes v k), gains.marks v (h.marks v m)⟩, fun n => ?_, fun n c => ?_, .inl ?_,
    h.ceiling.imp (fun e => ⟨committed_of_ports ports, (ceiling_of_blocks ?_ ?_ ?_).trans e⟩) (fun e => by rw [← e]; exact gained), .inl ?_, fun c => ?_, fun c => ?_,
    fun w => ?_, fun v a b k e => ?_, fun e => ?_⟩
  · refine (h.status n).imp (fun e => ?_) (fun e => by rw [← e]; exact gained)
    rw [← e]
    unfold Part.shownAt
    rw [queueWriteBack_port, ae, queueWriteBack_ptp]
  · rw [port] at c
    exact absurd c (not_changesMarked_self _)
  · rw [← h.device]
    unfold Part.deviceView
    rw [queueWriteBack_bu, queueWriteBack_mrc, queueWriteBack_mo, queueWriteBack_ms]
  · exact queueWriteBack_bu _ _
  · exact queueWriteBack_ms _ _
  · exact queueWriteBack_mrc _ _
  · rw [queueWriteBack_mo]; exact h.wheel
  · rw [ae] at c
    exact h.summary.elim (absurd c) (fun e => by rw [← e]; exact gained)
  · rw [ae] at c
    exact h.error.elim (absurd c) (fun e => by rw [← e]; exact gained)
  · rw [queueWriteBack_request]
    exact (h.request w).imp id .inl
  · rw [queueWriteBack_mo, h.flight]; exact e
  · rw [queueWriteBack_mo, h.flight] at e; exact e

/-- A change of the area engine's words, with the report of the word that gains a bit. -/
theorem shownBy_words {t : Target} {f : AreaEngine → AreaEngine} (p : Part)
    (same : f p.ae = { p.ae with summary := (f p.ae).summary, error := (f p.ae).error })
    (summary : ¬rises p.ae.summary (f p.ae).summary ∨ t = .summary) (error : ¬rises p.ae.error (f p.ae).error ∨ t = .error) :
    ShownBy t p (p.mapAe f) := by
  have ae : (p.mapAe f).ae = { p.ae with summary := (f p.ae).summary, error := (f p.ae).error } := same
  refine ⟨rfl, fun n => .inl ?_, rfl, .inl rfl, rfl, summary, error, fun w => .inr ?_, ?_, fun v k => ?_, fun v k => ?_, rfl⟩
  · unfold Part.shownAt
    rw [ae]
    rfl
  · cases w <;> (unfold Part.request; rw [ae])
  · rw [ae]
  · rw [ae]; exact k
  · rw [ae]
    cases v <;> exact k

theorem reports_setSummary (m : Word) (p : Part) : Reports p (setSummary m p) := by
  unfold setSummary
  split
  · exact .refl p
  · exact (shownBy_words p rfl (.inr rfl) (.inl (not_rises_self _))).reports

theorem reports_reportError (b : ErrorBit) (p : Part) : Reports p (reportError b p) := by
  unfold reportError
  split
  · exact .refl p
  · exact (shownBy_words p rfl (.inl (not_rises_self _)) (.inr rfl)).reports.trans (reports_setSummary _ _)

/-- A sample kept as the port's last current. -/
theorem reports_lastCurrent (n : Port) (sample : Nat) (p : Part) :
    Reports p (reportPort n false (p.mapAe (fun a => { a with lastCurrent := a.lastCurrent.put n sample }))) := by
  rw [reportPort_eq]
  refine ShownBy.reports ⟨rfl, fun m => ?_, rfl, .inl rfl, rfl, .inl (not_rises_self _), .inl (not_rises_self _), fun w => .inr ?_, rfl,
    fun _ => id, fun v k => ?_, rfl⟩
  · by_cases e : n = m
    · exact .inr (by rw [e])
    · refine .inl ?_
      show ((p.port m).shown, (p.ae.lastCurrent.put n sample).at m, p.ptp.shadows.at m) = p.shownAt m
      rw [PerPort.at_put_ne e]
      rfl
  · cases w <;> rfl
  · cases v <;> exact k

/-- A landed cue shown as the port's cue shadow (R157). -/
theorem reports_shadow (n : Port) (v : Word) (p : Part) :
    Reports p (reportPort n false (p.mapPtp (fun t => { t with shadows := t.shadows.put n (some v) }))) := by
  rw [reportPort_eq]
  refine ShownBy.reports ⟨rfl, fun m => ?_, rfl, .inl rfl, rfl, .inl (not_rises_self _), .inl (not_rises_self _), fun w => .inr ?_, rfl,
    fun _ => id, fun v k => ?_, rfl⟩
  · by_cases e : n = m
    · exact .inr (by rw [e])
    · refine .inl ?_
      show ((p.port m).shown, p.ae.lastCurrent.at m, (p.ptp.shadows.put n (some v)).at m) = p.shownAt m
      rw [PerPort.at_put_ne e]
      rfl
  · cases w <;> rfl
  · cases v <;> exact k

/-- The merge clear of a word only lowers it. -/
theorem not_rises_cleared (a b : Word) : ¬rises a (a &&& b) := by
  rw [rises_iff]
  rintro ⟨i, -, x, y⟩
  rw [BitVec.getLsbD_and, y] at x
  cases x

/-! ### The on-time -/

theorem announced_timed (loud : p.ae.quiet = false) {f : PortRecord → PortRecord}
    (k : ∀ r, (f r).state = r.state ∧ (f r).grant = r.grant ∧ (f r).identity = r.identity) :
    Announced p (reportPort n false (updPort n f p)) := by
  obtain ⟨state, grant, identity⟩ := k (p.port n)
  obtain ⟨quiet, writes, marks, reported, marked⟩ := updPort_gains (n := n) loud f
  have gains := gains_reportPort n false (updPort n f p)
  refine ⟨fun v h => gains.writes _ (writes v h), fun v h => gains.marks _ (marks v h), fun m => ?_, fun m c => ?_,
    .inl (by rw [reportPort_bu, updPort_bu]; exact ⟨rfl, rfl⟩), .inl ?_,
    fun w => .inl (by rw [reportPort_request, updPort_request]), by rw [reportPort_ptp, updPort_ptp],
    fun _ _ _ _ _ h => by rw [reportPort_mo, updPort_mo]; exact h⟩
  · by_cases e : n = m
    · subst e; exact .inr (gains.gained (quiet.trans loud))
    · exact .inl (by rw [reportPort_port, updPort_port_ne e])
  · rw [reportPort_port] at c
    by_cases e : n = m
    · subst e
      rw [updPort_port_self] at c
      exact ⟨gains.gained (quiet.trans loud), gains.marks _ (marked (marked_of_changes c identity))⟩
    · rw [updPort_port_ne e] at c
      exact absurd c (not_changesMarked_self _)
  · refine (committed_congr fun m => ?_).trans (committed_updPort state grant)
    unfold closedGrant
    rw [reportPort_port]

/-- The on-time is reported by its own rule (R6). -/
theorem reports_timed {f : PortRecord → PortRecord} (k : ∀ r, (f r).state = r.state ∧ (f r).grant = r.grant ∧ (f r).identity = r.identity)
    (p : Part) : Reports p (reportPort n false (updPort n f p)) := by
  refine (Announced.stays (fun loud _ => announced_timed loud k) ?_ (fun o => ?_)).reports
  · exact (reportPort_fixed _ _ _).trans (updPort_fixed _ _ _)
  · exact openLaw_of_ports (reportPort_ports _ _ _) (openLaw_updPort o (fun r => ⟨(k r).1, (k r).2.1⟩))

end

end Sys2Proof.Machine
end

