-- ==== Sys2Proof/Proofs/ReportedBlocks.lean ====
section
/-! Every operation of the blocks reports what it changes. -/

namespace Sys2Proof.Machine

section
variable {p q : Part} {n : Port}

theorem Reports.event {f : Part → Part} (h : Reports p (f p)) : Reports p (event f p) := h.trans (stays_budgetAfter _ _).reports

theorem reports_foldl {f : Part → Port → Part} (step : ∀ p n, Reports p (f p n)) (l : List Port) (p : Part) : Reports p (l.foldl f p) := by
  induction l generalizing p with
  | nil => exact .refl p
  | cons n rest ih => exact (step p n).trans (ih _)

theorem reports_complete (w : ReqWord) (a : Result) (p : Part) : Reports p (complete w a p) := (stays_complete w a p).reports

theorem Reports.complete (h : Reports p q) (w : ReqWord) (a : Result) : Reports p (complete w a q) := h.trans (reports_complete w a q)

/-- What an operation of a port does is reported. -/
theorem reports_acts (h : Acts (fun _ => True) p q) : Reports p q := h.reports

/-- A change of a request's state that hands over no completion. -/
theorem reports_setRequest (w : ReqWord) (r : Request) (p : Part)
    (completion : r.completion = none ∨ r.completion = (p.request w).completion) : Reports p (p.setRequest w r) := by
  have plain : Silent p (p.setRequest w r) := by cases w <;> exact ⟨rfl, rfl, rfl, rfl, rfl, rfl, rfl, rfl, rfl, rfl, rfl⟩
  have ae := setRequest_ae w r p
  have mo : (p.setRequest w r).mo = p.mo := by cases w <;> rfl
  refine (plain.unreported (by rw [ae]) ?_ ?_ (fun v => ?_)).reports (by rw [ae]) ?_ (fun v k => ?_) ?_ ?_
  · rw [ae]; exact not_rises_self _
  · rw [ae]; exact not_rises_self _
  · rw [setRequest_request]
    split
    next e => exact e ▸ completion
    next => exact .inr rfl
  · rw [ae]; exact fun _ => id
  · rw [ae]
    cases v <;> exact k
  · rw [mo]; exact fun _ _ _ _ => id
  · rw [mo]; exact id

/-- A change of the order of the pending write-backs, or of the copy reads. -/
theorem reports_lists {f : AreaEngine → AreaEngine} (same : f p.ae = { p.ae with writeBacks := (f p.ae).writeBacks, readList := (f p.ae).readList })
    (writes : ∀ v ∈ p.ae.writeBacks, v ∈ (f p.ae).writeBacks) : Reports p (p.mapAe f) := by
  have ae : (p.mapAe f).ae = { p.ae with writeBacks := (f p.ae).writeBacks, readList := (f p.ae).readList } := same
  have plain : Silent p (p.mapAe f) := ⟨rfl, rfl, rfl, rfl, rfl, rfl, rfl, rfl, rfl, rfl, rfl⟩
  refine (plain.unreported (by rw [ae]) ?_ ?_ (fun w => .inr ?_)).reports (by rw [ae]) writes (fun v k => ?_) (fun _ _ _ _ => id) id
  · rw [ae]; exact not_rises_self _
  · rw [ae]; exact not_rises_self _
  · cases w <;> (unfold Part.request; rw [ae])
  · rw [ae]
    cases v <;> exact k

/-- A merge clear (R151). -/
theorem reports_lowered {f : AreaEngine → AreaEngine}
    (same : f p.ae = { p.ae with summary := (f p.ae).summary, error := (f p.ae).error })
    (summary : ¬rises p.ae.summary (f p.ae).summary) (error : ¬rises p.ae.error (f p.ae).error) : Reports p (p.mapAe f) := by
  have h := shownBy_words (t := .header) p same (.inl summary) (.inl error)
  exact Unreported.reports ⟨fun n => (h.status n).resolve_right (by simp), h.ports, h.device, ⟨committed_of_ports h.ports,
    h.ceiling.resolve_right (by simp)⟩, h.wheel, summary, error, h.request⟩ h.quiet h.writes h.marks (fun _ _ _ _ => id) id

/-! ### The budget unit -/

theorem reports_mapBu {f : Budget → Budget} (plan : (f p.bu).plan = p.bu.plan) (isOver : (f p.bu).isOver = p.bu.isOver)
    (short : (f p.bu).shortfall = p.bu.shortfall) : Reports p (p.mapBu f) := by
  refine Unreported.reports ⟨fun _ => rfl, rfl, ?_, ⟨rfl, ?_⟩, rfl, not_rises_self _, not_rises_self _, fun _ => .inr rfl⟩ rfl
    (fun _ => id) (fun _ => id) (fun _ _ _ _ => id) id
  · unfold Part.deviceView
    rw [Part.mapBu_bu, isOver, short]
    rfl
  · unfold ceiling
    rw [Part.mapBu_bu, plan]
    rfl

/-- A device plan stored: a new ceiling is reported for device status 2 (R42). -/
theorem reports_storeDevicePlan (d : DevicePlan) (p : Part) : Reports p (storeDevicePlan d p) := by
  have same : ∀ w, ((p.mapBu (fun b => { b with plan := d })).request w).completion = none ∨
      ((p.mapBu (fun b => { b with plan := d })).request w).completion = (p.request w).completion := fun _ => .inr rfl
  unfold storeDevicePlan
  dsimp only
  split
  next e =>
    exact Unreported.reports ⟨fun _ => rfl, rfl, rfl, ⟨rfl, e⟩, rfl, not_rises_self _, not_rises_self _, same⟩ rfl
      (fun _ => id) (fun _ => id) (fun _ _ _ _ => id) id
  next => exact ShownBy.reports ⟨rfl, fun _ => .inl rfl, rfl, .inr rfl, rfl, .inl (not_rises_self _), .inl (not_rises_self _), same, rfl,
      fun _ => id, fun _ => id, rfl⟩

theorem reports_deliverDevicePlan (d : DevicePlan) (p : Part) : Reports p (deliverDevicePlan d p) := by
  unfold deliverDevicePlan
  split
  · exact (reports_storeDevicePlan d p).complete _ _
  · exact reports_complete _ _ p

/-! ### The monitor sequencer -/

/-- A change of the monitor sequencer, reported for the device status. -/
theorem reports_sequencer (f : Sequencer → Sequencer) (p : Part) : Reports p (reportDevice true (p.mapMs f)) :=
  Beside.reports ⟨rfl, rfl, rfl, rfl, fun _ => id, .inl rfl⟩

theorem reports_keepResult (x : Int) (p : Part) : Reports p (keepResult x p) := by
  unfold keepResult
  split
  · exact .refl p
  · exact reports_mapMs rfl rfl rfl rfl

theorem reports_setMode (mode : SeqMode) (p : Part) : Reports p (setMode mode p) := by
  unfold setMode
  split
  · exact .refl p
  · dsimp only
    split
    · exact (reports_sequencer _ p).trans (stays_budgetAfter _ _).reports
    · exact reports_sequencer _ p

theorem Reports.setMode (h : Reports p q) (mode : SeqMode) : Reports p (setMode mode q) := h.trans (reports_setMode mode q)

theorem reports_beginRound (p : Part) : Reports p (beginRound p) := reports_mapMs rfl rfl rfl rfl

theorem reports_reportResults (p : Part) : Reports p (reportResults p) := (stays_queueWriteBack .results p).reports

theorem reports_endCommand (p : Part) : Reports p (endCommand p) :=
  Reports.complete (Reports.trans (reports_mapMs rfl rfl rfl rfl) (reports_reportResults _)) _ _

theorem Reports.endCommand (h : Reports p q) : Reports p (endCommand q) := h.trans (reports_endCommand q)

theorem reports_swapSequence (p : Part) : Reports p (swapSequence p) := by
  unfold swapSequence
  split
  · exact .refl p
  · split
    · exact ((reports_sequencer _ p).trans (stays_budgetAfter _ _).reports).complete _ _
    · exact (reports_sequencer _ p).complete _ _

theorem reports_deliverSequence (s : Option Sequence) (p : Part) : Reports p (deliverSequence s p) := by
  unfold deliverSequence
  split
  · exact reports_complete _ _ p
  · split
    · exact reports_complete _ _ p
    split
    · exact reports_complete _ _ p
    · dsimp only
      split
      · exact (reports_sequencer _ p).trans (reports_swapSequence _)
      · exact reports_sequencer _ p

theorem reports_beginIfAtRest (p : Part) : Reports p (beginIfAtRest p) := by
  unfold beginIfAtRest
  split
  · exact reports_beginRound p
  · exact .refl p

theorem reports_seqStop (p : Part) : Reports p (seqStop p) := by
  unfold seqStop
  split
  · exact reports_complete _ _ p
  split
  · exact reports_endCommand p
  · have stopped : Reports p (setMode .stopped (p.mapMs (fun m => { m with command := some .stop }))) :=
      (reports_mapMs rfl rfl rfl rfl).setMode _
    dsimp only
    split
    · exact stopped
    · exact (stopped.trans (reports_mapMs rfl rfl rfl rfl)).endCommand

theorem reports_runCommand (c : SeqCommand) (p : Part) : Reports p (runCommand c p) := by
  cases c with
  | run =>
    show Reports p (seqRun p)
    unfold seqRun
    split
    · exact ((reports_beginIfAtRest p).setMode _).complete _ _
    · exact reports_complete _ _ p
  | once =>
    show Reports p (seqOnce p)
    unfold seqOnce
    split
    · exact reports_complete _ _ p
    · exact (Reports.trans (reports_mapMs rfl rfl rfl rfl) (reports_beginIfAtRest _)).setMode _
  | stop => exact reports_seqStop p
  | calibrate =>
    show Reports p (seqCalibrate p)
    unfold seqCalibrate
    dsimp only
    split
    · exact Reports.trans (reports_mapMs rfl rfl rfl rfl) (reports_mapMs rfl rfl rfl rfl)
    · exact Reports.setMode (reports_mapMs rfl rfl rfl rfl) _

theorem reports_takeCommand (c : SeqCommand) (p : Part) : Reports p (takeCommand c p) := by
  unfold takeCommand
  split
  · exact reports_mapMs rfl rfl rfl rfl
  · exact reports_runCommand c p

theorem reports_runHeld (p : Part) : Reports p (runHeld p) := by
  unfold runHeld
  split
  · exact .refl p
  · exact Reports.trans (reports_mapMs rfl rfl rfl rfl) (reports_runCommand _ _)

theorem reports_warmupEnd (p : Part) : Reports p (warmupEnd p) :=
  (((reports_swapSequence p).trans (reports_beginRound _)).setMode _).trans (reports_runHeld _)

theorem reports_onceRoundEnd (p : Part) : Reports p (onceRoundEnd p) := by
  unfold onceRoundEnd
  split
  · exact (Reports.setMode (reports_mapMs rfl rfl rfl rfl) _).endCommand
  · exact Reports.trans (reports_mapMs rfl rfl rfl rfl) (reports_beginRound _)

theorem reports_roundEnd (p : Part) : Reports p (roundEnd p) := by
  have results := reports_reportResults p
  unfold roundEnd
  dsimp only
  split
  · exact results.trans ((reports_swapSequence _).trans (reports_beginRound _))
  · exact results.trans (reports_mapMs rfl rfl rfl rfl)
  · exact results.trans (reports_onceRoundEnd _)
  · exact results
  · exact results

theorem reports_slotEnd (p : Part) : Reports p (slotEnd p) := by
  unfold slotEnd
  split
  · exact .refl p
  · split
    · exact Reports.endCommand (reports_mapMs rfl rfl rfl rfl)
    split
    · exact reports_roundEnd p
    · exact reports_mapMs rfl rfl rfl rfl

theorem reports_abandonedEnd (p : Part) : Reports p (abandonedEnd p) := by
  have ended : Reports p (p.mapMs (fun m => { m with calibration := none })) := reports_mapMs rfl rfl rfl rfl
  unfold abandonedEnd
  dsimp only
  split
  · split
    · exact ended.trans (reports_mapMs rfl rfl rfl rfl)
    · exact (ended.trans (reports_beginRound _)).setMode _
  · exact ended.trans (reports_beginRound _)
  · exact ended.trans (reports_beginRound _)
  · exact ended.endCommand
  · exact ended

/-- The correction shown as the argument of the device's completion (R161). -/
theorem reports_argument (correction : Nat) (p : Part) :
    Reports p (p.setRequest .device { p.request .device with argument := BitVec.ofNat 8 correction }) :=
  reports_setRequest _ _ p (.inr rfl)

theorem reports_calibrated (sum : Nat) (p : Part) : Reports p (calibrated sum p) := by
  unfold calibrated
  dsimp only
  refine Reports.endCommand (Reports.trans ?_ (reports_argument _ _))
  split
  · exact (Reports.trans (reports_mapMs rfl rfl rfl rfl) (reports_beginRound _)).setMode _
  · exact reports_mapMs rfl rfl rfl rfl

theorem reports_calibrationConverted (reading : Nat) (p : Part) : Reports p (calibrationConverted reading p) := by
  unfold calibrationConverted
  split
  · exact .refl p
  · split
    · exact reports_abandonedEnd p
    split
    · exact reports_calibrated _ p
    · exact reports_mapMs rfl rfl rfl rfl

theorem reports_rampDone (n : Port) (p : Part) : Reports p (rampDone n p) := by
  unfold rampDone
  split
  · exact reports_acts ((Acts.refl.move trivial _).setTimers trivial _)
  · exact .refl p

theorem reports_judgeSample (n : Port) (sample : Nat) (p : Part) : Reports p (judgeSample n sample p) := by
  unfold judgeSample
  split
  · unfold rampTest
    split
    · exact reports_mapMs rfl rfl rfl rfl
    split
    · exact Reports.trans (reports_mapMs rfl rfl rfl rfl) (reports_rampDone _ _)
    · exact reports_mapMs rfl rfl rfl rfl
  split
  · unfold overTest
    dsimp only
    split
    · exact Reports.trans (reports_mapMs rfl rfl rfl rfl) (reports_acts (Acts.refl.failPort trivial _))
    · exact reports_mapMs rfl rfl rfl rfl
  · exact .refl p

theorem reports_portSample (n : Port) (reading : Nat) (p : Part) : Reports p (portSample n reading p) := by
  unfold portSample
  dsimp only
  split
  · exact reports_keepResult _ p
  · exact ((reports_keepResult _ p).trans (reports_lastCurrent _ _ _)).trans (reports_judgeSample _ _ _)

theorem reports_updSteps {f : Sequencer → Sequencer} (sequence : (f p.ms).pending = p.ms.pending) (mode : (f p.ms).mode = p.ms.mode) :
    Reports p (updSteps f p) := by
  unfold updSteps
  split
  next e => exact reports_mapMs sequence e.1 e.2 mode
  next => exact reports_sequencer f p

theorem reports_voltageSample (mv : Nat) (p : Part) : Reports p (voltageSample mv p) := by
  unfold voltageSample
  dsimp only
  split
  · exact reports_keepResult _ p
  · exact (reports_keepResult _ p).trans (reports_updSteps rfl rfl)

theorem reports_temperatureSample (c : Int) (p : Part) : Reports p (temperatureSample c p) := by
  unfold temperatureSample
  dsimp only
  split
  · exact reports_keepResult _ p
  · exact (reports_keepResult _ p).trans (reports_updSteps rfl rfl)

/-! ### Frames -/

theorem reports_updLane (n : Port) (f : Lane → Lane) (p : Part) : Reports p (updLane n f p) :=
  reports_acts (Acts.refl.updLane trivial f)

theorem reports_takeRequest (n : Port) (kind : ReqKind) (tag cls : Fin 4) (offset length : Nat) (data : List Byte) (p : Part) :
    Reports p (takeRequest n kind tag cls offset length data p) := by
  unfold takeRequest
  split
  · exact (reports_acts (Acts.refl.upd trivial)).trans (reports_reportError _ _)
  split
  · exact reports_updLane _ _ _
  split
  · exact reports_updLane _ _ _
  · exact (reports_updLane _ _ _).trans (reports_mapMo rfl rfl rfl)

theorem reports_takeFrame (n : Port) (f : RxFrame) (p : Part) : Reports p (takeFrame n f p) := by
  have good (q : Part) : Reports q (takeGood n f q) := by
    cases f with
    | hello i => exact reports_acts (Acts.refl.takeHello trivial i)
    | put tag cls offset data => exact reports_takeRequest _ _ _ _ _ _ _ _
    | get tag cls offset length => exact reports_takeRequest _ _ _ _ _ _ _ _
    | keep => exact .refl q
    | leave => exact reports_acts (Acts.refl.leaveTaken trivial)
  unfold takeFrame
  split
  · exact .refl p
  split
  · exact (reports_updLane _ _ _).trans (good _)
  · exact reports_acts (Acts.refl.checkError trivial)

theorem reports_takeBytes (n : Port) (bytes : List Byte) (p : Part) : Reports p (takeBytes n bytes p) := by
  obtain e | e | ⟨f, e⟩ := takeBytes_cases n bytes p <;> rw [e]
  · exact .refl p
  · exact reports_acts (Acts.refl.checkError trivial)
  · exact reports_takeFrame n f p

theorem reports_answerEnds (n : Port) (p : Part) : Reports p (answerEnds n p) := by
  unfold answerEnds
  split
  · exact .refl p
  · exact Reports.event (reports_acts (Acts.refl.answerSent trivial _))

/-! ### The pass-through port -/

theorem reports_carry (p : Part) : Reports p (carry p) := by
  unfold carry
  split
  · exact .refl p
  · exact Reports.trans (reports_mapPtp rfl) (reports_mapMo rfl rfl rfl)

theorem reports_startAccess (b : BusAccess) (stage : Stage) (purpose : CpPurpose) (p : Part) : Reports p (startAccess b stage purpose p) :=
  reports_mapPtp rfl

theorem reports_carryAccess (b : BusAccess) (purpose : CpPurpose) (p : Part) : Reports p (carryAccess b purpose p) :=
  (reports_startAccess b _ purpose p).trans (reports_carry _)

theorem reports_answerAtOnce (p : Part) : Reports p (answerAtOnce p) := reports_mapPtp rfl

theorem reports_hostWrite (b : BusAccess) (offset : Nat) (p : Part) : Reports p (hostWrite b offset p) := by
  unfold hostWrite
  split
  · exact reports_carryAccess _ _ p
  · split
    · exact reports_startAccess _ _ _ p
    · exact reports_carryAccess _ _ p

theorem reports_moveToFront (t : Target) (p : Part) : Reports p (moveToFront t p) := by
  refine reports_lists rfl (fun v k => ?_)
  by_cases e : v = t
  · exact e ▸ List.mem_cons_self ..
  · exact List.mem_cons_of_mem _ ((List.mem_erase_of_ne e).2 k)

theorem reports_statusRead (b : BusAccess) (record : Target) (p : Part) : Reports p (statusRead b record p) := by
  unfold statusRead
  split
  · exact (reports_moveToFront record p).trans (reports_startAccess _ _ _ _)
  · exact reports_carryAccess _ _ p

theorem reports_dropErrorBit (p : Part) : Reports p (dropErrorBit p) := by
  unfold dropErrorBit
  split
  · exact (shownBy_words p rfl (.inr rfl) (.inl (not_rises_self _))).reports
  · exact .refl p

theorem reports_mergeWrite (b : BusAccess) (record : Target) (p : Part) : Reports p (mergeWrite b record p) := by
  unfold mergeWrite
  split
  · refine Reports.trans ?_ (reports_carryAccess _ _ _)
    exact Reports.trans (reports_lowered rfl (not_rises_self _) (not_rises_cleared _ _)) (reports_dropErrorBit _)
  · exact Reports.trans (reports_lowered rfl (not_rises_cleared _ _) (not_rises_self _)) (reports_carryAccess _ _ _)

theorem reports_startWork (w : ReqWord) (code : Byte) (p : Part) : Reports p (startWork w code p) := by
  have copy (s : Source) : Reports p (startCopy s p) := reports_lists rfl (fun _ => id)
  unfold startWork
  split
  · exact copy _
  · exact copy _
  · exact copy _
  · exact reports_takeCommand _ p
  · exact reports_mapMrc rfl rfl
  · exact copy _
  · exact Reports.event (reports_acts (Acts.refl.clearRequest trivial))
  · exact Reports.event (reports_acts (Acts.refl.restartRequest trivial))
  · exact reports_complete _ _ p

theorem reports_requestWrite (b : BusAccess) (w : ReqWord) (p : Part) : Reports p (requestWrite b w p) := by
  unfold requestWrite
  split
  · exact (reports_answerAtOnce p).trans (reports_reportError _ _)
  split
  · exact (reports_answerAtOnce p).trans (reports_reportError _ _)
  · refine ((reports_setRequest w (takenState b.value) p (.inl rfl)).trans ?_).trans (reports_startWork _ _ _)
    unfold takenWrite
    split
    · exact reports_answerAtOnce _
    · exact reports_carryAccess _ _ _

theorem reports_arrive (b : BusAccess) (p : Part) : Reports p (arrive b p) := by
  unfold arrive
  split
  · unfold arriveInArea
    split
    · exact reports_carryAccess _ _ p
    · exact reports_hostWrite _ _ p
    · exact reports_statusRead _ _ p
    · exact (reports_answerAtOnce p).trans (reports_reportError _ _)
    · exact reports_statusRead _ _ p
    · exact reports_mergeWrite _ _ p
    · exact reports_carryAccess _ _ p
    · exact reports_requestWrite _ _ p
  · unfold arriveOutside
    split
    · split <;> exact reports_carryAccess _ _ p
    · exact reports_carryAccess _ _ p

theorem reports_present (b : BusAccess) (p : Part) : Reports p (present b p) := by
  unfold present
  split
  · exact reports_mapPtp rfl
  · exact reports_arrive b p

/-- Of the burst in flight only a CP burst is withdrawn (R137). -/
theorem withdrawCp_flight (p : Part) : (withdrawCp p).mo.inFlight = p.mo.inFlight ∨
    ∃ c d, p.mo.inFlight = some (.cp c d) ∧ (withdrawCp p).mo.inFlight = some (.cp c true) := by
  unfold withdrawCp
  rw [Part.mapMo_mo]
  dsimp only
  split
  next c d e => exact .inr ⟨c, d, e, rfl⟩
  next => exact .inl rfl

theorem reports_withdrawCp (p : Part) : Reports p (withdrawCp p) := by
  refine Silent.reports ⟨rfl, rfl, rfl, rfl, rfl, rfl, rfl, rfl, rfl, rfl, rfl⟩ rfl (fun v a b k e => ?_) (fun e => ?_) <;>
    obtain f | ⟨c, d, f, g⟩ := withdrawCp_flight p
  · exact f.trans e
  · rw [f] at e; cases e
  · exact f.symm.trans e
  · rw [g] at e; cases e

theorem reports_holdExpired (p : Part) : Reports p (holdExpired p) := by
  unfold holdExpired
  split
  · exact .refl p
  · have answered (a : Access) : Reports p (reportError .holdExpired (answerBus (errorAnswer a.bus) p)) :=
      Reports.trans (reports_mapPtp rfl) (reports_reportError _ _)
    dsimp only
    split
    · exact (answered _).trans (reports_withdrawCp _)
    · exact answered _
    · exact answered _

/-! ### Resets aside: standby, presence, adoption -/

/-- A change of the mode and reset controller, reported for the device status. -/
theorem reports_modeReset (f : ModeReset → ModeReset) (p : Part) : Reports p (reportDevice true (p.mapMrc f)) :=
  Beside.reports ⟨rfl, rfl, rfl, rfl, fun _ => id, .inl rfl⟩

theorem acts_forPorts {f : Port → Part → Part} (step : ∀ n p, Acts (fun _ => True) p (f n p)) (p : Part) :
    Reports p (forPorts f p) := reports_foldl (fun p n => reports_acts (step n p)) allPorts p

theorem acts_standbyPort (n : Port) (p : Part) : Acts (fun _ => True) p (standbyPort n p) := by
  have park : Acts (fun _ => True) p (parkStarting n p) := (Acts.refl.move trivial _).applyDeferred trivial
  unfold standbyPort
  split
  · exact Acts.refl.standbyOn trivial
  · exact Acts.refl.move trivial _
  · exact park
  · exact park
  · exact park
  · exact Acts.refl.move trivial _
  · exact .refl

theorem reports_standbyEntered (p : Part) : Reports p (standbyEntered p) :=
  Reports.event ((reports_modeReset _ p).trans (acts_forPorts acts_standbyPort _))

theorem reports_standbyExited (p : Part) : Reports p (standbyExited p) := by
  refine Reports.event ?_
  refine ((reports_modeReset _ p).trans (acts_forPorts (fun n p => Acts.refl.upd trivial) _)).trans (reports_foldl (fun p n => ?_) _ _)
  exact Reports.event (reports_acts (Acts.refl.toQueued trivial))

theorem reports_adoptionExpired (p : Part) : Reports p (adoptionExpired p) := by
  refine (reports_modeReset _ p).trans (Reports.event (acts_forPorts (fun n p => ?_) _))
  unfold unadopted
  split
  · exact Acts.refl.startDrain trivial _
  · exact .refl

theorem reports_presenceAsserted (n : Port) (p : Part) : Reports p (presenceAsserted n p) := by
  have present : Reports p (p.mapMrc (fun m => { m with present := m.present.put n true })) := reports_mapMrc rfl rfl
  unfold presenceAsserted
  dsimp only
  split
  · exact present.trans (reports_acts (Acts.refl.setTimers trivial _))
  · exact present

theorem reports_presenceLost (n : Port) (p : Part) : Reports p (presenceLost n p) := by
  have present : Reports p (p.mapMrc (fun m => { m with present := m.present.put n false })) := reports_mapMrc rfl rfl
  unfold presenceLost
  dsimp only
  split
  · exact present.trans (reports_acts (Acts.refl.setTimers trivial _))
  next ne => exact present.trans (Reports.event (reports_acts ((Acts.unplugPort ne).mono (fun _ _ => trivial))))

theorem acts_arrived (n : Port) (p : Part) : Acts (fun _ => True) p (arrived n p) := by
  unfold arrived
  split
  · exact Acts.refl.move trivial _
  · exact (Acts.refl.setFlags trivial _).toQueued trivial

theorem acts_restartExpired (n : Port) (p : Part) : Acts (fun _ => True) p (restartExpired n p) := by
  unfold restartExpired
  split
  · exact Acts.refl.move trivial _
  · exact Acts.refl.toQueued trivial

theorem acts_settleExpired {p : Part} (s : (p.port n).state = .settle) : Acts (fun _ => True) p (settleExpired n p) := by
  have off : ((setTimers n (fun t => { t with settle := none }) p).port n).state ≠ .on := by
    rw [setTimers, updPort_port_self, s]
    decide
  unfold settleExpired
  dsimp only
  split
  · exact ((Acts.refl.setTimers trivial _).testAdmission trivial off).applyDeferred trivial
  · exact (Acts.refl.setTimers trivial _).testAdmission trivial off

theorem reports_orderTaken (n : Port) (p : Part) : Reports p (orderTaken n p) :=
  Reports.trans (reports_mapBu rfl rfl rfl) (reports_acts (Acts.refl.shedTaken trivial))

end

end Sys2Proof.Machine
end

