-- ==== Sys2Proof/Proofs/ReportedChanges.lean ====
section
/-! Completions of bursts report what they change, and so does every command but a reset: O46. -/

namespace Sys2Proof.Machine

section
variable {p q x : Part} {n : Port} {f : InFlight}

/-! ### Completions of bursts -/

theorem reports_landedBits (t : Target) (mark : Bool) (p : Part) : Reports p (landedBits t mark p) := by
  unfold landedBits
  split
  · split
    · exact reports_setSummary _ p
    · exact .refl p
  · split
    · exact reports_setSummary _ p
    · exact .refl p
  · exact (reports_setRequest .device _ p (.inl rfl)).trans (reports_setSummary _ _)
  · exact (reports_setRequest (.port _) _ p (.inl rfl)).trans (reports_setSummary _ _)
  · exact .refl p

theorem reports_releaseRead (p : Part) : Reports p (releaseRead p) := by
  unfold releaseRead
  split
  · exact reports_carry p
  · exact .refl p

theorem reports_releaseWrite (s : Source) (p : Part) : Reports p (releaseWrite s p) := by
  unfold releaseWrite
  split
  · split
    · exact reports_carry p
    · exact .refl p
  · exact .refl p

theorem reports_writeBackDone (t : Target) (mark fault : Bool) (p : Part) : Reports p (writeBackDone t mark fault p) := by
  unfold writeBackDone
  dsimp only
  split
  · exact ((reports_reportError _ p).trans (reports_landedBits t mark _)).trans (reports_releaseRead _)
  · exact (reports_landedBits t mark p).trans (reports_releaseRead _)

theorem reports_cueLanded (n : Port) (v : Word) (p : Part) : Reports p (cueLanded n v p) := by
  unfold cueLanded
  dsimp only
  split
  · exact (reports_shadow n v p).trans (reports_acts (Acts.refl.cueToLane trivial v))
  · exact (reports_shadow n v p).trans (reports_acts (Acts.refl.upd trivial))

theorem reports_cpDone (c : CpBurst) (fault : Bool) (word : List Byte) (p : Part) : Reports p (cpDone c fault word p) := by
  have answered : Reports p (answerBus (cpAnswer c fault word) p) := reports_mapPtp rfl
  unfold cpDone
  dsimp only
  split
  · exact answered.trans (reports_reportError _ _)
  · split
    · exact answered.trans (reports_cueLanded _ _ _)
    · exact answered

theorem reports_deliverWheel (w : Option (List Phase)) (p : Part) : Reports p (deliverWheel w p) := by
  unfold deliverWheel
  split
  · exact reports_complete _ _ p
  next w =>
    have waits : Reports p (reportDevice true (p.mapMo (fun o => { o with pendingWheel := some w }))) :=
      Beside.reports ⟨rfl, rfl, rfl, rfl, fun _ => id, .inl rfl⟩
    split
    · exact reports_complete _ _ p
    split
    · exact reports_complete _ _ p
    · dsimp only
      split
      · exact waits
      · exact waits.trans (stays_swapWheel _).reports

theorem reports_copyReadDone (s : Source) (fault : Bool) (bytes : List Byte) (p : Part) : Reports p (copyReadDone s fault bytes p) := by
  have deliver (q : Part) : Reports q (deliver s bytes q) := by
    cases s with
    | devicePlan => exact Reports.event (reports_deliverDevicePlan _ q)
    | wheelImage => exact reports_deliverWheel _ q
    | sequencePlan => exact reports_deliverSequence _ q
    | plan n => exact Reports.event (reports_acts (Acts.refl.deliverApply trivial _))
  unfold copyReadDone
  dsimp only
  split
  · exact (reports_releaseWrite s p).complete _ _
  · exact (reports_releaseWrite s p).trans (deliver _)

theorem reports_portBurstDone (n : Port) (a : LaneAccess) (offset length : Nat) (last discard fault : Bool) (data : List Byte) (p : Part) :
    Reports p (portBurstDone n a offset length last discard fault data p) := by
  have mark (b : Bool) : Reports p (markTest n a b p) := by
    unfold markTest
    split
    · exact reports_setSummary _ p
    · exact .refl p
  have done (q : Part) (x : Answer) : Reports q (event (accessDone n x) q) := Reports.event (reports_acts (Acts.refl.accessDone trivial x))
  have tested : Reports p (if last && a.kind == .put then markTest n a (a.after offset length fault data).markFault p else p) := by
    split
    · exact mark _
    · exact .refl p
  unfold portBurstDone
  dsimp only
  generalize (if (last && a.kind == .put) = true then markTest n a (a.after offset length fault data).markFault p else p) = q at tested ⊢
  refine tested.trans ?_
  split
  · exact .refl _
  split
  · exact done _ _
  split
  · exact .refl _
  · split
    · exact Reports.trans (reports_mapMo rfl rfl rfl) (done _ _)
    · exact reports_mapMo rfl rfl rfl

/-- The result of a burst, as it goes to its owner. -/
theorem reports_burstDone (f : InFlight) (fault : Bool) (data : List Byte) (p : Part) : Reports p (burstDone f fault data p) := by
  cases f with
  | cp c discard => cases discard with
    | true => exact .refl p
    | false => exact reports_cpDone c fault data p
  | writeBack t _ _ mark discard => cases discard with
    | true => exact .refl p
    | false => exact reports_writeBackDone t mark fault p
  | copyRead s _ _ discard => cases discard with
    | true => exact .refl p
    | false => exact reports_copyReadDone s fault data p
  | port n a offset length last discard => exact reports_portBurstDone n a offset length last discard fault data p

@[simp] theorem setSummary_request (m : Word) (p : Part) (w : ReqWord) : (setSummary m p).request w = p.request w := by
  unfold setSummary
  split
  · rfl
  · rw [queueWriteBack_request]
    cases w <;> rfl

theorem carry_request (p : Part) (w : ReqWord) : (carry p).request w = p.request w := by
  unfold carry
  split
  · rfl
  · cases w <;> rfl

/-- A completion that has landed is no longer handed over (R168). -/
theorem landed_request (w : ReqWord) (mark fault : Bool) (p : Part) :
    ((writeBackDone (.request w) mark fault p).request w).completion = none := by
  have released (q : Part) : (releaseRead q).request w = q.request w := by
    unfold releaseRead
    split
    · exact carry_request q w
    · rfl
  unfold writeBackDone
  dsimp only
  rw [released]
  cases w with
  | device =>
    show ((setSummary _ (Part.setRequest .device _ _)).request .device).completion = none
    rw [setSummary_request, setRequest_request, if_pos rfl]
  | port n =>
    show ((setSummary _ (Part.setRequest (.port n) _ _)).request (.port n)).completion = none
    rw [setSummary_request, setRequest_request, if_pos rfl]

/-! ### Every command -/

theorem ranLong_keeps (r : PortRecord) : r.ranLong.state = r.state ∧ r.ranLong.grant = r.grant ∧ r.ranLong.identity = r.identity :=
  ⟨rfl, rfl, rfl⟩

theorem atNextSecond_keeps (r : PortRecord) :
    r.atNextSecond.state = r.state ∧ r.atNextSecond.grant = r.grant ∧ r.atNextSecond.identity = r.identity := ⟨rfl, rfl, rfl⟩

theorem reports_of_event {c : Instr} (e : Event p c q) (i : isReset c = false) : Reports p q := by
  cases e
  case powerOnResetEnd => cases i
  case resetnAssert => cases i
  case resetnDeassert => cases i
  case softResetTake => cases i
  case converterWarmupEnd => exact reports_warmupEnd p
  case presenceAssert n _ => exact reports_presenceAsserted n p
  case arrival n _ => exact Reports.event (reports_acts (acts_arrived n p))
  case presenceLoss n _ => exact reports_presenceLost n p
  case helloTimerExpiry => exact Reports.event (reports_acts ((Acts.refl.move trivial _).upd trivial))
  case rampTimerExpiry => exact Reports.event (reports_acts (Acts.refl.failPort trivial _))
  case settleTimerExpiry n can =>
    unfold settleRuns at can
    rw [Bool.and_eq_true] at can
    exact Reports.event (reports_acts (acts_settleExpired (eq_of_beq can.1)))
  case onTimeLimit n _ => exact reports_timed ranLong_keeps p
  case onTimeReport n _ => exact reports_timed atNextSecond_keeps p
  case graceTimerExpiry => exact Reports.event (reports_acts (Acts.refl.endDrain trivial))
  case shedOrderTaken n _ => exact Reports.event (f := orderTaken n) (reports_orderTaken n p)
  case hardLimitTrip n _ _ => exact Reports.event (f := failPort n .hard) (reports_acts (Acts.refl.failPort trivial _))
  case restartTimerExpiry n _ => exact Reports.event (reports_acts (acts_restartExpired n p))
  case portISample n reading _ => exact (Reports.event (reports_portSample n reading p)).trans (reports_slotEnd _)
  case sourceVSample mv _ => exact (Reports.event (reports_voltageSample mv p)).trans (reports_slotEnd _)
  case tempSample c _ => exact (Reports.event (reports_temperatureSample c p)).trans (reports_slotEnd _)
  case offsetSample => exact (reports_keepResult _ p).trans (reports_slotEnd _)
  case noneSlot => exact (reports_keepResult _ p).trans (reports_slotEnd _)
  case calibrationConversion reading _ => exact reports_calibrationConverted reading p
  case helloFrame n i _ => exact Reports.event (reports_takeFrame n _ p)
  case putFrame n _ _ _ _ _ => exact reports_takeFrame n _ p
  case getFrame n _ _ _ _ _ => exact reports_takeFrame n _ p
  case keepFrame n _ => exact reports_takeFrame n _ p
  case leaveFrame n _ => exact Reports.event (reports_takeFrame n _ p)
  case badFrame n bytes _ => exact Reports.event (reports_takeBytes n bytes p)
  case openSent => exact reports_updLane _ _ p
  case answerSent n _ => exact reports_answerEnds n p
  case frameSent => exact reports_updLane _ _ p
  case keepTimerExpiry => exact reports_updLane _ _ p
  case silenceTimerExpiry n _ => exact Reports.event (reports_acts (Acts.refl.silenceExpired trivial))
  case holdTimerExpiry => exact reports_holdExpired p
  case standbyEntry =>
    unfold stbyAsserted
    split
    · exact Reports.trans (reports_mapMrc rfl rfl) (reports_standbyEntered _)
    · exact reports_mapMrc rfl rfl
  case standbyExit =>
    unfold stbyDeasserted
    split
    · exact Reports.trans (reports_mapMrc rfl rfl) (reports_standbyExited _)
    · exact reports_mapMrc rfl rfl
  case adoptionTimerExpiry => exact reports_adoptionExpired p
  case access b _ => exact reports_present b p

/-! ### What is written at the end -/

/-- What is changed is on its way to memory, the completions handed over aside. -/
structure OnItsWay (free : Prop) (p q : Part) : Prop where
  status : ∀ n, changesReported n p q → writtenSoon (.status n) free q
  marked : ∀ n, changesMarked (p.port n) (q.port n) → markedSoon (.status n) free q
  device1 : changesDevice1 p q → writtenSoon .device free q ∧ markedSoon .device free q
  device2 : changesDevice2 p q → writtenSoon .device free q
  wheel : q.mo.wheel ≠ p.mo.wheel → writtenSoon .wheelCopy free q
  summary : q.ae.summary &&& ~~~p.ae.summary ≠ 0 → writtenSoon .summary free q
  error : q.ae.error &&& ~~~p.ae.error ≠ 0 → writtenSoon .error free q
  request : ∀ w, (p.request w).completion = none → (q.request w).completion ≠ none → writtenSoon (.request w) free q

/-- A status record shows every change that is reported for it. -/
theorem not_changesReported (e : q.shownAt n = p.shownAt n) : ¬changesReported n p q := by
  have shown : (q.port n).shown = (p.port n).shown := (Prod.mk.inj e).1
  obtain ⟨current, shadows⟩ := Prod.mk.inj (Prod.mk.inj e).2
  rintro (c | c | c | c | c | c | c | c | c | c | c | c)
  · have c : changesMarked (p.port n).shown (q.port n).shown := c
    rw [shown] at c
    exact not_changesMarked_self _ c
  · exact c (congrArg PortRecord.flags shown :)
  · exact c (congrArg PortRecord.grant shown :)
  · exact c (congrArg PortRecord.stamp shown :)
  · exact c (congrArg PortRecord.restartCount shown :)
  · exact c (congrArg PortRecord.trips shown :)
  · exact c (congrArg (fun r => r.drain.map Drain.reason) shown :)
  · exact c (congrArg (fun r => r.drain.map Drain.phase) shown :)
  · exact c (congrArg PortRecord.checkErrors shown :)
  · exact c (congrArg PortRecord.overruns shown :)
  · exact c current
  · exact c shadows

theorem not_changesDevice1 (e : q.deviceView = p.deviceView) : ¬changesDevice1 p q := by
  unfold Part.deviceView at e
  injection e with isOver shortfall standby adopting wheelWaits sequenceWaits voltage temperature mode
  unfold changesDevice1 ceilingStep
  simp [isOver, shortfall, standby, adopting, wheelWaits, sequenceWaits, voltage, temperature, mode]

theorem Tells.onItsWay {free : Prop} (h : Tells (fun v => writtenSoon v free q) (fun v => markedSoon v free q) p q) : OnItsWay free p q where
  status n c := (h.status n).resolve_left (fun e => not_changesReported e c)
  marked := h.marked
  device1 c := h.device1.resolve_left (fun e => not_changesDevice1 e c)
  device2 c := h.device2.resolve_left (fun e => c.elim (fun k => k e.1) (fun k => k e.2))
  wheel c := h.wheel.resolve_left c
  summary := h.summary
  error := h.error
  request w before after := by
    obtain e | e | k := h.request w
    · exact absurd e after
    · exact absurd (e.trans before) after
    · exact k

theorem writtenSoon_pending {free : Prop} {v : Target} (h : writtenSoon v free q) :
    v ∈ q.ae.writeBacks ∨ ∃ address bytes mark, q.mo.inFlight = some (.writeBack v address bytes mark false) :=
  h.imp id (fun ⟨_, a, k, e⟩ => ⟨a, _, k, e⟩)

/-- Through an event a completion handed over stays on its way (R168). -/
theorem Tells.completions {free : Prop} {M : Target → Prop} (h : Tells (fun v => writtenSoon v free q) M p q)
    (written : completionsWritten p) : completionsWritten q := by
  intro w result after
  obtain e | e | k := h.request w
  · rw [e] at after; cases after
  · obtain pending | ⟨a, b, k, flight⟩ := written w result (e.symm.trans after)
    · exact writtenSoon_pending (h.writes _ pending)
    · exact .inr ⟨a, b, k, h.flight _ _ _ _ flight⟩
  · exact writtenSoon_pending k

/-- The part with the memory port free again. -/
def freed (p : Part) : Part := p.mapMo (fun o => { o with inFlight := none })

/-- What a completed burst brings about is reported. -/
theorem afterBurst_tells (loud : p.ae.quiet = false) (o : openLaw p) (f : InFlight) (fault : Bool) (data : List Byte) :
    Tells (fun v => writtenSoon v True (afterBurst f fault data p)) (fun v => markedSoon v True (afterBurst f fault data p))
      (freed p) (afterBurst f fault data p) :=
  ((reports_burstDone f fault data (freed p)).settled loud o).imp (fun _ => Or.imp id (fun ⟨_, e⟩ => ⟨trivial, e⟩))
    (fun _ => Or.imp id (fun ⟨_, e⟩ => ⟨trivial, e⟩))

/-- The completion whose write-back was in flight has landed, the others stay on their way (R168). -/
theorem afterBurst_completions (loud : p.ae.quiet = false) (o : openLaw p) (flight : p.mo.inFlight = some f) (fault : Bool)
    (data : List Byte) (written : completionsWritten p) : completionsWritten (afterBurst f fault data p) := by
  have tells := afterBurst_tells loud o f fault data
  intro w result after
  obtain e | e | k := tells.request w
  · rw [e] at after; cases after
  · obtain pending | ⟨a, b, k, carried⟩ := written w result (e.symm.trans after)
    · exact writtenSoon_pending (tells.writes _ pending)
    · rw [flight] at carried
      cases carried
      have landed := landed_request w k fault (freed p)
      obtain ⟨loud', o', -⟩ := reports_burstDone (.writeBack (.request w) a b k false) fault data (freed p) loud o
      obtain e | e | k' := (settle_tells loud' o').request w
      · exact absurd after (by rw [afterBurst, ← freed, e]; simp)
      · exact absurd after (by rw [afterBurst, ← freed, e]; exact fun k => by cases landed.symm.trans k)
      · exact writtenSoon_pending k'
  · exact writtenSoon_pending k

theorem exec_onItsWay {c : Instr} {s t : State} (e : exec c s = .next t) (i : isReset c = false) (loud : s.part.ae.quiet = false)
    (o : openLaw s.part) : OnItsWay (s.part.mo.inFlight = none ∨ isCompletion c = true) s.part t.part ∧
      (completionsWritten s.part → completionsWritten t.part) := by
  rcases exec_cases e with rfl | ⟨rfl, -⟩ | ⟨f, fault, done, flight, part⟩ | ⟨q, event, part⟩
  · exact ⟨((tells_refl t.part).imp (fun _ => pends_written) (fun _ => pends_marked)).onItsWay, id⟩
  · cases i
  · rw [part]
    refine ⟨?_, afterBurst_completions loud o flight fault _⟩
    have tells := (afterBurst_tells loud o f fault (s.mem.readBytes f.address f.length)).onItsWay
    have free : (True) = (s.part.mo.inFlight = none ∨ isCompletion c = true) := by simp [done]
    rw [← free]
    exact ⟨tells.status, tells.marked, tells.device1, tells.device2, tells.wheel, tells.summary, tells.error, tells.request⟩
  · rw [part]
    have tells := (reports_of_event event i).settled loud o
    refine ⟨?_, tells.completions⟩
    exact (tells.imp (fun _ => Or.imp id (fun ⟨f, e⟩ => ⟨.inl f, e⟩)) (fun _ => Or.imp id (fun ⟨f, e⟩ => ⟨.inl f, e⟩))).onItsWay

end

/-- Settles O46: what an event does is reported to the area engine, and the end of the command writes it back or keeps it pending. -/
theorem reportedChangesAreWrittenBack : Obligations.ReportedChangesAreWrittenBack := by
  intro c s t e i loud o
  obtain ⟨way, completions⟩ := exec_onItsWay e i loud o
  exact ⟨way.status, way.marked, way.device1, way.device2, way.wheel, way.summary, way.error, way.request, completions⟩

end Sys2Proof.Machine
end

