-- ==== Sys2Proof/Proofs/MarksKept.lean ====
section
/-! A change mark once gathered stays so, or is captured by the write-back granted in the event (R166), whatever the grants of the ports. -/

namespace Sys2Proof.Machine

section
variable {p q r x : Part} {n : Port} {v : Target}

/-- The area engine keeps its pending write-backs and its marks, and the memory port what it carries of them. -/
structure Retains (p q : Part) : Prop where
  writes : ∀ v ∈ p.ae.writeBacks, v ∈ q.ae.writeBacks
  marks : ∀ v, markOf p.ae v = true → markOf q.ae v = true
  flight : ∀ v a b k d, p.mo.inFlight = some (.writeBack v a b k d) → q.mo.inFlight = some (.writeBack v a b k d)
  busy : q.mo.inFlight = none → p.mo.inFlight = none

theorem Retains.refl (p : Part) : Retains p p := ⟨fun _ => id, fun _ => id, fun _ _ _ _ _ => id, id⟩

theorem Retains.trans (h : Retains p q) (g : Retains q r) : Retains p r :=
  ⟨fun v k => g.writes v (h.writes v k), fun v k => g.marks v (h.marks v k), fun v a b k d e => g.flight v a b k d (h.flight v a b k d e),
    fun e => h.busy (g.busy e)⟩

theorem Retains.of_same (ae : q.ae = p.ae) (mo : q.mo.inFlight = p.mo.inFlight) : Retains p q :=
  ⟨by rw [ae]; exact fun _ => id, by rw [ae]; exact fun _ => id, by rw [mo]; exact fun _ _ _ _ _ => id, by rw [mo]; exact id⟩

theorem busy_of_fixed (f : q.fixed = p.fixed) (e : q.mo.inFlight = none) : p.mo.inFlight = none := by
  have same := Part.busy_of_fixed f
  rw [e] at same
  cases c : p.mo.inFlight with
  | none => rfl
  | some f => rw [c] at same; cases same

theorem Announced.retains (h : Announced p q) (f : q.fixed = p.fixed) : Retains p q := ⟨h.writes, h.marks, h.flight, busy_of_fixed f⟩

theorem Gains.retains {t : Target} (h : Gains t p q) (mo : q.mo = p.mo) : Retains p q :=
  ⟨h.writes, h.marks, by rw [mo]; exact fun _ _ _ _ _ => id, by rw [mo]; exact id⟩

theorem retains_updPort (loud : p.ae.quiet = false) (f : PortRecord → PortRecord) : Retains p (updPort n f p) := by
  obtain ⟨-, writes, marks, -⟩ := updPort_gains (n := n) loud f
  exact ⟨writes, marks, by rw [updPort_mo]; exact fun _ _ _ _ _ => id, by rw [updPort_mo]; exact id⟩

theorem retains_setLane (n : Port) (l : Lane) (p : Part) : Retains p (p.setLane n l) := .of_same rfl rfl

theorem retains_moveTo (loud : p.ae.quiet = false) (st : PortState) : Retains p (moveTo n st p) := by
  have left := announced_leavingState (n := n) loud st
  have loud' : (leavingState n st p).ae.quiet = false := (Part.quiet_of_fixed (leavingState_fixed n st p)).trans loud
  have entered : Retains (leavingState n st p) (beforeFollow n st p) := by
    rw [beforeFollow_leaving]
    exact retains_updPort loud' _
  have loud'' : (beforeFollow n st p).ae.quiet = false := by
    rw [beforeFollow_leaving, (updPort_gains loud' _).1]
    exact loud'
  rw [moveTo_eq]
  exact (((left.retains (leavingState_fixed n st p)).trans entered).trans
    ((announced_laneFollow loud'').retains (laneFollow_fixed _ _))).trans (retains_setLane _ _ _)

/-- What the operations of the ports do takes no mark away. -/
theorem Acts.retains {S : Port → Prop} (h : Acts S p q) (loud : p.ae.quiet = false) : Retains p q := by
  induction h with
  | refl => exact .refl p
  | move g _ _ ih => exact ih.trans (retains_moveTo (g.loud loud) _)
  | upd g _ _ ih => exact ih.trans (retains_updPort (g.loud loud) _)
  | identify g _ _ ih =>
    exact (ih.trans (retains_updPort (g.loud loud) _)).trans ((gains_reportPort _ _ _).retains (reportPort_mo _ _ _))
  | unplug g hn _ ih =>
    exact (ih.trans (retains_moveTo (g.loud loud) _)).trans (retains_updPort ((g.move hn _).loud loud) _)
  | enterOn g hn _ ih =>
    exact (ih.trans (retains_moveTo (g.loud loud) _)).trans (retains_updPort ((g.move hn _).loud loud) _)
  | setGrant g _ _ _ ih => exact ih.trans ((announced_setGrant (g.loud loud) _).retains (setGrant_fixed _ _ _))
  | setLane _ _ _ ih => exact ih.trans (retains_setLane _ _ _)
  | stamp g _ _ ih => exact ih.trans (retains_updPort (g.loud loud) _)
  | mapBu _ _ ih => exact ih.trans (.of_same rfl rfl)
  | order _ _ ih => exact ih.trans (.of_same rfl rfl)
  | handOver _ _ ih => exact ih.trans (.of_same rfl rfl)
  | window _ _ _ ih => exact ih.trans (.of_same rfl rfl)
  | counts _ _ ih => exact ih.trans (.of_same rfl rfl)
  | complete g _ _ ih => exact ih.trans ((announced_complete (g.loud loud) _ _).retains (complete_fixed _ _ _))
  | report _ _ _ ih => exact ih.trans ((gains_reportPort _ _ _).retains (reportPort_mo _ _ _))
  | budgetTest g ih => exact ih.trans ((announced_budgetTest (g.loud loud)).retains (budgetTest_keeps _).1)
  | shortfallTest g ih => exact ih.trans ((announced_shortfallTest (g.loud loud)).retains (shortfallTest_keeps _).1)

theorem acts_budgetAfter (b : Bool) (p : Part) : Acts (fun _ => True) p (budgetAfter b p) := Acts.refl.budgetAfter (fun _ _ => trivial) b

theorem acts_retests (l : List Port) (p : Part) : Acts (fun _ => True) p (l.foldl (fun p n => retest n p) p) :=
  Acts.foldl .refl (fun _ _ _ h => h.retest trivial) l (fun _ _ => trivial)

theorem retains_reportDevice {y : Part} (ae : y.ae = p.ae) (mo : y.mo.inFlight = p.mo.inFlight) : Retains p (reportDevice true y) :=
  (Retains.of_same ae mo).trans ((gains_reportDevice true y).retains (reportDevice_mo _ _))

theorem retains_complete (loud : p.ae.quiet = false) (w : ReqWord) (a : Result) : Retains p (complete w a p) :=
  (announced_complete loud w a).retains (complete_fixed _ _ _)

theorem swapWheel_quiet (p : Part) : (swapWheel p).ae.quiet = p.ae.quiet := by
  have wheel (w : List Phase) : (wheelIn w p).ae.quiet = p.ae.quiet := by
    rw [wheelIn, (gains_reportDevice _ _).quiet, queueWriteBack_quiet]
    rfl
  have tested (l : List Port) (q : Part) : (l.foldl (fun p n => retest n p) q).ae.quiet = q.ae.quiet :=
    Part.quiet_of_fixed (acts_retests l q).fixed
  obtain ⟨-, e⟩ | ⟨w, -, -, e⟩ | ⟨w, -, -, e⟩ := swapWheel_cases p <;> rw [e]
  · rw [(gains_complete _ _ _).quiet, Part.quiet_of_fixed (acts_budgetAfter _ _).fixed, tested, wheel]
  · rw [(gains_complete _ _ _).quiet, (gains_reportDevice _ _).quiet]
    rfl

theorem retains_swapWheel (loud : p.ae.quiet = false) : Retains p (swapWheel p) := by
  obtain ⟨-, e⟩ | ⟨w, -, -, e⟩ | ⟨w, -, -, e⟩ := swapWheel_cases p <;> rw [e]
  · exact .refl p
  · have waits : Retains p (wheelIn w p) := by
      refine Retains.trans (Retains.trans ?_ ((gains_queueWriteBack .wheelCopy _).retains (queueWriteBack_mo _ _)))
        ((gains_reportDevice true _).retains (reportDevice_mo _ _))
      exact .of_same rfl rfl
    have loud' : (wheelIn w p).ae.quiet = false := by
      rw [wheelIn, (gains_reportDevice _ _).quiet, queueWriteBack_quiet]
      exact loud
    have budgeted := (acts_retests allPorts (wheelIn w p)).trans (acts_budgetAfter true _)
    exact (waits.trans (budgeted.retains loud')).trans (retains_complete (budgeted.loud loud') _ _)
  · have dropped : Retains p (reportDevice true (p.mapMo (fun o => { o with pendingWheel := none }))) := retains_reportDevice rfl rfl
    refine dropped.trans (retains_complete ?_ _ _)
    rw [(gains_reportDevice _ _).quiet]
    exact loud

/-! ### To the end of the command -/

/-- From `p` the command has come to `q` with a mark of the record gathered, or captured in the event. -/
def MarkKept (v : Target) (p q : Part) : Prop :=
  q.ae.quiet = false ∧ (q.mo.inFlight = none → p.mo.inFlight = none) ∧ markedSoon v (p.mo.inFlight = none) q

theorem MarkKept.next (h : MarkKept v p q) (g : Retains q r) (loud : r.ae.quiet = q.ae.quiet) : MarkKept v p r := by
  obtain ⟨quiet, busy, soon⟩ := h
  refine ⟨loud.trans quiet, fun e => busy (g.busy e), ?_⟩
  obtain ⟨w, k⟩ | ⟨f, a, b, e⟩ := soon
  · exact .inl ⟨g.writes v w, g.marks v k⟩
  · exact .inr ⟨f, a, b, g.flight _ _ _ _ _ e⟩

theorem MarkKept.grantAt (h : MarkKept v p q) (free : q.mo.inFlight = none) (i : Nat) : MarkKept v p (grantAt i q) := by
  obtain ⟨quiet, busy, soon⟩ := h
  have was := busy free
  refine ⟨(grantAt_bus i q).2.2.2.2.2.2.1.trans quiet, fun _ => was, ?_⟩
  obtain ⟨w, k⟩ | ⟨-, a, b, e⟩ := soon
  · obtain ⟨writes, marks⟩ | ⟨t, a, writes, marks, flight⟩ := grantAt_ae i q
    · exact .inl ⟨by rw [writes]; exact w, by rw [marks]; exact k⟩
    · by_cases e : v = t
      · subst e
        rw [k] at flight
        exact .inr ⟨was, a, _, flight⟩
      · exact .inl ⟨by rw [writes]; exact (List.mem_erase_of_ne e).2 w, by rw [marks v e]; exact k⟩
  · rw [free] at e; cases e

theorem MarkKept.swapWheel (h : MarkKept v p q) : MarkKept v p (swapWheel q) := h.next (retains_swapWheel h.1) (swapWheel_quiet q)

theorem MarkKept.moDecision (h : MarkKept v p q) : MarkKept v p (moDecision q) := by
  obtain e | ⟨i, free, -, e⟩ := moDecision_cases q <;> rw [e]
  · exact h
  · obtain s | s := swapAfter_cases i q.mo.pointer (Machine.grantAt i q) <;> rw [s]
    · exact (h.grantAt free i).swapWheel
    · exact h.grantAt free i

/-- A mark gathered in the event is gathered or captured at its end. -/
theorem MarkKept.settle (h : MarkKept v p q) : MarkKept v p (settle q) := by
  have swept : MarkKept v p (adoptSweep q) := by
    unfold adoptSweep
    split
    · exact h.next (retains_reportDevice rfl rfl) (gains_reportDevice _ _).quiet
    · exact h
  rw [Machine.settle]
  obtain ⟨-, e⟩ | ⟨-, e⟩ := idleSwap_cases (Machine.moDecision (adoptSweep q)) <;> rw [e]
  · exact swept.moDecision.swapWheel.moDecision
  · exact swept.moDecision

/-- A record reported with its mark in an event of the ports (R6, R166). -/
theorem markedSoon_event {f : Part → Part} {S : Port → Prop} (loud : x.ae.quiet = false) (flight : x.mo.inFlight = none → p.mo.inFlight = none)
    (h : Acts S (reportPort n true x) (f q)) : markedSoon (.status n) (p.mo.inFlight = none) (settle (event f q)) := by
  have gains := gains_reportPort n true x
  have marked : MarkKept (.status n) p (reportPort n true x) :=
    ⟨gains.quiet.trans loud, by rw [reportPort_mo]; exact flight, .inl ⟨gains.gained loud, reportPort_marks n x⟩⟩
  have acted : Acts (fun _ => True) (reportPort n true x) (event f q) := (h.mono (fun _ _ => trivial)).trans (acts_budgetAfter _ _)
  exact (marked.next (acted.retains marked.1) (Part.quiet_of_fixed acted.fixed)).settle.2.2

end

end Sys2Proof.Machine
end

