-- ==== Sys2Proof/Proofs/HelloTaken.lean ====
section
/-! A HELLO by the mode of its lane: O39. -/

namespace Sys2Proof.Machine

section
variable {n : Port} {p q x t : Part} {i : Identity} {e : Entry} {r r' : PortRecord}

/-! ### ASK -/

/-- ASK is what the full request makes it where the lane is used (R3). -/
def AsksOf (i : Identity) (r : PortRecord) : Prop :=
  r.identity = some i ∧ (r.laneUseNow = .expected → r.flags.ask = decide (r.fullRequest < i.requested.toNat))

theorem asked_refreshAsk (identity : r.identity = some i) : AsksOf i r.refreshAsk := by
  unfold PortRecord.refreshAsk
  split
  next none => exact absurd (identity.symm.trans none) (by simp)
  next j some =>
    obtain rfl : j = i := by rw [identity] at some; exact (Option.some.inj some).symm
    split
    next lt =>
      split
      next => exact ⟨identity, fun _ => (decide_eq_true lt).symm⟩
      next other => exact ⟨identity, fun use => absurd use other⟩
    next le => exact ⟨identity, fun _ => (decide_eq_false le).symm⟩

/-- The records agree but for ASK. -/
def SameButAsk (r r' : PortRecord) : Prop := ∃ b, r' = { r with flags := { r.flags with ask := b } }

theorem SameButAsk.trans {r'' : PortRecord} (h : SameButAsk r r') (g : SameButAsk r' r'') : SameButAsk r r'' := by
  obtain ⟨b, rfl⟩ := h
  obtain ⟨c, rfl⟩ := g
  exact ⟨c, rfl⟩

theorem sameButAsk_refreshAsk (r : PortRecord) : SameButAsk r r.refreshAsk := refreshAsk_eq r

theorem SameButAsk.fullRequest (h : SameButAsk r r') : r'.fullRequest = r.fullRequest := by
  obtain ⟨b, rfl⟩ := h
  rfl

/-! ### A HELLO taken in PROBE -/

/-- The port's entry as the FULL entry it holds or gains asks the full request (R11). -/
theorem askFull_own (own : p.entriesOf n = [] ∨ ∃ e, p.entriesOf n = [e] ∧ e.kind = .full) (asked : AsksOf i (p.port n)) :
    SameButAsk (p.port n) ((askFull n p).port n) ∧ AsksOf i ((askFull n p).port n) ∧
    ∃ e, (askFull n p).entriesOf n = [e] ∧ e.kind = .full ∧ e.asked = (p.port n).fullRequest := by
  unfold askFull
  obtain none | ⟨e, one, full⟩ := own
  · have no : holdsFull n p = false := by
      unfold holdsFull
      rw [List.any_eq_false]
      intro e h k
      rw [Bool.and_eq_true, beq_iff_eq] at k
      have mem : e ∈ p.entriesOf n := mem_entriesOf.2 ⟨h, k.1⟩
      rw [none] at mem
      cases mem
    rw [if_neg (by rw [no]; decide)]
    have record : (joinQueue n .full p).port n = (p.port n).refreshAsk := updPort_port_self _ _ _
    rw [record]
    have same := sameButAsk_refreshAsk (p.port n)
    refine ⟨same, asked_refreshAsk asked.1, newEntry n .full (p.port n).refreshAsk, ?_, rfl, same.fullRequest⟩
    unfold joinQueue Part.entriesOf
    dsimp only
    rw [Part.mapBu_bu, updPort_port_self, updPort_bu]
    dsimp only
    rw [List.filter_append]
    have before : p.bu.queue.filter (fun e => e.port == n) = [] := none
    rw [before]
    simp [newEntry]
  · have held : e ∈ p.bu.queue ∧ e.port = n := mem_entriesOf.1 (by rw [one]; exact List.mem_singleton_self e)
    have yes : holdsFull n p = true := by
      unfold holdsFull
      rw [List.any_eq_true]
      exact ⟨e, held.1, by rw [held.2, full]; simp⟩
    rw [if_pos yes]
    refine ⟨⟨_, rfl⟩, asked, { e with asked := (p.port n).fullRequest }, ?_, full, rfl⟩
    have mapped := entriesOf_map (n := n) (f := fun e => { e with asked := (p.port n).fullRequest }) (fun e h => h) p.bu.queue
    unfold Part.entriesOf at one ⊢
    rw [Part.mapBu_bu]
    dsimp only
    rw [mapped, one]
    rfl

/-- The record as a HELLO taken in PROBE leaves it (R11). -/
def greeted (i : Identity) (r : PortRecord) : PortRecord :=
  { r with identity := some i, timers := { r.timers with hello := none } }.refreshAsk

theorem helloTaken_eq (s : (p.port n).state = .probe) :
    helloTaken n i p = askFull n (reportPort n true (updPort n (greeted i) p)) := by
  unfold helloTaken
  rw [if_neg (not_not.2 s)]
  rfl

/-- What the HELLO leaves of the record besides ASK. -/
structure GreetedAs (i : Identity) (r r' : PortRecord) : Prop where
  state : r'.state = r.state
  plan : r'.plan = r.plan
  identity : r'.identity = some i
  hello : r'.timers.hello = none
  asks : AsksOf i r'

theorem laneUseNow_undrained (s : r.state ≠ .drain) : r.laneUseNow = r.plan.laneUse := by
  unfold PortRecord.laneUseNow
  split
  next drain _ => exact absurd drain s
  next => rfl

theorem fullRequest_undrained (s : r.state ≠ .drain) : r.fullRequest = fullRequest r.plan r.identity := by
  unfold PortRecord.fullRequest
  rw [laneUseNow_undrained s]

theorem AsksOf.ask (h : AsksOf i r) (s : r.state ≠ .drain) (use : r.plan.laneUse = .expected) :
    r.flags.ask = decide (fullRequest r.plan (some i) < i.requested.toNat) := by
  rw [h.2 (by rw [laneUseNow_undrained s]; exact use), fullRequest_undrained s, h.1]

theorem entriesOf_full (ql : queueLaw p) (s : (p.port n).state = .probe) : p.entriesOf n = [] ∨ ∃ e, p.entriesOf n = [e] ∧ e.kind = .full := by
  obtain ⟨nodup, states, -⟩ := ql
  refine (filter_port_of_nodup nodup n).imp id (fun ⟨e, one⟩ => ⟨e, one, ?_⟩)
  have mem : e ∈ p.entriesOf n := by
    rw [Part.entriesOf, one]
    exact List.mem_singleton_self e
  obtain ⟨queued, port⟩ := mem_entriesOf.1 mem
  obtain k | k := states e queued
  · rw [port, s] at k; cases k
  · exact k.2

theorem helloTaken_own (ql : queueLaw p) (s : (p.port n).state = .probe) : GreetedAs i (p.port n) ((helloTaken n i p).port n) ∧
    ∃ e, Holder n e (helloTaken n i p) ∧ e.kind = .full ∧ e.asked = ((helloTaken n i p).port n).fullRequest := by
  have port : (reportPort n true (updPort n (greeted i) p)).port n = greeted i (p.port n) := by
    rw [reportPort_port, updPort_port_self]
  have own : (reportPort n true (updPort n (greeted i) p)).entriesOf n = p.entriesOf n := by
    unfold Part.entriesOf
    rw [reportPort_bu, updPort_bu]
  have given := entriesOf_full ql s
  rw [← own] at given
  obtain ⟨same, asks, e, one, full, asked⟩ := askFull_own given (by rw [port]; exact asked_refreshAsk rfl)
  rw [← same.fullRequest] at asked
  rw [port] at same
  rw [helloTaken_eq s]
  generalize askFull n (reportPort n true (updPort n (greeted i) p)) = y at same asks one asked
  obtain ⟨b, record⟩ := (sameButAsk_refreshAsk { p.port n with identity := some i, timers := { (p.port n).timers with hello := none } }).trans same
  refine ⟨⟨by rw [record], by rw [record], by rw [record], by rw [record], asks⟩, e, ⟨one, .inr ⟨?_, full⟩⟩, full, asked⟩
  rw [record]
  exact s

/-- A HELLO taken in PROBE, to the end of the command. -/
theorem hello_probe {f : Part → Part} (ql : queueLaw x) (s : (x.port n).state = .probe) (eq : f p = helloTaken n i x)
    (settled : settle (event f p) = t) :
    (t.port n).identity = some i ∧ (t.port n).timers.hello = none ∧
    ((x.port n).plan.laneUse = .expected →
      (t.port n).flags.ask = decide (fullRequest (x.port n).plan (some i) < i.requested.toNat)) ∧
    (((t.port n).state = .probe ∧ ∃ e ∈ t.bu.queue, e.port = n ∧ e.kind = .full ∧ e.asked = (t.port n).fullRequest) ∨
      ((t.port n).state = .ramp ∧ (t.port n).grant = (t.port n).fullRequest)) := by
  obtain ⟨greeting, e, holder, full, asked⟩ := helloTaken_own (i := i) ql s
  have holds := (fullTail_event n f p).holds e (by rw [eq]; exact holder)
  rw [eq, settled] at holds
  generalize helloTaken n i x = y at greeting holder asked holds
  obtain ⟨state, plan, identity, hello, asks⟩ := greeting
  have probe : (y.port n).state = .probe := state.trans s
  have ask (use : (x.port n).plan.laneUse = .expected) : (y.port n).flags.ask = decide (fullRequest (x.port n).plan (some i) < i.requested.toNat) := by
    rw [asks.ask (by rw [probe]; decide) (by rw [plan]; exact use), plan]
  obtain flagged | ⟨port, granted, -⟩ := holds
  · obtain ⟨k, a, b, record⟩ := flagged.record
    rw [record]
    refine ⟨identity, hello, ask, .inl ⟨probe, e, ?_⟩⟩
    have mem : e ∈ t.entriesOf n := by
      rw [flagged.entries, holder.entries]
      exact List.mem_singleton_self e
    obtain ⟨queued, port⟩ := mem_entriesOf.1 mem
    exact ⟨queued, port, full, asked⟩
  · subst port
    obtain ⟨-, -, -, askKept, -, planKept, identityKept, -, -, -, -, -, -, -, -, whenFull, -⟩ := granted
    obtain ⟨ramp, grant, timers, -⟩ := whenFull full
    refine ⟨identityKept.trans identity, by rw [timers]; rfl, fun use => askKept.trans (ask use), .inr ⟨ramp, ?_⟩⟩
    rw [grant, asked, fullRequest_undrained (by rw [probe]; decide), fullRequest_undrained (by rw [ramp]; decide), planKept, identityKept]

/-! ### A HELLO taken in ON -/

theorem Lane.kick_answers_nil {l : Lane} (h : l.answers = []) : l.kick.answers = [] := by
  unfold Lane.kick
  split
  · exact h
  split
  · exact h
  split
  next some => rw [h] at some; cases some
  split
  · exact h
  · split
    · exact h
    split
    · exact h
    · exact h

theorem Lane.kick_sending {l : Lane} (h : l.sending ≠ none) : l.kick = l := by
  unfold Lane.kick
  split
  · rfl
  next none => exact absurd none h

/-- The tags of the answers removed are FREE, the others as they were (R111). -/
theorem freeAnswered_get (answers : List Answer) (tags : Vector Tag 4) (tag : Fin 4) :
    (freeAnswered answers tags).get tag = if ∃ a ∈ answers, a.tag = tag then .free else tags.get tag := by
  induction answers generalizing tags with
  | nil => simp [freeAnswered]
  | cons a rest ih =>
    have step : freeAnswered (a :: rest) tags = freeAnswered rest (tags.set a.tag.1 .free a.tag.2) := rfl
    have here : (tags.set a.tag.1 Tag.free a.tag.2).get tag = if a.tag = tag then .free else tags.get tag := by
      simp [Vector.get_eq_getElem, Vector.getElem_set, Fin.ext_iff]
    rw [step, ih, here]
    by_cases e : a.tag = tag <;> by_cases k : ∃ a ∈ rest, a.tag = tag <;> simp [e, k]

theorem Lane.reopened_mode (l : Lane) : l.reopened.mode ≠ .opened := by
  unfold Lane.reopened
  dsimp only
  split
  · decide
  next ne => exact ne

theorem Lane.reopened_tags (l : Lane) (tag : Fin 4) : l.reopened.tags.get tag =
    if ∃ a ∈ l.answers, a.tag = tag then .free else (l.tags.get tag).discarding := by
  unfold Lane.reopened
  dsimp only
  rw [freeAnswered_get]
  simp [Vector.get_eq_getElem]

/-- The lane as it goes on from a HELLO taken in ON, OPEN due set or not. -/
theorem reopens_kick (l : Lane) (due : Option Nat) : reopens l { l.reopened with openDue := due }.kick := by
  have mode := Lane.reopened_mode l
  refine ⟨?_, ?_, Lane.kick_answers_nil rfl, Lane.kick_cue (l := { l.reopened with openDue := due }) mode, fun sending => ?_, fun a h => ?_,
    fun tag free => ?_⟩
  · rw [Lane.kick_reopen]; rfl
  · rw [Lane.kick_mode]; rfl
  · rw [Lane.kick_sending (l := { l.reopened with openDue := due }) sending]
    exact ⟨rfl, rfl⟩
  · rw [Lane.kick_tags]
    exact (Lane.reopened_tags l a.tag).trans (if_pos ⟨a, h, rfl⟩)
  · rw [Lane.kick_tags]
    have get : ({ l.reopened with openDue := due } : Lane).tags.get tag = (l.tags.get tag).discarding :=
      (Lane.reopened_tags l tag).trans (if_neg (fun ⟨a, h, e⟩ => free a h e))
    rw [get]
    refine ⟨fun kind discard k => by rw [k]; rfl, fun k => ?_⟩
    cases e : l.tags.get tag with
    | outstanding kind discard => exact absurd e (k kind discard)
    | answered kind => rfl
    | free => rfl

/-- The lane a HELLO in ON leaves (R111, R112). -/
theorem reopenLane_lane (n : Port) (i : Identity) (p : Part) : ∃ due, (reopenLane n i p).lane n = { (p.lane n).reopened with openDue := due }.kick ∧
    due = if (p.lane n).reopened.outstanding = 0 then some ((p.port n).plan.size / 256) else none := by
  have lane : (reportPort n true (updPort n (·.rehello i) (p.setLane n (p.lane n).reopened))).lane n = (p.lane n).reopened := by
    rw [reportPort_lane, updPort_lane, Part.setLane_lane_self]
  have plan : ((reportPort n true (updPort n (·.rehello i) (p.setLane n (p.lane n).reopened))).port n).plan = (p.port n).plan := by
    rw [reportPort_port, updPort_port_self]
    exact refreshAsk_plan _
  unfold reopenLane
  dsimp only
  split
  next zero =>
    rw [lane] at zero
    refine ⟨some ((p.port n).plan.size / 256), ?_, by rw [if_pos zero]⟩
    rw [setOpenDue, updLane_lane_self, lane, plan]
  next some =>
    rw [lane] at some
    refine ⟨none, ?_, by rw [if_neg some]⟩
    rw [updLane_lane_self, lane]
    rfl

theorem reopenLane_port (n : Port) (i : Identity) (p : Part) : (reopenLane n i p).port n = (p.port n).rehello i := by
  have port : (reportPort n true (updPort n (·.rehello i) (p.setLane n (p.lane n).reopened))).port n = (p.port n).rehello i := by
    rw [reportPort_port, updPort_port_self]
    rfl
  unfold reopenLane
  dsimp only
  split
  · exact port
  · exact port

theorem reopenLane_bu (n : Port) (i : Identity) (p : Part) : (reopenLane n i p).bu = p.bu := by
  have bu : (reportPort n true (updPort n (·.rehello i) (p.setLane n (p.lane n).reopened))).bu = p.bu := by
    rw [reportPort_bu, updPort_bu]
    rfl
  unfold reopenLane
  dsimp only
  split
  · exact bu
  · exact bu

theorem reopenLane_acts (n : Port) (i : Identity) (p : Part) :
    Acts (only n) (reportPort n true (updPort n (·.rehello i) (p.setLane n (p.lane n).reopened))) (reopenLane n i p) := by
  unfold reopenLane
  dsimp only
  split
  · exact Acts.refl.setOpenDue (only_self n)
  · exact Acts.refl.updLane (only_self n) _

/-- A HELLO taken in ON, to the end of the command. -/
theorem hello_on {f : Part → Part} (ne : noEntry n x) (s : (x.port n).state = .on) (eq : f p = reopenLane n i x)
    (settled : settle (event f p) = t) :
    (t.port n).state = .on ∧ (t.port n).identity = some i ∧ (t.port n).flags.rehello = true ∧
    ((x.port n).plan.laneUse = .expected →
      (t.port n).flags.ask = decide (fullRequest (x.port n).plan (some i) < i.requested.toNat)) ∧
    (t.port n).grant = (x.port n).grant ∧ reopens (x.lane n) (t.lane n) ∧
    (t.lane n).openDue = if (t.lane n).outstanding = 0 then some ((x.port n).plan.size / 256) else none := by
  have port := reopenLane_port n i x
  have asks : AsksOf i ((x.port n).rehello i) := asked_refreshAsk rfl
  obtain ⟨b, record⟩ : SameButAsk { x.port n with identity := some i, flags := { (x.port n).flags with rehello := true } } ((x.port n).rehello i) :=
    sameButAsk_refreshAsk _
  have on : ((x.port n).rehello i).state = .on := by rw [record]; exact s
  have noEntry : Machine.noEntry n (reopenLane n i x) := by
    unfold Machine.noEntry
    rw [reopenLane_bu]
    exact ne
  have rests := Rests.event (n := n) (f := f) (p := p) (by
    rw [eq]
    exact quiet_of_state noEntry (by rw [port, on]; decide))
  obtain ⟨due, lane, isDue⟩ := reopenLane_lane n i x
  have record' := rests.port
  have lane' := rests.lane
  rw [eq, settled] at record' lane'
  rw [port] at record'
  rw [lane] at lane'
  have outstanding : (t.lane n).outstanding = (x.lane n).reopened.outstanding := by
    rw [lane', Lane.kick_outstanding]
    rfl
  rw [outstanding]
  refine ⟨by rw [record']; exact on, by rw [record']; exact asks.1, by rw [record', record], fun use => ?_, by rw [record', record], ?_, ?_⟩
  · rw [record']
    have ask := asks.ask (by rw [on]; decide) (by rw [record]; exact use)
    rw [ask, record]
  · rw [lane']
    exact reopens_kick _ _
  · rw [lane', Lane.kick_openDue]
    exact isDue

theorem checkError_heard_leaves (n : Port) (p : Part) :
    Leaves n { p.port n with checkErrors := min 255 ((p.port n).checkErrors + 1) } p (checkError n (heard n p)) := by
  obtain ⟨record, state, noPhase, deferred, entries, pending⟩ := checkError_leaves n (heard n p)
  exact ⟨record, state, noPhase, deferred, entries, pending⟩

theorem takeHello_cases (n : Port) (i : Identity) (p : Part) :
    ((p.lane n).mode = .listen → takeHello n i p = helloTaken n i p) ∧
    ((p.lane n).mode ≠ .listen → (p.port n).state = .on → takeHello n i p = reopenLane n i p) ∧
    ((p.lane n).mode ≠ .listen → (p.port n).state ≠ .on → takeHello n i p = checkError n p) := by
  unfold takeHello
  refine ⟨fun l => if_pos l, fun l s => ?_, fun l s => ?_⟩
  · rw [if_neg l, if_pos s]
  · rw [if_neg l, if_neg s]

theorem heard_mode (n : Port) (p : Part) : ((heard n p).lane n).mode = (p.lane n).mode := by
  rw [heard, updLane_lane_self, Lane.kick_mode]
  rfl

/-- A lane that sends nothing has nothing to send (R103). -/
theorem Lane.kick_idle {l : Lane} (h : sendLaw l) : l.kick = l := by
  by_cases sending : l.sending = none
  · obtain ⟨due, answers, cue, leave, keep⟩ := h sending
    unfold Lane.kick
    rw [sending, due, answers, leave, keep]
    dsimp only
    split
    next v some opened => rw [cue opened] at some; cases some
    next => rfl
  · exact Lane.kick_sending sending

theorem heard_lane (h : sendLaw (p.lane n)) : (heard n p).lane n = (p.lane n).heard :=
  (updLane_lane_self _ _ _).trans (Lane.kick_idle h)

theorem noEntry_of_law (ql : queueLaw p) (queued : (p.port n).state ≠ .queued) (probe : (p.port n).state ≠ .probe) : noEntry n p := by
  intro e h port
  obtain k | ⟨k, -⟩ := ql.2.1 e h
  · rw [port] at k; exact queued k
  · rw [port] at k; exact probe k

/-- Settles O39: a HELLO is taken by the mode of its lane and the state of its port. -/
theorem helloIsTakenByTheLaneMode : Obligations.HelloIsTakenByTheLaneMode := by
  intro n i s hears ql wl
  dsimp only
  refine completes_onPart (can := laneHears n) (f := event (takeFrame n (.hello i))) rfl (by simpa [laneHears] using hears) ?_
  dsimp only
  have taken : takeFrame n (.hello i) s.part = takeHello n i (heard n s.part) := takeFrame_good hears rfl
  obtain ⟨listens, reopens, fails⟩ := takeHello_cases n i (heard n s.part)
  rw [heard_mode] at listens reopens fails
  have ql' : queueLaw (heard n s.part) := ql
  have reported {f : PortRecord → PortRecord} {y : Part} (ae : y.ae = s.part.ae) (mo : y.mo = s.part.mo)
      (acts : Acts (only n) (reportPort n true (updPort n f y)) (takeFrame n (.hello i) s.part)) (loud : s.part.ae.quiet = false) :
      markedSoon (.status n) (s.part.mo.inFlight = none) (settle (event (takeFrame n (.hello i)) s.part)) := by
    have loud' : y.ae.quiet = false := by rw [ae]; exact loud
    refine markedSoon_event ?_ ?_ acts
    · rw [(updPort_gains loud' f).1]
      exact loud'
    · rw [updPort_mo, mo]
      exact id
  refine ⟨fun mode state => ?_, fun mode state => ?_, fun mode state => ?_⟩
  · have eq := taken.trans (listens mode)
    obtain ⟨identity, hello, ask, goes⟩ := hello_probe (x := heard n s.part) ql' state eq rfl
    refine ⟨identity, hello, ask, reported (f := greeted i) (y := heard n s.part) rfl rfl ?_, goes⟩
    rw [eq, helloTaken_eq (p := heard n s.part) state]
    exact Acts.refl.askFull (only_self n)
  · have eq := taken.trans (reopens mode state)
    have ne : noEntry n (heard n s.part) := noEntry_of_law ql' (by rw [heard_port, state]; decide) (by rw [heard_port, state]; decide)
    obtain ⟨on, identity, rehello, ask, grant, lane, due⟩ := hello_on ne state eq rfl
    refine ⟨on, identity, rehello, ask, ?_, grant, fun law => ?_, due⟩
    · refine reported (f := (·.rehello i)) (y := (heard n s.part).setLane n ((heard n s.part).lane n).reopened) rfl rfl ?_
      rw [eq]
      exact reopenLane_acts n i _
    · rw [heard_lane law] at lane
      exact lane
  · have eq := taken.trans (fails mode state)
    have on := (fullTail_event n (takeFrame n (.hello i)) s.part).onward ql wl (by rw [eq]; exact checkError_heard_leaves n s.part)
    refine ⟨on.goesOn, fun used => ?_, fun same => ?_⟩
    · rw [on.tags used, eq, checkError_lane, heard_tags]
    · rw [on.lane same, eq, checkError_lane, heard_silence]

end

end Sys2Proof.Machine
end

