-- ==== Sys2Proof/Proofs/RequestTaken.lean ====
section
/-! A write of a port's request word is taken (R153, R155): where it goes, its TAKEN image, and what a request without effect on the ports
leaves. -/

namespace Sys2Proof.Machine

section
variable {n : Port} {p q x : Part} {w : ReqWord} {b : BusAccess} {c : CpBurst} {code : Byte} {high : BitVec 24}

/-! ### The address of a request word -/

theorem wordAddress_area (p : Part) {k : Nat} (low : k < Config.areaBytes) (aligned : k % 4 = 0) :
    wordAddress (areaAddress p k) = areaBase p + k := by
  have cab := p.mrc.straps.cab.2
  unfold wordAddress areaAddress areaBase
  unfold Config.areaBytes at low
  unfold Config.areaStep
  rw [BitVec.toNat_ofNat]
  omega

theorem areaOffset_area (p : Part) {k : Nat} (low : k < Config.areaBytes) (aligned : k % 4 = 0) :
    areaOffset p (areaAddress p k) = some k := by
  unfold areaOffset
  rw [wordAddress_area p low aligned, if_pos ⟨Nat.le_add_right _ _, Nat.add_lt_add_left low _⟩, Nat.add_sub_cancel_left]

theorem wordClass_request (n : Port) : wordClass (requestOffset (.port n)) = .request (.port n) := by
  revert n
  decide

theorem requestOffset_fits (n : Port) : requestOffset (.port n) < Config.areaBytes ∧ requestOffset (.port n) % 4 = 0 := by
  revert n
  decide

/-! ### The value written -/

theorem requestValue_bytes (code : Byte) (high : BitVec 24) :
    wordByte (requestValue code high) 0 = code ∧ wordByte (requestValue code high) 1 = high.setWidth 8 := by
  have hc := code.isLt
  have hh := high.isLt
  have value : (requestValue code high).toNat = high.toNat * 256 + code.toNat := by
    unfold requestValue
    rw [BitVec.toNat_append, Nat.shiftLeft_eq, ← Nat.shiftLeft_eq, ← Nat.shiftLeft_add_eq_or_of_lt hc, Nat.shiftLeft_eq]
  constructor
  · apply BitVec.eq_of_toNat_eq
    rw [wordByte_toNat, value]
    omega
  · apply BitVec.eq_of_toNat_eq
    rw [wordByte_toNat, value, BitVec.toNat_setWidth]
    omega

theorem takenImage_bytes (v : Word) : wordBytes (takenImage v) = [wordByte v 0, wordByte v 1, 1, 0] := by
  have bit (i k : Nat) : (takenImage v).getLsbD (8 * i + k) = (v.getLsbD (8 * i + k) && (0xFFFF#32).getLsbD (8 * i + k) ||
      (0x10000#32).getLsbD (8 * i + k)) := by
    unfold takenImage
    rw [BitVec.getLsbD_or, BitVec.getLsbD_and]
  have byte (i k : Nat) (u : Word) (hk : k < 8) : (wordByte u i).getLsbD k = u.getLsbD (8 * i + k) := by
    unfold wordByte
    rw [BitVec.getLsbD_setWidth, BitVec.getLsbD_ushiftRight]
    simp [hk]
  have low (i : Nat) (h : i = 0 ∨ i = 1) : wordByte (takenImage v) i = wordByte v i := by
    refine BitVec.eq_of_getLsbD_eq fun k hk => ?_
    rw [byte i k _ hk, byte i k _ hk, bit]
    have kept : (0xFFFF#32).getLsbD (8 * i + k) = true ∧ (0x10000#32).getLsbD (8 * i + k) = false := by
      obtain rfl | rfl := h <;> interval_cases k <;> decide
    rw [kept.1, kept.2, Bool.and_true, Bool.or_false]
  have high (i : Nat) (u : Byte) (h : ∀ k < 8, (0xFFFF#32).getLsbD (8 * i + k) = false ∧ (0x10000#32).getLsbD (8 * i + k) = u.getLsbD k) :
      wordByte (takenImage v) i = u := by
    refine BitVec.eq_of_getLsbD_eq fun k hk => ?_
    rw [byte i k _ hk, bit, (h k hk).1, (h k hk).2, Bool.and_false, Bool.false_or]
  have third : wordByte (takenImage v) 2 = 1 := high 2 1 (by decide)
  have fourth : wordByte (takenImage v) 3 = 0 := high 3 0 (by decide)
  show [wordByte (takenImage v) 0, wordByte (takenImage v) 1, wordByte (takenImage v) 2, wordByte (takenImage v) 3] = _
  rw [low 0 (.inl rfl), low 1 (.inr rfl), third, fourth]

/-! ### The TAKEN image on its way -/

/-- The CP burst is on the CP list or in flight. -/
def Carried (c : CpBurst) (p : Part) : Prop := p.mo.cp = some c ∨ p.mo.inFlight = some (.cp c false)

theorem Carried.of_mo (h : Carried c p) (e : q.mo = p.mo) : Carried c q := by
  unfold Carried
  rw [e]
  exact h

theorem Carried.cancelAccesses (h : Carried c p) (n : Port) : Carried c (cancelAccesses n p) := by
  obtain h | h := h
  · exact .inl h
  · refine .inr ?_
    unfold Machine.cancelAccesses
    rw [Part.mapMo_mo]
    dsimp only
    rw [h]

theorem Carried.moveTo (h : Carried c p) (n : Port) (st : PortState) : Carried c (moveTo n st p) := by
  have e := moveTo_mo n st p
  split at e
  · exact (h.cancelAccesses n).of_mo e
  · exact h.of_mo e

theorem Carried.handOver (h : Carried c p) (n : Port) : Carried c (handOver n p) := by
  unfold Machine.handOver
  exact h

theorem clearCounts_mo (n : Port) (p : Part) : (clearCounts n p).mo = p.mo := rfl

theorem budgetTest_mo (p : Part) : (budgetTest p).mo = p.mo := by
  unfold Machine.budgetTest
  split
  · rfl
  · rw [reportDevice_mo, Part.mapBu_mo]

theorem shortfallTest_mo (p : Part) : (shortfallTest p).mo = p.mo := by
  unfold Machine.shortfallTest
  split
  · rfl
  · rw [reportDevice_mo, Part.mapBu_mo]

/-- The operations of the ports leave a CP burst. -/
theorem Acts.carried {S : Port → Prop} (h : Acts S p q) (g : Carried c p) : Carried c q := by
  induction h with
  | refl => exact g
  | move _ _ st ih => exact ih.moveTo _ st
  | upd _ _ _ ih => exact ih.of_mo (updPort_mo _ _ _)
  | identify _ _ _ ih => exact (ih.of_mo (updPort_mo _ _ _)).of_mo (reportPort_mo _ _ _)
  | unplug _ _ _ ih => exact (ih.moveTo _ _).of_mo (updPort_mo _ _ _)
  | enterOn _ _ _ ih => exact (ih.moveTo _ _).of_mo (updPort_mo _ _ _)
  | setGrant _ _ _ _ ih => exact ih.of_mo (setGrant_mo _ _ _)
  | setLane _ _ l ih => exact ih.of_mo (Part.setLane_mo _ l _)
  | stamp _ _ _ ih => exact ih.of_mo (updPort_mo _ _ _)
  | mapBu _ _ ih => exact ih.of_mo (Part.mapBu_mo _ _)
  | order _ _ ih => exact ih.of_mo (Part.mapBu_mo _ _)
  | handOver _ _ ih => exact ih.handOver _
  | window _ _ _ ih => exact ih.of_mo (Part.mapPtp_mo _ _)
  | counts _ _ ih => exact ih.of_mo (clearCounts_mo _ _)
  | complete _ _ _ ih => exact ih.of_mo (complete_mo _ _ _)
  | report _ _ _ ih => exact ih.of_mo (reportPort_mo _ _ _)
  | budgetTest _ ih => exact ih.of_mo (budgetTest_mo _)
  | shortfallTest _ ih => exact ih.of_mo (shortfallTest_mo _)

theorem Carried.grantBurst (h : Carried c p) (taken : c.purpose = .taken w) (free : p.mo.inFlight = none) (who : Participant) :
    Carried c (grantBurst who p) := by
  have on : p.mo.cp = some c := h.resolve_right (by rw [free]; simp)
  cases who with
  | cp =>
    refine .inr ?_
    have same : cpAtGrant p.ae c = c := by
      unfold cpAtGrant
      rw [taken]
    show (grantCp p).mo.inFlight = _
    unfold grantCp
    rw [on]
    dsimp only
    rw [same]
    rfl
  | ae =>
    refine .inl ?_
    unfold Machine.grantBurst
    dsimp only
    split <;> exact on
  | port n =>
    refine .inl ?_
    show (grantPortBurst n p).mo.cp = _
    unfold grantPortBurst
    split
    · exact on
    · split <;> exact on

/-- The grant of the CP burst takes a request's TAKEN image as it is (R121). -/
theorem Carried.grantAt (h : Carried c p) (taken : c.purpose = .taken w) (free : p.mo.inFlight = none) (i : Nat) :
    Carried c (grantAt i p) := by
  unfold Machine.grantAt
  split
  · exact h
  next who _ => exact h.grantBurst taken free who

theorem Carried.swapWheel (h : Carried c p) : Carried c (swapWheel p) := by
  obtain ⟨-, e⟩ | ⟨w, -, -, e⟩ | ⟨w, -, -, e⟩ := swapWheel_cases p <;> rw [e]
  · exact h
  · have waits : Carried c (wheelIn w p) := by
      refine Carried.of_mo (p := queueWriteBack .wheelCopy _) (Carried.of_mo ?_ (queueWriteBack_mo _ _)) (reportDevice_mo _ _)
      exact h
    exact (((acts_retests allPorts _).trans (acts_budgetAfter true _)).carried waits).of_mo (complete_mo _ _ _)
  · refine Carried.of_mo (Carried.of_mo (p := p.mapMo _) ?_ (reportDevice_mo _ _)) (complete_mo _ _ _)
    exact h

theorem Carried.moDecision (h : Carried c p) (taken : c.purpose = .taken w) : Carried c (moDecision p) := by
  obtain e | ⟨i, free, -, e⟩ := moDecision_cases p <;> rw [e]
  · exact h
  · have granted := h.grantAt taken free i
    obtain s | s := swapAfter_cases i p.mo.pointer (Machine.grantAt i p) <;> rw [s]
    · exact granted.swapWheel
    · exact granted

theorem Carried.settle (h : Carried c p) (taken : c.purpose = .taken w) : Carried c (settle p) := by
  have swept : Carried c (adoptSweep p) := h.of_mo (adoptSweep_keeps p).2.2.2.2.1
  rw [Machine.settle]
  obtain ⟨-, e⟩ | ⟨-, e⟩ := idleSwap_cases (Machine.moDecision (adoptSweep p)) <;> rw [e]
  · exact ((swept.moDecision taken).swapWheel).moDecision taken
  · exact swept.moDecision taken

/-! ### A request taken -/

/-- The write of a port's request word. -/
def requestBus (n : Port) (value : Word) (p : Part) : BusAccess := ⟨true, areaAddress p (requestOffset (.port n)), 15#4, value⟩

/-- The part with the request taken and its TAKEN image carried (R153, R154). -/
def taken (n : Port) (code : Byte) (high : BitVec 24) (p : Part) : Part :=
  carryAccess (requestBus n (requestValue code high) p) (.taken (.port n)) (p.setRequest (.port n) (takenState (requestValue code high)))

theorem taken_carried (n : Port) (code : Byte) (high : BitVec 24) (p : Part) : ∃ c : CpBurst, Carried c (taken n code high p) ∧
    c.purpose = .taken (.port n) ∧ c.write = true ∧ c.address = areaBase p + (Target.request (.port n)).offset ∧ c.enables = 15#4 ∧
    wordBytes c.value = imageBytes code (high.setWidth 8) 1 0 := by
  obtain ⟨low, aligned⟩ := requestOffset_fits n
  obtain ⟨zeroth, first⟩ := requestValue_bytes code high
  refine ⟨cpBurstOf ⟨requestBus n (requestValue code high) p, .carried, .taken (.port n)⟩, .inl rfl, rfl, rfl,
    wordAddress_area p low aligned, rfl, ?_⟩
  show wordBytes (takenImage (requestValue code high)) = _
  rw [takenImage_bytes, zeroth, first]
  rfl

theorem settle_straps (p : Part) : (settle p).mrc.straps = p.mrc.straps := by
  rw [settle_mrc]
  obtain e | e := adoptSweep_cases p <;> rw [e]
  rw [reportDevice_mrc]
  rfl

/-- The TAKEN image stays on its way to the end of the command. -/
theorem taken_settled {S : Port → Prop} {t : Part} (h : Acts S (taken n code high p) q) (e : t = settle q) :
    takenImageCarried (.port n) code (high.setWidth 8) t := by
  obtain ⟨c, on, purpose, write, address, enables, value⟩ := taken_carried n code high p
  have mrc : t.mrc.straps = p.mrc.straps := by
    rw [e, settle_straps, Part.mrc_of_fixed h.fixed]
    rfl
  refine ⟨c, ?_, purpose, write, ?_, enables, value⟩
  · rw [e]
    exact (h.carried on).settle purpose
  · rw [address, areaBase, areaBase, mrc]

theorem taken_aside (n m : Port) (code : Byte) (high : BitVec 24) (p : Part) : (taken n code high p).aside m = p.aside m := rfl

theorem taken_pending (n : Port) (code : Byte) (high : BitVec 24) (p : Part) : (taken n code high p).mo.pendingWheel = p.mo.pendingWheel := rfl

/-- A write of a port's request word that is free is taken, and its work starts (R153, R155). -/
theorem requestAccess_taken {s : State} (ready : busReady s.part) (free : (s.part.request (.port n)).taken = false)
    {f : Part → Part} (work : ∀ p, startWork (.port n) code p = event f p) (plain : requestCode (.port n) code.toNat ≠ some .softReset) :
    requestAccess (.port n) (requestValue code high) s = .next { s with part := settle (event f (taken n code high s.part)) } := by
  obtain ⟨running, none, away⟩ := ready
  obtain ⟨low, aligned⟩ := requestOffset_fits n
  obtain ⟨zeroth, -⟩ := requestValue_bytes code high
  have can : busFree (requestBus n (requestValue code high) s.part) s.part = true := by
    unfold busFree
    rw [none, away]
    show (legalEnables 15#4 && true && true) = true
    decide
  have hold : s.part.inHold = false := by
    unfold Part.inHold
    rw [running]
    decide
  have arrives : present (requestBus n (requestValue code high) s.part) s.part = event f (taken n code high s.part) := by
    unfold present arrive
    rw [if_neg (by rw [hold]; decide)]
    have at_ : areaOffset s.part (requestBus n (requestValue code high) s.part).address = some (requestOffset (.port n)) :=
      areaOffset_area s.part low aligned
    rw [at_]
    dsimp only
    unfold arriveInArea
    rw [wordClass_request]
    show requestWrite (requestBus n (requestValue code high) s.part) (.port n) s.part = _
    unfold requestWrite takenWrite
    have full : fullWord (requestBus n (requestValue code high) s.part).enables = true := rfl
    rw [if_neg (by rw [full]; decide), if_neg (by rw [free]; decide)]
    have value : (requestBus n (requestValue code high) s.part).value = requestValue code high := rfl
    rw [value, zeroth, if_neg plain]
    exact work _
  show onPart (busFree (requestBus n (requestValue code high) s.part)) (present (requestBus n (requestValue code high) s.part)) s = _
  unfold onPart
  rw [if_pos can]
  exact congrArg (fun x => Host.Outcome.next { s with part := settle x }) arrives

end

end Sys2Proof.Machine
end

