-- ==== Sys2Proof/Proofs/QueueShrinks.lean ====
section
/-! From an event to the end of its command no entry joins the grant queue, and those that stay keep their order (R51). -/

namespace Sys2Proof.Machine

section
variable {n m : Port} {p q r : Part}

/-- The ports that wait in the queue. -/
def Part.waiting (p : Part) : List Port := p.bu.queue.map Entry.port

/-- No entry joins the queue. -/
def Shrinks (p q : Part) : Prop := q.waiting.Sublist p.waiting

theorem Shrinks.refl (p : Part) : Shrinks p p := List.Sublist.refl _

theorem Shrinks.trans (h : Shrinks p q) (g : Shrinks q r) : Shrinks p r := List.Sublist.trans g h

theorem Shrinks.of_queue (h : q.bu.queue = p.bu.queue) : Shrinks p q := by
  unfold Shrinks Part.waiting
  rw [h]

theorem Shrinks.of_bu (h : q.bu = p.bu) : Shrinks p q := .of_queue (by rw [h])

theorem shrinks_moveTo (n : Port) (st : PortState) (p : Part) : Shrinks p (moveTo n st p) := by
  unfold Shrinks Part.waiting
  rw [moveTo_queue]
  exact List.Sublist.map _ List.filter_sublist

theorem shrinks_updPort (n : Port) (f : PortRecord → PortRecord) (p : Part) : Shrinks p (updPort n f p) := .of_bu (updPort_bu _ _ _)

theorem shrinks_complete (w : ReqWord) (a : Result) (p : Part) : Shrinks p (complete w a p) := .of_bu (complete_bu _ _ _)

theorem shrinks_setGrant (n : Port) (g : Nat) (p : Part) : Shrinks p (setGrant n g p) := .of_bu (setGrant_bu _ _ _)

theorem shrinks_giveStamp (n : Port) (p : Part) : Shrinks p (giveStamp n p) := .of_queue (giveStamp_record n n p).2

theorem shrinks_sheds (h : ShedsOnly q p) : Shrinks p q := by
  obtain ⟨l, o, e⟩ := h
  exact .of_queue (by rw [e]; rfl)

theorem shrinks_storePlan (n : Port) (plan : Plan) (p : Part) : Shrinks p (storePlan n plan p) := by
  unfold Shrinks Part.waiting
  rw [storePlan_waiting]

/-! ### Admission -/

theorem shrinks_endDrain {d : Drain} (h : (p.port n).drain = some d) (dest : d.dest = .off) : Shrinks p (endDrain n p) := by
  have off : Shrinks p (moveTo n .off p) := shrinks_moveTo n .off p
  unfold endDrain
  rw [h]
  dsimp only
  rw [dest]
  refine Shrinks.trans ?_ (.of_bu (handOver_leaves n _).1)
  dsimp only
  split
  · exact off.trans (shrinks_updPort _ _ _)
  · exact off

theorem graceStarted_bu (n : Port) (d : Drain) (p : Part) : (graceStarted n d p).bu = p.bu := by
  unfold graceStarted
  dsimp only
  split
  · rw [updLane_bu, updPort_bu]
  · rw [updPort_bu]

/-- A port that drains to OFF joins no queue. -/
theorem shrinks_startDrain {reason : DrainReason} (dest : startDest reason = .off) (p : Part) : Shrinks p (startDrain n reason p) := by
  have moved : Shrinks p (drainMoved n (newDrain reason (p.port n).plan) p) := (shrinks_updPort _ _ _).trans (shrinks_moveTo _ _ _)
  rw [startDrain_eq]
  split
  · exact moved
  · rw [enterGrace_eq (drainMoved_drain _ _ _)]
    have grace := Shrinks.of_bu (graceStarted_bu n (newDrain reason (p.port n).plan) (drainMoved n (newDrain reason (p.port n).plan) p))
    split
    · exact (moved.trans grace).trans (shrinks_endDrain (by rw [graceStarted_port]) dest)
    · exact moved.trans grace

theorem shrinks_applyInOn (n : Port) (plan : Plan) (p : Part) : Shrinks p (applyInOn n plan p) := by
  have follows (request : Nat) : Shrinks p (follow n request p) := by
    unfold follow
    split
    · exact (shrinks_setGrant _ _ _).trans (shrinks_giveStamp _ _)
    · exact shrinks_setGrant _ _ _
  rw [applyInOn_eq]
  split
  · exact ((shrinks_startDrain rfl p).trans (shrinks_storePlan _ _ _)).trans (shrinks_complete _ _ _)
  split
  · exact shrinks_complete _ _ _
  split
  · exact shrinks_complete _ _ _
  split
  · exact shrinks_complete _ _ _
  · exact ((follows _).trans (shrinks_storePlan _ _ _)).trans (shrinks_complete _ _ _)

theorem openLane_bu (n : Port) (p : Part) : (openLane n p).bu = p.bu := by
  unfold openLane
  split
  · unfold handPendingCue
    split
    · exact updLane_bu _ _ _
    · rw [updPort_bu, cueToLane]
      split
      · exact updLane_bu _ _ _
      · rw [updLane_bu]
        exact updLane_bu _ _ _
  · rfl

theorem shrinks_enterOn (n : Port) (p : Part) : Shrinks p (enterOn n p) := by
  have opened : Shrinks p (openLane n (startOnTime n (moveTo n .on p))) :=
    ((shrinks_moveTo _ _ _).trans (shrinks_updPort _ _ _)).trans (.of_bu (openLane_bu _ _))
  unfold enterOn applyEntering
  split
  · exact opened
  · exact (opened.trans (shrinks_updPort _ _ _)).trans (shrinks_applyInOn _ _ _)

theorem shrinks_retest (n : Port) (p : Part) : Shrinks p (retest n p) := by
  unfold retest
  split
  · unfold testAdmission
    split
    · exact shrinks_enterOn n p
    · exact shrinks_updPort _ _ _
  · exact .refl p

/-! ### Grant decisions -/

theorem clearCounts_bu (n : Port) (p : Part) : (clearCounts n p).bu = p.bu := rfl

theorem shrinks_grant (e : Entry) (p : Part) : Shrinks p (grant e p) := by
  have ready : Shrinks p (grantReady e.port p) := by
    refine Shrinks.trans ?_ (shrinks_giveStamp _ _)
    unfold Shrinks Part.waiting
    unfold dropEntry
    split
    · rw [setFlags_bu, Part.mapBu_bu]
      exact List.Sublist.map _ List.filter_sublist
    · exact .refl _
  have set (st : PortState) (g : Nat) (f : PortTimers → PortTimers) : Shrinks p (grantSet e.port st g f p) := by
    unfold grantSet grantMoved setTimers
    exact ((ready.trans (shrinks_moveTo _ _ _)).trans (shrinks_setGrant _ _ _)).trans (shrinks_updPort _ _ _)
  cases k : e.kind with
  | probe =>
    rw [grant_probe rfl k]
    exact set _ _ _
  | full =>
    rw [grant_full rfl k]
    exact (set _ _ _).trans (.of_bu (clearCounts_bu _ _))

theorem shrinks_walk (l : List Entry) (p : Part) : Shrinks p (walk l p) := by
  induction l generalizing p with
  | nil => exact .refl p
  | cons e rest ih =>
    unfold walk
    split
    · exact ih p
    split
    · exact (shrinks_grant e p).trans (ih _)
    split
    · obtain s | s := preempt_cases e p
      · exact shrinks_sheds s
      · rw [s]
        exact shrinks_updPort _ _ _
    · exact .refl p

theorem shrinks_markCoverage (l : List Entry) (p : Part) : Shrinks p (markCoverage l p) := by
  induction l generalizing p with
  | nil => exact .refl p
  | cons e rest ih => exact (shrinks_updPort _ _ _).trans (ih _)

theorem shrinks_budgetAfter (b : Bool) (p : Part) : Shrinks p (budgetAfter b p) := by
  have tested (y : Part) : Shrinks y (shortfallTest y) := by
    unfold shortfallTest
    split
    · exact .refl y
    · exact .of_queue (by rw [reportDevice_bu, Part.mapBu_bu])
  have before : Shrinks p (beforeDecision p) := .of_queue (beforeDecision_queue p)
  have decided (y : Part) : Shrinks y (grantDecision y) := by
    unfold grantDecision
    dsimp only
    split
    · exact shrinks_markCoverage _ _
    · exact (shrinks_markCoverage _ _).trans (shrinks_walk _ _)
  obtain e | e := budgetAfter_eq b p <;> rw [e]
  · exact before.trans (tested _)
  · exact (before.trans (decided _)).trans (tested _)

/-! ### The end of a command -/

theorem shrinks_retests (l : List Port) (p : Part) : Shrinks p (l.foldl (fun p n => retest n p) p) := by
  induction l generalizing p with
  | nil => exact .refl p
  | cons n rest ih => exact (shrinks_retest n p).trans (ih _)

theorem shrinks_swapWheel (p : Part) : Shrinks p (swapWheel p) := by
  obtain ⟨-, e⟩ | ⟨w, -, -, e⟩ | ⟨w, -, -, e⟩ := swapWheel_cases p <;> rw [e]
  · exact .refl p
  · have waits : Shrinks p (wheelIn w p) := .of_bu (by rw [wheelIn, reportDevice_bu, queueWriteBack_bu, Part.mapMo_bu])
    exact ((waits.trans (shrinks_retests _ _)).trans (shrinks_budgetAfter _ _)).trans (shrinks_complete _ _ _)
  · exact .of_bu (by rw [complete_bu, reportDevice_bu, Part.mapMo_bu])

theorem shrinks_moDecision (p : Part) : Shrinks p (moDecision p) := by
  obtain e | ⟨i, free, -, e⟩ := moDecision_cases p <;> rw [e]
  · exact .refl p
  · have granted : Shrinks p (grantAt i p) := .of_bu (grantAt_stay i p).2.1
    obtain s | s := swapAfter_cases i p.mo.pointer (grantAt i p) <;> rw [s]
    · exact granted.trans (shrinks_swapWheel _)
    · exact granted

theorem shrinks_settle (p : Part) : Shrinks p (settle p) := by
  have swept : Shrinks p (adoptSweep p) := by
    obtain e | e := adoptSweep_cases p <;> rw [e]
    · exact .refl p
    · exact .of_bu (by rw [reportDevice_bu, Part.mapMrc_bu])
  unfold settle
  obtain ⟨-, e⟩ | ⟨-, e⟩ := idleSwap_cases (moDecision (adoptSweep p)) <;> rw [e]
  · exact ((swept.trans (shrinks_moDecision _)).trans (shrinks_swapWheel _)).trans (shrinks_moDecision _)
  · exact swept.trans (shrinks_moDecision _)

/-- The youngest of the queue is the youngest of what stays (R51). -/
theorem youngest_shrinks {l : List Port} (h : p.waiting = l ++ [n]) (own : n ∉ l) (s : Shrinks p q) : youngest n q := by
  unfold Shrinks at s
  rw [h] at s
  obtain ⟨a, b, split, first, last⟩ := List.sublist_append_iff.1 s
  obtain nil | one := List.sublist_singleton.1 last
  · refine .inl (fun e mem port => own (first.subset ?_))
    have there : e.port ∈ q.waiting := List.mem_map_of_mem mem
    rw [split, nil, List.append_nil, port] at there
    exact there
  · rw [one] at split
    obtain ⟨older, newer, queue, -, single⟩ := List.map_eq_append_iff.1 split
    obtain ⟨e, rfl, port⟩ : ∃ e, newer = [e] ∧ e.port = n := by
      obtain ⟨e, rest, rfl, port, nil⟩ := List.map_eq_cons_iff.1 single
      exact ⟨e, by rw [List.map_eq_nil_iff.1 nil], port⟩
    exact .inr ⟨older, e, queue, port⟩

theorem joinQueue_waiting (n : Port) (kind : EntryKind) (p : Part) : (joinQueue n kind p).waiting = p.waiting ++ [n] := by
  obtain ⟨q, same, e⟩ := joinQueue_eq n kind p
  have queue : q.bu = p.bu := by
    obtain rfl | rfl := same
    · rfl
    · exact updPort_bu _ _ _
  unfold Part.waiting
  rw [e, Part.mapBu_bu]
  dsimp only
  rw [queue, List.map_append]
  rfl

theorem toQueued_waiting (n : Port) (p : Part) :
    (toQueued n p).waiting = p.waiting.filter (fun m => m != n) ++ [n] ∨ noEntry n (toQueued n p) := by
  have moved (st : PortState) : (moveTo n st p).waiting = p.waiting.filter (fun m => m != n) := by
    unfold Part.waiting
    rw [moveTo_queue, List.filter_map]
    rfl
  unfold toQueued
  split
  · exact .inr (moveTo_noEntry n .off p)
  split
  · exact .inr (moveTo_noEntry n .parked p)
  · dsimp only
    rw [joinQueue_waiting, moved]
    exact .inl rfl

/-- A port sent to the queue joins it as its youngest (R51, R52). -/
theorem youngest_queued {x : Part} {f k : Part → Part} (e : f p = k (toQueued n x)) (queue : ∀ y, (k y).bu.queue = y.bu.queue) :
    youngest n (settle (event f p)) := by
  have shrinks : Shrinks (f p) (settle (event f p)) := (shrinks_budgetAfter _ _).trans (shrinks_settle _)
  by_cases none : noEntry n (f p)
  · refine .inl (fun e mem port => ?_)
    have there : e.port ∈ (f p).waiting := shrinks.subset (List.mem_map_of_mem mem)
    obtain ⟨e', mem', port'⟩ := List.mem_map.1 there
    exact none e' mem' (port'.trans port)
  · have same : (f p).bu.queue = (toQueued n x).bu.queue := by rw [e, queue]
    have joins := (toQueued_waiting n x).resolve_right (fun c => none (fun e' mem => c e' (by rw [← same]; exact mem)))
    refine youngest_shrinks (l := x.waiting.filter (fun m => m != n)) ?_ (by simp) shrinks
    rw [Part.waiting, same]
    exact joins

end

end Sys2Proof.Machine
end

