-- ==== Sys2Proof/Proofs/ClearRestart.lean ====
section
/-! CLEAR and RESTART by the state of their port: O27. -/

namespace Sys2Proof.Machine

section
variable {n m : Port} {p q x t : Part} {code : Byte} {high : BitVec 24} {a : Result}

/-! ### A request without effect on the ports -/

theorem decisionTrigger_aeOnly (h : AeOnly q p) : decisionTrigger p q = false := by
  obtain ⟨ports, bu, ms, -, -, -, mrc⟩ := h
  have port (n : Port) : q.port n = p.port n := by rw [Part.port, ports]; rfl
  have committed' : committed q = committed p := committed_of_ports ports
  have shedding' : shedding q = shedding p := shedding_congr (by rw [bu]) (fun n => by rw [port])
  have ceiling' : ceiling q = ceiling p := ceiling_of_blocks bu ms mrc
  unfold decisionTrigger
  rw [bu, committed', shedding', ceiling']
  simp

/-- With the budget state as the totals make it and no trigger, no port changes (R47, R55). -/
theorem budgetAfter_untriggered (law : budgetLaw p) : (budgetAfter false p).ports = p.ports := by
  have tested : budgetTest p = p := by
    unfold budgetTest
    exact if_pos law
  have reported (y : Part) : (shortfallTest y).ports = y.ports := by
    unfold shortfallTest
    split
    · rfl
    · rw [reportDevice_ports, Part.mapBu_ports]
  unfold budgetAfter
  dsimp only
  rw [tested, reported]
  obtain ⟨l, o, shed⟩ := shedStep_only p
  cases isOver : p.bu.isOver with
  | false =>
    simp [isOver]
  | true =>
    rw [if_pos rfl, shed]
    simp [isOver]

/-- The request of a port answered without effect on the ports. -/
theorem answered_ports (law : budgetLaw x) (pending : x.mo.pendingWheel = none) {f : Part → Part} (eq : f x = complete (.port n) a x) :
    (settle (event f x)).ports = x.ports := by
  have only : AeOnly (complete (.port n) a x) x := AeOnly.complete _ _ _
  have law' : budgetLaw (complete (.port n) a x) := by
    unfold budgetLaw
    rw [complete_bu, ceiling_of_blocks (complete_bu _ _ _) (complete_ms _ _ _) (complete_mrc _ _ _), committed_of_ports (complete_ports _ _ _)]
    exact law
  have none : (event f x).mo.pendingWheel = Option.none := by
    unfold event
    rw [Part.pendingWheel_of_fixed (acts_budgetAfter _ _).fixed, eq, complete_mo]
    exact pending
  rw [(settle_stay _ none).1]
  unfold event
  rw [eq, decisionTrigger_aeOnly only, budgetAfter_untriggered law', complete_ports]

/-! ### The request word -/

theorem taken_request (n : Port) (code : Byte) (high : BitVec 24) (p : Part) :
    (taken n code high p).request (.port n) = takenState (requestValue code high) := by
  show (p.setRequest (.port n) _).request (.port n) = _
  rw [setRequest_request, if_pos rfl]

/-- The port's request is taken and answered. -/
def answeredWith (n : Port) (a : Result) (p : Part) : Prop := (p.request (.port n)).taken = true ∧ (p.request (.port n)).completion = some a

theorem answeredWith_complete (h : (p.request (.port n)).taken = true) : answeredWith n a (complete (.port n) a p) := by
  unfold answeredWith
  rw [complete_request, if_pos rfl]
  exact ⟨h, rfl⟩

theorem answeredWith_congr (h : answeredWith n a p) (e : q.request (.port n) = p.request (.port n)) : answeredWith n a q := by
  unfold answeredWith
  rw [e]
  exact h

/-! ### CLEAR and RESTART in FAULT -/

/-- The record with its cause discarded and its restart count cleared. -/
def discarded (n : Port) (p : Part) : Part := updPort n (fun r => { r with cause := none, restartCount := 0 }) p

theorem discarded_port (n : Port) (p : Part) : (discarded n p).port n = { p.port n with cause := none, restartCount := 0 } :=
  updPort_port_self _ _ _

theorem clearFault_eq (n : Port) (p : Part) : clearFault n p =
    if (p.port n).plan.mode = .off then moveTo n .off (discarded n p) else toQueued n (discarded n p) := by
  have plan : ((discarded n p).port n).plan = (p.port n).plan := by rw [discarded_port]
  rw [← plan]
  rfl

theorem clearFault_request (w : ReqWord) (n : Port) (p : Part) : (clearFault n p).request w = p.request w := by
  rw [clearFault_eq]
  split
  · rw [moveTo_request, discarded, updPort_request]
  · rw [toQueued_request, discarded, updPort_request]

/-- A port whose fault is cleared (R39, R40), to the end of the command. -/
structure Restored (n : Port) (standby : Bool) (plan : Plan) (t : Part) : Prop where
  cause : (t.port n).cause = none
  restartCount : (t.port n).restartCount = 0
  off : plan.mode = .off → (t.port n).state = .off
  parked : plan.mode ≠ .off → standby = true → (t.port n).state = .parked
  queued : plan.mode ≠ .off → standby = false → queuedOrGranted n t ∧ youngest n t

theorem fault_restored {f : Part → Part} (eq : f x = complete (.port n) .ok (clearFault n x)) (run : x.mrc.phase = .running)
    (word : (x.request (.port n)).taken = true) :
    Restored n x.mrc.standby (x.port n).plan (settle (event f x)) ∧ answeredWith n .ok (settle (event f x)) := by
  have answered : answeredWith n .ok (f x) := by
    rw [eq]
    exact answeredWith_complete (by rw [clearFault_request]; exact word)
  have port := discarded_port n x
  have mrc : (discarded n x).mrc = x.mrc := updPort_mrc _ _ _
  by_cases off : (x.port n).plan.mode = .off
  · have moved : clearFault n x = moveTo n .off (discarded n x) := by rw [clearFault_eq, if_pos off]
    have entered := moveTo_port_self n .off (discarded n x)
    have calm : quiet n (f x) := by
      rw [eq, moved]
      exact complete_quiet _ _ (quiet_moveTo (by decide))
    have rests := Rests.event calm
    have record := rests.port_open (by rw [eq, moved, complete_port, moveTo_state]; rfl)
    rw [eq, moved, complete_port] at record
    refine ⟨⟨?_, ?_, fun _ => ?_, fun c => absurd off c, fun c => absurd off c⟩, answeredWith_congr answered rests.request⟩
    · rw [record, entered.cause, port]
    · rw [record, entered.restartCount, port]
    · rw [record, entered.state]
  · have queued : f x = complete (.port n) .ok (toQueued n (discarded n x)) := by rw [eq, clearFault_eq, if_neg off]
    have sent := sentOn_event (n := n) (k := complete (.port n) .ok) queued (fun y => complete_ports _ _ y) (fun y => by rw [complete_bu])
    have last := youngest_queued (n := n) (k := complete (.port n) .ok) queued (fun y => by rw [complete_bu])
    rw [mrc, port] at sent
    refine ⟨⟨sent.held.cause, sent.held.restartCount, fun c => absurd c off, fun _ sb => (sent.parked run sb).1,
      fun _ sb => ⟨sent.queued run sb, last⟩⟩, ?_⟩
    have tail := fullTail_event n f x
    obtain calm | ⟨e, holder⟩ : quiet n (f x) ∨ ∃ e, Holder n e (f x) := by
      rw [queued]
      exact (toQueued_calm n (discarded n x)).imp (complete_quiet _ _) (fun ⟨e, h⟩ => ⟨e, complete_holder _ _ h⟩)
    · exact answeredWith_congr answered (tail.calm calm).request
    · obtain flagged | granted := tail.holds e holder
      · exact answeredWith_congr answered flagged.request
      · exact answeredWith_congr answered granted.request

/-! ### RESTART in ON -/

/-- A drain of a RESTART, as its start leaves the port (R22, R23, R40). -/
theorem startDrain_to_restart (run : p.mrc.phase = .running) :
    let d := newDrain .restartCmd (p.port n).plan
    let flush := flushes (p.lane n).outstanding (p.port n)
    let r := (startDrain n .restartCmd p).port n
    (flush = true ∨ d.graceMs ≠ 0 → Drains d flush (p.port n) r) ∧
    (flush = false ∧ d.graceMs = 0 → Ended .restartWait (p.port n) r ∧ r.timers.restart = some 500) ∧
    noEntry n (startDrain n .restartCmd p) ∧ r.state ≠ .settle ∧ DrainKeeps (p.port n) r := by
  dsimp only
  have goes := startDrain_drains (n := n) (p := p) .restartCmd
  by_cases h : flushes (p.lane n).outstanding (p.port n) = true ∨ (newDrain .restartCmd (p.port n).plan).graceMs ≠ 0
  · obtain ⟨drains, keeps⟩ := goes h
    refine ⟨fun _ => drains, fun c => ?_, startDrain_going_noEntry _ h, by rw [drains.state]; decide, keeps⟩
    rw [c.1, c.2] at h
    simp at h
  · have f : flushes (p.lane n).outstanding (p.port n) = false := by simpa using fun c => h (.inl c)
    have g : (newDrain .restartCmd (p.port n).plan).graceMs = 0 := Decidable.not_not.1 (fun c => h (.inr c))
    obtain ⟨y, e, mrc, keeps, drain⟩ := startDrain_ends (n := n) (p := p) .restartCmd f g
    obtain ⟨ended, timer, ne⟩ := endDrain_restart drain rfl (by rw [mrc]; exact run)
    rw [e]
    exact ⟨fun c => absurd c h, fun _ => ⟨⟨ended.state, ended.grant, ended.drain, keeps.trans ended.keeps⟩, timer⟩, ne,
      by rw [ended.state]; decide, keeps.trans ended.keeps⟩

theorem restart_drains {f : Part → Part} (eq : f x = complete (.port n) .ok (startDrain n .restartCmd x))
    (run : x.mrc.phase = .running) (word : (x.request (.port n)).taken = true) :
    answeredWith n .ok (settle (event f x)) ∧ ((settle (event f x)).port n).restartCount = (x.port n).restartCount ∧
    drains .restartCmd .restartWait .restartWait (x.lane n).outstanding (x.port n) ((settle (event f x)).port n) ∧
    (((settle (event f x)).port n).state = .restartWait → ((settle (event f x)).port n).timers.restart = some 500) := by
  have answered : answeredWith n .ok (f x) := by
    rw [eq]
    exact answeredWith_complete (by rw [startDrain_request]; exact word)
  have grace : (newDrain .restartCmd (x.port n).plan).graceMs = graceMs (x.port n).plan.grace := drainEnd_grace .restartCmd (x.port n).plan (by decide)
  obtain ⟨goes, ends, none, settled, keeps⟩ := startDrain_to_restart (n := n) run
  have rests := Rests.event (n := n) (f := f) (p := x) (by
    rw [eq]
    exact complete_quiet _ _ (quiet_of_state none settled))
  have port := rests.port
  rw [eq, complete_port] at port
  refine ⟨answeredWith_congr answered rests.request, ?_⟩
  rw [grace] at goes ends
  rw [port]
  generalize (startDrain n .restartCmd x).port n = r at goes ends keeps
  refine ⟨keeps.restartCount, Drains.within (d := newDrain .restartCmd (x.port n).plan) (fun c => ?_) (fun c => ?_) ⟨rfl, rfl, rfl, grace⟩,
    fun c => ?_⟩
  · obtain ⟨state, grant, drain, grace, rehello, kept, onTime⟩ := goes c
    exact ⟨state, grant, drain, grace, rehello, kept, onTime⟩
  · obtain ⟨ended, -⟩ := ends c
    exact ⟨ended.state, ended.grant, ended.drain⟩
  · by_cases h : flushes (x.lane n).outstanding (x.port n) = true ∨ graceMs (x.port n).plan.grace ≠ 0
    · have state : r.state = .restartWait := c
      exact absurd ((goes h).state.symm.trans state) (by decide)
    · refine (ends ⟨?_, ?_⟩).2
      · simpa using fun k => h (.inl k)
      · exact Decidable.not_not.1 (fun k => h (.inr k))

/-! ### The commands -/

theorem clearRequest_fault (s : (x.port n).state = .fault) : clearRequest n x = complete (.port n) .ok (clearFault n x) := by
  unfold clearRequest
  rw [if_pos s]

theorem clearRequest_other (s : (x.port n).state ≠ .fault) : clearRequest n x = complete (.port n) .ok x := by
  unfold clearRequest
  rw [if_neg s]

theorem restartRequest_cases (n : Port) (p : Part) :
    ((p.port n).state = .on → restartRequest n p = complete (.port n) .ok (startDrain n .restartCmd p)) ∧
    ((p.port n).state = .fault → restartRequest n p = complete (.port n) .ok (clearFault n p)) ∧
    ((p.port n).state ≠ .on → (p.port n).state ≠ .fault → restartRequest n p = complete (.port n) .state p) := by
  unfold restartRequest
  refine ⟨fun h => by rw [h], fun h => by rw [h], fun on fault => ?_⟩
  split
  next h => exact absurd h on
  next h => exact absurd h fault
  next => rfl

/-- The part `x` with a request of the port taken, and nothing but the bus and the request word changed. -/
structure TakenFrom (n : Port) (p x : Part) : Prop where
  ports : x.ports = p.ports
  lanes : x.lanes = p.lanes
  bu : x.bu = p.bu
  ms : x.ms = p.ms
  mrc : x.mrc = p.mrc
  pending : x.mo.pendingWheel = p.mo.pendingWheel
  word : (x.request (.port n)).taken = true

theorem taken_from (n : Port) (code : Byte) (high : BitVec 24) (p : Part) : TakenFrom n p (taken n code high p) :=
  ⟨rfl, rfl, rfl, rfl, rfl, rfl, by rw [taken_request]; rfl⟩

section
variable (h : TakenFrom n p x)
include h

theorem TakenFrom.port (m : Port) : x.port m = p.port m := by rw [Part.port, h.ports]; rfl

theorem TakenFrom.lane (m : Port) : x.lane m = p.lane m := by rw [Part.lane, h.lanes]; rfl

theorem TakenFrom.aside (m : Port) : x.aside m = p.aside m := by
  unfold Part.aside
  rw [h.port, h.lane, h.bu]

theorem TakenFrom.budgetLaw (law : budgetLaw p) : Machine.budgetLaw x := by
  unfold Machine.budgetLaw
  rw [h.bu, ceiling_of_blocks h.bu h.ms h.mrc, committed_of_ports h.ports]
  exact law

/-- A port that the request leaves aside goes on. -/
theorem TakenFrom.onward {f : Part → Part} (ql : queueLaw p) (wl : waitLaw p) (acts : Acts (only n) x (f x)) (aside : (f x).aside m = x.aside m) :
    Onward m (p.port m) p (f x) (settle (event f x)) :=
  (fullTail_event m f x).onward ql wl (leaves_of_aside (aside.trans (h.aside m))
    (by rw [Part.pendingWheel_of_fixed acts.fixed, h.pending]; exact id))

/-- A request answered without effect on the ports. -/
theorem TakenFrom.answered {f : Part → Part} (ql : queueLaw p) (wl : waitLaw p) (law : Machine.budgetLaw p) (acts : Acts (only n) x (f x))
    (eq : f x = complete (.port n) a x) : answeredWith n a (settle (event f x)) ∧
      (∀ m, goesOn m (p.port m) p (settle (event f x))) ∧ (p.mo.pendingWheel = none → (settle (event f x)).ports = p.ports) := by
  have all (m : Port) := h.onward (m := m) ql wl acts (by rw [eq, complete_aside])
  refine ⟨answeredWith_congr ?_ (all n).request, fun m => (all m).goesOn, fun none => ?_⟩
  · rw [eq]
    exact answeredWith_complete h.word
  · exact (answered_ports (h.budgetLaw law) (h.pending.trans none) eq).trans h.ports

theorem TakenFrom.clear (run : p.mrc.phase = .running) (ql : queueLaw p) (wl : waitLaw p) (law : Machine.budgetLaw p) (eq : settle (event (clearRequest n) x) = t) :
    answeredWith n .ok t ∧ (∀ m, m ≠ n ∨ (p.port n).state ≠ .fault → goesOn m (p.port m) p t) ∧
    ((p.port n).state ≠ .fault → p.mo.pendingWheel = none → t.ports = p.ports) ∧
    ((p.port n).state = .fault → Restored n p.mrc.standby (p.port n).plan t) := by
  subst eq
  have acts : Acts (only n) x (clearRequest n x) := Acts.refl.clearRequest (only_self n)
  by_cases fault : (p.port n).state = .fault
  · obtain ⟨restored, answered⟩ := fault_restored (clearRequest_fault (by rw [h.port]; exact fault)) (by rw [h.mrc]; exact run) h.word
    rw [h.mrc, h.port] at restored
    exact ⟨answered, fun m k => (h.onward ql wl acts (clearRequest_aside (fun e => k.resolve_right (not_not.2 fault) e.symm) x)).goesOn,
      fun c => absurd fault c, fun _ => restored⟩
  · obtain ⟨answered, goes, ports⟩ := h.answered ql wl law acts (clearRequest_other (by rw [h.port]; exact fault))
    exact ⟨answered, fun m _ => goes m, fun _ => ports, fun c => absurd c fault⟩

theorem TakenFrom.restart (run : p.mrc.phase = .running) (ql : queueLaw p) (wl : waitLaw p) (law : Machine.budgetLaw p)
    (eq : settle (event (restartRequest n) x) = t) :
    (t.request (.port n)).taken = true ∧ (∀ m, m ≠ n ∨ (p.port n).state ∉ [PortState.on, .fault] → goesOn m (p.port m) p t) ∧
    ((p.port n).state = .on → answeredWith n .ok t ∧ (t.port n).restartCount = (p.port n).restartCount ∧
      drains .restartCmd .restartWait .restartWait (p.lane n).outstanding (p.port n) (t.port n) ∧
      ((t.port n).state = .restartWait → (t.port n).timers.restart = some 500)) ∧
    ((p.port n).state = .fault → answeredWith n .ok t ∧ Restored n p.mrc.standby (p.port n).plan t) ∧
    ((p.port n).state ≠ .on → (p.port n).state ≠ .fault → answeredWith n .state t ∧ (p.mo.pendingWheel = none → t.ports = p.ports)) := by
  subst eq
  have acts : Acts (only n) x (restartRequest n x) := Acts.refl.restartRequest (only_self n)
  have others {m : Port} (here : (p.port n).state ∈ [PortState.on, .fault]) (k : m ≠ n ∨ (p.port n).state ∉ [PortState.on, .fault]) :=
    (h.onward (m := m) ql wl acts (restartRequest_aside (fun e => k.resolve_right (not_not.2 here) e.symm) x)).goesOn
  obtain ⟨drains, clears, refuses⟩ := restartRequest_cases n x
  rw [h.port] at drains clears refuses
  by_cases on : (p.port n).state = .on
  · have goes := restart_drains (drains on) (by rw [h.mrc]; exact run) h.word
    rw [h.port, h.lane] at goes
    exact ⟨goes.1.1, fun m => others (by rw [on]; simp), fun _ => goes, fun c => absurd (on.symm.trans c) (by decide), fun c => absurd on c⟩
  by_cases fault : (p.port n).state = .fault
  · obtain ⟨restored, answered⟩ := fault_restored (clears fault) (by rw [h.mrc]; exact run) h.word
    rw [h.mrc, h.port] at restored
    exact ⟨answered.1, fun m => others (by rw [fault]; simp), fun c => absurd c on, fun _ => ⟨answered, restored⟩, fun _ c => absurd fault c⟩
  · obtain ⟨answered, goes, ports⟩ := h.answered ql wl law acts (refuses on fault)
    exact ⟨answered.1, fun m _ => goes m, fun c => absurd c on, fun c => absurd c fault, fun _ _ => ⟨answered, ports⟩⟩

end

/-- The TAKEN image through the work of the request and the end of the command. -/
theorem taken_image {f : Part → Part} (acts : Acts (only n) (taken n code high p) (f (taken n code high p))) :
    takenImageCarried (.port n) code (high.setWidth 8) (settle (event f (taken n code high p))) :=
  taken_settled ((acts.mono (fun _ _ => trivial)).trans (acts_budgetAfter _ _)) rfl

/-- What follows a write of the port's request word. -/
theorem request_completes {c : Instr} {s : State} {post : State → Prop} {f : Part → Part}
    (arm : exec c s = requestAccess (.port n) (requestValue code high) s) (ready : busReady s.part)
    (free : (s.part.request (.port n)).taken = false) (work : ∀ p, startWork (.port n) code p = event f p)
    (plain : requestCode (.port n) code.toNat ≠ some .softReset)
    (h : post { s with part := settle (event f (taken n code high s.part)) }) : Completes c s post :=
  ⟨_, arm.trans (requestAccess_taken ready free work plain), h⟩

theorem requestCode_plain (n : Port) : requestCode (.port n) 0x12 ≠ some .softReset ∧ requestCode (.port n) 0x13 ≠ some .softReset := by
  revert n
  decide

end

/-- Settles O27: the request is taken, and its work is done in the same event. -/
theorem clearAndRestartActByState : Obligations.ClearAndRestartActByState := by
  intro n high s ready free law ql wl
  dsimp only
  constructor
  · refine request_completes (code := 0x12) (f := clearRequest n) rfl ready free (fun _ => rfl) (requestCode_plain n).1 ?_
    obtain ⟨⟨request, completion⟩, goes, ports, restored⟩ := (taken_from n 0x12 high s.part).clear ready.1 ql wl law rfl
    refine ⟨request, completion, taken_image (Acts.refl.clearRequest (only_self n)), goes, ports, fun fault => ?_⟩
    obtain ⟨cause, count, off, parked, queued⟩ := restored fault
    exact ⟨cause, count, off, parked, queued⟩
  · refine request_completes (code := 0x13) (f := restartRequest n) rfl ready free (fun _ => rfl) (requestCode_plain n).2 ?_
    obtain ⟨request, goes, on, restored, refused⟩ := (taken_from n 0x13 high s.part).restart ready.1 ql wl law rfl
    refine ⟨request, taken_image (Acts.refl.restartRequest (only_self n)), goes, fun here => ?_, fun fault => ?_, fun a b => ?_⟩
    · obtain ⟨answered, count, drains, timer⟩ := on here
      exact ⟨answered.2, count, drains, timer⟩
    · obtain ⟨answered, cause, count, off, parked, queued⟩ := restored fault
      exact ⟨answered.2, cause, count, off, parked, queued⟩
    · obtain ⟨answered, ports⟩ := refused a b
      exact ⟨answered.2, ports⟩

end Sys2Proof.Machine
end

