-- ==== Sys2Proof/Proofs/CoverageWalk.lean ====
section
/-! Grant decisions (R55 to R57): UNWATCHED after one, and the entry of the queue that the walk stops at or grants. -/

namespace Sys2Proof.Machine

section
variable {n : Port} {e : Entry} {p q : Part}

/-! ### UNWATCHED -/

/-- The record with UNWATCHED as this coverage has it. -/
def PortRecord.marked (r : PortRecord) (held covered : Bool) : PortRecord :=
  { r with flags := { r.flags with unwatched := if held then !covered else r.flags.unwatched } }

theorem markCoverage_record (l : List Entry) (p : Part) (n : Port) :
    (markCoverage l p).port n = (p.port n).marked (l.any (fun x => x.port == n)) (covered p n) := by
  induction l generalizing p with
  | nil => rfl
  | cons x rest ih =>
    rw [markCoverage, ih, List.any_cons, covered_of_fixed (setFlags_fixed ..)]
    by_cases port : x.port = n
    · subst port
      rw [setFlags_port_self]
      simp only [PortRecord.marked, BEq.rfl, Bool.true_or, if_true]
      split <;> rfl
    · rw [setFlags_port_ne port, beq_false_of_ne port, Bool.false_or]

theorem queueOrder_any (queue : List Entry) (n : Port) :
    (queueOrder queue).any (fun x => x.port == n) = queue.any (fun x => x.port == n) := by
  rw [Bool.eq_iff_iff]
  simp [List.any_eq_true, mem_queueOrder]

/-- The part as a grant decision has it before its walk (R56). -/
def marked (p : Part) : Part := markCoverage (queueOrder p.bu.queue) p

theorem marked_port (p : Part) (n : Port) : (marked p).port n = (p.port n).marked (holdsEntry n p) (covered p n) := by
  rw [marked, markCoverage_record, queueOrder_any]
  rfl

theorem marked_bu (p : Part) : (marked p).bu = p.bu := markCoverage_bu _ _

theorem marked_covered (p : Part) (n : Port) : covered (marked p) n = covered p n :=
  covered_of_fixed (markCoverage_fixed _ p) n

theorem marked_entryDelta (p : Part) (e : Entry) : entryDelta (marked p) e = entryDelta p e := by
  unfold entryDelta
  rw [marked_port]
  rfl

theorem marked_fits (p : Part) (k : Nat) : fits (marked p) k = fits p k := by
  obtain ⟨total, limit, -, -⟩ := markCoverage_totals (queueOrder p.bu.queue) p
  rw [marked, fits, fits, total, limit, markCoverage_bu]

theorem flagged_marked (n : Port) (p : Part) : Flagged n p (marked p) := flagged_markCoverage _ p

theorem grantDecision_eq (p : Part) :
    grantDecision p = if p.bu.isOver then marked p else walk (queueOrder p.bu.queue) (marked p) := by
  rw [grantDecision, ← marked, marked_bu]

/-! ### The walk -/

/-- The walk skips uncovered entries (R57). -/
theorem walk_skip (older l : List Entry) (p : Part) (h : ∀ x ∈ older, covered p x.port = false) :
    walk (older ++ l) p = walk l p := by
  induction older with
  | nil => rfl
  | cons x rest ih =>
    rw [List.cons_append, walk, h x List.mem_cons_self]
    exact ih (fun y m => h y (List.mem_cons_of_mem x m))

theorem walk_uncovered (l : List Entry) (p : Part) (h : ∀ x ∈ l, covered p x.port = false) : walk l p = p := by
  rw [← List.append_nil l, walk_skip l [] p h]
  rfl

/-- An entry of the queue is its port's only one. -/
theorem holder_of_queued (ql : queueLaw p) (m : e ∈ p.bu.queue) : Holder e.port e p := by
  obtain ⟨nodup, states, -⟩ := ql
  refine ⟨?_, states e m⟩
  have mem : e ∈ p.entriesOf e.port := mem_entriesOf.2 ⟨m, rfl⟩
  obtain none | ⟨x, one⟩ := filter_port_of_nodup nodup e.port
  · rw [Part.entriesOf, none] at mem
    cases mem
  · rw [Part.entriesOf, one, List.mem_singleton] at mem
    rw [Part.entriesOf, one, mem]

/-- UNWATCHED of the port says whether it is covered. -/
def watchedAs (n : Port) (p : Part) : Prop := (p.port n).flags.unwatched = !covered p n

theorem preempt_unwatched (x : Entry) (p : Part) (n : Port) :
    ((preempt x p).port n).flags.unwatched = (p.port n).flags.unwatched := by
  obtain sheds | short := preempt_cases x p
  · rw [sheds.port]
  · rw [short]
    by_cases port : x.port = n
    · subst port
      rw [setFlags_port_self]
    · rw [setFlags_port_ne port]

theorem watchedAs_preempt (x : Entry) (h : watchedAs n p) : watchedAs n (preempt x p) := by
  rw [watchedAs, preempt_unwatched, covered_of_fixed (preempt_fixed x p)]
  exact h

theorem Rests.watchedAs (h : Rests n p q) (fixed : q.fixed = p.fixed) (w : watchedAs n p) : Machine.watchedAs n q := by
  rw [Machine.watchedAs, h.port, covered_of_fixed fixed]
  exact w

/-- A granted port is covered, and UNWATCHED cleared. -/
theorem Holder.watchedAs_granted (w : Holder n e p) (c : covered p n = true) : watchedAs n (grant e p) := by
  have off : ((grant e p).port e.port).flags.unwatched = false := by
    obtain ⟨-, -, unwatched, -⟩ := w.granted.granted
    exact unwatched
  rw [watchedAs, ← w.port, off, covered_of_fixed (grant_fixed e p), w.port, c]
  rfl

theorem walk_watchedAs (l : List Entry) (p : Part)
    (own : l.filter (fun x => x.port == n) = [e] ∨ l.filter (fun x => x.port == n) = []) (w : Holder n e p) (h : watchedAs n p) :
    watchedAs n (walk l p) := by
  induction l generalizing p with
  | nil => exact h
  | cons x rest ih =>
    by_cases port : x.port = n
    · rw [List.filter_cons_of_pos (p := fun y : Entry => y.port == n) (by simpa using port)] at own
      have first : x = e ∧ rest.filter (fun y => y.port == n) = [] := by simpa using own
      obtain ⟨rfl, none⟩ := first
      rw [walk]
      split
      · exact ih p (.inr none) w h
      · next c =>
        split
        · have others : Rests n (grant x p) (walk rest (grant x p)) :=
            .walk rest _ (by simpa [List.filter_eq_nil_iff] using none)
          have here : covered p n = true := by rw [← port]; simpa using c
          exact others.watchedAs (walk_fixed rest _) (w.watchedAs_granted here)
        · split
          · exact watchedAs_preempt x h
          · exact h
    · rw [List.filter_cons_of_neg (p := fun y : Entry => y.port == n) (by simpa using port)] at own
      rw [walk]
      split
      · exact ih p own w h
      · split
        · have one := rests_grant port p
          exact ih _ own (one.flagged.holder w) (one.watchedAs (grant_fixed x p) h)
        · split
          · exact watchedAs_preempt x h
          · exact h

theorem marked_watchedAs (h : e ∈ p.bu.queue) : watchedAs e.port (marked p) := by
  have held : holdsEntry e.port p = true := List.any_eq_true.2 ⟨e, h, BEq.rfl⟩
  rw [watchedAs, marked_port, marked_covered, held]
  rfl

/-- After a grant decision UNWATCHED of a queued port says whether it is covered (R56). -/
theorem grantDecision_watchedAs (ql : queueLaw p) (h : e ∈ p.bu.queue) : watchedAs e.port (grantDecision p) := by
  have w := (flagged_marked e.port p).holder (holder_of_queued ql h)
  have own := queueOrder_own w.entries
  rw [marked_bu] at own
  rw [grantDecision_eq]
  split
  · exact marked_watchedAs h
  · exact walk_watchedAs _ _ (.inl own) w (marked_watchedAs h)

theorem grantDecision_unwatched (ql : queueLaw p) (h : e ∈ p.bu.queue) :
    ((grantDecision p).port e.port).flags.unwatched = !covered p e.port := by
  have watched := grantDecision_watchedAs ql h
  rw [watchedAs, covered_of_fixed (grantDecision_fixed p)] at watched
  exact watched

theorem grantDecision_noEntry (h : noEntry n p) : sameButStamp (p.port n) ((grantDecision p).port n) :=
  port_of_aside (grantDecision_aside p h)

theorem grantDecision_uncovered (h : ∀ x ∈ p.bu.queue, covered p x.port = false) : (grantDecision p).bu = p.bu := by
  rw [grantDecision_eq]
  split
  · exact marked_bu p
  · rw [walk_uncovered, marked_bu]
    intro x m
    rw [marked_covered]
    exact h x ((mem_queueOrder _ x).1 m)

/-! ### The first covered entry -/

section
variable {older rest : List Entry}

/-- The queue's order begins with uncovered entries, after which comes a covered one. -/
structure FirstCovered (older rest : List Entry) (e : Entry) (p : Part) : Prop where
  order : queueOrder p.bu.queue = older ++ e :: rest
  skipped : ∀ x ∈ older, covered p x.port = false
  covered : Machine.covered p e.port = true

theorem FirstCovered.queued (h : FirstCovered older rest e p) : e ∈ p.bu.queue := by
  rw [← mem_queueOrder, h.order]
  exact List.mem_append_right older List.mem_cons_self

theorem FirstCovered.walk (h : FirstCovered older rest e p) (normal : p.bu.isOver = false) :
    grantDecision p = if fits p (entryDelta p e) then walk rest (grant e (marked p))
      else if e.essential then preempt e (marked p) else marked p := by
  rw [grantDecision_eq, normal, h.order, walk_skip older _ _ (fun x m => (marked_covered p _).trans (h.skipped x m)), Machine.walk,
    marked_covered, h.covered, marked_entryDelta, marked_fits]
  rfl

theorem FirstCovered.granted_eq (h : FirstCovered older rest e p) (normal : p.bu.isOver = false)
    (fit : fits p (entryDelta p e) = true) : grantDecision p = Machine.walk rest (grant e (marked p)) := by
  rw [h.walk normal, fit]
  rfl

theorem FirstCovered.holder (h : FirstCovered older rest e p) (ql : queueLaw p) : Holder e.port e (marked p) :=
  (flagged_marked e.port p).holder (holder_of_queued ql h.queued)

/-- The entries after it are of other ports. -/
theorem FirstCovered.others (h : FirstCovered older rest e p) (ql : queueLaw p) : ∀ x ∈ rest, x.port ≠ e.port := by
  have own := queueOrder_own (holder_of_queued ql h.queued).entries
  rw [h.order, List.filter_append, List.filter_cons_of_pos (by simp)] at own
  obtain ⟨-, tail⟩ | ⟨x, -, tail⟩ := List.append_eq_cons_iff.1 own
  · have none : rest.filter (fun x => x.port == e.port) = [] := by simpa using tail
    simpa [List.filter_eq_nil_iff] using none
  · simp at tail

/-- Where it fits it is granted (R57, R58). -/
theorem FirstCovered.granted (h : FirstCovered older rest e p) (ql : queueLaw p) (normal : p.bu.isOver = false)
    (fit : fits p (entryDelta p e) = true) : grantedAs e (p.port e.port) (grantDecision p) := by
  have granted := (h.holder ql).granted.rests (.walk rest _ (h.others ql))
  rw [h.granted_eq normal fit]
  exact (granted.of_flagged (flagged_marked e.port p)).granted

end

end

end Sys2Proof.Machine
end

