-- ==== Sys2Proof/Proofs/Stamps.lean ====
section
/-! Stamps (R54): what a raise gives its port, and the renumbering at the end of the counter's range. -/

namespace Sys2Proof.Machine

/-! ### Sorted lists -/

section
variable {α : Type} {before : α → α → Bool}

theorem insertBy_sorted (asymm : ∀ a b, before a b = true → before b a = false)
    (trans : ∀ a b c, before a b = true → before b c = true → before a c = true) (x : α) (l : List α)
    (h : l.Pairwise (fun a b => before b a = false)) : (insertBy before x l).Pairwise (fun a b => before b a = false) := by
  induction l with
  | nil => exact List.pairwise_singleton _ x
  | cons y rest ih =>
    obtain ⟨first, sorted⟩ := List.pairwise_cons.1 h
    unfold insertBy
    split
    · next lt =>
      refine List.pairwise_cons.2 ⟨fun z m => ?_, h⟩
      obtain rfl | m := List.mem_cons.1 m
      · exact asymm x z lt
      · cases c : before z x with
        | false => rfl
        | true => exact absurd ((first z m).symm.trans (trans z x y c lt)) (by decide)
    · next ge =>
      refine List.pairwise_cons.2 ⟨fun z m => ?_, ih sorted⟩
      obtain rfl | m := (mem_insertBy before x z rest).1 m
      · exact Bool.eq_false_iff.2 ge
      · exact first z m

/-- A sort leaves no item before a smaller one. -/
theorem sortBy_sorted (asymm : ∀ a b, before a b = true → before b a = false)
    (trans : ∀ a b c, before a b = true → before b c = true → before a c = true) (l : List α) :
    (sortBy before l).Pairwise (fun a b => before b a = false) := by
  induction l with
  | nil => exact List.Pairwise.nil
  | cons x rest ih => exact insertBy_sorted asymm trans x _ ih

end

theorem allPorts_filter_nodup (f : Port → Bool) : (allPorts.filter f).Nodup := allPorts_nodup.filter f

section
variable {n : Port} {e : Entry} {p q : Part}

/-! ### Renumbering -/

theorem stampFrom_other (k : Nat) (l : List Port) (p : Part) {m : Port} (h : m ∉ l) : (stampFrom k l p).port m = p.port m := by
  induction l generalizing k p with
  | nil => rfl
  | cons x rest ih =>
    rw [stampFrom, ih _ _ (fun c => h (List.mem_cons_of_mem x c)), updPort_port_ne (fun c => h (by rw [c]; exact List.mem_cons_self))]

/-- The ports of a list in the order of `key` get the numbers from `k` on in that order. -/
theorem stampFrom_stamp (key : Port → Nat) (k : Nat) (l : List Port) (p : Part) (sorted : l.Pairwise (fun a b => key a < key b))
    {m : Port} (h : m ∈ l) : ((stampFrom k l p).port m).stamp = k + (l.filter (fun x => decide (key x < key m))).length := by
  induction l generalizing k p with
  | nil => cases h
  | cons x rest ih =>
    obtain ⟨first, sorted⟩ := List.pairwise_cons.1 sorted
    rw [stampFrom]
    obtain rfl | here := List.mem_cons.1 h
    · have fresh : m ∉ rest := fun c => absurd (first m c) (Nat.lt_irrefl _)
      have smallest : rest.filter (fun y => decide (key y < key m)) = [] := by
        rw [List.filter_eq_nil_iff]
        intro y c
        have := first y c
        simp only [decide_eq_true_eq]
        omega
      rw [stampFrom_other _ _ _ fresh, updPort_port_self, List.filter_cons_of_neg (by simp), smallest]
      rfl
    · rw [ih _ _ sorted here, List.filter_cons_of_pos (by simpa using first m here), List.length_cons]
      omega

theorem closedByStamp_perm (p : Part) : (closedByStamp p).Perm (allPorts.filter (fun n => (p.port n).state.closed)) :=
  sortBy_perm _ _

theorem closedByStamp_sorted (p : Part)
    (d : ∀ a ∈ closedByStamp p, ∀ b ∈ closedByStamp p, (p.port a).stamp = (p.port b).stamp → a = b) :
    (closedByStamp p).Pairwise (fun a b => (p.port a).stamp < (p.port b).stamp) := by
  have sorted : (closedByStamp p).Pairwise (fun a b => decide ((p.port b).stamp < (p.port a).stamp) = false) :=
    sortBy_sorted (fun a b h => by simp only [decide_eq_true_eq, decide_eq_false_iff_not] at h ⊢; omega)
      (fun a b c h g => by simp only [decide_eq_true_eq] at h g ⊢; omega) _
  have distinct : (closedByStamp p).Pairwise (fun a b => a ≠ b) :=
    (closedByStamp_perm p).nodup_iff.2 (allPorts_filter_nodup _)
  refine (sorted.and distinct).imp_of_mem ?_
  rintro a b ma mb ⟨le, ne⟩
  have le : ¬(p.port b).stamp < (p.port a).stamp := by simpa using le
  have differ : (p.port a).stamp ≠ (p.port b).stamp := fun c => ne (d a ma b mb c)
  omega

theorem giveStamp_early (n : Port) (h : p.bu.stampCounter < 65535) :
    giveStamp n p = updPort n (fun r => { r with stamp := p.bu.stampCounter + 1 })
      (p.mapBu (fun b => { b with stampCounter := b.stampCounter + 1 })) := by
  unfold giveStamp
  rw [if_neg (by show ¬65535 ≤ p.bu.stampCounter; omega)]
  rfl

theorem giveStamp_late (n : Port) (h : p.bu.stampCounter = 65535) :
    giveStamp n p = updPort n (fun r => { r with stamp := (closedByStamp p).length + 1 })
      ((renumber p).mapBu (fun b => { b with stampCounter := b.stampCounter + 1 })) := by
  unfold giveStamp
  rw [if_pos (by show 65535 ≤ p.bu.stampCounter; omega)]
  rfl

theorem giveStamp_renumbers (n : Port) (h : p.bu.stampCounter = 65535) : renumbered n p (giveStamp n p) := by
  have perm := closedByStamp_perm p
  unfold renumbered
  dsimp only
  intro d
  rw [giveStamp_late n h]
  refine ⟨by rw [updPort_port_self, perm.length_eq], fun m closed ne => ?_⟩
  have sorted := closedByStamp_sorted p (fun a ma b mb => d a (perm.mem_iff.1 ma) b (perm.mem_iff.1 mb))
  rw [updPort_port_ne ne.symm, ← (perm.filter _).length_eq]
  exact stampFrom_stamp (fun k => (p.port k).stamp) 1 _ p sorted (perm.mem_iff.2 closed)

/-- A renumbering looks at the states and the stamps before, and at the stamps after. -/
theorem renumbered_congr {x y : Part} (state : ∀ m, (x.port m).state = (p.port m).state)
    (stamp : ∀ m, (x.port m).stamp = (p.port m).stamp) (after : ∀ m, (y.port m).stamp = (q.port m).stamp)
    (h : renumbered n x y) : renumbered n p q := by
  unfold renumbered at h ⊢
  simp only [state, stamp, after] at h
  exact h

/-! ### The stamps through a grant -/

/-- The stamps and their counter stay. -/
structure SameStamps (p q : Part) : Prop where
  stamp : ∀ m, (q.port m).stamp = (p.port m).stamp
  counter : q.bu.stampCounter = p.bu.stampCounter

theorem SameStamps.refl (p : Part) : SameStamps p p := ⟨fun _ => rfl, rfl⟩

theorem SameStamps.trans {r : Part} (h : SameStamps p q) (g : SameStamps q r) : SameStamps p r :=
  ⟨fun m => (g.stamp m).trans (h.stamp m), g.counter.trans h.counter⟩

theorem sameStamps_updPort (n : Port) {f : PortRecord → PortRecord} (h : ∀ r, (f r).stamp = r.stamp) (p : Part) :
    SameStamps p (updPort n f p) where
  stamp m := by
    by_cases c : n = m
    · subst c
      rw [updPort_port_self, h]
    · rw [updPort_port_ne c]
  counter := by rw [updPort_bu]

theorem sameStamps_moveTo (n : Port) (st : PortState) (p : Part) : SameStamps p (moveTo n st p) where
  stamp m := by
    by_cases c : n = m
    · subst c
      exact (moveTo_port_self n st p).stamp
    · rw [moveTo_port_ne c]
  counter := by rw [moveTo_bu]

theorem sameStamps_dropEntry (n : Port) (p : Part) : SameStamps p (dropEntry n p) where
  stamp m := by
    by_cases c : n = m
    · subst c
      obtain ⟨f, h, -⟩ := dropEntry_port_self n p
      rw [h]
    · rw [dropEntry_port_ne c]
  counter := by rw [dropEntry_bu]

theorem sameStamps_setFlags (n : Port) (f : Flags → Flags) (p : Part) : SameStamps p (setFlags n f p) :=
  sameStamps_updPort n (f := fun r => { r with flags := f r.flags }) (fun _ => rfl) p

theorem sameStamps_setTimers (n : Port) (f : PortTimers → PortTimers) (p : Part) : SameStamps p (setTimers n f p) :=
  sameStamps_updPort n (f := fun r => { r with timers := f r.timers }) (fun _ => rfl) p

theorem sameStamps_setGrant (n : Port) (g : Nat) (p : Part) : SameStamps p (setGrant n g p) where
  stamp m := by
    by_cases c : n = m
    · subst c
      rw [setGrant_port_self]
    · rw [setGrant_port_ne c]
  counter := by rw [setGrant_bu]

theorem sameStamps_clearCounts (n : Port) (p : Part) : SameStamps p (clearCounts n p) where
  stamp m := by rw [clearCounts_port]
  counter := by rw [clearCounts_bu]

theorem sameStamps_grantPort (e : Entry) (p : Part) : SameStamps p (grantPort e p) := by
  rw [grantPort]
  split
  · exact ((sameStamps_moveTo _ _ p).trans (sameStamps_setGrant ..)).trans (sameStamps_setTimers ..)
  · exact (((sameStamps_moveTo _ _ p).trans (sameStamps_setGrant ..)).trans (sameStamps_setTimers ..)).trans (sameStamps_clearCounts ..)

theorem sameStamps_marked (p : Part) : SameStamps p (marked p) where
  stamp m := by
    rw [marked_port]
    rfl
  counter := by rw [marked_bu]

/-- Before the end of the counter's range a raise gives its port the next stamp and leaves the others. -/
theorem grant_stamp_early (e : Entry) (h : p.bu.stampCounter < 65535) :
    (grant e p).bu.stampCounter = p.bu.stampCounter + 1 ∧
    ∀ m, ((grant e p).port m).stamp = if e.port = m then p.bu.stampCounter + 1 else (p.port m).stamp := by
  have drop := sameStamps_dropEntry e.port p
  have raised := sameStamps_grantPort e (giveStamp e.port (dropEntry e.port p))
  rw [grant]
  refine ⟨raised.counter.trans ?_, fun m => (raised.stamp m).trans ?_⟩
  · rw [giveStamp_early _ (by rw [drop.counter]; exact h), updPort_bu]
    exact congrArg (· + 1) drop.counter
  · rw [giveStamp_early _ (by rw [drop.counter]; exact h)]
    split
    · next own =>
      rw [own, updPort_port_self, ← own, drop.counter]
    · next other =>
      rw [updPort_port_ne other]
      exact drop.stamp m

theorem grant_renumbers (e : Entry) (h : p.bu.stampCounter = 65535) : renumbered e.port p (grant e p) := by
  have drop := sameStamps_dropEntry e.port p
  have raised := sameStamps_grantPort e (giveStamp e.port (dropEntry e.port p))
  refine renumbered_congr (fun m => ?_) drop.stamp (fun m => (raised.stamp m).symm)
    (giveStamp_renumbers e.port (drop.counter.trans h))
  by_cases c : e.port = m
  · subst c
    obtain ⟨f, h, -⟩ := dropEntry_port_self e.port p
    rw [h]
  · rw [dropEntry_port_ne c]

theorem preempt_stamp (e : Entry) (p : Part) (m : Port) : ((preempt e p).port m).stamp = (p.port m).stamp := by
  obtain sheds | short := preempt_cases e p
  · rw [sheds.port]
  · rw [short]
    exact (sameStamps_setFlags e.port _ p).stamp m

/-- Before the end of the counter's range a walk over entries of other ports leaves the port its stamp. -/
theorem walk_stamp_other (l : List Entry) (p : Part) (others : ∀ x ∈ l, x.port ≠ n) (h : p.bu.stampCounter + l.length ≤ 65535) :
    ((walk l p).port n).stamp = (p.port n).stamp := by
  induction l generalizing p with
  | nil => rfl
  | cons x rest ih =>
    have othersLeft : ∀ y ∈ rest, y.port ≠ n := fun y m => others y (List.mem_cons_of_mem x m)
    rw [List.length_cons] at h
    rw [walk]
    split
    · exact ih p othersLeft (by omega)
    · split
      · obtain ⟨counter, stamp⟩ := grant_stamp_early (p := p) x (by omega)
        rw [ih _ othersLeft (by omega), stamp, if_neg (others x List.mem_cons_self)]
      · split
        · exact preempt_stamp x p n
        · rfl

theorem queueOrder_length (queue : List Entry) : (queueOrder queue).length = queue.length := by
  induction queue with
  | nil => rfl
  | cons x rest ih =>
    have bound := x.priority.isLt
    simp only [queueOrder, List.flatMap_cons, List.flatMap_nil, List.length_append, List.filter_cons, List.length_cons,
      List.length_nil] at ih ⊢
    rcases x.priority with ⟨k, lt⟩
    interval_cases k <;> simp <;> omega

section
variable {older rest : List Entry}

theorem FirstCovered.length (h : FirstCovered older rest e p) : p.bu.queue.length = older.length + rest.length + 1 := by
  have length := congrArg List.length h.order
  rw [queueOrder_length, List.length_append, List.length_cons] at length
  omega

theorem FirstCovered.stamped (h : FirstCovered older rest e p) (ql : queueLaw p) (normal : p.bu.isOver = false)
    (fit : fits p (entryDelta p e) = true) (early : p.bu.stampCounter + p.bu.queue.length ≤ 65535) :
    ((grantDecision p).port e.port).stamp = p.bu.stampCounter + 1 := by
  have length := h.length
  have same := (sameStamps_marked p).counter
  obtain ⟨counter, stamp⟩ := grant_stamp_early (p := marked p) e (by omega)
  rw [h.granted_eq normal fit, walk_stamp_other rest _ (h.others ql) (by omega), stamp, if_pos rfl, same]

theorem FirstCovered.renumbered (h : FirstCovered older rest e p) (normal : p.bu.isOver = false)
    (fit : fits p (entryDelta p e) = true) (late : p.bu.stampCounter = 65535) (alone : p.bu.queue = [e]) :
    renumbered e.port p (grantDecision p) := by
  have length := h.length
  have same := sameStamps_marked p
  have last : rest = [] := by
    rw [alone, List.length_singleton] at length
    exact List.eq_nil_of_length_eq_zero (by omega)
  rw [h.granted_eq normal fit, last]
  refine renumbered_congr (fun m => ?_) same.stamp (fun _ => rfl) (grant_renumbers e (same.counter.trans late))
  rw [marked_port]
  rfl

end

end

end Sys2Proof.Machine
end

