-- ==== Sys2Proof/Proofs/Preemption.lean ====
section
/-! The preemption test of a blocking essential entry (R59 to R62), and O58. -/

namespace Sys2Proof.Machine

section
variable {n : Port} {e : Entry} {p q : Part}

/-! ### Shed orders sent in turn -/

theorem sendShedOrder_only (n : Port) (p : Part) : ShedsOnly (sendShedOrder n p) p := ⟨_, _, rfl⟩

theorem shedding_sendShedOrder (n : Port) (p : Part) : shedding (sendShedOrder n p) = shedding p + (p.port n).grant := by
  show (List.map _ (p.bu.shedList ++ [n])).sum = _
  rw [List.map_append, List.sum_append, List.map_singleton, List.sum_singleton]
  rfl

theorem grants_cons (p : Part) (n : Port) (l : List Port) : grants p (n :: l) = (p.port n).grant + grants p l := by
  rw [grants, List.map_cons, List.sum_cons]
  rfl

theorem grants_sendShedOrder (n : Port) (p : Part) (l : List Port) : grants (sendShedOrder n p) l = grants p l := rfl

/-- With these ports shed too, the need is within the ceiling (R62). -/
def enoughWith (need : Nat) (p : Part) (l : List Port) : Prop := committed p + need ≤ ceiling p + shedding p + grants p l

theorem enoughWith_nil (need : Nat) (p : Part) : enoughWith need p [] ↔ committed p + need ≤ ceiling p + shedding p := .rfl

theorem enoughWith_sendShedOrder (need : Nat) (n : Port) (p : Part) (l : List Port) :
    enoughWith need (sendShedOrder n p) l ↔ enoughWith need p (n :: l) := by
  obtain ⟨total, limit, -⟩ := (sendShedOrder_only n p).keeps
  unfold enoughWith
  rw [total, limit, shedding_sendShedOrder, grants_sendShedOrder, grants_cons]
  omega

/-- The first candidates were ordered shed, and no more than needed. -/
structure Ordered (need : Nat) (p q : Part) (sent spare : List Port) : Prop where
  shedList : q.bu.shedList = p.bu.shedList ++ sent
  orders : q.bu.orders = p.bu.orders ++ sent
  enough : enoughWith need p sent ∨ spare = []
  minimal : ∀ k < sent.length, ¬enoughWith need p (sent.take k)

theorem Ordered.next {need : Nat} {sent spare : List Port} (h : Ordered need (sendShedOrder n p) q sent spare)
    (few : ¬enoughWith need p []) : Ordered need p q (n :: sent) spare where
  shedList := h.shedList.trans (List.append_assoc p.bu.shedList [n] sent)
  orders := h.orders.trans (List.append_assoc p.bu.orders [n] sent)
  enough := h.enough.imp_left (enoughWith_sendShedOrder need n p sent).1
  minimal k lt := by
    cases k with
    | zero => exact few
    | succ k =>
      rw [List.take_succ_cons, ← enoughWith_sendShedOrder]
      exact h.minimal k (Nat.lt_of_succ_lt_succ lt)

theorem shedUntil_ordered (need : Nat) (l : List Port) (p : Part) :
    ∃ sent spare, l = sent ++ spare ∧ Ordered need p (shedUntil need l p) sent spare := by
  have stop (l : List Port) (p : Part) (h : enoughWith need p [] ∨ l = []) : Ordered need p p [] l :=
    ⟨(List.append_nil _).symm, (List.append_nil _).symm, h, fun k lt => absurd lt (Nat.not_lt_zero k)⟩
  induction l generalizing p with
  | nil => exact ⟨[], [], rfl, stop [] p (.inr rfl)⟩
  | cons x rest ih =>
    by_cases c : enoughWith need p []
    · refine ⟨[], x :: rest, rfl, ?_⟩
      rw [shedUntil, if_pos ((enoughWith_nil need p).1 c)]
      exact stop _ p (.inl c)
    · obtain ⟨sent, spare, parts, ordered⟩ := ih (sendShedOrder x p)
      refine ⟨x :: sent, spare, congrArg (x :: ·) parts, ?_⟩
      rw [shedUntil, if_neg (fun k => c ((enoughWith_nil need p).2 k))]
      exact ordered.next c

/-! ### The candidates -/

theorem shedsBefore_iff (p : Part) (a b : Port) : shedsBefore p a b = true ↔
    (p.port a).plan.priority < (p.port b).plan.priority ∨
    ((p.port a).plan.priority = (p.port b).plan.priority ∧
      (((p.port a).state.starting = true ∧ (p.port b).state.starting = false) ∨
      ((p.port a).state.starting = (p.port b).state.starting ∧ (p.port b).stamp < (p.port a).stamp))) := by
  unfold shedsBefore
  dsimp only
  split
  · next ne => simp [ne]
  · next same =>
    have same := not_not.1 same
    split
    · next ne =>
      cases x : (p.port a).state.starting <;> cases y : (p.port b).state.starting <;> simp_all
    · next starting => simp [same, not_not.1 starting]

theorem shedsBefore_asymm (p : Part) (a b : Port) (h : shedsBefore p a b = true) : shedsBefore p b a = false := by
  rw [Bool.eq_false_iff, Ne, shedsBefore_iff]
  rw [shedsBefore_iff] at h
  grind

theorem shedsBefore_trans (p : Part) (a b c : Port) (h : shedsBefore p a b = true) (g : shedsBefore p b c = true) :
    shedsBefore p a c = true := by
  rw [shedsBefore_iff] at h g ⊢
  grind

/-- The preemption candidates, in shed order (R59, R61). -/
def preemptables (e : Entry) (p : Part) : List Port :=
  shedCandidates p (fun n => decide ((p.port n).plan.priority < e.priority))

theorem preemptables_perm (e : Entry) (p : Part) : (preemptables e p).Perm (allPorts.filter (preemptable e p)) := sortBy_perm _ _

theorem preemptables_sorted (e : Entry) (p : Part) : (preemptables e p).Pairwise (fun a b => shedsBefore p b a = false) :=
  sortBy_sorted (shedsBefore_asymm p) (shedsBefore_trans p) _

theorem grants_preemptables (e : Entry) (p : Part) :
    grants p (preemptables e p) = grants p (allPorts.filter (preemptable e p)) :=
  ((preemptables_perm e p).map _).sum_eq

theorem enoughShed_iff (e : Entry) (p : Part) (l : List Port) :
    enoughShed e p (grants p l) = true ↔ enoughWith (entryDelta p e) p l := decide_eq_true_iff

theorem cannotShed_iff (e : Entry) (p : Part) : cannotShed e p = true ↔ ¬enoughWith (entryDelta p e) p (preemptables e p) := by
  rw [cannotShed, Bool.not_eq_true', ← Bool.not_eq_true, ← grants_preemptables, enoughShed_iff]

/-! ### The preemption test -/

theorem preempt_eq (e : Entry) (p : Part) : preempt e p =
    if enoughShed e p 0 then p
    else if cannotShed e p then setFlags e.port (fun f => { f with short := true }) p
    else shedUntil (entryDelta p e) (preemptables e p) p := by
  have now : enoughShed e p 0 = true ↔ committed p + entryDelta p e ≤ ceiling p + shedding p := enoughShed_iff e p []
  have never := cannotShed_iff e p
  unfold preempt
  dsimp only
  split
  · next c => rw [if_pos (now.2 c)]
  · next c =>
    rw [if_neg (fun k => c (now.1 k))]
    split
    · next d => rw [if_neg (fun k => never.1 k d)]; rfl
    · next d => rw [if_pos (never.2 d)]

theorem enoughWith_more {need : Nat} (l : List Port) (h : enoughWith need p []) : enoughWith need p l := by
  rw [enoughWith_nil] at h
  unfold enoughWith
  omega

theorem shedUntil_shedsFor (can : cannotShed e p = false) :
    ∃ sent spare, shedsFor e p (shedUntil (entryDelta p e) (preemptables e p) p) sent spare := by
  obtain ⟨sent, spare, parts, ordered⟩ := shedUntil_ordered (entryDelta p e) (preemptables e p) p
  have perm := preemptables_perm e p
  have sorted := preemptables_sorted e p
  have all : enoughWith (entryDelta p e) p (preemptables e p) := by
    by_contra c
    exact absurd (can.symm.trans ((cannotShed_iff e p).2 c)) (by decide)
  rw [parts] at perm sorted all
  refine ⟨sent, spare, ordered.shedList, ordered.orders, perm.nodup_iff.2 (allPorts_filter_nodup _), fun n => ?_, sorted, ?_, ?_⟩
  · rw [perm.mem_iff, List.mem_filter, and_iff_right (mem_allPorts n)]
  · rw [enoughShed_iff]
    obtain enough | none := ordered.enough
    · exact enough
    · rw [none, List.append_nil] at all
      exact all
  · intro k lt
    rw [Bool.eq_false_iff, Ne, enoughShed_iff]
    exact ordered.minimal k lt

/-- The preemption test of a blocking essential entry sheds no more than it needs (R61, R62). -/
theorem preempt_preempts (e : Entry) (p : Part) : preempts e p (preempt e p) := by
  rw [preempt_eq]
  refine ⟨fun h => ?_, fun now can => ?_⟩
  · by_cases now : enoughShed e p 0 = true
    · rw [if_pos now]
      exact ⟨rfl, rfl⟩
    · rw [if_neg now, if_pos (h.resolve_left now), setFlags_bu]
      exact ⟨rfl, rfl⟩
  · rw [now, can]
    exact shedUntil_shedsFor can

/-- The record with SHORT set too where the entry of the port cannot be made room for (R61 case 3). -/
def PortRecord.shorted (r : PortRecord) (short : Bool) : PortRecord :=
  { r with flags := { r.flags with short := r.flags.short || short } }

theorem shorted_false (r : PortRecord) : r.shorted false = r := by
  rw [PortRecord.shorted, Bool.or_false]

theorem preempt_port (e : Entry) (p : Part) (n : Port) :
    (preempt e p).port n = (p.port n).shorted (n == e.port && cannotShed e p) := by
  rw [preempt_eq]
  split
  · next now =>
    have can : cannotShed e p = false := by
      rw [Bool.eq_false_iff, Ne, cannotShed_iff, not_not]
      exact enoughWith_more _ ((enoughShed_iff e p []).1 now)
    rw [can, Bool.and_false, shorted_false]
  · split
    · next cannot =>
      rw [cannot, Bool.and_true]
      by_cases own : e.port = n
      · subst own
        rw [setFlags_port_self, BEq.rfl, PortRecord.shorted, Bool.or_true]
      · rw [setFlags_port_ne own, beq_false_of_ne (Ne.symm own), shorted_false]
    · next can =>
      rw [(shedUntil_only _ _ p).port, Bool.eq_false_iff.2 can, Bool.and_false, shorted_false]

/-! ### The test sees through the coverage marks -/

theorem marked_enoughShed (e : Entry) (p : Part) (k : Nat) : enoughShed e (marked p) k = enoughShed e p k := by
  obtain ⟨total, limit, shed, -⟩ := markCoverage_totals (queueOrder p.bu.queue) p
  have delta := marked_entryDelta p e
  rw [marked] at delta
  rw [enoughShed, enoughShed, marked, total, limit, shed, delta]

theorem marked_preemptable (e : Entry) (p : Part) : preemptable e (marked p) = preemptable e p := by
  obtain ⟨-, -, -, candidate⟩ := markCoverage_totals (queueOrder p.bu.queue) p
  funext n
  rw [preemptable, preemptable, marked_port, marked, candidate]
  rfl

theorem marked_grants (p : Part) (l : List Port) : grants (marked p) l = grants p l := by
  unfold grants
  refine congrArg List.sum (List.map_congr_left (fun n _ => ?_))
  rw [marked_port]
  rfl

theorem marked_shedsBefore (p : Part) (a b : Port) : shedsBefore (marked p) a b = shedsBefore p a b := by
  unfold shedsBefore
  rw [marked_port, marked_port]
  rfl

theorem marked_cannotShed (e : Entry) (p : Part) : cannotShed e (marked p) = cannotShed e p := by
  rw [cannotShed, cannotShed, marked_preemptable, marked_grants, marked_enoughShed]

theorem preempts_of_marked (h : preempts e (marked p) q) : preempts e p q := by
  unfold preempts shedsFor at h ⊢
  simp only [marked_enoughShed, marked_cannotShed, marked_grants, marked_preemptable, marked_shedsBefore, marked_bu] at h
  exact h

section
variable {older rest : List Entry}

theorem FirstCovered.blocked_eq (h : FirstCovered older rest e p) (blocked : p.bu.isOver = true ∨ fits p (entryDelta p e) = false) :
    grantDecision p = if !p.bu.isOver && e.essential then preempt e (marked p) else marked p := by
  cases budget : p.bu.isOver with
  | true =>
    rw [grantDecision_eq, budget]
    rfl
  | false =>
    have unfit := blocked.resolve_left (by rw [budget]; decide)
    rw [h.walk budget, unfit]
    rfl

theorem FirstCovered.blocked_port (h : FirstCovered older rest e p) (blocked : p.bu.isOver = true ∨ fits p (entryDelta p e) = false) :
    (grantDecision p).bu.queue = p.bu.queue ∧
    ∀ n, (grantDecision p).port n = ((p.port n).marked (holdsEntry n p) (Machine.covered p n)).shorted
      (n == e.port && !p.bu.isOver && e.essential && cannotShed e p) := by
  rw [h.blocked_eq blocked]
  split
  · next tested =>
    rw [Bool.and_eq_true] at tested
    obtain ⟨normal, essential⟩ := tested
    refine ⟨?_, fun n => ?_⟩
    · obtain ⟨shedList, orders, sheds⟩ | short := preempt_cases e (marked p)
      · rw [sheds]
        show (marked p).bu.queue = p.bu.queue
        rw [marked_bu]
      · rw [short, setFlags_bu, marked_bu]
    · rw [preempt_port, marked_port, marked_cannotShed, normal, essential, Bool.and_true, Bool.and_true]
  · next untested =>
    refine ⟨congrArg Budget.queue (marked_bu p), fun n => ?_⟩
    rw [Bool.and_assoc (n == e.port), Bool.eq_false_iff.2 untested, Bool.and_false, Bool.false_and, shorted_false, marked_port]

theorem FirstCovered.preempted (h : FirstCovered older rest e p) (normal : p.bu.isOver = false)
    (unfit : fits p (entryDelta p e) = false) (essential : e.essential = true) : preempts e p (grantDecision p) := by
  rw [h.blocked_eq (.inr unfit), normal, essential]
  exact preempts_of_marked (preempt_preempts e (marked p))

theorem FirstCovered.unshed (h : FirstCovered older rest e p)
    (stays : p.bu.isOver = true ∨ (fits p (entryDelta p e) = false ∧ e.essential = false)) : (grantDecision p).bu = p.bu := by
  have untested : (!p.bu.isOver && e.essential) = false := by
    obtain full | ⟨-, spare⟩ := stays
    · rw [full]; rfl
    · rw [spare, Bool.and_false]
  rw [h.blocked_eq (stays.imp_right And.left), untested]
  exact marked_bu p

end

end

/-- Settles O58: the coverage marks, then the fate of the first covered entry. -/
theorem grantDecisionFollowsTheQueueOrder : Obligations.GrantDecisionFollowsTheQueueOrder := by
  refine ⟨fun p ql => ⟨fun x m => grantDecision_unwatched ql m, fun n ne => grantDecision_noEntry ne, grantDecision_uncovered⟩, ?_⟩
  intro older rest e p _ ql order skipped here
  have first : FirstCovered older rest e p := ⟨order, skipped, here⟩
  refine ⟨fun normal fit => ⟨first.granted ql normal fit, first.stamped ql normal fit, first.renumbered normal fit⟩,
    first.blocked_port, fun normal unfit essential => first.preempted normal unfit essential, fun stays => ?_⟩
  rw [first.unshed stays]
  exact ⟨rfl, rfl⟩

end Sys2Proof.Machine
end

