-- ==== Sys2Proof/Proofs/DeviceCopies.lean ====
section
/-! A copy read of the device request: the device plan, the wheel image and the sequence plan delivered (R44, R79, R80, R130, R131). -/

namespace Sys2Proof.Machine

section
variable {p q x y t : Part}

/-! ### The part that takes the copy -/

/-- The part as the copy read has left the memory port, the write that waited for it on the CP list (R129, R148). -/
def received (source : Source) (p : Part) : Part := releaseWrite source (p.mapMo (fun o => { o with inFlight := none }))

theorem received_steady (source : Source) (p : Part) : Steady (received source p) p :=
  (releaseWrite_steady source _).trans ⟨.refl p, rfl, rfl⟩

theorem releaseWrite_request (source : Source) (p : Part) (w : ReqWord) : (releaseWrite source p).request w = p.request w := by
  unfold releaseWrite
  split
  · split
    · exact carry_request p w
    · rfl
  · rfl

theorem mapMo_request (f : Orderer → Orderer) (p : Part) (w : ReqWord) : (p.mapMo f).request w = p.request w := by
  cases w <;> rfl

theorem received_request (source : Source) (p : Part) (w : ReqWord) : (received source p).request w = p.request w := by
  rw [received, releaseWrite_request, mapMo_request]

/-- With no access in progress nothing waited for the copy read. -/
theorem received_idle (source : Source) (none : p.ptp.access = none) :
    received source p = p.mapMo (fun o => { o with inFlight := Option.none }) := by
  unfold received releaseWrite
  have free : (p.mapMo (fun o => { o with inFlight := Option.none })).ptp.access = Option.none := none
  rw [free]

/-- The work a completed copy read gives its block. -/
def copyWork (source : Source) (fault : Bool) (bytes : List Byte) (x : Part) : Part :=
  if fault then complete source.word .memFault x else deliver source bytes x

theorem copyRead_completes {source : Source} {address length : Nat} {fault : Bool} {s : State} {post : State → Prop}
    (flight : s.part.mo.inFlight = some (.copyRead source address length false)) (fits : address + length ≤ Config.memoryBytes)
    (h : ∀ t : State, t.part = settle (copyWork source fault (s.mem.readBytes address length) (received source s.part)) → post t) :
    Completes (.copyReadComplete fault) s post := by
  have inside : InFlight.outside (.copyRead source address length false) = false :=
    decide_eq_false (Nat.not_lt.2 fits)
  refine ⟨{ s with
    mem := memoryAfter (.copyRead source address length false) fault [] s.mem
    part := afterBurst (.copyRead source address length false) fault (s.mem.readBytes address length) s.part }, ?_, h _ rfl⟩
  show execCopyReadComplete fault s = _
  unfold execCopyReadComplete
  rw [flight]
  dsimp only
  unfold completeBurst
  rw [inside]
  rfl

/-! ### The end of a command without a pending wheel -/

/-- The ports, what steers them and the request words are those of `p`. -/
structure Unmoved (p q : Part) : Prop where
  ports : q.ports = p.ports
  bu : q.bu = p.bu
  ms : q.ms = p.ms
  lanes : q.lanes = p.lanes
  wheel : q.mo.wheel = p.mo.wheel
  pending : q.mo.pendingWheel = p.mo.pendingWheel
  request : ∀ w, q.request w = p.request w

theorem Unmoved.refl (p : Part) : Unmoved p p := ⟨rfl, rfl, rfl, rfl, rfl, rfl, fun _ => rfl⟩

theorem Unmoved.trans (h : Unmoved p x) (g : Unmoved x q) : Unmoved p q :=
  ⟨g.ports.trans h.ports, g.bu.trans h.bu, g.ms.trans h.ms, g.lanes.trans h.lanes, g.wheel.trans h.wheel, g.pending.trans h.pending,
    fun w => (g.request w).trans (h.request w)⟩

theorem unmoved_of_steady (h : Steady q p) (request : ∀ w, q.request w = p.request w) : Unmoved p q := by
  obtain ⟨⟨ports, bu, ms, lanes, -⟩, wheel, pending⟩ := h
  exact ⟨ports, bu, ms, lanes, wheel, pending, request⟩

theorem unmoved_received (source : Source) (p : Part) : Unmoved p (received source p) :=
  unmoved_of_steady (received_steady source p) (received_request source p)

theorem unmoved_adoptSweep (p : Part) : Unmoved p (adoptSweep p) := by
  obtain e | e := adoptSweep_cases p <;> rw [e]
  · exact .refl p
  · exact Unmoved.trans (x := p.mapMrc (fun m => { m with adoptionTimer := none }))
      ⟨rfl, rfl, rfl, rfl, rfl, rfl, fun w => by cases w <;> rfl⟩
      (unmoved_of_steady (reportDevice_steady _ _) (reportDevice_request _ _))

theorem unmoved_grantAt (i : Nat) (p : Part) : Unmoved p (grantAt i p) :=
  unmoved_of_steady (grantAt_steady i p) (grantAt_request i p)

theorem unmoved_moDecision (h : p.mo.pendingWheel = none) : Unmoved p (moDecision p) := by
  obtain e | ⟨i, -, -, e⟩ := moDecision_cases p <;> rw [e]
  · exact .refl p
  · have granted := unmoved_grantAt i p
    rw [swapAfter_none (granted.pending.trans h)]
    exact granted

/-- With no wheel pending the end of a command moves nothing of a port (R126, R190). -/
theorem unmoved_settle (h : p.mo.pendingWheel = none) : Unmoved p (settle p) := by
  have swept := unmoved_adoptSweep p
  rw [settle_none h]
  exact swept.trans (unmoved_moDecision (swept.pending.trans h))

/-! ### A request completed -/

theorem complete_completion (w : ReqWord) (a : Result) (p : Part) : ((complete w a p).request w).completion = some a := by
  rw [complete_request, if_pos rfl]

/-- A request of the device refused, and nothing else of the part moved. -/
structure Refused (a : Result) (p t : Part) : Prop where
  completion : (t.request .device).completion = some a
  ports : t.ports = p.ports
  bu : t.bu = p.bu
  ms : t.ms = p.ms
  wheel : t.mo.wheel = p.mo.wheel
  pending : t.mo.pendingWheel = none

theorem refused_settle (a : Result) (u : Unmoved p x) (none : p.mo.pendingWheel = none) : Refused a p (settle (complete .device a x)) := by
  have pending : (complete .device a x).mo.pendingWheel = Option.none := by rw [complete_mo, u.pending, none]
  have settled := unmoved_settle pending
  exact ⟨by rw [settled.request, complete_completion], by rw [settled.ports, complete_ports, u.ports],
    by rw [settled.bu, complete_bu, u.bu], by rw [settled.ms, complete_ms, u.ms],
    by rw [settled.wheel, complete_mo, u.wheel], settled.pending.trans pending⟩

/-! ### The request word of the device -/

theorem sendShedOrder_request (n : Port) (p : Part) (w : ReqWord) : (sendShedOrder n p).request w = p.request w := mapBu_request _ _ _

theorem budgetTest_request (p : Part) (w : ReqWord) : (budgetTest p).request w = p.request w := by
  unfold budgetTest
  split
  · rfl
  · rw [reportDevice_request, mapBu_request]

theorem shortfallTest_request (p : Part) (w : ReqWord) : (shortfallTest p).request w = p.request w := by
  unfold shortfallTest
  split
  · rfl
  · rw [reportDevice_request, mapBu_request]

/-- No operation of the ports completes a request of the device. -/
theorem Acts.deviceRequest {S : Port → Prop} (h : Acts S p q) : q.request .device = p.request .device := by
  induction h with
  | refl => rfl
  | move _ _ st ih => exact (moveTo_request _ _ _ st).trans ih
  | upd _ _ _ ih => exact (updPort_request _ _ _ _).trans ih
  | identify _ _ _ ih => exact (reportPort_request _ _ _ _).trans ((updPort_request _ _ _ _).trans ih)
  | unplug _ _ _ ih => exact (updPort_request _ _ _ _).trans ((moveTo_request _ _ _ _).trans ih)
  | enterOn _ _ _ ih => exact (updPort_request _ _ _ _).trans ((moveTo_request _ _ _ _).trans ih)
  | setGrant _ _ _ g ih => exact (setGrant_request _ _ _ g).trans ih
  | setLane _ _ _ ih => exact ih
  | stamp _ _ _ ih => exact (updPort_request _ _ _ _).trans ih
  | mapBu _ _ ih => exact ih
  | order _ _ ih => exact ih
  | handOver _ _ ih => exact ih
  | window _ _ _ ih => exact ih
  | counts _ _ ih => exact ih
  | complete _ _ r ih =>
    rw [complete_request, if_neg (by simp)]
    exact ih
  | report _ _ _ ih => exact (reportPort_request _ _ _ _).trans ih
  | budgetTest _ ih => exact (budgetTest_request _ _).trans ih
  | shortfallTest _ ih => exact (shortfallTest_request _ _).trans ih

/-! ### The device plan -/

theorem storeDevicePlan_keeps (d : DevicePlan) (p : Part) : (storeDevicePlan d p).bu.plan = d ∧ (storeDevicePlan d p).mo = p.mo := by
  unfold storeDevicePlan
  dsimp only
  split
  · exact ⟨rfl, rfl⟩
  · rw [reportDevice_bu, reportDevice_mo]
    exact ⟨rfl, rfl⟩

/-- An event and the end of its command keep the device plan and the device's completion. -/
theorem event_settle_device {f : Part → Part} (none : (f p).mo.pendingWheel = none) :
    (settle (event f p)).bu.plan = (f p).bu.plan ∧ (settle (event f p)).request .device = (f p).request .device := by
  have acts := acts_budgetAfter (decisionTrigger p (f p)) (f p)
  rw [event]
  have settled := unmoved_settle ((Part.pendingWheel_of_fixed acts.fixed).trans none)
  rw [settled.bu, settled.request, acts.deviceRequest, Part.plan_of_fixed acts.fixed]
  exact ⟨rfl, rfl⟩

/-- An APPLY_DEVICE is delivered (R44). -/
theorem devicePlan_delivered (d : DevicePlan) (u : Unmoved p x) (none : p.mo.pendingWheel = none) :
    let t := settle (event (deliverDevicePlan d) x)
    (devicePlanValid d = true → t.bu.plan = d ∧ (t.request .device).completion = some .ok) ∧
    (devicePlanValid d = false → t.bu.plan = p.bu.plan ∧ (t.request .device).completion = some .invalid) := by
  have free : x.mo.pendingWheel = Option.none := u.pending.trans none
  dsimp only
  constructor
  · intro valid
    have work : deliverDevicePlan d x = complete .device .ok (storeDevicePlan d x) := by rw [deliverDevicePlan, valid]; rfl
    obtain ⟨stored, mo⟩ := storeDevicePlan_keeps d x
    obtain ⟨plan, request⟩ := event_settle_device (f := deliverDevicePlan d) (p := x) (by rw [work, complete_mo, mo, free])
    rw [plan, request, work, complete_completion, complete_bu, stored]
    exact ⟨rfl, rfl⟩
  · intro invalid
    have work : deliverDevicePlan d x = complete .device .invalid x := by rw [deliverDevicePlan, invalid]; rfl
    obtain ⟨plan, request⟩ := event_settle_device (f := deliverDevicePlan d) (p := x) (by rw [work, complete_mo, free])
    rw [plan, request, work, complete_completion, complete_bu, u.bu]
    exact ⟨rfl, rfl⟩

/-! ### A wheel image -/

section
variable {w : List Phase}

theorem namesInService_congr (h : q.ports = p.ports) (w : List Phase) : namesInService q w = namesInService p w := by
  unfold namesInService Part.port
  rw [h]

theorem Unmoved.swapped (u : Unmoved x t) (h : wheelSwapped w p x) : wheelSwapped w p t := by
  unfold wheelSwapped at h ⊢
  rw [u.pending, u.wheel, u.request]
  exact h

/-- A pending wheel that names every port in service is swapped in (R131, R132). -/
theorem swapWheel_swapped (pending : x.mo.pendingWheel = some w) (ports : x.ports = p.ports) (named : namesInService p w = true) :
    wheelSwapped w p (swapWheel x) := by
  have here : namesInService x w = true := (namesInService_congr ports w).trans named
  obtain ⟨none, -⟩ | ⟨v, some, -, e⟩ | ⟨v, some, unnamed, -⟩ := swapWheel_cases x
  · rw [none] at pending
    cases pending
  · obtain rfl : v = w := Option.some.inj (some.symm.trans pending)
    have acts := (acts_retests allPorts (wheelIn v x)).trans (acts_budgetAfter true _)
    rw [e]
    refine ⟨?_, fun _ => ⟨?_, complete_completion _ _ _⟩, fun c => absurd (named.symm.trans c) (by decide)⟩
    · rw [complete_mo, Part.pendingWheel_of_fixed acts.fixed, wheelIn, reportDevice_mo, queueWriteBack_mo]
      rfl
    · rw [complete_mo, Part.wheel_of_fixed acts.fixed, wheelIn, reportDevice_mo, queueWriteBack_mo]
      rfl
  · obtain rfl : v = w := Option.some.inj (some.symm.trans pending)
    exact absurd (here.symm.trans unnamed) (by decide)

/-- The wheel waits in a part whose ports are those of `p`. -/
structure Waiting (w : List Phase) (p x : Part) : Prop where
  waits : wheelWaits w p x
  ports : x.ports = p.ports

theorem Unmoved.waiting (u : Unmoved x t) (h : Waiting w p x) : Waiting w p t := by
  refine ⟨?_, u.ports.trans h.ports⟩
  have waits := h.waits
  unfold wheelWaits at waits ⊢
  rw [u.pending, u.wheel, u.request]
  exact waits

theorem Waiting.swapped (h : Waiting w p x) (named : namesInService p w = true) : wheelSwapped w p (swapWheel x) :=
  swapWheel_swapped h.waits.1 h.ports named

theorem Waiting.moDecision (h : Waiting w p x) (named : namesInService p w = true) :
    wheelSwapped w p (moDecision x) ∨ Waiting w p (moDecision x) := by
  obtain e | ⟨i, -, -, e⟩ := moDecision_cases x <;> rw [e]
  · exact .inr h
  · have granted := (unmoved_grantAt i x).waiting h
    obtain g | g := swapAfter_cases i x.mo.pointer (grantAt i x) <;> rw [g]
    · exact .inl (granted.swapped named)
    · exact .inr granted

theorem wheelSwapped_idleSwap (h : wheelSwapped w p x) : wheelSwapped w p (idleSwap x) := by
  rw [idleSwap_none h.1]
  exact h

theorem Waiting.idleSwap (h : Waiting w p x) (named : namesInService p w = true) :
    wheelSwapped w p (idleSwap x) ∨ Waiting w p (idleSwap x) := by
  obtain ⟨-, e⟩ | ⟨-, e⟩ := idleSwap_cases x <;> rw [e]
  · have swapped := h.swapped named
    exact .inl ((unmoved_moDecision swapped.1).swapped swapped)
  · exact .inr h

/-- A valid wheel that waits goes on waiting to the end of the command, or is swapped in (R131). -/
theorem Waiting.settle (h : Waiting w p x) (named : namesInService p w = true) :
    wheelSwapped w p (settle x) ∨ wheelWaits w p (settle x) := by
  obtain swapped | waiting := ((unmoved_adoptSweep x).waiting h).moDecision named
  · exact .inl (wheelSwapped_idleSwap swapped)
  · exact (waiting.idleSwap named).imp_right Waiting.waits

/-- The wheel placed to wait. -/
def wheelPlaced (w : List Phase) (p : Part) : Part := reportDevice true (p.mapMo (fun o => { o with pendingWheel := some w }))

theorem wheelPlaced_waiting (w : List Phase) (u : Unmoved p x) : Waiting w p (wheelPlaced w x) := by
  refine ⟨⟨?_, ?_, ?_⟩, ?_⟩
  · rw [wheelPlaced, reportDevice_mo]
    rfl
  · rw [wheelPlaced, reportDevice_mo, ← u.wheel]
    rfl
  · rw [wheelPlaced, reportDevice_request, mapMo_request, u.request]
  · rw [wheelPlaced, reportDevice_ports, ← u.ports]
    rfl

theorem deliverWheel_named (valid : wheelValid w = true) (named : namesInService x w = true) :
    deliverWheel (some w) x = if anyPending x then wheelPlaced w x else swapWheel (wheelPlaced w x) := by
  unfold deliverWheel
  dsimp only
  rw [valid, named]
  rfl

/-- Without a burst in flight that carries a TAKEN image, what is pending does not depend on the memory port. -/
theorem anyPending_received {source origin : Source} {address length : Nat}
    (flight : p.mo.inFlight = some (.copyRead origin address length false)) (idle : p.ptp.access = none) :
    anyPending (received source p) = anyPending p := by
  have taken (v : ReqWord) : takenImageOut (p.mapMo (fun o => { o with inFlight := none })) v = takenImageOut p v := by
    unfold takenImageOut
    rw [flight]
    rfl
  have offers : aeOffer (p.mapMo (fun o => { o with inFlight := none })) = aeOffer p := by
    have offered : offerable (p.mapMo (fun o => { o with inFlight := none })) = offerable p := by
      funext v
      unfold offerable
      simp only [taken]
    unfold aeOffer
    rw [offered]
    rfl
  rw [received_idle source idle, anyPending, offers]
  rfl

/-- A LOAD_WHEEL is delivered (R130, R131). -/
theorem wheel_delivered {source origin : Source} {address length : Nat} (record : Option (List Phase))
    (flight : p.mo.inFlight = some (.copyRead origin address length false)) (none : p.mo.pendingWheel = none) :
    wheelOutcome record p (settle (deliverWheel record (received source p))) := by
  have u := unmoved_received source p
  refine ⟨fun bad => ?_, ?_⟩
  · have work : deliverWheel record (received source p) = complete .device .invalid (received source p) := by
      cases record with
      | none => rfl
      | some w =>
        unfold deliverWheel
        dsimp only
        rw [bad w rfl]
        rfl
    have refused := refused_settle .invalid u none
    rw [work]
    exact ⟨refused.completion, refused.wheel, refused.pending⟩
  · rintro w rfl valid
    refine ⟨fun unnamed => ?_, fun named => ?_⟩
    · have work : deliverWheel (some w) (received source p) = complete .device .unnamed (received source p) := by
        unfold deliverWheel
        dsimp only
        rw [valid, namesInService_congr u.ports, unnamed]
        rfl
      have refused := refused_settle .unnamed u none
      rw [work]
      exact ⟨refused.completion, refused.wheel, refused.pending⟩
    · have placed := wheelPlaced_waiting w u
      have swapped := placed.swapped named
      have atOnce : wheelSwapped w p (settle (swapWheel (wheelPlaced w (received source p)))) :=
        (unmoved_settle swapped.1).swapped swapped
      rw [deliverWheel_named valid ((namesInService_congr u.ports w).trans named)]
      constructor
      · split
        · exact placed.settle named
        · exact .inl atOnce
      · intro idle access
        rw [anyPending_received flight access, idle]
        exact atOnce

end

/-! ### A sequence plan -/

theorem coversClosed_congr (h : q.ports = p.ports) (s : Sequence) : coversClosed q s = coversClosed p s := by
  unfold coversClosed Part.port
  rw [h]

theorem markCoverage_ms (l : List Entry) (p : Part) : (markCoverage l p).ms = p.ms := by
  induction l generalizing p with
  | nil => rfl
  | cons e rest ih => rw [markCoverage, ih, setFlags_ms]

/-- In STOPPED no port is covered, so that no grant is made (R55, R73). -/
theorem grantDecision_ms_stopped (h : p.ms.mode = .stopped) : (grantDecision p).ms = p.ms := by
  have uncovered (n : Port) : covered (marked p) n = false := by
    rw [marked_covered, covered, h]
    rfl
  rw [grantDecision_eq, walk_uncovered _ _ (fun x _ => uncovered x.port)]
  split <;> exact markCoverage_ms _ p

theorem beforeDecision_ms (p : Part) : (beforeDecision p).ms = p.ms := by
  have tested : (budgetTest p).ms = p.ms := by
    unfold budgetTest
    split
    · rfl
    · rw [reportDevice_ms, Part.mapBu_ms]
  unfold beforeDecision
  split
  · obtain ⟨shedList, orders, e⟩ := shedStep_only (budgetTest p)
    rw [e, Part.mapBu_ms, tested]
  · exact tested

theorem shortfallTest_ms (p : Part) : (shortfallTest p).ms = p.ms := by
  unfold shortfallTest
  split
  · rfl
  · rw [reportDevice_ms, Part.mapBu_ms]

theorem budgetAfter_ms_stopped (b : Bool) (h : p.ms.mode = .stopped) : (budgetAfter b p).ms = p.ms := by
  have before := beforeDecision_ms p
  obtain e | e := budgetAfter_eq b p <;> rw [e, shortfallTest_ms]
  · exact before
  · rw [grantDecision_ms_stopped (by rw [before, h]), before]

/-- The sequence placed to be swapped in. -/
def sequencePlaced (s : Sequence) (p : Part) : Part := reportDevice true (p.mapMs (fun m => { m with pending := some s }))

theorem deliverSequence_covered {s : Sequence} (valid : sequenceValid s = true) (covers : coversClosed x s = true) :
    deliverSequence (some s) x = if x.ms.mode = .stopped then swapSequence (sequencePlaced s x) else sequencePlaced s x := by
  have mode : (sequencePlaced s x).ms.mode = x.ms.mode := by
    rw [sequencePlaced, reportDevice_ms]
    rfl
  unfold deliverSequence
  dsimp only
  rw [valid, covers]
  unfold sequencePlaced at mode ⊢
  simp only [mode]
  rfl

theorem Sequencer.swap_results (s : Sequence) (m : Sequencer) (i : Nat) (result : Int) (h : m.results[i]? = some result) :
    (m.swap s).results[i]? = some (if i ∈ s.range then result else 0) := by
  simp [Sequencer.swap, h]

theorem Sequencer.swap_counts {s : Sequence} {n : Port} (h : s.converts (.portI n) = false) (m : Sequencer) :
    (m.swap s).overCount.at n = 0 ∧ (m.swap s).rampCount.at n = 0 := by
  simp [Sequencer.swap, PerPort.at, h]

/-- The part as a placed sequence is swapped in. -/
theorem swapSequence_placed {s : Sequence} (covers : coversClosed x s = true) (stopped : x.ms.mode = .stopped) :
    (swapSequence (sequencePlaced s x)).ms = x.ms.swap s ∧ (swapSequence (sequencePlaced s x)).mo.pendingWheel = x.mo.pendingWheel ∧
    ((swapSequence (sequencePlaced s x)).request .device).completion = some .ok := by
  have ms : (sequencePlaced s x).ms = { x.ms with pending := some s } := by
    rw [sequencePlaced, reportDevice_ms]
    rfl
  have ports : (sequencePlaced s x).ports = x.ports := by
    rw [sequencePlaced, reportDevice_ports]
    rfl
  have mo : (sequencePlaced s x).mo = x.mo := by
    rw [sequencePlaced, reportDevice_mo]
    rfl
  have work : swapSequence (sequencePlaced s x) = complete .device .ok
      (budgetAfter true (reportDevice true ((sequencePlaced s x).mapMs (Sequencer.swap s)))) := by
    unfold swapSequence
    rw [ms]
    dsimp only
    rw [coversClosed_congr ports, covers]
    rfl
  have swapped : (reportDevice true ((sequencePlaced s x).mapMs (Sequencer.swap s))).ms = x.ms.swap s := by
    rw [reportDevice_ms, Part.mapMs_ms, ms]
    rfl
  rw [work]
  refine ⟨?_, ?_, complete_completion _ _ _⟩
  · rw [complete_ms, budgetAfter_ms_stopped _ (by rw [swapped]; exact stopped), swapped]
  · rw [complete_mo, Part.pendingWheel_of_fixed (acts_budgetAfter _ _).fixed, reportDevice_mo, Part.mapMs_mo, mo]

/-- A LOAD_SEQUENCE is delivered (R79, R80). -/
theorem sequence_delivered (record : Option Sequence) (u : Unmoved p x) (none : p.mo.pendingWheel = none) :
    sequenceOutcome record p (settle (deliverSequence record x)) := by
  have free : x.mo.pendingWheel = Option.none := u.pending.trans none
  refine ⟨fun bad => ?_, ?_⟩
  · have work : deliverSequence record x = complete .device .invalid x := by
      cases record with
      | none => rfl
      | some s =>
        unfold deliverSequence
        dsimp only
        rw [bad s rfl]
        rfl
    have refused := refused_settle .invalid u none
    rw [work]
    exact ⟨refused.completion, refused.ms⟩
  · rintro s rfl valid
    have covers := coversClosed_congr u.ports s
    refine ⟨fun uncovered => ?_, fun covered running => ?_, fun covered stopped => ?_⟩
    · have work : deliverSequence (some s) x = complete .device .uncovered x := by
        unfold deliverSequence
        dsimp only
        rw [valid, covers, uncovered]
        rfl
      have refused := refused_settle .uncovered u none
      rw [work]
      exact ⟨refused.completion, refused.ms⟩
    · rw [deliverSequence_covered valid (covers.trans covered), if_neg (by rw [u.ms]; exact running)]
      have settled := unmoved_settle (p := sequencePlaced s x) (by rw [sequencePlaced, reportDevice_mo]; exact free)
      rw [settled.ms, settled.request, sequencePlaced, reportDevice_ms, reportDevice_request, ← u.ms, ← u.request]
      exact ⟨rfl, rfl⟩
    · obtain ⟨ms, pending, completion⟩ := swapSequence_placed (covers.trans covered) (by rw [u.ms]; exact stopped)
      rw [deliverSequence_covered valid (covers.trans covered), if_pos (by rw [u.ms]; exact stopped)]
      have settled := unmoved_settle (pending.trans free)
      rw [sequenceSwapped, settled.request, settled.ms, ms, u.ms]
      exact ⟨completion, rfl, rfl, Sequencer.swap_results s p.ms, fun n c => Sequencer.swap_counts c p.ms⟩

end

end Sys2Proof.Machine
end

