-- ==== Sys2Proof/Proofs/RequestsApplied.lean ====
section
/-! An APPLY delivered to a port by its state (R23, R34 to R38), but for an orphan, to the end of the command. -/

namespace Sys2Proof.Machine

section
variable {n : Port} {p q x t : Part} {plan : Plan} {e : Entry}

/-! ### The part an APPLY is delivered to -/

theorem Steady.view (h : Steady x p) (n : Port) : SameView n p x := by
  obtain ⟨stay, wheel, pending⟩ := h
  have lane := stay.lane n
  have port := stay.port n
  obtain ⟨ports, bu, ms, -, mrc⟩ := stay
  refine ⟨port, ?_, fun _ => by rw [lane], pending, wheel, by rw [mrc], by rw [mrc]⟩
  exact fits_of (by rw [bu]) (committed_of_ports ports) (ceiling_of_blocks bu ms mrc)

theorem windowOverlaps_congr (h : PortsStay x p) (n : Port) (plan : Plan) : windowOverlaps x n plan = windowOverlaps p n plan := by
  obtain ⟨ports, -, -, -, mrc⟩ := h
  have meets : meetsPort x plan = meetsPort p plan := by
    funext m
    unfold meetsPort Part.port
    rw [ports]
  rw [windowOverlaps, windowOverlaps, meets, areaBase, areaBase, mrc]

theorem deliverApply_valid (valid : planFieldsValid plan = true) (clear : windowOverlaps x n plan = false) :
    deliverApply n (some plan) x = applyByState n plan x := by
  unfold deliverApply
  dsimp only
  rw [valid, clear]
  rfl

/-- A port that no request sent to wait holds no entry. -/
theorem noEntry_of_state (ql : queueLaw p) (queued : (p.port n).state ≠ .queued) (probe : (p.port n).state ≠ .probe) : noEntry n p := by
  obtain ⟨-, states, -⟩ := ql
  rintro e m rfl
  obtain s | ⟨s, -⟩ := states e m
  · exact queued s
  · exact probe s

/-! ### A request refused -/

/-- A request refused leaves its port as it was, whatever its state. -/
theorem refused_apply {f : Part → Part} {a : Result} (ql : queueLaw p) (wl : waitLaw p) (law : budgetLaw p) (h : Steady x p)
    (eq : f x = complete (.port n) a x) : refusedApply n a p (settle (event f x)) := by
  obtain ⟨stay, -, pending⟩ := h
  have on := (fullTail_event n f x).onward ql wl (leaves_of_aside (by rw [eq, complete_aside, stay.aside])
    (by rw [eq, complete_mo, pending]; exact id))
  have lawful : budgetLaw x := by
    obtain ⟨ports, bu, ms, -, mrc⟩ := stay
    unfold budgetLaw
    rw [bu, ceiling_of_blocks bu ms mrc, committed_of_ports ports]
    exact law
  refine ⟨?_, on.goesOn, fun none => ?_⟩
  · unfold answers
    rw [on.request, eq, complete_completion]
  · have ports : (settle (event f x)).ports = p.ports := (answered_ports lawful (pending.trans none) eq).trans stay.1
    have port : (settle (event f x)).port n = p.port n := congrArg (fun v => PerPort.at v n) ports
    rw [port]
    exact sameButStamp_self _

/-! ### A plan stored in a port that nothing reaches -/

/-- The port under a stored plan, to the end of the command. -/
structure StoredAs (n : Port) (plan : Plan) (r : PortRecord) (t : Part) : Prop where
  stored : stored n plan t
  record : sameButStamp r (t.port n)

theorem stored_calm {f : Part → Part} {y : Part} (eq : f x = complete (.port n) .ok y) (calm : quiet n y)
    (pl : (y.port n).plan = plan) (hand : y.handed n = plan.handed) : StoredAs n plan (y.port n) (settle (event f x)) := by
  have rests : Rests n (f x) (settle (event f x)) := (fullTail_event n f x).calm (by rw [eq]; exact complete_quiet _ _ calm)
  exact ⟨rests.stored (by rw [eq]; exact complete_stored_of pl hand), rests.same (by rw [eq, complete_port])⟩

theorem stored_here {f : Part → Part} (eq : f x = complete (.port n) .ok (storePlan n plan x)) (ne : noEntry n x)
    (s : (x.port n).state ≠ .settle) : StoredAs n plan ((storePlan n plan x).port n) (settle (event f x)) :=
  stored_calm eq (quiet_of_state (storePlan_noEntry plan ne) (by rw [storePlan_state]; exact s)) (storePlan_plan ..)
    (storePlan_handed ..)

/-- The port in OFF under a stored plan. -/
theorem stored_off {f : Part → Part} (eq : f x = complete (.port n) .ok (moveTo n .off (storePlan n plan x))) :
    stored n plan (settle (event f x)) ∧ ((settle (event f x)).port n).state = .off ∧ ((settle (event f x)).port n).grant = 0 := by
  have entered := moveTo_port_self n .off (storePlan n plan x)
  obtain ⟨stored, record⟩ := stored_calm eq (quiet_moveTo (by decide)) (entered.plan.trans (storePlan_plan ..))
    ((moveTo_handed_self n .off _).trans (storePlan_handed ..))
  generalize (moveTo n .off (storePlan n plan x)).port n = r at entered record
  rw [record]
  exact ⟨stored, entered.state, entered.grant⟩

/-! ### The entry under a stored plan -/

/-- The record under a new plan, as its entry is renewed. -/
def PortRecord.replanned (plan : Plan) (r : PortRecord) : PortRecord :=
  { r with plan := plan, restartCount := min r.restartCount plan.restartLimit.1 }

theorem storePlan_queue (n : Port) (plan : Plan) (p : Part) : (storePlan n plan p).bu.queue =
    p.bu.queue.map (fun e => if e.port = n then renewEntry ((p.port n).replanned plan) e else e) := by
  rw [storePlan, (handOver_leaves _ _).1]
  unfold replacePlan
  dsimp only
  rw [laneFollow_bu, Part.mapPtp_bu]
  split
  · rw [updPort_bu, Part.mapBu_bu, updPort_bu, updPort_port_self]
    rfl
  · rw [Part.mapBu_bu, updPort_bu, updPort_port_self]
    rfl

theorem storePlan_entries (own : p.entriesOf n = [e]) :
    (storePlan n plan p).entriesOf n = [renewEntry ((p.port n).replanned plan) e] := by
  have port : e.port = n := (mem_entriesOf.1 (by rw [own]; exact List.mem_singleton_self e)).2
  have same (r : PortRecord) : (fun e : Entry => e.port == n) ∘ (fun e => if e.port = n then renewEntry r e else e) =
      fun e => e.port == n := by
    funext y
    dsimp only [Function.comp]
    split
    · rfl
    · rfl
  rw [Part.entriesOf, storePlan_queue, List.filter_map, same, show p.bu.queue.filter (fun e => e.port == n) = [e] from own,
    List.map_singleton, if_pos port]

/-- Outside QUEUED a renewed entry keeps its kind; a FULL one asks the full request of the plan (R2, R52). -/
theorem renewEntry_probe {r : PortRecord} (s : r.state = .probe) (k : e.kind = .full) :
    (renewEntry (r.replanned plan) e).kind = .full ∧ (renewEntry (r.replanned plan) e).asked = fullRequest plan r.identity := by
  have probe : (r.replanned plan).state = .probe := s
  have now : (r.replanned plan).laneUseNow = plan.laneUse := by
    unfold PortRecord.laneUseNow
    rw [probe]
    rfl
  rw [renewEntry, if_neg (by rw [probe]; decide), k]
  refine ⟨rfl, ?_⟩
  show (r.replanned plan).fullRequest = _
  rw [PortRecord.fullRequest, now]
  rfl

theorem storePlan_holder (w : Holder n e p) : Holder n (renewEntry ((p.port n).replanned plan) e) (storePlan n plan p) := by
  refine ⟨storePlan_entries w.entries, ?_⟩
  rw [storePlan_state]
  obtain s | ⟨s, kind⟩ := w.state
  · exact .inl s
  · exact .inr ⟨s, (renewEntry_probe s kind).1⟩

/-- The renewed entry of a port in QUEUED is the one its plan calls for (R8, R52). -/
theorem renewEntry_queued {r r' : PortRecord} (s : r.state = .queued)
    (h : ∃ b c, r' = { r.replanned plan with flags := { r.flags with ask := b }, pendingCue := c }) :
    renewEntry (r.replanned plan) e = newEntry e.port (entryKind r') { r' with state := .queued } := by
  obtain ⟨b, c, rfl⟩ := h
  have queued : (r.replanned plan).state = .queued := s
  rw [renewEntry, if_pos queued]
  simp only [newEntry, entryKind, PortRecord.replanned, PortRecord.fullRequest, PortRecord.laneUseNow, s]

/-- A port in QUEUED under a stored plan waits with the entry of that plan, or is granted it (R35, R52). -/
theorem stored_queued {f : Part → Part} (eq : f x = complete (.port n) .ok (storePlan n plan x)) (w : Holder n e x)
    (s : (x.port n).state = .queued) : stored n plan (settle (event f x)) ∧ queuedOrGranted n (settle (event f x)) := by
  have stored := (fullTail_event n f x).stored (.inr ⟨_, by rw [eq]; exact complete_holder _ _ (storePlan_holder w)⟩)
    (by rw [eq]; exact complete_stored n plan x)
  have record := storePlan_record n plan x
  have entry : renewEntry ((x.port n).replanned plan) e = newEntry n (entryKind ((f x).port n)) { (f x).port n with state := .queued } := by
    rw [renewEntry_queued s record, w.port, eq, complete_port]
  have waits : Waits n (newEntry n (entryKind ((f x).port n)) { (f x).port n with state := .queued }) (f x) := by
    refine ⟨by rw [eq, complete_port, storePlan_state, s], ?_⟩
    rw [← entry, eq, complete_bu]
    exact storePlan_entries w.entries
  exact ⟨stored, queuedOrGranted_of (settle_event_own (f := f) x waits)⟩

/-- A port queued again under a stored plan. -/
theorem stored_requeued {f : Part → Part} (eq : f x = complete (.port n) .ok (toQueued n (storePlan n plan x)))
    (run : x.mrc.phase = .running) : stored n plan (settle (event f x)) ∧
      (x.mrc.standby = false → queuedOrGranted n (settle (event f x))) := by
  have sent := sentOn_event (k := complete (.port n) .ok) eq (fun _ => complete_ports _ _ _) (fun _ => by rw [complete_bu])
  rw [storePlan_mrc] at sent
  refine ⟨(fullTail_event n f x).stored ?_ ?_, sent.queued run⟩
  · rw [eq]
    obtain calm | ⟨e, holds⟩ := toQueued_calm n (storePlan n plan x)
    · exact .inl (complete_quiet _ _ calm)
    · exact .inr ⟨e, complete_holder _ _ holds⟩
  · rw [eq]
    refine complete_stored_of ?_ ?_
    · rw [(sent_toQueued n _).plan, storePlan_plan]
    · rw [(sent_toQueued n _).handed, storePlan_handed]

/-- A port in PROBE under a stored plan stays there, or its FULL entry is granted as the plan asks (R35, R58). -/
theorem stored_probe {f : Part → Part} (eq : f x = complete (.port n) .ok (storePlan n plan x))
    (w : noEntry n x ∨ ∃ e, Holder n e x) (s : (x.port n).state = .probe) : stored n plan (settle (event f x)) ∧
      ((((settle (event f x)).port n).state = .probe ∧ ((settle (event f x)).port n).grant = (x.port n).grant) ∨
        (((settle (event f x)).port n).state = .ramp ∧
          ((settle (event f x)).port n).grant = fullRequest plan (x.port n).identity)) := by
  have before := storePlan_over n plan x
  obtain ne | ⟨e, w⟩ := w
  · obtain ⟨stored, record⟩ := stored_here eq ne (by rw [s]; decide)
    rw [record]
    exact ⟨stored, .inl ⟨before.state.trans s, before.grant⟩⟩
  · have holder := complete_holder (.port n) .ok (storePlan_holder (plan := plan) w)
    rw [← eq] at holder
    refine ⟨(fullTail_event n f x).stored (.inr ⟨_, holder⟩) (by rw [eq]; exact complete_stored n plan x), ?_⟩
    obtain ⟨full, asked⟩ := renewEntry_probe (plan := plan) s (w.state.resolve_left (by rw [s]; decide)).2
    obtain flagged | granted := (fullTail_event n f x).holds _ holder
    · obtain ⟨k, a, b, record⟩ := flagged.record
      rw [record, eq, complete_port]
      exact .inl ⟨before.state.trans s, before.grant⟩
    · have port := granted.port
      obtain ⟨-, -, -, -, -, -, -, -, -, -, -, -, -, -, -, ramp, -⟩ := granted.granted
      obtain ⟨state, grant, -⟩ := ramp full
      rw [port] at state grant
      exact .inr ⟨state, grant.trans asked⟩

end

end Sys2Proof.Machine
end

