-- ==== Sys2Proof/Proofs/AppliesByState.lean ====
section
/-! An APPLY of a valid plan, by the state of its port: all but an orphan's. -/

namespace Sys2Proof.Machine

section
variable {n : Port} {p x : Part} {plan : Plan} {e : Entry} {f : Part → Part}

/-! ### The port's part of the request -/

/-- A plan under which a port with its switch open and nothing to wait for goes to OFF (R35). -/
def parksOff (plan : Plan) (st : PortState) : Prop := plan.mode = .off ∧ (st = .restartWait ∨ st = .parked)

theorem applyByState_idle (s : (x.port n).state ∈ [PortState.empty, .fault, .restartWait, .parked]) :
    (parksOff plan (x.port n).state → applyByState n plan x = complete (.port n) .ok (moveTo n .off (storePlan n plan x))) ∧
    (¬parksOff plan (x.port n).state → applyByState n plan x = complete (.port n) .ok (storePlan n plan x)) := by
  unfold parksOff applyByState
  dsimp only
  generalize (x.port n).state = st at s
  constructor
  · rintro ⟨m, rfl | rfl⟩ <;> dsimp only <;> rw [if_pos m]
  · intro stays
    cases st
    case restartWait =>
      show complete _ _ (if _ then _ else _) = _
      rw [if_neg (fun m => stays ⟨m, .inl rfl⟩)]
    case parked =>
      show complete _ _ (if _ then _ else _) = _
      rw [if_neg (fun m => stays ⟨m, .inr rfl⟩)]
    case empty => rfl
    case fault => rfl
    all_goals simp at s

theorem applyByState_off_mode (m : plan.mode = .off) (s : (x.port n).state = .queued ∨ (x.port n).state = .probe) :
    applyByState n plan x = complete (.port n) .ok (moveTo n .off (storePlan n plan x)) := by
  unfold applyByState
  dsimp only
  obtain s | s := s <;> rw [s] <;> dsimp only <;> rw [if_pos m]

theorem applyByState_queued (m : plan.mode ≠ .off) (s : (x.port n).state = .queued) :
    applyByState n plan x = complete (.port n) .ok (storePlan n plan x) := by
  unfold applyByState
  dsimp only
  rw [s]
  dsimp only
  rw [if_neg m]

theorem applyByState_probe (m : plan.mode ≠ .off) (s : (x.port n).state = .probe) :
    applyByState n plan x = complete (.port n) .ok
      (if plan.laneUse ≠ (x.port n).plan.laneUse then toQueued n (storePlan n plan x) else storePlan n plan x) := by
  unfold applyByState
  dsimp only
  rw [s]
  dsimp only
  rw [if_neg m]

/-- The request put off until its port has settled (R36). -/
def putOff (n : Port) (plan : Plan) (x : Part) : Part := updPort n (fun r => { r with deferred := some plan }) x

theorem applyByState_putOff (s : (x.port n).state = .ramp ∨ ((x.port n).state = .settle ∧ (x.port n).flags.noPhase = false)) :
    applyByState n plan x = putOff n plan x := by
  unfold applyByState
  dsimp only
  obtain s | ⟨s, named⟩ := s
  · rw [s]
    rfl
  · rw [s]
    dsimp only
    rw [named]
    rfl

theorem applyByState_on (s : (x.port n).state = .on) : applyByState n plan x = applyInOn n plan x := by
  unfold applyByState
  dsimp only
  rw [s]

theorem applyByState_orphan (s : (x.port n).state = .orphan) : applyByState n plan x = adopt n plan x := by
  unfold applyByState
  dsimp only
  rw [s]

theorem applyByState_unnamed (s : (x.port n).state = .settle) (unnamed : (x.port n).flags.noPhase = true) :
    applyByState n plan x = applyWaiting n plan x := by
  unfold applyByState
  dsimp only
  rw [s]
  dsimp only
  rw [unnamed]
  rfl

theorem applyByState_drain (s : (x.port n).state = .drain) :
    applyByState n plan x = complete (.port n) .ok (retarget n (storePlan n plan x)) := by
  unfold applyByState
  dsimp only
  rw [s]

/-! ### A switch that is open -/

/-- A plan stored in EMPTY, FAULT, RESTART_WAIT or PARKED (R35). -/
theorem applied_idle (eq : f x = applyByState n plan x) (ne : noEntry n x)
    (s : (x.port n).state ∈ [PortState.empty, .fault, .restartWait, .parked]) :
    stored n plan (settle (event f x)) ∧ ((settle (event f x)).port n).state =
      if plan.mode = .off ∧ ((x.port n).state = .restartWait ∨ (x.port n).state = .parked) then .off else (x.port n).state := by
  obtain ⟨off, stays⟩ := applyByState_idle (plan := plan) s
  by_cases parks : parksOff plan (x.port n).state
  · obtain ⟨stored, state, -⟩ := stored_off (eq.trans (off parks))
    exact ⟨stored, state.trans (if_pos parks).symm⟩
  · have unsettled : (x.port n).state ≠ .settle := fun c => by rw [c] at s; simp at s
    obtain ⟨stored, record⟩ := stored_here (eq.trans (stays parks)) ne unsettled
    refine ⟨stored, ?_⟩
    rw [record]
    exact (storePlan_state n plan x).trans (if_neg parks).symm

/-! ### A request delivered -/

/-- The part `x`, in which the command's end meets the ports of `p`, takes a valid request by the state of its port. -/
structure Delivered (n : Port) (plan : Plan) (p x : Part) (f : Part → Part) : Prop where
  queue : queueLaw p
  steady : Steady x p
  running : p.mrc.phase = .running
  valid : planFieldsValid plan = true
  work : f x = applyByState n plan x

section
variable (h : Delivered n plan p x f)
include h

theorem Delivered.port : x.port n = p.port n := h.steady.1.port n

theorem Delivered.mrc : x.mrc = p.mrc := h.steady.1.2.2.2.2

theorem Delivered.law : queueLaw x := by
  have queue := h.queue
  unfold queueLaw Part.port at queue ⊢
  rw [h.steady.1.1, h.steady.1.2.1]
  exact queue

theorem Delivered.noEntry (queued : (x.port n).state ≠ .queued) (probe : (x.port n).state ≠ .probe) : noEntry n x :=
  noEntry_of_state h.law queued probe

theorem Delivered.holder (s : (x.port n).state = .queued) : ∃ e, Holder n e x := by
  obtain ⟨-, -, queued⟩ := h.law
  obtain ⟨e, mem, rfl⟩ := queued n s
  exact ⟨e, holder_of_queued h.law mem⟩

theorem Delivered.mayHold : Machine.noEntry n x ∨ ∃ e, Holder n e x := by
  by_cases held : ∃ e ∈ x.bu.queue, e.port = n
  · obtain ⟨e, mem, rfl⟩ := held
    exact .inr ⟨e, holder_of_queued h.law mem⟩
  · exact .inl (fun e mem port => held ⟨e, mem, port⟩)

/-- An APPLY to a port with its switch open (R35). -/
theorem Delivered.applyOpen : applyOpen n plan p (settle (event f x)) := by
  unfold Machine.applyOpen
  dsimp only
  rw [← h.port]
  refine ⟨fun s => ?_, fun s => ?_, fun s => ?_⟩
  · exact applied_idle h.work (h.noEntry (fun c => by rw [c] at s; simp at s) (fun c => by rw [c] at s; simp at s)) s
  · by_cases m : plan.mode = .off
    · obtain ⟨stored, off, -⟩ := stored_off (h.work.trans (applyByState_off_mode m (.inl s)))
      exact ⟨stored, fun _ => off, fun c => absurd m c⟩
    · obtain ⟨e, w⟩ := h.holder s
      obtain ⟨stored, queued⟩ := stored_queued (h.work.trans (applyByState_queued m s)) w s
      exact ⟨stored, fun c => absurd c m, fun _ => queued⟩
  · obtain ⟨stored, -, off, left, parked, queued⟩ := applied_off h.work s (h.noEntry (by rw [s]; decide) (by rw [s]; decide))
    rw [h.mrc] at parked queued
    exact ⟨stored, fun m => (off m).1, fun m => ⟨left m, parked m h.running, queued m h.running⟩⟩

/-! ### A port that starts up -/

/-- A plan stored in PROBE (R35). -/
theorem Delivered.probe (s : (x.port n).state = .probe) (m : plan.mode ≠ .off) : stored n plan (settle (event f x)) ∧
    (plan.laneUse ≠ (x.port n).plan.laneUse → x.mrc.standby = false → queuedOrGranted n (settle (event f x))) ∧
    (plan.laneUse = (x.port n).plan.laneUse →
      (((settle (event f x)).port n).state = .probe ∧ ((settle (event f x)).port n).grant = (x.port n).grant) ∨
      (((settle (event f x)).port n).state = .ramp ∧
        ((settle (event f x)).port n).grant = fullRequest plan (x.port n).identity)) := by
  have work := h.work.trans (applyByState_probe m s)
  by_cases same : plan.laneUse = (x.port n).plan.laneUse
  · rw [if_neg (not_not.2 same)] at work
    obtain ⟨stored, fate⟩ := stored_probe work h.mayHold s
    exact ⟨stored, fun c => absurd same c, fun _ => fate⟩
  · rw [if_pos same] at work
    obtain ⟨stored, queued⟩ := stored_requeued work (by rw [h.mrc]; exact h.running)
    exact ⟨stored, fun _ => queued, fun c => absurd c same⟩

/-- A request put off (R36). -/
theorem Delivered.putOff (s : (x.port n).state = .ramp ∨ ((x.port n).state = .settle ∧ (x.port n).flags.noPhase = false)) :
    sameButStamp { x.port n with deferred := some plan } ((settle (event f x)).port n) ∧
    (settle (event f x)).request (.port n) = x.request (.port n) := by
  have work := h.work.trans (applyByState_putOff s)
  have record : (f x).port n = { x.port n with deferred := some plan } := by rw [work, Machine.putOff, updPort_port_self]
  have calm : quiet n (f x) := by
    refine ⟨?_, ?_⟩
    · rw [work, Machine.putOff]
      refine updPort_noEntry _ _ (h.noEntry ?_ ?_) <;> obtain s | ⟨s, -⟩ := s <;> rw [s] <;> decide
    · rw [record]
      obtain s | ⟨-, named⟩ := s
      · intro c
        exact absurd (s.symm.trans c) (by decide)
      · exact fun _ => named
  have rests := (fullTail_event n f x).calm calm
  exact ⟨rests.same record, rests.request.trans (by rw [work, Machine.putOff, updPort_request])⟩

/-- An APPLY to a port that starts up (R35, R36). -/
theorem Delivered.applyStarting (requests : ∀ w, x.request w = p.request w) : applyStarting n plan p (settle (event f x)) := by
  unfold Machine.applyStarting
  dsimp only
  rw [← h.port, ← h.mrc, ← requests]
  refine ⟨fun s => ?_, fun s => ?_⟩
  · by_cases m : plan.mode = .off
    · obtain ⟨stored, off⟩ := stored_off (h.work.trans (applyByState_off_mode m (.inr s)))
      exact ⟨stored, fun _ => off, fun c => absurd m c, fun c => absurd m c⟩
    · obtain ⟨stored, other, same⟩ := h.probe s m
      exact ⟨stored, fun c => absurd c m, fun _ => other, fun _ => same⟩
  · obtain ⟨record, request⟩ := h.putOff s
    exact ⟨record, congrArg Request.completion request⟩

/-! ### A port that waits, is admitted or drains -/

/-- An APPLY to a port that waits with NO_PHASE (R38). -/
theorem Delivered.applyUnnamed : applyUnnamed n plan p (settle (event f x)) := by
  by_cases u : Unnamed n x
  · have tail := tail_event n f x
    rw [h.work, applyByState_unnamed u.state u.noPhase] at tail
    exact (applyWaiting_outcome (h.steady.view n) u h.valid tail).1
  · unfold Machine.applyUnnamed
    dsimp only
    rw [← h.port]
    intro s unnamed none
    exact absurd ⟨s, unnamed, h.noEntry (by rw [s]; decide) (by rw [s]; decide), none⟩ u

/-- An APPLY in ON (R37). -/
theorem Delivered.applyOn : applyOn n plan p (settle (event f x)) := by
  by_cases s : (x.port n).state = .on
  · have tail := tail_event n f x
    rw [h.work, applyByState_on s] at tail
    exact (applyInOn_outcome (h.steady.view n) (h.noEntry (by rw [s]; decide) (by rw [s]; decide)) s tail).1
  · unfold Machine.applyOn
    dsimp only
    rw [← h.port]
    exact fun c => absurd c s

omit h in
theorem retarget_port (n : Port) (x : Part) : (retarget n x).port n = { x.port n with
    drain := (x.port n).drain.map (fun d => { d with dest := planDest x.mrc.standby (x.port n).plan.mode d.reason }) } :=
  updPort_port_self _ _ _

/-- An APPLY in DRAIN (R23, R35). -/
theorem Delivered.applyDraining : applyDraining n plan p (settle (event f x)) := by
  unfold Machine.applyDraining
  dsimp only
  rw [← h.port, ← h.mrc]
  intro s
  have before := storePlan_over n plan x
  have port := retarget_port n (storePlan n plan x)
  rw [storePlan_mrc, storePlan_plan] at port
  have ne := storePlan_noEntry plan (h.noEntry (by rw [s]; decide) (by rw [s]; decide))
  have calm : quiet n (retarget n (storePlan n plan x)) := by
    refine quiet_of_state (updPort_noEntry _ _ ne) ?_
    rw [port]
    dsimp only
    rw [before.state, s]
    decide
  obtain ⟨stored, record⟩ := stored_calm (h.work.trans (applyByState_drain s)) calm (by rw [port]; exact storePlan_plan n plan x)
    ((updPort_handed ..).trans (storePlan_handed ..))
  rw [record, port]
  exact ⟨stored, before.state.trans s, before.grant, congrArg (Option.map _) before.drain⟩

end

end

end Sys2Proof.Machine
end

