-- ==== Sys2Proof/Proofs/Adoptions.lean ====
section
/-! An APPLY to an orphan: its adoption (R188), its admission (R189), and what standby makes of it (R192). -/

namespace Sys2Proof.Machine

section
variable {n : Port} {p q x : Part} {plan : Plan} {f : Part → Part}

/-! ### A drain keeps what is handed over -/

/-- The other blocks hold the port's plan copy. -/
def handsPlan (n : Port) (p : Part) : Prop := p.handed n = (p.port n).plan.handed

theorem handsPlan_congr (h : handsPlan n p) (handed : q.handed n = p.handed n) (pl : (q.port n).plan = (p.port n).plan) : handsPlan n q := by
  unfold handsPlan
  rw [handed, pl]
  exact h

theorem handsPlan_handOver (h : handsPlan n p) : handsPlan n (handOver n p) := by
  have window : (p.handed n).1 = (p.port n).plan.handed.1 := congrArg Prod.fst h
  unfold handsPlan
  rw [handOver_handed, handOver_port]
  exact congrArg (fun w => (w, (p.port n).plan.share)) window

theorem handsPlan_drainMoved (h : handsPlan n p) (d : Drain) : handsPlan n (drainMoved n d p) :=
  handsPlan_congr h ((moveTo_handed_self n .drain _).trans (updPort_handed ..)) (drainMoved_keeps n d p).plan

theorem graceStarted_handed (n : Port) (d : Drain) (p : Part) : (graceStarted n d p).handed n = p.handed n := by
  unfold graceStarted
  dsimp only
  split
  · rw [updLane_handed, updPort_handed]
  · rw [updPort_handed]

theorem handsPlan_graceStarted (h : handsPlan n p) (d : Drain) : handsPlan n (graceStarted n d p) :=
  handsPlan_congr h (graceStarted_handed n d p) (graceStarted_keeps n d p).plan

theorem endDrain_toParked {d : Drain} (h : (p.port n).drain = some d) (dest : d.dest = .parked) :
    endDrain n p = handOver n (toParked n p) := by
  unfold endDrain
  rw [h]
  dsimp only
  rw [dest]

theorem handsPlan_endDrain {d : Drain} (h : handsPlan n p) (drain : (p.port n).drain = some d) (dest : d.dest = .parked) :
    handsPlan n (endDrain n p) := by
  have sent := sent_toParked n p
  rw [endDrain_toParked drain dest]
  exact handsPlan_handOver (handsPlan_congr h sent.handed sent.plan)

theorem handsPlan_startDrain (h : handsPlan n p) : handsPlan n (startDrain n .standby p) := by
  have moved := handsPlan_drainMoved h (newDrain .standby (p.port n).plan)
  have grace := handsPlan_graceStarted moved (newDrain .standby (p.port n).plan)
  rw [startDrain_eq]
  split
  · exact moved
  · rw [enterGrace_eq (drainMoved_drain n _ p)]
    split
    · refine handsPlan_endDrain grace (d := { newDrain .standby (p.port n).plan with phase := .grace }) ?_ rfl
      rw [graceStarted_port]
    · exact grace

/-! ### A drain that leads to PARKED -/

/-- A drain of the standby entry, as its start leaves a port with nothing to flush (R22, R23, R192). -/
theorem startDrain_to_parked (run : p.mrc.phase = .running) :
    let d := newDrain .standby (p.port n).plan
    let flush := flushes (p.lane n).outstanding (p.port n)
    let r := (startDrain n .standby p).port n
    (flush = true ∨ d.graceMs ≠ 0 → Drains d flush (p.port n) r) ∧
    (flush = false ∧ d.graceMs = 0 → Ended .parked (p.port n) r) ∧
    noEntry n (startDrain n .standby p) ∧ r.state ≠ .settle ∧ r.plan = (p.port n).plan := by
  dsimp only
  have goes := startDrain_drains (n := n) (p := p) .standby
  by_cases h : flushes (p.lane n).outstanding (p.port n) = true ∨ (newDrain .standby (p.port n).plan).graceMs ≠ 0
  · obtain ⟨drains, keeps⟩ := goes h
    refine ⟨fun _ => drains, fun c => ?_, startDrain_going_noEntry _ h, by rw [drains.state]; decide, keeps.plan⟩
    rw [c.1, c.2] at h
    simp at h
  · have f : flushes (p.lane n).outstanding (p.port n) = false := by simpa using fun c => h (.inl c)
    have g : (newDrain .standby (p.port n).plan).graceMs = 0 := Decidable.not_not.1 (fun c => h (.inr c))
    obtain ⟨y, e, mrc, keeps, drain⟩ := startDrain_ends (n := n) (p := p) .standby f g
    obtain ⟨ended, ne⟩ := endDrain_parked drain rfl (by rw [mrc]; exact run)
    rw [e]
    exact ⟨fun c => absurd c h, fun _ => ⟨ended.state, ended.grant, ended.drain, keeps.trans ended.keeps⟩, ne,
      by rw [ended.state]; decide, (keeps.trans ended.keeps).plan⟩

theorem startDrain_drains_parked (run : p.mrc.phase = .running) {r : PortRecord}
    (same : sameButStamp ((startDrain n .standby p).port n) r) :
    drains .standby .parked .parked (p.lane n).outstanding (p.port n) r := by
  have grace := drainEnd_grace .standby (p.port n).plan (by decide)
  obtain ⟨goes, ends, -⟩ := startDrain_to_parked (n := n) run
  rw [grace] at goes ends
  generalize (startDrain n .standby p).port n = r' at goes ends same
  rw [same]
  refine Drains.within (d := newDrain .standby (p.port n).plan) (fun c => ?_) (fun c => ?_) ⟨rfl, rfl, rfl, grace⟩
  · obtain ⟨state, grant, drain, grace, rehello, kept, onTime⟩ := goes c
    exact ⟨state, grant, drain, grace, rehello, kept, onTime⟩
  · obtain ⟨state, grant, drain, -⟩ := ends c
    exact ⟨state, grant, drain⟩

/-- A drain's words look at the plan and the grant of the record it starts from. -/
theorem drains_congr {reason : DrainReason} {dest : DrainDest} {after : PortState} {out : Nat} {r s r' : PortRecord}
    (pl : s.plan = r.plan) (grant : s.grant = r.grant) (h : drains reason dest after out r r') : drains reason dest after out s r' := by
  unfold drains drainsWithin flushes at h ⊢
  rw [pl, grant]
  exact h

/-! ### The adopted record -/

/-- The current an adoption leaves the orphan (R188). -/
def adoptedGrant (n : Port) (plan : Plan) (p : Part) : Nat :=
  if (p.port n).grant < fullRequest plan (p.port n).identity ∧ fits p (fullRequest plan (p.port n).identity - (p.port n).grant) = false then
    (p.port n).grant
  else fullRequest plan (p.port n).identity

theorem adoptGrant_port (n : Port) (plan : Plan) (p : Part) : ∃ k b, (adoptGrant n plan p).port n =
    { p.port n with grant := adoptedGrant n plan p, stamp := k, flags := { (p.port n).flags with short := b } } ∧
    (unfit n (fullRequest plan (p.port n).identity) p → b = true) := by
  unfold adoptGrant adoptedGrant unfit
  split
  · next more =>
    split
    · next fit =>
      obtain ⟨⟨k, e⟩, -⟩ := giveStamp_record n n (setGrant n (fullRequest plan (p.port n).identity) p)
      rw [e, setGrant_port_self, fit]
      refine ⟨k, (p.port n).flags.short, ?_, fun c => absurd c.2 (by decide)⟩
      rw [if_neg (fun c => absurd c.2 (by decide))]
    · next tight =>
      rw [setFlags_port_self]
      refine ⟨(p.port n).stamp, true, ?_, fun _ => rfl⟩
      rw [if_pos ⟨more, Bool.eq_false_iff.2 tight⟩]
  · next less =>
    rw [setGrant_port_self]
    refine ⟨(p.port n).stamp, (p.port n).flags.short, ?_, fun c => absurd c.1 less⟩
    rw [if_neg (fun c => less c.1)]

theorem adoptGrant_noEntry (plan : Plan) (h : noEntry n p) : noEntry n (adoptGrant n plan p) := by
  unfold adoptGrant
  split
  · split
    · exact giveStamp_noEntry n (setGrant_noEntry n _ h)
    · unfold noEntry
      rw [setFlags_bu]
      exact h
  · exact setGrant_noEntry n _ h

theorem adoptGrant_lane (n : Port) (plan : Plan) (p : Part) : (adoptGrant n plan p).lane n = p.lane n := by
  have stamped (y : Part) : (giveStamp n y).lane n = y.lane n :=
    congrArg Kept.lane ((Acts.giveStamp (S := fun _ => False) .refl n).kept (m := n) id)
  unfold adoptGrant
  split
  · split
    · rw [stamped, setGrant_lane]
    · rw [setFlags_lane]
  · rw [setGrant_lane]

/-- The part with the orphan adopted, its request not yet completed. -/
def adopted (n : Port) (plan : Plan) (p : Part) : Part :=
  updPort n (fun r => { r with adopted := true }) (storePlan n plan (adoptGrant n plan p))

theorem adoptStored_eq (n : Port) (plan : Plan) (p : Part) : adoptStored n plan p = complete (.port n) .ok (adopted n plan p) := rfl

/-- The record of an adopted orphan. -/
structure AdoptedRecord (n : Port) (plan : Plan) (p : Part) (r : PortRecord) : Prop where
  state : r.state = (p.port n).state
  grant : r.grant = adoptedGrant n plan p
  planned : r.plan = plan
  adopted : r.adopted = true
  deferred : r.deferred = (p.port n).deferred
  short : unfit n (fullRequest plan (p.port n).identity) p → r.flags.short = true

theorem adopted_record (n : Port) (plan : Plan) (p : Part) : AdoptedRecord n plan p ((adopted n plan p).port n) := by
  obtain ⟨k, b, granted, short⟩ := adoptGrant_port n plan p
  obtain ⟨a, c, record⟩ := storePlan_record n plan (adoptGrant n plan p)
  rw [adopted, updPort_port_self, record, granted]
  exact ⟨rfl, rfl, rfl, rfl, rfl, short⟩

theorem adopted_noEntry (plan : Plan) (h : noEntry n p) : noEntry n (adopted n plan p) :=
  updPort_noEntry _ _ (storePlan_noEntry plan (adoptGrant_noEntry plan h))

theorem adopted_hands (n : Port) (plan : Plan) (p : Part) : (adopted n plan p).handed n = plan.handed :=
  (updPort_handed ..).trans (storePlan_handed ..)

theorem adopted_mrc (n : Port) (plan : Plan) (p : Part) : (adopted n plan p).mrc = p.mrc := by
  rw [adopted, updPort_mrc, storePlan_mrc, adoptGrant_mrc]

theorem laneModeOf_orphan {r : PortRecord} (s : r.state = .orphan) (l : r.plan.laneUse = .expected) (m : LaneMode) :
    laneModeOf r m = .paused := by
  unfold laneModeOf PortRecord.laneUseNow
  rw [s]
  dsimp only
  rw [l]

/-- A plan stored in an orphan with a lane keeps the lane's tags. -/
theorem storePlan_tags (plan : Plan) (s : (p.port n).state = .orphan) (l : plan.laneUse = .expected) :
    ((storePlan n plan p).lane n).tags = (p.lane n).tags := by
  have active : laneModeOf ((beforeStored n plan p).port n) ((beforeStored n plan p).lane n).mode ≠ .idle := by
    have mode : laneModeOf ((beforeStored n plan p).port n) ((beforeStored n plan p).lane n).mode = .paused := by
      obtain e | e := beforeStored_port n plan p <;> rw [e]
      · refine laneModeOf_orphan ?_ ?_ _
        · exact s
        · exact l
      · obtain ⟨b, asked⟩ := refreshAsk_eq { p.port n with
          plan := plan, restartCount := min (p.port n).restartCount plan.restartLimit.1 }
        rw [asked]
        refine laneModeOf_orphan ?_ ?_ _
        · exact s
        · exact l
    rw [mode]
    decide
  rw [storePlan, handOver_lane, replacePlan_eq, laneFollow_tags active, beforeStored_lane]

theorem adopted_outstanding (s : (p.port n).state = .orphan) (l : plan.laneUse = .expected) :
    ((adopted n plan p).lane n).outstanding = (p.lane n).outstanding := by
  unfold Lane.outstanding
  rw [adopted, updPort_lane, storePlan_tags plan ((adoptGrant_state n plan p).trans s) l, adoptGrant_lane]

/-- Nothing is outstanding at the orphan (R189). -/
def quietLane (n : Port) (plan : Plan) (p : Part) : Prop := plan.laneUse = .unused ∨ (p.lane n).outstanding = 0

/-- The admission of an orphan waits for the replies outstanding (R189). -/
theorem adopt_adopted (s : (p.port n).state = .orphan) (m : plan.mode ≠ .off)
    (window : plan.base = (p.port n).plan.base ∧ plan.size = (p.port n).plan.size) (use : plan.laneUse = (p.port n).plan.laneUse)
    (named : plan.laneUse = .expected → names p.mo.wheel n = true) :
    (¬quietLane n plan p → adopt n plan p = complete (.port n) .ok (adopted n plan p)) ∧
    (quietLane n plan p → adopt n plan p = admitOrphan n (complete (.port n) .ok (adopted n plan p))) := by
  have test : (plan.laneUse = .unused || ((adoptStored n plan p).lane n).outstanding == 0) = true ↔ quietLane n plan p := by
    unfold quietLane
    rw [adoptStored_eq, complete_lane]
    cases l : plan.laneUse with
    | unused => simp
    | expected =>
      rw [adopted_outstanding s l]
      simp
  rw [adopt_eq, if_neg m, if_neg (by rw [window.1, window.2]; simp), if_neg (not_not.2 use),
    if_neg (fun c => absurd ((named c.1).symm.trans c.2) (by decide))]
  refine ⟨fun busy => ?_, fun idle => ?_⟩
  · rw [if_neg (fun c => busy (test.1 c)), adoptStored_eq]
  · rw [if_pos (test.2 idle), adoptStored_eq]

/-! ### An orphan admitted -/

theorem entering_grant (n : Port) (p : Part) : ((entering n p).port n).grant = (p.port n).grant := by
  have e := moveTo_port_self n .on p
  unfold entering
  obtain ⟨⟨c, o⟩, -, -⟩ := openLane_keeps n (startOnTime n (moveTo n .on p))
  rw [o, (startOnTime_keeps n _).2.2]
  exact e.grant

/-- The orphan as it enters ON, its request completed. -/
def admittedOrphan (n : Port) (plan : Plan) (p : Part) : Part := entering n (complete (.port n) .ok (adopted n plan p))

theorem admitOrphan_adopted (none : (p.port n).deferred = none) :
    admitOrphan n (complete (.port n) .ok (adopted n plan p)) =
      if p.mrc.standby then standbyOn n (admittedOrphan n plan p) else admittedOrphan n plan p := by
  have record := adopted_record n plan p
  have bare : enterOn n (complete (.port n) .ok (adopted n plan p)) = admittedOrphan n plan p :=
    enterOn_bare (by rw [complete_port, record.deferred, none])
  have mrc : (admittedOrphan n plan p).mrc = p.mrc := by rw [admittedOrphan, entering_mrc, complete_mrc, adopted_mrc]
  have on : ((admittedOrphan n plan p).port n).state = .on := (entering_record n _).1
  unfold admitOrphan
  dsimp only
  rw [bare, mrc, on]
  simp

/-- What the admission leaves of the orphan. -/
structure AdmittedOrphan (n : Port) (plan : Plan) (p y : Part) : Prop where
  state : (y.port n).state = .on
  planned : (y.port n).plan = plan
  grant : (y.port n).grant = adoptedGrant n plan p
  stored : stored n plan y
  noEntry : noEntry n y

theorem admittedOrphan_record (n : Port) (plan : Plan) (p : Part) : AdmittedOrphan n plan p (admittedOrphan n plan p) := by
  have record := adopted_record n plan p
  obtain ⟨state, planned, -⟩ := entering_record n (complete (.port n) .ok (adopted n plan p))
  have same : ((admittedOrphan n plan p).port n).plan = plan := planned.trans (by rw [complete_port, record.planned])
  refine ⟨state, same, ?_, ?_, entering_noEntry n _⟩
  · rw [admittedOrphan, entering_grant, complete_port, record.grant]
  · refine stored_congr (complete_stored_of (p := adopted n plan p) record.planned (adopted_hands n plan p)) ?_ ?_ ?_
    · exact entering_request n _ _
    · exact planned
    · exact entering_handed n _

theorem AdmittedOrphan.setFlags {y : Part} (h : AdmittedOrphan n plan p y) (g : Flags → Flags) :
    AdmittedOrphan n plan p (setFlags n g y) := by
  have port := setFlags_port_self n g y
  refine ⟨by rw [port]; exact h.state, by rw [port]; exact h.planned, by rw [port]; exact h.grant, ?_, ?_⟩
  · exact stored_congr h.stored (setFlags_request _ _ _ _) (by rw [port]) (by rw [Machine.setFlags, updPort_handed])
  · unfold Machine.noEntry
    rw [setFlags_bu]
    exact h.noEntry

/-- A standby entry of the admitted orphan (R192). -/
theorem standbyOn_cases (n : Port) (y : Part) :
    ((y.port n).plan.keep = true → standbyOn n y = setFlags n (fun f => { f with kept := true }) y) ∧
    ((y.port n).plan.keep = false → standbyOn n y = startDrain n .standby y) := by
  unfold standbyOn
  exact ⟨fun k => by rw [k]; rfl, fun k => by rw [k]; rfl⟩

/-- An orphan that stays on after its admission. -/
theorem admitted_stays (none : (p.port n).deferred = none) (h : p.mrc.standby = false ∨ plan.keep = true)
    (work : f p = admitOrphan n (complete (.port n) .ok (adopted n plan p))) : stored n plan (settle (event f p)) ∧
      ((settle (event f p)).port n).state = .on ∧ ((settle (event f p)).port n).grant = adoptedGrant n plan p := by
  have on := admittedOrphan_record n plan p
  have kept : ∃ y, f p = y ∧ AdmittedOrphan n plan p y := by
    refine ⟨f p, rfl, ?_⟩
    rw [work, admitOrphan_adopted none]
    split
    · next sb =>
      have keep := h.resolve_left (by rw [sb]; decide)
      rw [(standbyOn_cases n _).1 (by rw [on.planned, keep])]
      exact on.setFlags _
    · exact on
  obtain ⟨y, rfl, adm⟩ := kept
  have rests := (fullTail_event n f p).calm (quiet_of_state adm.noEntry (by rw [adm.state]; decide))
  rw [rests.port]
  exact ⟨rests.stored adm.stored, adm.state, adm.grant⟩

/-- An orphan that standby drains at its admission (R192). -/
theorem admitted_drains (none : (p.port n).deferred = none) (run : p.mrc.phase = .running) (sb : p.mrc.standby = true)
    (keep : plan.keep = false) (s : (p.port n).state = .orphan)
    (work : f p = admitOrphan n (complete (.port n) .ok (adopted n plan p))) : stored n plan (settle (event f p)) ∧
      drains .standby .parked .parked (p.lane n).outstanding { p.port n with plan := plan, grant := adoptedGrant n plan p }
        ((settle (event f p)).port n) := by
  have on := admittedOrphan_record n plan p
  have mrc : (admittedOrphan n plan p).mrc = p.mrc := by rw [admittedOrphan, entering_mrc, complete_mrc, adopted_mrc]
  have outstanding : plan.laneUse = .expected → ((admittedOrphan n plan p).lane n).outstanding = (p.lane n).outstanding := by
    intro l
    have same := adopted_outstanding s l
    unfold Lane.outstanding at same ⊢
    rw [admittedOrphan, entering_tags (by rw [complete_port, (adopted_record n plan p).planned, l]), complete_lane]
    exact same
  have drained : f p = startDrain n .standby (admittedOrphan n plan p) := by
    rw [work, admitOrphan_adopted none, sb, if_pos rfl, (standbyOn_cases n _).2 (by rw [on.planned, keep])]
  have hands : handsPlan n (admittedOrphan n plan p) := by
    unfold handsPlan
    rw [on.planned]
    exact (entering_handed n _).trans (((Same.complete _ _ _).handed n).trans (adopted_hands n plan p))
  generalize admittedOrphan n plan p = y at on mrc outstanding drained hands
  have run' : y.mrc.phase = .running := by rw [mrc]; exact run
  obtain ⟨-, -, ne, settled, planned⟩ := startDrain_to_parked (n := n) run'
  have rests := (fullTail_event n f p).calm (by rw [drained]; exact quiet_of_state ne settled)
  have drains := startDrain_drains_parked run' (rests.same (by rw [drained]))
  refine ⟨rests.stored ?_, ?_⟩
  · rw [drained]
    refine stored_congr on.stored (startDrain_request ..) planned ?_
    have handed := handsPlan_startDrain hands
    unfold handsPlan at handed hands
    rw [handed, hands, planned]
  · refine drains_congr (r := y.port n) on.planned.symm on.grant.symm ?_
    exact (drains_outstanding (fun l => outstanding (by rw [← on.planned, l]))).1 drains

end

end Sys2Proof.Machine
end

