-- ==== Sys2Proof/Proofs/CopyReads.lean ====
section
/-! What a copy read delivers (R134, R167), and O8, whose fault arm asks for no law of the ports. -/

namespace Sys2Proof.Machine

section
variable {n : Port} {p x : Part} {plan : Plan} {f : Part → Part}

/-! ### An orphan -/

theorem adopt_off (m : plan.mode = .off) : adopt n plan x = complete (.port n) .ok (withdraw n plan x) := by
  rw [adopt_eq, if_pos m]

theorem adopt_refusals (m : plan.mode ≠ .off) :
    (¬(plan.base = (x.port n).plan.base ∧ plan.size = (x.port n).plan.size) → adopt n plan x = complete (.port n) .windowLocked x) ∧
    ((plan.base = (x.port n).plan.base ∧ plan.size = (x.port n).plan.size) → plan.laneUse ≠ (x.port n).plan.laneUse →
      adopt n plan x = complete (.port n) .state x) ∧
    ((plan.base = (x.port n).plan.base ∧ plan.size = (x.port n).plan.size) → plan.laneUse = (x.port n).plan.laneUse →
      plan.laneUse = .expected → names x.mo.wheel n = false → adopt n plan x = complete (.port n) .unnamed x) := by
  rw [adopt_eq, if_neg m]
  refine ⟨fun moved => ?_, fun window other => ?_, fun window use expected unnamed => ?_⟩
  · rw [if_pos (not_and_or.1 moved)]
  · rw [if_neg (not_or.2 ⟨not_not.2 window.1, not_not.2 window.2⟩), if_pos other]
  · rw [if_neg (not_or.2 ⟨not_not.2 window.1, not_not.2 window.2⟩), if_neg (not_not.2 use), if_pos ⟨expected, unnamed⟩]

/-- An adoption whose port waits for the replies outstanding (R189). -/
theorem adopted_waits (ne : noEntry n x) (s : (x.port n).state = .orphan) (work : f x = complete (.port n) .ok (adopted n plan x)) :
    stored n plan (settle (event f x)) ∧ AdoptedRecord n plan x ((settle (event f x)).port n) := by
  have record := adopted_record n plan x
  obtain ⟨stored, same⟩ := stored_calm work (quiet_of_state (adopted_noEntry plan ne) (by rw [record.state, s]; decide))
    record.planned (adopted_hands n plan x)
  rw [same]
  exact ⟨stored, record.state, record.grant, record.planned, record.adopted, record.deferred, record.short⟩

/-- The fate of an adopted orphan (R188, R189, R192). -/
structure AdoptedFate (n : Port) (plan : Plan) (x t : Part) : Prop where
  stored : stored n plan t
  waits : ¬quietLane n plan x → (t.port n).state = .orphan ∧ (t.port n).adopted = true ∧ (t.port n).grant = adoptedGrant n plan x ∧
    (unfit n (fullRequest plan (x.port n).identity) x → (t.port n).flags.short = true)
  stays : quietLane n plan x → x.mrc.standby = false ∨ plan.keep = true →
    (t.port n).state = .on ∧ (t.port n).grant = adoptedGrant n plan x
  drains : quietLane n plan x → x.mrc.standby = true → plan.keep = false →
    drains .standby .parked .parked (x.lane n).outstanding { x.port n with plan := plan, grant := adoptedGrant n plan x } (t.port n)

section
variable (h : Delivered n plan p x f)
include h

theorem Delivered.adopted (s : (x.port n).state = .orphan) (none : (x.port n).deferred = none) (m : plan.mode ≠ .off)
    (window : plan.base = (x.port n).plan.base ∧ plan.size = (x.port n).plan.size) (use : plan.laneUse = (x.port n).plan.laneUse)
    (named : plan.laneUse = .expected → names x.mo.wheel n = true) : AdoptedFate n plan x (settle (event f x)) := by
  have ne := h.noEntry (by rw [s]; decide) (by rw [s]; decide)
  have run : x.mrc.phase = .running := by rw [h.mrc]; exact h.running
  obtain ⟨busy, idle⟩ := adopt_adopted s m window use named
  have work := h.work.trans (applyByState_orphan s)
  by_cases q : quietLane n plan x
  · have done := work.trans (idle q)
    by_cases stays : x.mrc.standby = false ∨ plan.keep = true
    · obtain ⟨stored, on⟩ := admitted_stays none stays done
      refine ⟨stored, fun c => absurd q c, fun _ _ => on, fun _ sb keep => ?_⟩
      obtain c | c := stays
      · exact absurd (c.symm.trans sb) (by decide)
      · exact absurd (keep.symm.trans c) (by decide)
    · obtain ⟨sb, keep⟩ := not_or.1 stays
      obtain ⟨stored, drains⟩ := admitted_drains none run (by simpa using sb) (by simpa using keep) s done
      exact ⟨stored, fun c => absurd q c, fun _ c => absurd c stays, fun _ _ _ => drains⟩
  · obtain ⟨stored, record⟩ := adopted_waits ne s (work.trans (busy q))
    exact ⟨stored, fun _ => ⟨record.state.trans s, record.adopted, record.grant, record.short⟩, fun c => absurd c q,
      fun c => absurd c q⟩

/-- An APPLY to an orphan (R188, R189, R192). -/
theorem Delivered.applyOrphan (wl : waitLaw p) (law : budgetLaw p) : applyOrphan n plan p (settle (event f x)) := by
  have view := h.steady.view n
  have lane : x.lane n = p.lane n := h.steady.1.lane n
  have fits : fits p = fits x := funext (fun k => (view.fits k).symm)
  have refuse {a : Result} (work : f x = complete (.port n) a x) := refused_apply (f := f) h.queue wl law h.steady work
  unfold Machine.applyOrphan
  dsimp only
  rw [← h.port, ← h.mrc, ← view.wheel, ← lane, fits]
  intro s none
  have work := h.work.trans (applyByState_orphan s)
  refine ⟨fun m => ?_, fun m moved => ?_, fun m window other => ?_, fun m window use => ⟨fun expected unnamed => ?_, fun named => ?_⟩⟩
  · obtain ⟨stored, drains, -⟩ := withdrawn (by rw [← work.trans (adopt_off m)]; exact tail_event n f x)
    exact ⟨stored, drains⟩
  · exact refuse (work.trans ((adopt_refusals m).1 moved))
  · exact refuse (work.trans ((adopt_refusals m).2.1 window other))
  · exact refuse (work.trans ((adopt_refusals m).2.2 window use expected unnamed))
  · obtain ⟨stored, waits, stays, drains⟩ := h.adopted s none m window use named
    exact ⟨stored, waits, stays, drains⟩

end

/-! ### An APPLY -/

/-- An APPLY is delivered (R34 to R38, R188). -/
theorem apply_delivered (record : Option Plan) (ql : queueLaw p) (wl : waitLaw p) (law : budgetLaw p) (run : p.mrc.phase = .running)
    (u : Steady x p) (requests : ∀ w, x.request w = p.request w) :
    applyOutcome n record p (settle (event (deliverApply n record) x)) := by
  refine ⟨fun bad => ?_, ?_⟩
  · refine refused_apply ql wl law u ?_
    cases record with
    | none => rfl
    | some plan =>
      unfold deliverApply
      dsimp only
      rw [bad plan rfl]
      rfl
  · rintro plan rfl valid
    have meets := windowOverlaps_congr u.1 n plan
    refine ⟨fun overlap => refused_apply ql wl law u ?_, fun clear => ?_⟩
    · unfold deliverApply
      dsimp only
      rw [valid, meets, overlap]
      rfl
    · have h : Delivered n plan p x (deliverApply n (some plan)) :=
        ⟨ql, u, run, valid, deliverApply_valid valid (meets.trans clear)⟩
      exact ⟨h.applyOpen, h.applyStarting requests, h.applyUnnamed, h.applyOn, h.applyDraining, h.applyOrphan wl law⟩

/-- A plan delivered to a port in EMPTY or FAULT, whatever else the part holds. -/
theorem apply_stored (u : Steady x p) (valid : planFieldsValid plan = true) (clear : windowOverlaps p n plan = false)
    (s : (p.port n).state = .empty ∨ (p.port n).state = .fault) (ne : noEntry n p) :
    stored n plan (settle (event (deliverApply n (some plan)) x)) ∧
    ((settle (event (deliverApply n (some plan)) x)).port n).state = (p.port n).state := by
  have work := deliverApply_valid valid ((windowOverlaps_congr u.1 n plan).trans clear)
  have free : noEntry n x := by
    unfold noEntry
    rw [u.1.2.1]
    exact ne
  have port := u.1.port n
  rw [← port] at s ⊢
  obtain ⟨stored, state⟩ := applied_idle work free (by obtain s | s := s <;> rw [s] <;> decide)
  refine ⟨stored, state.trans (if_neg ?_)⟩
  obtain s | s := s <;> rw [s] <;> simp

/-! ### A completed copy read -/

/-- What a completed copy read brings about, a fault's completion at a port under the laws of the queue and of what waits. -/
structure CopyReadOutcome (source : Source) (fault : Bool) (bytes : List Byte) (p t : Part) : Prop where
  refused : fault = true → (source.word = .device ∨ (queueLaw p ∧ waitLaw p)) →
    (t.request source.word).completion = some .memFault
  goesOn : fault = true → queueLaw p → waitLaw p → ∀ m, goesOn m (p.port m) p t
  unmoved : fault = true → p.mo.pendingWheel = none →
    t.ports = p.ports ∧ t.bu = p.bu ∧ t.ms = p.ms ∧ t.mo.wheel = p.mo.wheel
  devicePlan : fault = false → source = .devicePlan →
    (devicePlanValid (readDevicePlan bytes) = true → t.bu.plan = readDevicePlan bytes ∧ (t.request .device).completion = some .ok) ∧
    (devicePlanValid (readDevicePlan bytes) = false → t.bu.plan = p.bu.plan ∧ (t.request .device).completion = some .invalid)
  stored : fault = false → ∀ n plan, source = .plan n → readPlan bytes = some plan → planFieldsValid plan = true →
    windowOverlaps p n plan = false → ((p.port n).state = .empty ∨ (p.port n).state = .fault) → noEntry n p →
    stored n plan t ∧ (t.port n).state = (p.port n).state
  applied : fault = false → ∀ n, source = .plan n → p.mrc.phase = .running → queueLaw p → waitLaw p → budgetLaw p →
    applyOutcome n (readPlan bytes) p t
  wheel : fault = false → source = .wheelImage → wheelOutcome (readWheel bytes) p t
  sequence : fault = false → source = .sequencePlan → sequenceOutcome (readSequence bytes) p t

/-- A copy read that faults refuses its request (R134). -/
theorem copyRead_faults (source : Source) (bytes : List Byte) (steady : Steady x p) (u : Unmoved p x)
    (none : source.word = .device → p.mo.pendingWheel = none) :
    CopyReadOutcome source true bytes p (settle (complete source.word .memFault x)) := by
  have on (ql : queueLaw p) (wl : waitLaw p) (m : Port) :
      Onward m (p.port m) p (complete source.word .memFault x) (settle (complete source.word .memFault x)) :=
    (fullTail_settle m _).onward ql wl (leaves_of_aside (by rw [complete_aside, steady.1.aside])
      (by rw [complete_mo, steady.2.2]; exact id))
  have rest (free : p.mo.pendingWheel = Option.none) := unmoved_settle (p := complete source.word .memFault x)
    (by rw [complete_mo, u.pending, free])
  refine ⟨fun _ h => ?_, fun _ ql wl m => (on ql wl m).goesOn, fun _ free => ?_, ?_, ?_, ?_, ?_, ?_⟩
  · cases word : source.word with
    | device =>
      rw [word] at none rest
      rw [(rest (none rfl)).request, complete_completion]
    | port n =>
      rw [word] at h on
      obtain ⟨ql, wl⟩ := h.resolve_left (by simp)
      rw [(on ql wl n).request, complete_completion]
  · have settled := rest free
    exact ⟨by rw [settled.ports, complete_ports, u.ports], by rw [settled.bu, complete_bu, u.bu], by rw [settled.ms, complete_ms, u.ms],
      by rw [settled.wheel, complete_mo, u.wheel]⟩
  all_goals exact fun c => by cases c

/-- A copy read delivers its record (R33, R44, R79, R130, R167). -/
theorem copyRead_delivers {source : Source} {address length : Nat} (bytes : List Byte)
    (flight : p.mo.inFlight = some (.copyRead source address length false))
    (none : source.word = .device → p.mo.pendingWheel = none) :
    CopyReadOutcome source false bytes p (settle (deliver source bytes (received source p))) := by
  have u := unmoved_received source p
  have steady := received_steady source p
  refine ⟨fun c => (by cases c), fun c => (by cases c), fun c => (by cases c), ?_, ?_, ?_, ?_, ?_⟩
  · rintro - rfl
    exact devicePlan_delivered (readDevicePlan bytes) u (none rfl)
  · rintro - n plan rfl read valid clear s ne
    have work : deliver (.plan n) bytes (received (.plan n) p) = event (deliverApply n (some plan)) (received (.plan n) p) := by
      rw [deliver, read]
    rw [work]
    exact apply_stored steady valid clear s ne
  · rintro - n rfl run ql wl law
    exact apply_delivered (readPlan bytes) ql wl law run steady u.request
  · rintro - rfl
    exact wheel_delivered (readWheel bytes) flight (none rfl)
  · rintro - rfl
    exact sequence_delivered (readSequence bytes) u (none rfl)

/-- What O8 says of a completed copy read holds, the completion of a fault at a port under the laws. -/
theorem copyReadComplete_outcome (source : Source) (address length : Nat) (fault : Bool) (s : State)
    (flight : s.part.mo.inFlight = some (.copyRead source address length false)) (fits : address + length ≤ Config.memoryBytes)
    (none : source.word = .device → s.part.mo.pendingWheel = none) :
    Completes (.copyReadComplete fault) s (fun t =>
      CopyReadOutcome source fault (s.mem.readBytes address length) s.part t.part) := by
  refine copyRead_completes flight fits (fun t e => ?_)
  rw [e]
  cases fault with
  | true => exact copyRead_faults source _ (received_steady source s.part) (unmoved_received source s.part) none
  | false => exact copyRead_delivers _ flight none

end

/-! ### A fault outside the laws -/

/-- A port that waits in SETTLE with NO_PHASE and yet holds a deferred request, which no reachable state has (R36). -/
def waitingDeferred : PortRecord :=
  { resetRecord { defaultPlan true with laneUse := .unused } with
    state := .settle, grant := 100, flags := { clearFlags with noPhase := true },
    deferred := some { defaultPlan true with laneUse := .unused } }

/-- A running part whose area engine offers nothing, a wheel pending, as the copy read of port 0's next plan is in flight. -/
def copyingOverWaiting : State where
  pending := []
  mem := []
  part :=
    { powerOnPart with
      ports := powerOnPart.ports.put 0 waitingDeferred
      mo := { resetOrderer with pendingWheel := some defaultWheel, inFlight := some (.copyRead (.plan 0) 0 4 false) }
      mrc := { resetModeReset with phase := .running } }

/-- The command ends with the request of port 0 completed with OK. -/
def completesPortZero (c : Instr) (s : State) : Bool :=
  match exec c s with
  | .next t => (t.part.request (.port 0)).completion == some .ok
  | _ => false

/-- Refutes O8: the fault refuses the request with MEMFAULT, the wheel is swapped in at the end of the command, the port is admitted
and its deferred request applied, so that the request is completed again, with OK. -/
theorem not_copyReadCompletionDeliversTheRecord : ¬ Obligations.CopyReadCompletionDeliversTheRecord := by
  intro h
  have done : completesPortZero (.copyReadComplete true) copyingOverWaiting = true := by decide +kernel
  obtain ⟨t, next, fault, -⟩ := h (.plan 0) 0 4 true copyingOverWaiting rfl (by decide) (by decide)
  have refused : (t.part.request (.port 0)).completion = some .memFault := (fault rfl).1
  simp only [completesPortZero, next, refused] at done
  exact absurd done (by decide)

end Sys2Proof.Machine
end

