-- ==== Sys2Proof/Proofs/QueueLaw.lean ====
section
/-! The statement about the law of the grant queue: O50. -/

namespace Sys2Proof.Machine

/-- Settles O50: every command keeps `queueLaw`, one of the laws of the port table and the grant queue. -/
theorem stepKeepsTheQueueLaw : Obligations.StepKeepsTheQueueLaw := by
  intro s t h e
  exact step_keeps h e (fun c s' h e => (queueLaw_iff _).2 (partOk_exec ((queueLaw_iff _).1 h) e))

end Sys2Proof.Machine
end

