-- ==== Sys2Proof/Proofs/LawsAtReset.lean ====
section
/-! The laws of the part after power-on reset: O47. -/

namespace Sys2Proof.Machine

theorem powerOn_port (n : Port) : powerOnPart.port n = resetRecord (defaultPlan false) := PerPort.at_all _ n

theorem powerOn_lane (n : Port) : powerOnPart.lane n = resetLane := PerPort.at_all _ n

theorem powerOn_closed (n : Port) : (powerOnPart.port n).state.closed = false := by rw [powerOn_port]; rfl

theorem powerOn_partOk (a : Asked) : partOk a powerOnPart := partOk_poweredUp (pins := resetModeReset)

theorem powerOn_wheelLaw : wheelLaw powerOnPart :=
  (wheelLaw_iff _).2 ⟨⟨rfl, by decide, by decide⟩, fun w h => (by cases h), powerOn_partOk _⟩

theorem powerOn_windowLaw : windowLaw powerOnPart := by
  refine ⟨fun n a h => ?_, fun n a offset length last discard h => by cases h⟩
  rw [show powerOnPart.mo.lists.at n = [] from PerPort.at_all _ n] at h
  cases h

theorem powerOn_laneLaw : laneLaw powerOnPart := by
  intro n
  rw [powerOn_port, powerOn_lane]
  refine ⟨rfl, rfl, rfl, by decide, fun _ => ⟨by decide, rfl, rfl⟩, fun _ => by decide⟩

theorem powerOn_timerLaw : timerLaw powerOnPart := by
  intro n
  rw [powerOn_port]
  decide

theorem powerOn_waitLaw : waitLaw powerOnPart := by
  intro n
  rw [powerOn_port]
  decide

theorem powerOn_holdLaw : holdLaw powerOnPart :=
  ⟨fun _ => ⟨rfl, fun _ _ _ h => (by cases h)⟩, fun _ n => by rw [powerOn_port]; exact ⟨rfl, rfl⟩, fun h => by cases h⟩

theorem powerOn_handed (n : Port) : handedOver n (defaultPlan false) powerOnPart :=
  ⟨PerPort.at_all _ n, PerPort.at_all _ n, PerPort.at_all _ n⟩

theorem powerOn_handLaw : handLaw powerOnPart := fun n =>
  ⟨fun h => (by cases h), fun h => (by cases h), fun _ => powerOn_handed n⟩

theorem powerOn_completionsWritten : completionsWritten powerOnPart := by
  intro w result h
  have idle : powerOnPart.request w = idleRequest := by
    cases w with
    | device => rfl
    | port n => exact PerPort.at_all _ n
  rw [idle] at h
  cases h

/-- Settles O47: the laws at the part as power-on reset leaves it. -/
theorem lawsHoldAtReset : Obligations.LawsHoldAtReset :=
  ⟨reset_memory_wf, (openLaw_iff _).2 (powerOn_partOk _), (queueLaw_iff _).2 (powerOn_partOk _),
    (coverageLaw_iff _).2 (powerOn_partOk _), powerOn_wheelLaw, powerOn_windowLaw, by unfold budgetLaw; decide,
    ⟨by decide, fun h => by cases h⟩, powerOn_laneLaw, powerOn_timerLaw, powerOn_waitLaw, powerOn_holdLaw,
    powerOn_completionsWritten, powerOn_handLaw, fun h => (by cases h), List.nodup_nil, fun _ h => by cases h⟩

end Sys2Proof.Machine
end

