-- ==== Sys2Proof/Proofs/OtherPorts.lean ====
section
/-! What a command of one port leaves of another port that no grant and no swap of the wheel can reach: O44. -/

namespace Sys2Proof.Machine

section
variable {n m : Port}

/-! ### Another port -/

theorem arrived_aside (h : n ≠ m) (p : Part) : (arrived n p).aside m = p.aside m := by
  unfold arrived
  split
  · exact moveTo_aside h _ p
  · rw [toQueued_aside h, setFlags_aside h]

theorem noHello_aside (h : n ≠ m) (p : Part) : (noHello n p).aside m = p.aside m := by
  unfold noHello
  rw [updPort_aside h, moveTo_aside h]

theorem restartExpired_aside (h : n ≠ m) (p : Part) : (restartExpired n p).aside m = p.aside m := by
  unfold restartExpired
  split
  · exact moveTo_aside h _ p
  · exact toQueued_aside h p

theorem settleExpired_aside (h : n ≠ m) (p : Part) : (settleExpired n p).aside m = p.aside m := by
  have tested : (testAdmission n (setTimers n (fun t => { t with settle := none }) p)).aside m = p.aside m := by
    rw [testAdmission_aside h, setTimers_aside h]
  unfold settleExpired
  dsimp only
  split
  · rw [applyDeferred_aside h, tested]
  · exact tested

theorem orderTaken_aside (h : n ≠ m) (p : Part) : (orderTaken n p).aside m = p.aside m := by
  unfold orderTaken
  rw [shedTaken_aside h, mapBu_aside rfl]

theorem presenceAsserted_aside (h : n ≠ m) (p : Part) : (presenceAsserted n p).aside m = p.aside m := by
  unfold presenceAsserted
  dsimp only
  split
  · exact setTimers_aside h _ _
  · rfl

theorem presenceLost_aside (h : n ≠ m) {p : Part} (free : noEntry m p) : (presenceLost n p).aside m = p.aside m := by
  have unplugged := unplugPort_aside h (p.mapMrc (fun x => { x with present := x.present.put n false }))
  unfold presenceLost
  dsimp only
  split
  · exact setTimers_aside h _ _
  · exact (event_aside _ (noEntry_of_aside unplugged free)).trans unplugged

/-- An event whose own work leaves a port without an entry aside leaves it aside. -/
theorem event_leaves {f : Part → Part} {p : Part} (free : noEntry m p) (k : (f p).aside m = p.aside m) :
    (event f p).aside m = p.aside m := (event_aside p (noEntry_of_aside k free)).trans k

theorem answerEnds_aside (h : n ≠ m) {p : Part} (free : noEntry m p) : (answerEnds n p).aside m = p.aside m := by
  unfold answerEnds
  split
  · rfl
  · exact event_leaves free (answerSent_aside h _ p)

theorem timed_aside (h : n ≠ m) (f : PortRecord → PortRecord) (p : Part) :
    (reportPort n false (updPort n f p)).aside m = p.aside m := by rw [reportPort_aside, updPort_aside h]

/-- A slot of the port's own current, with the end of the slot (R71, R83). -/
theorem sampled_aside (h : n ≠ m) (reading : Nat) {p : Part} (free : noEntry m p) :
    (slotEnd (event (portSample n reading) p)).aside m = p.aside m := by
  have judged : (event (portSample n reading) p).aside m = p.aside m := event_leaves free (portSample_aside h reading p)
  exact (slotEnd_aside _ (noEntry_of_aside judged free)).trans judged

/-! ### Another port's command -/

/-- A command on the part leaves a quiet port aside where its event does. -/
theorem onPart_aside {can : Part → Bool} {f : Part → Part} {s t : State} (e : onPart can f s = .next t) (still : quiet m s.part)
    (k : (f s.part).aside m = s.part.aside m) : t.part.aside m = s.part.aside m := by
  obtain ⟨-, rfl⟩ | ⟨-, rfl⟩ := onPart_part e
  · exact settle_other s.part still k
  · rfl

/-- A command of one port leaves every other quiet port aside. -/
theorem portCommand_aside {c : Instr} {s t : State} (own : portOfCommand c = some n) (h : n ≠ m) (still : quiet m s.part)
    (e : exec c s = .next t) : t.part.aside m = s.part.aside m := by
  have bare (can : Part → Bool) (f : Part → Part) (e : onPart can f s = .next t) (k : ∀ p, (f p).aside m = p.aside m) :
      t.part.aside m = s.part.aside m := onPart_aside e still (k _)
  have budgeted (can : Part → Bool) (f : Part → Part) (e : onPart can (event f) s = .next t) (k : ∀ p, (f p).aside m = p.aside m) :
      t.part.aside m = s.part.aside m := onPart_aside e still (event_leaves still.1 (k _))
  cases c <;> cases own
  case presenceAssert => exact bare (fun p => !p.mrc.present.at n) (presenceAsserted n) e (presenceAsserted_aside h)
  case arrival => exact budgeted (debouncerRuns n) (arrived n) e (arrived_aside h)
  case presenceLoss => exact onPart_aside (can := fun p => p.mrc.present.at n) (f := presenceLost n) e still (presenceLost_aside h still.1)
  case helloTimerExpiry => exact budgeted (helloRuns n) (noHello n) e (noHello_aside h)
  case rampTimerExpiry => exact budgeted (rampRuns n) (failPort n .rampTimeout) e (failPort_aside h _)
  case settleTimerExpiry => exact budgeted (settleRuns n) (settleExpired n) e (settleExpired_aside h)
  case onTimeLimit => exact bare (onTimeRuns n) (fun p => reportPort n false (updPort n PortRecord.ranLong p)) e (timed_aside h _)
  case onTimeReport =>
    exact bare (fun p => (p.port n).state == .on) (fun p => reportPort n false (updPort n PortRecord.atNextSecond p)) e (timed_aside h _)
  case graceTimerExpiry => exact budgeted (graceRuns n) (endDrain n) e (endDrain_aside h)
  case shedOrderTaken => exact budgeted (orderDue n) (orderTaken n) e (orderTaken_aside h)
  case hardLimitTrip sensed => exact budgeted (trips n sensed) (failPort n .hard) e (failPort_aside h _)
  case restartTimerExpiry => exact budgeted (restartRuns n) (restartExpired n) e (restartExpired_aside h)
  case portISample reading =>
    exact onPart_aside (can := converts (.portI n)) (f := fun p => slotEnd (event (portSample n reading) p)) e still
      (sampled_aside h reading still.1)
  case helloFrame identity => exact budgeted (laneHears n) (takeFrame n (.hello identity)) e (takeFrame_aside h _)
  case putFrame tag cls offset data => exact bare (laneHears n) (takeFrame n (.put tag cls offset data)) e (takeFrame_aside h _)
  case getFrame tag cls offset length => exact bare (laneHears n) (takeFrame n (.get tag cls offset length)) e (takeFrame_aside h _)
  case keepFrame => exact bare (laneHears n) (takeFrame n .keep) e (takeFrame_aside h _)
  case leaveFrame => exact budgeted (laneHears n) (takeFrame n .leave) e (takeFrame_aside h _)
  case badFrame bytes => exact budgeted (laneHears n) (takeBytes n bytes) e (takeBytes_aside h bytes)
  case openSent =>
    exact bare (fun p => (p.lane n).sendsOpen) (fun p => updLane n (Lane.openSent (decide ((p.port n).state = .on))) p) e
      (fun p => updLane_aside h _ p)
  case answerSent =>
    exact onPart_aside (can := fun p => (p.lane n).sentAnswer.isSome) (f := answerEnds n) e still (answerEnds_aside h still.1)
  case frameSent => exact bare (fun p => (p.lane n).sendsOther) (updLane n Lane.sendingEnds) e (updLane_aside h _)
  case keepTimerExpiry => exact bare (fun p => (p.lane n).keepTimer.isSome) (updLane n Lane.keepExpired) e (updLane_aside h _)
  case silenceTimerExpiry =>
    exact budgeted (fun p => (p.lane n).silenceTimer.isSome) (silenceExpired n) e (silenceExpired_aside h)

end

/-- Settles O44: a quiet port is left `aside` to the end of the command, which says all but the stamp of a closed port. -/
theorem portCommandsLeaveTheOtherPorts : Obligations.PortCommandsLeaveTheOtherPorts := by
  intro c n m s t own other still _ e
  have left := portCommand_aside own (Ne.symm other) still e
  exact ⟨port_of_aside left, Aside.lane_of left, port_of_aside_open left⟩

end Sys2Proof.Machine
end

