-- ==== Sys2Proof/Proofs/ShedListAt.lean ====
section
/-! The law of the shed list (R46, R60) through the operations of one port. -/

namespace Sys2Proof.Machine

/-- The reason of the drain a record holds. -/
def PortRecord.drainReason (r : PortRecord) : Option DrainReason := r.drain.map Drain.reason

section
variable {p q : Part} {n : Port}

/-! ### What keeps the shed list's law -/

/-- The law looks at the list, the orders on their way, the states, and the reasons of the drains. -/
theorem shedListLaw.congr (h : shedListLaw p) (list : q.bu.shedList = p.bu.shedList) (orders : q.bu.orders = p.bu.orders)
    (state : ∀ m, (q.port m).state = (p.port m).state)
    (drain : ∀ m, (p.port m).state = .drain → (q.port m).drainReason = (p.port m).drainReason) : shedListLaw q := by
  unfold shedListLaw
  rw [list, orders]
  refine ⟨h.1, fun m hm => ?_⟩
  obtain ⟨closed, due⟩ := h.2 m hm
  rw [state]
  exact ⟨closed, due.imp_right fun ⟨s, reason⟩ => ⟨s, (drain m s).trans reason⟩⟩

theorem shedListLaw.of_ports (h : shedListLaw p) (ports : q.ports = p.ports) (bu : q.bu = p.bu) : shedListLaw q := by
  have port (m : Port) : q.port m = p.port m := by unfold Part.port; rw [ports]
  exact h.congr (by rw [bu]) (by rw [bu]) (fun m => by rw [port]) (fun m _ => by rw [port])

/-- A change of a record that keeps its state and the reason of its drain. -/
theorem shedListLaw.updPort (h : shedListLaw p) {f : PortRecord → PortRecord}
    (k : ∀ r, (f r).state = r.state ∧ (f r).drainReason = r.drainReason) : shedListLaw (updPort n f p) := by
  refine h.congr (by rw [updPort_bu]) (by rw [updPort_bu]) (fun m => ?_) (fun m _ => ?_) <;> by_cases e : n = m
  · rw [← e, updPort_port_self, (k _).1]
  · rw [updPort_port_ne e]
  · rw [← e, updPort_port_self, (k _).2]
  · rw [updPort_port_ne e]

theorem shedListLaw.mapBu (h : shedListLaw p) {f : Budget → Budget} (k : ∀ b, (f b).shedList = b.shedList ∧ (f b).orders = b.orders) :
    shedListLaw (p.mapBu f) := h.congr (k _).1 (k _).2 (fun _ => rfl) (fun _ _ => rfl)

theorem shedListLaw.complete (h : shedListLaw p) (w : ReqWord) (r : Result) : shedListLaw (complete w r p) :=
  h.of_ports (complete_ports w r p) (complete_bu w r p)

theorem shedListLaw.reportPort (h : shedListLaw p) (m : Bool) : shedListLaw (reportPort n m p) :=
  h.of_ports (reportPort_ports n m p) (reportPort_bu n m p)

theorem shedListLaw.updLane (h : shedListLaw p) (f : Lane → Lane) : shedListLaw (updLane n f p) := h.of_ports rfl rfl

theorem shedListLaw.handOver (h : shedListLaw p) : shedListLaw (handOver n p) := h.of_ports rfl rfl

theorem shedListLaw.setFlags (h : shedListLaw p) (f : Flags → Flags) : shedListLaw (setFlags n f p) := h.updPort (fun _ => ⟨rfl, rfl⟩)

theorem shedListLaw.setTimers (h : shedListLaw p) (f : PortTimers → PortTimers) : shedListLaw (setTimers n f p) :=
  h.updPort (fun _ => ⟨rfl, rfl⟩)

theorem shedListLaw.setGrant (h : shedListLaw p) (g : Nat) : shedListLaw (setGrant n g p) := by
  unfold Machine.setGrant
  split
  · exact h
  · exact (h.updPort (n := n) (f := fun r => { r with grant := g }) (fun _ => ⟨rfl, rfl⟩)).of_ports
      (reportDevice_ports _ _) (reportDevice_bu _ _)

theorem shedListLaw.refreshAsk (h : shedListLaw p) : shedListLaw (Machine.updPort n PortRecord.refreshAsk p) := by
  refine h.updPort (fun r => ?_)
  obtain ⟨b, e⟩ := refreshAsk_eq r
  rw [e]
  exact ⟨rfl, rfl⟩

/-- The law but for one port: it may be on the list with its order taken. -/
def shedsElsewhere (n : Port) (p : Part) : Prop :=
  p.bu.shedList.Nodup ∧ ∀ m ∈ p.bu.shedList, (p.port m).state.closed = true ∧
    (n ≠ m → m ∈ p.bu.orders ∨ ((p.port m).state = .drain ∧ (p.port m).drainReason = some .shed))

theorem shedListLaw.elsewhere (h : shedListLaw p) (n : Port) : shedsElsewhere n p :=
  ⟨h.1, fun m hm => ⟨(h.2 m hm).1, fun _ => (h.2 m hm).2⟩⟩

/-- A port that opens its switch leaves the list (R46). -/
theorem shedsElsewhere.moveOpen (h : shedsElsewhere n p) {st : PortState} (o : st.closed = false) : shedListLaw (moveTo n st p) := by
  have bu := moveTo_bu n st p
  have list : ∀ m, m ∈ (moveTo n st p).bu.shedList → m ∈ p.bu.shedList ∧ n ≠ m := by
    rw [bu]
    dsimp only
    rw [o]
    intro m hm
    split at hm
    · obtain ⟨hm, ne⟩ := List.mem_filter.1 hm
      exact ⟨hm, fun e => by rw [e, bne_self_eq_false] at ne; cases ne⟩
    · next c => exact ⟨hm, fun e => by simp [e, (h.2 m hm).1] at c⟩
  refine ⟨?_, fun m hm => ?_⟩
  · rw [bu]
    dsimp only
    split
    · exact h.1.filter _
    · exact h.1
  · obtain ⟨hm, ne⟩ := list m hm
    rw [moveTo_port_ne ne, bu]
    exact ⟨(h.2 m hm).1, (h.2 m hm).2 ne⟩

theorem shedListLaw.moveOpen (h : shedListLaw p) (n : Port) {st : PortState} (o : st.closed = false) : shedListLaw (moveTo n st p) :=
  (h.elsewhere n).moveOpen o

/-- A port that drains with reason SHED needs no order (R46, R60). -/
theorem shedsElsewhere.moveDrain (h : shedsElsewhere n p) (held : (p.port n).drainReason = some .shed) :
    shedListLaw (moveTo n .drain p) := by
  have bu := moveTo_bu n .drain p
  rw [show PortState.drain.closed = true from rfl, Bool.not_true, Bool.and_false] at bu
  refine ⟨by rw [bu]; exact h.1, fun m hm => ?_⟩
  rw [bu] at hm ⊢
  by_cases e : n = m
  · subst e
    have entered := moveTo_port_self n .drain p
    exact ⟨by rw [entered.state]; rfl, .inr ⟨entered.state, by rw [entered.drain, if_pos rfl]; exact held⟩⟩
  · rw [moveTo_port_ne e]
    exact ⟨(h.2 m hm).1, (h.2 m hm).2 e⟩

/-- A port that does not drain keeps its order on the way as it takes another state with a closed switch. -/
theorem shedListLaw.moveClosed (h : shedListLaw p) {st : PortState} (c : st.closed = true) (s : (p.port n).state ≠ .drain) :
    shedListLaw (moveTo n st p) := by
  have bu := moveTo_bu n st p
  rw [c, Bool.not_true, Bool.and_false] at bu
  refine ⟨by rw [bu]; exact h.1, fun m hm => ?_⟩
  rw [bu] at hm ⊢
  obtain ⟨closed, due⟩ := h.2 m hm
  by_cases e : n = m
  · subst e
    rw [moveTo_state]
    exact ⟨c, .inl (due.resolve_right fun d => s d.1)⟩
  · rw [moveTo_port_ne e]
    exact ⟨closed, due⟩

theorem shedListLaw.laneFollow (h : shedListLaw p) : shedListLaw (laneFollow n p) := by
  refine h.congr (by rw [laneFollow_bu]) (by rw [laneFollow_bu]) (fun m => ?_) (fun m _ => ?_)
  · rw [laneFollow_record n m p]
  · rw [laneFollow_record n m p]; rfl

theorem shedListLaw.joinQueue (h : shedListLaw p) (kind : EntryKind) : shedListLaw (joinQueue n kind p) := by
  obtain ⟨r, rfl | rfl, e⟩ := joinQueue_eq n kind p <;> rw [e]
  · exact h.mapBu (fun _ => by exact ⟨rfl, rfl⟩)
  · exact h.refreshAsk.mapBu (fun _ => by exact ⟨rfl, rfl⟩)

/-! ### Ports sent on, and drains -/

theorem shedsElsewhere.toQueued (h : shedsElsewhere n p) : shedListLaw (toQueued n p) := by
  unfold Machine.toQueued
  split
  · exact h.moveOpen rfl
  split
  · exact h.moveOpen rfl
  · exact (h.moveOpen rfl).joinQueue _

theorem shedListLaw.toQueued (h : shedListLaw p) : shedListLaw (toQueued n p) := (h.elsewhere n).toQueued

theorem shedListLaw.toRestartWait (h : shedListLaw p) : shedListLaw (toRestartWait n p) := by
  unfold Machine.toRestartWait
  split
  · exact h.moveOpen n rfl
  · exact (h.moveOpen n rfl).setTimers _

theorem shedListLaw.toParked (h : shedListLaw p) : shedListLaw (toParked n p) := by
  unfold Machine.toParked
  split <;> exact h.moveOpen n rfl

theorem shedListLaw.endDrain (h : shedListLaw p) : shedListLaw (endDrain n p) := by
  unfold Machine.endDrain
  split
  · exact h
  next d _ =>
    refine shedListLaw.handOver ?_
    split
    · exact h.toQueued
    · exact h.toRestartWait
    · exact h.toParked
    · dsimp only
      split
      · exact (h.moveOpen n rfl).setFlags _
      · exact h.moveOpen n rfl

theorem shedListLaw.enterGrace (h : shedListLaw p) : shedListLaw (enterGrace n p) := by
  unfold Machine.enterGrace
  split
  · exact h
  next d held =>
    have grace : shedListLaw (Machine.updPort n (fun r => { r with
        drain := some { d with phase := .grace }, timers := { r.timers with grace := some d.graceMs } }) p) := by
      refine h.congr (by rw [updPort_bu]) (by rw [updPort_bu]) (fun m => ?_) (fun m _ => ?_) <;> by_cases e : n = m
      · rw [← e, updPort_port_self]
      · rw [updPort_port_ne e]
      · rw [← e, updPort_port_self, PortRecord.drainReason, PortRecord.drainReason, held]; rfl
      · rw [updPort_port_ne e]
    dsimp only
    split <;> split
    · exact (grace.updLane _).endDrain
    · exact grace.endDrain
    · exact grace.updLane _
    · exact grace

/-- A drain begins at a port that does not drain: its order, if it is on the list, is still on the way. -/
theorem shedListLaw.startDrain (h : shedListLaw p) (s : (p.port n).state ≠ .drain) (r : DrainReason) :
    shedListLaw (startDrain n r p) := by
  have held : shedListLaw (Machine.updPort n (fun x => { x with drain := some (newDrain r (p.port n).plan) }) p) := by
    refine h.congr (by rw [updPort_bu]) (by rw [updPort_bu]) (fun m => ?_) (fun m d => ?_) <;> by_cases e : n = m
    · rw [← e, updPort_port_self]
    · rw [updPort_port_ne e]
    · exact absurd (e ▸ d) s
    · rw [updPort_port_ne e]
  have moved : shedListLaw (moveTo n .drain (Machine.updPort n (fun x => { x with drain := some (newDrain r (p.port n).plan) }) p)) :=
    held.moveClosed rfl (by rw [updPort_port_self]; exact s)
  unfold Machine.startDrain
  dsimp only
  split
  · exact moved.enterGrace
  · exact moved

/-! ### Plans -/

theorem shedListLaw.cueToLane (h : shedListLaw p) (v : Word) : shedListLaw (cueToLane n v p) := by
  unfold Machine.cueToLane
  split
  · exact h
  · exact h.updLane _

theorem shedListLaw.mapPtp (h : shedListLaw p) (f : PassThrough → PassThrough) : shedListLaw (p.mapPtp f) := h.of_ports rfl rfl

theorem shedListLaw.replacePlan (h : shedListLaw p) (plan : Plan) : shedListLaw (replacePlan n plan p) := by
  unfold Machine.replacePlan
  dsimp only
  refine shedListLaw.laneFollow (shedListLaw.mapPtp ?_ _)
  split
  · exact shedListLaw.refreshAsk (shedListLaw.mapBu (h.updPort (fun _ => by exact ⟨rfl, rfl⟩)) (fun _ => by exact ⟨rfl, rfl⟩))
  · exact shedListLaw.mapBu (h.updPort (fun _ => by exact ⟨rfl, rfl⟩)) (fun _ => by exact ⟨rfl, rfl⟩)

theorem shedListLaw.storePlan (h : shedListLaw p) (plan : Plan) : shedListLaw (storePlan n plan p) := (h.replacePlan plan).handOver

theorem shedListLaw.withdraw (h : shedListLaw p) (s : (p.port n).state ≠ .drain) (plan : Plan) : shedListLaw (withdraw n plan p) :=
  (h.startDrain s _).storePlan plan

theorem shedListLaw.renumber (h : shedListLaw p) : shedListLaw (renumber p) := by
  have stamps (l : List Port) : ∀ (k : Nat) (r : Part), shedListLaw r → shedListLaw (stampFrom k l r) := by
    induction l with
    | nil => exact fun _ _ g => g
    | cons m rest ih => exact fun _ _ g => ih _ _ (g.updPort (fun _ => by exact ⟨rfl, rfl⟩))
  exact (stamps _ _ _ h).mapBu (fun _ => by exact ⟨rfl, rfl⟩)

theorem shedListLaw.giveStamp (h : shedListLaw p) (n : Port) : shedListLaw (giveStamp n p) := by
  unfold Machine.giveStamp
  dsimp only
  refine shedListLaw.updPort (shedListLaw.mapBu ?_ (fun _ => by exact ⟨rfl, rfl⟩)) (fun _ => by exact ⟨rfl, rfl⟩)
  split
  · exact h.renumber
  · exact h

/-! ### Entry to ON -/

theorem shedListLaw.applyInOn (h : shedListLaw p) (s : (p.port n).state ≠ .drain) (plan : Plan) : shedListLaw (applyInOn n plan p) := by
  unfold Machine.applyInOn
  dsimp only
  split
  · exact (h.withdraw s plan).complete _ _
  split
  · exact h.complete _ _
  split
  · exact h.complete _ _
  split
  · split
    · exact (((h.setGrant _).giveStamp n).storePlan plan).complete _ _
    · exact h.complete _ _
  · exact ((h.setGrant _).storePlan plan).complete _ _

theorem shedListLaw.takeDeferred (h : shedListLaw p) : shedListLaw (takeDeferred n p) := h.updPort (fun _ => ⟨rfl, rfl⟩)

theorem shedListLaw.openLane (h : shedListLaw p) : shedListLaw (openLane n p) := by
  unfold Machine.openLane
  split
  · unfold handPendingCue
    split
    · exact h.updLane _
    · exact ((h.updLane _).cueToLane _).updPort (fun _ => ⟨rfl, rfl⟩)
  · exact h

theorem shedListLaw.enterOn (h : shedListLaw p) (s : (p.port n).state ≠ .drain) : shedListLaw (enterOn n p) := by
  have opened : shedListLaw (Machine.openLane n (startOnTime n (moveTo n .on p))) :=
    ((h.moveClosed rfl s).updPort (n := n) (f := fun r => { r with onTime := 0, timers := { r.timers with onTime := true } })
      (fun _ => ⟨rfl, rfl⟩)).openLane
  unfold Machine.enterOn applyEntering
  split
  · exact opened
  · refine opened.takeDeferred.applyInOn ?_ _
    rw [takeDeferred_state, openLane_state, startOnTime_state, moveTo_state]
    decide

theorem shedListLaw.standbyOn (h : shedListLaw p) (s : (p.port n).state ≠ .drain) : shedListLaw (standbyOn n p) := by
  unfold Machine.standbyOn
  split
  · exact h.setFlags _
  · exact h.startDrain s _

theorem shedListLaw.admitOrphan (h : shedListLaw p) (s : (p.port n).state ≠ .drain) : shedListLaw (admitOrphan n p) := by
  unfold Machine.admitOrphan
  dsimp only
  split
  · next on =>
    simp only [Bool.and_eq_true, beq_iff_eq] at on
    exact (h.enterOn s).standbyOn (by rw [on.2]; decide)
  · exact h.enterOn s

theorem shedListLaw.testAdmission (h : shedListLaw p) (s : (p.port n).state ≠ .drain) : shedListLaw (testAdmission n p) := by
  unfold Machine.testAdmission
  split
  · exact h.enterOn s
  · exact h.setFlags _

/-! ### Requests by state -/

theorem shedListLaw.applyWaiting (h : shedListLaw p) (s : (p.port n).state = .settle) (plan : Plan) :
    shedListLaw (applyWaiting n plan p) := by
  have off {x : PortState} (e : x = (p.port n).state) : x ≠ .drain := by rw [e, s]; decide
  unfold Machine.applyWaiting
  dsimp only
  split
  · exact ((h.storePlan plan).moveOpen n rfl).complete _ _
  split
  · split
    · refine shedListLaw.testAdmission ((((h.setGrant _).giveStamp n).storePlan plan).complete _ _) (off ?_)
      rw [complete_port, storePlan_state, (giveStamp_stays n n _).1, (setGrant_stays n _ _).1]
    · exact h.complete _ _
  · refine shedListLaw.testAdmission (((h.setGrant _).storePlan plan).complete _ _) (off ?_)
    rw [complete_port, storePlan_state, (setGrant_stays n _ _).1]

/-- A new destination leaves the reason of a drain. -/
theorem drainReason_map {r : PortRecord} {f : Drain → Drain} (k : ∀ d, (f d).reason = d.reason) :
    PortRecord.drainReason { r with drain := r.drain.map f } = r.drainReason := by
  unfold PortRecord.drainReason
  rw [Option.map_map]
  exact congrArg (fun g => r.drain.map g) (funext k)

theorem shedListLaw.retarget (h : shedListLaw p) : shedListLaw (retarget n p) :=
  h.updPort (fun _ => ⟨rfl, drainReason_map (fun _ => rfl)⟩)

theorem shedListLaw.adoptStored (h : shedListLaw p) (plan : Plan) : shedListLaw (adoptStored n plan p) := by
  have granted : shedListLaw (adoptGrant n plan p) := by
    unfold adoptGrant
    split
    · split
      · exact (h.setGrant _).giveStamp n
      · exact h.setFlags _
    · exact h.setGrant _
  exact ((granted.storePlan plan).updPort (n := n) (f := fun r => { r with adopted := true }) (fun _ => ⟨rfl, rfl⟩)).complete _ _

theorem shedListLaw.adopt (h : shedListLaw p) (s : (p.port n).state = .orphan) (plan : Plan) : shedListLaw (adopt n plan p) := by
  have stored := h.adoptStored (n := n) plan
  rw [adopt_eq]
  split
  · exact (h.withdraw (by rw [s]; decide) plan).complete _ _
  split
  · exact h.complete _ _
  split
  · exact h.complete _ _
  split
  · exact h.complete _ _
  split
  · exact stored.admitOrphan (by rw [adoptStored_state, s]; decide)
  · exact stored

theorem shedListLaw.applyByState (h : shedListLaw p) (plan : Plan) : shedListLaw (applyByState n plan p) := by
  have kept := h.storePlan (n := n) plan
  unfold Machine.applyByState
  dsimp only
  split
  case h_1 | h_2 => exact kept.complete _ _
  case h_3 | h_4 => split <;> [exact (kept.moveOpen n rfl).complete _ _; exact kept.complete _ _]
  case h_5 => exact kept.retarget.complete _ _
  case h_6 => split <;> [exact kept.complete _ _; exact (kept.setFlags _).toQueued.complete _ _]
  case h_7 => split <;> [exact (kept.moveOpen n rfl).complete _ _; exact kept.complete _ _]
  case h_8 =>
    refine shedListLaw.complete ?_ _ _
    split
    · exact kept.moveOpen n rfl
    split
    · exact kept.toQueued
    · exact kept
  case h_9 => exact h.updPort (fun _ => ⟨rfl, rfl⟩)
  case h_10 s =>
    split
    · exact h.applyWaiting s plan
    · exact h.updPort (fun _ => ⟨rfl, rfl⟩)
  case h_11 s => exact h.applyInOn (by rw [s]; decide) plan
  case h_12 s => exact h.adopt s plan

theorem shedListLaw.applyDeferred (h : shedListLaw p) : shedListLaw (applyDeferred n p) := by
  unfold Machine.applyDeferred
  split
  · exact h
  · exact h.takeDeferred.applyByState _

theorem shedListLaw.deliverApply (h : shedListLaw p) (plan : Option Plan) : shedListLaw (deliverApply n plan p) := by
  unfold Machine.deliverApply
  split
  · exact h.complete _ _
  split
  · exact h.complete _ _
  split
  · exact h.complete _ _
  · exact h.applyByState _

theorem shedListLaw.clearFault (h : shedListLaw p) : shedListLaw (clearFault n p) := by
  have cleared := h.updPort (n := n) (f := fun r => { r with cause := none, restartCount := 0 }) (fun _ => ⟨rfl, rfl⟩)
  unfold Machine.clearFault
  dsimp only
  split
  · exact cleared.moveOpen n rfl
  · exact cleared.toQueued

theorem shedListLaw.clearRequest (h : shedListLaw p) : shedListLaw (clearRequest n p) := by
  refine shedListLaw.complete ?_ _ _
  split
  · exact h.clearFault
  · exact h

theorem shedListLaw.restartRequest (h : shedListLaw p) : shedListLaw (restartRequest n p) := by
  unfold Machine.restartRequest
  split
  next s => exact (h.startDrain (by rw [s]; decide) _).complete _ _
  · exact h.clearFault.complete _ _
  · exact h.complete _ _

/-! ### Failures, frames and orders -/

theorem shedListLaw.failPort (h : shedListLaw p) (cause : FaultCause) : shedListLaw (failPort n cause p) := by
  have recorded : shedListLaw (Machine.updPort n (recordFailure cause) p) := h.updPort (fun _ => ⟨rfl, rfl⟩)
  unfold Machine.failPort
  dsimp only
  split
  · exact h
  split
  · exact recorded.endDrain
  split
  · have counted := recorded.updPort (n := n) (f := fun r => { r with restartCount := r.restartCount + 1 }) (fun _ => ⟨rfl, rfl⟩)
    exact counted.toRestartWait.applyDeferred
  · exact (recorded.moveOpen n rfl).applyDeferred

theorem shedListLaw.laneLost (h : shedListLaw p) : shedListLaw (laneLost n p) := by
  unfold Machine.laneLost
  split
  · exact h.endDrain
  · exact h.failPort _

theorem shedListLaw.askFull (h : shedListLaw p) : shedListLaw (askFull n p) := by
  unfold Machine.askFull
  split
  · exact h.mapBu (fun _ => by exact ⟨rfl, rfl⟩)
  · exact h.joinQueue _

/-- A new identity, with ASK as it then is. -/
theorem shedListLaw.identify (h : shedListLaw p) {f : PortRecord → PortRecord}
    (k : ∀ r, (f r).state = r.state ∧ (f r).drain = r.drain) : shedListLaw (Machine.updPort n (fun r => (f r).refreshAsk) p) := by
  refine h.updPort (fun r => ?_)
  obtain ⟨b, e⟩ := refreshAsk_eq (f r)
  rw [e]
  exact ⟨(k r).1, congrArg (Option.map Drain.reason) (k r).2⟩

theorem shedListLaw.helloTaken (h : shedListLaw p) (i : Identity) : shedListLaw (helloTaken n i p) := by
  have identified := h.identify (n := n) (f := fun r => { r with identity := some i, timers := { r.timers with hello := none } })
    (fun _ => ⟨rfl, rfl⟩)
  unfold Machine.helloTaken
  dsimp only
  split
  · exact h
  · exact (identified.reportPort _).askFull

theorem shedListLaw.leaveTaken (h : shedListLaw p) : shedListLaw (leaveTaken n p) := by
  have left := ((h.moveOpen n (st := .off) rfl).setFlags (n := n) (fun f => { f with left := true })).applyDeferred (n := n)
  unfold Machine.leaveTaken
  split
  case h_1 s | h_2 s => exact h.startDrain (by rw [s]; decide) _
  case h_3 | h_4 | h_5 => exact left
  case h_6 => exact h

theorem shedListLaw.noOutstanding (h : shedListLaw p) : shedListLaw (noOutstanding n p) := by
  unfold Machine.noOutstanding
  split
  case h_1 =>
    split
    · split
      · exact h.enterGrace
      · exact h
    · exact h
  case h_2 s =>
    split
    · exact h.admitOrphan (by rw [s]; decide)
    · exact h
  case h_3 =>
    split
    · exact h.updLane _
    · exact h
  case h_4 => exact h

theorem shedListLaw.takeHello (h : shedListLaw p) (i : Identity) : shedListLaw (takeHello n i p) := by
  have reopened : shedListLaw (Machine.reportPort n true (Machine.updPort n (PortRecord.rehello i) (p.setLane n (p.lane n).reopened))) :=
    shedListLaw.reportPort ((h.of_ports (q := p.setLane n (p.lane n).reopened) rfl rfl).identify
      (f := fun r => { r with identity := some i, flags := { r.flags with rehello := true } }) (fun _ => ⟨rfl, rfl⟩)) true
  unfold Machine.takeHello
  split
  · exact h.helloTaken i
  split
  · unfold reopenLane
    dsimp only
    split <;> exact reopened.updLane _
  · exact h.updPort (fun _ => ⟨rfl, rfl⟩)

theorem shedListLaw.freeTag (h : shedListLaw p) (tag : Fin 4) : shedListLaw (freeTag n tag p) := by
  unfold Machine.freeTag
  dsimp only
  split
  · exact (h.updLane _).noOutstanding
  · exact h.updLane _

theorem shedListLaw.answerSent (h : shedListLaw p) (a : Answer) : shedListLaw (answerSent n a p) := by
  unfold Machine.answerSent
  split
  · exact (h.freeTag _).updLane _
  · exact h.updLane _

theorem shedListLaw.accessDone (h : shedListLaw p) (a : Answer) : shedListLaw (accessDone n a p) := by
  unfold Machine.accessDone
  split
  · exact h.freeTag _
  · exact h.updLane _
  · exact h
  · exact h

theorem shedListLaw.silenceExpired (h : shedListLaw p) : shedListLaw (silenceExpired n p) := (h.updLane _).laneLost

/-- A drain with reason SHED begins at a port whose order has been taken. -/
theorem shedsElsewhere.startShed (h : shedsElsewhere n p) (c : (p.port n).state.closed = true) : shedListLaw (startDrain n .shed p) := by
  have held : shedsElsewhere n (Machine.updPort n (fun x => { x with drain := some (newDrain .shed (p.port n).plan) }) p) := by
    refine ⟨by rw [updPort_bu]; exact h.1, fun m hm => ?_⟩
    rw [updPort_bu] at hm ⊢
    by_cases e : n = m
    · exact ⟨by rw [← e, updPort_port_self]; exact c, fun ne => absurd e ne⟩
    · rw [updPort_port_ne e]
      exact h.2 m hm
  have moved := held.moveDrain (by rw [updPort_port_self]; rfl)
  unfold Machine.startDrain
  dsimp only
  split
  · exact moved.enterGrace
  · exact moved

theorem shedsElsewhere.shedTaken (h : shedsElsewhere n p) : shedListLaw (shedTaken n p) := by
  unfold Machine.shedTaken
  split
  case h_1 | h_2 | h_3 => exact h.toQueued.applyDeferred
  case h_4 s | h_5 s => exact h.startShed (by rw [s]; rfl)
  case h_6 =>
    refine ⟨h.1.filter _, fun m hm => ?_⟩
    obtain ⟨hm, ne⟩ := List.mem_filter.1 hm
    exact ⟨(h.2 m hm).1, (h.2 m hm).2 (fun e => by rw [e, bne_self_eq_false] at ne; cases ne)⟩

/-- An order taken leaves the way: its port leaves the list, or drains with reason SHED (R26, R46, R60). -/
theorem shedListLaw.orderTaken (h : shedListLaw p) : shedListLaw (orderTaken n p) :=
  shedsElsewhere.shedTaken (p := p.mapBu (fun b => { b with orders := b.orders.erase n }))
    ⟨h.1, fun m hm => ⟨(h.2 m hm).1, fun ne => (h.2 m hm).2.imp_left (List.mem_erase_of_ne (Ne.symm ne)).2⟩⟩

end
end Sys2Proof.Machine
end

