-- ==== Sys2Proof/Proofs/ShedList.lean ====
section
/-! The law of the shed list (R46, R60) through the work of the budget unit, and through presence, timers, samples, standby and resets. -/

namespace Sys2Proof.Machine
section
variable {p q : Part} {n : Port}

/-! ### The budget unit -/

theorem nodup_shedCandidates (p : Part) (keep : Port → Bool) : (shedCandidates p keep).Nodup :=
  (sortBy_perm _ _).nodup_iff.2 ((by decide : allPorts.Nodup).filter _)

theorem unlisted_of_mem_shedCandidates {keep : Port → Bool} (h : n ∈ shedCandidates p keep) : n ∉ p.bu.shedList := by
  simp only [shedCandidates, mem_sortBy, List.mem_filter, shedCandidate, Bool.and_eq_true, Bool.not_eq_true',
    List.contains_eq_mem, decide_eq_false_iff_not] at h
  exact h.2.1.2

/-- An order sent puts its port on the list (R46, R60). -/
theorem shedListLaw.order (h : shedListLaw p) (closed : (p.port n).state.closed = true) (fresh : n ∉ p.bu.shedList) :
    shedListLaw (sendShedOrder n p) := by
  refine ⟨List.Nodup.append h.1 (List.nodup_singleton n) (by simpa using fresh), fun m hm => ?_⟩
  obtain hm | hm := List.mem_append.1 hm
  · exact ⟨(h.2 m hm).1, (h.2 m hm).2.imp_left (List.mem_append_left _)⟩
  · rw [List.mem_singleton.1 hm]
    exact ⟨closed, .inl (List.mem_append_right _ (List.mem_singleton_self n))⟩

theorem shedListLaw.shedUntil (h : shedListLaw p) (need : Nat) {l : List Port} (nodup : l.Nodup)
    (fresh : ∀ m ∈ l, (p.port m).state.closed = true ∧ m ∉ p.bu.shedList) : shedListLaw (shedUntil need l p) := by
  induction l generalizing p with
  | nil => exact h
  | cons m rest ih =>
    obtain ⟨apart, nodup⟩ := List.nodup_cons.1 nodup
    obtain ⟨closed, unlisted⟩ := fresh m List.mem_cons_self
    unfold Machine.shedUntil
    split
    · exact h
    · refine ih (h.order closed unlisted) nodup (fun k hk => ?_)
      obtain ⟨closed, unlisted⟩ := fresh k (List.mem_cons_of_mem _ hk)
      refine ⟨closed, fun listed => ?_⟩
      obtain listed | listed := List.mem_append.1 listed
      · exact unlisted listed
      · exact apart (List.mem_singleton.1 listed ▸ hk)

theorem shedListLaw.shedCandidates (h : shedListLaw p) (need : Nat) (keep : Port → Bool) :
    shedListLaw (Machine.shedUntil need (shedCandidates p keep) p) :=
  h.shedUntil need (nodup_shedCandidates p keep) (fun _ k => ⟨closed_of_mem_shedCandidates k, unlisted_of_mem_shedCandidates k⟩)

theorem shedListLaw.dropEntry (h : shedListLaw p) : shedListLaw (dropEntry n p) := by
  unfold Machine.dropEntry
  split
  · exact shedListLaw.setFlags (h.mapBu (fun _ => by exact ⟨rfl, rfl⟩)) _
  · exact h

theorem dropEntry_state (n m : Port) (p : Part) : ((dropEntry n p).port m).state = (p.port m).state := by
  by_cases e : n = m
  · obtain ⟨f, hf, -⟩ := dropEntry_port_self n p
    rw [← e, hf]
  · rw [dropEntry_port_ne e]

theorem shedListLaw.clearCounts (h : shedListLaw p) : shedListLaw (clearCounts n p) := h.of_ports rfl rfl

theorem shedListLaw.grant (h : shedListLaw p) {e : Entry} (s : (p.port e.port).state ≠ .drain) : shedListLaw (grant e p) := by
  have stamped : shedListLaw (Machine.giveStamp e.port (Machine.dropEntry e.port p)) := h.dropEntry.giveStamp _
  have off : ((Machine.giveStamp e.port (Machine.dropEntry e.port p)).port e.port).state ≠ .drain := by
    rw [(giveStamp_stays _ _ _).1, dropEntry_state]; exact s
  unfold Machine.grant grantPort
  split
  · exact ((stamped.moveClosed rfl off).setGrant _).setTimers _
  · exact (((stamped.moveClosed rfl off).setGrant _).setTimers _).clearCounts

/-- A granted port starts up. -/
theorem grant_starts (e : Entry) (p : Part) : ((grant e p).port e.port).state ≠ .drain := by
  have own := (grant_own p (n := e.port) rfl).1
  unfold Granted at own
  cases k : e.kind <;> simp only [k] at own <;> rw [own.1] <;> decide

theorem shedListLaw.preempt (h : shedListLaw p) (e : Entry) : shedListLaw (preempt e p) := by
  unfold Machine.preempt
  dsimp only
  split
  · exact h
  split
  · exact h.shedCandidates _ _
  · exact h.setFlags _

theorem shedListLaw.walk (h : shedListLaw p) {l : List Entry} (s : ∀ e ∈ l, (p.port e.port).state ≠ .drain) :
    shedListLaw (walk l p) := by
  induction l generalizing p with
  | nil => exact h
  | cons e rest ih =>
    have there := s e List.mem_cons_self
    have left : ∀ x ∈ rest, (p.port x.port).state ≠ .drain := fun x hx => s x (List.mem_cons_of_mem _ hx)
    unfold Machine.walk
    split
    · exact ih h left
    split
    · refine ih (h.grant there) (fun x hx => ?_)
      by_cases same : e.port = x.port
      · exact same ▸ grant_starts e p
      · rw [port_of_aside (grant_aside same p)]
        exact left x hx
    split
    · exact h.preempt e
    · exact h

theorem shedListLaw.markCoverage (h : shedListLaw p) (l : List Entry) : shedListLaw (markCoverage l p) := by
  induction l generalizing p with
  | nil => exact h
  | cons e rest ih => exact ih (h.setFlags _)

theorem shedListLaw.grantDecision (h : shedListLaw p) (s : ∀ e ∈ p.bu.queue, (p.port e.port).state ≠ .drain) :
    shedListLaw (grantDecision p) := by
  have marked := h.markCoverage (queueOrder p.bu.queue)
  unfold Machine.grantDecision
  dsimp only
  split
  · exact marked
  · refine marked.walk (fun e he => ?_)
    rw [mem_queueOrder, markCoverage_bu] at he
    obtain ⟨f, hf⟩ := markCoverage_port (queueOrder p.bu.queue) p e.port
    rw [hf]
    exact s e he

theorem shedListLaw.reportDevice (h : shedListLaw p) (m : Bool) : shedListLaw (reportDevice m p) :=
  h.of_ports (reportDevice_ports m p) (reportDevice_bu m p)

theorem shedListLaw.budgetTest (h : shedListLaw p) : shedListLaw (budgetTest p) := by
  unfold Machine.budgetTest
  split
  · exact h
  · exact shedListLaw.reportDevice (h.mapBu (fun _ => by exact ⟨rfl, rfl⟩)) true

theorem shedListLaw.shortfallTest (h : shedListLaw p) : shedListLaw (shortfallTest p) := by
  unfold Machine.shortfallTest
  split
  · exact h
  · exact shedListLaw.reportDevice (h.mapBu (fun _ => by exact ⟨rfl, rfl⟩)) true

theorem shedListLaw.beforeDecision (h : shedListLaw p) : shedListLaw (beforeDecision p) := by
  unfold Machine.beforeDecision
  split
  · exact h.budgetTest.shedCandidates _ _
  · exact h.budgetTest

/-- No port that waits in the queue drains (R50). -/
theorem queued_off_drain (h : queueLaw p) : ∀ e ∈ p.bu.queue, (p.port e.port).state ≠ .drain := by
  obtain ⟨-, fit, -⟩ := h
  intro e he d
  obtain s | ⟨s, -⟩ := fit e he <;> rw [d] at s <;> cases s

/-- The work of the budget unit after an event keeps the law. -/
theorem shedListLaw.budgetAfter (h : shedListLaw p) (q : queueLaw p) (b : Bool) : shedListLaw (budgetAfter b p) := by
  have before := h.beforeDecision
  have ports := (beforeDecision_keeps p).2.2
  obtain e | e := budgetAfter_eq b p <;> rw [e]
  · exact before.shortfallTest
  · refine (before.grantDecision (fun x hx => ?_)).shortfallTest
    rw [ports]
    exact queued_off_drain q x (beforeDecision_queue p ▸ hx)

/-! ### Ports by themselves -/

theorem shedListLaw.arrived (h : shedListLaw p) : shedListLaw (arrived n p) := by
  unfold Machine.arrived
  split
  · exact h.moveOpen n rfl
  · exact (h.setFlags _).toQueued

theorem unplug_state (r : PortRecord) : r.unplug.state = r.state := rfl

theorem shedListLaw.unplugPort (h : shedListLaw p) : shedListLaw (unplugPort n p) := by
  have unplugged : shedListLaw (Machine.handOver n (Machine.updPort n PortRecord.unplug (moveTo n .empty p))) := by
    refine shedListLaw.handOver (shedListLaw.congr (h.moveOpen n (st := .empty) rfl) (by rw [updPort_bu]) (by rw [updPort_bu])
      (fun m => ?_) (fun m s => ?_)) <;> by_cases e : n = m
    · rw [← e, updPort_port_self, unplug_state]
    · rw [updPort_port_ne e]
    · rw [← e, moveTo_state] at s; cases s
    · rw [updPort_port_ne e]
  unfold Machine.unplugPort storeDeferred
  split
  · exact unplugged
  · exact (unplugged.takeDeferred.storePlan _).complete _ _

theorem shedListLaw.noHello (h : shedListLaw p) : shedListLaw (noHello n p) := (h.moveOpen n rfl).updPort (fun _ => ⟨rfl, rfl⟩)

theorem shedListLaw.restartExpired (h : shedListLaw p) : shedListLaw (restartExpired n p) := by
  unfold Machine.restartExpired
  split
  · exact h.moveOpen n rfl
  · exact h.toQueued

theorem shedListLaw.settleExpired (h : shedListLaw p) (s : (p.port n).state = .settle) : shedListLaw (settleExpired n p) := by
  have tested := shedListLaw.testAdmission (n := n) (h.setTimers (n := n) (fun t => { t with settle := none }))
    (by rw [Machine.setTimers, updPort_port_self]; exact fun d => by rw [s] at d; cases d)
  unfold Machine.settleExpired
  dsimp only
  split
  · exact tested.applyDeferred
  · exact tested

theorem shedListLaw.retest (h : shedListLaw p) : shedListLaw (retest n p) := by
  unfold Machine.retest
  split
  next s => exact h.testAdmission (by rw [s.1]; decide)
  · exact h

theorem shedListLaw.mapMs (h : shedListLaw p) (f : Sequencer → Sequencer) : shedListLaw (p.mapMs f) := h.of_ports rfl rfl

theorem shedListLaw.mapAe (h : shedListLaw p) (f : AreaEngine → AreaEngine) : shedListLaw (p.mapAe f) := h.of_ports rfl rfl

theorem shedListLaw.keepResult (h : shedListLaw p) (r : Int) : shedListLaw (keepResult r p) := by
  unfold Machine.keepResult
  split
  · exact h
  · exact h.mapMs _

theorem shedListLaw.judgeSample (h : shedListLaw p) (sample : Nat) : shedListLaw (judgeSample n sample p) := by
  unfold Machine.judgeSample
  split
  · unfold rampTest
    split
    · exact h.mapMs _
    split
    · unfold rampDone
      split
      next s => exact ((h.mapMs _).moveClosed rfl (by rw [s]; decide)).setTimers _
      · exact h.mapMs _
    · exact h.mapMs _
  split
  · unfold overTest
    dsimp only
    split
    · exact (h.mapMs _).failPort _
    · exact h.mapMs _
  · exact h

theorem shedListLaw.portSample (h : shedListLaw p) (reading : Nat) : shedListLaw (portSample n reading p) := by
  have kept := h.keepResult (corrected p reading : Int)
  unfold Machine.portSample
  dsimp only
  split
  · exact kept
  · exact ((kept.mapAe _).reportPort false).judgeSample _

theorem shedListLaw.parkStarting (h : shedListLaw p) : shedListLaw (parkStarting n p) := (h.moveOpen n rfl).applyDeferred

theorem shedListLaw.standbyPort (h : shedListLaw p) : shedListLaw (standbyPort n p) := by
  unfold Machine.standbyPort
  split
  case h_1 s => exact h.standbyOn (by rw [s]; decide)
  case h_2 | h_6 => exact h.moveOpen n rfl
  case h_3 | h_4 | h_5 => exact h.parkStarting
  case h_7 => exact h

theorem shedListLaw.unkeepPort (h : shedListLaw p) : shedListLaw (unkeepPort n p) :=
  h.updPort (fun r => ⟨rfl, drainReason_map (r := { r with flags := { r.flags with kept := false } })
    (fun d => by split <;> rfl)⟩)

theorem shedListLaw.unadopted (h : shedListLaw p) : shedListLaw (unadopted n p) := by
  unfold Machine.unadopted
  split
  next s => exact h.startDrain (by rw [s.1]; decide) _
  · exact h

theorem shedListLaw.ridePort (h : shedListLaw p) : shedListLaw (ridePort n p) := by
  unfold Machine.ridePort
  split
  case h_1 s => exact h.moveClosed rfl (by rw [s]; decide)
  case h_2 => exact h.updPort (fun _ => ⟨rfl, rfl⟩)
  case h_3 | h_11 | h_12 => exact h
  case h_4 | h_5 | h_6 => exact h.takeDeferred.moveOpen n rfl
  case h_7 | h_8 | h_9 | h_10 => exact h.moveOpen n rfl

theorem shedListLaw.stopIfMet (h : shedListLaw p) : shedListLaw (stopIfMet n p) := by
  unfold Machine.stopIfMet
  split
  · exact h.moveOpen n rfl
  · exact h

theorem shedListLaw.rideDefault (h : shedListLaw p) : shedListLaw (rideDefault n p) := by
  unfold Machine.rideDefault
  split
  · exact h
  · exact h
  · exact (h.replacePlan _).retarget
  · exact h.storePlan _

theorem shedListLaw.rideClean (h : shedListLaw p) : shedListLaw (rideClean n p) := by
  unfold Machine.rideClean
  split
  · exact h.updPort (fun _ => ⟨rfl, rfl⟩)
  · exact h

end
end Sys2Proof.Machine
end

