-- ==== Sys2Proof/Proofs/Carries.lean ====
section
/-! What a step carries over: the laws of the open switches, the grant queue and the shed list, the budget's laws, and the registers that
only their own commands change. -/

namespace Sys2Proof.Machine

section
variable {p q r : Part} {n : Port} {S : Port → Prop}

/-! ### The registers -/

/-- The registers that only their own commands change, in groups by those commands. -/
inductive Register where
  | devicePlan
  | shadows
  | correction
  | voltage
  | temperature
  | currents
  | standby
  | presence
  | reset

/-- A register of `q` is that of `p`. -/
def sameRegister (p q : Part) : Register → Prop
  | .devicePlan => q.bu.plan = p.bu.plan
  | .shadows => q.ptp.shadows = p.ptp.shadows
  | .correction => q.ms.offset = p.ms.offset
  | .voltage => (q.ms.voltageStep, q.ms.belowSag, q.ms.belowCritical, q.ms.recovery) =
      (p.ms.voltageStep, p.ms.belowSag, p.ms.belowCritical, p.ms.recovery)
  | .temperature => q.ms.temperatureStep = p.ms.temperatureStep
  | .currents => q.ae.lastCurrent = p.ae.lastCurrent
  | .standby => (q.mrc.standby, q.mrc.stby) = (p.mrc.standby, p.mrc.stby)
  | .presence => q.mrc.present = p.mrc.present
  | .reset => (q.mrc.straps, q.mrc.phase, q.mrc.cause, q.mrc.resetCount, q.mrc.rideThrough) =
      (p.mrc.straps, p.mrc.phase, p.mrc.cause, p.mrc.resetCount, p.mrc.rideThrough)

theorem sameRegister.refl (p : Part) (k : Register) : sameRegister p p k := by cases k <;> rfl

theorem sameRegister.trans {k : Register} (h : sameRegister p q k) (g : sameRegister q r k) : sameRegister p r k := by
  cases k <;> exact Eq.trans g h

theorem sameRegister_of_blocks (plan : q.bu.plan = p.bu.plan) (shadows : q.ptp.shadows = p.ptp.shadows) (ms : q.ms = p.ms)
    (currents : q.ae.lastCurrent = p.ae.lastCurrent) (mrc : q.mrc = p.mrc) (k : Register) : sameRegister p q k := by
  cases k <;> simp only [sameRegister, plan, shadows, ms, currents, mrc]

/-- Of the registers no operation of the ports changes more than the cue shadows. -/
theorem sameRegister_of_fixed (f : q.fixed = p.fixed) (shadows : q.ptp.shadows = p.ptp.shadows) (k : Register) :
    sameRegister p q k := by
  cases k <;> simp only [sameRegister, shadows, Part.plan_of_fixed f, Part.offset_of_fixed f, Part.voltageStep_of_fixed f,
    Part.belowSag_of_fixed f, Part.belowCritical_of_fixed f, Part.recovery_of_fixed f, Part.temperatureStep_of_fixed f,
    Part.lastCurrent_of_fixed f, Part.mrc_of_fixed f]

theorem moveTo_shadows (n : Port) (st : PortState) (p : Part) : (moveTo n st p).ptp.shadows = p.ptp.shadows := by
  have left : (switchOpened n p).ptp = p.ptp := by
    unfold switchOpened
    dsimp only
    split
    · rfl
    · rw [reportDevice_ptp]; rfl
  unfold moveTo
  dsimp only
  rw [updLane_ptp, laneFollow_ptp, updPort_ptp, dropEntry_ptp]
  split
  · rw [left]
  · rfl

theorem budgetTest_ptp (p : Part) : (budgetTest p).ptp = p.ptp := by
  unfold budgetTest
  split
  · rfl
  · rw [reportDevice_ptp, Part.mapBu_ptp]

theorem shortfallTest_ptp (p : Part) : (shortfallTest p).ptp = p.ptp := by
  unfold shortfallTest
  split
  · rfl
  · rw [reportDevice_ptp, Part.mapBu_ptp]

/-- No action at the ports changes a cue shadow. -/
theorem Acts.shadows (h : Acts S p q) : q.ptp.shadows = p.ptp.shadows := by
  induction h with
  | refl => rfl
  | move _ _ _ ih => exact (moveTo_shadows _ _ _).trans ih
  | upd _ _ _ ih => rw [updPort_ptp, ih]
  | identify _ _ _ ih => rw [reportPort_ptp, updPort_ptp, ih]
  | unplug _ _ _ ih => rw [updPort_ptp, moveTo_shadows, ih]
  | enterOn _ _ _ ih => rw [startOnTime, updPort_ptp, moveTo_shadows, ih]
  | setGrant _ _ _ _ ih => rw [setGrant_ptp, ih]
  | stamp _ _ _ ih => rw [updPort_ptp, ih]
  | setLane _ _ _ ih => exact ih
  | mapBu _ _ ih => exact ih
  | order _ _ ih => exact ih
  | handOver _ _ ih => exact ih
  | window _ _ _ ih => exact ih
  | counts _ _ ih => exact ih
  | complete _ _ _ ih => rw [complete_ptp, ih]
  | report _ _ _ ih => rw [reportPort_ptp, ih]
  | budgetTest _ ih => rw [budgetTest_ptp, ih]
  | shortfallTest _ ih => rw [shortfallTest_ptp, ih]

theorem Acts.registers (h : Acts S p q) : ∀ k, sameRegister p q k := sameRegister_of_fixed h.fixed h.shadows

/-! ### What is carried from part to part -/

/-- From `p` to `q` the laws of the open switches, the grant queue and the shed list are carried over, and every register that is not
`free`. -/
structure Carries (free : Register → Prop) (p q : Part) : Prop where
  opens : openLaw p → openLaw q
  queue : queueLaw p → queueLaw q
  sheds : queueLaw p → shedListLaw p → shedListLaw q
  registers : ∀ k, ¬free k → sameRegister p q k

/-- The budget's laws (R47, R48, R64). -/
def budgetLaws (p : Part) : Prop := budgetLaw p ∧ shedLaw p

/-- From `p` to `q` the budget's laws are carried over too. -/
structure Balances (free : Register → Prop) (p q : Part) : Prop extends Carries free p q where
  budget : openLaw p → budgetLaws p → budgetLaws q

section
variable {free other : Register → Prop}

theorem Carries.refl (p : Part) : Carries free p p := ⟨id, id, fun _ => id, fun k _ => .refl p k⟩

theorem Carries.trans (h : Carries free p q) (g : Carries free q r) : Carries free p r where
  opens o := g.opens (h.opens o)
  queue k := g.queue (h.queue k)
  sheds k s := g.sheds (h.queue k) (h.sheds k s)
  registers k f := (h.registers k f).trans (g.registers k f)

theorem Carries.mono (h : Carries free p q) (le : ∀ k, free k → other k) : Carries other p q :=
  ⟨h.opens, h.queue, h.sheds, fun k f => h.registers k (fun g => f (le k g))⟩

theorem Balances.refl (p : Part) : Balances free p p := ⟨.refl p, fun _ => id⟩

theorem Balances.trans (h : Balances free p q) (g : Balances free q r) : Balances free p r :=
  ⟨h.toCarries.trans g.toCarries, fun o b => g.budget (h.opens o) (h.budget o b)⟩

theorem Balances.mono (h : Balances free p q) (le : ∀ k, free k → other k) : Balances other p q :=
  ⟨h.toCarries.mono le, h.budget⟩

/-- What keeps every law of the port table and the grant queue keeps these two. -/
theorem Carries.of_ok (ok : ∀ {a : Asked}, partOk a p → partOk a q) (sheds : queueLaw p → shedListLaw p → shedListLaw q)
    (registers : ∀ k, ¬free k → sameRegister p q k) : Carries free p q :=
  ⟨fun o => (openLaw_iff q).2 (ok ((openLaw_iff p).1 o)), fun k => (queueLaw_iff q).2 (ok ((queueLaw_iff p).1 k)), sheds, registers⟩

theorem Carries.of_acts (h : Acts S p q) (ok : ∀ {a : Asked}, partOk a p → partOk a q) (sheds : shedListLaw p → shedListLaw q) :
    Carries free p q := .of_ok ok (fun _ => sheds) (fun k _ => h.registers k)

/-- The work of the budget unit brings the budget's laws about, whatever was before. -/
theorem Carries.budgetAfter (h : Carries free p q) (b : Bool) : Balances free p (budgetAfter b q) :=
  ⟨h.trans (.of_ok partOk_budgetAfter (fun k s => s.budgetAfter k b) (fun k _ => (acts_budgetAfter b q).registers k)),
    fun o _ => budgetAfter_laws (h.opens o)⟩

theorem Carries.event {f : Part → Part} (h : Carries free p (f p)) : Balances free p (event f p) := h.budgetAfter _

theorem Carries.foldl {f : Port → Part → Part} (k : ∀ n p, Carries free p (f n p)) (l : List Port) (p : Part) :
    Carries free p (l.foldl (fun p n => f n p) p) := by
  induction l generalizing p with
  | nil => exact .refl p
  | cons n rest ih => exact (k n p).trans (ih _)

theorem Carries.forPorts {f : Port → Part → Part} (k : ∀ n p, Carries free p (f n p)) (p : Part) : Carries free p (forPorts f p) :=
  .foldl k allPorts p

theorem Balances.forPorts {f : Port → Part → Part} (k : ∀ n p, Balances free p (f n p)) (p : Part) :
    Balances free p (Machine.forPorts f p) := by
  suffices g : ∀ (l : List Port) (p : Part), Balances free p (l.foldl (fun p n => f n p) p) from g allPorts p
  intro l
  induction l with
  | nil => exact fun p => .refl p
  | cons n rest ih => exact fun p => (k n p).trans (ih _)

/-! ### What the budget's laws do not see -/

/-- What the budget's laws and the shed list's see of the ports and the budget unit stays. -/
structure BudgetRests (p q : Part) : Prop where
  state : ∀ n, (q.port n).state = (p.port n).state
  grant : ∀ n, (q.port n).grant = (p.port n).grant
  plan : ∀ n, (p.port n).state.closed = true → (q.port n).plan = (p.port n).plan
  drain : ∀ n, (p.port n).state = .drain → (q.port n).drainReason = (p.port n).drainReason
  bu : q.bu = p.bu

theorem BudgetRests.of_same (ports : q.ports = p.ports) (bu : q.bu = p.bu) : BudgetRests p q := by
  have port (m : Port) : q.port m = p.port m := by unfold Part.port; rw [ports]
  exact ⟨fun m => by rw [port], fun m => by rw [port], fun m _ => by rw [port], fun m _ => by rw [port], bu⟩

theorem BudgetRests.updPort {f : PortRecord → PortRecord} (k : ∀ r, (f r).state = r.state ∧ (f r).grant = r.grant ∧
    (f r).plan = r.plan ∧ (f r).drain = r.drain) (n : Port) (p : Part) : BudgetRests p (updPort n f p) := by
  have record (m : Port) : (Machine.updPort n f p).port m = p.port m ∨ (Machine.updPort n f p).port m = f (p.port m) := by
    by_cases e : n = m
    · exact .inr (by rw [← e, updPort_port_self])
    · exact .inl (updPort_port_ne e _ _)
  refine ⟨fun m => ?_, fun m => ?_, fun m _ => ?_, fun m _ => ?_, updPort_bu _ _ _⟩ <;> obtain e | e := record m <;> rw [e]
  · exact (k _).1
  · exact (k _).2.1
  · exact (k _).2.2.1
  · exact congrArg (Option.map Drain.reason) (k _).2.2.2

theorem BudgetRests.openLaw (h : BudgetRests p q) (g : openLaw p) : openLaw q := fun n o => by
  rw [h.state] at o
  exact (h.grant n).trans (g n o)

theorem BudgetRests.queueLaw (h : BudgetRests p q) (g : queueLaw p) : queueLaw q := by
  unfold Machine.queueLaw
  simp only [h.bu, h.state]
  exact g

theorem BudgetRests.shedListLaw (h : BudgetRests p q) (g : shedListLaw p) : shedListLaw q :=
  g.congr (by rw [h.bu]) (by rw [h.bu]) h.state h.drain

theorem BudgetRests.budgetLaws (h : BudgetRests p q) (top : ceiling q = ceiling p) (g : budgetLaws p) : budgetLaws q := by
  have total : committed q = committed p := committed_congr (fun n => by unfold closedGrant; rw [h.state, h.grant])
  have sheds : shedding q = shedding p := shedding_congr (by rw [h.bu]) h.grant
  have candidate (n : Port) : shedCandidate q n = shedCandidate p n := by
    unfold shedCandidate
    rw [h.bu, h.state]
    cases c : (p.port n).state.closed
    · rfl
    · rw [h.plan n c]
  obtain ⟨normal, shortfall, enough⟩ := g
  refine ⟨?_, ?_, fun isOver => ?_⟩
  · unfold budgetLaw; rw [h.bu, top, total]; exact normal
  · unfold inShortfall; rw [h.bu, top, total, sheds]; exact shortfall
  · rw [top, total, sheds]
    exact (enough (by rw [← h.bu]; exact isOver)).imp_right (fun none n => (candidate n).trans (none n))

theorem Carries.of_rests (rests : BudgetRests p q) (registers : ∀ k, ¬free k → sameRegister p q k) : Carries free p q :=
  ⟨rests.openLaw, rests.queueLaw, fun _ => rests.shedListLaw, registers⟩

theorem Balances.of_rests (rests : BudgetRests p q) (top : ceiling q = ceiling p) (registers : ∀ k, ¬free k → sameRegister p q k) :
    Balances free p q := ⟨.of_rests rests registers, fun _ => rests.budgetLaws top⟩

/-- What leaves the ports and the budget unit, and the ceiling. -/
theorem Balances.of_same (ports : q.ports = p.ports) (bu : q.bu = p.bu) (top : ceiling q = ceiling p)
    (registers : ∀ k, ¬free k → sameRegister p q k) : Balances free p q :=
  .of_rests (.of_same ports bu) top registers

/-- What leaves the ports and what steers them, the cue shadows and the last currents. -/
theorem Balances.of_stay (h : PortsStay q p) (shadows : q.ptp.shadows = p.ptp.shadows) (currents : q.ae.lastCurrent = p.ae.lastCurrent) :
    Balances free p q := by
  obtain ⟨ports, bu, ms, -, mrc⟩ := h
  refine .of_same ports bu ?_ (fun k _ => sameRegister_of_blocks (by rw [bu]) shadows ms currents mrc k)
  unfold ceiling ceilingStep
  rw [ms, bu, mrc]

/-- A report to the area engine. -/
theorem Balances.of_report (h : AeOnly q p) (f : q.fixed = p.fixed) : Balances free p q :=
  .of_stay (.of_aeOnly h) (by rw [h.2.2.2.2.2.1]) (Part.lastCurrent_of_fixed f)

theorem balances_complete (w : ReqWord) (a : Result) (p : Part) : Balances free p (complete w a p) :=
  .of_report (AeOnly.complete w a p) (complete_fixed w a p)

theorem balances_reportDevice (m : Bool) (p : Part) : Balances free p (reportDevice m p) :=
  .of_report (AeOnly.reportDevice m p) (reportDevice_fixed m p)

theorem balances_reportPort (n : Port) (m : Bool) (p : Part) : Balances free p (reportPort n m p) :=
  .of_report (AeOnly.reportPort n m p) (reportPort_fixed n m p)

theorem balances_queueWriteBack (t : Target) (p : Part) : Balances free p (queueWriteBack t p) :=
  .of_report (AeOnly.queueWriteBack t p) (queueWriteBack_fixed t p)

theorem balances_setRequest (w : ReqWord) (x : Request) (p : Part) : Balances free p (p.setRequest w x) :=
  .of_report (AeOnly.setRequest w x p) (setRequest_fixed w x p)

theorem balances_mapAe {f : AreaEngine → AreaEngine} (p : Part) (currents : (f p.ae).lastCurrent = p.ae.lastCurrent) :
    Balances free p (p.mapAe f) := .of_stay (.refl p) rfl currents

theorem balances_mapPtp {f : PassThrough → PassThrough} (p : Part) (shadows : (f p.ptp).shadows = p.ptp.shadows) :
    Balances free p (p.mapPtp f) := .of_stay (.refl p) shadows rfl

theorem balances_mapMo (f : Orderer → Orderer) (p : Part) : Balances free p (p.mapMo f) := .of_stay (.refl p) rfl rfl

theorem balances_setSummary (m : Word) (p : Part) : Balances free p (setSummary m p) := by
  unfold setSummary
  split
  · exact .refl p
  · exact (balances_mapAe p (by rfl)).trans (balances_queueWriteBack _ _)

theorem balances_reportError (b : ErrorBit) (p : Part) : Balances free p (reportError b p) := by
  unfold reportError
  split
  · exact .refl p
  · exact ((balances_mapAe p (by rfl)).trans (balances_queueWriteBack _ _)).trans (balances_setSummary _ _)

/-- The registers of the sequencer. -/
def Sequencer.registers (m : Sequencer) : Nat × Step × Nat × Nat × Nat × Step :=
  (m.offset, m.voltageStep, m.belowSag, m.belowCritical, m.recovery, m.temperatureStep)

/-- A change of the sequencer that leaves its registers. -/
theorem balances_mapMs (f : Sequencer → Sequencer) (p : Part) (same : (f p.ms).registers = p.ms.registers) :
    Balances free p (p.mapMs f) := by
  simp only [Sequencer.registers, Prod.mk.injEq] at same
  obtain ⟨offset, voltage, sag, critical, recovery, temperature⟩ := same
  refine .of_same rfl rfl ?_ (fun k _ => ?_)
  · simp only [ceiling, ceilingStep, Part.mapMs_ms, voltage, temperature, Part.mapMs_bu, Part.mapMs_mrc]
  · cases k
    case correction => exact offset
    case voltage => simp only [sameRegister, Part.mapMs_ms, voltage, sag, critical, recovery]
    case temperature => exact temperature
    all_goals rfl

/-- The registers of the mode and reset controller. -/
def ModeReset.registers (m : ModeReset) : (Bool × Bool) × PerPort Bool × Straps × ResetPhase × ResetCause × BitVec 8 × Bool :=
  ((m.standby, m.stby), m.present, m.straps, m.phase, m.cause, m.resetCount, m.rideThrough)

/-- A change of the mode and reset controller that leaves its registers. -/
theorem balances_mapMrc (f : ModeReset → ModeReset) (p : Part) (same : (f p.mrc).registers = p.mrc.registers) :
    Balances free p (p.mapMrc f) := by
  simp only [ModeReset.registers, Prod.mk.injEq] at same
  obtain ⟨⟨standby, stby⟩, present, straps, phase, cause, resetCount, rideThrough⟩ := same
  refine .of_same rfl rfl ?_ (fun k _ => ?_)
  · simp only [ceiling, ceilingStep, Part.mapMrc_mrc, standby, Part.mapMrc_ms, Part.mapMrc_bu]
  · cases k
    case standby => simp only [sameRegister, Part.mapMrc_mrc, standby, stby]
    case presence => exact present
    case reset => simp only [sameRegister, Part.mapMrc_mrc, straps, phase, cause, resetCount, rideThrough]
    all_goals rfl

/-- A change of a record that neither the budget's laws nor the shed list's see. -/
theorem balances_updPort {f : PortRecord → PortRecord} (n : Port) (p : Part)
    (k : ∀ r, (f r).state = r.state ∧ (f r).grant = r.grant ∧ (f r).plan = r.plan ∧ (f r).drain = r.drain) :
    Balances free p (updPort n f p) :=
  .of_rests (.updPort k n p) (ceiling_of_fixed (updPort_fixed _ _ _))
    (fun k _ => sameRegister_of_fixed (updPort_fixed _ _ _) (by rw [updPort_ptp]) k)

theorem balances_updLane (n : Port) (f : Lane → Lane) (p : Part) : Balances free p (updLane n f p) :=
  .of_same rfl rfl rfl (fun k _ => sameRegister_of_blocks rfl rfl rfl rfl rfl k)

end
end
end Sys2Proof.Machine
end

