-- ==== Sys2Proof/Proofs/SequencerCarries.lean ====
section
/-! The sequencer, the samples, the end of every command and the bus carry the budget's laws over, and the registers. -/

namespace Sys2Proof.Machine

section
variable {p q r : Part} {n : Port} {free : Register → Prop}

/-! ### The sequencer -/

theorem balances_setMode (mode : SeqMode) (p : Part) : Balances free p (setMode mode p) := by
  have changed : Balances free p (reportDevice true (p.mapMs (fun m => { m with mode := mode }))) :=
    (balances_mapMs _ p (by rfl)).trans (balances_reportDevice _ _)
  unfold setMode
  split
  · exact .refl p
  dsimp only
  split
  · exact changed.budgetAfter true
  · exact changed

theorem balances_beginRound (p : Part) : Balances free p (beginRound p) := balances_mapMs _ p (by rfl)

theorem balances_beginCalibration (p : Part) : Balances free p (beginCalibration p) := balances_mapMs _ p (by rfl)

theorem balances_beginIfAtRest (p : Part) : Balances free p (beginIfAtRest p) := by
  unfold beginIfAtRest
  split
  · exact balances_beginRound p
  · exact .refl p

theorem balances_reportResults (p : Part) : Balances free p (reportResults p) := balances_queueWriteBack _ _

theorem balances_endCommand (p : Part) : Balances free p (endCommand p) :=
  ((balances_mapMs _ p (by rfl)).trans (balances_reportResults _)).trans (balances_complete _ _ _)

theorem balances_swapSequence (p : Part) : Balances free p (swapSequence p) := by
  unfold swapSequence
  split
  · exact .refl p
  split
  · exact (((balances_mapMs _ p (by rfl)).trans (balances_reportDevice _ _)).budgetAfter true).trans (balances_complete _ _ _)
  · exact ((balances_mapMs _ p (by rfl)).trans (balances_reportDevice _ _)).trans (balances_complete _ _ _)

theorem balances_deliverSequence (s : Option Sequence) (p : Part) : Balances free p (deliverSequence s p) := by
  have waiting (s : Sequence) : Balances free p (reportDevice true (p.mapMs (fun m => { m with pending := some s }))) :=
    (balances_mapMs _ p (by rfl)).trans (balances_reportDevice _ _)
  unfold deliverSequence
  split
  · exact balances_complete _ _ p
  split
  · exact balances_complete _ _ p
  split
  · exact balances_complete _ _ p
  dsimp only
  split
  · exact (waiting _).trans (balances_swapSequence _)
  · exact waiting _

theorem balances_runCommand (c : SeqCommand) (p : Part) : Balances free p (runCommand c p) := by
  unfold runCommand
  split
  · unfold seqRun
    refine Balances.trans ?_ (balances_complete _ _ _)
    split
    · exact (balances_beginIfAtRest p).trans (balances_setMode _ _)
    · exact .refl p
  · unfold seqOnce
    split
    · exact balances_complete _ _ p
    · exact ((balances_mapMs _ p (by rfl)).trans (balances_beginIfAtRest _)).trans (balances_setMode _ _)
  · have stopped : Balances free p (setMode .stopped (p.mapMs (fun m => { m with command := some .stop }))) :=
      (balances_mapMs _ p (by rfl)).trans (balances_setMode _ _)
    unfold seqStop
    split
    · exact balances_complete _ _ p
    split
    · exact balances_endCommand p
    dsimp only
    split
    · exact stopped
    · exact (stopped.trans (balances_mapMs _ _ (by rfl))).trans (balances_endCommand _)
  · unfold seqCalibrate
    dsimp only
    split
    · exact (balances_mapMs _ p (by rfl)).trans (balances_beginCalibration _)
    · exact (balances_mapMs _ p (by rfl)).trans (balances_setMode _ _)

theorem balances_takeCommand (c : SeqCommand) (p : Part) : Balances free p (takeCommand c p) := by
  unfold takeCommand
  split
  · exact balances_mapMs _ p (by rfl)
  · exact balances_runCommand c p

theorem balances_warmupEnd (p : Part) : Balances free p (warmupEnd p) := by
  have running : Balances free p (setMode .running (beginRound (swapSequence p))) :=
    ((balances_swapSequence p).trans (balances_beginRound _)).trans (balances_setMode _ _)
  unfold warmupEnd runHeld
  split
  · exact running
  · exact (running.trans (balances_mapMs _ _ (by rfl))).trans (balances_runCommand _ _)

theorem balances_roundEnd (p : Part) : Balances free p (roundEnd p) := by
  have reported : Balances free p (reportResults p) := balances_reportResults p
  unfold roundEnd
  dsimp only
  split
  case h_1 => exact (reported.trans (balances_swapSequence _)).trans (balances_beginRound _)
  case h_2 => exact reported.trans (balances_beginCalibration _)
  case h_3 =>
    refine reported.trans ?_
    unfold onceRoundEnd
    split
    · exact ((balances_mapMs _ _ (by rfl)).trans (balances_setMode _ _)).trans (balances_endCommand _)
    · exact (balances_mapMs _ _ (by rfl)).trans (balances_beginRound _)
  case h_4 | h_5 => exact reported

theorem balances_slotEnd (p : Part) : Balances free p (slotEnd p) := by
  unfold slotEnd
  split
  · exact .refl p
  split
  · exact (balances_mapMs _ p (by rfl)).trans (balances_endCommand _)
  split
  · exact balances_roundEnd p
  · exact balances_mapMs _ p (by rfl)

theorem balances_abandonedEnd (p : Part) : Balances free p (abandonedEnd p) := by
  have given : Balances free p (p.mapMs (fun m => { m with calibration := none })) := balances_mapMs _ p (by rfl)
  unfold abandonedEnd
  dsimp only
  split
  case h_1 =>
    split
    · exact given.trans (balances_beginCalibration _)
    · exact (given.trans (balances_beginRound _)).trans (balances_setMode _ _)
  case h_2 | h_3 => exact given.trans (balances_beginRound _)
  case h_4 => exact given.trans (balances_endCommand _)
  case h_5 => exact given

/-- The correction changes at the sixteenth conversion of a calibration (R81). -/
theorem balances_calibrationConverted (reading : Nat) (p : Part) :
    Balances (· = .correction) p (calibrationConverted reading p) := by
  have set (offset : Nat) : Balances (· = .correction) p (p.mapMs (fun m => { m with offset := offset, calibration := none })) := by
    refine .of_same rfl rfl rfl (fun k f => ?_)
    cases k
    case correction => exact absurd rfl f
    all_goals rfl
  unfold calibrationConverted
  split
  · exact .refl p
  split
  · exact balances_abandonedEnd p
  split
  · unfold calibrated
    dsimp only
    refine Balances.trans (Balances.trans ?_ (balances_setRequest _ _ _)) (balances_endCommand _)
    split
    · exact ((set _).trans (balances_beginRound _)).trans (balances_setMode _ _)
    · exact set _
  · exact balances_mapMs _ p (by rfl)

/-! ### Samples -/

theorem balances_keepResult (result : Int) (p : Part) : Balances free p (keepResult result p) := by
  unfold keepResult
  split
  · exact .refl p
  · exact balances_mapMs _ p (by rfl)

/-- A sample judged acts at its port. -/
theorem judgeSample_registers (n : Port) (sample : Nat) (p : Part) (k : Register) : sameRegister p (judgeSample n sample p) k := by
  refine sameRegister_of_fixed (judgeSample_fixed n sample p) ?_ k
  unfold judgeSample
  split
  · unfold rampTest
    split
    · rfl
    split
    · unfold rampDone
      split
      · rw [setTimers_ptp, moveTo_shadows]; rfl
      · rfl
    · rfl
  split
  · unfold overTest
    dsimp only
    split
    · exact (Acts.refl.failPort (S := fun _ => True) trivial _).shadows
    · rfl
  · rfl

/-- The last current changes at a sample of its port (R83). -/
theorem carries_portSample (n : Port) (reading : Nat) (p : Part) : Carries (· = .currents) p (portSample n reading p) := by
  refine .of_ok partOk_portSample (fun _ h => h.portSample reading) (fun k f => ?_)
  have kept : sameRegister p (keepResult (corrected p reading : Int) p) k :=
    (balances_keepResult (free := fun _ => False) _ p).registers k id
  unfold portSample
  dsimp only
  split
  · exact kept
  · refine (kept.trans ?_).trans (judgeSample_registers _ _ _ k)
    refine sameRegister.trans ?_ ((balances_reportPort (free := fun _ => False) _ _ _).registers k id)
    cases k
    case currents => exact absurd rfl f
    all_goals rfl

/-- Steps changed, with the report of the change (R41). -/
theorem carries_updSteps (f : Sequencer → Sequencer) (p : Part) (registers : ∀ k, ¬free k → sameRegister p (p.mapMs f) k) :
    Carries free p (updSteps f p) := by
  have changed : Carries free p (p.mapMs f) := .of_rests (.of_same rfl rfl) registers
  unfold updSteps
  split
  · exact changed
  · exact changed.trans (balances_reportDevice _ _).toCarries

theorem carries_voltageSample (mv : Nat) (p : Part) : Carries (· = .voltage) p (voltageSample mv p) := by
  have kept : Carries (· = .voltage) p (keepResult (min Config.voltageMax mv : Nat) p) := (balances_keepResult _ p).toCarries
  unfold voltageSample
  dsimp only
  split
  · exact kept
  · refine kept.trans (carries_updSteps _ _ (fun k f => ?_))
    cases k
    case voltage => exact absurd rfl f
    all_goals rfl

theorem carries_temperatureSample (c : Int) (p : Part) : Carries (· = .temperature) p (temperatureSample c p) := by
  have kept : Carries (· = .temperature) p (keepResult (max (-40) (min 150 c)) p) := (balances_keepResult _ p).toCarries
  unfold temperatureSample
  dsimp only
  split
  · exact kept
  · refine kept.trans (carries_updSteps _ _ (fun k f => ?_))
    cases k
    case temperature => exact absurd rfl f
    all_goals rfl

/-! ### The end of a command -/

theorem carries_retest (n : Port) (p : Part) : Carries free p (retest n p) :=
  .of_acts (Acts.refl.retest (S := fun _ => True) trivial) partOk_retest shedListLaw.retest

theorem balances_swapWheel (p : Part) : Balances free p (swapWheel p) := by
  rcases swapWheel_cases p with ⟨-, e⟩ | ⟨w, -, -, e⟩ | ⟨w, -, -, e⟩ <;> rw [e]
  · exact .refl p
  · have swapped : Balances free p (wheelIn w p) :=
      ((balances_mapMo _ p).trans (balances_queueWriteBack _ _)).trans (balances_reportDevice _ _)
    exact ((swapped.toCarries.trans (.foldl carries_retest allPorts _)).budgetAfter true).trans (balances_complete _ _ _)
  · exact ((balances_mapMo _ p).trans (balances_reportDevice _ _)).trans (balances_complete _ _ _)

theorem balances_grantAt (i : Nat) (p : Part) : Balances free p (grantAt i p) :=
  .of_stay (grantAt_stay i p) (grantAt_shadows i p) (grantAt_bus i p).2.2.2.2.2.2.2

theorem balances_moDecision (p : Part) : Balances free p (moDecision p) := by
  rcases moDecision_cases p with e | ⟨i, -, -, e⟩ <;> rw [e]
  · exact .refl p
  · rcases swapAfter_cases i p.mo.pointer (grantAt i p) with g | g <;> rw [g]
    · exact (balances_grantAt i p).trans (balances_swapWheel _)
    · exact balances_grantAt i p

/-- The end of a command carries everything over. -/
theorem balances_settle (p : Part) : Balances free p (settle p) := by
  have swept : Balances free p (adoptSweep p) := by
    rcases adoptSweep_cases p with e | e <;> rw [e]
    · exact .refl p
    · exact (balances_mapMrc _ p (by rfl)).trans (balances_reportDevice _ _)
  refine Balances.trans (swept.trans (balances_moDecision _)) ?_
  rw [settle]
  rcases idleSwap_cases (moDecision (adoptSweep p)) with ⟨-, e⟩ | ⟨-, e⟩ <;> rw [e]
  · exact (balances_swapWheel _).trans (balances_moDecision _)
  · exact .refl _

/-! ### The bus -/

theorem balances_answerBus (a : BusAnswer) (p : Part) : Balances free p (answerBus a p) := balances_mapPtp p (by rfl)

theorem balances_answerAtOnce (p : Part) : Balances free p (answerAtOnce p) := balances_answerBus _ p

theorem balances_carry (p : Part) : Balances free p (carry p) := by
  unfold carry
  split
  · exact .refl p
  · exact (balances_mapPtp p (by rfl)).trans (balances_mapMo _ _)

theorem balances_startAccess (b : BusAccess) (stage : Stage) (purpose : CpPurpose) (p : Part) :
    Balances free p (startAccess b stage purpose p) := balances_mapPtp p (by rfl)

theorem balances_carryAccess (b : BusAccess) (purpose : CpPurpose) (p : Part) : Balances free p (carryAccess b purpose p) :=
  (balances_startAccess b _ purpose p).trans (balances_carry _)

theorem balances_statusRead (b : BusAccess) (record : Target) (p : Part) : Balances free p (statusRead b record p) := by
  unfold statusRead
  split
  · exact (balances_mapAe p (by rfl)).trans (balances_startAccess _ _ _ _)
  · exact balances_carryAccess _ _ p

theorem balances_clearError (b : BusAccess) (p : Part) : Balances free p (clearError b p) := by
  have error : Balances free p (p.mapAe (fun a => { a with error := cleared a.error b })) := balances_mapAe p (by rfl)
  unfold clearError dropErrorBit
  split
  · exact (error.trans (balances_mapAe _ (by rfl))).trans (balances_queueWriteBack _ _)
  · exact error

theorem balances_clearSummary (b : BusAccess) (p : Part) : Balances free p (clearSummary b p) := balances_mapAe p (by rfl)

theorem balances_mergeWrite (b : BusAccess) (record : Target) (p : Part) : Balances free p (mergeWrite b record p) := by
  unfold mergeWrite
  split
  · exact (balances_clearError b p).trans (balances_carryAccess _ _ _)
  · exact (balances_clearSummary b p).trans (balances_carryAccess _ _ _)

theorem carries_clearRequest (n : Port) (p : Part) : Carries free p (clearRequest n p) :=
  .of_acts (Acts.refl.clearRequest (S := fun _ => True) trivial)
    (fun h => partOk_port h (by simp) (fun _ e => by simp [e]) (fun o _ => okAt_clearRequest o)) shedListLaw.clearRequest

theorem carries_restartRequest (n : Port) (p : Part) : Carries free p (restartRequest n p) :=
  .of_acts (Acts.refl.restartRequest (S := fun _ => True) trivial)
    (fun h => partOk_port h (by simp) (fun _ e => by simp [e]) (fun o _ => okAt_restartRequest o)) shedListLaw.restartRequest

theorem balances_startWork (w : ReqWord) (code : Byte) (p : Part) : Balances free p (startWork w code p) := by
  unfold startWork
  split
  case h_1 | h_2 | h_3 | h_6 => exact balances_mapAe p (by rfl)
  case h_4 => exact balances_takeCommand _ p
  case h_5 => exact balances_mapMrc _ p (by rfl)
  case h_7 => exact (carries_clearRequest _ p).event
  case h_8 => exact (carries_restartRequest _ p).event
  case h_9 => exact balances_complete _ _ p

theorem balances_requestWrite (b : BusAccess) (w : ReqWord) (p : Part) : Balances free p (requestWrite b w p) := by
  unfold requestWrite
  split
  · exact (balances_answerAtOnce p).trans (balances_reportError _ _)
  split
  · exact (balances_answerAtOnce p).trans (balances_reportError _ _)
  · refine ((balances_setRequest w (takenState b.value) p).trans ?_).trans (balances_startWork _ _ _)
    unfold takenWrite
    split
    · exact balances_answerAtOnce _
    · exact balances_carryAccess _ _ _

theorem balances_arriveInArea (b : BusAccess) (offset : Nat) (p : Part) : Balances free p (arriveInArea b offset p) := by
  unfold arriveInArea
  split
  case h_1 | h_7 => exact balances_carryAccess _ _ p
  case h_2 =>
    unfold hostWrite
    split
    · exact balances_carryAccess _ _ p
    split
    · exact balances_startAccess _ _ _ p
    · exact balances_carryAccess _ _ p
  case h_3 | h_5 => exact balances_statusRead _ _ p
  case h_4 => exact (balances_answerAtOnce p).trans (balances_reportError _ _)
  case h_6 => exact balances_mergeWrite _ _ p
  case h_8 => exact balances_requestWrite _ _ p

theorem balances_arrive (b : BusAccess) (p : Part) : Balances free p (arrive b p) := by
  unfold arrive
  split
  · exact balances_arriveInArea _ _ p
  · unfold arriveOutside
    split
    · split <;> exact balances_carryAccess _ _ p
    · exact balances_carryAccess _ _ p

theorem balances_present (b : BusAccess) (p : Part) : Balances free p (present b p) := by
  unfold present
  split
  · exact balances_mapPtp p (by rfl)
  · exact balances_arrive b p

theorem balances_arrivePresented (p : Part) : Balances free p (arrivePresented p) := by
  unfold arrivePresented
  split
  · exact .refl p
  · exact (balances_mapPtp p (by rfl)).trans (balances_arrive _ _)

theorem balances_holdExpired (p : Part) : Balances free p (holdExpired p) := by
  unfold holdExpired
  split
  · exact .refl p
  next a _ =>
    have answered : Balances free p (reportError .holdExpired (answerBus (errorAnswer a.bus) p)) :=
      (balances_mapPtp p (by rfl)).trans (balances_reportError _ _)
    dsimp only
    split
    · exact answered.trans (balances_mapMo _ _)
    · exact answered
    · exact answered

end
end Sys2Proof.Machine
end

