-- ==== Sys2Proof/Proofs/EventCarries.lean ====
section
/-! The completions of bursts, frames, presence, standby and adoption carry the budget's laws over, and the registers. -/

namespace Sys2Proof.Machine

section
variable {p : Part} {n : Port} {free : Register → Prop}

/-! ### Completions of bursts -/

theorem balances_releaseRead (p : Part) : Balances free p (releaseRead p) := by
  unfold releaseRead
  split
  · exact balances_carry p
  · exact .refl p

theorem balances_landedBits (t : Target) (mark : Bool) (p : Part) : Balances free p (landedBits t mark p) := by
  unfold landedBits
  split
  case h_1 | h_2 =>
    split
    · exact balances_setSummary _ p
    · exact .refl p
  case h_3 => exact (balances_setRequest .device _ p).trans (balances_setSummary _ _)
  case h_4 m => exact (balances_setRequest (.port m) _ p).trans (balances_setSummary _ _)
  case h_5 => exact .refl p

theorem balances_writeBackDone (t : Target) (mark fault : Bool) (p : Part) : Balances free p (writeBackDone t mark fault p) := by
  unfold writeBackDone
  dsimp only
  split
  · exact ((balances_reportError _ p).trans (balances_landedBits t mark _)).trans (balances_releaseRead _)
  · exact (balances_landedBits t mark p).trans (balances_releaseRead _)

theorem balances_cueToLane (n : Port) (v : Word) (p : Part) : Balances free p (cueToLane n v p) := by
  unfold cueToLane
  split
  · exact .refl p
  · exact balances_updLane _ _ p

/-- A cue shadow changes as a cue write lands (R157). -/
theorem balances_cueLanded (n : Port) (v : Word) (p : Part) : Balances (· = .shadows) p (cueLanded n v p) := by
  have shadowed : Balances (· = .shadows) p (p.mapPtp (fun t => { t with shadows := t.shadows.put n (some v) })) := by
    refine .of_same rfl rfl rfl (fun k f => ?_)
    cases k
    case shadows => exact absurd rfl f
    all_goals rfl
  unfold cueLanded
  dsimp only
  split
  · exact (shadowed.trans (balances_reportPort _ _ _)).trans (balances_cueToLane _ _ _)
  · exact (shadowed.trans (balances_reportPort _ _ _)).trans (balances_updPort _ _ (fun _ => by exact ⟨rfl, rfl, rfl, rfl⟩))

theorem balances_cpDone (c : CpBurst) (fault : Bool) (word : List Byte) (p : Part) :
    Balances (· = .shadows) p (cpDone c fault word p) := by
  have answered : Balances (· = .shadows) p (answerBus (cpAnswer c fault word) p) := balances_answerBus _ p
  unfold cpDone
  dsimp only
  split
  · exact answered.trans (balances_reportError _ _)
  split
  · exact answered.trans (balances_cueLanded _ _ _)
  · exact answered

/-- The device plan copy changes as an APPLY_DEVICE is delivered (R44). -/
theorem carries_deliverDevicePlan (d : DevicePlan) (p : Part) : Carries (· = .devicePlan) p (deliverDevicePlan d p) := by
  have stored : Carries (· = .devicePlan) p (p.mapBu (fun b => { b with plan := d })) := by
    refine ⟨id, id, fun _ h => h.mapBu (fun _ => ⟨rfl, rfl⟩), fun k f => ?_⟩
    cases k
    case devicePlan => exact absurd rfl f
    all_goals rfl
  unfold deliverDevicePlan storeDevicePlan
  split
  · refine Carries.trans ?_ (balances_complete _ _ _).toCarries
    dsimp only
    split
    · exact stored
    · exact stored.trans (balances_reportDevice _ _).toCarries
  · exact (balances_complete _ _ p).toCarries

theorem carries_deliverApply (n : Port) (plan : Option Plan) (p : Part) : Carries free p (deliverApply n plan p) :=
  .of_acts (Acts.refl.deliverApply (S := fun _ => True) trivial plan)
    (fun h => partOk_port h (by simp) (fun _ e => by simp [e]) okAt_deliverApply) (fun h => h.deliverApply plan)

theorem balances_deliverWheel (w : Option (List Phase)) (p : Part) : Balances free p (deliverWheel w p) := by
  unfold deliverWheel
  split
  · exact balances_complete _ _ p
  next w =>
    have waiting : Balances free p (reportDevice true (p.mapMo (fun o => { o with pendingWheel := some w }))) :=
      (balances_mapMo _ p).trans (balances_reportDevice _ _)
    split
    · exact balances_complete _ _ p
    split
    · exact balances_complete _ _ p
    dsimp only
    split
    · exact waiting
    · exact waiting.trans (balances_swapWheel _)

theorem balances_copyReadDone (s : Source) (fault : Bool) (bytes : List Byte) (p : Part) :
    Balances (· = .devicePlan) p (copyReadDone s fault bytes p) := by
  have released : Balances (· = .devicePlan) p (releaseWrite s p) := by
    unfold releaseWrite
    split
    · split
      · exact balances_carry p
      · exact .refl p
    · exact .refl p
  unfold copyReadDone
  dsimp only
  split
  · exact released.trans (balances_complete _ _ _)
  · refine released.trans ?_
    unfold deliver
    split
    · exact (carries_deliverDevicePlan _ _).event
    · exact balances_deliverWheel _ _
    · exact balances_deliverSequence _ _
    · exact (carries_deliverApply _ _ _).event

theorem carries_accessDone (n : Port) (a : Answer) (p : Part) : Carries free p (accessDone n a p) :=
  .of_acts (Acts.refl.accessDone (S := fun _ => True) trivial a)
    (fun h => partOk_port h (by simp) (fun _ e => by simp [e]) (fun o _ => okAt_accessDone o)) (fun h => h.accessDone a)

theorem balances_portBurstDone (n : Port) (a : LaneAccess) (offset length : Nat) (last discard fault : Bool) (data : List Byte)
    (p : Part) : Balances free p (portBurstDone n a offset length last discard fault data p) := by
  have marked : Balances free p
      (if last && a.kind == .put then markTest n a (a.after offset length fault data).markFault p else p) := by
    unfold markTest
    split
    · split
      · exact balances_setSummary _ p
      · exact .refl p
    · exact .refl p
  unfold portBurstDone
  dsimp only
  refine marked.trans ?_
  generalize (if last && a.kind == .put then markTest n a (a.after offset length fault data).markFault p else p) = q
  split
  · exact .refl _
  split
  · exact (carries_accessDone _ _ _).event
  split
  · exact .refl _
  split
  · exact (balances_mapMo _ _).trans (carries_accessDone _ _ _).event
  · exact balances_mapMo _ _

/-- A completed burst changes of the registers the device plan and the cue shadows. -/
theorem balances_afterBurst (f : InFlight) (fault : Bool) (data : List Byte) (p : Part) :
    Balances (fun k => k = .devicePlan ∨ k = .shadows) p (afterBurst f fault data p) := by
  have freed : Balances (fun k => k = .devicePlan ∨ k = .shadows) p (freed p) := balances_mapMo _ p
  refine (freed.trans ?_).trans (balances_settle _)
  unfold burstDone
  split
  · split
    · exact .refl _
    · exact (balances_cpDone _ _ _ _).mono (fun _ => .inr)
  · split
    · exact .refl _
    · exact balances_writeBackDone _ _ _ _
  · split
    · exact .refl _
    · exact (balances_copyReadDone _ _ _ _).mono (fun _ => .inl)
  · exact balances_portBurstDone _ _ _ _ _ _ _ _ _

/-! ### Frames -/

theorem balances_takeRequest (n : Port) (kind : ReqKind) (tag cls : Fin 4) (offset length : Nat) (data : List Byte) (p : Part) :
    Balances free p (takeRequest n kind tag cls offset length data p) := by
  unfold takeRequest
  split
  · exact (balances_updPort n p (fun _ => by exact ⟨rfl, rfl, rfl, rfl⟩)).trans (balances_reportError _ _)
  split
  · exact balances_updLane _ _ p
  split
  · exact balances_updLane _ _ p
  · exact (balances_updLane _ _ p).trans (balances_mapMo _ _)

theorem balances_checkError (n : Port) (p : Part) : Balances free p (checkError n p) :=
  balances_updPort n p (fun _ => ⟨rfl, rfl, rfl, rfl⟩)

/-- What holds from a part to itself, through a check error and through a good frame holds through every frame (R93). -/
theorem takeFrame_of_good {R : Part → Part → Prop} {f : RxFrame} (refl : R p p) (bad : R p (checkError n p))
    (good : R p (takeGood n f (updLane n Lane.heard p))) : R p (takeFrame n f p) := by
  unfold takeFrame
  split
  · exact refl
  split
  · exact good
  · exact bad

theorem carries_takeHello (n : Port) (i : Identity) (p : Part) : Carries free p (takeHello n i p) :=
  .of_acts (Acts.refl.takeHello (S := fun _ => True) trivial i)
    (fun h => partOk_port h (by simp) (fun _ e => by simp [e]) (fun o _ => okAt_takeHello o)) (fun h => h.takeHello i)

theorem carries_leaveTaken (n : Port) (p : Part) : Carries free p (leaveTaken n p) :=
  .of_acts (Acts.refl.leaveTaken (S := fun _ => True) trivial)
    (fun h => partOk_port h (by simp) (fun _ e => by simp [e]) okAt_leaveTaken) shedListLaw.leaveTaken

theorem carries_takeFrame (n : Port) (f : RxFrame) (p : Part) : Carries free p (takeFrame n f p) := by
  refine takeFrame_of_good (.refl p) (balances_checkError n p).toCarries ((balances_updLane n Lane.heard p).toCarries.trans ?_)
  cases f with
  | hello i => exact carries_takeHello n i _
  | put tag cls offset data => exact (balances_takeRequest _ _ _ _ _ _ _ _).toCarries
  | get tag cls offset length => exact (balances_takeRequest _ _ _ _ _ _ _ _).toCarries
  | keep => exact .refl _
  | leave => exact carries_leaveTaken n _

theorem balances_takeFrame (n : Port) {f : RxFrame} (p : Part) (quiet : ∀ q, Balances free q (takeGood n f q)) :
    Balances free p (takeFrame n f p) :=
  takeFrame_of_good (.refl p) (balances_checkError n p) ((balances_updLane n _ p).trans (quiet _))

theorem carries_takeBytes (n : Port) (bytes : List Byte) (p : Part) : Carries free p (takeBytes n bytes p) := by
  obtain e | e | ⟨f, e⟩ := takeBytes_cases n bytes p <;> rw [e]
  · exact .refl p
  · exact (balances_checkError n p).toCarries
  · exact carries_takeFrame n f p

theorem balances_answerEnds (n : Port) (p : Part) : Balances free p (answerEnds n p) := by
  unfold answerEnds
  split
  · exact .refl p
  next a _ =>
    exact Carries.event (.of_acts (Acts.refl.answerSent (S := fun _ => True) trivial a)
      (fun h => partOk_port h (answerSent_fixed _ _ _) (fun _ e => answerSent_aside e _ _) (fun o _ => okAt_answerSent o))
      (fun h => h.answerSent a))

/-! ### Presence, standby and adoption -/

/-- The inputs of presence change at their own commands. -/
theorem balances_setPresent (n : Port) (b : Bool) (p : Part) :
    Balances (· = .presence) p (p.mapMrc (fun m => { m with present := m.present.put n b })) := by
  refine .of_same rfl rfl rfl (fun k f => ?_)
  cases k
  case presence => exact absurd rfl f
  all_goals rfl

theorem balances_setTimers (n : Port) (f : PortTimers → PortTimers) (p : Part) : Balances free p (setTimers n f p) :=
  balances_updPort n p (fun _ => ⟨rfl, rfl, rfl, rfl⟩)

theorem balances_presenceAsserted (n : Port) (p : Part) : Balances (· = .presence) p (presenceAsserted n p) := by
  unfold presenceAsserted
  dsimp only
  split
  · exact (balances_setPresent n true p).trans (balances_setTimers _ _ _)
  · exact balances_setPresent n true p

theorem balances_presenceLost (n : Port) (p : Part) : Balances (· = .presence) p (presenceLost n p) := by
  unfold presenceLost
  dsimp only
  split
  · exact (balances_setPresent n false p).trans (balances_setTimers _ _ _)
  next plugged =>
    refine (balances_setPresent n false p).trans (Carries.event (.of_acts (Acts.unplugPort plugged) ?_ shedListLaw.unplugPort))
    exact fun h => partOk_port h (unplugPort_fixed n _) (fun _ e => unplugPort_aside e _) (fun _ _ => okAt_unplugPort)

theorem carries_setStandby (on : Bool) (p : Part) : Carries (· = .standby) p (setStandby on p) := by
  refine Carries.trans (.of_rests (.of_same (q := p.mapMrc (fun m => { m with standby := on })) rfl rfl) (fun k f => ?_))
    (balances_reportDevice _ _).toCarries
  cases k
  case standby => exact absurd rfl f
  all_goals rfl

theorem carries_toQueued (n : Port) (p : Part) : Carries free p (toQueued n p) :=
  .of_acts (Acts.refl.toQueued (S := fun _ => True) trivial) partOk_toQueued shedListLaw.toQueued

theorem balances_standbyEntered (p : Part) : Balances (· = .standby) p (standbyEntered p) :=
  Carries.event ((carries_setStandby true p).trans
    (.forPorts (fun n p => .of_acts (acts_standbyPort n p) partOk_standbyPort shedListLaw.standbyPort) _))

theorem carries_unkeepPort (n : Port) (p : Part) : Carries free p (unkeepPort n p) :=
  .of_acts (Acts.refl.upd (S := fun _ => True) trivial (fun _ => ⟨rfl, rfl, rfl, rfl⟩)) partOk_unkeepPort shedListLaw.unkeepPort

theorem balances_standbyExited (p : Part) : Balances (· = .standby) p (standbyExited p) := by
  have unkept := (carries_setStandby false p).trans (.forPorts carries_unkeepPort _)
  exact Carries.event (unkept.trans (.foldl (fun n p => (carries_toQueued n p).event.toCarries) _ _))

theorem balances_setStby (b : Bool) (p : Part) : Balances (· = .standby) p (p.mapMrc (fun m => { m with stby := b })) := by
  refine .of_same rfl rfl rfl (fun k f => ?_)
  cases k
  case standby => exact absurd rfl f
  all_goals rfl

theorem balances_stbyAsserted (p : Part) : Balances (· = .standby) p (stbyAsserted p) := by
  unfold stbyAsserted
  split
  · exact (balances_setStby _ p).trans (balances_standbyEntered _)
  · exact balances_setStby _ p

theorem balances_stbyDeasserted (p : Part) : Balances (· = .standby) p (stbyDeasserted p) := by
  unfold stbyDeasserted
  split
  · exact (balances_setStby _ p).trans (balances_standbyExited _)
  · exact balances_setStby _ p

theorem balances_adoptionExpired (p : Part) : Balances free p (adoptionExpired p) := by
  refine Balances.trans ((balances_mapMrc _ p (by rfl)).trans (balances_reportDevice _ _)) (Carries.event (.forPorts (fun n p => ?_) _))
  refine .of_acts (S := fun _ => True) ?_ partOk_unadopted shedListLaw.unadopted
  unfold unadopted
  split
  · exact Acts.refl.startDrain trivial _
  · exact .refl

end
end Sys2Proof.Machine
end

