-- ==== Sys2Proof/Proofs/CommandCarries.lean ====
section
/-! The resets, and with them every command, carry the budget's laws over, and the registers that the command does not change. -/

namespace Sys2Proof.Machine

section
variable {p q : Part} {n : Port} {free : Register → Prop}

/-! ### Resets -/

/-- Every register is free. -/
def anyRegister : Register → Prop := fun _ => True

theorem registers_any (k : Register) (f : ¬anyRegister k) : sameRegister p q k := absurd trivial f

/-- A part in which every port is as a reset leaves it, and the budget unit too. -/
structure FreshBudget (q : Part) : Prop where
  ok : ∀ {a : Asked}, partOk a q
  opens : ∀ n, (q.port n).state.closed = false
  bu : q.bu = resetBudget

theorem FreshBudget.balances (h : FreshBudget q) (p : Part) : Balances anyRegister p q := by
  have none : committed q = 0 := by
    unfold committed
    rw [show closedGrant q = fun _ => 0 from funext fun n => by unfold closedGrant; rw [h.opens n]; rfl]
    rfl
  refine ⟨.of_ok (fun _ => h.ok) (fun _ _ => ?_) registers_any, fun _ _ => ⟨?_, ?_, fun isOver => ?_⟩⟩
  · refine ⟨by rw [h.bu]; exact List.nodup_nil, fun m hm => ?_⟩
    rw [h.bu] at hm
    cases hm
  · unfold budgetLaw
    rw [none, h.bu]
    exact (decide_eq_false (Nat.not_lt_zero _)).symm
  · unfold inShortfall
    rw [h.bu]
    rfl
  · rw [h.bu] at isOver
    cases isOver

theorem freshBudget_takeLowReset (c : ResetCause) (p : Part) : FreshBudget (takeLowReset c p) where
  ok := partOk_takeLowReset
  opens n := by
    have record : (takeLowReset c p).port n = resetRecord (p.port n).plan := by simp [takeLowReset, Part.port, PerPort.at]
    rw [record]
    rfl
  bu := rfl

theorem freshBudget_poweredUp (pins : ModeReset) : FreshBudget (poweredUp pins) where
  ok := partOk_poweredUp
  opens := powerOn_closed
  bu := rfl

theorem balances_placeDefault (n : Port) (p : Part) : Balances anyRegister p (placeDefault n p) := by
  unfold placeDefault
  split
  next empty =>
    have record (m : Port) : (p.setPort n { p.port n with plan := defaultPlan p.mrc.straps.auto }).port m = p.port m ∨
        (n = m ∧ (p.setPort n { p.port n with plan := defaultPlan p.mrc.straps.auto }).port m =
          { p.port m with plan := defaultPlan p.mrc.straps.auto }) := by
      by_cases e : n = m
      · exact .inr ⟨e, by rw [← e, Part.setPort_port_self]⟩
      · exact .inl (Part.setPort_port_ne e)
    refine .of_rests ⟨fun m => ?_, fun m => ?_, fun m c => ?_, fun m _ => ?_, rfl⟩ rfl registers_any <;>
      obtain e | ⟨same, e⟩ := record m <;> rw [e]
    · rw [← same, empty] at c
      cases c
    · rfl
  · exact .refl p

theorem balances_startDebouncers (p : Part) : Balances anyRegister p (startDebouncers p) :=
  .forPorts (fun n p => by
    split
    · exact balances_setTimers _ _ p
    · exact .refl p) p

theorem balances_setPhase (phase : ResetPhase) (p : Part) : Balances anyRegister p (setPhase phase p) :=
  .of_same rfl rfl rfl registers_any

theorem balances_latch (s : Straps) (p : Part) : Balances anyRegister p (latch s p) := .of_same rfl rfl rfl registers_any

theorem balances_firstWrites (p : Part) : Balances anyRegister p (firstWrites p) := balances_mapAe p rfl

theorem balances_sampleStby (p : Part) : Balances anyRegister p (sampleStby p) := by
  unfold sampleStby
  split
  · exact (balances_standbyEntered p).mono (fun _ _ => trivial)
  · exact .refl p

theorem balances_endPlainReset (p : Part) : Balances anyRegister p (endPlainReset p) :=
  (((((Balances.forPorts balances_placeDefault p).trans (balances_setPhase .running _)).trans (balances_startDebouncers _)).trans
    (balances_firstWrites _)).trans (balances_sampleStby _)).trans (balances_arrivePresented _)

/-! ### Resets with ride-through -/

theorem carries_ridePort (n : Port) (p : Part) : Carries anyRegister p (ridePort n p) :=
  .of_ok partOk_ridePort (fun _ h => h.ridePort) registers_any

theorem balances_takeRide (c : ResetCause) (p : Part) : Balances anyRegister p (takeRide c p) := by
  have taken : Carries anyRegister p (p.mapMrc (ModeReset.taken c true)) := .of_rests (.of_same rfl rfl) registers_any
  have ridden (q : Part) : Carries anyRegister q (rideBlocks q) := .of_rests (.of_same rfl rfl) registers_any
  have reported (b : SeqMode) (q : Part) : Balances anyRegister q (reportMode b q) := by
    unfold reportMode
    split
    · exact .refl q
    · exact balances_reportDevice _ _
  have cleared (q : Part) : Balances anyRegister q (q.mapAe AreaEngine.taken) := balances_mapAe q rfl
  have ports := (taken.trans (.forPorts carries_ridePort _)).trans (ridden _)
  exact ((ports.budgetAfter true).trans (cleared _)).trans (reported _ _)

theorem carries_latchRide (s : Straps) (p : Part) : Carries anyRegister p (latchRide s p) := by
  unfold latchRide
  dsimp only
  split
  · exact (balances_latch s p).toCarries
  · exact (balances_latch s p).toCarries.trans
      (.forPorts (fun n p => .of_ok partOk_stopIfMet (fun _ h => h.stopIfMet) registers_any) _)

theorem carries_rideQueue (n : Port) (p : Part) : Carries anyRegister p (rideQueue n p) := by
  unfold rideQueue
  split
  · exact (carries_toQueued n p).event.toCarries
  · exact .refl p

theorem carries_ridePlans (p : Part) : Carries anyRegister p (ridePlans p) := by
  have defaults (n : Port) (p : Part) : Carries anyRegister p (rideDefault n p) :=
    .of_ok partOk_rideDefault (fun _ h => h.rideDefault) registers_any
  have cleans (n : Port) (p : Part) : Carries anyRegister p (rideClean n p) :=
    .of_ok partOk_rideClean (fun _ h => h.rideClean) registers_any
  exact (((balances_setPhase .running p).toCarries.trans (.forPorts defaults _)).trans (.forPorts cleans _)).trans
    (.forPorts carries_rideQueue _)

theorem balances_endRide (p : Part) : Balances anyRegister p (endRide p) := by
  have adopting (q : Part) : Balances anyRegister q (startAdoption q) := by
    unfold startAdoption
    split
    · exact (balances_mapMrc _ q (by rfl)).trans (balances_reportDevice _ _)
    · exact .refl q
  exact (((carries_ridePlans p).event.trans (adopting _)).trans (balances_firstWrites _)).trans (balances_arrivePresented _)

theorem balances_resetnAsserted (p : Part) : Balances anyRegister p (resetnAsserted p) := by
  have low : Balances anyRegister p (p.mapMrc (fun m => { m with resetnLow := true })) := balances_mapMrc _ p rfl
  unfold resetnAsserted
  split
  · refine low.trans ?_
    unfold externalReset
    split
    · exact balances_takeRide _ _
    · exact (freshBudget_takeLowReset _ _).balances _
  · exact low

theorem balances_softReset (p : Part) : Balances anyRegister p (softReset p) := by
  unfold softReset
  split
  · exact (balances_takeRide _ p).trans (balances_endRide _)
  · exact ((freshBudget_takeLowReset _ p).balances p).trans (balances_endPlainReset _)

theorem balances_endExternalReset (s : Straps) (p : Part) : Balances anyRegister p (endExternalReset s p) := by
  unfold endExternalReset
  split
  · split
    · exact (balances_latch s p).trans (balances_endPlainReset _)
    · exact balances_latch s p
  · exact (balances_latch s p).trans (balances_endPlainReset _)
  · exact (carries_latchRide s p).event.trans (balances_endRide _)
  · exact .refl p

theorem balances_endPowerOn (s : Straps) (p : Part) : Balances anyRegister p (endPowerOn s p) := by
  have ended : Balances anyRegister p (p.mapMrc (fun m => { m with powerOnOver := true })) := balances_mapMrc _ p rfl
  unfold endPowerOn
  dsimp only
  split
  · exact ended
  · exact (ended.trans (balances_latch s _)).trans (balances_endPlainReset _)

/-! ### Every command -/

/-- The registers a command changes. -/
def changedBy (c : Instr) : Register → Prop
  | .devicePlan => isCompletion c = true ∨ isReset c = true
  | .shadows => isCompletion c = true ∨ isReset c = true
  | .correction => (∃ reading, c = .calibrationConversion reading) ∨ isReset c = true
  | .voltage => (∃ v, c = .sourceVSample v) ∨ isReset c = true
  | .temperature => (∃ v, c = .tempSample v) ∨ isReset c = true
  | .currents => (∃ n reading, c = .portISample n reading) ∨ isReset c = true
  | .standby => c = .standbyEntry ∨ c = .standbyExit ∨ isReset c = true
  | .presence => (∃ n, c = .presenceAssert n ∨ c = .presenceLoss n) ∨ isReset c = true
  | .reset => isReset c = true

theorem changedBy_reset {c : Instr} (h : isReset c = true) (k : Register) : changedBy c k := by
  cases k
  case standby => exact .inr (.inr h)
  case reset => exact h
  all_goals exact .inr h

theorem Balances.by_reset {c : Instr} (h : Balances anyRegister p q) (i : isReset c = true) : Balances (changedBy c) p q :=
  h.mono (fun k _ => changedBy_reset i k)

theorem Balances.by_one {c : Instr} {k : Register} (h : Balances (· = k) p q) (i : changedBy c k) : Balances (changedBy c) p q :=
  h.mono (fun _ e => e ▸ i)

theorem carries_failPort (n : Port) (c : FaultCause) (p : Part) : Carries free p (failPort n c p) :=
  .of_acts (Acts.refl.failPort (S := fun _ => True) trivial c) partOk_failPort (fun h => h.failPort c)

theorem carries_orderTaken (n : Port) (p : Part) : Carries free p (orderTaken n p) := by
  refine .of_ok partOk_orderTaken (fun _ h => h.orderTaken) (fun k _ => ?_)
  exact sameRegister.trans (q := p.mapBu (fun b => { b with orders := b.orders.erase n })) (by cases k <;> rfl)
    ((Acts.refl.shedTaken (S := fun _ => True) trivial).registers k)

/-- Every event carries the laws over, and the registers that its command does not change. -/
theorem balances_of_event {c : Instr} (e : Event p c q) : Balances (changedBy c) p q := by
  cases e
  case powerOnResetEnd s _ => exact (balances_endPowerOn s p).by_reset rfl
  case resetnAssert => exact (balances_resetnAsserted p).by_reset rfl
  case resetnDeassert s _ =>
    have raised : Balances anyRegister p (resetnDeasserted s p) := (balances_mapMrc _ p (by rfl)).trans (balances_endExternalReset s _)
    exact raised.by_reset rfl
  case softResetTake => exact (balances_softReset p).by_reset rfl
  case converterWarmupEnd => exact balances_warmupEnd p
  case presenceAssert n _ => exact (balances_presenceAsserted n p).by_one (.inl ⟨n, .inl rfl⟩)
  case arrival n _ => exact Carries.event (.of_acts (acts_arrived n p) partOk_arrived shedListLaw.arrived)
  case presenceLoss n _ => exact (balances_presenceLost n p).by_one (.inl ⟨n, .inr rfl⟩)
  case helloTimerExpiry n _ =>
    have acts : Acts (fun _ => True) p (noHello n p) :=
      (Acts.refl.move trivial _).upd trivial (fun _ => by exact ⟨rfl, rfl, rfl, rfl⟩)
    exact Carries.event (.of_acts acts partOk_noHello shedListLaw.noHello)
  case rampTimerExpiry n _ => exact Carries.event (carries_failPort n _ p)
  case settleTimerExpiry n can =>
    have settles := can
    unfold settleRuns at settles
    rw [Bool.and_eq_true] at settles
    have s := eq_of_beq settles.1
    exact Carries.event (.of_acts (acts_settleExpired s) (fun h => partOk_settleExpired h can) (fun h => h.settleExpired s))
  case onTimeLimit n _ => exact (balances_updPort n p (fun _ => by exact ⟨rfl, rfl, rfl, rfl⟩)).trans (balances_reportPort _ _ _)
  case onTimeReport n _ => exact (balances_updPort n p (fun _ => by exact ⟨rfl, rfl, rfl, rfl⟩)).trans (balances_reportPort _ _ _)
  case graceTimerExpiry n _ =>
    exact Carries.event (.of_acts (S := fun _ => True) (Acts.refl.endDrain trivial) partOk_endDrain shedListLaw.endDrain)
  case shedOrderTaken n _ => exact Carries.event (f := orderTaken n) (carries_orderTaken n p)
  case hardLimitTrip n _ _ => exact Carries.event (f := failPort n .hard) (carries_failPort n _ p)
  case restartTimerExpiry n _ => exact Carries.event (.of_acts (acts_restartExpired n p) partOk_restartExpired shedListLaw.restartExpired)
  case portISample n reading _ =>
    exact ((carries_portSample n reading p).event.trans (balances_slotEnd _)).by_one (.inl ⟨n, reading, rfl⟩)
  case sourceVSample mv _ => exact ((carries_voltageSample mv p).event.trans (balances_slotEnd _)).by_one (.inl ⟨mv, rfl⟩)
  case tempSample t _ => exact ((carries_temperatureSample t p).event.trans (balances_slotEnd _)).by_one (.inl ⟨t, rfl⟩)
  case offsetSample => exact (balances_keepResult _ p).trans (balances_slotEnd _)
  case noneSlot => exact (balances_keepResult _ p).trans (balances_slotEnd _)
  case calibrationConversion reading _ => exact (balances_calibrationConverted reading p).by_one (.inl ⟨reading, rfl⟩)
  case helloFrame n i _ => exact (carries_takeFrame n _ p).event
  case putFrame n _ _ _ _ _ => exact balances_takeFrame n p (fun q => balances_takeRequest _ _ _ _ _ _ _ q)
  case getFrame n _ _ _ _ _ => exact balances_takeFrame n p (fun q => balances_takeRequest _ _ _ _ _ _ _ q)
  case keepFrame n _ => exact balances_takeFrame n p (fun q => .refl q)
  case leaveFrame n _ => exact (carries_takeFrame n _ p).event
  case badFrame n bytes _ => exact (carries_takeBytes n bytes p).event
  case openSent => exact balances_updLane _ _ p
  case answerSent n _ => exact balances_answerEnds n p
  case frameSent => exact balances_updLane _ _ p
  case keepTimerExpiry => exact balances_updLane _ _ p
  case silenceTimerExpiry n _ =>
    exact Carries.event (.of_acts (S := fun _ => True) (Acts.refl.silenceExpired trivial) partOk_silenceExpired shedListLaw.silenceExpired)
  case holdTimerExpiry => exact balances_holdExpired p
  case standbyEntry => exact (balances_stbyAsserted p).by_one (.inl rfl)
  case standbyExit => exact (balances_stbyDeasserted p).by_one (.inr (.inl rfl))
  case adoptionTimerExpiry => exact balances_adoptionExpired p
  case access b _ => exact balances_present b p

/-- Every command carries the laws over, and the registers that it does not change. -/
theorem balances_exec {c : Instr} {s t : State} (e : exec c s = .next t) : Balances (changedBy c) s.part t.part := by
  obtain rfl | ⟨rfl, part⟩ | ⟨f, fault, done, -, part⟩ | ⟨q, event, part⟩ := exec_cases e
  · exact .refl _
  · rw [part]
    exact ((freshBudget_poweredUp _).balances _).by_reset rfl
  · rw [part]
    refine (balances_afterBurst _ _ _ _).mono (fun k => ?_)
    rintro (rfl | rfl) <;> exact .inl done
  · rw [part]
    exact (balances_of_event event).trans (balances_settle q)

end
end Sys2Proof.Machine
end

