-- ==== Sys2Proof/Proofs/BudgetLawsKept.lean ====
section
/-! The statements about the budget's laws and about the control registers: O51, O45. -/

namespace Sys2Proof.Machine

/-! ### The statements -/

/-- Settles O51: no command leaves the budget's laws or the shed list's (`balances_exec`): the work of the budget unit brings the
budget's laws about after every event that they see, and each operation of the ports keeps the shed list's. -/
theorem stepKeepsTheBudgetLaws : Obligations.StepKeepsTheBudgetLaws := by
  refine ⟨fun s t opens queue budget shed e => ?_, fun s t queue sheds e => ?_⟩
  · have kept : openLaw t.part ∧ budgetLaws t.part :=
      step_keeps (P := fun p => openLaw p ∧ budgetLaws p) ⟨opens, budget, shed⟩ e (fun c r h e =>
        ⟨(balances_exec e).opens h.1, (balances_exec e).budget h.1 h.2⟩)
    exact kept.2
  · have kept : queueLaw t.part ∧ shedListLaw t.part :=
      step_keeps (P := fun p => queueLaw p ∧ shedListLaw p) ⟨queue, sheds⟩ e (fun c r h e =>
        ⟨(balances_exec e).queue h.1, (balances_exec e).sheds h.1 h.2⟩)
    exact kept.2

/-- Only resets and completions of bursts reach past the part (R129). -/
theorem exec_onPart {c : Instr} (s : State) (done : isCompletion c = false) (i : isReset c = false) :
    ∃ can f, exec c s = onPart can f s := by
  cases c
  case powerOnReset => cases i
  case memoryBurstComplete => cases done
  case copyReadComplete => cases done
  case presenceAssert n => exact ⟨fun p => !p.mrc.present.at n, presenceAsserted n, rfl⟩
  case presenceLoss n => exact ⟨fun p => p.mrc.present.at n, presenceLost n, rfl⟩
  case onTimeLimit n => exact ⟨onTimeRuns n, fun p => reportPort n false (updPort n PortRecord.ranLong p), rfl⟩
  case onTimeReport n =>
    exact ⟨fun p => (p.port n).state == .on, fun p => reportPort n false (updPort n PortRecord.atNextSecond p), rfl⟩
  case portISample n reading => exact ⟨converts (.portI n), fun p => slotEnd (event (portSample n reading) p), rfl⟩
  case sourceVSample v => exact ⟨converts .sourceV, fun p => slotEnd (event (voltageSample v) p), rfl⟩
  case tempSample v => exact ⟨converts .temp, fun p => slotEnd (event (temperatureSample v) p), rfl⟩
  case offsetSample reading => exact ⟨converts .offset, fun p => slotEnd (offsetSlot reading p), rfl⟩
  case noneSlot => exact ⟨converts .none, fun p => slotEnd (keepResult 0 p), rfl⟩
  case openSent n => exact ⟨fun p => (p.lane n).sendsOpen, fun p => updLane n (Lane.openSent (decide ((p.port n).state = .on))) p, rfl⟩
  case answerSent n => exact ⟨fun p => (p.lane n).sentAnswer.isSome, answerEnds n, rfl⟩
  case frameSent n => exact ⟨fun p => (p.lane n).sendsOther, updLane n Lane.sendingEnds, rfl⟩
  case keepTimerExpiry n => exact ⟨fun p => (p.lane n).keepTimer.isSome, updLane n Lane.keepExpired, rfl⟩
  case silenceTimerExpiry n => exact ⟨fun p => (p.lane n).silenceTimer.isSome, event (silenceExpired n), rfl⟩
  case holdTimerExpiry => exact ⟨fun p => p.ptp.holdTimer.isSome, holdExpired, rfl⟩
  all_goals exact ⟨_, _, rfl⟩

theorem exec_mem {c : Instr} {s t : State} (e : exec c s = .next t) (done : isCompletion c = false) (i : isReset c = false) :
    t.mem = s.mem := by
  obtain ⟨can, f, on⟩ := exec_onPart s done i
  obtain ⟨-, rfl⟩ | ⟨-, rfl⟩ := onPart_part (on ▸ e)
  · rfl
  · rfl

/-- Settles O45: the registers that a command does not change (`changedBy`) are carried over by it (`balances_exec`). -/
theorem registersChangeOnlyByTheirCommands : Obligations.RegistersChangeOnlyByTheirCommands := by
  intro c s t e i
  have kept := (balances_exec e).registers
  have reset : ¬isReset c = true := by rw [i]; decide
  have still := kept .reset reset
  have voltage (h : ∀ v, c ≠ .sourceVSample v) := kept .voltage (fun g => g.elim (fun ⟨v, k⟩ => h v k) reset)
  have standby (entry : c ≠ .standbyEntry) (exit : c ≠ .standbyExit) :=
    kept .standby (fun g => g.elim entry (fun g => g.elim exit reset))
  simp only [sameRegister, Prod.mk.injEq] at still voltage standby
  refine ⟨fun done => ?_, fun h => ?_, voltage, fun h => ?_, fun h => ?_, standby, fun h => ?_, still⟩
  · have idle : ¬(isCompletion c = true ∨ isReset c = true) := by rw [done, i]; decide
    exact ⟨kept .devicePlan idle, kept .shadows idle, exec_mem e done i⟩
  · exact kept .correction (fun g => g.elim (fun ⟨x, k⟩ => h x k) reset)
  · exact kept .temperature (fun g => g.elim (fun ⟨x, k⟩ => h x k) reset)
  · exact kept .currents (fun g => g.elim (fun ⟨n, x, k⟩ => h n x k) reset)
  · exact kept .presence (fun g => g.elim (fun ⟨n, k⟩ => k.elim (h n).1 (h n).2) reset)

end Sys2Proof.Machine
end
